-- ==== Sys2Proof/Word.lean ====
section
/-! DEFINITION. The word types of the machine and the one shape of a sparse table. -/

namespace Sys2Proof

/-- One byte. -/
abbrev Byte := BitVec 8

/-- A 32-bit register word. -/
abbrev Word := BitVec 32

/-- A 64-bit register pair, an `m` or an `h` register. -/
abbrev DWord := BitVec 64

/-- A 96-bit instruction word (R172). -/
abbrev IWord := BitVec 96

/-- A 64-byte fetch line (R162), byte 0 lowest. -/
abbrev Line := BitVec 512

/-- A sparse table: (key, entry) pairs, keys strictly rising. -/
abbrev Tab (α : Type) := List (Nat × α)

end Sys2Proof
end

