-- ==== Sys2Proof/Syntax.lean ====
section
/-! DEFINITION. The instructions of Tvedyen (R172 to R183) and the device's events, one constructor
for each row of spec/opcode_table.json. -/

namespace Sys2Proof

/-- The types of the 6-bit `TYPE` field (R178); `undef` stands for every undefined code. -/
inductive Ty where
  | n32 | s32 | n64 | s64 | n8 | s8 | n16 | s16 | b128
  | f32 | f64 | f16x2 | bf16x2 | f16 | bf16
  | e4m3x4 | e5m2x4 | e2m1x8 | s8x4 | s4x8 | n8x4 | n4x8 | e8m0
  | undef
  deriving DecidableEq, Repr

/-- A 9-bit operand field (R175); `bad` stands for the reserved values 0x141 to 0x1FF. -/
inductive Opd where
  | v (n : BitVec 8)
  | s (n : BitVec 6)
  | zero
  | bad
  deriving DecidableEq, Repr

/-- The guard code GRD (R173). -/
inductive Guard where
  | always
  | pred (neg : Bool) (p : Fin 7)
  | bad
  deriving DecidableEq, Repr

/-- The flag select `FS` (R170). -/
inductive FlagSel where
  | none | setA | setB | bad
  deriving DecidableEq, Repr

/-- The fields every instruction has (R172); `OP` is the constructor and `I` the layout. -/
structure Common where
  grd : Guard
  fs : FlagSel
  u : Bool
  deriving DecidableEq, Repr

/-- Format RRR (R176). -/
structure RRR where
  d : Opd
  a : Opd
  b : Opd
  c : Opd
  ty : Ty
  mod : BitVec 8
  pd : BitVec 3
  deriving DecidableEq, Repr

/-- Format RI (R176, R177). -/
structure RI where
  d : Opd
  a : Opd
  imm : BitVec 32
  ty : Ty
  mod : BitVec 8
  pd : BitVec 3
  deriving DecidableEq, Repr

/-- Format BR (R176). -/
structure BR where
  loff : BitVec 24
  slot : BitVec 3
  prio : BitVec 12
  a : Opd
  mod : BitVec 8
  deriving DecidableEq, Repr

/-- Format M (R176); `r` is the data register field. -/
structure FM where
  r : Opd
  bx : BitVec 4
  idx : Opd
  off : BitVec 24
  ty : Ty
  mod : BitVec 8
  c : Opd
  pd : BitVec 3
  deriving DecidableEq, Repr

/-- Format X (R176). -/
structure FX where
  zd : BitVec 3
  zs : BitVec 3
  a : Opd
  bx : BitVec 4
  off : BitVec 24
  fslot : BitVec 3
  cv : BitVec 4
  mod : BitVec 8
  sa : Opd
  deriving DecidableEq, Repr

/-- Format K (R176); `off` is bits [31:8], which only `MLD` and `MST` use (R265). -/
structure FK where
  md : BitVec 6
  ma : BitVec 6
  mb : BitVec 6
  mc : BitVec 6
  v : Opd
  cov : BitVec 2
  mod : BitVec 8
  pd : BitVec 3
  off : BitVec 24
  deriving DecidableEq, Repr

/-- Format H (R176, R267); `ix` is bits [15:7]. -/
structure FH where
  hd : BitVec 4
  ha : BitVec 4
  v : Opd
  off : BitVec 24
  ty : Ty
  mod : BitVec 8
  pd : BitVec 3
  hb : BitVec 4
  ix : Opd
  deriving DecidableEq, Repr

/-- Format S (R176). -/
structure FS where
  d : Opd
  a : Opd
  imm : BitVec 24
  mod : BitVec 8
  pd : BitVec 3
  deriving DecidableEq, Repr

/-- An instruction that has both layouts: bit [78] selects RRR or RI (R177). -/
inductive Arith where
  | rrr (f : RRR)
  | ri (f : RI)
  deriving DecidableEq, Repr

/-- An error an environment event strikes (R375): which storage and where. -/
inductive ErrSite where
  | register (warp reg lane : Nat)
  | shared (core word : Nat)
  | tile (core tile word : Nat)
  | plinth (chiplet unit : Nat)
  /-- the race metadata of a 16-byte granule of a chiplet's Plinth -/
  | metadata (chiplet granule : Nat)
  | hbm (unit : Nat)
  | control (cluster : Nat)
  deriving DecidableEq, Repr

/-- The medium of a coolant report (R372). -/
inductive Coolant where
  | air | plate | immersion
  deriving DecidableEq, Repr

/-- What a peer's answer to one element request carries (R355, R357). -/
inductive PeerAnswer where
  | data (bytes : List (BitVec 8))
  | written
  | remoteFault
  deriving DecidableEq, Repr

/-- Which request a peer's answer belongs to (R355, R358): the copy command, by the number of its operation, the element,
and the virtual address asked for. -/
structure PeerKey where
  op : Nat
  elem : Nat
  va : Nat
  deriving DecidableEq, Repr

/-- A remap table (R2, R363): the physical cluster of each logical one, and, where they are not the same, the physical chiplet
of a logical one and the physical core of a logical one within its cluster, by 8·cluster + core. -/
structure RemapTable where
  clusters : List (Nat × Nat)
  chips : List (Nat × Nat) := []
  cores : List (Nat × Nat) := []
  deriving DecidableEq, Repr

/-- The instruction set and the device's events.  An instruction carries its common fields and its
format's fields; an event carries the agent it concerns and what the world outside supplies. -/
inductive Instr where
  /-- R194: Does nothing. -/
  | nop (c : Common) (f : BR)
  /-- R192: Participating lanes take the relative target (LINE+LOFF, SLOT, PRIO) after the CONTROL-FLOW and TGT checks; other lanes fall through. -/
  | bra (c : Common) (f : BR)
  /-- R192: Each participating lane takes the full 32-bit code pointer in its operand, checked under R22 and R165. -/
  | brx (c : Common) (f : BR)
  /-- R192: Writes the next-slot code pointer with the caller's PRIO to the link register, then transfers to the relative target. -/
  | call (c : Common) (f : BR)
  /-- R192: Transfers each participating lane to the code pointer held in its operand, as BRX does. -/
  | ret (c : Common) (f : BR)
  /-- R193: Ends the participating threads, closes the region as a release, waits for parked stores and, for the warp's last thread, for all flags; may finish the block. -/
  | exit (c : Common) (f : BR)
  /-- R194: Makes the warp yield as R167 states when at least one lane participates. -/
  | yield (c : Common) (f : BR)
  /-- R31: Participating lanes arrive at this PC and block until every lane of their mask has arrived or exited, then continue as one entry. -/
  | wsync (c : Common) (f : BR)
  /-- R196: Sets the region-start code pointer of every thread of the issued entry to the next slot. -/
  | rgn (c : Common) (f : BR)
  /-- R198: Forms the ballot of a predicate over participating lanes and writes ALL, ANY, UNI or the ballot mask. -/
  | vote (c : Common) (f : RRR)
  /-- R199: Moves a value between lanes by index, up, down or xor within segments of width w, writing a validity predicate. -/
  | shfl (c : Common) (f : RRR)
  /-- R200: Writes the value of a register in one named lane to a uniform register. -/
  | rdlane (c : Common) (f : RRR)
  /-- R197: Raises BREAKPOINT with n for the warp when a lane participates. -/
  | brk (c : Common) (f : FS)
  /-- R197: Raises SOFTWARE-TRAP with n for the warp when a lane participates, returning to the next slot. -/
  | trap (c : Common) (f : FS)
  /-- R202: Integer addition with wrap or saturation and a carry or overflow predicate. -/
  | iadd (c : Common) (f : Arith)
  /-- R202: Integer subtraction with wrap or saturation and a borrow or overflow predicate. -/
  | isub (c : Common) (f : Arith)
  /-- R202: Low half of the integer product, wrapped. -/
  | imul (c : Common) (f : Arith)
  /-- R202: High half of the exact integer product. -/
  | imulh (c : Common) (f : Arith)
  /-- R202: Integer multiply-add, wrapped. -/
  | imad (c : Common) (f : RRR)
  /-- R202: 32-bit multiply plus 64-bit addend into a 64-bit result. -/
  | imadw (c : Common) (f : RRR)
  /-- R203: Integer quotient truncated towards zero; all ones on division by zero. -/
  | idiv (c : Common) (f : Arith)
  /-- R203: Integer remainder carrying the dividend's sign; the dividend on division by zero. -/
  | irem (c : Common) (f : Arith)
  /-- R202: Smaller of two integers by the signedness of TYPE. -/
  | imin (c : Common) (f : Arith)
  /-- R202: Larger of two integers by the signedness of TYPE. -/
  | imax (c : Common) (f : Arith)
  /-- R202: Absolute value with wrap or saturation. -/
  | iabs (c : Common) (f : RRR)
  /-- R204: Bitwise three-input function given by an 8-bit lookup table. -/
  | logt (c : Common) (f : RRR)
  /-- R204: Left shift, optionally with the amount taken modulo the width. -/
  | shl (c : Common) (f : Arith)
  /-- R204: Logical or arithmetic right shift by TYPE. -/
  | shr (c : Common) (f : Arith)
  /-- R204: Returns one 32-bit half of a left or right shift of a 64-bit register pair. -/
  | shp (c : Common) (f : RRR)
  /-- R204: Counts the one bits of the operand. -/
  | popc (c : Common) (f : RRR)
  /-- R204: Counts the zero bits above the highest one. -/
  | clz (c : Common) (f : RRR)
  /-- R204: Reverses the bit order of the operand. -/
  | brev (c : Common) (f : RRR)
  /-- R204: Extracts a bit field and zero- or sign-extends it. -/
  | bfe (c : Common) (f : RRR)
  /-- R204: Inserts a bit field of A into C. -/
  | bfi (c : Common) (f : RRR)
  /-- R205: Integer comparison written to a predicate. -/
  | isetp (c : Common) (f : Arith)
  /-- R205: Selects A or B by a predicate. -/
  | sel (c : Common) (f : RRR)
  /-- R205: Computes a + b shifted left by SH, wrapped. -/
  | lea (c : Common) (f : RRR)
  /-- R205: Three-input lookup-table function of predicates into a predicate. -/
  | plogt (c : Common) (f : RRR)
  /-- R207: Floating-point addition rounded once under RND. -/
  | fadd (c : Common) (f : Arith)
  /-- R207: Floating-point multiplication rounded once under RND. -/
  | fmul (c : Common) (f : Arith)
  /-- R207: Fused multiply-add with a single rounding. -/
  | ffma (c : Common) (f : RRR)
  /-- R208: Returns the smaller operand, with NaN and signed-zero rules. -/
  | fmin (c : Common) (f : Arith)
  /-- R208: Returns the larger operand, with NaN and signed-zero rules. -/
  | fmax (c : Common) (f : Arith)
  /-- R209: Floating-point comparison written to a predicate. -/
  | fsetp (c : Common) (f : Arith)
  /-- R210: Correctly rounded division. -/
  | fdiv (c : Common) (f : RRR)
  /-- R210: Correctly rounded square root. -/
  | fsqrt (c : Common) (f : RRR)
  /-- R210: Correctly rounded reciprocal. -/
  | frcp (c : Common) (f : RRR)
  /-- R210: Correctly rounded reciprocal square root. -/
  | frsq (c : Common) (f : RRR)
  /-- R210: Correctly rounded base-2 exponential. -/
  | fex2 (c : Common) (f : RRR)
  /-- R210: Correctly rounded base-2 logarithm. -/
  | flg2 (c : Common) (f : RRR)
  /-- R210: Correctly rounded sine in radians. -/
  | fsin (c : Common) (f : RRR)
  /-- R210: Correctly rounded cosine in radians. -/
  | fcos (c : Common) (f : RRR)
  /-- R210: Correctly rounded hyperbolic tangent. -/
  | ftanh (c : Common) (f : RRR)
  /-- R210: Correctly rounded error function. -/
  | ferf (c : Common) (f : RRR)
  /-- R211: Writes a one-hot class mask of the operand. -/
  | fclass (c : Common) (f : RRR)
  /-- R212: Computes a times 2^n with one rounding. -/
  | fscale (c : Common) (f : RRR)
  /-- R213: Converts one scalar or packed element between numeric types. -/
  | cvt (c : Common) (f : RRR)
  /-- R216: Quantises the participating lanes as one block, writing codes and an E8M0 scale. -/
  | qnt (c : Common) (f : RRR)
  /-- R217: Decodes an element code times its E8M0 scale into FP32. -/
  | dqt (c : Common) (f : RRR)
  /-- R215: Builds each result byte from a selector over eight source bytes. -/
  | bsel (c : Common) (f : RRR)
  /-- R214: Converts a 32-bit value into element k of a packed register. -/
  | pack (c : Common) (f : RRR)
  /-- R218: Four 8-bit float products plus an FP32 addend, summed exactly and rounded once. -/
  | fdp4 (c : Common) (f : RRR)
  /-- R218: Eight E2M1 products plus an FP32 addend, summed exactly and rounded once. -/
  | fdp8 (c : Common) (f : RRR)
  /-- R218: Four 8-bit integer products plus an addend, wrapped or clamped. -/
  | idp4 (c : Common) (f : RRR)
  /-- R218: Eight 4-bit integer products plus an addend, wrapped or clamped. -/
  | idp8 (c : Common) (f : RRR)
  /-- R219: Copies one, two or four registers. -/
  | mov (c : Common) (f : RRR)
  /-- R219: Writes a widened 32-bit immediate. -/
  | movi (c : Common) (f : RI)
  /-- R185: Reads a special register. -/
  | rdsr (c : Common) (f : FS)
  /-- R185: Writes %mctl or %mstat once per warp. -/
  | wrsr (c : Common) (f : FS)
  /-- R225: Loads s bytes through a bounded register after bounds, permission, fill, race and poison checks. -/
  | ld (c : Common) (f : FM)
  /-- R225: Stores s bytes through a bounded register, counting in %wissue. -/
  | st (c : Common) (f : FM)
  /-- R226: Atomic load, store or read-modify-write with an order and scope, lanes in ascending order. -/
  | atom (c : Common) (f : FM)
  /-- R227: Atomic compare-and-swap returning the old value. -/
  | atomcas (c : Common) (f : FM)
  /-- R228: Atomic read-modify-write without returning the old value. -/
  | red (c : Common) (f : FM)
  /-- R230: Loads words from the warp's spill stack. -/
  | ldk (c : Common) (f : FM)
  /-- R230: Stores words to the warp's spill stack. -/
  | stk (c : Common) (f : FM)
  /-- R61: Derives a narrower bounded register with permissions masked. -/
  | bnarrow (c : Common) (f : FM)
  /-- R61: Advances PTR of a bounded register within its bounds. -/
  | badv (c : Common) (f : FM)
  /-- R61: Copies the fields of a bounded register into four uniform registers. -/
  | bget (c : Common) (f : FM)
  /-- R66: Binds a Plinth range to a global virtual range as a window, all chunks unfilled. -/
  | wmap (c : Common) (f : FM)
  /-- R68: Writes back dirty bytes of windows in range, waits for visibility and unbinds them. -/
  | wunmap (c : Common) (f : FM)
  /-- R68: Starts write-back of dirty window bytes in range, setting a flag. -/
  | wflush (c : Common) (f : FM)
  /-- R233: Cumulative fence of the given order and scope, waiting for parked stores when releasing. -/
  | fence (c : Common) (f : FS)
  /-- R234: Records the warp's arrival at the block barrier; the last arrival releases every waiting warp. -/
  | bar (c : Common) (f : FM)
  /-- R234: Records the warp's arrival at the gang barrier; the last arrival releases the gang. -/
  | gbar (c : Common) (f : FM)
  /-- R133: Sets a convergence register's expected count and clears its mask. -/
  | cinit (c : Common) (f : FS)
  /-- R235: Stalls until the named flags are 0, then reports one pending asynchronous fault. -/
  | waitf (c : Common) (f : FS)
  /-- R238: Reads a held channel's write pointer, relaxed. -/
  | wprd (c : Common) (f : FM)
  /-- R238: Stalls until a channel's write pointer reaches a target or the channel idles below it, then acquires the delivered bytes. -/
  | wpwait (c : Common) (f : FM)
  /-- R236: Stalls until %wdrain reaches %wissue at issue. -/
  | drain (c : Common) (f : FS)
  /-- R51: Sends a claim request to the grant arbiter; blocks the entry's threads if deferred. -/
  | acq (c : Common) (f : FS)
  /-- R52: Claim request that is never deferred, writing true when granted and false otherwise. -/
  | acqTry (c : Common) (f : FS)
  /-- R240: Waits for outstanding use of the named resources, then returns them to the arbiter. -/
  | rel (c : Common) (f : FS)
  /-- R51: Reads the block's held amount and maximum claim in a class. -/
  | claimrd (c : Common) (f : FS)
  /-- R241: Checks and places a 64-byte command on a channel or engine queue, or reports the queue full. -/
  | push (c : Common) (f : FS)
  /-- R252: Reads a channel's status record, optionally clearing its sticky fields. -/
  | cpst (c : Common) (f : FS)
  /-- R148: Lowers a gang bound register to the minimum of the participating lanes' values. -/
  | bndmin (c : Common) (f : FS)
  /-- R148: Reads the local shadow of a gang bound register. -/
  | bndrd (c : Common) (f : FS)
  /-- R144: Owner pushes stamped entries to the bottom of a deque. -/
  | dqpush (c : Common) (f : FM)
  /-- R144: Owner pops entries from the bottom of a deque once their stamps are drained. -/
  | dqpop (c : Common) (f : FM)
  /-- R144: Takes entries from the top of a deque once their stamps are drained. -/
  | dqsteal (c : Common) (f : FM)
  /-- R144: Writes a deque descriptor with the issuing warp as owner. -/
  | dqinit (c : Common) (f : FM)
  /-- R134: Signs a convergence register and deposits A rows; the operation issues when the count reaches E. -/
  | mma (c : Common) (f : FX)
  /-- R137: Clears a tile, or initialises it for attention. -/
  | zclr (c : Common) (f : FX)
  /-- R260: Copies eight columns of a tile to or from registers for participating lanes. -/
  | zmov (c : Common) (f : FX)
  /-- R138: Starts an asynchronous store of a tile to memory with conversion. -/
  | zst (c : Common) (f : FX)
  /-- R137: Starts an asynchronous load of a tile from memory with conversion to FP32. -/
  | zld (c : Common) (f : FX)
  /-- R139: Starts one flash-attention step over 128 keys on an output tile. -/
  | att (c : Common) (f : FX)
  /-- R140: Starts the normalisation of an attention output tile by l. -/
  | attfin (c : Common) (f : FX)
  /-- R97: Forms a moment register from a mean and a variance register. -/
  | mset (c : Common) (f : FK)
  /-- R265: Loads a moment register from memory, checking NaN and negative variance. -/
  | mld (c : Common) (f : FK)
  /-- R265: Stores a moment register to memory. -/
  | mst (c : Common) (f : FK)
  /-- R97: Copies a moment register. -/
  | mmov (c : Common) (f : FK)
  /-- R99: Moment sum under a covariance mode. -/
  | madd (c : Common) (f : FK)
  /-- R99: Moment difference under a covariance mode. -/
  | msub (c : Common) (f : FK)
  /-- R100: Moment product of jointly Gaussian operands. -/
  | mmul (c : Common) (f : FK)
  /-- R99: Scales a moment by a constant. -/
  | mscl (c : Common) (f : FK)
  /-- R101: Moment product plus an independent third moment. -/
  | mfma (c : Common) (f : FK)
  /-- R102: Moment-matched rectifier. -/
  | mrelu (c : Common) (f : FK)
  /-- R102: Probit-approximated logistic sigmoid of a moment. -/
  | msigm (c : Common) (f : FK)
  /-- R102: Log-normal exponential of a moment. -/
  | mexp (c : Common) (f : FK)
  /-- R102: Clark's moment maximum. -/
  | mmax (c : Common) (f : FK)
  /-- R102: Moment minimum via negated MMAX. -/
  | mmin (c : Common) (f : FK)
  /-- R103: Writes P(a < b) as FP32. -/
  | mplt (c : Common) (f : FK)
  /-- R104: Collapses a moment to its mean, variance, deviation, quantile or sample. -/
  | mcol (c : Common) (f : FK)
  /-- R105: Sums moments over participating lanes by a fixed pairwise tree. -/
  | mred (c : Common) (f : FK)
  /-- R105: Moves moment values between lanes under the SHFL rules. -/
  | mshfl (c : Common) (f : FK)
  /-- R108: Signs a convergence register for a moment matrix product into a mean and variance tile pair. -/
  | mmom (c : Common) (f : FX)
  /-- R113: Allocates zeroed heap objects per lane and writes references with color E. -/
  | hnew (c : Common) (f : FH)
  /-- R269: Loads a data field of a heap object through the barrier. -/
  | hld (c : Common) (f : FH)
  /-- R269: Stores a data field of a heap object through the barrier. -/
  | hst (c : Common) (f : FH)
  /-- R269: Atomic operation on a heap data field. -/
  | hatom (c : Common) (f : FH)
  /-- R272: Loads a reference field, heals it and writes the healed value back by compare-and-swap. -/
  | hldr (c : Common) (f : FH)
  /-- R272: Heals a reference and stores it into a reference field. -/
  | hstr (c : Common) (f : FH)
  /-- R21: Forms a reference from a value pair, or copies a reference register, without the barrier. -/
  | hmov (c : Common) (f : FH)
  /-- R272: Compares the healed addresses of two references. -/
  | hcmp (c : Common) (f : FH)
  /-- R272: Reads the size, header bits and AUX of an object. -/
  | hhdr (c : Common) (f : FH)
  /-- R124: Heals a reference, increments its page's pin count and returns the raw address. -/
  | hpin (c : Common) (f : FH)
  /-- R124: Decrements the pin count of the page of a healed reference. -/
  | hunpin (c : Common) (f : FH)
  /-- R117: Heals registers, writes forwarding tables, advances the epoch and arms the listed pages. -/
  | hflipMark (c : Common) (f : FH)
  /-- R120: Stalls until old-color accesses to armed pages are performed, letting the Jointer start copying. -/
  | hflipConf (c : Common) (f : FH)
  /-- R269: Compare-and-swap on a heap data field. -/
  | hcas (c : Common) (f : FH)
  /-- R276: Ends handler mode and resumes the handler's threads at the return or a given code pointer. -/
  | rte (c : Common) (f : FS)
  /-- R277: Reads a privileged register. -/
  | prd (c : Common) (f : FS)
  /-- R277: Writes a privileged register. -/
  | pwr (c : Common) (f : FS)
  /-- R279: Marks the context's cached translations in a range draining and waits for acknowledgement. -/
  | invmark (c : Common) (f : FS)
  /-- R279: Waits until writes under marked translations are globally visible. -/
  | invconf (c : Common) (f : FS)
  /-- R278: Reads the next context error-log record. -/
  | errrd (c : Common) (f : FS)
  /-- R164: Fetches a line for an entry entering it, checking parity, PAIR bits and the module end, blocking on a page miss. -/
  | lineFetch (warp : Nat)
  /-- R28: A frontier entry's age reaches 64 and it becomes aged. -/
  | entryAged (warp : Nat)
  /-- R167: A yielding warp becomes issuable again after 8 issue cycles or once every other ready warp issued. -/
  | yieldExpiry (warp : Nat)
  /-- R48: The arbiter takes a request from its queue and runs the safety test, granting or deferring it. -/
  | arbiterRequestTest (cluster : Nat)
  /-- R50: The arbiter applies a release and re-tests the deferred list from the oldest entry. -/
  | arbiterRelease (cluster : Nat)
  /-- R34: The distributor forms the next gang, finds a cluster with room and admits it through the arbiter. -/
  | gangAdmission (slice : Nat)
  /-- R41: A CONCURRENT grid is admitted as a whole with full claims reserved once resources are free. -/
  | concurrentAdmission (slice : Nat)
  /-- R318: A cluster dispatcher starts one block on a core, placing its warps and presetting bounded registers. -/
  | blockDispatch (cluster : Nat)
  /-- R67: The map unit translates and fills a 4 KiB window chunk, then the stalled access is performed. -/
  | windowFill (cluster : Nat)
  /-- R68: The flush's dirty bytes are visible at device scope and its flag is released. -/
  | wflushCompletion (op : Nat)
  /-- R74: A channel delivers a beat or element, advancing the write pointer, or parks an element on a translation fault. -/
  | copyBeatDelivery (chan : Nat)
  /-- R75: A command with no outstanding request completes, its flag is released, and the next command starts. -/
  | copyCommandCompletion (chan : Nat)
  /-- R134: An issued MMA operation completes and releases the flags of its signing instructions. -/
  | mmaCompletion (op : Nat)
  /-- R108: An issued moment matrix operation completes and releases its flags. -/
  | mmomCompletion (op : Nat)
  /-- R137: A tile load completes and releases its flag. -/
  | zldCompletion (op : Nat)
  /-- R137: A tile store completes and releases its flag. -/
  | zstCompletion (op : Nat)
  /-- R139: An attention step completes and releases its flag. -/
  | attCompletion (op : Nat)
  /-- R140: An attention normalisation completes and releases its flag. -/
  | attfinCompletion (op : Nat)
  /-- R90: A write instruction's every lane is performed and visible at chiplet scope, advancing %wdrain. -/
  | writeDrained (warp : Nat)
  /-- R144: A waiting pop or steal is performed once the owner's %wdrain reaches the entry's stamp. -/
  | dequeStampMet (warp : Nat)
  /-- R148: A lowered bound value reaches a core's shadow of the gang bound register. -/
  | boundShadowUpdate (gang core n : Nat)
  /-- R121: The Jointer copies a claimed or EMPTY object to an unarmed page and sets NEW and DONE, waking waiters. -/
  | jointerObjectCopy (ctx region : Nat)
  /-- R120: The Jointer heals every reference field, then frees and disarms the armed pages and clears CYCLE. -/
  | healSweep (ctx region : Nat)
  /-- R125: A Q_JOINTER FREE command sets DEAD in the named object or fails. -/
  | jointerFree 
  /-- R255: A Q_SANDER command overwrites a global range with zeros or fails. -/
  | sanderOverwrite 
  /-- R312: The distributor reads and validates a launch record and queues or refuses the launch. -/
  | launchValidation 
  /-- R254: A note is written to the function's note ring when there is room, releasing its flag. -/
  | hostnoteWrite (cluster : Nat)
  /-- R314: A write of LRTAIL announces new launch entries, or is ignored and logged. -/
  | lrtailDoorbell (fn : Nat) (val : BitVec 32)
  /-- R380: The device reads one launch-ring entry, refusing a malformed one or passing it to validation. -/
  | launchEntryRead (fn : Nat)
  /-- R315: The device writes a completion entry when the ring has room and signals the completion interrupt. -/
  | completionEntryWrite (fn : Nat)
  /-- R379: A driver write of CRHEAD, PRHEAD or NRHEAD frees ring space or is ignored and logged. -/
  | ringHeadWrite (fn off : Nat) (val : BitVec 32)
  /-- R379: A write to a register with no behaviour of its own, checked and possibly ignored and logged. -/
  | registerWrite (fn bar off : Nat) (val : BitVec 64)
  /-- R329: A page request for a faulted page is written to the ring once a tag and ring space are free. -/
  | pageRequestWrite (fn : Nat)
  /-- R331: A PRREPLY write replays or ends every access parked under its tag. -/
  | pageRequestReply (fn : Nat) (val : BitVec 32)
  /-- R332: 1,024 cycles after a re-fault the device walks again, or at count 3 writes REPLAY-STALLED. -/
  | replayRewalk (ctx page : Nat)
  /-- R324: An INVCTL mark command marks a context's translations in a range draining. -/
  | invMarkCommand (val : BitVec 32)
  /-- R324: An INVCTL confirm command waits for writes under marked translations to become visible. -/
  | invConfirmCommand (val : BitVec 32)
  /-- R325: All units acknowledged the mark or the confirm condition holds, and BUSY clears. -/
  | invalidationDone 
  /-- R337: A save command stops the context, drops revocable work and lets irrevocable work finish. -/
  | contextSave (val : BitVec 32)
  /-- R337: The image is written and the context's STATE becomes 10. -/
  | contextSaveComplete (ctx : Nat)
  /-- R339: A restore command begins re-admitting the saved context's gangs. -/
  | contextRestore (val : BitVec 32)
  /-- R339: A saved gang is re-admitted with its held allocation, rebased and resumed at region starts. -/
  | gangReadmission (gang : Nat)
  /-- R341: A function-level reset abandons a save or restore, zeroises keys and queues a scrub. -/
  | functionLevelReset (fn : Nat)
  /-- R348: Restarts the device at STANDBY. -/
  | fundamentalReset 
  /-- R348: Power good puts the device in STANDBY with the Aedpol controller running from ROM. -/
  | powerGood 
  /-- R348: The device enters SAFE, trains one host module and runs self-test kernels. -/
  | enterSafe (selfTestFail : Option Nat)
  /-- R350: The controller verifies the firmware signature and digest, measures it and starts it, or stops in SAFE. -/
  | firmwareAuthentication (image : Nat) (signature : Nat)
  /-- R348: Links and memories are trained, the Plinth tested and the remap table loaded. -/
  | enterTrained (hbmFail plinthFail : Option Nat) (remap : RemapTable) (cxlUp waleUp : Nat)
  /-- R360: The device enters FULL and writes slice descriptor 0 over all enabled clusters. -/
  | enterFull 
  /-- R351: A PCFGNEXT write with COMMIT stores a new Plinth configuration record in flash. -/
  | plinthConfigCommit (val : BitVec 32)
  /-- R361: A slice descriptor write is applied or refused with ECODE. -/
  | sliceDescriptorWrite (slice : Nat) (val : BitVec 256)
  /-- R364: RETCMD kind 1 retires a drained cluster from its owner's mask. -/
  | retireCluster (val : BitVec 32)
  /-- R364: RETCMD kind 2 retires an idle HBM channel and may flag BELOW-MINIMUM. -/
  | retireMemoryChannel (val : BitVec 32)
  /-- R365: KSCMD load unwraps a key blob into a context's key slot. -/
  | keySlotLoad (val : BitVec 32)
  /-- R365: KSCMD zeroise clears a key slot. -/
  | keySlotZeroise (val : BitVec 32)
  /-- R365: KSCMD bit 30 decapsulates an ML-KEM ciphertext into the context's transport key. -/
  | transportKeyInstall (val : BitVec 32)
  /-- R366: ATCMD start generates a key pair and writes a signed attestation report. -/
  | attestationRequest (val : BitVec 32)
  /-- R367: TDCMD start stops a context, zeroises its keys, quarantines and scrubs its resources. -/
  | teardown (val : BitVec 32)
  /-- R367: The Sander finishes a scrub, sets DONE and ends quarantine. -/
  | scrubComplete 
  /-- R377: A write of the device log read index, ignored and flagged in DLOVF when out of range. -/
  | dlrdWrite (val : BitVec 32)
  /-- R377: A write of 0 clears DLOVF; a nonzero write is ignored and logged. -/
  | dlovfWrite (val : BitVec 32)
  /-- R371: The power controller changes a cluster's pass count at the next issue boundary. -/
  | passCountChange (cluster count : Nat)
  /-- R370: A supply-sag sensor lengthens the chiplet's clock period within 2 cycles. -/
  | supplySag (chiplet : Nat)
  /-- R370: The supply recovers and the clock period is restored. -/
  | supplyRecovery (chiplet : Nat)
  /-- R372: A board coolant report selects the cooling table and enforces a lowered limit. -/
  | coolantReport (medium : Coolant) (inletTenths flowTenths : Nat)
  /-- R372: No coolant report for 100 ms selects the air table. -/
  | coolantReportTimeout 
  /-- R373: A trip stops the device, ends all grids and contexts and powers down the chiplets. -/
  | thermalTrip (chiplet : Nat)
  /-- R374: A timing error re-executes a quadrant from the emission point without resending requests. -/
  | timingErrorReplay (core quadrant : Nat)
  /-- R375: A correctable error is corrected, counted and rate-limited logged. -/
  | correctableError (site : ErrSite)
  /-- R375: An uncorrectable error poisons its granule and is logged, or stops a cluster's grids. -/
  | uncorrectableError (site : ErrSite)
  /-- R319: An idle cluster's interval expires and it stops offering room. -/
  | gatingRequest (cluster : Nat)
  /-- R319: In the next cycle the cluster is gated unless a block was handed to it. -/
  | gatingCommit (cluster : Nat)
  /-- R319: The distributor wakes a gated cluster when no ungated cluster has room. -/
  | clusterWake (cluster : Nat)
  /-- R357: A target serves a peer request through its binding or returns REMOTE-FAULT. -/
  | peerAccess (link ctx addr len : Nat) (write : Option (List (BitVec 8)))
  /-- R358: A peer response arrives at the initiator; a late one is discarded and logged. -/
  | peerResponse (chan : Nat) (elem : PeerKey) (answer : PeerAnswer)
  /-- R358: WTMO expires without a response and the element fails with TIMEOUT. -/
  | peerTimeout (chan : Nat) (elem : PeerKey)
  /-- R369: A reset of one chiplet that arrives during a scrub, after which the scrub restarts from the beginning with TDPROG at 0 and its resources stay quarantined. -/
  | chipletReset (chiplet : Nat)
  deriving DecidableEq, Repr

end Sys2Proof
end

