-- ==== Sys2Proof/Machine/Checks.lean ====
section
/-! DEFINITION. The static checks of an instruction word (R174, R175, R177, R178 and the encoding tables of the
instruction references): which `TYPE`, `MOD`, `U`, `FS` and operand classes each instruction accepts, which of its
fields must hold 0 or `ZERO`, and which registers it uses. -/

namespace Sys2Proof

/-- How many 32-bit registers a value of the type occupies (R188). -/
def Ty.regs : Ty → Nat
  | .n64 | .s64 | .f64 => 2
  | .b128 => 4
  | _ => 1

/-- How many bytes an access of the type moves (R223). -/
def Ty.bytes : Ty → Nat
  | .n8 | .s8 | .e8m0 => 1
  | .n16 | .s16 | .f16 | .bf16 => 2
  | .n64 | .s64 | .f64 => 8
  | .b128 => 16
  | _ => 4

/-- How many elements a packed type holds (R152); 1 for a scalar. -/
def Ty.count : Ty → Nat
  | .f16x2 | .bf16x2 => 2
  | .e4m3x4 | .e5m2x4 | .s8x4 | .n8x4 => 4
  | .e2m1x8 | .s4x8 | .n4x8 => 8
  | _ => 1

/-- One register operand of an instruction: `n` consecutive registers from a multiple of `al`, the classes it accepts
(R174), and whether it is written. -/
structure OpUse where
  o : Opd
  n : Nat := 1
  al : Nat := 1
  v : Bool := true
  s : Bool := true
  z : Bool := true
  wr : Bool := false
  deriving DecidableEq, Repr

/-- The operand is of a class the use accepts, aligned, and its registers exist. -/
def OpUse.ok (x : OpUse) : Bool :=
  match x.o with
  | .v k => x.v && k.toNat % x.al == 0 && k.toNat + x.n ≤ 256
  | .s k => x.s && k.toNat % x.al == 0 && k.toNat + x.n ≤ 64
  | .zero => x.z
  | .bad => true

/-- What `U` an instruction accepts (R174). -/
inductive URule where
  | off | on | both
  deriving DecidableEq, Repr

/-- The verdicts of one instruction's own encoding table: `ty`, `mod`, `op`, `sr` are the conditions of ILLEGAL-OPCODE
sub-codes 0x02, 0x03, 0x04 and 0x08 (R180); `clean` says that every field that must hold 0 or `ZERO` does. -/
structure Shape where
  ty : Bool := true
  mod : Bool := true
  op : Bool := true
  sr : Bool := true
  clean : Bool := true
  u : URule := .off
  async : Bool := false
  uses : List OpUse := []
  deriving DecidableEq, Repr

/-- `MOD` has no bit outside the mask `m`. -/
def modIn (x m : BitVec 8) : Bool := x &&& ~~~m == 0

/-- Bits `[lo + n - 1 : lo]` of `MOD`. -/
def modBits (x : BitVec 8) (lo n : Nat) : Nat := x.toNat / 2 ^ lo % 2 ^ n

/-- Bit `i` of `MOD`. -/
def modBit (x : BitVec 8) (i : Nat) : Bool := x.getLsbD i

/-- The 9-bit code of an operand field (R175); 0x1FF stands for the reserved values. -/
def Opd.code : Opd → Nat
  | .v n => n.toNat
  | .s n => 0x100 + n.toNat
  | .zero => 0x140
  | .bad => 0x1FF

/-- The operand field a 9-bit code names (R175). -/
def Opd.ofCode (n : Nat) : Opd :=
  if n < 0x100 then .v (BitVec.ofNat 8 n)
  else if n < 0x140 then .s (BitVec.ofNat 6 (n - 0x100))
  else if n = 0x140 then .zero
  else .bad

/-- The 6-bit code of a type (R178); 0x3F stands for the undefined codes. -/
def Ty.code : Ty → Nat
  | .n32 => 0x00 | .s32 => 0x01 | .n64 => 0x02 | .s64 => 0x03 | .n8 => 0x04 | .s8 => 0x05 | .n16 => 0x06
  | .s16 => 0x07 | .b128 => 0x08 | .f32 => 0x10 | .f64 => 0x11 | .f16x2 => 0x12 | .bf16x2 => 0x13 | .f16 => 0x14
  | .bf16 => 0x15 | .e4m3x4 => 0x18 | .e5m2x4 => 0x19 | .e2m1x8 => 0x1A | .s8x4 => 0x1B | .s4x8 => 0x1C
  | .n8x4 => 0x1D | .n4x8 => 0x1E | .e8m0 => 0x20 | .undef => 0x3F

/-- The type a 6-bit code names (R178). -/
def Ty.ofCode : Nat → Ty
  | 0x00 => .n32 | 0x01 => .s32 | 0x02 => .n64 | 0x03 => .s64 | 0x04 => .n8 | 0x05 => .s8 | 0x06 => .n16
  | 0x07 => .s16 | 0x08 => .b128 | 0x10 => .f32 | 0x11 => .f64 | 0x12 => .f16x2 | 0x13 => .bf16x2 | 0x14 => .f16
  | 0x15 => .bf16 | 0x18 => .e4m3x4 | 0x19 => .e5m2x4 | 0x1A => .e2m1x8 | 0x1B => .s8x4 | 0x1C => .s4x8
  | 0x1D => .n8x4 | 0x1E => .n4x8 | 0x20 => .e8m0 | _ => .undef

/-- A source operand of an instruction that accepts both forms of R174. -/
def srcUse (c : Common) (o : Opd) (n : Nat := 1) : OpUse := { o := o, n := n, al := n, v := !c.u }

/-- A destination operand of an instruction that accepts both forms: `v` or `ZERO` per thread, `s` or `ZERO` uniform
(R187). -/
def dstUse (c : Common) (o : Opd) (n : Nat := 1) : OpUse :=
  { o := o, n := n, al := n, v := !c.u, s := c.u, wr := true }

/-- A uniform operand: an `s` register, or also `ZERO` when `z`. -/
def sUse (o : Opd) (n : Nat := 1) (al : Nat := 1) (z : Bool := false) (wr : Bool := false) : OpUse :=
  { o := o, n := n, al := al, v := false, z := z, wr := wr }

/-- A `v` register operand. -/
def vUse (o : Opd) (n : Nat := 1) (al : Nat := 1) (z : Bool := false) (wr : Bool := false) : OpUse :=
  { o := o, n := n, al := al, s := false, z := z, wr := wr }

/-- `v`, `s` or `ZERO`. -/
def anyUse (o : Opd) (n : Nat := 1) (al : Nat := 1) : OpUse := { o := o, n := n, al := al }

/-- The destination field of either layout. -/
def Arith.d : Arith → Opd | .rrr f => f.d | .ri f => f.d
/-- The first source field of either layout. -/
def Arith.a : Arith → Opd | .rrr f => f.a | .ri f => f.a
/-- The `TYPE` field of either layout. -/
def Arith.ty : Arith → Ty | .rrr f => f.ty | .ri f => f.ty
/-- The `MOD` field of either layout. -/
def Arith.mod : Arith → BitVec 8 | .rrr f => f.mod | .ri f => f.mod
/-- The `PD` field of either layout. -/
def Arith.pd : Arith → BitVec 3 | .rrr f => f.pd | .ri f => f.pd

/-- The integer types of R201. -/
def intTys : List Ty := [.n32, .s32, .n64, .s64]
/-- The types of `FADD` (R206). -/
def fpTys : List Ty := [.f32, .f64, .f16x2, .bf16x2]

/-- An arithmetic instruction `D, A, B` that has both layouts; `bn` is how many registers `B` takes. -/
def arithShape (c : Common) (f : Arith) (tys : List Ty) (mask : BitVec 8) (bn : Nat) (dest pred : Bool) : Shape :=
  let n := f.ty.regs
  { ty := tys.contains f.ty
    mod := modIn f.mod mask
    u := .both
    clean := (dest || f.d == .zero) && (pred || f.pd == 7) &&
      (match f with | .rrr g => g.c == .zero | .ri _ => true)
    uses := (if dest then [dstUse c f.d n] else []) ++ [srcUse c f.a n] ++
      (match f with | .rrr g => [srcUse c g.b bn] | .ri _ => []) }

/-- An instruction of format RRR: `dn`, `an`, `bn`, `cn` are the register counts of its operands, 0 where the operand
is unused and must hold `ZERO`. -/
def rrrShape (c : Common) (f : RRR) (tys : List Ty) (mask : BitVec 8) (dn an bn cn : Nat) : Shape :=
  { ty := tys.contains f.ty
    mod := modIn f.mod mask
    u := .both
    clean := (dn != 0 || f.d == .zero) && (an != 0 || f.a == .zero) && (bn != 0 || f.b == .zero) &&
      (cn != 0 || f.c == .zero) && f.pd == 7
    uses := (if dn = 0 then [] else [dstUse c f.d dn]) ++ (if an = 0 then [] else [srcUse c f.a an]) ++
      (if bn = 0 then [] else [srcUse c f.b bn]) ++ (if cn = 0 then [] else [srcUse c f.c cn]) }

/-- A control instruction of format BR (R191): `tgt` when it encodes a target, `reg` when `A` must be a register,
`zok` when `A` may also be `ZERO`; an `A` marked `ZERO` that holds a register is ILLEGAL-OPCODE 0x04. -/
def brShape (f : BR) (tgt reg zok wr : Bool) : Shape :=
  { mod := f.mod == 0
    op := reg || f.a == .zero || f.a == .bad
    clean := tgt || (f.loff == 0 && f.slot == 0 && f.prio == 0)
    uses := if reg then [{ o := f.a, z := zok, wr := wr }] else [{ o := f.a }] }

/-- The types `LD` and `ST` accept (R223): every defined type. -/
def memTys (t : Ty) : Bool := t != .undef

/-- The order codes each kind of atomic accepts (R86): 0 RLX, 1 ACQ, 2 REL, 3 AR, 4 SC. -/
def ordOk (opc ord : Nat) : Bool :=
  match opc with
  | 0 => ord == 0 || ord == 1 || ord == 4
  | 1 => ord == 0 || ord == 2 || ord == 4
  | _ => ord ≤ 4

/-- The types each atomic operation accepts (R226). -/
def atomTys (opc : Nat) : List Ty :=
  match opc with
  | 3 => [.n32, .s32, .n64, .s64, .f32, .f64, .f16x2, .bf16x2]
  | 6 | 7 | 8 => [.n32, .n64]
  | _ => [.n32, .s32, .n64, .s64, .f32, .f64]

/-- The bounded-address fields of `LD`, `ST` and the atomic group (R221, R222). -/
def idxUse (c : Common) (o : Opd) : OpUse := { o := o, v := !c.u }

/-- A uniform instruction of the table of R231. -/
def r231Shape (f : FM) (ty : Ty) (uses : List OpUse) (clean : Bool) : Shape :=
  { ty := f.ty == ty, u := .on, uses := uses, clean := clean }

/-- A bounded-register index written as a plain number in a 9-bit field (R231, R239). -/
def plainIdx (o : Opd) : Bool := o.code < 16

/-- The number a special register is read by, with whether it is 64 bits and whether it varies by lane (R185). -/
def srInfo (n : Nat) : Option (Bool × Bool) :=
  if n ≤ 3 then some (false, true)
  else if n ≤ 0xC then some (false, false)
  else if 0x10 ≤ n ∧ n ≤ 0x18 then some (false, false)
  else if 0x20 ≤ n ∧ n ≤ 0x22 then some (false, false)
  else if 0x30 ≤ n ∧ n ≤ 0x32 then some (true, false)
  else if 0x40 ≤ n ∧ n ≤ 0x43 then some (true, false)
  else none

/-- A privileged register of R277: whether `PWR` may write it. -/
def prInfo (n : Nat) : Option Bool :=
  if n ≤ 3 ∨ n = 0x10 ∨ n = 0x11 ∨ n = 0x21 then some false
  else if n = 0x20 ∨ n = 0x22 then some true
  else none

/-- A system instruction that takes no `D` and no `A`. -/
def sBare (f : FS) (u : URule) : Shape :=
  { u := u, mod := f.mod == 0, clean := f.d == .zero && f.a == .zero && f.pd == 7 }

/-- An instruction of format K with the fields its row of R264 marks unused at 0. -/
def kShape (f : FK) (md ma mb mc : Bool) (cov : Nat) (mask : BitVec 8) (vu : List OpUse) (pred off : Bool) : Shape :=
  { mod := f.cov.toNat ≤ cov && modIn f.mod mask
    clean := (md || f.md == 0) && (ma || f.ma == 0) && (mb || f.mb == 0) && (mc || f.mc == 0) &&
      (!vu.isEmpty || f.v == .zero) && (pred || f.pd == 7) && (off || f.off == 0)
    uses := vu }

/-- The `V` operand of a moment form with a covariance mode: present only with `.EXP` (R97, R264). -/
def covUse (f : FK) : List OpUse := if f.cov = 3 then [anyUse f.v] else []

/-- An instruction of format H with the fields its row of R267 marks unused at 0. -/
def hShape (f : FH) (hd ha hb off : Bool) (ty : Ty → Bool) (mask : BitVec 8) (vu ixu : List OpUse) (pred : Bool) :
    Shape :=
  { ty := ty f.ty
    mod := modIn f.mod mask
    clean := (hd || f.hd == 0) && (ha || f.ha == 0) && (hb || f.hb == 0) && (off || f.off == 0) &&
      (!vu.isEmpty || f.v == .zero) && (!ixu.isEmpty || f.ix == .zero) && (pred || f.pd == 7)
    uses := vu ++ ixu }

/-- The shape of an atomic of format M (R226 to R228): the register operands `r` and `c`. -/
def atomShape (c : Common) (f : FM) : Shape :=
  let opc := modBits f.mod 4 4
  let n := f.ty.regs
  { ty := (atomTys opc).contains f.ty
    mod := opc ≤ 8 && ordOk opc (modBits f.mod 1 3) && f.pd.toNat ≤ 5
    op := (opc != 1 || f.r == .zero || f.r == .bad) && (opc != 0 || f.c == .zero || f.c == .bad)
    u := .both
    uses := [dstUse c f.r n, srcUse c f.c n, idxUse c f.idx] }

/-- A deque instruction of R143: a field that breaks the table is ILLEGAL-OPCODE (R145). -/
def dqShape (f : FM) (data : OpUse) (u : URule) (pred : Bool) : Shape :=
  { ty := f.ty == .n64
    mod := f.mod == 0
    op := (f.c == .zero || f.c == .bad) && (pred || f.pd == 7)
    u := u
    uses := [data, sUse f.idx (z := true), { o := f.c }] }

/-- The static checks of each instruction, from its row in the instruction references. -/
def Instr.shape : Instr → Shape
  -- control (R191, R197 to R200)
  | .nop _ f | .exit _ f | .yield _ f | .rgn _ f => brShape f false false false false
  | .bra _ f => brShape f true false false false
  | .brx _ f | .ret _ f => brShape f false true false false
  | .call _ f => brShape f true true false true
  | .wsync _ f => brShape f false true true false
  | .brk _ f | .trap _ f => sBare f .off
  | .vote _ f =>
    let bal := modBits f.mod 0 2 == 3
    { ty := f.ty == .n32, mod := modIn f.mod 0x3F
      op := if bal then f.pd == 7 && f.d != .zero else f.d == .zero || f.d == .bad
      clean := f.a == .zero && f.b == .zero && f.c == .zero
      uses := [{ o := f.d, wr := true }] }
  | .shfl _ f =>
    let n := f.ty.regs
    { ty := [Ty.n32, .n64].contains f.ty, mod := modIn f.mod 0x1F && modBits f.mod 2 3 ≤ 5, clean := f.c == .zero
      uses := [vUse f.d n n (wr := true), vUse f.a n n, anyUse f.b] }
  | .rdlane _ f =>
    let n := f.ty.regs
    { ty := [Ty.n32, .n64].contains f.ty, mod := f.mod == 0, clean := f.c == .zero && f.pd == 7
      uses := [sUse f.d n n (wr := true), anyUse f.a n n, sUse f.b (z := true)] }
  -- integer (R201)
  | .iadd c f | .isub c f => arithShape c f intTys 1 f.ty.regs true true
  | .imul c f | .imulh c f | .idiv c f | .irem c f | .imin c f | .imax c f =>
    arithShape c f intTys 0 f.ty.regs true false
  | .imad c f => rrrShape c f intTys 0 f.ty.regs f.ty.regs f.ty.regs f.ty.regs
  | .imadw c f => rrrShape c f [.n32, .s32] 0 2 1 1 2
  | .iabs c f => rrrShape c f [.s32, .s64] 1 f.ty.regs f.ty.regs 0 0
  | .logt c f => rrrShape c f [.n32, .n64] 0xFF f.ty.regs f.ty.regs f.ty.regs f.ty.regs
  | .shl c f | .shr c f => arithShape c f intTys 1 1 true false
  | .shp c f => rrrShape c f [.n32] 7 1 1 1 1
  | .popc c f | .clz c f => rrrShape c f [.n32, .n64] 0 1 f.ty.regs 0 0
  | .brev c f => rrrShape c f [.n32, .n64] 0 f.ty.regs f.ty.regs 0 0
  | .bfe c f => rrrShape c f intTys 0 f.ty.regs f.ty.regs 1 1
  | .bfi c f => rrrShape c f [.n32, .n64] 0 f.ty.regs f.ty.regs 1 f.ty.regs
  | .isetp c f =>
    let x := arithShape c f intTys 7 f.ty.regs false true
    { x with mod := x.mod && modBits f.mod 0 3 ≤ 5 }
  | .sel c f => rrrShape c f [.n32, .n64] 0x0F f.ty.regs f.ty.regs f.ty.regs 0
  | .lea c f => rrrShape c f [.n32, .n64] 7 f.ty.regs f.ty.regs f.ty.regs 0
  | .plogt _ f =>
    { ty := f.ty == .n32, u := .both, clean := f.d == .zero && plainIdx f.a && plainIdx f.b && plainIdx f.c }
  -- floating point (R206)
  | .fadd c f => arithShape c f fpTys 0x2F f.ty.regs true false
  | .fmul c f => arithShape c f fpTys 0x1F f.ty.regs true false
  | .ffma c f => rrrShape c f fpTys 0x3F f.ty.regs f.ty.regs f.ty.regs f.ty.regs
  | .fmin c f | .fmax c f => arithShape c f fpTys 4 f.ty.regs true false
  | .fsetp c f => arithShape c f [.f32, .f64] 0x74 f.ty.regs false true
  | .fdiv c f => rrrShape c f [.f32, .f64] 0x0F f.ty.regs f.ty.regs f.ty.regs 0
  | .fsqrt c f | .frcp c f | .frsq c f => rrrShape c f [.f32, .f64] 0x0F f.ty.regs f.ty.regs 0 0
  | .fex2 c f | .flg2 c f | .fsin c f | .fcos c f | .ftanh c f | .ferf c f => rrrShape c f [.f32] 0x0F 1 1 0 0
  | .fclass c f => rrrShape c f [.f32, .f64] 0 1 f.ty.regs 0 0
  | .fscale c f => rrrShape c f [.f32, .f64] 0x0F f.ty.regs f.ty.regs 1 0
  -- conversion (R213 to R218)
  | .cvt c f =>
    let st := Ty.ofCode (f.c.code % 64)
    { ty := [Ty.n8, .s8, .n16, .s16, .n32, .s32, .n64, .s64, .f16, .bf16, .f32, .f64].contains f.ty &&
        st != .undef && st != .b128
      mod := modIn f.mod 0x7F && modBits f.mod 4 3 < st.count
      u := .both
      clean := f.b == .zero && f.c.code < 64 && f.pd == 7
      uses := [dstUse c f.d f.ty.regs, srcUse c f.a st.regs] }
  | .qnt _ f =>
    { ty := [Ty.e4m3x4, .e5m2x4, .e2m1x8, .s8x4, .s4x8, .n8x4].contains f.ty, mod := modIn f.mod 0x0B
      clean := f.b == .zero && f.pd == 7
      uses := [vUse f.d (wr := true), sUse f.c (wr := true), anyUse f.a] }
  | .dqt c f =>
    { ty := [Ty.e4m3x4, .e5m2x4, .e2m1x8, .s8x4, .s4x8, .n8x4].contains f.ty, mod := modIn f.mod 0x0F
      clean := f.c == .zero && f.pd == 7
      uses := [dstUse c f.d, anyUse f.a, { o := f.b, z := false }] }
  | .bsel c f => rrrShape c f [.n32] 0 1 1 1 1
  | .pack c f =>
    let fl := [Ty.f16x2, .bf16x2, .e4m3x4, .e5m2x4, .e2m1x8].contains f.ty
    { ty := fl || [Ty.s8x4, .s4x8, .n8x4, .n4x8].contains f.ty
      mod := modIn f.mod (if fl then 0x7F else 0x78) && modBits f.mod 4 3 < f.ty.count
      u := .both, clean := f.b == .zero && f.pd == 7
      uses := [dstUse c f.d, srcUse c f.a, srcUse c f.c] }
  | .fdp4 c f => rrrShape c f [.e4m3x4, .e5m2x4] 0x0F 1 1 1 1
  | .fdp8 c f => rrrShape c f [.e2m1x8] 0x0F 1 1 1 1
  | .idp4 c f => rrrShape c f [.s8x4, .n8x4] 8 1 1 1 1
  | .idp8 c f => rrrShape c f [.s4x8, .n4x8] 8 1 1 1 1
  -- moves (R185, R219)
  | .mov c f =>
    let n := f.ty.regs
    { ty := [Ty.n32, .n64, .b128].contains f.ty, mod := f.mod == 0, u := .both
      clean := f.b == .zero && f.c == .zero && f.pd == 7
      uses := [{ o := f.d, n := n, al := n, v := !c.u, s := c.u, z := c.u, wr := true }, srcUse c f.a n] }
  | .movi c f =>
    let n := f.ty.regs
    { ty := [Ty.n32, .s32, .n64, .s64, .f32, .f64].contains f.ty, mod := f.mod == 0, u := .both
      clean := f.a == .zero && f.pd == 7
      uses := [{ o := f.d, n := n, al := n, v := !c.u, s := c.u, z := c.u, wr := true }] }
  | .rdsr c f =>
    let i := srInfo f.imm.toNat
    let n := if (i.map (·.1)).getD false then 2 else 1
    { mod := f.mod == 0, u := .both, sr := i.isSome, op := !(c.u && (i.map (·.2)).getD false)
      clean := f.a == .zero && f.pd == 7, uses := [{ dstUse c f.d n with z := n == 1 }] }
  | .wrsr _ f =>
    { mod := f.mod == 0, u := .on, sr := f.imm == 0x20 || f.imm == 0x21, clean := f.d == .zero && f.pd == 7
      uses := [sUse f.a (z := true)] }
  -- memory (R221 to R232)
  | .ld c f =>
    let n := f.ty.regs
    { ty := memTys f.ty, mod := modIn f.mod 1, u := .both, clean := f.c == .zero && f.pd == 7
      uses := [{ o := f.r, n := n, al := n, v := !c.u, s := c.u, z := c.u, wr := true }, idxUse c f.idx] }
  | .st c f =>
    { ty := memTys f.ty, mod := modIn f.mod 1, u := .both, clean := f.c == .zero && f.pd == 7
      uses := [srcUse c f.r f.ty.regs, idxUse c f.idx] }
  | .atom c f => atomShape c f
  | .atomcas c f =>
    let n := f.ty.regs
    { ty := [Ty.n32, .n64].contains f.ty
      mod := modBits f.mod 4 4 == 0 && modBits f.mod 1 3 ≤ 4 && f.pd.toNat ≤ 5
      u := .both
      uses := [dstUse c f.r n, { o := f.c, n := 2 * n, al := 2 * n, v := !c.u }, idxUse c f.idx] }
  | .red c f =>
    let opc := modBits f.mod 4 4
    { ty := (atomTys opc).contains f.ty
      mod := 3 ≤ opc && opc ≤ 8 && modBits f.mod 1 3 ≤ 4 && f.pd.toNat ≤ 5
      u := .both, clean := f.c == .zero
      uses := [srcUse c f.r f.ty.regs, idxUse c f.idx] }
  | .ldk c f =>
    { ty := [Ty.n32, .n64, .b128].contains f.ty, mod := modIn f.mod 1
      clean := f.bx == 0 && f.c == .zero && f.pd == 7
      uses := [dstUse c f.r f.ty.regs, anyUse f.idx] }
  | .stk c f =>
    { ty := [Ty.n32, .n64, .b128].contains f.ty, mod := modIn f.mod 1
      clean := f.bx == 0 && f.c == .zero && f.pd == 7
      uses := [srcUse c f.r f.ty.regs, anyUse f.idx] }
  | .badv _ f => r231Shape f .s32 [sUse f.idx (z := true)] (f.r == .zero && f.mod == 0 && f.c == .zero && f.pd == 7)
  | .bnarrow _ f =>
    r231Shape f .n32 [sUse f.idx (z := true), sUse f.c (z := true)]
      (plainIdx f.r && f.off == 0 && modIn f.mod 7 && f.pd == 7)
  | .bget _ f =>
    r231Shape f .n32 [sUse f.r 4 (wr := true)]
      (f.idx == .zero && f.off == 0 && f.mod == 0 && f.c == .zero && f.pd == 7)
  | .wmap _ f => r231Shape f .n64 [sUse f.r 2 2] (f.idx == .zero && f.off == 0 && f.mod == 0 && f.c == .zero)
  | .wunmap _ f =>
    r231Shape f .n32 [] (f.r == .zero && f.idx == .zero && f.off == 0 && f.mod == 0 && f.c == .zero && f.pd == 7)
  | .wflush _ f =>
    { r231Shape f .n32 [] (f.r == .zero && f.idx == .zero && f.off == 0 && f.mod == 0 && f.c == .zero && f.pd == 7)
      with async := true }
  | .bar _ f | .gbar _ f =>
    r231Shape f .n32 []
      (f.r == .zero && f.bx == 0 && f.idx == .zero && f.off == 0 && f.mod == 0 && f.c == .zero && f.pd == 7)
  | .wprd _ f =>
    r231Shape f .n64 [sUse f.r 2 2 (wr := true), sUse f.idx (z := true)]
      (f.bx == 0 && f.mod == 0 && f.c == .zero && f.pd == 7)
  | .wpwait _ f =>
    r231Shape f .n64 [sUse f.r 2 2, sUse f.idx (z := true)] (f.bx == 0 && f.mod == 0 && f.c == .zero)
  | .dqpush _ f => dqShape f (vUse f.r 2 2) .off true
  | .dqpop _ f | .dqsteal _ f => dqShape f (vUse f.r 2 2 (wr := true)) .off true
  | .dqinit _ f => dqShape f (sUse f.r) .on false
  -- synchronisation (R233 to R237)
  | .fence _ f =>
    let ord := modBits f.mod 0 3
    { u := .on, mod := 1 ≤ ord && ord ≤ 4 && modBits f.mod 3 5 ≤ 5
      clean := f.d == .zero && f.a == .zero && f.imm == 0 && f.pd == 7 }
  | .cinit _ f => { sBare f .on with mod := modIn f.mod 0x0F }
  | .waitf _ f => { sBare f .on with clean := (sBare f .on).clean && f.imm.toNat < 4096 }
  | .drain _ f => { sBare f .on with clean := (sBare f .on).clean && f.imm == 0 }
  -- claims (R239)
  | .acq _ f | .acqTry _ f =>
    let cls := modBits f.mod 0 3
    { u := .on, mod := modIn f.mod 0x0F
      op := cls != 2 || f.d == .zero || f.d == .bad
      clean := f.a == .zero && (modBit f.mod 3 || f.pd == 7) && (cls != 0 || plainIdx f.d) && f.d != .bad
      uses := if cls = 1 ∨ cls = 3 then [sUse f.d (wr := true)] else if cls = 2 then [{ o := f.d }] else [] }
  | .rel _ f =>
    let cls := modBits f.mod 0 3
    { u := .on, mod := modIn f.mod 0x07
      op := cls != 2 || f.a == .zero || f.a == .bad
      clean := f.d == .zero && f.pd == 7 && (cls != 0 || plainIdx f.a) && (cls != 3 || f.imm == 0) &&
        f.a != .bad
      uses := if cls = 1 ∨ cls = 3 then [sUse f.a] else if cls = 2 then [{ o := f.a }] else [] }
  | .claimrd _ f =>
    { u := .on, mod := modIn f.mod 0x07, clean := f.a == .zero && f.imm == 0 && f.pd == 7
      uses := [sUse f.d (if f.d == .s 63 then 1 else 2) (wr := true)] }
  | .push _ f =>
    { u := .on, async := true, mod := f.mod == 0, clean := f.d == .zero, uses := [sUse f.a 16] }
  | .cpst _ f =>
    { u := .on, mod := modIn f.mod 1, clean := f.pd == 7
      uses := [sUse f.d 4 (wr := true), sUse f.a (z := true)] }
  | .bndmin c f =>
    { u := .both, mod := modBits f.mod 2 2 != 3 && modIn f.mod 0x0F, clean := f.d == .zero && f.imm == 0
      uses := [{ o := f.a, n := 2, al := 2, v := !c.u, z := false }] }
  | .bndrd c f =>
    { u := .both, mod := modBits f.mod 2 2 != 3 && modIn f.mod 0x0F
      clean := f.a == .zero && f.imm == 0 && modBits f.mod 2 2 == 0 && f.pd == 7
      uses := [{ dstUse c f.d 2 with z := false }] }
  -- matrix and attention (R141, R258 to R262)
  | .mma _ f =>
    { async := true, clean := f.zs == 0 && modIn f.mod 1
      op := match f.a with | .v k => k.toNat ≤ 240 | _ => true
      uses := [vUse f.a 16 8, anyUse f.sa] }
  | .mmom _ f =>
    { async := true, clean := f.zs == 0 && modIn f.mod 1
      op := (match f.a with | .v k => k.toNat ≤ 240 | _ => true) && (f.sa == .zero || f.sa == .bad) &&
        f.zd.toNat % 2 == 0
      uses := [vUse f.a 16 8, { o := f.sa }] }
  | .zclr _ f =>
    { u := .on
      clean := f.zs == 0 && f.a == .zero && f.bx == 0 && f.off == 0 && f.fslot == 0 && f.cv == 0 && f.sa == .zero &&
        modIn f.mod 1 }
  | .zmov _ f =>
    { op := match f.a with | .v k => k.toNat ≤ 240 | _ => true
      clean := f.zs == 0 && f.bx == 0 && f.off.toNat < 24 && f.fslot == 0 && f.cv == 0 && f.sa == .zero &&
        modIn f.mod 1
      uses := [vUse f.a 16 8 (wr := !modBit f.mod 0)] }
  | .zst _ f | .zld _ f =>
    { u := .on, async := true, clean := f.zs == 0 && f.a == .zero && f.cv == 0 && f.mod == 0
      uses := [sUse f.sa (z := true)] }
  | .att _ f =>
    { u := .on, async := true, op := f.zd != f.zs
      clean := f.a == .zero && f.fslot == 0 && f.cv == 0 && f.mod == 0, uses := [sUse f.sa 5] }
  | .attfin _ f =>
    { u := .on, async := true
      clean := f.zs == 0 && f.a == .zero && f.bx == 0 && f.off == 0 && f.fslot == 0 && f.cv == 0 && f.sa == .zero &&
        f.mod == 0 }
  -- moment (R264, R265)
  | .mset _ f => kShape f true false false false 0 0 [anyUse f.v 2] false false
  | .mld _ f =>
    let x := kShape f true false false true 0 1 [anyUse f.v] false true
    { x with clean := x.clean && f.mc.toNat < 16 }
  | .mst _ f =>
    let x := kShape f false true false true 0 1 [anyUse f.v] false true
    { x with clean := x.clean && f.mc.toNat < 16 }
  | .mmov _ f => kShape f true true false false 0 0 [] false false
  | .madd _ f | .msub _ f | .mmul _ f | .mmax _ f | .mmin _ f =>
    kShape f true true true false 3 0 (covUse f) false false
  | .mscl _ f => kShape f true true false false 0 0 [anyUse f.v] false false
  | .mfma _ f => kShape f true true true true 3 0 (covUse f) false false
  | .mrelu _ f | .msigm _ f | .mexp _ f => kShape f true true false false 0 0 [] false false
  | .mplt _ f => kShape f false true true false 3 0 [vUse f.v (wr := true)] false false
  | .mcol _ f =>
    let x := kShape f false true false false 0 7 [vUse f.v (wr := true)] false false
    { x with mod := x.mod && modBits f.mod 0 3 ≤ 4 }
  | .mred _ f => kShape f true true false false 1 0 [] false false
  | .mshfl _ f =>
    let x := kShape f true true false false 0 0x1F [anyUse f.v] true false
    { x with mod := x.mod && modBits f.mod 2 3 ≤ 5 }
  -- heap (R267)
  | .hnew _ f =>
    let x := hShape f true false false true (· == .n32) 0 [anyUse f.v] [] false
    { x with clean := x.clean && f.off.toNat < 4096 }
  | .hld _ f => hShape f false true false true memTys 0 [vUse f.v f.ty.regs f.ty.regs true true] [anyUse f.ix] false
  | .hst _ f => hShape f false true false true memTys 0 [anyUse f.v f.ty.regs f.ty.regs] [anyUse f.ix] false
  | .hatom _ f =>
    let opc := modBits f.mod 4 4
    let n := f.ty.regs
    let x := hShape f false true false true ((atomTys opc).contains ·) 0xFE [vUse f.v n n true true] [anyUse f.ix n n]
      true
    { x with mod := x.mod && opc ≤ 8 && ordOk opc (modBits f.mod 1 3) && f.pd.toNat ≤ 5
             op := (opc != 1 || f.v == .zero || f.v == .bad) && (opc != 0 || f.ix == .zero || f.ix == .bad) }
  | .hcas _ f =>
    let n := f.ty.regs
    let x := hShape f false true false true ([Ty.n32, .n64].contains ·) 0x0E [vUse f.v n n true true]
      [vUse f.ix (2 * n) (2 * n)] true
    { x with mod := x.mod && modBits f.mod 1 3 ≤ 4 && f.pd.toNat ≤ 5 }
  | .hldr _ f => hShape f true true false true (· == .n64) 0 [] [] false
  | .hstr _ f => hShape f false true true true (· == .n64) 0 [] [] false
  | .hmov _ f =>
    if modBit f.mod 0 then hShape f true true false false (· == .n64) 1 [] [] false
    else hShape f true false false false (· == .n64) 1 [vUse f.v 2 2] [] false
  | .hcmp _ f => hShape f false true true false (· == .n32) 0 [] [] true
  | .hhdr _ f => hShape f false true false false (· == .b128) 0 [vUse f.v 4 4 (wr := true)] [] false
  | .hpin _ f => hShape f false true false false (· == .n64) 0 [vUse f.v 2 2 (wr := true)] [] false
  | .hunpin _ f => hShape f false true false false (· == .n32) 0 [] [] false
  | .hflipMark _ f => { hShape f false false false false (· == .n32) 0 [sUse f.v 4] [] true with u := .on }
  | .hflipConf _ f =>
    { hShape f false false false false (· == .n32) 1 [sUse f.v (z := true)] [] false with u := .on }
  -- system (R275)
  | .rte _ f =>
    let t := modBit f.mod 0
    { u := .on, mod := modIn f.mod 1, op := t || f.a == .zero || f.a == .bad
      clean := f.d == .zero && f.imm == 0 && f.pd == 7
      uses := if t then [sUse f.a] else [{ o := f.a }] }
  | .prd _ f =>
    { u := .on, mod := f.mod == 0, sr := (prInfo f.imm.toNat).isSome, clean := f.a == .zero && f.pd == 7
      uses := [sUse f.d (wr := true)] }
  | .pwr _ f =>
    { u := .on, mod := f.mod == 0, sr := prInfo f.imm.toNat == some true, clean := f.d == .zero && f.pd == 7
      uses := [sUse f.a] }
  | .invmark _ f =>
    { u := .on, mod := modIn f.mod 3, clean := f.d == .zero && f.imm == 0 && f.pd == 7, uses := [sUse f.a 4] }
  | .invconf _ f => { sBare f .on with clean := (sBare f .on).clean && f.imm == 0 }
  | .errrd _ f =>
    { u := .on, mod := f.mod == 0, clean := f.a == .zero && f.imm == 0, uses := [sUse f.d 8 (wr := true)] }
  -- the device's events have no encoding
  | _ => {}

/-- The format fields of an instruction (R176). -/
inductive Body where
  | rrr (f : RRR) | ri (f : RI) | br (f : BR) | m (f : FM) | x (f : FX) | k (f : FK) | h (f : FH) | s (f : FS)
  deriving DecidableEq, Repr

/-- The format fields of an instruction with both layouts. -/
def Arith.body : Arith → Body
  | .rrr f => .rrr f
  | .ri f => .ri f

/-- An instruction as its opcode (R183), common fields and format fields; none for an event, which has no word. -/
def Instr.view : Instr → Option (Nat × Common × Body)
  | .nop c f => some (0x001, c, (.br f))
  | .bra c f => some (0x002, c, (.br f))
  | .brx c f => some (0x003, c, (.br f))
  | .call c f => some (0x004, c, (.br f))
  | .ret c f => some (0x005, c, (.br f))
  | .exit c f => some (0x006, c, (.br f))
  | .yield c f => some (0x007, c, (.br f))
  | .wsync c f => some (0x008, c, (.br f))
  | .rgn c f => some (0x00C, c, (.br f))
  | .vote c f => some (0x009, c, (.rrr f))
  | .shfl c f => some (0x00A, c, (.rrr f))
  | .rdlane c f => some (0x00B, c, (.rrr f))
  | .brk c f => some (0x00D, c, (.s f))
  | .trap c f => some (0x00E, c, (.s f))
  | .iadd c f => some (0x040, c, f.body)
  | .isub c f => some (0x041, c, f.body)
  | .imul c f => some (0x042, c, f.body)
  | .imulh c f => some (0x043, c, f.body)
  | .imad c f => some (0x044, c, (.rrr f))
  | .imadw c f => some (0x045, c, (.rrr f))
  | .idiv c f => some (0x046, c, f.body)
  | .irem c f => some (0x047, c, f.body)
  | .imin c f => some (0x048, c, f.body)
  | .imax c f => some (0x049, c, f.body)
  | .iabs c f => some (0x04A, c, (.rrr f))
  | .logt c f => some (0x04B, c, (.rrr f))
  | .shl c f => some (0x04C, c, f.body)
  | .shr c f => some (0x04D, c, f.body)
  | .shp c f => some (0x04E, c, (.rrr f))
  | .popc c f => some (0x04F, c, (.rrr f))
  | .clz c f => some (0x050, c, (.rrr f))
  | .brev c f => some (0x051, c, (.rrr f))
  | .bfe c f => some (0x052, c, (.rrr f))
  | .bfi c f => some (0x053, c, (.rrr f))
  | .isetp c f => some (0x054, c, f.body)
  | .sel c f => some (0x055, c, (.rrr f))
  | .lea c f => some (0x056, c, (.rrr f))
  | .plogt c f => some (0x057, c, (.rrr f))
  | .fadd c f => some (0x080, c, f.body)
  | .fmul c f => some (0x081, c, f.body)
  | .ffma c f => some (0x082, c, (.rrr f))
  | .fmin c f => some (0x083, c, f.body)
  | .fmax c f => some (0x084, c, f.body)
  | .fsetp c f => some (0x085, c, f.body)
  | .fdiv c f => some (0x086, c, (.rrr f))
  | .fsqrt c f => some (0x087, c, (.rrr f))
  | .frcp c f => some (0x088, c, (.rrr f))
  | .frsq c f => some (0x089, c, (.rrr f))
  | .fex2 c f => some (0x08A, c, (.rrr f))
  | .flg2 c f => some (0x08B, c, (.rrr f))
  | .fsin c f => some (0x08C, c, (.rrr f))
  | .fcos c f => some (0x08D, c, (.rrr f))
  | .ftanh c f => some (0x08E, c, (.rrr f))
  | .ferf c f => some (0x08F, c, (.rrr f))
  | .fclass c f => some (0x090, c, (.rrr f))
  | .fscale c f => some (0x091, c, (.rrr f))
  | .cvt c f => some (0x0C0, c, (.rrr f))
  | .qnt c f => some (0x0C1, c, (.rrr f))
  | .dqt c f => some (0x0C2, c, (.rrr f))
  | .bsel c f => some (0x0C3, c, (.rrr f))
  | .pack c f => some (0x0C4, c, (.rrr f))
  | .fdp4 c f => some (0x0C5, c, (.rrr f))
  | .fdp8 c f => some (0x0C6, c, (.rrr f))
  | .idp4 c f => some (0x0C7, c, (.rrr f))
  | .idp8 c f => some (0x0C8, c, (.rrr f))
  | .mov c f => some (0x100, c, (.rrr f))
  | .movi c f => some (0x101, c, (.ri f))
  | .rdsr c f => some (0x102, c, (.s f))
  | .wrsr c f => some (0x103, c, (.s f))
  | .ld c f => some (0x140, c, (.m f))
  | .st c f => some (0x141, c, (.m f))
  | .atom c f => some (0x142, c, (.m f))
  | .atomcas c f => some (0x143, c, (.m f))
  | .red c f => some (0x144, c, (.m f))
  | .ldk c f => some (0x145, c, (.m f))
  | .stk c f => some (0x146, c, (.m f))
  | .bnarrow c f => some (0x147, c, (.m f))
  | .badv c f => some (0x148, c, (.m f))
  | .bget c f => some (0x149, c, (.m f))
  | .wmap c f => some (0x14A, c, (.m f))
  | .wunmap c f => some (0x14B, c, (.m f))
  | .wflush c f => some (0x14C, c, (.m f))
  | .fence c f => some (0x180, c, (.s f))
  | .bar c f => some (0x181, c, (.m f))
  | .gbar c f => some (0x182, c, (.m f))
  | .cinit c f => some (0x183, c, (.s f))
  | .waitf c f => some (0x184, c, (.s f))
  | .wprd c f => some (0x185, c, (.m f))
  | .wpwait c f => some (0x186, c, (.m f))
  | .drain c f => some (0x187, c, (.s f))
  | .acq c f => some (0x1C0, c, (.s f))
  | .acqTry c f => some (0x1C0, c, (.s f))
  | .rel c f => some (0x1C1, c, (.s f))
  | .claimrd c f => some (0x1C2, c, (.s f))
  | .push c f => some (0x1C3, c, (.s f))
  | .cpst c f => some (0x1C4, c, (.s f))
  | .bndmin c f => some (0x1C9, c, (.s f))
  | .bndrd c f => some (0x1CA, c, (.s f))
  | .dqpush c f => some (0x1C5, c, (.m f))
  | .dqpop c f => some (0x1C6, c, (.m f))
  | .dqsteal c f => some (0x1C7, c, (.m f))
  | .dqinit c f => some (0x1C8, c, (.m f))
  | .mma c f => some (0x200, c, (.x f))
  | .zclr c f => some (0x201, c, (.x f))
  | .zmov c f => some (0x202, c, (.x f))
  | .zst c f => some (0x203, c, (.x f))
  | .zld c f => some (0x204, c, (.x f))
  | .att c f => some (0x205, c, (.x f))
  | .attfin c f => some (0x206, c, (.x f))
  | .mset c f => some (0x240, c, (.k f))
  | .mld c f => some (0x241, c, (.k f))
  | .mst c f => some (0x242, c, (.k f))
  | .mmov c f => some (0x243, c, (.k f))
  | .madd c f => some (0x244, c, (.k f))
  | .msub c f => some (0x245, c, (.k f))
  | .mmul c f => some (0x246, c, (.k f))
  | .mscl c f => some (0x247, c, (.k f))
  | .mfma c f => some (0x248, c, (.k f))
  | .mrelu c f => some (0x249, c, (.k f))
  | .msigm c f => some (0x24A, c, (.k f))
  | .mexp c f => some (0x24B, c, (.k f))
  | .mmax c f => some (0x24C, c, (.k f))
  | .mmin c f => some (0x24D, c, (.k f))
  | .mplt c f => some (0x24E, c, (.k f))
  | .mcol c f => some (0x24F, c, (.k f))
  | .mred c f => some (0x250, c, (.k f))
  | .mshfl c f => some (0x251, c, (.k f))
  | .mmom c f => some (0x252, c, (.x f))
  | .hnew c f => some (0x280, c, (.h f))
  | .hld c f => some (0x281, c, (.h f))
  | .hst c f => some (0x282, c, (.h f))
  | .hatom c f => some (0x283, c, (.h f))
  | .hldr c f => some (0x284, c, (.h f))
  | .hstr c f => some (0x285, c, (.h f))
  | .hmov c f => some (0x286, c, (.h f))
  | .hcmp c f => some (0x287, c, (.h f))
  | .hhdr c f => some (0x288, c, (.h f))
  | .hpin c f => some (0x289, c, (.h f))
  | .hunpin c f => some (0x28A, c, (.h f))
  | .hflipMark c f => some (0x28B, c, (.h f))
  | .hflipConf c f => some (0x28B, c, (.h f))
  | .hcas c f => some (0x28C, c, (.h f))
  | .rte c f => some (0x2C0, c, (.s f))
  | .prd c f => some (0x2C1, c, (.s f))
  | .pwr c f => some (0x2C2, c, (.s f))
  | .invmark c f => some (0x2C3, c, (.s f))
  | .invconf c f => some (0x2C4, c, (.s f))
  | .errrd c f => some (0x2C5, c, (.s f))
  | _ => none

/-- The common fields of an instruction; an event counts as unguarded and uniform. -/
def Instr.common (i : Instr) : Common :=
  match i.view with
  | some (_, c, _) => c
  | none => { grd := .always, fs := .none, u := true }

/-- The first condition of ILLEGAL-OPCODE that a word's own fields show, as its sub-code (R180). -/
def Instr.illegal (i : Instr) : Option Nat :=
  let h := i.shape
  let c := i.common
  if i.view.isNone then none
  else if !h.ty then some 0x02
  else if !h.mod then some 0x03
  else if !h.op || h.uses.any (fun x => !x.ok) || (h.u == .off && c.u) || (h.u == .on && !c.u) then some 0x04
  else if h.async && c.fs == .none || !h.async && (c.fs == .setA || c.fs == .setB) then some 0x05
  else if !h.sr then some 0x08
  else none

/-- A condition of RESERVED-FIELD that a word's own fields show (R179 priority 5). -/
def Instr.reserved (i : Instr) : Bool :=
  let h := i.shape
  let c := i.common
  i.view.isSome && (c.grd == .bad || c.fs == .bad || !h.clean || h.uses.any (fun x => x.o == .bad))

/-- The `m` registers an instruction names: those it reads and those it writes (R264). -/
def Instr.mRegs : Instr → List Nat × List Nat
  | .mset _ f | .mld _ f => ([], [f.md.toNat])
  | .mst _ f | .mcol _ f => ([f.ma.toNat], [])
  | .mplt _ f => ([f.ma.toNat, f.mb.toNat], [])
  | .mmov _ f | .mscl _ f | .mrelu _ f | .msigm _ f | .mexp _ f | .mred _ f | .mshfl _ f => ([f.ma.toNat], [f.md.toNat])
  | .madd _ f | .msub _ f | .mmul _ f | .mmax _ f | .mmin _ f => ([f.ma.toNat, f.mb.toNat], [f.md.toNat])
  | .mfma _ f => ([f.ma.toNat, f.mb.toNat, f.mc.toNat], [f.md.toNat])
  | _ => ([], [])

/-- The `h` registers an instruction names: those it reads and those it writes (R267). -/
def Instr.hRegs : Instr → List Nat × List Nat
  | .hnew _ f => ([], [f.hd.toNat])
  | .hld _ f | .hst _ f | .hatom _ f | .hcas _ f | .hhdr _ f | .hpin _ f | .hunpin _ f => ([f.ha.toNat], [])
  | .hldr _ f => ([f.ha.toNat], [f.hd.toNat])
  | .hstr _ f | .hcmp _ f => ([f.ha.toNat, f.hb.toNat], [])
  | .hmov _ f => (if modBit f.mod 0 then [f.ha.toNat] else [], [f.hd.toNat])
  | _ => ([], [])

/-- The tile names an instruction uses (R54, R108, R258). -/
def Instr.zNames : Instr → List Nat
  | .mma _ f | .zclr _ f | .zmov _ f | .zst _ f | .zld _ f | .attfin _ f => [f.zd.toNat]
  | .mmom _ f => [f.zd.toNat, f.zd.toNat + 1]
  | .att _ f => [f.zd.toNat, f.zs.toNat]
  | _ => []

/-- The `v` registers an instruction names, with whether each is read: a written register is read too where the
instruction says so (R98, R104, R264). -/
def Instr.vRegs (i : Instr) : List (Nat × Bool) :=
  let also : Bool := match i with
    | .mplt _ f => f.cov == 3
    | .mcol _ f => 3 ≤ f.mod.toNat
    | _ => false
  i.shape.uses.flatMap fun u =>
    match u.o with
    | .v k => (List.range u.n).map fun j => (k.toNat + j, !u.wr || also)
    | _ => []

end Sys2Proof
end

