-- ==== Sys2Proof/WellFormed.lean ====
section
/-! DEFINITION. A well-formed instruction: one whose word passes every static check of R179 priorities 4 and 5. -/

namespace Sys2Proof

/-- The instruction's own fields raise neither ILLEGAL-OPCODE nor RESERVED-FIELD; `ACQ` and `ACQ.TRY`, and the two forms
of `HFLIP`, are told apart by their `MOD` bit (R239, R267).  An event is always well-formed. -/
def Instr.wf (i : Instr) : Bool :=
  i.illegal.isNone && !i.reserved &&
    (match i with
     | .acq _ f => !modBit f.mod 3
     | .acqTry _ f => modBit f.mod 3
     | .hflipMark _ f => !modBit f.mod 0
     | .hflipConf _ f => modBit f.mod 0
     | _ => true)

/-- `Instr.wf` as a proposition. -/
abbrev WellFormed (i : Instr) : Prop := i.wf = true

end Sys2Proof
end

