-- ==== Sys2Proof/Decode.lean ====
section
/-! DEFINITION. The decoder and the encoder of the 96-bit instruction word (R172 to R178).  Both are written from one
list of field widths for each format, lowest field first. -/

namespace Sys2Proof

/-- Lay fields of the given widths one above the other, the first at bit 0. -/
def Bits.pack : List (Nat × Nat) → Nat
  | [] => 0
  | (w, x) :: rest => x % 2 ^ w + 2 ^ w * Bits.pack rest

/-- Read fields of the given widths, the first at bit 0. -/
def Bits.unpack : List Nat → Nat → List Nat
  | [], _ => []
  | w :: rest, x => x % 2 ^ w :: Bits.unpack rest (x / 2 ^ w)

/-- The eight formats (R176). -/
inductive Fmt where
  | rrr | ri | br | m | x | k | h | s
  deriving DecidableEq, Repr

/-- The widths of a format's fields in bits [77:0], lowest first (R176). -/
def Fmt.widths : Fmt → List Nat
  | .rrr => [25, 3, 8, 6, 9, 9, 9, 9]
  | .ri => [11, 3, 8, 6, 32, 9, 9]
  | .br => [22, 8, 9, 12, 3, 24]
  | .m => [6, 3, 9, 8, 6, 24, 9, 4, 9]
  | .x => [11, 9, 8, 4, 3, 24, 4, 9, 3, 3]
  | .k => [8, 24, 3, 8, 2, 9, 6, 6, 6, 6]
  | .h => [7, 9, 4, 3, 8, 6, 24, 9, 4, 4]
  | .s => [25, 3, 8, 24, 9, 9]

/-- The format of a body. -/
def Body.fmt : Body → Fmt
  | .rrr _ => .rrr | .ri _ => .ri | .br _ => .br | .m _ => .m | .x _ => .x | .k _ => .k | .h _ => .h | .s _ => .s

/-- The values of a body's fields, lowest first, its reserved field at 0. -/
def Body.fields : Body → List Nat
  | .rrr f => [0, f.pd.toNat, f.mod.toNat, f.ty.code, f.c.code, f.b.code, f.a.code, f.d.code]
  | .ri f => [0, f.pd.toNat, f.mod.toNat, f.ty.code, f.imm.toNat, f.a.code, f.d.code]
  | .br f => [0, f.mod.toNat, f.a.code, f.prio.toNat, f.slot.toNat, f.loff.toNat]
  | .m f => [0, f.pd.toNat, f.c.code, f.mod.toNat, f.ty.code, f.off.toNat, f.idx.code, f.bx.toNat, f.r.code]
  | .x f => [0, f.sa.code, f.mod.toNat, f.cv.toNat, f.fslot.toNat, f.off.toNat, f.bx.toNat, f.a.code, f.zs.toNat,
      f.zd.toNat]
  | .k f => [0, f.off.toNat, f.pd.toNat, f.mod.toNat, f.cov.toNat, f.v.code, f.mc.toNat, f.mb.toNat, f.ma.toNat,
      f.md.toNat]
  | .h f => [0, f.ix.code, f.hb.toNat, f.pd.toNat, f.mod.toNat, f.ty.code, f.off.toNat, f.v.code, f.ha.toNat,
      f.hd.toNat]
  | .s f => [0, f.pd.toNat, f.mod.toNat, f.imm.toNat, f.a.code, f.d.code]

/-- A body and its reserved field from the values of its fields, lowest first. -/
def Body.ofFields : Fmt → List Nat → Option (Body × Nat)
  | .rrr, [r, pd, mod, ty, c, b, a, d] =>
    some (.rrr { d := .ofCode d, a := .ofCode a, b := .ofCode b, c := .ofCode c, ty := .ofCode ty, mod := .ofNat 8 mod,
                 pd := .ofNat 3 pd }, r)
  | .ri, [r, pd, mod, ty, imm, a, d] =>
    some (.ri { d := .ofCode d, a := .ofCode a, imm := .ofNat 32 imm, ty := .ofCode ty, mod := .ofNat 8 mod,
                pd := .ofNat 3 pd }, r)
  | .br, [r, mod, a, prio, slot, loff] =>
    some (.br { loff := .ofNat 24 loff, slot := .ofNat 3 slot, prio := .ofNat 12 prio, a := .ofCode a,
                mod := .ofNat 8 mod }, r)
  | .m, [r, pd, c, mod, ty, off, idx, bx, dr] =>
    some (.m { r := .ofCode dr, bx := .ofNat 4 bx, idx := .ofCode idx, off := .ofNat 24 off, ty := .ofCode ty,
               mod := .ofNat 8 mod, c := .ofCode c, pd := .ofNat 3 pd }, r)
  | .x, [r, sa, mod, cv, fslot, off, bx, a, zs, zd] =>
    some (.x { zd := .ofNat 3 zd, zs := .ofNat 3 zs, a := .ofCode a, bx := .ofNat 4 bx, off := .ofNat 24 off,
               fslot := .ofNat 3 fslot, cv := .ofNat 4 cv, mod := .ofNat 8 mod, sa := .ofCode sa }, r)
  | .k, [r, off, pd, mod, cov, v, mc, mb, ma, md] =>
    some (.k { md := .ofNat 6 md, ma := .ofNat 6 ma, mb := .ofNat 6 mb, mc := .ofNat 6 mc, v := .ofCode v,
               cov := .ofNat 2 cov, mod := .ofNat 8 mod, pd := .ofNat 3 pd, off := .ofNat 24 off }, r)
  | .h, [r, ix, hb, pd, mod, ty, off, v, ha, hd] =>
    some (.h { hd := .ofNat 4 hd, ha := .ofNat 4 ha, v := .ofCode v, off := .ofNat 24 off, ty := .ofCode ty,
               mod := .ofNat 8 mod, pd := .ofNat 3 pd, hb := .ofNat 4 hb, ix := .ofCode ix }, r)
  | .s, [r, pd, mod, imm, a, d] =>
    some (.s { d := .ofCode d, a := .ofCode a, imm := .ofNat 24 imm, mod := .ofNat 8 mod, pd := .ofNat 3 pd }, r)
  | _, _ => none

/-- The guard code GRD = bits [85:82] (R173). -/
def Guard.code : Guard → Nat
  | .always => 7
  | .pred neg p => p.val + (if neg then 8 else 0)
  | .bad => 15

/-- The guard a code names (R173). -/
def Guard.ofCode (n : Nat) : Guard :=
  if n = 7 then .always
  else if n < 7 then .pred false (Fin.ofNat 7 n)
  else if n < 15 then .pred true (Fin.ofNat 7 (n - 8))
  else .bad

/-- The flag-select code (R170). -/
def FlagSel.code : FlagSel → Nat
  | .none => 0 | .setA => 1 | .setB => 2 | .bad => 3

/-- The flag select a code names (R170). -/
def FlagSel.ofCode : Nat → FlagSel
  | 0 => .none | 1 => .setA | 2 => .setB | _ => .bad

/-- The widths of the common fields from bit [78] up (R172): I, U, FS, GRD, OP. -/
def commonWidths : List Nat := [1, 1, 2, 4, 10]

/-- The word of an opcode, its common fields and its format fields. -/
def encodeParts (op : Nat) (c : Common) (b : Body) : IWord :=
  let i := match b with | .ri _ => 1 | _ => 0
  BitVec.ofNat 96 (Bits.pack ((b.fmt.widths.zip b.fields) ++
    commonWidths.zip [i, if c.u then 1 else 0, c.fs.code, c.grd.code, op]))

/-- The word of an instruction; none for an event. -/
def encode (i : Instr) : Option IWord := i.view.map fun (op, c, b) => encodeParts op c b

/-- What a word's opcode says of it (R176, R177, R183): the format the word has with its bit [78], whether bit [78] is an
illegal select, and whether it is reserved and set. -/
structure OpInfo where
  fmt : Fmt
  iBad : Bool := false
  iReserved : Bool := false

/-- The layout of an opcode; none for the opcodes the map does not assign. -/
def opInfo (op : Nat) (i : Bool) : Option OpInfo :=
  let rrrOnly : OpInfo := { fmt := .rrr, iBad := i }
  let both : OpInfo := { fmt := if i then .ri else .rrr }
  let fixed (f : Fmt) : OpInfo := { fmt := f, iReserved := i }
  match op with
  | 0x001 | 0x002 | 0x003 | 0x004 | 0x005 | 0x006 | 0x007 | 0x008 | 0x00C => some (fixed .br)
  | 0x009 | 0x00A | 0x00B => some (fixed .rrr)
  | 0x00D | 0x00E | 0x102 | 0x103 | 0x180 | 0x183 | 0x184 | 0x187 | 0x1C0 | 0x1C1 | 0x1C2 | 0x1C3 
  | 0x1C4 | 0x1C9 | 0x1CA | 0x2C0 | 0x2C1 | 0x2C2 | 0x2C3 | 0x2C4 | 0x2C5 => some (fixed .s)
  | 0x040 | 0x041 | 0x042 | 0x043 | 0x046 | 0x047 | 0x048 | 0x049 | 0x04C | 0x04D | 0x054 | 0x080 
  | 0x081 | 0x083 | 0x084 | 0x085 => some both
  | 0x044 | 0x045 | 0x04A | 0x04B | 0x04E | 0x04F | 0x050 | 0x051 | 0x052 | 0x053 | 0x055 | 0x056 
  | 0x057 | 0x082 | 0x086 | 0x087 | 0x088 | 0x089 | 0x08A | 0x08B | 0x08C | 0x08D | 0x08E | 0x08F 
  | 0x090 | 0x091 | 0x0C0 | 0x0C1 | 0x0C2 | 0x0C3 | 0x0C4 | 0x0C5 | 0x0C6 | 0x0C7 | 0x0C8 | 0x100 => some rrrOnly
  | 0x101 => some { fmt := .ri, iBad := !i }
  | 0x140 | 0x141 | 0x142 | 0x143 | 0x144 | 0x145 | 0x146 | 0x147 | 0x148 | 0x149 | 0x14A | 0x14B 
  | 0x14C | 0x181 | 0x182 | 0x185 | 0x186 | 0x1C5 | 0x1C6 | 0x1C7 | 0x1C8 => some (fixed .m)
  | 0x200 | 0x201 | 0x202 | 0x203 | 0x204 | 0x205 | 0x206 | 0x252 => some (fixed .x)
  | 0x240 | 0x241 | 0x242 | 0x243 | 0x244 | 0x245 | 0x246 | 0x247 | 0x248 | 0x249 | 0x24A | 0x24B 
  | 0x24C | 0x24D | 0x24E | 0x24F | 0x250 | 0x251 => some (fixed .k)
  | 0x280 | 0x281 | 0x282 | 0x283 | 0x284 | 0x285 | 0x286 | 0x287 | 0x288 | 0x289 | 0x28A | 0x28B 
  | 0x28C => some (fixed .h)
  | _ => none

/-- The instruction of an opcode, common fields and body of its format. -/
def Instr.ofView (op : Nat) (c : Common) (b : Body) : Option Instr :=
  match b with
  | .rrr f =>
    match op with
    | 0x009 => some (.vote c f)
    | 0x00A => some (.shfl c f)
    | 0x00B => some (.rdlane c f)
    | 0x040 => some (.iadd c (.rrr f))
    | 0x041 => some (.isub c (.rrr f))
    | 0x042 => some (.imul c (.rrr f))
    | 0x043 => some (.imulh c (.rrr f))
    | 0x044 => some (.imad c f)
    | 0x045 => some (.imadw c f)
    | 0x046 => some (.idiv c (.rrr f))
    | 0x047 => some (.irem c (.rrr f))
    | 0x048 => some (.imin c (.rrr f))
    | 0x049 => some (.imax c (.rrr f))
    | 0x04A => some (.iabs c f)
    | 0x04B => some (.logt c f)
    | 0x04C => some (.shl c (.rrr f))
    | 0x04D => some (.shr c (.rrr f))
    | 0x04E => some (.shp c f)
    | 0x04F => some (.popc c f)
    | 0x050 => some (.clz c f)
    | 0x051 => some (.brev c f)
    | 0x052 => some (.bfe c f)
    | 0x053 => some (.bfi c f)
    | 0x054 => some (.isetp c (.rrr f))
    | 0x055 => some (.sel c f)
    | 0x056 => some (.lea c f)
    | 0x057 => some (.plogt c f)
    | 0x080 => some (.fadd c (.rrr f))
    | 0x081 => some (.fmul c (.rrr f))
    | 0x082 => some (.ffma c f)
    | 0x083 => some (.fmin c (.rrr f))
    | 0x084 => some (.fmax c (.rrr f))
    | 0x085 => some (.fsetp c (.rrr f))
    | 0x086 => some (.fdiv c f)
    | 0x087 => some (.fsqrt c f)
    | 0x088 => some (.frcp c f)
    | 0x089 => some (.frsq c f)
    | 0x08A => some (.fex2 c f)
    | 0x08B => some (.flg2 c f)
    | 0x08C => some (.fsin c f)
    | 0x08D => some (.fcos c f)
    | 0x08E => some (.ftanh c f)
    | 0x08F => some (.ferf c f)
    | 0x090 => some (.fclass c f)
    | 0x091 => some (.fscale c f)
    | 0x0C0 => some (.cvt c f)
    | 0x0C1 => some (.qnt c f)
    | 0x0C2 => some (.dqt c f)
    | 0x0C3 => some (.bsel c f)
    | 0x0C4 => some (.pack c f)
    | 0x0C5 => some (.fdp4 c f)
    | 0x0C6 => some (.fdp8 c f)
    | 0x0C7 => some (.idp4 c f)
    | 0x0C8 => some (.idp8 c f)
    | 0x100 => some (.mov c f)
    | _ => none
  | .ri f =>
    match op with
    | 0x040 => some (.iadd c (.ri f))
    | 0x041 => some (.isub c (.ri f))
    | 0x042 => some (.imul c (.ri f))
    | 0x043 => some (.imulh c (.ri f))
    | 0x046 => some (.idiv c (.ri f))
    | 0x047 => some (.irem c (.ri f))
    | 0x048 => some (.imin c (.ri f))
    | 0x049 => some (.imax c (.ri f))
    | 0x04C => some (.shl c (.ri f))
    | 0x04D => some (.shr c (.ri f))
    | 0x054 => some (.isetp c (.ri f))
    | 0x080 => some (.fadd c (.ri f))
    | 0x081 => some (.fmul c (.ri f))
    | 0x083 => some (.fmin c (.ri f))
    | 0x084 => some (.fmax c (.ri f))
    | 0x085 => some (.fsetp c (.ri f))
    | 0x101 => some (.movi c f)
    | _ => none
  | .br f =>
    match op with
    | 0x001 => some (.nop c f)
    | 0x002 => some (.bra c f)
    | 0x003 => some (.brx c f)
    | 0x004 => some (.call c f)
    | 0x005 => some (.ret c f)
    | 0x006 => some (.exit c f)
    | 0x007 => some (.yield c f)
    | 0x008 => some (.wsync c f)
    | 0x00C => some (.rgn c f)
    | _ => none
  | .m f =>
    match op with
    | 0x140 => some (.ld c f)
    | 0x141 => some (.st c f)
    | 0x142 => some (.atom c f)
    | 0x143 => some (.atomcas c f)
    | 0x144 => some (.red c f)
    | 0x145 => some (.ldk c f)
    | 0x146 => some (.stk c f)
    | 0x147 => some (.bnarrow c f)
    | 0x148 => some (.badv c f)
    | 0x149 => some (.bget c f)
    | 0x14A => some (.wmap c f)
    | 0x14B => some (.wunmap c f)
    | 0x14C => some (.wflush c f)
    | 0x181 => some (.bar c f)
    | 0x182 => some (.gbar c f)
    | 0x185 => some (.wprd c f)
    | 0x186 => some (.wpwait c f)
    | 0x1C5 => some (.dqpush c f)
    | 0x1C6 => some (.dqpop c f)
    | 0x1C7 => some (.dqsteal c f)
    | 0x1C8 => some (.dqinit c f)
    | _ => none
  | .x f =>
    match op with
    | 0x200 => some (.mma c f)
    | 0x201 => some (.zclr c f)
    | 0x202 => some (.zmov c f)
    | 0x203 => some (.zst c f)
    | 0x204 => some (.zld c f)
    | 0x205 => some (.att c f)
    | 0x206 => some (.attfin c f)
    | 0x252 => some (.mmom c f)
    | _ => none
  | .k f =>
    match op with
    | 0x240 => some (.mset c f)
    | 0x241 => some (.mld c f)
    | 0x242 => some (.mst c f)
    | 0x243 => some (.mmov c f)
    | 0x244 => some (.madd c f)
    | 0x245 => some (.msub c f)
    | 0x246 => some (.mmul c f)
    | 0x247 => some (.mscl c f)
    | 0x248 => some (.mfma c f)
    | 0x249 => some (.mrelu c f)
    | 0x24A => some (.msigm c f)
    | 0x24B => some (.mexp c f)
    | 0x24C => some (.mmax c f)
    | 0x24D => some (.mmin c f)
    | 0x24E => some (.mplt c f)
    | 0x24F => some (.mcol c f)
    | 0x250 => some (.mred c f)
    | 0x251 => some (.mshfl c f)
    | _ => none
  | .h f =>
    match op with
    | 0x280 => some (.hnew c f)
    | 0x281 => some (.hld c f)
    | 0x282 => some (.hst c f)
    | 0x283 => some (.hatom c f)
    | 0x284 => some (.hldr c f)
    | 0x285 => some (.hstr c f)
    | 0x286 => some (.hmov c f)
    | 0x287 => some (.hcmp c f)
    | 0x288 => some (.hhdr c f)
    | 0x289 => some (.hpin c f)
    | 0x28A => some (.hunpin c f)
    | 0x28B => some (if modBit f.mod 0 then .hflipConf c f else .hflipMark c f)
    | 0x28C => some (.hcas c f)
    | _ => none
  | .s f =>
    match op with
    | 0x00D => some (.brk c f)
    | 0x00E => some (.trap c f)
    | 0x102 => some (.rdsr c f)
    | 0x103 => some (.wrsr c f)
    | 0x180 => some (.fence c f)
    | 0x183 => some (.cinit c f)
    | 0x184 => some (.waitf c f)
    | 0x187 => some (.drain c f)
    | 0x1C0 => some (if modBit f.mod 3 then .acqTry c f else .acq c f)
    | 0x1C1 => some (.rel c f)
    | 0x1C2 => some (.claimrd c f)
    | 0x1C3 => some (.push c f)
    | 0x1C4 => some (.cpst c f)
    | 0x1C9 => some (.bndmin c f)
    | 0x1CA => some (.bndrd c f)
    | 0x2C0 => some (.rte c f)
    | 0x2C1 => some (.prd c f)
    | 0x2C2 => some (.pwr c f)
    | 0x2C3 => some (.invmark c f)
    | 0x2C4 => some (.invconf c f)
    | 0x2C5 => some (.errrd c f)
    | _ => none

/-- A word read field by field: the instruction, whether bit [78] is an illegal select (sub-code 0x06), and whether a
reserved bit is set. -/
structure RawInstr where
  i : Instr
  iBad : Bool
  rsv : Bool

/-- The fields of a word as its opcode reads them: in `CVT` field `C` is no operand, and bits [47:42] hold the source `TYPE`
code whatever bits [50:48] hold (R213). -/
def fieldsOf (op : Nat) : List Nat → List Nat
  | [r, pd, mod, ty, c, b, a, d] =>
    [r, pd, mod, ty, if op = 0x0C0 && 0x100 ≤ c then 0x100 + c % 64 else c, b, a, d]
  | l => l

/-- Read a word field by field; none where the map does not assign the opcode (R183). -/
def decodeRaw (w : IWord) : Option RawInstr :=
  let n := w.toNat
  match Bits.unpack commonWidths (n / 2 ^ 78) with
  | [i, u, fs, grd, op] =>
    match opInfo op (i == 1) with
    | none => none
    | some k =>
      match Body.ofFields k.fmt (fieldsOf op (Bits.unpack k.fmt.widths n)) with
      | none => none
      | some (b, rsv) =>
        (Instr.ofView op { grd := .ofCode grd, fs := .ofCode fs, u := u == 1 } b).map fun ins =>
          { i := ins, iBad := k.iBad, rsv := rsv != 0 || k.iReserved }
  | _ => none

/-- What decoding a word gives: an instruction, or the name of the check that rejects it.  `reserved` keeps the
instruction as read, because the ILLEGAL-OPCODE conditions that depend on the state come first (R179). -/
inductive Decoded where
  | ok (i : Instr)
  | illegal (sub : Nat)
  | reserved (i : Instr)
  deriving DecidableEq, Repr

/-- Decode a word (R179 priorities 4 and 5).  A wrong layout select comes before the checks of the fields it lays
out. -/
def decode (w : IWord) : Decoded :=
  match decodeRaw w with
  | none => .illegal 0x01
  | some r =>
    if r.iBad then .illegal 0x06
    else
      match r.i.illegal with
      | some sub => .illegal sub
      | none => if r.rsv || r.i.reserved then .reserved r.i else .ok r.i

/-- The instruction the decoder reads from a table word (the host's numbering: bit 0 is the lowest bit of the first
byte, and the bits above `nbits` are 0). -/
def decodeTableWord (nbits w : Nat) : Option Instr :=
  match decode (BitVec.ofNat 96 (w % 2 ^ nbits)) with
  | .ok i => some i
  | _ => none

end Sys2Proof
end

