-- ==== Sys2Proof/Config.lean ====
section
/-! DEFINITION. What one implementation fixes, and the values the spec leaves open.  An opaque constant has no body here:
nothing can be proved of its value, so a claim holds whatever the hardware does. -/

namespace Sys2Proof.Config

/-- A value the spec leaves unspecified, by the number of such values taken before it (log entry 3). -/
opaque freeWord : Nat → Word

/-- How many clock cycles pass on a core in a step, by core and the number of steps made before (R186; log entry 4). -/
opaque stepCycles : Nat → Nat → Nat

/-- Clock cycles of the always-on domain after the given number of steps (R375; log entry 66). -/
opaque cycleCount : Nat → DWord

/-- A measurement register extended by a digest (R350, R351): the spec does not state the operation (log entry 5). -/
opaque measureExtend : BitVec 512 → BitVec 512 → BitVec 512

/-- SHAKE256 with 512 bits of output (R350): a published standard, kept abstract (log entry 5). -/
opaque shake256 : Nat → BitVec 512

/-- Falcon-1024 verification of an image and its signature against the fused key (R350; log entry 5). -/
opaque falconVerify : Nat → Nat → Bool

/-- AES key unwrap of a 72-byte blob under a transport key (RFC 3394, R365; log entry 5): none when it fails. -/
opaque keyUnwrap : BitVec 256 → BitVec 576 → Option (BitVec 512)

/-- ML-KEM-1024 decapsulation with the key of the n-th key pair (R365, R366; log entry 5): none when it fails. -/
opaque mlkemDecap : Nat → Nat → Option (BitVec 256)

/-- The ML-KEM-1024 encapsulation key of the n-th key pair, 1,568 bytes (R366; log entry 5). -/
opaque mlkemPublic : Nat → Nat

/-- The Falcon-1024 signature, 1,280 bytes, of the 2,048 bytes of a report (R366; log entry 5). -/
opaque falconSign : Nat → Nat

/-- The device serial number from fuses, 16 bytes (R366). -/
opaque serial : Nat

/-- Whether a Plinth configuration can be read as valid is R351; the record's SHAKE256 input is its two bytes. -/
def plinthRecordImage (scru spillm : Nat) : Nat := scru + 256 * spillm

/-- The memory channel, 0 to 127, of a physical address of the HBM; none of any other memory (R364): the spec gives no map
(log entry 80). -/
opaque memChannel : Nat → Option Nat

/-- The bytes of a context's image in its save area, by the step that writes it and the place (R338; log entry 63). -/
opaque imageByte : Nat → Nat → Byte

/-- What stands in place of a variance that rounds below 0 in a product's POS or NEG mode, by the FP32 code of that variance
(R96, R106; log entry 82). -/
opaque freeVar : Nat → Word

/-- What a byte that cannot be read as plaintext any more reads as (R364, R367): a free value for each occasion and address
(log entry 73). -/
opaque garbled : Nat → Nat → Byte

/-- Outstanding memory requests of a core (R5). -/
def coreRequests : Nat := 8192

/-- Logical clusters of the device (R2): 46 of the 48 physical ones. -/
def clusters : Nat := 46

/-- Cores of a cluster (R2). -/
def coresPerCluster : Nat := 8

/-- Copy channels of a cluster (R2). -/
def chansPerCluster : Nat := 16

/-- Granules of a core's register file (R8). -/
def granules : Nat := 512

/-- Accumulator tiles of a core (R8). -/
def tilesPerCore : Nat := 8

/-- Bytes of a core's shared memory (R8). -/
def sharedBytes : Nat := 393216

/-- Bytes of a chiplet's Plinth (R4). -/
def plinthBytes : Nat := 1610612736

/-- Bytes of a scratch unit (R44). -/
def unitBytes : Nat := 1048576

/-- Rows of an arbiter and entries of its deferred list (R46, R49). -/
def deferredMax : Nat := 128

/-- Columns of an arbiter row (R46): SCR, CHN, REG of 8 cores, ZT of 8 cores. -/
def columns : Nat := 18

end Sys2Proof.Config
end

