-- ==== Sys2Proof/Machine/State.lean ====
section
/-! DEFINITION. The state of the device as plain data: every register, memory, queue and table the spec names, the
reasons a step can stop, and the machine right after reset. -/

namespace Sys2Proof.Machine

/-- Why a step stops with a fault of the MODEL (the device's own faults of R184 are next states).  -/
inductive Fault where
  /-- Raised by the meaning of an instruction when the issuing warp has no live thread: no warp issues then (R24), so the
  device has no such step.  Safe. -/
  | noEntry
  deriving DecidableEq, Repr

/-- Why a step is refused. -/
inductive Refusal where
  /-- Raised by an arm of `exec` whose instruction has no meaning yet.  Safe. -/
  | notModelled (mnemonic : String)
  deriving DecidableEq, Repr

/-- The fault record (R343), by its fields. -/
structure FaultRec where
  code : BitVec 8 := 0
  sub : BitVec 8 := 0
  lane : BitVec 5 := 0
  async : Bool := false
  par : BitVec 2 := 0
  rpc : Word := 0
  fpc : Word := 0
  info : Word := 0
  addr : BitVec 48 := 0
  otag : Word := 0
  seq : Word := 0
  deriving DecidableEq, Repr

/-- Why a thread is blocked (R23). -/
inductive Cause where
  | acq
  | wsync (mask : Word)
  | heapEntry (ctx entry : Nat)
  /-- a heap access of the warp waits for the page of a virtual address; whether it needs `W` -/
  | page (ctx va : Nat) (wr : Bool)
  /-- an access of the warp waits for the page of a window's chunk (R67) -/
  | fillPage (ctx va : Nat)
  | fetchPage (ctx va : Nat)
  | transferPage (ctx va : Nat)
  | handler
  deriving DecidableEq, Repr

/-- The context and the virtual address whose page a blocked thread waits for. -/
def Cause.waitsFor : Cause → Option (Nat × Nat)
  | .page c va _ | .fillPage c va | .fetchPage c va | .transferPage c va => some (c, va)
  | _ => none

/-- The page must permit writes. -/
def Cause.needsW : Cause → Bool
  | .page _ _ wr => wr
  | _ => false

/-- A thread is in exactly one of three states (R23); `never` is a lane that was not live at block start (R32). -/
inductive ThreadSt where
  | never
  | live
  | blocked (c : Cause)
  | exited
  deriving DecidableEq, Repr

/-- One thread: its state (R23), code pointer (R22), region-start code pointer (R334), whether it is in handler mode
(R342), whether its code pointer is an entry point whose `TGT` bit its first fetch has still to check (R165), and how often the
access it waits for a page with has faulted again (R332). -/
structure Thread where
  st : ThreadSt := .never
  cp : Word := 0
  rcp : Word := 0
  hmode : Bool := false
  check : Bool := false
  rcnt : Nat := 0
  deriving DecidableEq, Repr

/-- What the warp keeps of one frontier entry (R24, R28, R164, R168): its age, whether it is aged, whether it has
entered the line its code pointer stands in, the line as fetched, and whether the line's `WAIT` check is done. -/
structure Entry where
  age : Nat := 0
  aged : Bool := false
  entered : Bool := false
  waited : Bool := false
  line : Line := 0
  /-- its threads fell past line 2^17 − 1 (R165) -/
  past : Bool := false
  /-- its code pointer is an entry point or a handler's entry, whose `TGT` bit the fetch checks (R165) -/
  check : Bool := false
  deriving DecidableEq, Repr

/-- A bounded address register (R59). -/
structure Bounded where
  g : Bool := false
  a : Bool := false
  w : Bool := false
  r : Bool := false
  space : BitVec 2 := 0
  limit : Word := 0
  base : Word := 0
  ptr : Word := 0
  deriving DecidableEq, Repr

/-- The A operand deposited by signing lanes: 16 words for each lane (R129) and the lane's scale bytes (R131). -/
structure ARows where
  rows : Tab Word := []
  scales : Tab Word := []
  deriving DecidableEq, Repr

/-- A convergence register (R133, R134): expected count, signed lanes, and what the first signature latched. -/
structure Conv where
  init : Bool := false
  expect : Nat := 0
  mask : BitVec 32 := 0
  moment : Bool := false
  zd : BitVec 3 := 0
  fslot : BitVec 3 := 0
  sa : Nat := 0
  mod : BitVec 8 := 0
  addr : Int := 0
  bk : Bounded := {}
  scaleA : Word := 0
  scaleB : Word := 0
  rows : ARows := {}
  flags : List Nat := []
  pc : Word := 0
  deriving DecidableEq, Repr

/-- The reuse latch of a warp (R136). -/
structure Latch where
  width : Nat
  rows : ARows
  scaleA : Word
  deriving DecidableEq, Repr

/-- A fault of an asynchronous operation, pending on the flags that name it (R135). -/
structure PendingFault where
  flags : List Nat
  /-- the number of the operation, in order of acceptance -/
  acc : Nat
  fr : FaultRec
  deriving DecidableEq, Repr

/-- One access on record for race detection (R82): the party, its epoch (the model's count of the party's regions and
asynchronous operations, R88), its region sequence number, the kind of access and the warp's tag; `own` is the party with
whose accesses it never races beside its own (R68). -/
structure Acc where
  party : Nat
  own : Nat
  ep : Nat
  rsn : Word
  write : Bool
  atomic : Bool
  tag : Word
  deriving DecidableEq, Repr

/-- A release that an acquiring read of a word can pair with (R80): the releasing warp and where it stands, the scope, and
the epochs of each party that happen before it. -/
structure RelMsg where
  warp : Nat
  block : Nat
  gang : Nat
  chip : Nat
  scope : Nat
  vc : Tab Nat
  deriving DecidableEq, Repr

/-- A page that an instruction stalled at issue has asked for (R331): the context, the page, whether it needs `W`, the code pointer it
stands at, and how often the page has been found absent at a reply (R332). -/
structure Ask where
  ctx : Nat
  page : Nat
  wr : Bool
  cp : Word
  rcnt : Nat := 0
  deriving DecidableEq, Repr

/-- An `HNEW` whose objects are placed and not yet written whole (R326, R327): its code pointer, the lanes of its entry, the
reference to each lane's object, and how many of the 64-byte sectors of their headers and payloads have been written or set
aside. -/
structure NewObjects where
  cp : Word
  ent : List Nat
  refs : List (Nat × DWord)
  done : Nat
  deriving DecidableEq, Repr

/-- One warp (R32, R338): registers of every class, threads, frontier entries, flags, counters and fault record. -/
structure Warp where
  /-- the block it belongs to, its index in the block (`%warp`) and its quadrant (R30, R318) -/
  block : Nat := 0
  idx : Nat := 0
  quadrant : Nat := 0
  /-- the warp's tag, unique in its context (R142) -/
  tag : Word := 0
  threads : Tab Thread := []
  entries : Tab Entry := []
  /-- `v`: register r of lane L at 32r + L (R181) -/
  v : Tab Word := []
  /-- `m`: register r of lane L at 32r + L (R96) -/
  m : Tab DWord := []
  /-- `h`: register r of lane L at 32r + L (R181) -/
  h : Tab DWord := []
  /-- `p0` to `p6`: bit L of entry r is lane L (R173) -/
  p : Tab Word := []
  /-- `s0` to `s63` (R181) -/
  s : Tab Word := []
  /-- `b0` to `b15` (R59) -/
  b : Tab Bounded := []
  /-- `c0` to `c15` (R133) -/
  c : Tab Conv := []
  latch : Option Latch := none
  /-- pending counters of `f0` to `f11` (R169) -/
  flags : Tab Nat := []
  /-- faults pending on flags, in order of acceptance (R135) -/
  faults : List PendingFault := []
  /-- `%mctl`, `%mstat` (R107) -/
  mctl : Word := 0
  mstat : Word := 0
  /-- `%wissue`, `%wdrain` (R90) -/
  wissue : DWord := 0
  wdrain : DWord := 0
  /-- region sequence number (R78) -/
  rsn : Word := 0
  /-- `%frec0` to `%frec3` (R343) -/
  frec : FaultRec := {}
  /-- window granules mapped by `ACQ.REG` (R51) -/
  granules : Nat := 0
  /-- base of the warp's spill carve in the chiplet's spill area (R64) -/
  spillBase : Nat := 0
  /-- the warp yields: the others of its quadrant issue first (R167) -/
  yielding : Bool := false
  /-- the warp has presented an `ACQ` and waits for the arbiter's outcome (R302) -/
  acqWait : Bool := false
  /-- the code pointers of its `ACQ`s that were not accepted for want of a deferred entry and wait for one to be freed
  (R49) -/
  acqRefused : List Word := []
  /-- the `WPWAIT` it waits at: code pointer, channel of the device, and whether the channel was released since (R238) -/
  wpWait : Option (Word × Nat × Bool) := none
  /-- generation in which the warp has arrived at `BAR` and at `GBAR` (R234) -/
  bar : Option Nat := none
  gbar : Option Nat := none
  /-- the code pointer of the `DRAIN` in progress, and `%wissue` when it issued (R236) -/
  drainTo : Option (Word × DWord) := none
  /-- the entry at which the warp waits and issues no other (R234, R302) -/
  hold : Option Word := none
  /-- the warp's epoch: it advances at each region boundary and each accepted asynchronous operation (R78, R88) -/
  ep : Nat := 0
  /-- epochs of each party that happen before the warp's next access (R79) -/
  vc : Tab Nat := []
  /-- what completed asynchronous operations give to the next wait on each flag (R88) -/
  flagVc : Tab (Tab Nat) := []
  /-- what its atomic reads would acquire at a later fence (R80, R87) -/
  readVc : List RelMsg := []
  /-- what its last releasing fences ordered, with their scope (R80, R87) -/
  fenceVc : List (Nat × Tab Nat) := []
  /-- poisoned words of `v`, `m`, `h` registers: (class, 32r + L) (R375, R376) -/
  poison : List (Nat × Nat) := []
  /-- a fault that the warp takes at its next release, `DRAIN` or deque handover (R331) -/
  drainFaults : List FaultRec := []
  /-- heap instructions that wait for a forwarding entry: the instruction, its code pointer, its lanes and the `s` registers
  as it read them at issue (R23, R171) -/
  heapWaits : List (Instr × Word × BitVec 32 × Tab Word) := []
  /-- the pages that an instruction stalled at issue has asked for (R331; log entry 27) -/
  asks : List Ask := []
  /-- an `HNEW` that has allocated and has still to write (R326) -/
  newAt : Option NewObjects := none
  /-- a fault that it takes at the `WUNMAP` it waits at (R331) -/
  unmapFault : Option FaultRec := none
  retired : Bool := false
  deriving DecidableEq, Repr

/-- A window (R66 to R70): its block, Plinth range (key of `plinth`), virtual base, filled chunks and dirty bytes. -/
structure Window where
  block : Nat := 0
  ctx : Nat := 0
  chip : Nat := 0
  base : Nat := 0
  limit : Nat := 0
  va : Nat := 0
  filled : List Nat := []
  /-- chunks whose fill has met a page fault that is not answered yet (R326) -/
  faulted : List Nat := []
  dirty : List Nat := []
  deriving DecidableEq, Repr

/-- A request sent to a peer (R355): the unit it belongs to, the Wale link, the initiator's context and virtual address, how
many bytes it asks for, and the bytes of a write. -/
structure PeerReq where
  unit : Nat
  write : Bool
  link : Nat
  ctx : Nat
  va : Nat
  len : Nat
  bytes : List Byte := []
  /-- the range that the leaf maps under which it was sent: address and length (R324) -/
  leaf : Nat × Nat := (0, 0)
  /-- its translation was marked draining after it was sent (R279, R324) -/
  marked : Bool := false
  /-- its time is over (R358) -/
  expired : Bool := false
  deriving DecidableEq, Repr

/-- Bytes of a unit of a copy command that are still to be written, of one 64-byte sector: the unit, and the bytes by their offset
from a virtual address (R327). -/
structure CopyRest where
  unit : Nat
  va : Nat
  bytes : List (Nat × Byte)
  deriving DecidableEq, Repr

/-- A command accepted on a copy channel (R73, R243). -/
structure Cmd where
  words : List Word := []
  /-- bounded registers recorded at acceptance (R73) -/
  regs : Tab Bounded := []
  warp : Nat := 0
  flag : Nat := 0
  pc : Word := 0
  /-- the party under which its accesses are checked (R89) and its clock at acceptance (R88) -/
  party : Nat := 0
  rsn : Word := 0
  vc : Tab Nat := []
  /-- the engine has begun it: its fields are checked (R243) -/
  started : Bool := false
  /-- the layout record of a STRIDED command, as read (R250) -/
  layout : Nat := 0
  /-- units delivered in order: beats of the destination, or elements (R74) -/
  done : Nat := 0
  /-- units delivered beyond `done`, because one before is parked (R75, R246) -/
  ahead : List Nat := []
  /-- where each element of a scatter has been written, by (element, address) (R246) -/
  spots : List (Nat × Nat) := []
  /-- the first failure: code and element or byte offset (R251) -/
  fail : Option (BitVec 8 × Nat) := none
  /-- the units that have failed: none of them is delivered (R75) -/
  bad : List Nat := []
  /-- what a fault record says of it: address, and the tag and region of a race's first party (R343) -/
  why : BitVec 48 × Word × Word := (0, 0, 0)
  /-- peer requests outstanding (R355), and the bytes that peers have answered with, by (unit, virtual address) -/
  peers : List PeerReq := []
  got : List (Nat × Nat × Byte) := []
  /-- the part of a unit's write for which its side log, or the requests of its core, had no room (R5, R327) -/
  rest : List CopyRest := []
  /-- elements of a GATHER-REF whose reference has passed the barrier and that are not delivered, with the address that each
  reads (R120, R247) -/
  passed : List (Nat × Nat) := []
  /-- how often the page that its beginning waits for has been found absent at a reply (R332) -/
  rcnt : Nat := 0
  /-- write pointer when the command began (R74) -/
  wptr0 : Nat := 0
  deriving DecidableEq, Repr

/-- One copy channel (R71, R74, R251). -/
structure Chan where
  owner : Option Nat := none
  queue : List Cmd := []
  wptr : DWord := 0
  code : BitVec 8 := 0
  canc : Bool := false
  elem : Word := 0
  fseq : Word := 0
  seq : Word := 0
  /-- epochs of its commands whose bytes lie below the write pointer (R88, R89) -/
  vcDone : Tab Nat := []
  deriving DecidableEq, Repr

/-- What a block holds outside its records, in a saved image (R338): shared memory, tiles by name, scratch units by number
and spill stacks by warp, each by offset, with the places of poisoned words and units; its channels in the order of R17. -/
structure BlockImg where
  shared : List (Nat × Byte) := []
  tiles : List (Nat × List (Nat × Word)) := []
  units : List (Nat × List (Nat × Byte)) := []
  spill : List (Nat × List (Nat × Byte)) := []
  badShared : List Nat := []
  badTiles : List (Nat × Nat) := []
  badUnits : List (Nat × Nat) := []
  badSpill : List (Nat × Nat) := []
  chans : List Chan := []
  deriving DecidableEq, Repr

/-- Where a block stands (R37, R338). -/
inductive BlockSt where
  | admitted | resident | held | finished | saved
  deriving DecidableEq, Repr

/-- One block (R32, R37, R338). -/
structure Block where
  grid : Nat := 0
  gang : Nat := 0
  rank : Nat := 0
  index : Nat := 0
  /-- core of the device: 8·cluster + core (R34) -/
  core : Nat := 0
  st : BlockSt := .admitted
  warps : List Nat := []
  shBase : Nat := 0
  /-- tile name, physical tile, static (R51, R137) -/
  tiles : List (Nat × Nat × Bool) := []
  /-- scratch unit of the cluster, static (R45, R54) -/
  units : List (Nat × Bool) := []
  /-- held channels in the order of R17, by channel of the device: 16·cluster + c -/
  chans : List Nat := []
  /-- granules held beyond the static allocation (R51) -/
  dynReg : Nat := 0
  barGen : Nat := 0
  paramBase : Nat := 0
  /-- the image of a saved block (R338) -/
  img : Option BlockImg := none
  /-- its grid has been stopped, and it ends once its windows are written back (R69, R184) -/
  stopped : Bool := false
  deriving DecidableEq, Repr

/-- Where a gang stands. -/
inductive GangSt where
  | resident | done | saved
  deriving DecidableEq, Repr

/-- One gang, the arbiter's claimant (R46), with its bound registers (R146). -/
structure Gang where
  grid : Nat := 0
  cluster : Nat := 0
  blocks : List Nat := []
  st : GangSt := .resident
  alloc : List Nat := []
  claim : List Nat := []
  bnd : List DWord := List.replicate 4 0x7FF0000000000000
  gbarGen : Nat := 0
  deriving DecidableEq, Repr

/-- Where a grid stands (R313, R317). -/
inductive GridSt where
  | queued | running | retired
  deriving DecidableEq, Repr

/-- One grid (R33): its launch record as validated (R311), and where it came from (R316). -/
structure Grid where
  ctx : Nat := 0
  recVa : Nat := 0
  lr : BitVec 2048 := 0
  pptr : Nat := 0
  depth : Nat := 0
  priv : Bool := false
  slice : Nat := 0
  vf : Nat := 0
  st : GridSt := .queued
  /-- the code of a fault that stopped the grid (R313) -/
  code : BitVec 8 := 0
  /-- the block that launched it, and the code pointer of the `PUSH` (R36) -/
  parent : Option Nat := none
  pc : Word := 0
  /-- the function and entry number of a host launch (R315) -/
  host : Option (Nat × Nat) := none
  nextBlock : Nat := 0
  /-- STATE 01 has been written (R313) -/
  admitted : Bool := false
  /-- the parameter image as read at the first admission (R318) -/
  image : Option (List Byte) := none
  /-- how often the page that its parameter image waits for has been found absent at a reply (R332) -/
  rcnt : Nat := 0
  /-- what the acceptance of the launch gives to its blocks (R80) -/
  vc : Tab Nat := []
  deriving DecidableEq, Repr

/-- An operation in an arbiter's input queue (R47). -/
inductive ArbOp where
  /-- a request: warp, its entry's code pointer and lanes, the participating lanes, class, amount, destination field, and
  the predicate of `ACQ.TRY` -/
  | request (warp : Nat) (cp : Word) (lanes part : BitVec 32) (cls n : Nat) (dst : Opd) (tryPd : Option (BitVec 3))
  /-- a release: the gang, the amount in each of the 18 columns, and whether the gang's row is freed (R303) -/
  | release (gang : Nat) (cols : List Nat) (final : Bool)
  /-- a scrub has given units back to the cluster's pool (R50, R367) -/
  | restock
  deriving DecidableEq, Repr

/-- Power gating of a cluster (R319). -/
inductive GateSt where
  | open | requested | gated
  deriving DecidableEq, Repr

/-- A note waiting in a cluster's note queue (R242, R254). -/
structure Note where
  words : List Word
  warp : Nat
  flag : Nat
  fn : Nat
  deriving DecidableEq, Repr

/-- One cluster: arbiter (R46 to R50), dispatcher (R318), map unit (R67), notes (R242), gating (R319), pass count (R371),
retirement (R364). -/
structure Cluster where
  queue : List ArbOp := []
  deferred : List ArbOp := []
  dispatchQ : List Nat := []
  /-- chunks to fill: (warp, window, chunk) (R67) -/
  fills : List (Nat × Nat × Nat) := []
  notes : List Note := []
  /-- the places of its scratch units in its chiplet's scratch share, as laid out for its slice's descriptor (R361): none
  before, when each cluster has its own part of the share -/
  pool : Option (List Nat) := none
  gate : GateSt := .open
  /-- a block was handed to the cluster since the gating request (R319) -/
  handed : Bool := false
  passcnt : Nat := 1
  retired : Bool := false
  deriving DecidableEq, Repr

/-- One core: the heap allocation pages by (context, region): page and next free offset (R113), and the contexts that
have run a block since the last scrub (R367). -/
structure Core where
  alloc : List (Nat × Nat × Nat × Nat) := []
  ranCtx : List Nat := []
  deriving DecidableEq, Repr

/-- Why a translating unit has set something aside (R326, R331). -/
inductive Origin where
  /-- a store or reduction of a warp into an unfilled chunk -/
  | store
  /-- a heap store, or an `HNEW` write -/
  | heap
  /-- a copy channel's destination write, with its element -/
  | copyWrite (chan elem : Nat)
  /-- a window write-back of `WFLUSH`, with its operation -/
  | flush (op : Nat)
  /-- a window write-back of `WUNMAP`, of a block exit or of `REL.SCR`, and of a grid that is stopped -/
  | unmap
  | exitWriteBack
  | stopWriteBack (block : Nat)
  /-- the status of a launch record (R313) -/
  | status
  /-- a healing write-back of `HLDR`: it is performed if the field still holds the loaded value -/
  | heal (old : Nat)
  deriving DecidableEq, Repr

/-- What a translating unit has set aside (R326). -/
inductive ParkedKind where
  /-- bytes to write at a virtual address, by (offset, byte) -/
  | write (va : Nat) (bytes : List (Nat × Byte)) (org : Origin)
  /-- bytes to write to a window's Plinth range once its chunk is filled -/
  | local (window chunk key : Nat) (bytes : List (Nat × Byte))
  /-- an atomic update of one word of an unfilled chunk: operation, type and operand, the value that a compare-and-swap
  expects, and the register that receives the old value, with its lane -/
  | localAtomic (window chunk key opc : Nat) (ty : Ty) (operand : DWord) (cmp : Option DWord) (dst : Opd) (lane : Nat)
  /-- a copy element whose read faulted, and the address it read -/
  | copyRead (chan elem va : Nat)
  deriving DecidableEq, Repr

/-- The unit that translates an access, and holds it when it is parked (R320, R327). -/
inductive XUnit where
  | heapPort (core : Nat)
  | mapUnit (cluster : Nat)
  | chan (n : Nat)
  | jointer
  | sander
  /-- the unit that serves the accesses of peers (R355) -/
  | link
  deriving DecidableEq, Repr

/-- One parked access, with the warp, code pointer and write number it belongs to (R95, R327). -/
structure Parked where
  ctx : Nat
  page : Nat
  unit : XUnit
  kind : ParkedKind
  warp : Nat := 0
  pc : Word := 0
  wno : Nat := 0
  /-- how often its walk has faulted again at a replay (R332) -/
  rcnt : Nat := 0
  deriving DecidableEq, Repr

/-- One page request (R329 to R332): `wr` says that an engine that asks again needs `W`, and `rcnt` is the highest count of what
waited under the tag at the last walk. -/
structure PageReq where
  ctx : Nat
  page : Nat
  fn : Nat
  tag : Option Nat := none
  wr : Bool := false
  rcnt : Nat := 0
  /-- it waits for the 1,024-cycle re-walk (R332) -/
  rewalk : Bool := false
  /-- a REPLAY-STALLED entry is to be written (R332) -/
  stalled : Bool := false
  /-- a reply came while the context was saved (R327) -/
  replied : Option Bool := none
  deriving DecidableEq, Repr

/-- A cached translation (R320, R324): `size` in bytes, `w` whether writes are permitted.  It stands in the first-level cache
of a unit, or in the last-level TLB of the chiplet. -/
structure TlbEntry where
  unit : Option XUnit := none
  chip : Nat
  ctx : Nat
  va : Nat
  size : Nat
  pa : Nat
  w : Bool
  draining : Bool := false
  deriving DecidableEq, Repr

/-- An asynchronous operation accepted and not complete (R88, R134, R137, R139, R68). -/
inductive AsyncKind where
  | mma (moment : Bool) (zd : Nat) (fs : Word) (mod : BitVec 8) (rows : ARows) (scaleA scaleB : Word)
      (bk : Bounded) (addr : Int)
  | zld (zd : Nat) (fs : Word) (scale : Word) (bk : Bounded) (addr : Int)
  | zst (zd : Nat) (fs : Word) (scale : Word) (bk : Bounded) (addr : Int)
  | att (zo zs : Nat) (bk : Bounded) (addr : Int) (scale n cb koff voff : Word)
  | attfin (zo : Nat)
  /-- a window flush: the dirty offsets it has still to write back, by window -/
  | wflush (rest : List (Nat × List Nat))
  deriving DecidableEq, Repr

/-- An accepted asynchronous operation: the issuing warp, its flags, the originating code pointer, its clock. -/
structure AsyncOp where
  warp : Nat
  kind : AsyncKind
  flags : List Nat
  pc : Word
  nvm : Bool := false
  rsn : Word := 0
  vc : Tab Nat := []
  /-- of a flush: the lanes that issued it, with their region starts (R232) -/
  starts : Tab Word := []
  /-- the context and the page that its window fill waits for (R326, R332) -/
  waits : Option (Nat × Nat) := none
  /-- how often that fill has faulted again (R332) -/
  rcnt : Nat := 0
  deriving DecidableEq, Repr

/-- A deque operation that waits for a stamp, or behind one that does (R144): the deque's Plinth key, the waiting warp, its
instruction and code pointer. -/
structure DqWait where
  key : Nat
  warp : Nat
  instr : Instr
  cp : Word
  deriving DecidableEq, Repr

/-- A relocation cycle (R117 to R121): the armed pages in list order with the entry count of each table, whether `CONF`
has been accepted, the destination page being filled with its next free offset, and whether copying has stopped for want
of a page. -/
structure Cycle where
  ctx : Nat
  region : Nat
  pages : List (Nat × Nat)
  conf : Bool := false
  claims : List Nat := []
  dest : Option (Nat × Nat) := none
  stopped : Bool := false
  deriving DecidableEq, Repr

/-- A command in the queue of the Jointer or of the Sander (R125, R242, R255). -/
structure EngineCmd where
  words : List Word
  warp : Nat
  flag : Nat
  ctx : Nat
  pc : Word
  /-- how often the page that it waits for has been found absent at a reply (R332) -/
  rcnt : Nat := 0
  deriving DecidableEq, Repr

/-- A launch accepted for validation (R312, R317): from a function's ring or from a warp. -/
structure LaunchReq where
  ctx : Nat
  recVa : Nat
  param : Nat
  depth : Nat
  priv : Bool
  host : Option (Nat × Nat) := none
  child : Option (Nat × Nat) := none
  /-- the code pointer of the `PUSH` -/
  pc : Word := 0
  /-- a reserved field of the request is not 0 (R253) -/
  bad : Bool := false
  vc : Tab Nat := []
  /-- how often the page that its validation waits for has been found absent at a reply (R332) -/
  rcnt : Nat := 0
  deriving DecidableEq, Repr

/-- The per-function registers of the 0x0100 block (R314, R329, R354, R379), and completions to be written (R315). -/
structure Fn where
  lrbase : DWord := 0
  lrlog : Nat := 0
  lrtail : Word := 0
  lrhead : Word := 0
  crbase : DWord := 0
  crtail : Word := 0
  crhead : Word := 0
  prbase : DWord := 0
  prlog : Nat := 0
  prtail : Word := 0
  prhead : Word := 0
  nrbase : DWord := 0
  nrlog : Nat := 0
  nrtail : Word := 0
  nrhead : Word := 0
  /-- (RECORD, CODE, STATE, entry number, context + 1 of the record, 0 for a refused entry) (R315, R380) -/
  completions : List (Nat × BitVec 8 × Nat × Nat × Nat) := []
  /-- the context bound to the launch ring, plus 1 (R316) -/
  ctx : Nat := 0
  /-- interrupts signalled on MSI-X vectors 0 to 3 (R353) -/
  msix : List Nat := []
  deriving DecidableEq, Repr

/-- The device's own state of one context beside its record in memory (R277, R278, R365). -/
structure Ctx where
  elogrd : Word := 0
  elogwr : Word := 0
  elogovf : Word := 0
  /-- key slot on each chiplet, plus 1, and whether it is loaded (R365, R366) -/
  slots : Tab Nat := []
  transport : Option (BitVec 256) := none
  decap : Option Nat := none
  /-- it was being saved, being restored, or is saved (R337, R339) -/
  saving : Bool := false
  /-- it is being restored (R339) -/
  restoring : Bool := false
  deriving DecidableEq, Repr

/-- A key unit held in a slot (R365), keyed 64·chiplet + slot: the context and the 64-byte key pair. -/
structure KeySlot where
  ctx : Nat
  key : BitVec 512
  quarantined : Bool := false
  deriving DecidableEq, Repr

/-- A teardown in progress (R367 to R369): the context and its virtual function. -/
structure Scrub where
  ctx : Nat
  fn : Nat
  /-- physical cores, by 8·physical cluster + core -/
  cores : List Nat
  pages : List Nat
  /-- every Plinth range to be zeroed, by key and length: scratch units, spill carves and parameter blocks -/
  spans : List (Nat × Nat)
  /-- its contents can be read as plaintext no more (R367 step 2) -/
  dark : Bool := false
  progress : DWord := 0
  total : DWord := 0
  deriving DecidableEq, Repr

/-- The registers of the physical function and of BAR 2, and the controller's state (R325, R335, R349, R351, R356,
R360, R364 to R368, R372, R373, R377). -/
structure Dev where
  powered : Bool := false
  stage : Nat := 0
  fail : Bool := false
  fcode : BitVec 8 := 0
  fchip : BitVec 4 := 0
  funit : BitVec 4 := 0
  /-- measurement register 0 (R350) -/
  measure : BitVec 512 := 0
  firmwareOk : Bool := false
  tripped : Bool := false
  invva : DWord := 0
  invcnt : Word := 0
  invBusy : Bool := false
  invErr : Bool := false
  invCmd : Option (Bool × Nat) := none
  ctxBusy : Bool := false
  ctxErr : Bool := false
  ctxAbandoned : Bool := false
  ctxtab : DWord := 0
  wbind : DWord := 0
  wtmo : Word := 0xFA0
  wlink : BitVec 12 := 0
  cxlUp : BitVec 8 := 0
  scru : Nat := 64
  spillm : Nat := 4
  pcfgNext : Word := 0
  pcfgErr : Bool := false
  /-- the record in package flash (R351) -/
  flash : Option (Nat × Nat) := none
  slices : Tab (BitVec 256) := []
  /-- the mask by which each slice's clusters are numbered: its `CLMASK` when a descriptor last changed (R363) -/
  sliceNum : Tab Nat := []
  sliceErr : Bool := false
  ecode : BitVec 4 := 0
  retErr : Bool := false
  retBelow : Bool := false
  /-- retired memory channels (R364) -/
  retiredChans : List Nat := []
  ksaddr : DWord := 0
  ksErr : Bool := false
  atnonce : DWord := 0
  atout : DWord := 0
  atErr : Bool := false
  tdlist : DWord := 0
  tdcnt : Word := 0
  tdDone : Bool := false
  tdDoneCtx : Nat := 0
  tdErr : Bool := false
  dlbase : DWord := 0
  dlwr : Word := 0
  dlrd : Word := 0
  dlovf : Word := 0
  cooltab : Nat := 0
  limitW : Nat := 1200
  sag : List Nat := []
  /-- the physical clusters that fuses disable (R2; log entry 8) -/
  fuses : List Nat := [46, 47]
  /-- physical cluster of each logical cluster, as the remap table gives it (R2, R363) -/
  remap : Tab Nat := []
  /-- physical chiplet of each logical chiplet, and physical core within its cluster of each logical core, by
  8·cluster + core, where the table gives another number (R2; log entry 8) -/
  chipNums : Tab Nat := []
  coreNums : Tab Nat := []
  /-- telemetry counters: correctable errors and timing replays (R374, R375) -/
  corrected : Nat := 0
  replays : Nat := 0
  /-- structures whose first correctable error of a 1 ms interval is recorded, with the interval (R375) -/
  corrLogged : List (ErrSite × Nat) := []
  /-- what the device has returned to peers as a target, by Wale link (R357) -/
  peerOut : List (Nat × PeerAnswer) := []
  deriving DecidableEq, Repr

/-- What moves next, when the state says so: a warp's issue, an event, or the world outside writing memory or binding a
function's ring to a context (R316). -/
inductive Act where
  | issue (warp : Nat)
  | event (i : Instr)
  | hostWrite (addr : Nat) (bytes : List Byte)
  | bindRing (fn ctx : Nat)
  deriving DecidableEq, Repr

/-- The whole machine. -/
structure State where
  /-- physical memory: HBM, second tier and host memory (R4, R321), unlisted bytes read 0 -/
  mem : List Host.Cell := []
  /-- Plinth bytes, chiplet c's offset o at c·2^31 + o (R4, R58) -/
  plinth : List Host.Cell := []
  /-- block shared memory, core c's offset o at c·2^19 + o (R8, R58) -/
  shared : List Host.Cell := []
  /-- accumulator tiles: core c, tile t, row i, column j at ((8c + t)·64 + i)·192 + j (R8) -/
  tiles : Tab Word := []
  /-- poisoned physical 64-byte units, shared words, tile words, Plinth units (R127, R375) -/
  poisonMem : List Nat := []
  /-- context + 1 that last wrote each physical 64-byte unit through its table: under whose key it lies (R4; log entry 73) -/
  memCtx : Tab Nat := []
  poisonShared : List Nat := []
  poisonTile : List Nat := []
  poisonPlinth : List Nat := []
  /-- 16-byte granules of the Plinth whose race metadata is poisoned (R375) -/
  poisonMeta : List Nat := []
  warps : Tab Warp := []
  blocks : Tab Block := []
  gangs : Tab Gang := []
  grids : Tab Grid := []
  clusters : Tab Cluster := []
  cores : Tab Core := []
  /-- context + 1 that last held each place of a chiplet's scratch share, at c·2^12 + place (R55) -/
  unitCtx : Tab Nat := []
  chans : Tab Chan := []
  windows : Tab Window := []
  ops : Tab AsyncOp := []
  dqWaits : List DqWait := []
  /-- bound shadows: (8·gang + core)·4 + n (R146) -/
  shadows : Tab DWord := []
  /-- lowered bounds on their way to a core: (gang, core, n, value) (R148) -/
  bndMsgs : List (Nat × Nat × Nat × DWord) := []
  parked : List Parked := []
  pageReqs : List PageReq := []
  /-- peer requests whose answer would come too late, with the operation they belong to (R358) -/
  peerLate : List (Nat × PeerReq) := []
  /-- the first-level caches of the units and the last-level TLBs of the chiplets (R5, R320) -/
  tlb : List TlbEntry := []
  /-- race records of shared and Plinth words, by word (R82) -/
  raceShared : Tab (List Acc) := []
  racePlinth : Tab (List Acc) := []
  /-- releases carried by words of shared memory, Plinth and physical memory (R80) -/
  relShared : Tab (List RelMsg) := []
  relPlinth : Tab (List RelMsg) := []
  relMem : Tab (List RelMsg) := []
  cycles : List Cycle := []
  /-- where the objects that the device has placed in a pool page end: (context, region, page, page offset) (R113, R121) -/
  pageEnds : List (Nat × Nat × Nat × Nat) := []
  jointerQ : List EngineCmd := []
  sanderQ : List EngineCmd := []
  launchQ : List LaunchReq := []
  /-- the distributor's queues: slice, launch priority and grid, in order of acceptance (R317) -/
  admitQ : List (Nat × Nat × Nat) := []
  ctxs : Tab Ctx := []
  fns : Tab Fn := []
  /-- the function, plus 1, whose launch ring a slice's distributor took an entry from last, by slice (R317) -/
  ringLast : Tab Nat := []
  keys : Tab KeySlot := []
  scrubs : List Scrub := []
  dev : Dev := {}
  /-- the warp whose issue the model performs when the agenda names nothing (the model's own) -/
  turn : Nat := 0
  /-- the warp whose instruction `exec` performs (the model's own) -/
  cur : Nat := 0
  /-- what moves next (the model's own) -/
  agenda : List Act := []
  /-- how many free values have been taken, and how many steps have been made (the model's own) -/
  freeCtr : Nat := 0
  /-- how many asynchronous operations have been accepted (the model's own) -/
  opCtr : Nat := 0
  time : Nat := 0
  /-- how many steps had been made when each core was reset last (R186; log entry 4) -/
  coreReset : Tab Nat := []
  /-- the warps that each quadrant has tried to issue in its last nine issue cycles, the latest first, by 4·core + quadrant
  (R167) -/
  issues : Tab (List Nat) := []
  /-- the warps that each quadrant has issued last, the latest first, by 4·core + quadrant: they stand first in its active set
  (R30; log entry 77) -/
  active : Tab (List Nat) := []
  deriving DecidableEq, Repr

/-- The device before power is good and after a fundamental reset: STANDBY, nothing resident, every register at the value
its table gives (R348, R349, R372). -/
def State.reset : State := {}

end Sys2Proof.Machine
end

