-- ==== Sys2Proof/Machine/Tab.lean ====
section
/-! DEFINITION. Sparse tables and byte strings: the read and the write that every memory and register file is built on.
A table of values is canonical when its keys rise strictly and no entry equals what an unlisted key reads as. -/

namespace Sys2Proof.Machine

/-- The entry at a key, or `d` for an unlisted key. -/
def tget {α : Type} (d : α) : Tab α → Nat → α
  | [], _ => d
  | (j, x) :: r, k => if j = k then x else tget d r k

/-- The entry at a key, if it is listed. -/
def tfind {α : Type} : Tab α → Nat → Option α
  | [], _ => none
  | (j, x) :: r, k => if j = k then some x else tfind r k

/-- The table without the key. -/
def terase {α : Type} : Tab α → Nat → Tab α
  | [], _ => []
  | (j, x) :: r, k => if j = k then terase r k else (j, x) :: terase r k

/-- Insert an entry before the first greater key. -/
def tins {α : Type} : Tab α → Nat → α → Tab α
  | [], k, x => [(k, x)]
  | (j, y) :: r, k, x => if k < j then (k, x) :: (j, y) :: r else (j, y) :: tins r k x

/-- Set an entry, listing it whatever its value. -/
def tset {α : Type} (t : Tab α) (k : Nat) (x : α) : Tab α := tins (terase t k) k x

/-- Set an entry in canonical form: the default is not listed. -/
def tput {α : Type} [DecidableEq α] (d : α) (t : Tab α) (k : Nat) (x : α) : Tab α :=
  if x = d then terase t k else tset t k x

/-- Change an entry. -/
def tmod {α : Type} (d : α) (t : Tab α) (k : Nat) (f : α → α) : Tab α := tset t k (f (tget d t k))

/-- The least key not listed below the bound of the table: where the next entry of an id table goes. -/
def tnext {α : Type} : Tab α → Nat
  | [] => 0
  | (j, _) :: r => max (j + 1) (tnext r)

/-- Keys rise strictly from above `lo`, and no entry is the default. -/
def twfFrom {α : Type} [DecidableEq α] (d : α) : Option Nat → Tab α → Bool
  | _, [] => true
  | lo, (j, x) :: r => (match lo with | none => true | some l => decide (l < j)) && decide (x ≠ d) && twfFrom d (some j) r

/-- The canonical form of a table of values. -/
def twf {α : Type} [DecidableEq α] (d : α) (t : Tab α) : Bool := twfFrom d none t

/-- The canonical form of a memory: addresses strictly rising, no byte listed that an unlisted address reads as (0, log
entry 6). -/
def Memory.wf (m : List Host.Cell) : Bool := twf (0 : Byte) m

/-- One byte of a memory. -/
def rdByte (m : List Host.Cell) (a : Nat) : Byte := tget 0 m a

/-- Write one byte. -/
def wrByte (m : List Host.Cell) (a : Nat) (x : Byte) : List Host.Cell := tput 0 m a x

/-- Insert a number into a rising list, once. -/
def nins : List Nat → Nat → List Nat
  | [], k => [k]
  | j :: r, k => if k < j then k :: j :: r else if k = j then j :: r else j :: nins r k

/-- Read `n` bytes from address `a`, little-endian (R9). -/
def rdNat (m : List Host.Cell) (a : Nat) : Nat → Nat
  | 0 => 0
  | n + 1 => (rdByte m a).toNat + 256 * rdNat m (a + 1) n

/-- Write the low `n` bytes of a value at address `a`, little-endian (R9). -/
def wrNat (m : List Host.Cell) (a : Nat) : Nat → Nat → List Host.Cell
  | 0, _ => m
  | n + 1, x => wrNat (wrByte m a (BitVec.ofNat 8 x)) (a + 1) n (x / 256)

/-- Write listed bytes, given as (address, byte). -/
def wrList (m : List Host.Cell) : List (Nat × Byte) → List Host.Cell
  | [] => m
  | (a, x) :: r => wrList (wrByte m a x) r

/-- Read bytes as a list, lowest address first. -/
def rdList (m : List Host.Cell) (a n : Nat) : List Byte := (List.range n).map fun i => rdByte m (a + i)

/-- Bytes of a value, lowest first. -/
def bytesOf : Nat → Nat → List Byte
  | 0, _ => []
  | n + 1, x => BitVec.ofNat 8 x :: bytesOf n (x / 256)

/-- The value of bytes, lowest first. -/
def natOf : List Byte → Nat
  | [] => 0
  | b :: r => b.toNat + 256 * natOf r

/-- Pair bytes with the addresses from `a` up. -/
def addrs (a : Nat) : List Byte → List (Nat × Byte)
  | [] => []
  | b :: r => (a, b) :: addrs (a + 1) r

/-- Bits `[lo + n - 1 : lo]` of a number. -/
def bits (x lo n : Nat) : Nat := x / 2 ^ lo % 2 ^ n

/-- Replace bits `[lo + n - 1 : lo]` of a number. -/
def setBits (x lo n y : Nat) : Nat := x - bits x lo n * 2 ^ lo + y % 2 ^ n * 2 ^ lo

/-- A number read as two's complement of `n` bits. -/
def signed (n x : Nat) : Int := if x % 2 ^ n < 2 ^ (n - 1) then (x % 2 ^ n : Nat) else (x % 2 ^ n : Nat) - (2 ^ n : Nat)

/-- An integer modulo 2^n. -/
def unsigned (n : Nat) (x : Int) : Nat := (x % (2 ^ n : Nat)).toNat

/-- The lanes of a mask, in ascending order (R77). -/
def lanesOf (m : BitVec 32) : List Nat := (List.range 32).filter fun i => m.getLsbD i

/-- The mask of a list of lanes. -/
def maskOf : List Nat → BitVec 32
  | [] => 0
  | l :: r => maskOf r ||| (1#32 <<< l)

end Sys2Proof.Machine
end

