-- ==== Sys2Proof/Machine/Access.lean ====
section
/-! DEFINITION. Reading and writing the state: one accessor for each table, the registers of a warp, and the places a warp
belongs to. -/

namespace Sys2Proof.Machine

/-- The warp of a number. -/
def State.warp (s : State) (w : Nat) : Warp := tget {} s.warps w

/-- Change a warp. -/
def State.modWarp (s : State) (w : Nat) (f : Warp → Warp) : State := { s with warps := tmod {} s.warps w f }

/-- Put a warp. -/
def State.setWarp (s : State) (w : Nat) (x : Warp) : State := { s with warps := tset s.warps w x }

/-- The block of a number. -/
def State.blk (s : State) (b : Nat) : Block := tget {} s.blocks b

/-- Change a block. -/
def State.modBlk (s : State) (b : Nat) (f : Block → Block) : State := { s with blocks := tmod {} s.blocks b f }

/-- The gang of a number. -/
def State.gang (s : State) (g : Nat) : Gang := tget {} s.gangs g

/-- Change a gang. -/
def State.modGang (s : State) (g : Nat) (f : Gang → Gang) : State := { s with gangs := tmod {} s.gangs g f }

/-- The grid of a number. -/
def State.grid (s : State) (g : Nat) : Grid := tget {} s.grids g

/-- Change a grid. -/
def State.modGrid (s : State) (g : Nat) (f : Grid → Grid) : State := { s with grids := tmod {} s.grids g f }

/-- The logical cluster of a number. -/
def State.cluster (s : State) (c : Nat) : Cluster := tget {} s.clusters c

/-- Change a cluster. -/
def State.modCluster (s : State) (c : Nat) (f : Cluster → Cluster) : State :=
  { s with clusters := tmod {} s.clusters c f }

/-- The copy channel of a number: 16·cluster + c. -/
def State.chan (s : State) (n : Nat) : Chan := tget {} s.chans n

/-- Change a copy channel. -/
def State.modChan (s : State) (n : Nat) (f : Chan → Chan) : State := { s with chans := tmod {} s.chans n f }

/-- The device's own state of a context. -/
def State.ctx (s : State) (n : Nat) : Ctx := tget {} s.ctxs n

/-- Change it. -/
def State.modCtx (s : State) (n : Nat) (f : Ctx → Ctx) : State := { s with ctxs := tmod {} s.ctxs n f }

/-- The registers of a function. -/
def State.fn (s : State) (n : Nat) : Fn := tget {} s.fns n

/-- Change them. -/
def State.modFn (s : State) (n : Nat) (f : Fn → Fn) : State := { s with fns := tmod {} s.fns n f }

/-- Change the device registers. -/
def State.modDev (s : State) (f : Dev → Dev) : State := { s with dev := f s.dev }

/-- Field of n bits at bit lo of a launch record (R311). -/
def Grid.f (g : Grid) (lo n : Nat) : Nat := bits g.lr.toNat lo n

/-- `ENTRY` -/
def Grid.entry (g : Grid) : Word := .ofNat 32 (g.f 0 32)
/-- `HENTRY` -/
def Grid.hentry (g : Grid) : Word := .ofNat 32 (g.f 32 32)
/-- `CBASE` -/
def Grid.cbase (g : Grid) : Nat := g.f 64 48
/-- `PSIZE` -/
def Grid.psize (g : Grid) : Nat := g.f 192 32
/-- `CLASS`: 0 PARALLEL, 1 CONCURRENT, 2 WEAK -/
def Grid.cls (g : Grid) : Nat := g.f 224 2
/-- `RACE`: true for LOG -/
def Grid.raceLog (g : Grid) : Bool := g.f 226 1 == 1
/-- `HVALID` -/
def Grid.hvalid (g : Grid) : Bool := g.f 227 1 == 1
/-- `HEAPEN` -/
def Grid.heapen (g : Grid) : Bool := g.f 230 1 == 1
/-- `HEAP` -/
def Grid.heap (g : Grid) : Nat := g.f 232 4
/-- `GX`, `GY`, `GZ` -/
def Grid.gdim (g : Grid) : Nat × Nat × Nat := (g.f 256 32, g.f 288 16, g.f 304 16)
/-- `DX`, `DY`, `DZ` -/
def Grid.bdim (g : Grid) : Nat × Nat × Nat := (g.f 320 16, g.f 336 16, g.f 352 16)
/-- `SV`, `SM`, `SH` -/
def Grid.sv (g : Grid) : Nat := g.f 384 9
/-- `SM` -/
def Grid.sm (g : Grid) : Nat := g.f 393 7
/-- `SH` -/
def Grid.sh (g : Grid) : Nat := g.f 400 5
/-- `SPILL` -/
def Grid.spill (g : Grid) : Nat := g.f 448 16
/-- Format slot n (R132) -/
def Grid.slot (g : Grid) (n : Nat) : Nat := g.f (512 + 32 * n) 32
/-- Bit n of `HMASK` -/
def Grid.hmask (g : Grid) (n : Nat) : Bool := g.f (768 + n) 1 == 1
/-- `CLINES` -/
def Grid.clines (g : Grid) : Nat := g.f 960 18
/-- Threads of a block (R32). -/
def Grid.threads (g : Grid) : Nat := g.bdim.1 * g.bdim.2.1 * g.bdim.2.2
/-- Warps of a block (R32). -/
def Grid.warpsPer (g : Grid) : Nat := (g.threads + 31) / 32
/-- Blocks of the grid (R33). -/
def Grid.nblocks (g : Grid) : Nat := g.gdim.1 * g.gdim.2.1 * g.gdim.2.2
/-- Granules of one warp's static registers (R45). -/
def Grid.warpReg (g : Grid) : Nat := (g.sv + 2 * g.sm + 2 * g.sh + 7) / 8

/-- The static allocation of one block by class SCR, CHN, REG, ZT (R45). -/
def Grid.static (g : Grid) : List Nat := [g.f 464 8, 0, g.warpsPer * g.warpReg, g.f 405 4]

/-- The maximum claim of one block by class (R45). -/
def Grid.maxClaim (g : Grid) : List Nat :=
  let reg := g.f 493 10
  [g.f 480 8, g.f 488 5, if reg == 0 then g.warpsPer * g.warpReg else reg, g.f 503 4]

/-- The block of a warp. -/
def State.wblk (s : State) (w : Nat) : Block := s.blk (s.warp w).block
/-- The grid of a warp. -/
def State.wgrid (s : State) (w : Nat) : Grid := s.grid (s.wblk w).grid
/-- The context of a warp. -/
def State.wctx (s : State) (w : Nat) : Nat := (s.wgrid w).ctx
/-- The logical cluster of a core of the device. -/
def clusterOf (core : Nat) : Nat := core / 8
/-- The logical cluster of a warp. -/
def State.wcluster (s : State) (w : Nat) : Nat := clusterOf (s.wblk w).core
/-- The physical cluster of a logical one (R2, R363; log entry 8). -/
def State.physOfCluster (s : State) (c : Nat) : Nat := tget c s.dev.remap c
/-- The physical chiplet of a logical one (R2; log entry 8). -/
def State.physOfChip (s : State) (k : Nat) : Nat := tget k s.dev.chipNums k
/-- The logical chiplet of a physical one (R2, R185). -/
def State.chipNum (s : State) (p : Nat) : Nat := ((List.range 4).find? fun k => s.physOfChip k == p).getD p
/-- The physical core, 0 to 7, of a core of the device within its cluster (R2, R363; log entry 8). -/
def State.physInCluster (s : State) (core : Nat) : Nat := tget (core % 8) s.dev.coreNums core
/-- The physical core of the package: 8·physical cluster + physical core (R2). -/
def State.physCore (s : State) (core : Nat) : Nat := 8 * s.physOfCluster (clusterOf core) + s.physInCluster core
/-- The physical chiplet of a logical cluster (R2, R363). -/
def State.chipOf (s : State) (c : Nat) : Nat := s.physOfCluster c / 12 % 4
/-- Clock cycles of a core since its last reset (R186; log entry 4). -/
def State.cyclesOf (s : State) (core : Nat) : Nat :=
  ((List.range s.time).drop (tget 0 s.coreReset core)).foldl (fun t i => t + Config.stepCycles core i) 0
/-- The chiplet of a warp. -/
def State.wchip (s : State) (w : Nat) : Nat := s.chipOf (s.wcluster w)

/-- Field of n bits at bit lo of a slice descriptor (R360). -/
def State.sliceF (s : State) (sl lo n : Nat) : Nat := bits (tget 0 s.dev.slices sl).toNat lo n
/-- The slice exists: `VALID` (R360). -/
def State.sliceValid (s : State) (sl : Nat) : Bool := s.sliceF sl 192 1 == 1
/-- The clusters of a slice: those of `CLMASK`, in ascending order; none of one that does not exist (R360). -/
def State.sliceClusters (s : State) (sl : Nat) : List Nat :=
  (List.range Config.clusters).filter fun c => s.sliceValid sl && s.sliceF sl c 1 == 1
/-- The number of a cluster within its slice (R363). -/
def State.clusterNum (s : State) (sl c : Nat) : Nat :=
  ((List.range c).filter fun d => bits (tget 0 s.dev.sliceNum sl) d 1 == 1).length
/-- The clusters of a slice that are not retired (R363). -/
def State.liveClusters (s : State) (sl : Nat) : List Nat := (s.sliceClusters sl).filter fun c => !(s.cluster c).retired

/-- A word of a `v` register. -/
def Warp.rv (w : Warp) (r l : Nat) : Word := tget 0 w.v (32 * r + l)
/-- An `s` register. -/
def Warp.rs (w : Warp) (r : Nat) : Word := tget 0 w.s r
/-- An `m` register of a lane. -/
def Warp.rm (w : Warp) (r l : Nat) : DWord := tget 0 w.m (32 * r + l)
/-- An `h` register of a lane. -/
def Warp.rh (w : Warp) (r l : Nat) : DWord := tget 0 w.h (32 * r + l)
/-- Predicate r in lane l; `p7` reads true (R173). -/
def Warp.rp (w : Warp) (r l : Nat) : Bool := r == 7 || (tget 0 w.p r).getLsbD l
/-- A bounded register. -/
def Warp.rb (w : Warp) (r : Nat) : Bounded := tget {} w.b r
/-- A convergence register. -/
def Warp.rc (w : Warp) (r : Nat) : Conv := tget {} w.c r

/-- Remove a word's poison mark: a register word written is clean (R376). -/
def unpoison (p : List (Nat × Nat)) (cls k : Nat) : List (Nat × Nat) := p.filter (· != (cls, k))

/-- Write a word of a `v` register (class 0 of the poison marks). -/
def Warp.wv (w : Warp) (r l : Nat) (x : Word) : Warp :=
  { w with v := tput 0 w.v (32 * r + l) x, poison := unpoison w.poison 0 (32 * r + l) }
/-- Write an `s` register. -/
def Warp.ws (w : Warp) (r : Nat) (x : Word) : Warp := { w with s := tput 0 w.s r x }
/-- Write an `m` register of a lane (class 1). -/
def Warp.wm (w : Warp) (r l : Nat) (x : DWord) : Warp :=
  { w with m := tput 0 w.m (32 * r + l) x, poison := unpoison w.poison 1 (32 * r + l) }
/-- Write an `h` register of a lane (class 2). -/
def Warp.wh (w : Warp) (r l : Nat) (x : DWord) : Warp :=
  { w with h := tput 0 w.h (32 * r + l) x, poison := unpoison w.poison 2 (32 * r + l) }
/-- Write a predicate in the lanes of a mask; a write of `p7` is discarded (R173). -/
def Warp.wp (w : Warp) (r : Nat) (mask x : Word) : Warp :=
  if r == 7 then w else { w with p := tput 0 w.p r ((tget 0 w.p r &&& ~~~mask) ||| (x &&& mask)) }
/-- Write a bounded register. -/
def Warp.wb (w : Warp) (r : Nat) (x : Bounded) : Warp := { w with b := tput {} w.b r x }
/-- Write a convergence register. -/
def Warp.wc (w : Warp) (r : Nat) (x : Conv) : Warp := { w with c := tput {} w.c r x }

/-- The thread of a lane. -/
def Warp.th (w : Warp) (l : Nat) : Thread := tget {} w.threads l
/-- Change the thread of a lane. -/
def Warp.modTh (w : Warp) (l : Nat) (f : Thread → Thread) : Warp := { w with threads := tmod {} w.threads l f }
/-- Change the threads of a list of lanes. -/
def Warp.modThs (w : Warp) : List Nat → (Nat → Thread → Thread) → Warp
  | [], _ => w
  | l :: r, f => (w.modTh l (f l)).modThs r f
/-- All 32 lanes. -/
def allLanes : List Nat := List.range 32
/-- The lanes whose threads satisfy a test. -/
def Warp.lanesWhere (w : Warp) (f : Thread → Bool) : List Nat := allLanes.filter fun l => f (w.th l)
/-- A live thread. -/
def Thread.live (t : Thread) : Bool := t.st == .live
/-- A thread that is neither exited nor absent. -/
def Thread.present (t : Thread) : Bool :=
  match t.st with
  | .live | .blocked _ => true
  | _ => false
/-- A thread is in handler mode. -/
def Warp.inHandler (w : Warp) : Bool := allLanes.any fun l => (w.th l).hmode && (w.th l).present

/-- A free value: the next value the spec leaves open, and the state that has taken it (log entry 3). -/
def State.free (s : State) : Word × State := (Config.freeWord s.freeCtr, { s with freeCtr := s.freeCtr + 1 })

/-- A physical address lies on a retired memory channel (R364; log entry 80). -/
def State.lostChan (s : State) (a : Nat) : Bool :=
  !s.dev.retiredChans.isEmpty && (Config.memChannel a).any s.dev.retiredChans.contains

/-- One byte of physical memory; bytes left on a retired channel are unreadable (R364). -/
def State.byteAt (s : State) (a : Nat) : Byte := if s.lostChan a then Config.garbled s.time a else rdByte s.mem a

/-- Bytes of a physical memory record as a number. -/
def State.phys (s : State) (a n : Nat) : Nat :=
  if s.dev.retiredChans.isEmpty then rdNat s.mem a n else natOf ((List.range n).map fun i => s.byteAt (a + i))

/-- Write n bytes of a physical memory record. -/
def State.setPhys (s : State) (a n x : Nat) : State := { s with mem := wrNat s.mem a n x }

/-- The address of a context's record (R335). -/
def State.ctxAddr (s : State) (c : Nat) : Nat := s.dev.ctxtab.toNat + 256 * c

/-- Field of n bits at bit lo of a context's record (R336). -/
def State.ctxF (s : State) (c lo n : Nat) : Nat := bits (s.phys (s.ctxAddr c) 256) lo n

/-- The function of a context: 0 or its virtual function (R336). -/
def State.ctxVf (s : State) (c : Nat) : Nat := s.ctxF c 0 6

/-- The slice of a context (R336). -/
def State.ctxSlice (s : State) (c : Nat) : Nat := s.ctxF c 6 3

/-- The map unit by which the distributor of a context's slice reads launch records and parameter images, and writes the status
of a launch record (R320): that of the slice's lowest cluster (log entry 57). -/
def State.launchUnit (s : State) (c : Nat) : XUnit := .mapUnit ((s.liveClusters (s.ctxSlice c)).headD 0)

/-- `STATE` of a context (R336). -/
def State.ctxState (s : State) (c : Nat) : Nat := s.ctxF c 10 2

/-- Write `STATE` of a context. -/
def State.setCtxState (s : State) (c x : Nat) : State :=
  let a := s.ctxAddr c
  s.setPhys a 4 (setBits (s.phys a 4) 10 2 x)

end Sys2Proof.Machine
end

