-- ==== Sys2Proof/Machine/Front.lean ====
section
/-! DEFINITION. Code pointers, the frontier, the choice of issue and the movement of threads (R22 to R28, R163, R167,
R168). -/

namespace Sys2Proof.Machine

/-- `LINE` of a code pointer (R22). -/
def cpLine (c : Word) : Nat := bits c.toNat 3 17
/-- `SLOT` of a code pointer. -/
def cpSlot (c : Word) : Nat := bits c.toNat 0 3
/-- `PRIO` of a code pointer. -/
def cpPrio (c : Word) : Nat := bits c.toNat 20 12
/-- A code pointer from its fields, each cut to its width. -/
def mkCp (prio line slot : Nat) : Word := .ofNat 32 (prio % 2 ^ 12 * 2 ^ 20 + line % 2 ^ 17 * 8 + slot % 8)
/-- The slot after a code pointer: the next slot, or slot 0 of the next line after slot 4 (R26), line 0 after the last line (log entry
25). -/
def nextCp (c : Word) : Word :=
  if cpSlot c < 4 then mkCp (cpPrio c) (cpLine c) (cpSlot c + 1) else mkCp (cpPrio c) (cpLine c + 1) 0

/-- The line word of a fetched line (R163). -/
def lineWord (l : Line) : Nat := l.toNat % 2 ^ 32
/-- `SETB` of a line word. -/
def lwSetB (x : Nat) : Nat := bits x 0 4
/-- `SETA` -/
def lwSetA (x : Nat) : Nat := bits x 4 4
/-- `WAIT` -/
def lwWait (x : Nat) : Nat := bits x 8 12
/-- `YLD` -/
def lwYld (x : Nat) : Bool := bits x 20 1 == 1
/-- `PAIR` -/
def lwPair (x : Nat) : Nat := bits x 21 4
/-- Bit k of `TGT` -/
def lwTgt (x k : Nat) : Bool := bits x (25 + k) 1 == 1
/-- The instruction word in slot k of a line (R162). -/
def lineSlot (l : Line) (k : Nat) : IWord := .ofNat 96 (l.toNat / 2 ^ (32 + 96 * k))

/-- The lanes of a frontier entry (R24). -/
def Warp.entLanes (w : Warp) (c : Word) : List Nat := allLanes.filter fun l => (w.th l).live && (w.th l).cp == c

/-- What the warp keeps of the entry at a code pointer. -/
def Warp.entry (w : Warp) (c : Word) : Entry := tget {} w.entries c.toNat

/-- An entry whose age has reached 64 is aged (R28). -/
def Entry.isAged (e : Entry) : Bool := e.aged || 64 ≤ e.age

/-- Of two entries, whether the first is chosen before the second (R25, R28). -/
def Warp.before (w : Warp) (a b : Word) : Bool :=
  let x := w.entry a
  let y := w.entry b
  if x.isAged then !y.isAged || y.age < x.age || x.age == y.age && a < b else !y.isAged && a < b

/-- The entry chosen from the code pointers of the listed lanes. -/
def Warp.best (w : Warp) : List Nat → Option Word
  | [] => none
  | l :: r =>
    match w.best r with
    | none => some (w.th l).cp
    | some c => if w.before (w.th l).cp c then some (w.th l).cp else some c

/-- The entry the warp chooses (R25): the one it waits at, or the choice among the live threads' code pointers. -/
def Warp.choice (w : Warp) : Option Word :=
  let live := w.lanesWhere Thread.live
  match w.hold with
  | some c => if (w.entLanes c).isEmpty then w.best live else some c
  | none => w.best live

/-- When threads join an entry: the larger age, and the line is entered again unless all have entered it (R28, R168). -/
def Entry.merge (a b : Entry) : Entry :=
  { age := max a.age b.age, aged := a.aged || b.aged, entered := a.entered && b.entered,
    waited := a.waited && b.waited, line := a.line, past := a.past || b.past,
    check := a.check || b.check }

/-- Rebuild the entries from the live threads: lanes of `moved` bring `info`, the others what their entry was. -/
def Warp.rebuild (w : Warp) (moved : List Nat) (info : Nat → Entry) : Tab Entry :=
  go (w.lanesWhere Thread.live) []
where
  /-- add the listed lanes to the table -/
  go : List Nat → Tab Entry → Tab Entry
    | [], t => t
    | l :: r, t =>
      let k := (w.th l).cp.toNat
      let e := if moved.contains l then info l else tget {} w.entries k
      go r (tset t k (match tfind t k with | some e' => e'.merge e | none => e))

/-- Put threads at code pointers as entries that enter a line afresh (R23, R168); an entry point whose `TGT` bit no fetch
has checked yet is still to be checked (R165). -/
def Warp.place (w : Warp) (moved : List Nat) (check : Bool := false) : Warp :=
  { w with entries := w.rebuild moved fun l => { check := check || (w.th l).check } }

/-- The issue of an entry resets its age and ages the others by one (R28). -/
def Warp.aging (w : Warp) (c : Word) : Warp :=
  { w with entries := w.entries.map fun (k, e) =>
      if k == c.toNat then (k, { e with age := 0, aged := false }) else (k, { e with age := e.age + 1 }) }

/-- What a thread brings along when it leaves the entry at `c` for `c'`: the line stays entered on a fall-through within
it; a taken transfer and a new line enter afresh (R168). -/
def Entry.carry (e : Entry) (c c' : Word) (taken : Bool) : Entry :=
  if !taken && cpLine c == cpLine c' then { e with age := 0, aged := false }
  else { past := !taken && cpLine c == 2 ^ 17 - 1 && cpSlot c == 4 }

/-- Move the listed live threads of the entry at `c`: lanes of `taken` go to `tgt`, the others fall through (R26).  Leaving
a line with `YLD` makes the warp yield (R167). -/
def Warp.moveOnly (w : Warp) (c : Word) (lanes taken : List Nat) (tgt : Nat → Word) : Warp :=
  let e := w.entry c
  let dest (l : Nat) : Word := if taken.contains l then tgt l else nextCp c
  let w1 := (w.aging c).modThs lanes fun l t => { t with cp := dest l }
  let leaves := lanes.any fun l => taken.contains l || cpLine (dest l) != cpLine c
  { w1 with
    entries := w1.rebuild lanes fun l => e.carry c (dest l) (taken.contains l)
    yielding := w.yielding || leaves && lwYld (lineWord e.line) }

/-- Move every live thread of the entry at `c` (R26). -/
def Warp.move (w : Warp) (c : Word) (taken : List Nat) (tgt : Nat → Word) : Warp :=
  w.moveOnly c (w.entLanes c) taken tgt

/-- Return blocked threads to live at the code pointers they hold, unless a thread of the warp is in handler mode: then
they stay blocked until `RTE` (R23, R342). -/
def Warp.wake (w : Warp) (lanes : List Nat) (cp : Nat → Word → Word) : Warp :=
  let h := w.inHandler
  let w1 := w.modThs lanes fun l t =>
    { t with st := if h && !t.hmode then .blocked .handler else .live, cp := cp l t.cp, rcnt := 0 }
  w1.place lanes

/-- Block the listed lanes. -/
def Warp.blockLanes (w : Warp) (lanes : List Nat) (c : Cause) (cp : Nat → Word → Word) : Warp :=
  let w1 := w.modThs lanes fun l t => { t with st := .blocked c, cp := cp l t.cp }
  { w1 with entries := w1.rebuild [] fun _ => {} }

/-- An instruction issues at `c` for the lanes `ent` of an entry and the listed lanes of them block at it: it is an issue of
the warp (R28), and the entry's other lanes, whose guard is false, fall through (R26).  Lanes that are blocked already wait
on for another cause: nothing issues then. -/
def Warp.blockIssue (w : Warp) (c : Word) (ent lanes : List Nat) (cause : Cause) : Warp :=
  if lanes.all fun l => (w.th l).live then
    { (w.moveOnly c (ent.filter fun l => !lanes.contains l) [] fun _ => 0).blockLanes lanes cause fun _ k => k with
      hold := none }
  else w.blockLanes lanes cause fun _ k => k

/-- The frontier entry an instruction issues for: the warp, its code pointer, the entry's lanes and the participating
lanes (R25, R187). -/
structure Ix where
  w : Nat
  cp : Word
  ent : List Nat
  lanes : List Nat
  deriving DecidableEq, Repr

/-- The guard in a lane (R173). -/
def Warp.guard (w : Warp) (g : Guard) (l : Nat) : Bool :=
  match g with
  | .always => true
  | .pred neg p => w.rp p.val l != neg
  | .bad => false

/-- The entry a warp issues for, with the lanes a guard selects. -/
def State.pick (s : State) (w : Nat) (g : Guard) : Option Ix :=
  let x := s.warp w
  x.choice.map fun c => { w := w, cp := c, ent := x.entLanes c, lanes := (x.entLanes c).filter fun l => x.guard g l }

/-- Close the warp's region and open the next (R78). -/
def Warp.boundary (w : Warp) : Warp := { w with rsn := w.rsn + 1, ep := w.ep + 1 }

/-- Every thread of the issued entry takes a region-start code pointer (R334). -/
def Warp.restart (w : Warp) (lanes : List Nat) (c : Word) : Warp := w.modThs lanes fun _ t => { t with rcp := c }

end Sys2Proof.Machine
end

