-- ==== Sys2Proof/Machine/Num.lean ====
section
/-! DEFINITION. Number formats, exact values and rounding (R149 to R156). -/

namespace Sys2Proof.Machine

/-- How a floating-point format treats its top exponent (R149). -/
inductive FpKind where
  | ieee | e4m3 | e2m1
  deriving DecidableEq, Repr

/-- A floating-point format: widths of exponent and fraction, bias, kind (R149). -/
structure FpFmt where
  eb : Nat
  fb : Nat
  bias : Nat
  kind : FpKind := .ieee
  deriving DecidableEq, Repr

/-- FP64 -/
def fp64 : FpFmt := { eb := 11, fb := 52, bias := 1023 }
/-- FP32 -/
def fp32 : FpFmt := { eb := 8, fb := 23, bias := 127 }
/-- F16 -/
def fp16 : FpFmt := { eb := 5, fb := 10, bias := 15 }
/-- BF16 -/
def bf16 : FpFmt := { eb := 8, fb := 7, bias := 127 }
/-- E5M2 -/
def e5m2 : FpFmt := { eb := 5, fb := 2, bias := 15 }
/-- E4M3 -/
def e4m3 : FpFmt := { eb := 4, fb := 3, bias := 7, kind := .e4m3 }
/-- E2M1 -/
def e2m1 : FpFmt := { eb := 2, fb := 1, bias := 1, kind := .e2m1 }

/-- An exact value: NaN, an infinity, or (−1)^neg · m · 2^e. -/
inductive FV where
  | nan
  | inf (neg : Bool)
  | fin (neg : Bool) (m : Nat) (e : Int)
  deriving DecidableEq, Repr

/-- The rounding modes (R11, R154). -/
inductive Rnd where
  | rn | rz | rd | ru
  deriving DecidableEq, Repr

/-- The mode of a two-bit `RND` field (R154). -/
def Rnd.ofCode : Nat → Rnd
  | 0 => .rn | 1 => .rz | 2 => .rd | _ => .ru

/-- The floating-point `MOD` subfield (R154). -/
structure FpMod where
  rnd : Rnd := .rn
  ftz : Bool := false
  sat : Bool := false
  deriving DecidableEq, Repr

/-- The subfield in bits [3:0] of `MOD` (R154). -/
def FpMod.ofMod (m : BitVec 8) : FpMod :=
  { rnd := .ofCode (bits m.toNat 0 2), ftz := m.getLsbD 2, sat := m.getLsbD 3 }

/-- The exponent of the format's smallest normal. -/
def FpFmt.emin (f : FpFmt) : Int := 1 - f.bias

/-- The mantissa and the exponent of its last place of the largest finite value (R149). -/
def FpFmt.maxFin (f : FpFmt) : Nat × Int :=
  match f.kind with
  | .ieee => (2 ^ (f.fb + 1) - 1, (2 ^ f.eb : Nat) - 2 - f.bias - f.fb)
  | .e4m3 => (2 ^ (f.fb + 1) - 2, (2 ^ f.eb : Nat) - 1 - f.bias - f.fb)
  | .e2m1 => (2 ^ (f.fb + 1) - 1, (2 ^ f.eb : Nat) - 1 - f.bias - f.fb)

/-- `FTZ` acts on FP64, FP32, F16 and BF16 only (R154). -/
def FpFmt.flushes (f : FpFmt) : Bool := f == fp64 || f == fp32 || f == fp16 || f == bf16

/-- The format's sign bit. -/
def FpFmt.signBit (f : FpFmt) (neg : Bool) : Nat := if neg then 2 ^ (f.eb + f.fb) else 0

/-- The canonical NaN (R153); a format with no NaN gives +0 (R155). -/
def FpFmt.canonNan (f : FpFmt) : Nat :=
  match f.kind with
  | .ieee => (2 ^ f.eb - 1) * 2 ^ f.fb + 2 ^ (f.fb - 1)
  | .e4m3 => 0x7F
  | .e2m1 => 0

/-- The exact value of a code (R149). -/
def FpFmt.decode (f : FpFmt) (x : Nat) : FV :=
  let neg := bits x (f.eb + f.fb) 1 == 1
  let ex := bits x f.fb f.eb
  let fr := bits x 0 f.fb
  let top := ex == 2 ^ f.eb - 1
  if f.kind == .ieee && top then (if fr == 0 then .inf neg else .nan)
  else if f.kind == .e4m3 && top && fr == 7 then .nan
  else if ex == 0 then .fin neg fr (1 - (f.bias : Int) - f.fb)
  else .fin neg (2 ^ f.fb + fr) ((ex : Int) - f.bias - f.fb)

/-- m · 2^k as a natural number, dropping the bits below the point when k is negative. -/
def shiftBy (m : Nat) (k : Int) : Nat := if 0 ≤ k then m * 2 ^ k.toNat else m / 2 ^ (-k).toNat

/-- Compare m · 2^e with m' · 2^e'. -/
def dyLt (m : Nat) (e : Int) (m' : Nat) (e' : Int) : Bool :=
  let k := min e e'
  m * 2 ^ (e - k).toNat < m' * 2 ^ (e' - k).toNat

/-- Round m · 2^e, plus a positive amount below 2^e when `sticky`, to a multiple of 2^q: the multiple. -/
def roundAt (r : Rnd) (neg : Bool) (m : Nat) (e : Int) (sticky : Bool) (q : Int) : Nat :=
  if q ≤ e then
    let n := m * 2 ^ (e - q).toNat
    if sticky && (r == .rd && neg || r == .ru && !neg) then n + 1 else n
  else
    let sh := (q - e).toNat
    let n := m / 2 ^ sh
    let rem := m % 2 ^ sh
    let half := 2 ^ (sh - 1)
    let inexact := rem != 0 || sticky
    let up := match r with
      | .rn => half < rem || rem == half && (sticky || n % 2 == 1)
      | .rz => false
      | .rd => neg && inexact
      | .ru => !neg && inexact
    if up then n + 1 else n

/-- What an overflow or an infinite value produces (R155). -/
def FpFmt.overflow (f : FpFmt) (sat neg : Bool) : Nat :=
  let maxCode := match f.kind with
    | .ieee => (2 ^ f.eb - 2) * 2 ^ f.fb + (2 ^ f.fb - 1)
    | .e4m3 => 0x7E
    | .e2m1 => 0x7
  f.signBit neg +
    (if sat then maxCode
     else match f.kind with
       | .ieee => (2 ^ f.eb - 1) * 2 ^ f.fb
       | .e4m3 => 0x7F
       | .e2m1 => maxCode)

/-- The code of n · 2^q, where n is at most 2^(fb+1) and q the place of the last bit. -/
def FpFmt.pack (f : FpFmt) (neg : Bool) (n : Nat) (q : Int) : Nat :=
  let n' := if n == 2 ^ (f.fb + 1) then 2 ^ f.fb else n
  let q' := if n == 2 ^ (f.fb + 1) then q + 1 else q
  f.signBit neg +
    (if n' < 2 ^ f.fb then n' else (q' + f.fb + f.bias).toNat * 2 ^ f.fb + (n' - 2 ^ f.fb))

/-- Round a positive exact magnitude to the format (R154, R155): m · 2^e, plus an amount below 2^e when `sticky`. -/
def FpFmt.roundRaw (f : FpFmt) (md : FpMod) (neg : Bool) (m : Nat) (e : Int) (sticky : Bool) : Nat :=
  if m == 0 && !sticky then f.signBit neg
  else
    let top : Int := (if m == 0 then -1 else (Nat.log2 m : Int)) + e
    let (mm, mq) := f.maxFin
    let tooBig := match md.rnd with
      | .rn => !dyLt m e (2 * mm + 1) (mq - 1)
      | .rz => false
      | .rd => neg && (dyLt mm mq m e || sticky && !dyLt m e mm mq)
      | .ru => !neg && (dyLt mm mq m e || sticky && !dyLt m e mm mq)
    if tooBig then f.overflow md.sat neg
    else if !dyLt m e mm mq then f.pack neg mm mq
    else
      let free := roundAt md.rnd neg m e sticky (top - f.fb)
      if md.ftz && f.flushes && dyLt free (top - f.fb) 1 f.emin then f.signBit neg
      else
        let q := max top f.emin - f.fb
        f.pack neg (roundAt md.rnd neg m e sticky q) q

/-- Round an exact value to the format: its code (R153, R155). -/
def FpFmt.round (f : FpFmt) (md : FpMod) (x : FV) : Nat :=
  match x with
  | .nan => f.canonNan
  | .inf neg => f.overflow md.sat neg
  | .fin neg m e => f.roundRaw md neg m e false

/-- A subnormal operand replaced by zero of its sign (R154). -/
def FpFmt.flush (f : FpFmt) (ftz : Bool) (x : Nat) : Nat :=
  if ftz && f.flushes && bits x f.fb f.eb == 0 then f.signBit (bits x (f.eb + f.fb) 1 == 1) else x

/-- The exact value of an operand, flushed when `FTZ` says so. -/
def FpFmt.operand (f : FpFmt) (ftz : Bool) (x : Nat) : FV := f.decode (f.flush ftz x)

/-- The sign of a value changed exactly; NaN stays NaN (R207). -/
def FV.neg : FV → FV
  | .nan => .nan
  | .inf n => .inf !n
  | .fin n m e => .fin (!n) m e

/-- Negate when the condition holds. -/
def FV.negIf (c : Bool) (x : FV) : FV := if c then x.neg else x

/-- An exact finite value from a signed integer and an exponent; a zero takes the given sign. -/
def FV.ofInt (z : Int) (e : Int) (zneg : Bool := false) : FV :=
  if z = 0 then .fin zneg 0 e else .fin (decide (z < 0)) z.natAbs e

/-- The signed integer of a finite value at exponent k, for k at most its own. -/
def scaled (neg : Bool) (m : Nat) (e k : Int) : Int :=
  let x : Int := (m * 2 ^ (e - k).toNat : Nat)
  if neg then -x else x

/-- Exact addition; `rd` says that the rounding is towards −∞, where an exact zero sum of opposite signs is −0 (R153). -/
def FV.add (rd : Bool) (a b : FV) : FV :=
  match a, b with
  | .nan, _ | _, .nan => .nan
  | .inf n, .inf n' => if n == n' then .inf n else .nan
  | .inf n, _ => .inf n
  | _, .inf n => .inf n
  | .fin n m e, .fin n' m' e' =>
    if m == 0 && m' == 0 then .fin (if n == n' then n else rd) 0 0
    else
      let k := min e e'
      FV.ofInt (scaled n m e k + scaled n' m' e' k) k rd

/-- Exact multiplication. -/
def FV.mul (a b : FV) : FV :=
  match a, b with
  | .nan, _ | _, .nan => .nan
  | .inf n, .inf n' => .inf (n != n')
  | .inf n, .fin n' m _ => if m == 0 then .nan else .inf (n != n')
  | .fin n m _, .inf n' => if m == 0 then .nan else .inf (n != n')
  | .fin n m e, .fin n' m' e' => .fin (n != n') (m * m') (e + e')

/-- The value times 2^k, exactly. -/
def FV.scale (k : Int) : FV → FV
  | .fin n m e => .fin n m (e + k)
  | x => x

/-- The value is NaN. -/
def FV.isNan : FV → Bool
  | .nan => true
  | _ => false

/-- Compare two numbers, −0 equal to +0: less than. -/
def FV.lt (a b : FV) : Bool :=
  match a, b with
  | .nan, _ | _, .nan => false
  | .inf n, .inf n' => n && !n'
  | .inf n, _ => n
  | _, .inf n => !n
  | .fin n m e, .fin n' m' e' =>
    let k := min e e'
    scaled n m e k < scaled n' m' e' k

/-- Compare two numbers, −0 equal to +0: equal. -/
def FV.eq (a b : FV) : Bool := !a.isNan && !b.isNan && !a.lt b && !b.lt a

/-- Round a quotient: the code of a / b (R157). -/
def FpFmt.div (f : FpFmt) (md : FpMod) (a b : FV) : Nat :=
  match a, b with
  | .nan, _ | _, .nan => f.canonNan
  | .inf _, .inf _ => f.canonNan
  | .inf n, .fin n' _ _ => f.overflow md.sat (n != n')
  | .fin n _ _, .inf n' => f.signBit (n != n')
  | .fin n m e, .fin n' m' e' =>
    if m' == 0 then (if m == 0 then f.canonNan else f.overflow md.sat (n != n'))
    else if m == 0 then f.signBit (n != n')
    else
      let k := f.fb + 4 + Nat.log2 m'
      let num := m * 2 ^ k
      f.roundRaw md (n != n') (num / m') (e - e' - k) (num % m' != 0)

/-- Newton's iteration towards the integer square root from above. -/
def isqrtLoop : Nat → Nat → Nat → Nat
  | 0, _, y => y
  | k + 1, n, y =>
    let y' := (y + n / y) / 2
    if y' < y then isqrtLoop k n y' else y

/-- The integer square root. -/
def isqrt (n : Nat) : Nat := if n == 0 then 0 else isqrtLoop (Nat.log2 n + 2) n (2 ^ (Nat.log2 n / 2 + 1))

/-- Round a square root (R157). -/
def FpFmt.sqrt (f : FpFmt) (md : FpMod) (a : FV) : Nat :=
  match a with
  | .nan => f.canonNan
  | .inf neg => if neg then f.canonNan else f.overflow md.sat false
  | .fin neg m e =>
    if m == 0 then f.signBit neg
    else if neg then f.canonNan
    else
      let k := 2 * (f.fb + 4) + (if e % 2 = 0 then 0 else 1)
      let n := m * 2 ^ k
      let y := isqrt n
      f.roundRaw md false y ((e - k) / 2) (y * y != n)

/-- Round a reciprocal square root (R157). -/
def FpFmt.rsqrt (f : FpFmt) (md : FpMod) (a : FV) : Nat :=
  match a with
  | .nan => f.canonNan
  | .inf neg => if neg then f.canonNan else f.signBit false
  | .fin neg m e =>
    if m == 0 then f.overflow md.sat neg
    else if neg then f.canonNan
    else
      let k := 2 * (f.fb + 4) + Nat.log2 m + (if (e + Nat.log2 m) % 2 = 0 then 0 else 1)
      let y := isqrt (2 ^ k / m)
      f.roundRaw md false y ((-e - k) / 2) (y * y * m != 2 ^ k)

/-- A value rounded to an integer (R156): its magnitude. -/
def roundInt (r : Rnd) (neg : Bool) (m : Nat) (e : Int) : Nat := roundAt r neg m e false 0

/-- The least and the greatest value of an integer format of width w (R151). -/
def intRange (sgn : Bool) (w : Nat) : Int × Int :=
  if sgn then (-(2 ^ (w - 1) : Nat), (2 ^ (w - 1) : Nat) - 1) else (0, (2 ^ w : Nat) - 1)

/-- A value limited to an integer format. -/
def clampInt (sgn : Bool) (w : Nat) (x : Int) : Int :=
  let (lo, hi) := intRange sgn w
  max lo (min hi x)

/-- Floating point to integer (R156): out of range gives the nearest limit, NaN gives 0. -/
def FV.toInt (r : Rnd) (sgn : Bool) (w : Nat) (x : FV) : Int :=
  match x with
  | .nan => 0
  | .inf neg => if neg then (intRange sgn w).1 else (intRange sgn w).2
  | .fin neg m e =>
    let n : Int := roundInt r neg m e
    clampInt sgn w (if neg then -n else n)

/-- The exact value of an integer. -/
def FV.int (x : Int) : FV := FV.ofInt x 0

/-- The value of an E8M0 code (R150). -/
def e8m0Val (c : Nat) : FV := if c % 256 == 255 then .nan else .fin false 1 ((c % 256 : Nat) - 127)

/-- Exact sum of a list of values, with the sign rule of R153. -/
def FV.sum (rd : Bool) : List FV → FV
  | [] => .fin false 0 0
  | [x] => x
  | x :: r => FV.add rd x (FV.sum rd r)

end Sys2Proof.Machine
end

