-- ==== Sys2Proof/Machine/Operands.lean ====
section
/-! DEFINITION. Operand forms: how an instruction reads its register operands and writes its results (R173 to R175, R177,
R187, R188), and the checks that registers exist and are not poisoned (R51, R54, R181, R376). -/

namespace Sys2Proof.Machine

/-- One 32-bit word of an operand in a lane; `ZERO` reads 0 (R175). -/
def Warp.word (w : Warp) (o : Opd) (i l : Nat) : Word :=
  match o with
  | .v r => w.rv (r.toNat + i) l
  | .s r => w.rs (r.toNat + i)
  | .zero => 0
  | .bad => 0

/-- The value of an operand of n registers in a lane, low word first (R188). -/
def Warp.opd (w : Warp) (o : Opd) (n l : Nat) : Nat :=
  match n with
  | 0 => 0
  | k + 1 => w.opd o k l + (w.word o k l).toNat * 2 ^ (32 * k)

/-- A 32-bit operand read as S32. -/
def Warp.opdS (w : Warp) (o : Opd) (l : Nat) : Int := (w.word o 0 l).toInt

/-- Write one word of a destination in a lane; a write of `ZERO` is discarded (R175). -/
def Warp.wword (w : Warp) (o : Opd) (i l : Nat) (x : Word) : Warp :=
  match o with
  | .v r => w.wv (r.toNat + i) l x
  | .s r => w.ws (r.toNat + i) x
  | .zero => w
  | .bad => w

/-- Write a value of n registers to a destination in a lane. -/
def Warp.wopd (w : Warp) (o : Opd) (n l x : Nat) : Warp :=
  match n with
  | 0 => w
  | k + 1 => (w.wopd o k l x).wword o k l (.ofNat 32 (x / 2 ^ (32 * k)))

/-- Write a lane's own value to a destination in each listed lane. -/
def Warp.wlanes (w : Warp) (o : Opd) (n : Nat) (val : Nat → Nat) : List Nat → Warp
  | [] => w
  | l :: r => (w.wopd o n l (val l)).wlanes o n val r

/-- The lane whose operands a uniform form reads; they are the same in every lane (R174). -/
def Ix.first (x : Ix) : Nat := x.lanes.headD 0

/-- The lanes whose result a form writes: once for the uniform form, in each participating lane otherwise (R187). -/
def Ix.targets (x : Ix) (u : Bool) : List Nat := if u then x.lanes.take 1 else x.lanes

/-- Write the result of an instruction (R187): per lane, or once in the uniform form when a lane participates. -/
def State.writeD (s : State) (x : Ix) (u : Bool) (d : Opd) (n : Nat) (val : Nat → Nat) : State :=
  s.setWarp x.w ((s.warp x.w).wlanes d n val (x.targets u))

/-- The mask of lanes in which a predicate result is true; a uniform form has one result for all (R187). -/
def Ix.predMask (x : Ix) (u : Bool) (val : Nat → Bool) : Word :=
  if u then (if val x.first then maskOf x.lanes else 0) else maskOf (x.lanes.filter val)

/-- Write a predicate result in the participating lanes (R187). -/
def State.writeP (s : State) (x : Ix) (u : Bool) (pd : BitVec 3) (val : Nat → Bool) : State :=
  s.setWarp x.w ((s.warp x.w).wp pd.toNat (maskOf x.lanes) (x.predMask u val))

/-- `IMM32` widened to an operand type (R177), as the bits of that type. -/
def widen (t : Ty) (imm : BitVec 32) : Nat :=
  match t with
  | .s64 => (imm.signExtend 64).toNat
  | .f64 => fp64.round {} (fp32.decode imm.toNat)
  | _ => imm.toNat

/-- Operand `A` of an instruction with both layouts, in a lane. -/
def Warp.arithA (w : Warp) (f : Arith) (l : Nat) : Nat := w.opd f.a f.ty.regs l

/-- Operand `B`, or the widened immediate in its place (R177). -/
def Warp.arithB (w : Warp) (f : Arith) (l : Nat) : Nat :=
  match f with
  | .rrr g => w.opd g.b g.ty.regs l
  | .ri g => widen g.ty g.imm

/-- A shift amount: a 32-bit `B`, or the immediate (R201). -/
def Warp.arithAmount (w : Warp) (f : Arith) (l : Nat) : Nat :=
  match f with
  | .rrr g => w.opd g.b 1 l
  | .ri g => g.imm.toNat

/-- A `v` register of the window exists: below the static count, or mapped by a granule (R51, R181). -/
def State.vMapped (s : State) (w r : Nat) : Bool :=
  r < (s.wgrid w).sv || 192 ≤ r && r < 192 + 8 * (s.warp w).granules

/-- The block of a warp holds a tile name (R54). -/
def State.zHeld (s : State) (w z : Nat) : Bool := (s.wblk w).tiles.any fun (n, _, _) => n == z

/-- A register the instruction names does not exist (R179 priority 8). -/
def State.unmapped (s : State) (w : Nat) (i : Instr) : Bool :=
  let g := s.wgrid w
  i.vRegs.any (fun (r, _) => !s.vMapped w r) ||
    (i.mRegs.1 ++ i.mRegs.2).any (fun r => g.sm ≤ r) || (i.hRegs.1 ++ i.hRegs.2).any (fun r => g.sh ≤ r) ||
    i.zNames.any fun z => !s.zHeld w z

/-- The first participating lane that reads a poisoned word (R179 priority 9, R376). -/
def State.poisonedLane (s : State) (x : Ix) (i : Instr) : Option Nat :=
  let p := (s.warp x.w).poison
  if p.isEmpty then none
  else
    let named : Bool := match i with | .rdlane _ _ => true | _ => false
    x.lanes.find? fun l =>
      (i.vRegs.any fun (r, rd) => rd && !named && p.contains (0, 32 * r + l)) ||
        (i.mRegs.1.any fun r => p.contains (1, 32 * r + l)) || (i.hRegs.1.any fun r => p.contains (2, 32 * r + l))

end Sys2Proof.Machine
end

