-- ==== Sys2Proof/Machine/Log.lean ====
section
/-! DEFINITION. The context error log and the device error log (R278, R377), and the interrupts they signal (R353). -/

namespace Sys2Proof.Machine

/-- The fields of an error-log record (R377). -/
structure LogRec where
  kind : Nat
  code : Nat := 0
  loc : Nat := 0
  lane : Nat := 0
  core : Nat := 0
  cluster : Nat := 0
  chip : Nat := 0
  slice : Nat := 0
  vf : Nat := 0
  ctx : Nat := 0
  pc : Nat := 0
  info : Nat := 0
  addr : Nat := 0
  region : Nat := 0
  obj : Nat := 0
  deriving DecidableEq, Repr

/-- The 256 bits of a record, each field cut to its width. -/
def LogRec.word (r : LogRec) : Nat :=
  r.kind % 2 ^ 8 + r.code % 2 ^ 8 * 2 ^ 8 + r.loc % 2 ^ 4 * 2 ^ 16 + r.lane % 2 ^ 5 * 2 ^ 22 + r.core % 2 ^ 3 * 2 ^ 27 +
  r.cluster % 2 ^ 6 * 2 ^ 30 + r.chip % 2 ^ 4 * 2 ^ 36 + r.slice % 2 ^ 3 * 2 ^ 45 + r.vf % 2 ^ 6 * 2 ^ 48 +
  r.ctx % 2 ^ 10 * 2 ^ 54 + r.pc % 2 ^ 32 * 2 ^ 64 + r.info % 2 ^ 32 * 2 ^ 96 + r.addr % 2 ^ 52 * 2 ^ 128 +
  r.region % 2 ^ 4 * 2 ^ 192 + r.obj % 2 ^ 48 * 2 ^ 208

/-- Signal an MSI-X vector of a function (R353). -/
def State.signal (s : State) (fn v : Nat) : State := s.modFn fn fun f => { f with msix := f.msix ++ [v] }

/-- Append a record to the error log of its context, or count it when the log is full (R278). -/
def State.ctxLog (s : State) (r : LogRec) : State :=
  let c := s.ctx r.ctx
  if (c.elogwr - c.elogrd).toNat ≥ 256 then s.modCtx r.ctx fun c => { c with elogovf := c.elogovf + 1 }
  else
    let a := s.ctxF r.ctx 192 40 * 4096 + 32 * (c.elogwr.toNat % 256)
    (s.setPhys a 32 r.word).modCtx r.ctx fun c => { c with elogwr := c.elogwr + 1 }

/-- Append a record to the device error log, or count it (R377). -/
def State.devLog (s : State) (r : LogRec) : State :=
  let d := s.dev
  if d.dlbase == 0 || (d.dlwr - d.dlrd).toNat ≥ 4096 then
    { s with dev := { d with dlovf := .ofNat 32 (setBits d.dlovf.toNat 0 31 (d.dlovf.toNat + 1)) } }
  else
    let s := s.setPhys (d.dlbase.toNat + 32 * (d.dlwr.toNat % 4096)) 32 r.word
    { s with dev := { d with dlwr := d.dlwr + 1 } }.signal 0 3

/-- Append a record to the device error log and signal the error vector, whether or not the log takes it (R357, R364, R373). -/
def State.alarm (s : State) (r : LogRec) : State :=
  let t := s.devLog r
  if t.dev.dlwr == s.dev.dlwr then t.signal 0 3 else t

/-- An ignored write of a register: its offset and its function (R379). -/
def State.ignored (s : State) (fn off : Nat) : State := s.devLog { kind := 0x0A, addr := off, vf := fn }

/-- Where a warp stands, for a record of its own (R377; log entry 8). -/
def State.recOf (s : State) (w kind : Nat) : LogRec :=
  let c := s.wcluster w
  { kind := kind, ctx := s.wctx w, vf := s.ctxVf (s.wctx w), slice := s.ctxSlice (s.wctx w), chip := s.chipOf c
    cluster := s.physOfCluster c % 12, core := s.physInCluster (s.wblk w).core }

end Sys2Proof.Machine
end

