-- ==== Sys2Proof/Machine/Order.lean ====
section
/-! DEFINITION. Happens-before by epochs, the pairs that synchronise, and exact race detection (R78 to R91). -/

namespace Sys2Proof.Machine

/-- The party of a warp. -/
def partyOfWarp (w : Nat) : Nat := 2 * w
/-- The party of an asynchronous operation (R89). -/
def partyOfOp (n : Nat) : Nat := 2 * n + 1

/-- What happens before in either clock. -/
def vcJoin (a : Tab Nat) : Tab Nat → Tab Nat
  | [] => a
  | (p, n) :: r => vcJoin (tput 0 a p (max n (tget 0 a p))) r

/-- The warp's clock with everything it has done so far. -/
def Warp.vcNow (w : Warp) (n : Nat) : Tab Nat := vcJoin w.vc [(partyOfWarp n, w.ep + 1)]

/-- The accesses of the warp happen after everything in a clock. -/
def Warp.acquire (w : Warp) (v : Tab Nat) : Warp := { w with vc := vcJoin w.vc v }

/-- Where a warp stands, as a release carries it. -/
def State.relMsg (s : State) (w scope : Nat) (v : Tab Nat) : RelMsg :=
  { warp := w, block := (s.warp w).block, gang := (s.wblk w).gang, chip := s.wchip w, scope := scope, vc := v }

/-- The warp standing at `q` lies within a scope of the warp standing at `p` (R81). -/
def within (scope : Nat) (p q : RelMsg) : Bool :=
  match scope with
  | 0 => p.warp == q.warp
  | 1 => p.block == q.block
  | 2 => p.gang == q.gang
  | 3 => p.chip == q.chip
  | _ => true

/-- What an acquire by warp w at a scope takes from a word's releases (R80). -/
def State.pairs (s : State) (w scope : Nat) : List RelMsg → Tab Nat
  | [] => []
  | m :: r =>
    let me := s.relMsg w scope []
    let rest := s.pairs w scope r
    if within m.scope m me && within scope me m then vcJoin rest m.vc else rest

/-- Put a clock at a scope in place of the older one of that scope (R87: fences are cumulative). -/
def setFence (v : Tab Nat) (scope : Nat) (l : List (Nat × Tab Nat)) : List (Nat × Tab Nat) :=
  (scope, v) :: l.filter (·.1 != scope)

/-- Order codes of R86 that acquire. -/
def ordAcq (o : Nat) : Bool := o == 1 || o == 3 || o == 4
/-- Order codes of R86 that release. -/
def ordRel (o : Nat) : Bool := o == 2 || o == 3 || o == 4

/-- `FENCE` (R87): a releasing fence marks what is ordered before later atomic writes; an acquiring fence takes what
earlier atomic reads have read. -/
def State.fence (s : State) (w scope ord : Nat) : State :=
  let x := s.warp w
  let x := if ordAcq ord then x.acquire (s.pairs w scope x.readVc) else x
  let x := if ordRel ord then { x with fenceVc := setFence (x.vcNow w) scope x.fenceVc } else x
  s.setWarp w x

/-- The releases a word carries after an atomic write by warp w: its own when the order releases, those of its fences,
and, for a read-modify-write, those of the chain it continues (R80). -/
def State.writeMsgs (s : State) (w scope ord : Nat) (rmw : Bool) (old : List RelMsg) : List RelMsg :=
  let x := s.warp w
  (if ordRel ord then [s.relMsg w scope (x.vcNow w)] else []) ++ x.fenceVc.map (fun (sc, v) => s.relMsg w sc v) ++
    (if rmw then old else [])

/-- What an atomic read by warp w takes at once, and keeps for a later fence (R80). -/
def State.readMsgs (s : State) (w scope ord : Nat) (msgs : List RelMsg) : State :=
  let x := s.warp w
  let x := if ordAcq ord then x.acquire (s.pairs w scope msgs) else x
  s.setWarp w { x with readVc := x.readVc ++ msgs.filter fun m => !x.readVc.contains m }

/-- A recorded access happens before the accesses of a party with clock `v` (R79, R89). -/
def Acc.ordered (a : Acc) (party : Nat) (v : Tab Nat) : Bool := a.party == party || a.own == party || a.ep < tget 0 v a.party

/-- Two accesses of one word conflict (R82). -/
def Acc.conflicts (a : Acc) (write atomic : Bool) : Bool := (a.write || write) && !(a.atomic && atomic)

/-- The first recorded access of a word that races with an access (R82). -/
def raceIn (l : List Acc) (party : Nat) (v : Tab Nat) (write atomic : Bool) : Option Acc :=
  l.find? fun a => a.conflicts write atomic && !a.ordered party v

/-- Record an access of a word, dropping what it supersedes: earlier accesses of the same kind by the same party. -/
def addAcc (l : List Acc) (a : Acc) : List Acc :=
  a :: l.filter fun b => !(b.party == a.party && b.write == a.write && b.atomic == a.atomic && b.ep ≤ a.ep)

/-- The 4-byte words that n bytes from an address touch (R82). -/
def wordsOf (a n : Nat) : List Nat := if n = 0 then [] else (List.range ((a + n - 1) / 4 - a / 4 + 1)).map (a / 4 + ·)

/-- A local space: shared memory or the Plinth (R58). -/
inductive Space where
  | shared | plinth
  deriving DecidableEq, Repr

/-- The race records of a space. -/
def State.races (s : State) : Space → Tab (List Acc)
  | .shared => s.raceShared
  | .plinth => s.racePlinth

/-- Replace the race records of a space. -/
def State.setRaces (s : State) (sp : Space) (t : Tab (List Acc)) : State :=
  match sp with
  | .shared => { s with raceShared := t }
  | .plinth => { s with racePlinth := t }

/-- The releases carried by a space's words. -/
def State.rels (s : State) : Space → Tab (List RelMsg)
  | .shared => s.relShared
  | .plinth => s.relPlinth

/-- Replace them. -/
def State.setRels (s : State) (sp : Space) (t : Tab (List RelMsg)) : State :=
  match sp with
  | .shared => { s with relShared := t }
  | .plinth => { s with relPlinth := t }

/-- The first race of an access of n bytes at a key of a space. -/
def State.raceAt (s : State) (sp : Space) (k n party : Nat) (v : Tab Nat) (write atomic : Bool) : Option Acc :=
  (wordsOf k n).findSome? fun i => raceIn (tget [] (s.races sp) i) party v write atomic

/-- Record an access of n bytes at a key of a space; a plain write ends the releases its words carry. -/
def State.recordAcc (s : State) (sp : Space) (k n : Nat) (a : Acc) : State :=
  let ws := wordsOf k n
  let s1 := s.setRaces sp (ws.foldl (fun t i => tset t i (addAcc (tget [] t i) a)) (s.races sp))
  if a.write && !a.atomic then s1.setRels sp (ws.foldl (fun t i => terase t i) (s1.rels sp)) else s1

/-- The access of a warp as race detection records it. -/
def State.accOf (s : State) (w : Nat) (write atomic : Bool) : Acc :=
  let x := s.warp w
  { party := partyOfWarp w, own := partyOfWarp w, ep := x.ep, rsn := x.rsn, write := write, atomic := atomic, tag := x.tag }

/-- What a table of words holds outside n bytes at a key. -/
def outsideWords {α : Type} (k n : Nat) (t : Tab α) : Tab α := t.filter fun (i, _) => i < k / 4 || (k + n + 3) / 4 ≤ i

/-- The words of a range carry no releases any more: what was written there can be read no more (R67, R80). -/
def State.dropRels (s : State) (sp : Space) (k n : Nat) : State := s.setRels sp (outsideWords k n (s.rels sp))

/-- Forget the race metadata and the releases of a range (R240, and the start of a block in its shared memory). -/
def State.clearRaces (s : State) (sp : Space) (k n : Nat) : State :=
  let s1 := (s.setRaces sp (outsideWords k n (s.races sp))).dropRels sp k n
  if sp == .plinth then { s1 with poisonMeta := s1.poisonMeta.filter fun u => !(u * 16 < k + n && k < u * 16 + 16) } else s1

/-- An access of n bytes at a key touches a granule whose race metadata is poisoned (R375). -/
def State.metaPoison (s : State) (sp : Space) (k n : Nat) : Bool :=
  sp == .plinth && s.poisonMeta.any fun u => u * 16 < k + n && k < u * 16 + 16

/-- The error-log record of a race that LOG lets continue (R84, R377). -/
def State.logRace (s : State) (r : LogRec) (first : Acc) (off : Nat) : State :=
  s.ctxLog { r with code := 0x18, addr := off, info := first.rsn.toNat, obj := first.tag.toNat }

end Sys2Proof.Machine
end

