-- ==== Sys2Proof/Machine/Flags.lean ====
section
/-! DEFINITION. Flags: the completion flags of a warp and the faults pending on them (R135, R169, R170), and the predicate
and status results that integer and moment arithmetic compute (R107, R202). -/

namespace Sys2Proof.Machine

/-- The pending counter of a flag (R169). -/
def Warp.flag (w : Warp) (n : Nat) : Nat := tget 0 w.flags n

/-- The flag an instruction's `FS` selects in its line (R170): 12 to 15 mean none. -/
def flagOf (lw : Nat) (fs : FlagSel) : Option Nat :=
  match fs with
  | .setA => if lwSetA lw < 12 then some (lwSetA lw) else none
  | .setB => if lwSetB lw < 12 then some (lwSetB lw) else none
  | _ => none

/-- `FS` names a line field that holds none (R170, R179 priority 6). -/
def flagBad (lw : Nat) (fs : FlagSel) : Bool :=
  match fs with
  | .setA | .setB => (flagOf lw fs).isNone
  | _ => false

/-- Accepting an operation increments its flag (R169). -/
def Warp.flagUp (w : Warp) (n : Nat) : Warp := { w with flags := tput 0 w.flags n (w.flag n + 1) }

/-- A completion decrements its flag and leaves its clock for the next wait (R88, R169). -/
def Warp.flagDown (w : Warp) (n : Nat) (v : Tab Nat) : Warp :=
  { w with flags := tput 0 w.flags n (w.flag n - 1), flagVc := tset w.flagVc n (vcJoin (tget [] w.flagVc n) v) }

/-- A completion releases several flags. -/
def Warp.flagsDown (w : Warp) (v : Tab Nat) : List Nat → Warp
  | [] => w
  | n :: r => (w.flagDown n v).flagsDown v r

/-- The flags named in a 12-bit mask. -/
def maskFlags (m : Nat) : List Nat := (List.range 12).filter fun n => bits m n 1 == 1

/-- Every flag named in a mask is clear (R168, R235). -/
def Warp.flagsClear (w : Warp) (m : Nat) : Bool := (maskFlags m).all fun n => w.flag n == 0

/-- Of the faults pending on a flag, that of the earliest accepted operation (R135). -/
def earliest (n : Nat) : List PendingFault → Option PendingFault
  | [] => none
  | p :: r =>
    let q := earliest n r
    if p.flags.contains n then
      match q with
      | some p' => if p'.acc < p.acc then q else some p
      | none => some p
    else q

/-- The fault a wait reports: on the lowest-numbered named flag that carries one (R135). -/
def Warp.flagFault (w : Warp) (m : Nat) : Option PendingFault := (maskFlags m).findSome? fun n => earliest n w.faults

/-- Remove a pending fault from every flag that names it: it is reported once (R135). -/
def Warp.takeFault (w : Warp) (p : PendingFault) : Warp := { w with faults := w.faults.erase p }

/-- A wait on clear flags acquires what their operations accessed (R88). -/
def Warp.flagAcquire (w : Warp) (m : Nat) : Warp :=
  (maskFlags m).foldl (fun w n => { w.acquire (tget [] w.flagVc n) with flagVc := terase w.flagVc n }) w

/-- Carry, borrow or signed overflow: the exact result lies outside the range of the type (R202). -/
def outOfRange (sgn : Bool) (w : Nat) (x : Int) : Bool :=
  if sgn then x < -(2 ^ (w - 1) : Nat) || (2 ^ (w - 1) : Nat) ≤ x else x < 0 || (2 ^ w : Nat) ≤ x

/-- Set sticky bits of `%mstat` (R107): 1 `NV`, 2 `IV`, 4 `OV`. -/
def Warp.mstatSet (w : Warp) (x : Word) : Warp := { w with mstat := w.mstat ||| x }

end Sys2Proof.Machine
end

