-- ==== Sys2Proof/Machine/Xlate.lean ====
section
/-! DEFINITION. Address translation: the walk, the cached translations, virtual reads and writes, and what is parked when a
page is absent (R320 to R330). -/

namespace Sys2Proof.Machine

/-- The levels of the table: the level and the lowest bit of its index (R321). -/
def walkLevels : List (Nat × Nat) := [(4, 39), (3, 30), (2, 21), (1, 12)]

/-- The rules of one table entry at a level (R321): whether it may be used at all. -/
def pteOk (lv lo e : Nat) : Bool :=
  let leaf := bits e 2 1 == 1
  bits e 0 1 == 1 && bits e 52 4 == 0 && bits e 4 8 == 0 && !(lv == 1 && !leaf) && !(lv == 4 && leaf) &&
    !(lv != 1 && bits e 3 1 == 1) && !(leaf && bits e 12 (lo - 12) != 0)

/-- Walk from a table: physical base, page size and whether every entry passed permits writes (R321).  Each access takes its own
entry, in a `C16` group too: R322 lets a group that breaks its rule give either (log entry 9). -/
def State.walkFrom (s : State) (va : Nat) : List (Nat × Nat) → Nat → Bool → Option (Nat × Nat × Bool)
  | [], _, _ => none
  | (lv, lo) :: r, table, w =>
    let e := s.phys (table + 8 * bits va lo 9) 8
    let w' := w && bits e 1 1 == 1
    if !pteOk lv lo e then none
    else if bits e 2 1 == 1 then some (bits e 12 40 * 4096, 2 ^ lo, w')
    else s.walkFrom va r (bits e 12 40 * 4096) w'

/-- A physical address of a peer (R355): `PA` bits [51:48] are 0xF. -/
def isPeer (pa : Nat) : Bool := bits pa 48 4 == 15
/-- The Wale link of a peer address (R355). -/
def peerLink (pa : Nat) : Nat := bits pa 44 4
/-- Whether a unit may use a physical address: a peer address only by a copy channel and on links 0 to 11 (R355; log
entry 10). -/
def unitMay (peer : Bool) (pa : Nat) : Bool := !isPeer pa || peer && peerLink pa < 12

/-- Walk the table of a context (R321): the page's physical base, size and write permission; none is a translation
fault. -/
def State.walk (s : State) (c va : Nat) (write : Bool) (peer : Bool := false) : Option (Nat × Nat × Bool) :=
  if va ≥ 2 ^ 48 then none
  else
    match s.walkFrom va walkLevels (s.ctxF c 12 40 * 4096) true with
    | none => none
    | some (pa, n, w) => if write && !w || !unitMay peer pa then none else some (pa, n, w)

/-- The chiplet whose last-level TLB a translating unit uses (R320): the Jointer and the Sander, and what serves peers, belong to no
chiplet, and use chiplet 0's (log entry 9). -/
def State.unitChip (s : State) : XUnit → Nat
  | .heapPort core => s.chipOf (clusterOf core)
  | .mapUnit c => s.chipOf c
  | .chan n => s.chipOf (n / Config.chansPerCluster)
  | .jointer | .sander | .link => 0

/-- A cached translation of a level that serves an access (R320, R324): of a unit's first-level cache, or of a chiplet's
last-level TLB. -/
def State.cached (s : State) (level : Option XUnit) (chip c va : Nat) (write peer : Bool) : Option TlbEntry :=
  s.tlb.find? fun e =>
    e.unit == level && e.chip == chip && e.ctx == c && !e.draining && e.va ≤ va && va < e.va + e.size && (e.w || !write) &&
      unitMay peer e.pa

/-- A translation joins the 64 of its unit or the 8,192 of its chiplet; the oldest of them goes when there is no room (R5,
R320; log entry 9). -/
def State.cache (s : State) (e : TlbEntry) : State :=
  let same (y : TlbEntry) : Bool := y.unit == e.unit && y.chip == e.chip
  { s with tlb := e :: ((s.tlb.filter same).take (if e.unit.isSome then 63 else 8191) ++ s.tlb.filter fun y => !same y) }

/-- Cached translations of a page are used no more: a replay walks the table as it stands (R324, R332). -/
def State.forget (s : State) (c page : Nat) : State :=
  { s with tlb := s.tlb.filter fun e => !(e.ctx == c && e.va ≤ page && page < e.va + e.size) }

/-- Translate one address for a unit: from its first-level cache, else from its chiplet's TLB, else by a walk; what it finds is
cached (R320; log entry 9).  None is a translation fault. -/
def State.xlate (s : State) (u : XUnit) (c va : Nat) (write : Bool) (peer : Bool := false) : Option Nat × State :=
  let chip := s.unitChip u
  match s.cached (some u) chip c va write peer with
  | some e => (some (e.pa + (va - e.va)), s)
  | none =>
    match s.cached none chip c va write peer with
    | some e => (some (e.pa + (va - e.va)), s.cache { e with unit := some u })
    | none =>
      match s.walk c va write peer with
      | none => (none, s)
      | some (pa, n, w) =>
        let e : TlbEntry := { chip := chip, ctx := c, va := va / n * n, size := n, pa := pa, w := w }
        (some (pa + va % n), (s.cache e).cache { e with unit := some u })

/-- The 4 KiB pages that n bytes from a virtual address touch. -/
def pagesOf (va n : Nat) : List Nat :=
  if n = 0 then [] else (List.range ((va + n - 1) / 4096 - va / 4096 + 1)).map fun i => (va / 4096 + i) * 4096

/-- Translate pages in turn: the physical base of each, or the first that faults. -/
def State.xlPages (s : State) (u : XUnit) (c : Nat) (write : Bool) (peer : Bool := false) :
    List Nat → Except Nat (List (Nat × Nat)) × State
  | [] => (.ok [], s)
  | p :: r =>
    match s.xlate u c p write peer with
    | (none, s1) => (.error p, s1)
    | (some pa, s1) =>
      match s1.xlPages u c write peer r with
      | (.error q, s2) => (.error q, s2)
      | (.ok l, s2) => (.ok ((p, pa) :: l), s2)

/-- The physical address of a virtual byte, given its pages. -/
def physOf (ps : List (Nat × Nat)) (va : Nat) : Nat :=
  match ps.find? fun (p, _) => p == va / 4096 * 4096 with
  | some (p, pa) => pa + (va - p)
  | none => 0

/-- Physical addresses of n virtual bytes, or the first page that faults. -/
def State.xlRange (s : State) (u : XUnit) (c va n : Nat) (write : Bool) (peer : Bool := false) : Except Nat (List Nat) × State :=
  match s.xlPages u c write peer (pagesOf va n) with
  | (.error p, s1) => (.error p, s1)
  | (.ok ps, s1) => (.ok ((List.range n).map fun i => physOf ps (va + i)), s1)

/-- The key of a context on a chiplet, when one is loaded (R365). -/
def State.memKey (s : State) (c chip : Nat) : Option (BitVec 512) :=
  match tget 0 (s.ctx c).slots chip with
  | 0 => none
  | n + 1 => (tfind s.keys (64 * chip + n)).map (·.key)

/-- A context reads the 64-byte unit of a physical address as it was written (R4): no context wrote it last, or it did so
itself, or another did under the same key of the chiplet the address belongs to (log entry 73). -/
def State.readsPlain (s : State) (c a : Nat) : Bool :=
  match tget 0 s.memCtx (a / 64) with
  | 0 => true
  | d + 1 =>
    d == c ||
      (match Config.memChannel a with
       | some k => s.memKey c (k / 32) == s.memKey d (k / 32)
       | none => true)

/-- One byte of physical memory as a context reads it (R4; log entry 73). -/
def State.memByte (s : State) (c a : Nat) : Byte := if s.readsPlain c a then s.byteAt a else Config.garbled s.time a

/-- Read n virtual bytes. -/
def State.vread (s : State) (u : XUnit) (c va n : Nat) : Except Nat (List Byte) × State :=
  match s.xlRange u c va n false with
  | (.error p, s1) => (.error p, s1)
  | (.ok l, s1) => (.ok (l.map (s1.memByte c)), s1)

/-- Read n virtual bytes as a number. -/
def State.vreadNat (s : State) (u : XUnit) (c va n : Nat) : Except Nat Nat × State :=
  match s.vread u c va n with
  | (.error p, s1) => (.error p, s1)
  | (.ok l, s1) => (.ok (natOf l), s1)

/-- The poison mark of a physical byte: by units of 64 bytes (R127, R375). -/
def State.poisoned (s : State) (pa : Nat) : Bool := s.poisonMem.contains (pa / 64)

/-- Every byte of a unit of 64 bytes is written. -/
def wholeUnit (l : List (Nat × Byte)) (u : Nat) : Bool := (List.range 64).all fun i => l.any fun (a, _) => a == 64 * u + i

/-- Write physical bytes; a unit all of whose bytes are written is poisoned no more (R127), and the words written carry
no release of an earlier write (R80). -/
def State.putBytes (s : State) (l : List (Nat × Byte)) : State :=
  { s with
    mem := wrList s.mem l
    poisonMem := s.poisonMem.filter fun u => !wholeUnit l u
    relMem := l.foldl (fun t (a, _) => terase t (a / 4)) s.relMem }

/-- Write physical bytes for no context: a unit all of whose bytes are written lies under no context's key any more (log entry
73). -/
def State.putPhys (s : State) (l : List (Nat × Byte)) : State :=
  { s.putBytes l with memCtx := s.memCtx.filter fun (u, _) => !wholeUnit l u }

/-- The other bytes of the units that a context writes into, where they lie under another key: it reads them by its own (R4, R65;
log entry 73). -/
def State.foreign (s : State) (c : Nat) (l : List (Nat × Byte)) : List (Nat × Byte) :=
  ((l.filterMap fun (a, _) => if s.readsPlain c a then none else some (a / 64)).eraseDups).flatMap fun u =>
    (List.range 64).map fun i => (64 * u + i, Config.garbled s.time (64 * u + i))

/-- A context writes physical bytes: they lie under its key (R4; log entry 73). -/
def State.putFor (s : State) (c : Nat) (l : List (Nat × Byte)) : State :=
  let t : State := { s with mem := wrList s.mem (s.foreign c l) }
  { t.putBytes l with memCtx := l.foldl (fun m (a, _) => tset m (a / 64) (c + 1)) s.memCtx }

/-- Write virtual bytes given by address, or name the first page that faults; nothing is written then. -/
def State.vwrite (s : State) (u : XUnit) (c va n : Nat) (bytes : List (Nat × Byte)) : Except Nat Unit × State :=
  match s.xlPages u c true false (pagesOf va n) with
  | (.error p, s1) => (.error p, s1)
  | (.ok ps, s1) => (.ok (), s1.putFor c (bytes.map fun (i, b) => (physOf ps (va + i), b)))

/-- A page request is outstanding (R329). -/
def State.requested (s : State) (c page : Nat) : Bool := s.pageReqs.any fun q => q.ctx == c && q.page == page

/-- Raise a page request, or join the one outstanding (R329, R330); `wr` says that an engine which parks nothing and asks again
needs `W`. -/
def State.request (s : State) (c page : Nat) (wr : Bool) : State :=
  if s.requested c page then
    { s with pageReqs := s.pageReqs.map fun q => if q.ctx == c && q.page == page then { q with wr := q.wr || wr } else q }
  else { s with pageReqs := s.pageReqs ++ [{ ctx := c, page := page, fn := s.ctxVf c, wr := wr }] }

/-- Whether a parked access is a write in a side log (R327). -/
def Parked.isLog (p : Parked) : Bool :=
  match p.kind with
  | .copyRead _ _ _ => false
  | _ => true

/-- A parked access takes a place of its unit's side log (R327): the status of a launch record, for which no capacity is stated,
takes none (log entry 57). -/
def Parked.counted (p : Parked) : Bool :=
  match p.kind with
  | .copyRead _ _ _ | .write _ _ .status => false
  | _ => true

/-- Entries of a unit's side log. -/
def State.logCount (s : State) (u : XUnit) : Nat := (s.parked.filter fun p => p.unit == u && p.counted).length

/-- Whether the side log of a unit has room for n more entries (R327). -/
def State.logRoom (s : State) (u : XUnit) (n : Nat) : Bool := s.logCount u + n ≤ 64

/-- Set an access aside and request its page (R326). -/
def State.park (s : State) (p : Parked) : State := { s with parked := s.parked ++ [p] }.request p.ctx p.page false

/-- Split the bytes of a virtual write into entries of one 64-byte sector each (R327). -/
def sectors (va : Nat) (bytes : List (Nat × Byte)) : List (List (Nat × Byte)) :=
  let keys := (bytes.map fun (i, _) => (va + i) / 64).eraseDups
  keys.map fun k => bytes.filter fun (i, _) => (va + i) / 64 == k

/-- A logged write to a 64-byte sector of the context stands in the unit's side log (R328). -/
def State.sectorLogged (s : State) (u : XUnit) (c sec : Nat) : Bool :=
  s.parked.any fun p =>
    p.unit == u && p.ctx == c &&
      (match p.kind with
       | .write va bytes _ => bytes.any fun (i, _) => (va + i) / 64 == sec
       | _ => false)

/-- A write that a full side log does not hold up: of a launch record's status (log entry 57). -/
def Origin.unlimited : Origin → Bool
  | .status => true
  | _ => false

/-- Write virtual bytes sector by sector; a sector whose page faults, or that stands behind a logged write, is set aside
(R326, R328).  When the side log is full, the unit writes no more and the sectors not yet written are given back (R327). -/
def State.writeOrPark (s : State) (c : Nat) (u : XUnit) (va : Nat) (mk : Parked → Parked) (org : Origin) :
    List (List (Nat × Byte)) → List (List (Nat × Byte)) × State
  | [] => ([], s)
  | sec :: r =>
    match sec with
    | [] => s.writeOrPark c u va mk org r
    | (i, _) :: _ =>
      let page := (va + i) / 4096 * 4096
      let go (s1 : State) : List (List (Nat × Byte)) × State :=
        (s1.park (mk { ctx := c, page := page, unit := u, kind := .write va sec org })).writeOrPark c u va mk org r
      if !org.unlimited && !s.logRoom u 1 then (sec :: r, s)
      else if s.sectorLogged u c ((va + i) / 64) then go s
      else
        match s.vwrite u c page 4096 (sec.map fun (j, b) => (va + j - page, b)) with
        | (.ok _, s1) => s1.writeOrPark c u va mk org r
        | (.error _, s1) => go s1

/-- A parked access belongs to a channel's elements. -/
def ParkedKind.ofChan (n : Nat) : ParkedKind → Option Nat
  | .copyRead m e _ => if m == n then some e else none
  | .write _ _ (.copyWrite m e) => if m == n then some e else none
  | _ => none

/-- A peer request that was sent under a translation which a mark of a range concerns (R279, R324). -/
def PeerReq.mark (c va n : Nat) (p : PeerReq) : PeerReq :=
  { p with marked := p.marked || p.ctx == c && p.leaf.1 < va + n && va < p.leaf.1 + p.leaf.2 }

/-- Mark draining the cached translations of a context in a range, and the peer requests sent under them (R324). -/
def State.invMark (s : State) (c va n : Nat) : State :=
  { s with
    tlb := s.tlb.map fun e =>
      if e.ctx == c && e.va < va + n && va < e.va + e.size then { e with draining := true } else e
    chans := s.chans.map fun (i, h) =>
      (i, { h with queue := h.queue.map fun k => { k with peers := k.peers.map (PeerReq.mark c va n) } })
    peerLate := s.peerLate.map fun (o, p) => (o, p.mark c va n) }

/-- A write to a peer under a marked translation of a context, whose time is not over (R324, R358). -/
def PeerReq.unseen (c : Nat) (p : PeerReq) : Bool := p.write && p.marked && !p.expired && p.ctx == c

/-- A copy write to a peer, made under a marked translation of a context, is in flight (R279, R324). -/
def State.markedWrites (s : State) (c : Nat) : Bool :=
  s.chans.any (fun (_, h) => h.queue.any fun k => k.peers.any (PeerReq.unseen c)) ||
    s.peerLate.any fun (_, p) => p.unseen c

/-- Drop the draining translations of a context (R324). -/
def State.invConf (s : State) (c : Nat) : State := { s with tlb := s.tlb.filter fun e => !(e.ctx == c && e.draining) }

end Sys2Proof.Machine
end

