-- ==== Sys2Proof/Machine/Local.lean ====
section
/-! DEFINITION. Local memory: bounded registers, the places of scratch units, windows, and the bytes of shared memory and
the Plinth (R54, R58 to R70). -/

namespace Sys2Proof.Machine

/-- The value of `SPACE` as a local space; 0b00 and 0b11 are invalid (R59). -/
def Bounded.sp (k : Bounded) : Option Space :=
  match k.space.toNat with
  | 1 => some .shared
  | 2 => some .plinth
  | _ => none

/-- The key of a local offset as warp w reaches it: shared memory by core, the Plinth by chiplet (R58). -/
def State.keyOf (s : State) (w : Nat) (sp : Space) (off : Nat) : Nat :=
  match sp with
  | .shared => (s.wblk w).core * 2 ^ 19 + off
  | .plinth => s.wchip w * 2 ^ 31 + off

/-- The place of a logical cluster among those of its chiplet (log entry 8). -/
def State.rankOnChip (s : State) (c : Nat) : Nat :=
  ((List.range c).filter fun d => s.chipOf d == s.chipOf c).length

/-- The place of a cluster's scratch unit in its chiplet's scratch share (R361; log entry 11). -/
def State.unitSlot (s : State) (c u : Nat) : Nat :=
  match (s.cluster c).pool with
  | none => s.rankOnChip c * s.dev.scru + u
  | some l => l.getD u (12 * s.dev.scru)

/-- How many scratch units a cluster has (R44, R361). -/
def State.unitCount (s : State) (c : Nat) : Nat :=
  match (s.cluster c).pool with
  | none => s.dev.scru
  | some l => l.length

/-- Plinth offset of a cluster's scratch unit: the chiplet's scratch share comes first (R351; log entry 11). -/
def State.unitOff (s : State) (c u : Nat) : Nat := s.unitSlot c u * Config.unitBytes

/-- The key of a cluster's scratch unit in the record of who held it last (R55). -/
def State.unitKey (s : State) (c u : Nat) : Nat := s.chipOf c * 2 ^ 12 + s.unitSlot c u

/-- The unit of a cluster that a Plinth offset of its chiplet lies in, when it is that cluster's scratch. -/
def State.unitAt (s : State) (c : Nat) (off : Nat) : Option Nat :=
  let q := off / Config.unitBytes
  let b := s.rankOnChip c * s.dev.scru
  match (s.cluster c).pool with
  | none => if b ≤ q ∧ q < b + s.dev.scru then some (q - b) else none
  | some l => if l.contains q then some (l.idxOf q) else none

/-- A block that still holds what it was given (R57). -/
def Block.holds (b : Block) : Bool :=
  match b.st with
  | .admitted | .resident | .saved => true
  | _ => false

/-- A touched Plinth byte lies in a scratch unit the block cannot reach (R54, R60 priority 2, R63). -/
def State.unitBarred (s : State) (b : Block) (g : Bool) (off : Int) : Bool :=
  if off < 0 || 12 * s.dev.scru * Config.unitBytes ≤ off then false
  else
    match s.unitAt (clusterOf b.core) off.toNat with
    | none => g
    | some u =>
      if g then !(b.units.any fun (v, _) => v == u)
      else (s.gang b.gang).blocks.any fun p => !(s.blk p).holds && (s.blk p).units.any fun (v, st) => v == u && st

/-- One of n touched Plinth bytes lies in a scratch unit the block cannot reach: the last byte is tested, and bytes a unit
apart from the first on. -/
def State.spanBarred (s : State) (b : Block) (g : Bool) (a : Int) (n : Nat) : Bool :=
  s.unitBarred b g (a + n - 1) ||
    (List.range ((n - 1) / Config.unitBytes + 1)).any fun i => s.unitBarred b g (a + (i * Config.unitBytes : Nat))

/-- What an access does to the bytes it touches (R60 priority 3). -/
inductive Need where
  | load | store | atomic
  deriving DecidableEq, Repr

/-- The permission an access needs. -/
def Bounded.permits (k : Bounded) : Need → Bool
  | .load => k.r
  | .store => k.w
  | .atomic => k.a

/-- An effective address lies in range (R60). -/
def Bounded.inRange (k : Bounded) (ea : Int) (n : Nat) : Bool := k.base.toNat ≤ ea && ea + n ≤ k.limit.toNat

/-- An effective address as a fault record reports it. -/
def eaWord (ea : Int) : BitVec 48 := .ofNat 48 (unsigned 48 ea)

/-- The checks of R60 on every active lane's address, in R60's order: the failure that counts, with its lane and address.
An access of n bytes is aligned to n unless `align` is false (R244). -/
def State.boundFault (s : State) (b : Block) (k : Bounded) (need : Need) (n : Nat) (align : Bool)
    (eas : List (Nat × Int)) : Option (BitVec 8 × Nat × Int) :=
  let first (code : BitVec 8) (bad : Int → Bool) : Option (BitVec 8 × Nat × Int) :=
    (eas.find? fun (_, a) => bad a).map fun (l, a) => (code, l, a)
  (first 0x10 fun _ => k.sp.isNone).or <|
  (first 0x10 fun a => k.sp == some .plinth &&
    s.spanBarred b k.g a n).or <|
  (first 0x12 fun _ => !k.permits need).or <|
  (first 0x11 fun a => align && a % n != 0).or <|
  (first 0x10 fun a => !k.inRange a n)

/-- A live window that holds a Plinth key. -/
def State.windowAt (s : State) (key : Nat) : Option (Nat × Window) :=
  s.windows.find? fun (_, x) => x.base ≤ key && key < x.limit

/-- The unfilled chunks that accesses of n bytes at keys touch, as (window, chunk) (R67). -/
def State.unfilled (s : State) (keys : List Nat) (n : Nat) : List (Nat × Nat) :=
  let at_ (a : Nat) : Option (Nat × Nat) :=
    match s.windowAt a with
    | some (i, x) => if x.filled.contains ((a - x.base) / 4096) then none else some (i, (a - x.base) / 4096)
    | none => none
  (keys.flatMap fun k => ([k, k + n - 1] ++ (List.range ((n - 1) / 4096)).map fun i => k + (i + 1) * 4096).filterMap
    at_).eraseDups

/-- A store into a window's chunk is set aside (R326). -/
def State.chunkLogged (s : State) (i chunk : Nat) : Bool :=
  s.parked.any fun p =>
    match p.kind with
    | .local j k _ _ | .localAtomic j k _ _ _ _ _ _ _ => j == i && k == chunk
    | _ => false

/-- A store into one of the windows is set aside: a write-back of them waits for its replay (R68, R77; log entry 38). -/
def State.windowLogged (s : State) (l : List Nat) : Bool :=
  s.parked.any fun p =>
    match p.kind with
    | .local j _ _ _ | .localAtomic j _ _ _ _ _ _ _ _ => l.contains j
    | _ => false

/-- The virtual page a window's chunk stands for. -/
def Window.page (x : Window) (chunk : Nat) : Nat := x.va + chunk * 4096

/-- A window of a number. -/
def State.window (s : State) (i : Nat) : Window := tget {} s.windows i

/-- The bytes of a space. -/
def State.bytes (s : State) : Space → List Host.Cell
  | .shared => s.shared
  | .plinth => s.plinth

/-- Read n bytes at a key of a space. -/
def State.getLocal (s : State) (sp : Space) (k n : Nat) : Nat := rdNat (s.bytes sp) k n

/-- Mark the bytes written in windows dirty (R68). -/
def State.dirty (s : State) (l : List (Nat × Byte)) : State :=
  l.foldl (fun s (k, _) =>
    match s.windowAt k with
    | some (i, x) =>
      { s with windows := tset s.windows i { x with dirty := nins x.dirty (k - x.base) } }
    | none => s) s

/-- Write bytes at keys of a space, keeping dirty masks and poison marks (R68, R127). -/
def State.putLocal (s : State) (sp : Space) (l : List (Nat × Byte)) : State :=
  let covers (u k : Nat) : Bool := (List.range u).all fun i => l.any fun (a, _) => a == k * u + i
  match sp with
  | .shared =>
    { s with shared := wrList s.shared l, poisonShared := s.poisonShared.filter fun k => !covers 4 k }
  | .plinth =>
    { (if s.windows.isEmpty then s else s.dirty l) with
        plinth := wrList s.plinth l, poisonPlinth := s.poisonPlinth.filter fun k => !covers 64 k }

/-- Whether any of n bytes at a key is poisoned: shared memory by words, the Plinth by 64-byte units (R375). -/
def State.localPoison (s : State) (sp : Space) (k n : Nat) : Bool :=
  match sp with
  | .shared => s.poisonShared.any fun u => u * 4 < k + n && k < u * 4 + 4
  | .plinth => s.poisonPlinth.any fun u => u * 64 < k + n && k < u * 64 + 64

/-- The map unit that fills and writes back a window (R67, R320). -/
def State.windowUnit (s : State) (x : Window) : XUnit := .mapUnit (clusterOf (s.blk x.block).core)

/-- Fill a window's chunk from global memory (R67): none when its page faults. -/
def State.fillChunk (s : State) (i chunk : Nat) : Option State × State :=
  let x := s.window i
  let u := s.windowUnit x
  match s.vread u x.ctx (x.page chunk) 4096 with
  | (.error _, s1) => (none, s1)
  | (.ok bytes, s1) =>
    let base := x.base + chunk * 4096
    let units := (List.range 64).filter fun k =>
      match (s1.xlate u x.ctx (x.page chunk) false).1 with
      | some pa => s1.poisoned (pa + 64 * k)
      | none => false
    (some { s1 with
        plinth := wrList s1.plinth (addrs base bytes)
        windows := tset s1.windows i { x with filled := x.filled ++ [chunk], faulted := x.faulted.filter (· != chunk) }
        poisonPlinth := (s1.poisonPlinth.filter fun u => !(base / 64 ≤ u && u < base / 64 + 64)) ++
          units.map (base / 64 + ·) }, s1)

/-- The windows of a block that lie within a bounded register's range (R68). -/
def State.windowsIn (s : State) (w : Nat) (k : Bounded) : List Nat :=
  (s.windows.filter fun (_, x) =>
    x.block == (s.warp w).block && k.sp == some .plinth && s.keyOf w .plinth k.base.toNat ≤ x.base &&
      x.limit ≤ s.keyOf w .plinth k.limit.toNat).map (·.1)

/-- Write back listed dirty offsets of a window (R68); what the side log has no room for stays dirty and is given back
(R327). -/
def State.writeBackAt (s : State) (i : Nat) (offs : List Nat) (mk : Parked → Parked) (org : Origin) : List Nat × State :=
  let x := s.window i
  let bytes := offs.map fun o => (o, rdByte s.plinth (x.base + o))
  match s.writeOrPark x.ctx (s.windowUnit x) x.va mk org (sectors x.va bytes) with
  | (rest, s1) =>
    let left := rest.flatten.map (·.1)
    let y := s1.window i
    let y' : Window := { y with dirty := y.dirty.filter fun o => left.contains o || !offs.contains o }
    (left, { s1 with windows := tset s1.windows i y' })

/-- Write back the dirty bytes of several windows; what could not be written, by window. -/
def State.writeBacks (s : State) (mk : Parked → Parked) (org : Origin) :
    List (Nat × List Nat) → List (Nat × List Nat) × State
  | [] => ([], s)
  | (i, offs) :: r =>
    match s.writeBackAt i offs mk org with
    | (left, s1) =>
      match s1.writeBacks mk org r with
      | (rest, s2) => (if left.isEmpty then rest else (i, left) :: rest, s2)

/-- The windows that a block's end concerns (R69): its own, and those that lie in a unit it returns (log entry 38). -/
def State.endWindows (s : State) (b : Nat) : List Nat :=
  let k := s.blk b
  let c := clusterOf k.core
  let inUnit (y : Window) : Bool := k.units.any fun (u, _) =>
    let lo := s.chipOf c * 2 ^ 31 + s.unitOff c u
    y.base < lo + Config.unitBytes && lo < y.limit
  (s.windows.filter fun (_, y) => y.block == b || k.holds && k.st != .saved && inUnit y && (s.blk y.block).st != .saved).map (·.1)

/-- The dirty offsets of listed windows. -/
def State.dirtyOf (s : State) (l : List Nat) : List (Nat × List Nat) := l.map fun i => (i, (s.window i).dirty)

/-- Unbind the listed windows that have nothing left to write back. -/
def State.unbind (s : State) (l : List Nat) : State :=
  { s with windows := s.windows.filter fun (i, x) => !(l.contains i && x.dirty.isEmpty) }

end Sys2Proof.Machine
end

