-- ==== Sys2Proof/Machine/Ops.lean ====
section
/-! DEFINITION. The operations every instruction shares: the end of a block and of a grid, taking an exception and returning
from one, the generic checks, and the issue of an instruction for a frontier entry. -/

namespace Sys2Proof.Machine

/-- What a meaning answers. -/
abbrev Out : Type := Host.Outcome State Fault Refusal

/-! ### Blocks and grids that end -/

/-- The column of a class for a core of its cluster (R46). -/
def colOf (cls core : Nat) : Nat :=
  match cls with
  | 0 => 0 | 1 => 1 | 2 => 2 + core % 8 | _ => 10 + core % 8

/-- Amounts by class as the 18 columns of a row (R46). -/
def columnsOf (core : Nat) (amt : List Nat) : List Nat :=
  (List.range Config.columns).map fun i =>
    (List.range 4).foldl (fun t k => if colOf k core == i then t + amt.getD k 0 else t) 0

/-- What a block holds by class, static part included (R51). -/
def State.heldBy (s : State) (b : Nat) : List Nat :=
  let k := s.blk b
  let g := s.grid k.grid
  [k.units.length, k.chans.length, g.warpsPer * g.warpReg + k.dynReg, k.tiles.length]

/-- What the arbiter has allocated to a block by class: all its claim in a CONCURRENT grid (R56). -/
def State.allocOf (s : State) (b : Nat) : List Nat :=
  let g := s.grid (s.blk b).grid
  if g.cls == 1 then g.maxClaim else s.heldBy b

/-- A child grid of the block has not retired (R37). -/
def State.childLive (s : State) (b : Nat) : Bool :=
  (s.grids.any fun (_, g) => g.parent == some b && g.st != .retired) ||
    s.launchQ.any fun q => match q.child with | some (w, _) => (s.warp w).block == b | none => false

/-- Drop a core's allocation pages of pairs that no grid of its resident blocks names (R113). -/
def State.dropAlloc (s : State) (core : Nat) : State :=
  let named (c r : Nat) : Bool := s.blocks.any fun (_, k) =>
    k.core == core && k.st == .resident && (s.grid k.grid).ctx == c && (s.grid k.grid).heapen &&
      (s.grid k.grid).heap == r
  { s with cores := tmod {} s.cores core fun k => { k with alloc := k.alloc.filter fun (c, r, _, _) => named c r } }

/-- The completion entry of a host launch, held until its ring has room (R315). -/
def State.complete (s : State) (g : Grid) (code : BitVec 8) (st : Nat) : State :=
  match g.host with
  | some (fn, n) => s.modFn fn fun f => { f with completions := f.completions ++ [(g.recVa, code, st, n, g.ctx + 1)] }
  | none => s

/-- Write `CODE`, `STATE` and `DETAIL` of a launch record (R311, R313; log entry 57). -/
def State.setStatus (s : State) (c va : Nat) (code : BitVec 8) (st detail : Nat) : State :=
  let x := code.toNat + st * 2 ^ 8 + detail * 2 ^ 16
  (s.writeOrPark c (s.launchUnit c) (va + 112) id .status (sectors (va + 112) (addrs 0 (bytesOf 8 x)))).2

/-- A context with no grid left is idle (R336; log entry 14). -/
def State.idle (s : State) (c : Nat) : State :=
  if s.ctxState c == 1 && s.grids.all (fun (_, g) => g.ctx != c || g.st == .retired) then s.setCtxState c 0 else s

/-- Retire a grid whose blocks and child grids have all ended, and what that ends in turn (R37, R38, R313); the depth of
nesting bounds the chain (R36). -/
def State.retire (s : State) (g : Nat) : Nat → State
  | 0 => s
  | fuel + 1 =>
    let x := s.grid g
    let done := x.st == .running && x.nextBlock == x.nblocks &&
      (s.blocks.all fun (_, k) => k.grid != g || k.st == .finished)
    if !done then s
    else
      let s0 := (s.modGrid g fun y => { y with st := .retired }).setStatus x.ctx x.recVa x.code 3 0
      let s1 := (s0.complete x x.code 3).idle x.ctx
      match x.parent with
      | none => s1
      | some b =>
        if (s1.blk b).st == .held && !s1.childLive b then
          (s1.modBlk b fun k => { k with st := .finished }).retire (s1.blk b).grid fuel
        else s1

/-- A channel is held by nobody any more: what it has set aside goes with its commands, and the answers to its peer requests
come too late (R331, R358; log entry 12). -/
def State.resetChan (s : State) (n : Nat) : State :=
  let late := (s.chan n).queue.flatMap fun c => c.peers.map fun p => (c.party / 2, p)
  { s.modChan n fun _ => {} with
    parked := s.parked.filter fun p => (p.kind.ofChan n).isNone
    peerLate := s.peerLate ++ late }

/-- A block ends: it is finished, or held while a child grid is live; it returns everything it holds as one release
(R37, R57, R193, R303). -/
def State.endBlock (s : State) (b : Nat) : State :=
  let k := s.blk b
  let gg := s.gang k.gang
  let cols := columnsOf k.core (s.allocOf b)
  let st := if s.childLive b then BlockSt.held else .finished
  let s1 := s.modBlk b fun x =>
    { x with st := st, chans := [], tiles := [], dynReg := 0, units := x.units.filter (·.2) }
  let final := gg.blocks.all fun p => !(s1.blk p).holds
  let s2 := s1.modCluster gg.cluster fun c => { c with queue := c.queue ++ [.release k.gang cols final] }
  let s3 := if final then s2.modGang k.gang fun x => { x with st := .done } else s2
  let s4 := k.chans.foldl State.resetChan s3
  let chip := s.chipOf gg.cluster
  let s5 := k.units.foldl (fun t (u, _) =>
    t.clearRaces .plinth (chip * 2 ^ 31 + s.unitOff gg.cluster u) Config.unitBytes) s4
  let s6 := s5.clearRaces .shared (k.core * 2 ^ 19 + k.shBase) ((s.grid k.grid).f 416 19)
  (s6.dropAlloc k.core).retire k.grid 16

/-- Every thread of a warp leaves the frontier and the warp retires (R24, R193). -/
def Warp.endAll (w : Warp) : Warp :=
  let w1 := w.modThs (w.lanesWhere Thread.present) fun _ t => { t with st := .exited, hmode := false }
  { w1 with entries := [], hold := none, acqWait := false, retired := true }

/-- An arbiter operation is a request of one of the listed warps. -/
def ArbOp.isFrom (ws : List Nat) : ArbOp → Bool
  | .request w _ _ _ _ _ _ _ => ws.contains w
  | .release _ _ _ | .restock => false

/-- Withdraw what warps and blocks have waiting in a cluster. -/
def Cluster.withdraw (c : Cluster) (ws bs : List Nat) : Cluster :=
  { c with
    queue := c.queue.filter (!ArbOp.isFrom ws ·)
    deferred := c.deferred.filter (!ArbOp.isFrom ws ·)
    fills := c.fills.filter (fun (w, _, _) => !ws.contains w)
    dispatchQ := c.dispatchQ.filter (!bs.contains ·) }

/-- The commands of a channel are aborted; its block holds it still. -/
def State.abortChan (s : State) (n : Nat) : State := (s.resetChan n).modChan n fun _ => { owner := (s.chan n).owner }

/-- A write-back of a block that was stopped is set aside. -/
def State.stopParked (s : State) (b : Nat) : Bool :=
  s.parked.any fun p =>
    match p.kind with
    | .write _ _ org => org == .stopWriteBack b
    | _ => false

/-- A block that was stopped ends once every store into its windows is replayed and every dirty byte is written back and visible;
until then it keeps what it holds (R69; log entry 12).  A saved one waits for its return. -/
def State.endStopped (s : State) (b : Nat) : State :=
  let k := s.blk b
  let wins := s.endWindows b
  if !k.stopped || k.st != .admitted && k.st != .resident || s.windowLogged wins then s
  else
    match s.writeBacks (fun p => { p with warp := k.warps.headD 0 }) (.stopWriteBack b) (s.dirtyOf wins) with
    | (rest, s1) =>
      if !rest.isEmpty || s1.stopParked b then s1
      else ((s1.unbind wins).modBlk b fun x => { x with stopped := false }).endBlock b

/-- Every block that was stopped ends, if it can. -/
def State.endAllStopped (s : State) : State := (s.blocks.filter fun (_, k) => k.stopped).foldl (fun t (b, _) => t.endStopped b) s

/-- Stop a grid with a code: its threads end, its requests and operations are withdrawn, its channels' commands are aborted,
its blocks end, and no further block of it is admitted (R184, R313; log entry 12). -/
def State.stopGrid (s : State) (g : Nat) (code : BitVec 8) : State :=
  let x := s.grid g
  if x.st != .running then s
  else
    let bs := (s.blocks.filter fun (_, k) => k.grid == g && k.holds).map (·.1)
    let ws := bs.flatMap fun b => (s.blk b).warps
    let s1 : State := { s with
      warps := ws.foldl (fun t w => tmod {} t w Warp.endAll) s.warps
      ops := s.ops.filter fun (_, o) => !ws.contains o.warp
      dqWaits := s.dqWaits.filter fun d => !ws.contains d.warp
      clusters := s.clusters.map fun (n, c) => (n, c.withdraw ws bs)
      admitQ := s.admitQ.filter fun (_, _, n) => n != g }
    let s2 := s1.modGrid g fun y => { y with code := if y.code == 0 then code else y.code, nextBlock := y.nblocks }
    let s3 := bs.foldl (fun t b =>
      ((t.blk b).chans.foldl State.abortChan t).modBlk b fun k => { k with stopped := true }) s2
    if bs.isEmpty then s3.retire g 16 else bs.foldl (fun t b => t.endStopped b) s3

/-! ### Exceptions -/

/-- A precise fault of an entry: its originating and return code pointers are the entry's (R343). -/
def precise (code : BitVec 8) (cp : Word) (lane : Nat := 0) (sub : Nat := 0) (addr : BitVec 48 := 0) : FaultRec :=
  { code := code, sub := .ofNat 8 sub, lane := .ofNat 5 lane, rpc := cp, fpc := cp, addr := addr }

/-- The deque operations at which the listed lanes of a warp wait stand in their deques' queues no more (R144). -/
def State.dqLeave (s : State) (w : Nat) (lanes : List Nat) : State :=
  { s with dqWaits := s.dqWaits.filter fun q => !(q.warp == w && lanes.any fun l => ((s.warp w).th l).cp == q.cp) }

/-- Take a fault for the entry of the listed lanes (R342): enter the kernel's handler, or stop the grid.  A request that the
arbiter has not settled keeps the warp from issuing still (R302).  A deque operation at which those lanes waited is withdrawn; one
of other lanes keeps its place while the handler runs (log entry 54). -/
def State.raise (s : State) (w : Nat) (lanes : List Nat) (r : FaultRec) : State :=
  let x := s.warp w
  let g := s.wgrid w
  if g.hvalid && g.hmask r.code.toNat && !x.inHandler then
    let h := g.hentry
    let x1 := x.modThs lanes fun _ t => { t with st := .live, cp := h, rcp := h, hmode := true, check := false }
    let others := (x1.lanesWhere Thread.live).filter fun l => !lanes.contains l
    let x2 := x1.modThs others fun _ t => { t with st := .blocked .handler }
    (s.dqLeave w lanes).setWarp w { x2.place lanes true with frec := r, hold := none }
  else s.stopGrid (s.wblk w).grid r.code

/-- Return from an exception (R276, R344): the handler's threads resume at `c`, which is their region start (R334); the
threads that waited for `RTE` return to live. -/
def State.rte (s : State) (w : Nat) (c : Word) : State :=
  let x := s.warp w
  let hs := allLanes.filter fun l => (x.th l).hmode && (x.th l).present
  let bs := x.lanesWhere fun t => t.st == .blocked .handler
  let x1 := x.modThs hs fun _ t => { t with st := .live, cp := c, rcp := c, hmode := false }
  let x2 := x1.modThs bs fun _ t => { t with st := .live }
  (s.dqLeave w hs).setWarp w (x2.place (hs ++ bs))

/-! ### The generic checks -/

/-- The fault codes of R184 that the generic checks raise. -/
def cIllegal : BitVec 8 := 0x01
/-- RESERVED-FIELD -/
def cReserved : BitVec 8 := 0x02
/-- MALFORMED-LINE -/
def cMalformed : BitVec 8 := 0x03
/-- CONTROL-FLOW -/
def cControl : BitVec 8 := 0x04
/-- UNMAPPED-REG -/
def cUnmapped : BitVec 8 := 0x06
/-- PRIVILEGED -/
def cPrivileged : BitVec 8 := 0x07
/-- REG-POISON -/
def cRegPoison : BitVec 8 := 0x17

/-- `ACODE` of a format slot (R132). -/
def slotA (x : Nat) : Nat := bits x 0 4
/-- `BCODE` -/
def slotB (x : Nat) : Nat := bits x 4 4
/-- `SCL` -/
def slotScl (x : Nat) : Nat := bits x 8 2
/-- `ACC` -/
def slotAcc (x : Nat) : Nat := bits x 10 2
/-- `SAT` -/
def slotSat (x : Nat) : Bool := bits x 12 1 == 1
/-- `SRND` -/
def slotRnd (x : Nat) : Nat := bits x 13 2

/-- The scale operand a slot's scale mode accepts (R131, R261): an `s` register with the one after it when `pair`. -/
def scaleOk (scl : Nat) (o : Opd) (per pair : Bool) : Bool :=
  match o with
  | .s k => scl == 2 && (!pair || k.toNat < 63) || scl == 1 && per
  | .v _ => scl == 1 && per
  | .zero => scl == 0 || scl == 1 && !per
  | .bad => true

/-- ILLEGAL-OPCODE conditions that depend on the grid and the mode: handler mode (R183), the heap (R110) and the format
slot (R108, R131, R132, R261; log entry 24 for the sub-code of a slot with BCODE 8 or ACC 01). -/
def State.illegalNow (s : State) (w : Nat) (i : Instr) : Option Nat :=
  let g := s.wgrid w
  let slot (n : BitVec 3) : Nat := g.slot n.toNat
  match i with
  | .rte _ _ => if (s.warp w).inHandler then none else some 0x07
  | .rdsr _ f =>
    if 0x40 ≤ f.imm.toNat && !(s.warp w).inHandler then some 0x07
    else if f.imm == 0x22 && !g.heapen then some 0x09 else none
  | .hnew _ _ | .hld _ _ | .hst _ _ | .hatom _ _ | .hldr _ _ | .hstr _ _ | .hmov _ _ | .hcmp _ _ | .hhdr _ _
  | .hpin _ _ | .hunpin _ _ | .hcas _ _ => if g.heapen then none else some 0x09
  | .mma _ f =>
    if slotB (slot f.fslot) == 8 || slotAcc (slot f.fslot) == 1 then some 0x03
    else if scaleOk (slotScl (slot f.fslot)) f.sa true true then none else some 0x04
  | .mmom _ f => if slot f.fslot % 2 ^ 12 == 0x400 then none else some 0x03
  | .zld _ f | .zst _ f => if scaleOk (slotScl (slot f.fslot)) f.sa false false then none else some 0x04
  | _ => none

/-- The opcodes of the heap instructions that need a heap region (R110). -/
def heapOp (op : Nat) : Bool := 0x280 ≤ op && op ≤ 0x28A || op == 0x28C

/-- Sub-code 0x09 counts before any other condition of a heap instruction in a grid without a heap (R110; log entry 22). -/
def State.heapSub (s : State) (w op sub : Nat) : Nat := if heapOp op && !(s.wgrid w).heapen then 0x09 else sub

/-- An instruction only privileged code may issue (R183). -/
def Instr.privileged : Instr → Bool
  | .hflipMark _ _ | .hflipConf _ _ | .prd _ _ | .pwr _ _ | .invmark _ _ | .invconf _ _ | .errrd _ _ => true
  | _ => false

/-- The generic checks of R179 from priority 4 on: the fault that counts.  `rsv` says that the word has a reserved bit
set that no field holds. -/
def State.genericFault (s : State) (rsv : Bool) (x : Ix) (i : Instr) : Option FaultRec :=
  let ill (n : Nat) : Option FaultRec := some (precise cIllegal x.cp 0 n)
  match i.illegal with
  | some n => ill (s.heapSub x.w ((i.view.map (·.1)).getD 0) n)
  | none =>
    match if i.view.isSome then s.illegalNow x.w i else none with
    | some n => ill n
    | none =>
      if rsv || i.reserved then some (precise cReserved x.cp)
      else if flagBad (lineWord ((s.warp x.w).entry x.cp).line) i.common.fs then some (precise cMalformed x.cp)
      else if Instr.privileged i && !(s.wgrid x.w).priv then some (precise cPrivileged x.cp)
      else if s.unmapped x.w i then some (precise cUnmapped x.cp)
      else (s.poisonedLane x i).map fun l => precise cRegPoison x.cp l

/-! ### Issue -/

/-- What the meaning of an instruction answers for the entry it issues for. -/
inductive Res where
  /-- performed: the live threads of the entry fall through -/
  | adv (s : State)
  /-- performed: participating lanes take their targets, the others fall through -/
  | go (s : State) (tgt : Nat → Word)
  /-- the entry stalls at issue and stays in the frontier -/
  | keep (s : State)
  /-- performed: the meaning has placed the threads itself -/
  | set (s : State)
  /-- a fault is raised at the instruction -/
  | raise (s : State) (r : FaultRec)

/-- What else an instruction that is performed leaves. -/
def Res.after (r : Res) (f : State → State) : Res :=
  match r with
  | .adv s => .adv (f s)
  | r => r

/-- A context issues nothing: it is being saved, or is saved (R337). -/
def State.stopped (s : State) (c : Nat) : Bool := (s.ctx c).saving && !(s.ctx c).restoring

/-- A CONCURRENT grid waits until every block of it is resident again (R43). -/
def State.regroups (s : State) (gid : Nat) : Bool :=
  (s.grid gid).cls == 1 && s.blocks.any fun (_, b) => b.grid == gid && b.st == .saved

/-- The warp may issue: its block is resident, its context is not saved, and it neither yields nor waits for the arbiter
(R43, R167, R302, R337). -/
def State.mayIssue (s : State) (w : Nat) : Bool :=
  !(s.warp w).yielding && !(s.warp w).acqWait && (s.wblk w).st == .resident && !s.stopped (s.wctx w) &&
    !s.regroups (s.wblk w).grid

/-- The line's `WAIT` check before the first instruction after an entry enters it (R135, R168): none lets the instruction
issue. -/
def State.waitCheck (s : State) (x : Ix) : Option Res :=
  let w := s.warp x.w
  let e := w.entry x.cp
  let m := lwWait (lineWord e.line)
  if e.waited || m == 0 then none
  else if !w.flagsClear m then some (.keep s)
  else (w.flagFault m).map fun p =>
    .raise (s.setWarp x.w (w.takeFault p)) { p.fr with async := true, rpc := x.cp }

/-- What a passed `WAIT` check does: the wait acquires, the region ends, and the entry waits no more in this line (R78,
R88, R168). -/
def State.waitDone (s : State) (x : Ix) : State :=
  let w := s.warp x.w
  let e := w.entry x.cp
  let m := lwWait (lineWord e.line)
  if e.waited || m == 0 then s
  else
    let w1 := (w.flagAcquire m).boundary
    s.setWarp x.w { w1 with entries := tset w1.entries x.cp.toNat { e with waited := true } }

/-- The participating lanes block until the page of a virtual address is replayed; the instruction then issues again (R23,
R326), for them alone. -/
def State.blockOn (s : State) (x : Ix) (cause : Cause) : Res :=
  .set (s.modWarp x.w fun y => y.blockIssue x.cp x.ent x.lanes cause)

/-- The operand use of an instruction touches one of n registers of an operand, in an entry that holds the lane. -/
def opdMeets (o : Opd) (n lane : Nat) (ent : List Nat) (u : OpUse) : Bool :=
  match o, u.o with
  | .v a, .v b => ent.contains lane && a.toNat < b.toNat + u.n && b.toNat < a.toNat + n
  | .s a, .s b => a.toNat < b.toNat + u.n && b.toNat < a.toNat + n
  | _, _ => false

/-- The instruction uses a register that an atomic set aside has still to give its old value: the scoreboard holds it (R23, R326;
log entry 37). -/
def State.awaits (s : State) (x : Ix) (i : Instr) : Bool :=
  s.parked.any fun p => p.warp == x.w &&
    (match p.kind with
     | .localAtomic _ _ _ _ ty _ _ dst lane => i.shape.uses.any (opdMeets dst ty.regs lane x.ent)
     | _ => false)

/-- An instruction that stalls at issue waits for a page it has asked for (log entry 27). -/
def State.stallOn (s : State) (x : Ix) (c page : Nat) (wr : Bool) : State :=
  s.modWarp x.w fun w =>
    if w.asks.any fun a => a.ctx == c && a.page == page && a.cp == x.cp then w
    else { w with asks := { ctx := c, page := page, wr := wr, cp := x.cp } :: w.asks }

/-- Apply an answer to the state. -/
def State.settle (x : Ix) : Res → State
  | .adv t => t.setWarp x.w { (t.warp x.w).move x.cp [] (fun _ => 0) with hold := none }
  | .go t tgt => t.setWarp x.w { (t.warp x.w).move x.cp x.lanes tgt with hold := none }
  | .keep t => t
  | .set t => t
  | .raise t r => t.raise x.w x.ent r

/-- An instruction issues for an entry: the line's `WAIT` check, the scoreboard, the generic checks, then its own effect (R168,
R179). -/
def State.issueAt (s : State) (rsv : Bool) (x : Ix) (i : Instr) (act : Ix → State → Res) : Res :=
  match s.waitCheck x with
  | some r => r
  | none =>
    let t := s.waitDone x
    if t.awaits x i then .keep t
    else
      match t.genericFault rsv x i with
      | some r => .raise t r
      | none => act x t

/-- Issue an instruction of warp `cur` for the entry R25 chooses. -/
def State.issue (s : State) (rsv : Bool) (i : Instr) (act : Ix → State → Res) : Host.Outcome State Fault Refusal :=
  match s.pick s.cur i.common.grd with
  | none => .fault .noEntry
  | some x => if !s.mayIssue s.cur then .next s else .next (State.settle x (s.issueAt rsv x i act))

/-- Issue a word that decodes to no instruction: ILLEGAL-OPCODE with a sub-code (R110, R180). -/
def State.issueIllegal (s : State) (op sub : Nat) : Host.Outcome State Fault Refusal :=
  match s.pick s.cur .always with
  | none => .fault .noEntry
  | some x =>
    if !s.mayIssue s.cur then .next s
    else
      match s.waitCheck x with
      | some r => .next (State.settle x r)
      | none => .next ((s.waitDone x).raise x.w x.ent (precise cIllegal x.cp 0 (s.heapSub x.w op sub)))

/-- An accepted irrevocable instruction starts a new restart region at the next slot, for the listed lanes (R334). -/
def State.restart (s : State) (x : Ix) (lanes : List Nat) : State :=
  s.setWarp x.w ((s.warp x.w).restart lanes (nextCp x.cp))

/-- Close the region of the issuing warp (R78). -/
def State.boundary (s : State) (x : Ix) : State := s.setWarp x.w (s.warp x.w).boundary

/-- A write instruction is counted (R90). -/
def State.countWrite (s : State) (x : Ix) : State :=
  if x.lanes.isEmpty then s else s.modWarp x.w fun w => { w with wissue := w.wissue + 1 }

/-- A store of the warp is parked in a side log (R95). -/
def State.storeParked (s : State) (w : Nat) : Bool :=
  s.parked.any fun p => p.warp == w &&
    (match p.kind with
     | .write _ _ org => org == .heap
     | .local _ _ _ _ | .localAtomic _ _ _ _ _ _ _ _ _ => true
     | .copyRead _ _ _ => false)

/-- What a release waits for and takes (R95, R331): none lets it act. -/
def State.releaseCheck (s : State) (x : Ix) : Option Res :=
  if s.storeParked x.w then some (.keep s)
  else
    match (s.warp x.w).drainFaults with
    | [] => none
    | r :: rest => some (.raise (s.modWarp x.w fun w => { w with drainFaults := rest }) { r with rpc := x.cp })

end Sys2Proof.Machine
end

