-- ==== Sys2Proof/Machine/Async.lean ====
section
/-! DEFINITION. Asynchronous operations: acceptance, the flag they hold pending, and completion (R88, R89, R135, R169). -/

namespace Sys2Proof.Machine

/-- The flag that an instruction's `FS` names in the issuing entry's line (R170). -/
def State.fsFlag (s : State) (x : Ix) (c : Common) : Nat :=
  (flagOf (lineWord ((s.warp x.w).entry x.cp).line) c.fs).getD 0

/-- A flag whose counter stands at 15 makes the instruction stall (R169). -/
def State.flagFull (s : State) (w n : Nat) : Bool := 15 ≤ (s.warp w).flag n

/-- The epochs that an accepted operation's accesses leave behind it, with the clock it was given. -/
def opClock (v : Tab Nat) (n : Nat) : Tab Nat := vcJoin v [(partyOfOp n, 1)]

/-- Take the number of an operation: what the warp has done happens before it, what the warp does next does not (R88). -/
def State.takeOp (s : State) (w : Nat) : Nat × Tab Nat × State :=
  let x := s.warp w
  (s.opCtr, x.vcNow w, { s.setWarp w { x with ep := x.ep + 1 } with opCtr := s.opCtr + 1 })

/-- Accept an operation of a warp under a flag (R169). -/
def State.acceptOp (s : State) (x : Ix) (kind : AsyncKind) (flag : Nat) : State :=
  let rsn := (s.warp x.w).rsn
  match s.takeOp x.w with
  | (n, v, t) =>
    let t1 := t.modWarp x.w fun y => y.flagUp flag
    { t1 with ops := tset t1.ops n { warp := x.w, kind := kind, flags := [flag], pc := x.cp, rsn := rsn, vc := v } }

/-- An operation has completed: it leaves the list and its flags are released (R134, R169). -/
def State.finishOp (s : State) (n : Nat) (o : AsyncOp) : State :=
  { s.modWarp o.warp fun w => w.flagsDown (opClock o.vc n) o.flags with ops := terase s.ops n }

/-- A fault of an operation, pending on its flags until a wait reports it (R135). -/
def State.opFault (s : State) (n : Nat) (o : AsyncOp) (code : BitVec 8) (addr : BitVec 48 := 0) (lane : Nat := 0) : State :=
  let fr : FaultRec := { code := code, fpc := o.pc, addr := addr, lane := .ofNat 5 lane }
  s.modWarp o.warp fun w => { w with faults := w.faults ++ [{ flags := o.flags, acc := n, fr := fr }] }

/-- The access of an operation as race detection records it (R89): with the issuing warp's tag and region. -/
def State.opAcc (s : State) (n : Nat) (o : AsyncOp) (write : Bool) : Acc :=
  { party := partyOfOp n, own := partyOfOp n, ep := 0, rsn := o.rsn, write := write, atomic := false
    tag := (s.warp o.warp).tag }

/-- The number of the operation that was accepted last. -/
def State.lastOp (s : State) : Nat := s.opCtr - 1

/-- A word of an engine's command. -/
def EngineCmd.word (c : EngineCmd) (i : Nat) : Nat := (c.words.getD i 0).toNat

end Sys2Proof.Machine
end

