-- ==== Sys2Proof/Machine/Func.lean ====
section
/-! DEFINITION. The correctly rounded functions of R157 on FP32 arguments.  Each is computed in fixed point with a known
error, at growing precision, until both ends of the enclosure round alike (log entry 7). -/

namespace Sys2Proof.Machine

/-- Σ s^k / (n^(2k+1) (2k+1)) at the scale of `pw`, with s = ±1: the arctangent or its hyperbolic twin of 1/n. -/
def fxInvSeries : Nat → Bool → Nat → Nat → Nat → Int
  | 0, _, _, _, _ => 0
  | fuel + 1, alt, n2, k, pw =>
    if pw == 0 then 0
    else
      let t : Int := (pw / (2 * k + 1) : Nat)
      (if alt && k % 2 == 1 then -t else t) + fxInvSeries fuel alt n2 (k + 1) (pw / n2)

/-- ln 2 at q bits. -/
def fxLn2 (q : Nat) : Int :=
  18 * fxInvSeries q false (26 * 26) 0 (2 ^ q / 26) - 2 * fxInvSeries q false (4801 * 4801) 0 (2 ^ q / 4801) +
    8 * fxInvSeries q false (8749 * 8749) 0 (2 ^ q / 8749)

/-- π at q bits. -/
def fxPi (q : Nat) : Int :=
  16 * fxInvSeries q true (5 * 5) 0 (2 ^ q / 5) - 4 * fxInvSeries q true (239 * 239) 0 (2 ^ q / 239)

/-- Product of two fixed-point numbers of q bits, towards zero. -/
def fxMul (q : Nat) (a b : Int) : Int := (a * b).tdiv (2 ^ q : Nat)

/-- Taylor's series of the exponential from term n on. -/
def fxExpSeries : Nat → Nat → Int → Nat → Int → Int
  | 0, _, _, _, _ => 0
  | fuel + 1, q, r, n, t => if t = 0 then 0 else t + fxExpSeries fuel q r (n + 1) ((fxMul q t r).tdiv (n + 1 : Nat))

/-- e^t at q bits, for t at q bits, at most 1. -/
def fxExp (q : Nat) (t : Int) : Int :=
  let l := fxLn2 q
  let k := t / l
  let y := fxExpSeries (q / 4 + 40) q (t - k * l) 0 (2 ^ q : Nat)
  if 0 ≤ k then y * (2 ^ k.toNat : Nat) else y / (2 ^ (-k).toNat : Nat)

/-- The alternating series of sine (from n = 1, t = r) and cosine (from n = 0, t = 1). -/
def fxTrigSeries : Nat → Nat → Int → Nat → Int → Int
  | 0, _, _, _, _ => 0
  | fuel + 1, q, r, n, t =>
    if t = 0 then 0
    else t + fxTrigSeries fuel q r (n + 2) (-(fxMul q (fxMul q t r) r).tdiv ((n + 1) * (n + 2) : Nat))

/-- The function at quadrant k of the argument reduced to [0, π/2). -/
def fxTrig (q : Nat) (x : Int) (quad : Int) : Int :=
  let h := fxPi q / 2
  let k := x / h
  let r := x - k * h
  let fuel := q / 4 + 20
  let s := fxTrigSeries fuel q r 1 r
  let c := fxTrigSeries fuel q r 0 (2 ^ q : Nat)
  match ((k + quad) % 4).toNat with
  | 0 => s
  | 1 => c
  | 2 => -s
  | _ => -c

/-- The series of ln((1 + z) / (1 − z)) / 2. -/
def fxAtanhSeries : Nat → Nat → Int → Nat → Int → Int
  | 0, _, _, _, _ => 0
  | fuel + 1, q, z2, k, pw =>
    if pw = 0 then 0 else pw.tdiv (2 * k + 1 : Nat) + fxAtanhSeries fuel q z2 (k + 1) (fxMul q pw z2)

/-- log2 of m · 2^e at q bits, m positive. -/
def fxLog2 (q m : Nat) (e : Int) : Int :=
  let l := Nat.log2 m
  let y := shiftBy m ((q : Int) - l)
  let big := 3 * 2 ^ q ≤ 2 * y
  let one : Int := (2 ^ q : Nat)
  let y' : Int := y
  let num := if big then y' - 2 * one else y' - one
  let den := if big then y' + 2 * one else y' + one
  let z := (num * one).tdiv den
  let ln := 2 * fxAtanhSeries (q / 4 + 10) q (fxMul q z z) 0 z
  (ln * one).tdiv (fxLn2 q) + (e + l + (if big then 1 else 0)) * one

/-- Σ x · Π r / (2n + 3): the positive series of the error function. -/
def fxErfSeries : Nat → Nat → Int → Nat → Int → Int
  | 0, _, _, _, _ => 0
  | fuel + 1, q, r, n, t => if t = 0 then 0 else t + fxErfSeries fuel q r (n + 1) ((fxMul q t r).tdiv (2 * n + 3 : Nat))

/-- The functions of R157 that are not algebraic. -/
inductive TFun where
  | ex2 | lg2 | sin | cos | tanh | erf | phi | pdf
  deriving DecidableEq, Repr

/-- The function of the finite value (−1)^neg · m · 2^e at p bits, within 4 units, for the arguments that
`TFun.special` leaves. -/
def TFun.approx (f : TFun) (neg : Bool) (m : Nat) (e : Int) (p : Nat) : Int :=
  let q := p + 440
  let one : Int := (2 ^ q : Nat)
  let ax : Int := shiftBy m (e + q)
  let x := if neg then -ax else ax
  let y := match f with
    | .ex2 => fxExp q (fxMul q x (fxLn2 q))
    | .lg2 => fxLog2 q m e
    | .sin => fxTrig q x 0
    | .cos => fxTrig q x 1
    | .tanh =>
      let u := fxExp q (-2 * ax)
      let t := ((one - u) * one).tdiv (one + u)
      if neg then -t else t
    | .erf =>
      let x2 := fxMul q x x
      let s := fxMul q (fxErfSeries (q + 1200) q (2 * x2) 0 x) (fxExp q (-x2))
      (2 * s * one).tdiv (isqrt ((fxPi q).toNat * 2 ^ q) : Nat)
    | .phi =>
      let x2 := fxMul q x x
      let s := fxMul q (fxErfSeries (q + 1200) q x2 0 x) (fxExp q (-x2 / 2))
      one / 2 + (s * one).tdiv (isqrt (2 * (fxPi q).toNat * 2 ^ q) : Nat)
    | .pdf =>
      (fxExp q (-(fxMul q x x) / 2) * one).tdiv (isqrt (2 * (fxPi q).toNat * 2 ^ q) : Nat)
  y / (2 ^ 440 : Nat)

/-- Round the enclosure [y − 4, y + 4] at p bits when both ends round alike. -/
def enclosed (f : FpFmt) (md : FpMod) (y : Int) (p : Nat) : Option Nat :=
  let neg := decide (y < 0)
  let a := y.natAbs
  if a ≤ 4 then none
  else
    let lo := f.roundRaw md neg (a - 4) (-(p : Int)) true
    let hi := f.roundRaw md neg (a + 3) (-(p : Int)) true
    if lo == hi then some lo else none

/-- Try growing precisions; the last one decides (log entry 7). -/
def TFun.ziv (f : TFun) (md : FpMod) (neg : Bool) (m : Nat) (e : Int) : List Nat → Nat
  | [] => 0
  | p :: r =>
    let y := f.approx neg m e p
    match enclosed fp32 md y p with
    | some c => c
    | none =>
      if r.isEmpty then fp32.roundRaw md (decide (y < 0)) y.natAbs (-(p : Int)) true else f.ziv md neg m e r

/-- A magnitude between 0 and every positive value of the format. -/
def tiny (md : FpMod) (neg : Bool) : Nat := fp32.roundRaw md neg 1 (-400) false

/-- ±1 less a magnitude below every gap. -/
def nearOne (md : FpMod) (neg : Bool) : Nat := fp32.roundRaw md neg (2 ^ 200 - 1) (-200) true

/-- The magnitude m · 2^e is at least k. -/
def atLeast (m : Nat) (e : Int) (k : Nat) : Bool := !dyLt m e k 0

/-- A finite value that is an integer: the integer. -/
def asInt (neg : Bool) (m : Nat) (e : Int) : Option Int :=
  let n := shiftBy m e
  if dyLt (n : Nat) 0 m e then none else some (if neg then -(n : Int) else n)

/-- The special cases of R157, the exact cases, and arguments whose result lies beyond the format or nearest a limit. -/
def TFun.special (f : TFun) (md : FpMod) (x : FV) : Option Nat :=
  match x with
  | .nan => some fp32.canonNan
  | .inf neg =>
    some (match f with
      | .ex2 => if neg then 0 else fp32.overflow md.sat false
      | .lg2 => if neg then fp32.canonNan else fp32.overflow md.sat false
      | .sin | .cos => fp32.canonNan
      | .tanh | .erf => fp32.round md (.fin neg 1 0)
      | .phi => if neg then 0 else fp32.round md (.fin false 1 0)
      | .pdf => 0)
  | .fin neg m e =>
    match f with
    | .ex2 =>
      if m != 0 && atLeast m e 400 then
        some (if neg then tiny md false else fp32.roundRaw md false 1 400 false)
      else (asInt neg m e).map fun k => fp32.roundRaw md false 1 k false
    | .lg2 =>
      if m == 0 then some (fp32.overflow md.sat true)
      else if neg then some fp32.canonNan
      else if m == 2 ^ Nat.log2 m then some (fp32.round md (.int (e + Nat.log2 m)))
      else none
    | .sin => if m == 0 then some (fp32.signBit neg) else none
    | .cos => if m == 0 then some (fp32.round md (.fin false 1 0)) else none
    | .tanh => if m == 0 then some (fp32.signBit neg) else if atLeast m e 64 then some (nearOne md neg) else none
    | .erf => if m == 0 then some (fp32.signBit neg) else if atLeast m e 16 then some (nearOne md neg) else none
    | .phi =>
      if m == 0 then some (fp32.roundRaw md false 1 (-1) false)
      else if atLeast m e 16 then some (if neg then tiny md false else nearOne md false)
      else none
    | .pdf => if atLeast m e 16 then some (tiny md false) else none

/-- The exact result rounded once (R157). -/
def TFun.eval (f : TFun) (md : FpMod) (x : FV) : Nat :=
  match f.special md x with
  | some c => c
  | none =>
    match x with
    | .fin neg m e => f.ziv md neg m e [160, 320, 640, 1280]
    | _ => 0

end Sys2Proof.Machine
end

