-- ==== Sys2Proof/Machine/Float.lean ====
section
/-! DEFINITION. The floating-point group (R206 to R212). -/

namespace Sys2Proof.Machine

/-- The format of a floating-point operand type and the number of elements in it (R206). -/
def fpOf (t : Ty) : FpFmt × Nat :=
  match t with
  | .f64 => (fp64, 1)
  | .f16x2 => (fp16, 2)
  | .bf16x2 => (bf16, 2)
  | _ => (fp32, 1)

/-- The width of a format in bits. -/
def fpWidth (f : FpFmt) : Nat := 1 + f.eb + f.fb

/-- Element i of n elements of w bits, from a function of the index (R152). -/
def packElems (w n : Nat) (e : Nat → Nat) : Nat :=
  (List.range n).foldl (fun t i => t + e i % 2 ^ w * 2 ^ (w * i)) 0

/-- Apply a function of two codes to each element of two operands (R152). -/
def perElem (t : Ty) (op : FpFmt → Nat → Nat → Nat) (a b : Nat) : Nat :=
  let (f, n) := fpOf t
  let w := fpWidth f
  packElems w n fun i => op f (bits a (w * i) w) (bits b (w * i) w)

/-- `FADD` of two codes (R207). -/
def faddOf (m : BitVec 8) (f : FpFmt) (a b : Nat) : Nat :=
  let md := FpMod.ofMod m
  f.round md (FV.add (md.rnd == .rd) (f.operand md.ftz a) ((f.operand md.ftz b).negIf (modBit m 5)))

/-- `FMUL` of two codes (R207). -/
def fmulOf (m : BitVec 8) (f : FpFmt) (a b : Nat) : Nat :=
  let md := FpMod.ofMod m
  f.round md (FV.mul ((f.operand md.ftz a).negIf (modBit m 4)) (f.operand md.ftz b))

/-- `FFMA` of three codes (R207): one rounding. -/
def ffmaOf (m : BitVec 8) (f : FpFmt) (a b c : Nat) : Nat :=
  let md := FpMod.ofMod m
  let p := FV.mul ((f.operand md.ftz a).negIf (modBit m 4)) (f.operand md.ftz b)
  f.round md (FV.add (md.rnd == .rd) p ((f.operand md.ftz c).negIf (modBit m 5)))

/-- The sign bit of a code. -/
def FpFmt.isNeg (f : FpFmt) (x : Nat) : Bool := bits x (f.eb + f.fb) 1 == 1

/-- a ranks below b, with −0 below +0 (R208). -/
def FpFmt.ranksBelow (f : FpFmt) (a b : Nat) : Bool :=
  (f.decode a).lt (f.decode b) || (f.decode a).eq (f.decode b) && f.isNeg a && !f.isNeg b

/-- `FMIN` and `FMAX` of two codes (R208). -/
def fminmaxOf (mx : Bool) (m : BitVec 8) (f : FpFmt) (a b : Nat) : Nat :=
  let ftz := modBit m 2
  let a := f.flush ftz a
  let b := f.flush ftz b
  match (f.decode a).isNan, (f.decode b).isNan with
  | true, true => f.canonNan
  | true, false => b
  | false, true => a
  | false, false => if mx then (if f.ranksBelow a b then b else a) else if f.ranksBelow b a then b else a

/-- Write a function of two operands, element by element. -/
def fpEff (c : Common) (f : Arith) (op : FpFmt → Nat → Nat → Nat) (x : Ix) (s : State) : State :=
  let w := s.warp x.w
  s.writeD x c.u f.d f.ty.regs fun l => perElem f.ty op (w.arithA f l) (w.arithB f l)

/-- `FADD` (R207). -/
def execFadd (c : Common) (f : Arith) (s : State) : Out :=
  s.issue false (.fadd c f) fun x t => .adv (fpEff c f (faddOf f.mod) x t)

/-- `FMUL` (R207). -/
def execFmul (c : Common) (f : Arith) (s : State) : Out :=
  s.issue false (.fmul c f) fun x t => .adv (fpEff c f (fmulOf f.mod) x t)

/-- `FMIN` (R208). -/
def execFmin (c : Common) (f : Arith) (s : State) : Out :=
  s.issue false (.fmin c f) fun x t => .adv (fpEff c f (fminmaxOf false f.mod) x t)

/-- `FMAX` (R208). -/
def execFmax (c : Common) (f : Arith) (s : State) : Out :=
  s.issue false (.fmax c f) fun x t => .adv (fpEff c f (fminmaxOf true f.mod) x t)

/-- `FFMA` (R207). -/
def ffmaEff (c : Common) (f : RRR) (x : Ix) (s : State) : State :=
  let w := s.warp x.w
  let (fmt, n) := fpOf f.ty
  let k := fpWidth fmt
  s.writeD x c.u f.d f.ty.regs fun l =>
    packElems k n fun i =>
      let e (o : Opd) : Nat := bits (w.opd o f.ty.regs l) (k * i) k
      ffmaOf f.mod fmt (e f.a) (e f.b) (e f.c)

/-- `FFMA` (R207). -/
def execFfma (c : Common) (f : RRR) (s : State) : Out := s.issue false (.ffma c f) fun x t => .adv (ffmaEff c f x t)

/-- The comparison of a `CMP` code of `FSETP` (R209). -/
def cmpFp (code : Nat) (a b : FV) : Bool :=
  let nan := a.isNan || b.isNan
  match code with
  | 0 => a.eq b
  | 1 => !a.eq b
  | 2 => a.lt b
  | 3 => a.lt b || a.eq b
  | 4 => b.lt a
  | 5 => b.lt a || a.eq b
  | 6 => !nan
  | _ => nan

/-- `FSETP` (R209). -/
def fsetpEff (c : Common) (f : Arith) (x : Ix) (s : State) : State :=
  let w := s.warp x.w
  let fmt := (fpOf f.ty).1
  let ftz := modBit f.mod 2
  s.writeP x c.u f.pd fun l =>
    cmpFp (modBits f.mod 4 3) (fmt.operand ftz (w.arithA f l)) (fmt.operand ftz (w.arithB f l))

/-- `FSETP` (R209). -/
def execFsetp (c : Common) (f : Arith) (s : State) : Out := s.issue false (.fsetp c f) fun x t => .adv (fsetpEff c f x t)

/-- Write a correctly rounded function of operands `A` and `B` (R210). -/
def funEff (c : Common) (f : RRR) (op : FpFmt → FpMod → FV → FV → Nat) (x : Ix) (s : State) : State :=
  let w := s.warp x.w
  let fmt := (fpOf f.ty).1
  let md := FpMod.ofMod f.mod
  s.writeD x c.u f.d f.ty.regs fun l =>
    op fmt md (fmt.operand md.ftz (w.opd f.a f.ty.regs l)) (fmt.operand md.ftz (w.opd f.b f.ty.regs l))

/-- `FDIV` (R210). -/
def execFdiv (c : Common) (f : RRR) (s : State) : Out :=
  s.issue false (.fdiv c f) fun x t => .adv (funEff c f FpFmt.div x t)

/-- `FSQRT` (R210). -/
def execFsqrt (c : Common) (f : RRR) (s : State) : Out :=
  s.issue false (.fsqrt c f) fun x t => .adv (funEff c f (fun k md a _ => k.sqrt md a) x t)

/-- `FRCP` (R210). -/
def execFrcp (c : Common) (f : RRR) (s : State) : Out :=
  s.issue false (.frcp c f) fun x t => .adv (funEff c f (fun k md a _ => k.div md (.fin false 1 0) a) x t)

/-- `FRSQ` (R210). -/
def execFrsq (c : Common) (f : RRR) (s : State) : Out :=
  s.issue false (.frsq c f) fun x t => .adv (funEff c f (fun k md a _ => k.rsqrt md a) x t)

/-- Write one of the FP32 functions of R157. -/
def tfunEff (c : Common) (f : RRR) (g : TFun) (x : Ix) (s : State) : State := funEff c f (fun _ md a _ => g.eval md a) x s

/-- `FEX2` (R210). -/
def execFex2 (c : Common) (f : RRR) (s : State) : Out := s.issue false (.fex2 c f) fun x t => .adv (tfunEff c f .ex2 x t)

/-- `FLG2` (R210). -/
def execFlg2 (c : Common) (f : RRR) (s : State) : Out := s.issue false (.flg2 c f) fun x t => .adv (tfunEff c f .lg2 x t)

/-- `FSIN` (R210). -/
def execFsin (c : Common) (f : RRR) (s : State) : Out := s.issue false (.fsin c f) fun x t => .adv (tfunEff c f .sin x t)

/-- `FCOS` (R210). -/
def execFcos (c : Common) (f : RRR) (s : State) : Out := s.issue false (.fcos c f) fun x t => .adv (tfunEff c f .cos x t)

/-- `FTANH` (R210). -/
def execFtanh (c : Common) (f : RRR) (s : State) : Out :=
  s.issue false (.ftanh c f) fun x t => .adv (tfunEff c f .tanh x t)

/-- `FERF` (R210). -/
def execFerf (c : Common) (f : RRR) (s : State) : Out := s.issue false (.ferf c f) fun x t => .adv (tfunEff c f .erf x t)

/-- The number of the class bit of a code (R211). -/
def FpFmt.cls (f : FpFmt) (x : Nat) : Nat :=
  let neg := f.isNeg x
  let ex := bits x f.fb f.eb
  let fr := bits x 0 f.fb
  if ex == 2 ^ f.eb - 1 then (if fr == 0 then (if neg then 0 else 7) else if bits fr (f.fb - 1) 1 == 1 then 9 else 8)
  else if ex == 0 then (if fr == 0 then (if neg then 3 else 4) else if neg then 2 else 5)
  else if neg then 1 else 6

/-- `FCLASS` (R211). -/
def fclassEff (c : Common) (f : RRR) (x : Ix) (s : State) : State :=
  let w := s.warp x.w
  s.writeD x c.u f.d 1 fun l => 2 ^ (fpOf f.ty).1.cls (w.opd f.a f.ty.regs l)

/-- `FCLASS` (R211). -/
def execFclass (c : Common) (f : RRR) (s : State) : Out := s.issue false (.fclass c f) fun x t => .adv (fclassEff c f x t)

/-- `FSCALE` (R212).  A power beyond ±4096 takes every FP32 and FP64 value out of range as ±4096 does. -/
def fscaleOf (f : FpFmt) (md : FpMod) (a : FV) (n : Int) : Nat := f.round md (a.scale (max (-4096) (min 4096 n)))

/-- `FSCALE` (R212). -/
def fscaleEff (c : Common) (f : RRR) (x : Ix) (s : State) : State :=
  let w := s.warp x.w
  let fmt := (fpOf f.ty).1
  let md := FpMod.ofMod f.mod
  s.writeD x c.u f.d f.ty.regs fun l =>
    fscaleOf fmt md (fmt.operand md.ftz (w.opd f.a f.ty.regs l)) (w.opdS f.b l)

/-- `FSCALE` (R212). -/
def execFscale (c : Common) (f : RRR) (s : State) : Out := s.issue false (.fscale c f) fun x t => .adv (fscaleEff c f x t)

end Sys2Proof.Machine
end

