-- ==== Sys2Proof/Machine/Integer.lean ====
section
/-! DEFINITION. The integer group (R201 to R205). -/

namespace Sys2Proof.Machine

/-- The width of an integer type in bits. -/
def tyWidth (t : Ty) : Nat := 32 * t.regs

/-- The type is signed. -/
def tySigned (t : Ty) : Bool := t == .s32 || t == .s64

/-- A value of n bits read as signed or unsigned (R202). -/
def readInt (sgn : Bool) (n x : Nat) : Int := if sgn then signed n x else (x % 2 ^ n : Nat)

/-- The bits of a value read as an integer of a type (R202). -/
def tyInt (t : Ty) (x : Nat) : Int := readInt (tySigned t) (tyWidth t) x

/-- wrap(x) as the bits of a type (R202). -/
def wrapTy (t : Ty) (x : Int) : Nat := unsigned (tyWidth t) x

/-- clamp(x) as the bits of a type (R202). -/
def clampTy (t : Ty) (x : Int) : Nat := unsigned (tyWidth t) (clampInt (tySigned t) (tyWidth t) x)

/-- x lies outside the range of the type: carry, borrow or signed overflow (R202). -/
def tyOut (t : Ty) (x : Int) : Bool := outOfRange (tySigned t) (tyWidth t) x

/-- Write a function of two integer operands. -/
def arithEff (c : Common) (f : Arith) (op : Int → Int → Nat) (x : Ix) (s : State) : State :=
  let w := s.warp x.w
  s.writeD x c.u f.d f.ty.regs fun l => op (tyInt f.ty (w.arithA f l)) (tyInt f.ty (w.arithB f l))

/-- Write an exact sum or difference, wrapped or clamped, and its carry, borrow or overflow (R202). -/
def sumEff (c : Common) (f : Arith) (op : Int → Int → Int) (x : Ix) (s : State) : State :=
  let w := s.warp x.w
  let v (l : Nat) : Int := op (tyInt f.ty (w.arithA f l)) (tyInt f.ty (w.arithB f l))
  (s.writeD x c.u f.d f.ty.regs fun l => if modBit f.mod 0 then clampTy f.ty (v l) else wrapTy f.ty (v l)).writeP x c.u f.pd
    fun l => tyOut f.ty (v l)

/-- `IADD` (R202). -/
def execIadd (c : Common) (f : Arith) (s : State) : Out :=
  s.issue false (.iadd c f) fun x t => .adv (sumEff c f (· + ·) x t)

/-- `ISUB` (R202). -/
def execIsub (c : Common) (f : Arith) (s : State) : Out :=
  s.issue false (.isub c f) fun x t => .adv (sumEff c f (· - ·) x t)

/-- `IMUL` (R202). -/
def execImul (c : Common) (f : Arith) (s : State) : Out :=
  s.issue false (.imul c f) fun x t => .adv (arithEff c f (fun a b => wrapTy f.ty (a * b)) x t)

/-- `IMULH` (R202). -/
def execImulh (c : Common) (f : Arith) (s : State) : Out :=
  s.issue false (.imulh c f) fun x t => .adv (arithEff c f (fun a b => wrapTy f.ty (a * b / (2 ^ tyWidth f.ty : Nat))) x t)

/-- `IMAD` (R202). -/
def imadEff (c : Common) (f : RRR) (x : Ix) (s : State) : State :=
  let w := s.warp x.w
  let v (o : Opd) (l : Nat) : Int := tyInt f.ty (w.opd o f.ty.regs l)
  s.writeD x c.u f.d f.ty.regs fun l => wrapTy f.ty (v f.a l * v f.b l + v f.c l)

/-- `IMAD` (R202). -/
def execImad (c : Common) (f : RRR) (s : State) : Out := s.issue false (.imad c f) fun x t => .adv (imadEff c f x t)

/-- `IMADW` (R202): 32-bit factors, a 64-bit addend of the same signedness, a 64-bit result. -/
def imadwEff (c : Common) (f : RRR) (x : Ix) (s : State) : State :=
  let w := s.warp x.w
  let sg := tySigned f.ty
  s.writeD x c.u f.d 2 fun l =>
    unsigned 64 (readInt sg 32 (w.opd f.a 1 l) * readInt sg 32 (w.opd f.b 1 l) + readInt sg 64 (w.opd f.c 2 l))

/-- `IMADW` (R202). -/
def execImadw (c : Common) (f : RRR) (s : State) : Out := s.issue false (.imadw c f) fun x t => .adv (imadwEff c f x t)

/-- Quotient and remainder, truncated towards zero (R203). -/
def divRem (t : Ty) (a b : Int) : Int × Int :=
  if b = 0 then (-1, a)
  else if tySigned t && a = -(2 ^ (tyWidth t - 1) : Nat) && b = -1 then (a, 0)
  else (a.tdiv b, a - a.tdiv b * b)

/-- `IDIV` (R203). -/
def execIdiv (c : Common) (f : Arith) (s : State) : Out :=
  s.issue false (.idiv c f) fun x t => .adv (arithEff c f (fun a b => wrapTy f.ty (divRem f.ty a b).1) x t)

/-- `IREM` (R203). -/
def execIrem (c : Common) (f : Arith) (s : State) : Out :=
  s.issue false (.irem c f) fun x t => .adv (arithEff c f (fun a b => wrapTy f.ty (divRem f.ty a b).2) x t)

/-- `IMIN` (R202). -/
def execImin (c : Common) (f : Arith) (s : State) : Out :=
  s.issue false (.imin c f) fun x t => .adv (arithEff c f (fun a b => wrapTy f.ty (if a ≤ b then a else b)) x t)

/-- `IMAX` (R202). -/
def execImax (c : Common) (f : Arith) (s : State) : Out :=
  s.issue false (.imax c f) fun x t => .adv (arithEff c f (fun a b => wrapTy f.ty (if b ≤ a then a else b)) x t)

/-- Write a function of operand `A` alone, n registers from m. -/
def unaryEff (c : Common) (f : RRR) (n m : Nat) (op : Nat → Nat) (x : Ix) (s : State) : State :=
  let w := s.warp x.w
  s.writeD x c.u f.d n fun l => op (w.opd f.a m l)

/-- `IABS` (R202). -/
def absOf (f : RRR) (a : Nat) : Nat :=
  let v : Int := (tyInt f.ty a).natAbs
  if modBit f.mod 0 then clampTy f.ty v else wrapTy f.ty v

/-- `IABS` (R202). -/
def execIabs (c : Common) (f : RRR) (s : State) : Out :=
  s.issue false (.iabs c f) fun x t => .adv (unaryEff c f f.ty.regs f.ty.regs (absOf f) x t)

/-- A number from its low n bits, bit i given by a function. -/
def ofBits (n : Nat) (p : Nat → Bool) : Nat := (List.range n).foldl (fun t i => if p i then t + 2 ^ i else t) 0

/-- The lookup of `LOGT` for n bits (R204). -/
def lutOf (n : Nat) (lut : BitVec 8) (a b c : Nat) : Nat :=
  ofBits n fun i => lut.getLsbD (bits a i 1 + 2 * bits b i 1 + 4 * bits c i 1)

/-- `LOGT` (R204). -/
def logtEff (c : Common) (f : RRR) (x : Ix) (s : State) : State :=
  let w := s.warp x.w
  let v (o : Opd) (l : Nat) : Nat := w.opd o f.ty.regs l
  s.writeD x c.u f.d f.ty.regs fun l => lutOf (tyWidth f.ty) f.mod (v f.a l) (v f.b l) (v f.c l)

/-- `LOGT` (R204). -/
def execLogt (c : Common) (f : RRR) (s : State) : Out := s.issue false (.logt c f) fun x t => .adv (logtEff c f x t)

/-- The amount of `SHL` and `SHR` (R204). -/
def shiftAmount (f : Arith) (n : Nat) : Nat := if modBit f.mod 0 then n % tyWidth f.ty else n

/-- `SHL` (R204). -/
def shlOf (t : Ty) (a n : Nat) : Nat := if tyWidth t ≤ n then 0 else a * 2 ^ n % 2 ^ tyWidth t

/-- `SHR` (R204). -/
def shrOf (t : Ty) (a n : Nat) : Nat :=
  if tySigned t then wrapTy t (tyInt t a / (2 ^ min n (tyWidth t - 1) : Nat))
  else if tyWidth t ≤ n then 0 else a / 2 ^ n

/-- Write a shift of `A`. -/
def shiftEff (c : Common) (f : Arith) (op : Ty → Nat → Nat → Nat) (x : Ix) (s : State) : State :=
  let w := s.warp x.w
  s.writeD x c.u f.d f.ty.regs fun l => op f.ty (w.arithA f l) (shiftAmount f (w.arithAmount f l))

/-- `SHL` (R204). -/
def execShl (c : Common) (f : Arith) (s : State) : Out := s.issue false (.shl c f) fun x t => .adv (shiftEff c f shlOf x t)

/-- `SHR` (R204). -/
def execShr (c : Common) (f : Arith) (s : State) : Out := s.issue false (.shr c f) fun x t => .adv (shiftEff c f shrOf x t)

/-- `SHP` (R204): one half of a shift of the pair `A`:`B`. -/
def shpOf (m : BitVec 8) (a b c : Nat) : Nat :=
  let n := if modBit m 1 then min c 64 else c % 64
  let y := a * 2 ^ 32 + b
  let z := if modBit m 0 then y * 2 ^ n % 2 ^ 64 else y / 2 ^ n
  if modBit m 2 then z / 2 ^ 32 else z % 2 ^ 32

/-- `SHP` (R204). -/
def shpEff (c : Common) (f : RRR) (x : Ix) (s : State) : State :=
  let w := s.warp x.w
  s.writeD x c.u f.d 1 fun l => shpOf f.mod (w.opd f.a 1 l) (w.opd f.b 1 l) (w.opd f.c 1 l)

/-- `SHP` (R204). -/
def execShp (c : Common) (f : RRR) (s : State) : Out := s.issue false (.shp c f) fun x t => .adv (shpEff c f x t)

/-- The number of ones in the low n bits. -/
def popcOf (n a : Nat) : Nat := ((List.range n).filter fun i => bits a i 1 == 1).length

/-- `POPC` (R204). -/
def execPopc (c : Common) (f : RRR) (s : State) : Out :=
  s.issue false (.popc c f) fun x t => .adv (unaryEff c f 1 f.ty.regs (popcOf (tyWidth f.ty)) x t)

/-- The zero bits above the highest one of n bits; n for 0 (R204). -/
def clzOf (n a : Nat) : Nat := if a == 0 then n else n - 1 - Nat.log2 a

/-- `CLZ` (R204). -/
def execClz (c : Common) (f : RRR) (s : State) : Out :=
  s.issue false (.clz c f) fun x t => .adv (unaryEff c f 1 f.ty.regs (clzOf (tyWidth f.ty)) x t)

/-- The low n bits in reverse order. -/
def revOf (n a : Nat) : Nat := ofBits n fun i => bits a (n - 1 - i) 1 == 1

/-- `BREV` (R204). -/
def execBrev (c : Common) (f : RRR) (s : State) : Out :=
  s.issue false (.brev c f) fun x t => .adv (unaryEff c f f.ty.regs f.ty.regs (revOf (tyWidth f.ty)) x t)

/-- `BFE` (R204): bits above the width read as the sign for S types and 0 for N types. -/
def bfeOf (t : Ty) (a b c : Nat) : Nat :=
  let w := tyWidth t
  let p := b % 256
  let n := min (c % 256) w
  if n = 0 then 0
  else
    let v := unsigned n (tyInt t a / (2 ^ p : Nat))
    if tySigned t then wrapTy t (signed n v) else v

/-- `BFE` (R204). -/
def bfeEff (c : Common) (f : RRR) (x : Ix) (s : State) : State :=
  let w := s.warp x.w
  s.writeD x c.u f.d f.ty.regs fun l => bfeOf f.ty (w.opd f.a f.ty.regs l) (w.opd f.b 1 l) (w.opd f.c 1 l)

/-- `BFE` (R204). -/
def execBfe (c : Common) (f : RRR) (s : State) : Out := s.issue false (.bfe c f) fun x t => .adv (bfeEff c f x t)

/-- `BFI` (R204). -/
def bfiOf (w a b c : Nat) : Nat :=
  let p := b % 256
  let n := min (b / 256 % 256) w
  ofBits w fun i => if p ≤ i && i < p + n then bits a (i - p) 1 == 1 else bits c i 1 == 1

/-- `BFI` (R204). -/
def bfiEff (c : Common) (f : RRR) (x : Ix) (s : State) : State :=
  let w := s.warp x.w
  s.writeD x c.u f.d f.ty.regs fun l =>
    bfiOf (tyWidth f.ty) (w.opd f.a f.ty.regs l) (w.opd f.b 1 l) (w.opd f.c f.ty.regs l)

/-- `BFI` (R204). -/
def execBfi (c : Common) (f : RRR) (s : State) : Out := s.issue false (.bfi c f) fun x t => .adv (bfiEff c f x t)

/-- The comparison of a `CMP` code (R205). -/
def cmpInt (code : Nat) (a b : Int) : Bool :=
  match code with
  | 0 => a == b
  | 1 => a != b
  | 2 => a < b
  | 3 => a ≤ b
  | 4 => a > b
  | _ => a ≥ b

/-- `ISETP` (R205). -/
def isetpEff (c : Common) (f : Arith) (x : Ix) (s : State) : State :=
  let w := s.warp x.w
  s.writeP x c.u f.pd fun l =>
    cmpInt (modBits f.mod 0 3) (tyInt f.ty (w.arithA f l)) (tyInt f.ty (w.arithB f l))

/-- `ISETP` (R205). -/
def execIsetp (c : Common) (f : Arith) (s : State) : Out := s.issue false (.isetp c f) fun x t => .adv (isetpEff c f x t)

/-- `SEL` (R205): the uniform form reads the predicate in the lowest participating lane. -/
def selEff (c : Common) (f : RRR) (x : Ix) (s : State) : State :=
  let w := s.warp x.w
  s.writeD x c.u f.d f.ty.regs fun l =>
    if w.rp (modBits f.mod 0 3) l != modBit f.mod 3 then w.opd f.a f.ty.regs l else w.opd f.b f.ty.regs l

/-- `SEL` (R205). -/
def execSel (c : Common) (f : RRR) (s : State) : Out := s.issue false (.sel c f) fun x t => .adv (selEff c f x t)

/-- `LEA` (R205). -/
def leaEff (c : Common) (f : RRR) (x : Ix) (s : State) : State :=
  let w := s.warp x.w
  s.writeD x c.u f.d f.ty.regs fun l =>
    (w.opd f.a f.ty.regs l + w.opd f.b f.ty.regs l * 2 ^ modBits f.mod 0 3) % 2 ^ tyWidth f.ty

/-- `LEA` (R205). -/
def execLea (c : Common) (f : RRR) (s : State) : Out := s.issue false (.lea c f) fun x t => .adv (leaEff c f x t)

/-- A predicate that a field of `PLOGT` names: index in bits [2:0], negation in bit [3] (R205). -/
def Warp.predField (w : Warp) (o : Opd) (l : Nat) : Bool := w.rp (bits o.code 0 3) l != (bits o.code 3 1 == 1)

/-- `PLOGT` (R205).  The uniform form reads its predicates from the lowest participating lane, as `SEL` does (log entry 86). -/
def plogtEff (c : Common) (f : RRR) (x : Ix) (s : State) : State :=
  let w := s.warp x.w
  let v (o : Opd) (l : Nat) : Nat := (w.predField o l).toNat
  s.writeP x c.u f.pd fun l => f.mod.getLsbD (v f.a l + 2 * v f.b l + 4 * v f.c l)

/-- `PLOGT` (R205). -/
def execPlogt (c : Common) (f : RRR) (s : State) : Out := s.issue false (.plogt c f) fun x t => .adv (plogtEff c f x t)

end Sys2Proof.Machine
end

