-- ==== Sys2Proof/Machine/Memory.lean ====
section
/-! DEFINITION. Loads, stores and atomics through bounded registers, and the spill stack (R221 to R230). -/

namespace Sys2Proof.Machine

/-- A local offset as a fault record and the error log report it. -/
def offOf (sp : Space) (key : Nat) : Nat :=
  match sp with
  | .shared => key % 2 ^ 19
  | .plinth => key % 2 ^ 31

/-- The effective address of a lane (R60, R221), exact. -/
def Warp.ea (w : Warp) (f : FM) (n l : Nat) : Int :=
  (w.rb f.bx.toNat).ptr.toNat + f.off.toInt + w.opdS f.idx l * (if modBit f.mod 0 then n else 1)

/-- The lanes that access and their addresses: one access in the uniform form (R222). -/
def State.eas (s : State) (x : Ix) (f : FM) (u : Bool) (n : Nat) : List (Nat × Int) :=
  (x.targets u).map fun l => (l, (s.warp x.w).ea f n l)

/-- The fault of the checks of R60 for an instruction of the warp. -/
def State.memFault (s : State) (x : Ix) (k : Bounded) (need : Need) (n : Nat) (eas : List (Nat × Int)) :
    Option FaultRec :=
  (s.boundFault (s.wblk x.w) k need n true eas).map fun (code, l, a) => precise code x.cp l 0 (eaWord a)

/-- What stands in the way of an access to window chunks (R67, R326). -/
inductive FillNeed where
  /-- every chunk touched is filled -/
  | filled
  /-- fills have been asked for: the access stalls -/
  | wait (s : State)
  /-- the fills of these (window, chunk) pairs have faulted and their pages are requested -/
  | absent (l : List (Nat × Nat))

/-- The fill of a chunk has faulted and its page is requested, or a store that its replay fills the chunk for is set aside
(R326, R328, R329). -/
def State.chunkAsked (s : State) (i chunk : Nat) : Bool := (s.window i).faulted.contains chunk || s.chunkLogged i chunk

/-- The memory requests of a core that are outstanding (R5): of the commands and the window fills of its warps to peers and to its
map unit.  Those of its heap port are complete within a step (log entry 87). -/
def State.coreRequests (s : State) (core : Nat) : Nat :=
  let on (w : Nat) : Bool := (s.wblk w).core == core
  s.chans.foldl (fun t (_, h) => (h.queue.filter fun k => on k.warp).foldl (fun n k => n + k.peers.length) t)
    (s.clusters.foldl (fun t (_, k) => t + (k.fills.filter fun (w, _, _) => on w).length) 0)

/-- How many more requests the core of a warp may have outstanding (R5). -/
def State.requestRoom (s : State) (w : Nat) : Nat := Config.coreRequests - s.coreRequests (s.wblk w).core

/-- Ask the map unit of the warp's cluster for fills (R67), as many as the core has requests for (R5). -/
def State.askFill (s : State) (w : Nat) (l : List (Nat × Nat)) : State :=
  let room := s.requestRoom w
  s.modCluster (s.wcluster w) fun c =>
    { c with fills := c.fills ++
        ((l.filter fun (i, k) => !c.fills.any fun (_, j, m) => i == j && k == m).take room).map fun (i, k) => (w, i, k) }

/-- The fills an access of n bytes at keys needs. -/
def State.fillNeed (s : State) (w : Nat) (keys : List Nat) (n : Nat) : FillNeed :=
  if s.windows.isEmpty then .filled
  else
    let l := s.unfilled keys n
    let fresh := l.filter fun (i, k) => !s.chunkAsked i k
    if l.isEmpty then .filled else if fresh.isEmpty then .absent l else .wait (s.askFill w fresh)

/-- An access through a bounded register up to its fills (R224): `act` receives the space, each lane's key and the chunks
whose fills have faulted. -/
def State.access (s : State) (x : Ix) (f : FM) (u : Bool) (need : Need) (n : Nat)
    (act : Space → List (Nat × Nat) → List (Nat × Nat) → State → Res) : Res :=
  let k := (s.warp x.w).rb f.bx.toNat
  let eas := s.eas x f u n
  match s.memFault x k need n eas with
  | some r => .raise s r
  | none =>
    match k.sp with
    | none => act .shared [] [] s
    | some sp =>
      let keys := eas.map fun (l, a) => (l, s.keyOf x.w sp a.toNat)
      match (if sp == .plinth then s.fillNeed x.w (keys.map (·.2)) n else .filled) with
      | .filled => act sp keys [] s
      | .wait u => .keep u
      | .absent l => act sp keys l s

/-- The lanes block until the page of a chunk is replayed (R23, R326). -/
def State.blockOnChunk (s : State) (x : Ix) (l : List (Nat × Nat)) : Res :=
  let (i, k) := l.headD (0, 0)
  s.blockOn x (.fillPage (s.window i).ctx ((s.window i).page k))

/-- A race as a precise fault reports it (R82, R343). -/
def raceFault (x : Ix) (sp : Space) (l key : Nat) (a : Acc) : FaultRec :=
  { precise 0x18 x.cp l 0 (.ofNat 48 (offOf sp key)) with otag := a.tag, seq := a.rsn }

/-- The races of the lanes' accesses: lane, key and the first party's access (R82).  `wr` says which lanes write. -/
def State.racesOf (s : State) (x : Ix) (sp : Space) (n : Nat) (keys : List (Nat × Nat)) (wr : Nat → Bool) (atomic : Bool) :
    List (Nat × Nat × Acc) :=
  let v := (s.warp x.w).vc
  keys.filterMap fun (l, key) => (s.raceAt sp key n (partyOfWarp x.w) v (wr l) atomic).map fun a => (l, key, a)

/-- The error-log record of a race of a warp (R84, R377). -/
def State.logRaces (s : State) (x : Ix) (sp : Space) : List (Nat × Nat × Acc) → State
  | [] => s
  | (l, key, a) :: r =>
    let rec0 : LogRec := { s.recOf x.w 0x03 with lane := l, pc := x.cp.toNat }
    (s.logRace rec0 a (offOf sp key)).logRaces x sp r

/-- POISON of a lane's access to a granule whose race metadata is poisoned (R375). -/
def State.metaFault (s : State) (x : Ix) (sp : Space) (n : Nat) (keys : List (Nat × Nat)) : Option FaultRec :=
  (keys.find? fun (_, key) => s.metaPoison sp key n).map fun (l, key) => precise 0x16 x.cp l 0 (.ofNat 48 (offOf sp key))

/-- RACE under the launch's policy (R84), and POISON of the race metadata (R375): the fault, or the state that has logged
the races. -/
def State.raceCheck (s : State) (x : Ix) (sp : Space) (n : Nat) (keys : List (Nat × Nat)) (wr : Nat → Bool)
    (atomic : Bool) : Except FaultRec State :=
  let go (t : State) : Except FaultRec State :=
    match s.metaFault x sp n keys with
    | some r => .error r
    | none => .ok t
  match s.racesOf x sp n keys wr atomic with
  | [] => go s
  | (l, key, a) :: r =>
    if (s.wgrid x.w).raceLog then go (s.logRaces x sp ((l, key, a) :: r)) else .error (raceFault x sp l key a)

/-- The first lane that loads a poisoned byte (R224, R375). -/
def State.poisonFault (s : State) (x : Ix) (sp : Space) (n : Nat) (keys : List (Nat × Nat)) : Option FaultRec :=
  (keys.find? fun (_, key) => s.localPoison sp key n).map fun (l, key) => precise 0x16 x.cp l 0 (.ofNat 48 (offOf sp key))

/-- Record the lanes' accesses (R82). -/
def State.recordAll (s : State) (sp : Space) (n : Nat) (acc : Nat → Acc) : List (Nat × Nat) → State
  | [] => s
  | (l, key) :: r => (s.recordAcc sp key n (acc l)).recordAll sp n acc r

/-- What a load writes to its register (R223). -/
def loadVal (t : Ty) (x : Nat) : Nat :=
  match t with
  | .s8 => unsigned 32 (signed 8 x)
  | .s16 => unsigned 32 (signed 16 x)
  | _ => x

/-- The checks of a load once its chunks are filled: RACE, then POISON (R224). -/
def State.loadChecks (s : State) (x : Ix) (sp : Space) (n : Nat) (keys : List (Nat × Nat)) : Except (State × FaultRec) State :=
  match s.raceCheck x sp n keys (fun _ => false) false with
  | .error r => .error (s, r)
  | .ok s1 =>
    match s1.poisonFault x sp n keys with
    | some r => .error (s1, r)
    | none => .ok s1

/-- A load's accesses are on record (R82). -/
def State.loadRecord (s : State) (x : Ix) (sp : Space) (n : Nat) (keys : List (Nat × Nat)) : State :=
  s.recordAll sp n (fun _ => s.accOf x.w false false) keys

/-- `LD` once its chunks are filled (R225). -/
def loadAct (c : Common) (f : FM) (x : Ix) (sp : Space) (keys : List (Nat × Nat)) (s : State) : Res :=
  let n := f.ty.bytes
  match s.loadChecks x sp n keys with
  | .error (t, r) => .raise t r
  | .ok t =>
    .adv ((t.loadRecord x sp n keys).writeD x c.u f.r f.ty.regs fun l => loadVal f.ty (t.getLocal sp (tget 0 keys l) n))

/-- `LD` (R225). -/
def execLd (c : Common) (f : FM) (s : State) : Out :=
  s.issue false (.ld c f) fun x t =>
    t.access x f c.u .load f.ty.bytes fun sp keys absent u =>
      if absent.isEmpty then loadAct c f x sp keys u else u.blockOnChunk x absent

/-- The chunk of the listed ones that a key lies in. -/
def State.chunkAt (s : State) (l : List (Nat × Nat)) (key : Nat) : Option (Nat × Nat) :=
  l.find? fun (i, k) => (s.window i).base + 4096 * k ≤ key && key < (s.window i).base + 4096 * k + 4096

/-- A side-log entry of a store or reduction into an unfilled chunk (R326). -/
def State.localEntry (s : State) (x : Ix) (i k : Nat) (kind : ParkedKind) : Parked :=
  { ctx := (s.window i).ctx, page := (s.window i).page k, unit := .mapUnit (s.wcluster x.w), kind := kind, warp := x.w
    pc := x.cp, wno := (s.warp x.w).wissue.toNat }

/-- Set aside listed entries; their pages are requested. -/
def State.parkAll (s : State) : List Parked → State
  | [] => s
  | p :: r => (s.park p).parkAll r

/-- The side-log entries, of one 64-byte sector each, for bytes that fall into the listed chunks (R327). -/
def State.storeEntries (s : State) (x : Ix) (l : List (Nat × Nat)) (bytes : List (Nat × Byte)) : List Parked :=
  let sec := (bytes.map fun (a, _) => a / 64).eraseDups
  sec.filterMap fun q =>
    (s.chunkAt l (64 * q)).map fun (i, k) =>
      s.localEntry x i k (.local i k (64 * q) (bytes.filter fun (a, _) => a / 64 == q))

/-- A flush of the warp has still to read a sector that the bytes fall into (R68). -/
def State.flushHolds (s : State) (w : Nat) (bytes : List (Nat × Byte)) : Bool :=
  !s.windows.isEmpty && s.ops.any fun (_, o) => o.warp == w &&
    (match o.kind with
     | .wflush rest => rest.any fun (i, offs) => offs.any fun p => bytes.any fun (a, _) =>
         a / 64 == ((s.window i).base + p) / 64
     | _ => false)

/-- A store of n bytes for each lane once its fills are asked for: RACE, then the store; bytes for a chunk whose fill has faulted are set aside, and
the warp goes on, unless the side log is full (R225, R326, R327). -/
def storeAct (n : Nat) (val : Nat → Nat) (x : Ix) (sp : Space) (keys l : List (Nat × Nat)) (s : State) : Res :=
  match s.raceCheck x sp n keys (fun _ => true) false with
  | .error r => .raise s r
  | .ok s1 =>
    let bytes := keys.flatMap fun (k, key) => addrs key (bytesOf n (val k))
    let s2 := (s1.recordAll sp n (fun _ => s1.accOf x.w true false) keys).countWrite x
    let entries := if l.isEmpty then [] else s2.storeEntries x l bytes
    if s2.flushHolds x.w bytes || !entries.isEmpty && !s2.logRoom (.mapUnit (s2.wcluster x.w)) entries.length then .keep s
    else
      .adv ((s2.putLocal sp (if l.isEmpty then bytes else bytes.filter fun (a, _) => (s2.chunkAt l a).isNone)).parkAll
        entries)

/-- `ST` (R225). -/
def execSt (c : Common) (f : FM) (s : State) : Out :=
  s.issue false (.st c f) fun x t => t.access x f c.u .store f.ty.bytes fun sp keys l u =>
      storeAct f.ty.bytes (fun k => (t.warp x.w).opd f.r f.ty.regs k) x sp keys l u

/-! ### Atomics -/

/-- The new value of an atomic operation (R226), on n-byte codes of its type. -/
def atomNew (opc : Nat) (t : Ty) (old c : Nat) : Nat :=
  let fp := [Ty.f32, .f64, .f16x2, .bf16x2].contains t
  match opc with
  | 3 => if fp then perElem t (faddOf 0) old c else wrapTy t (tyInt t old + tyInt t c)
  | 4 => if fp then perElem t (fminmaxOf false 0) old c else if tyInt t old ≤ tyInt t c then old else c
  | 5 => if fp then perElem t (fminmaxOf true 0) old c else if tyInt t c ≤ tyInt t old then old else c
  | 6 => old &&& c
  | 7 => old ||| c
  | 8 => old ^^^ c
  | _ => c

/-- The new value of an atomic update from the old one: none leaves the word; a compare-and-swap expects a value (R226, R227). -/
def atomStep (opc : Nat) (t : Ty) (cmp : Option Nat) (c old : Nat) : Option Nat :=
  match cmp with
  | some k => if old == k then some c else none
  | none => if opc == 0 then none else some (atomNew opc t old c)

/-- What one lane of an atomic did: its lane, key, old value and whether it wrote. -/
structure AtomLane where
  lane : Nat
  key : Nat
  old : Nat
  wrote : Bool
  deriving DecidableEq, Repr

/-- Perform an atomic operation lane by lane, in ascending order (R77, R226).  `op` gives a lane's new value from the old
one, or none. -/
def State.atomRun (s : State) (op : Nat → Nat → Option Nat) (sp : Space) (n : Nat) :
    List (Nat × Nat) → List AtomLane × State
  | [] => ([], s)
  | (l, key) :: r =>
    let old := s.getLocal sp key n
    match op l old with
    | none =>
      match s.atomRun op sp n r with
      | (es, s1) => ({ lane := l, key := key, old := old, wrote := false } :: es, s1)
    | some v =>
      match (s.putLocal sp (addrs key (bytesOf n v))).atomRun op sp n r with
      | (es, s1) => ({ lane := l, key := key, old := old, wrote := true } :: es, s1)

/-- The releases that the words of an access carry. -/
def State.msgsAt (s : State) (sp : Space) (n key : Nat) : List RelMsg :=
  (wordsOf key n).flatMap fun i => tget [] (s.rels sp) i

/-- Put the releases a write leaves on the words of an access (R80). -/
def State.putMsgs (s : State) (sp : Space) (n key : Nat) (m : List RelMsg → List RelMsg) : State :=
  s.setRels sp ((wordsOf key n).foldl (fun t i => tput [] t i (m (tget [] t i))) (s.rels sp))

/-- An atomic releases (R80, R86): its order does, and it is no load. -/
def atomRel (ord opc : Nat) : Bool := ordRel ord && opc != 0

/-- The access an atomic records (R80): it belongs to the region it closes when it releases, and otherwise to the region it
opens when it acquires. -/
def State.atomAcc (s : State) (w ord opc : Nat) (write : Bool) : Acc :=
  let a := s.accOf w write true
  if ordAcq ord && !atomRel ord opc then { a with ep := a.ep + 1, rsn := a.rsn + 1 } else a

/-- Record an atomic's lanes and leave their releases (R80, R82). -/
def State.atomMarks (s : State) (w scope ord opc : Nat) (sp : Space) (n : Nat) : List AtomLane → State
  | [] => s
  | e :: r =>
    let s1 := s.recordAcc sp e.key n (s.atomAcc w ord opc e.wrote)
    let s2 := if e.wrote then s1.putMsgs sp n e.key fun old => s1.writeMsgs w scope ord (opc != 1) old else s1
    s2.atomMarks w scope ord opc sp n r

/-- The closing of an atomic instruction: its boundary, its count, and its restart region (R78, R90, R229). -/
def State.atomDone (s : State) (x : Ix) (ord : Nat) : State :=
  let s1 := if ord == 0 then s else s.boundary x
  if x.lanes.isEmpty then s1 else s1.restart x x.ent

/-- What an instruction of the atomic group does (R226 to R228). -/
structure AtomOp where
  opc : Nat
  ord : Nat
  scope : Nat
  ty : Ty
  /-- it reads memory: all but the atomic store -/
  reads : Bool
  /-- a lane's new value from the old one; none writes nothing -/
  op : Nat → Nat → Option Nat
  /-- a lane's operand, and the value that a compare-and-swap expects, as a side log keeps them (R326) -/
  arg : Nat → Nat := fun _ => 0
  cmp : Nat → Option Nat := fun _ => none
  dst : Opd

/-- An atomic once its fills are asked for: RACE, POISON, then the lanes in order (R224, R226).  A lane whose chunk's fill has
faulted is set aside, and its register receives the old value at the replay (R326; log entry 37). -/
def atomAct (o : AtomOp) (x : Ix) (sp : Space) (keys l : List (Nat × Nat)) (s : State) : Res :=
  let n := o.ty.bytes
  let away : List (Nat × Nat) := if l.isEmpty then [] else keys.filter fun (_, key) => (s.chunkAt l key).isSome
  let here := keys.filter fun p => !away.contains p
  let msgs := if o.reads then keys.flatMap fun (_, key) => s.msgsAt sp n key else []
  let s0 := s.readMsgs x.w o.scope o.ord msgs
  let es := (s0.atomRun o.op sp n here).1
  let writes : Bool := o.opc != 0
  let wrote (k : Nat) : Bool := writes && away.any (fun (j, _) => j == k) || es.any fun e => e.lane == k && e.wrote
  match s0.raceCheck x sp n keys wrote true with
  | .error r => .raise s r
  | .ok s1 =>
    match if o.reads then s1.poisonFault x sp n keys else none with
    | some r => .raise (s1.setWarp x.w (s.warp x.w)) r
    | none =>
      let s2 := (s1.atomRun o.op sp n here).2
      let all := es ++ away.map fun (k, key) => { lane := k, key := key, old := 0, wrote := writes }
      let s3 := (s2.countWrite x).atomMarks x.w o.scope o.ord o.opc sp n all
      let entries := away.filterMap fun (k, key) =>
        (s3.chunkAt l key).map fun (i, ch) =>
          s3.localEntry x i ch
            (.localAtomic i ch key o.opc o.ty (.ofNat 64 (o.arg k)) ((o.cmp k).map (.ofNat 64 ·)) o.dst k)
      let target := (keys.filter fun p => wrote p.1).map fun p => (p.2, (0 : Byte))
      if s3.flushHolds x.w target || !entries.isEmpty && !s3.logRoom (.mapUnit (s3.wcluster x.w)) entries.length then .keep s
      else
        let s4 := s3.parkAll entries
        let old (k : Nat) : Nat :=
          match es.find? (·.lane == k) with
          | some e => e.old
          | none => 0
        .adv ((s4.setWarp x.w ((s4.warp x.w).wlanes o.dst o.ty.regs old (es.map (·.lane)))).atomDone x o.ord)

/-- Issue an instruction of the atomic group. -/
def State.atomic (s : State) (o : AtomOp) (c : Common) (f : FM) (x : Ix) : Res :=
  match if ordRel o.ord then s.releaseCheck x else none with
  | some r => r
  | none =>
    s.access x f c.u .atomic o.ty.bytes fun sp keys l t => atomAct o x sp keys l t

/-- What `ATOM` does (R226). -/
def atomOp (f : FM) (w : Warp) : AtomOp :=
  let opc := modBits f.mod 4 4
  let ord := modBits f.mod 1 3
  let v (l : Nat) : Nat := w.opd f.c f.ty.regs l
  { opc := opc, ord := ord, scope := f.pd.toNat, ty := f.ty, reads := opc != 1, dst := f.r
    op := fun l old => atomStep opc f.ty none (v l) old, arg := v }

/-- `ATOM` (R226). -/
def execAtom (c : Common) (f : FM) (s : State) : Out :=
  s.issue false (.atom c f) fun x t => t.atomic (atomOp f (t.warp x.w)) c f x

/-- What `ATOMCAS` does (R227). -/
def casOp (f : FM) (w : Warp) : AtomOp :=
  let n := f.ty.regs
  let v (l : Nat) : Nat := w.opd f.c (2 * n) l
  { opc := 2, ord := modBits f.mod 1 3, scope := f.pd.toNat, ty := f.ty, reads := true, dst := f.r
    op := fun l old => atomStep 2 f.ty (some (v l % 2 ^ (32 * n))) (v l / 2 ^ (32 * n)) old
    arg := fun l => v l / 2 ^ (32 * n), cmp := fun l => some (v l % 2 ^ (32 * n)) }

/-- `ATOMCAS` (R227). -/
def execAtomcas (c : Common) (f : FM) (s : State) : Out :=
  s.issue false (.atomcas c f) fun x t => t.atomic (casOp f (t.warp x.w)) c f x

/-- What `RED` does (R228). -/
def redOp (f : FM) (w : Warp) : AtomOp :=
  let opc := modBits f.mod 4 4
  let ord := modBits f.mod 1 3
  let v (l : Nat) : Nat := w.opd f.r f.ty.regs l
  { opc := opc, ord := ord, scope := f.pd.toNat, ty := f.ty, reads := true, dst := .zero
    op := fun l old => some (atomNew opc f.ty old (v l)), arg := v }

/-- `RED` (R228). -/
def execRed (c : Common) (f : FM) (s : State) : Out :=
  s.issue false (.red c f) fun x t => t.atomic (redOp f (t.warp x.w)) c f x

/-! ### The spill stack -/

/-- The byte offset a lane names in its spill stack (R230). -/
def Warp.spillOff (w : Warp) (f : FM) (l : Nat) : Int :=
  f.off.toInt + w.opdS f.idx l * (if modBit f.mod 0 then f.ty.bytes else 1)

/-- The faults of `LDK` and `STK` (R230). -/
def State.spillFault (s : State) (x : Ix) (f : FM) : Option FaultRec :=
  let w := s.warp x.w
  let o := w.spillOff f
  let first (code : BitVec 8) (bad : Int → Bool) : Option FaultRec :=
    (x.lanes.find? fun l => bad (o l)).map fun l => precise code x.cp l 0 (eaWord (o l))
  (first 0x11 fun a => a % 4 != 0).or (first 0x10 fun a => a < 0 || (s.wgrid x.w).spill < a + f.ty.bytes)

/-- The Plinth key of word j of a lane's spill stack (R64). -/
def State.spillKey (s : State) (w j l : Nat) : Nat := s.keyOf w .plinth ((s.warp w).spillBase + j * 128 + l * 4)

/-- The keys of the words an access names in a lane. -/
def State.spillKeys (s : State) (w : Nat) (f : FM) (l : Nat) : List Nat :=
  (List.range f.ty.regs).map fun i => s.spillKey w (((s.warp w).spillOff f l).toNat / 4 + i) l

/-- The value of words, lowest first. -/
def wordsVal (l : List Nat) : Nat := l.foldr (fun x t => x % 2 ^ 32 + 2 ^ 32 * t) 0

/-- `LDK` (R230); a poisoned word raises POISON as a load of the Plinth does (R224, R375). -/
def execLdk (c : Common) (f : FM) (s : State) : Out :=
  s.issue false (.ldk c f) fun x t =>
    match t.spillFault x f with
    | some r => .raise t r
    | none =>
      match x.lanes.find? fun l => (t.spillKeys x.w f l).any fun k => t.localPoison .plinth k 4 with
      | some l => .raise t (precise 0x16 x.cp l 0 (eaWord ((t.warp x.w).spillOff f l)))
      | none =>
        .adv (t.writeD x false f.r f.ty.regs fun l =>
          wordsVal ((t.spillKeys x.w f l).map fun k => t.getLocal .plinth k 4))

/-- `STK` (R230). -/
def execStk (c : Common) (f : FM) (s : State) : Out :=
  s.issue false (.stk c f) fun x t =>
    match t.spillFault x f with
    | some r => .raise t r
    | none =>
      let w := t.warp x.w
      let bytes := x.lanes.flatMap fun l =>
        ((t.spillKeys x.w f l).zipIdx).flatMap fun (k, i) => addrs k (bytesOf 4 (w.word f.r i l).toNat)
      .adv ((t.putLocal .plinth bytes).countWrite x)

end Sys2Proof.Machine
end

