-- ==== Sys2Proof/Machine/Bound.lean ====
section
/-! DEFINITION. Bounded registers and windows (R61, R66 to R69, R231, R232). -/

namespace Sys2Proof.Machine

/-- `BADV` (R61). -/
def execBadv (c : Common) (f : FM) (s : State) : Out :=
  s.issue false (.badv c f) fun x t =>
    let w := t.warp x.w
    let k := w.rb f.bx.toNat
    let p : Int := k.ptr.toNat + w.opdS f.idx x.first + f.off.toInt
    if x.lanes.isEmpty then .adv t
    else if p < k.base.toNat || k.limit.toNat < p then .raise t (precise 0x10 x.cp x.first 0 (eaWord p))
    else .adv (t.setWarp x.w (w.wb f.bx.toNat { k with ptr := .ofInt 32 p }))

/-- A bounded register narrowed to [lo, hi) of its range under a permission mask (R61). -/
def Bounded.narrow (k : Bounded) (lo hi : Nat) (m : BitVec 8) : Bounded :=
  let b : Word := .ofNat 32 (k.base.toNat + lo)
  { k with base := b, ptr := b, limit := .ofNat 32 (k.base.toNat + hi), r := k.r && modBit m 0, w := k.w && modBit m 1
           a := k.a && modBit m 2 }

/-- `BNARROW` (R61). -/
def execBnarrow (c : Common) (f : FM) (s : State) : Out :=
  s.issue false (.bnarrow c f) fun x t =>
    let w := t.warp x.w
    let k := w.rb f.bx.toNat
    let lo := w.opd f.idx 1 x.first
    let hi := w.opd f.c 1 x.first
    if x.lanes.isEmpty then .adv t
    else if hi < lo || k.limit.toNat < k.base.toNat + hi then
      .raise t (precise 0x10 x.cp x.first 0 (.ofNat 48 (k.base.toNat + hi)))
    else .adv (t.setWarp x.w (w.wb f.r.code (k.narrow lo hi f.mod)))

/-- Bits [127:0] of a bounded register (R59). -/
def Bounded.bitsOf (k : Bounded) : Nat :=
  k.ptr.toNat + k.base.toNat * 2 ^ 32 + k.limit.toNat * 2 ^ 64 +
    (k.space.toNat + 4 * k.r.toNat + 8 * k.w.toNat + 16 * k.a.toNat + 32 * k.g.toNat) * 2 ^ 96

/-- `BGET` (R61). -/
def execBget (c : Common) (f : FM) (s : State) : Out :=
  s.issue false (.bget c f) fun x t => .adv (t.writeD x true f.r 4 fun _ => ((t.warp x.w).rb f.bx.toNat).bitsOf)

/-! ### Windows -/

/-- Two ranges of bytes overlap. -/
def overlaps (a n b m : Nat) : Bool := a < b + m && b < a + n

/-- A window that stands in the way of a new one (R66 priority 4). -/
def State.windowClash (s : State) (y : Window) : Bool :=
  s.windows.any fun (_, z) =>
    z.chip == y.chip && (s.blk z.block).st != .saved &&
      (z.ctx == y.ctx && overlaps z.va (z.limit - z.base) y.va (y.limit - y.base) ||
        overlaps z.base (z.limit - z.base) y.base (y.limit - y.base))

/-- Live windows of a cluster's map unit (R66). -/
def State.windowCount (s : State) (c : Nat) : Nat :=
  (s.windows.filter fun (_, z) => clusterOf (s.blk z.block).core == c && (s.blk z.block).st != .saved).length

/-- The fault of a `WMAP` (R66 priorities 1 to 4). -/
def State.wmapFault (s : State) (k : Bounded) (y : Window) : Option (BitVec 8) :=
  if k.sp != some .plinth then some 0x10
  else if !k.r || !k.w then some 0x12
  else if k.base.toNat % 4096 != 0 || k.limit.toNat % 4096 != 0 || y.va % 4096 != 0 || k.base == k.limit then some 0x11
  else if s.windowClash y then some 0x19
  else none

/-- A window is bound: its chunks are unfilled, and what the Plinth range held can be read no more, nor the releases it carried (R66,
R67, R80). -/
def State.bindWindow (s : State) (y : Window) : State :=
  { s.dropRels .plinth y.base (y.limit - y.base) with windows := tset s.windows (tnext s.windows) y }

/-- `WMAP` (R66, R232; log entry 38 for the address of a fault). -/
def execWmap (c : Common) (f : FM) (s : State) : Out :=
  s.issue false (.wmap c f) fun x t =>
    let w := t.warp x.w
    let k := w.rb f.bx.toNat
    let va := w.opd f.r 2 x.first % 2 ^ 48
    let y : Window :=
      { block := w.block, ctx := t.wctx x.w, chip := t.wchip x.w, base := t.keyOf x.w .plinth k.base.toNat
        limit := t.keyOf x.w .plinth k.limit.toNat, va := va }
    if x.lanes.isEmpty then .adv t
    else
      match t.wmapFault k y with
      | some code => .raise t (precise code x.cp x.first 0 (if code == 0x11 || code == 0x19 then .ofNat 48 va else 0))
      | none =>
        let room := t.windowCount (t.wcluster x.w) < 64
        let t2 := (if room then t.bindWindow y else t).writeP x true f.pd fun _ => room
        .adv (if room then t2.restart x x.ent else t2)

/-- The keys of the dirty words of windows, as accesses of 4 bytes (R68). -/
def State.dirtyWords (s : State) (d : List (Nat × List Nat)) : List (Nat × Nat) :=
  ((d.flatMap fun (i, offs) => offs.map fun o => ((s.window i).base + o) / 4 * 4).eraseDups).map fun k => (0, k)

/-- A write-back of a `WUNMAP` of the warp is set aside. -/
def State.unmapParked (s : State) (w : Nat) : Bool :=
  s.parked.any fun p => p.warp == w &&
    (match p.kind with
     | .write _ _ org => org == .unmap
     | _ => false)

/-- The words that a `WUNMAP` writes back and has not read yet: at a later attempt, those dirtied since (R68). -/
def State.unread (s : State) (x : Ix) (keys : List (Nat × Nat)) : List (Nat × Nat) :=
  if (s.warp x.w).hold == some x.cp then
    keys.filter fun (_, k) => !(tget [] s.racePlinth (k / 4)).contains (s.accOf x.w false false)
  else keys

/-- `WUNMAP` checks and records the reads of its write-back, each word's once (R68, R93). -/
def State.unmapReads (s : State) (x : Ix) (d : List (Nat × List Nat)) : Except FaultRec State :=
  let keys := s.unread x (s.dirtyWords d)
  match s.raceCheck x .plinth 4 keys (fun _ => false) false with
  | .error r => .error r
  | .ok s1 => .ok (s1.recordAll .plinth 4 (fun _ => s1.accOf x.w false false) keys)

/-- `WUNMAP` (R68, R232, R331): waits for the stores into the windows that are set aside, writes back, waits until nothing is
set aside, and unbinds (log entry 38). -/
def execWunmap (c : Common) (f : FM) (s : State) : Out :=
  s.issue false (.wunmap c f) fun x t =>
    let wins := t.windowsIn x.w ((t.warp x.w).rb f.bx.toNat)
    if x.lanes.isEmpty || wins.isEmpty then .adv (if x.lanes.isEmpty then t else t.restart x x.ent)
    else if t.windowLogged wins then .keep t
    else
      match t.unmapReads x (t.dirtyOf wins) with
      | .error r => .raise t r
      | .ok t0 =>
        match t0.writeBacks (fun p => { p with warp := x.w, pc := x.cp }) .unmap (t0.dirtyOf wins) with
        | (rest, t1) =>
          if !rest.isEmpty || t1.unmapParked x.w then .keep (t1.modWarp x.w fun y => { y with hold := some x.cp })
          else
            match (t1.warp x.w).unmapFault with
            | some r => .raise ((t1.unbind wins).modWarp x.w fun y => { y with unmapFault := none }) { r with rpc := x.cp }
            | none => .adv ((t1.unbind wins).restart x x.ent)

/-- The races of an operation's accesses of n bytes at keys (R82, R89). -/
def State.opRaces (s : State) (n : Nat) (o : AsyncOp) (sp : Space) (len : Nat) (write : Bool) (keys : List Nat) :
    List (Nat × Acc) :=
  keys.filterMap fun k => (s.raceAt sp k len (partyOfOp n) o.vc write false).map fun a => (k, a)

/-- An operation's accesses under the launch's race policy (R84, R89): the first race under FAULT, or the state that has
logged and recorded them. -/
def State.opAccess (s : State) (n : Nat) (o : AsyncOp) (acc : Acc) (sp : Space) (len : Nat) (keys : List Nat) :
    Except (Nat × Acc) State :=
  let races := (s.opRaces n o sp len acc.write keys).filter fun (_, a) => a.party != acc.own
  let rec0 : LogRec := { s.recOf o.warp 0x03 with pc := o.pc.toNat }
  let done (s1 : State) : State := s1.recordAll sp len (fun _ => acc) (keys.map fun k => (0, k))
  match races with
  | [] => .ok (done s)
  | r :: _ =>
    if (s.wgrid o.warp).raceLog then
      .ok (done (races.foldl (fun t (k, a) => t.logRace rec0 a (offOf sp k)) s))
    else .error r

/-- Write back what a flush has still to read (R68). -/
def State.flushMore (s : State) (n : Nat) (o : AsyncOp) (rest : List (Nat × List Nat)) : State :=
  match s.writeBacks (fun p => { p with warp := o.warp, pc := o.pc }) (.flush n) rest with
  | (left, s1) => { s1 with ops := tset s1.ops n { o with kind := .wflush left } }

/-- Write-backs that a dropped flush of the warp has left in a side log count as the new one's (R232, R328). -/
def State.adoptFlushes (s : State) (w : Nat) : State :=
  { s with parked := s.parked.map fun p =>
      match p.kind with
      | .write va bytes (.flush m) =>
        if p.warp == w && (tfind s.ops m).isNone then { p with kind := .write va bytes (.flush s.lastOp) } else p
      | _ => p }

/-- `WFLUSH` (R68): an operation whose reads are one region; a race under FAULT fails it. -/
def execWflush (c : Common) (f : FM) (s : State) : Out :=
  s.issue false (.wflush c f) fun x t =>
    let wins := t.windowsIn x.w ((t.warp x.w).rb f.bx.toNat)
    let flag := t.fsFlag x c
    if x.lanes.isEmpty || wins.isEmpty then .adv t
    else if t.flagFull x.w flag || t.windowLogged wins then .keep t
    else
      let d := t.dirtyOf wins
      let t1 := (t.acceptOp x (.wflush d) flag).adoptFlushes x.w
      let n := t1.lastOp
      let o : AsyncOp :=
        { tget { warp := x.w, kind := .wflush d, flags := [flag], pc := x.cp } t1.ops n with
          starts := x.lanes.map fun l => (l, ((t.warp x.w).th l).rcp) }
      let acc : Acc := { t1.opAcc n o false with own := partyOfWarp x.w }
      let keys := (t1.dirtyWords d).map (·.2)
      let failed (k : Nat) (r : FaultRec) : Res :=
        let t2 : State := { t1 with ops := tset t1.ops n { o with kind := .wflush [] } }
        .adv (t2.modWarp x.w fun y => { y with faults := y.faults ++
          [{ flags := o.flags, acc := n, fr := { r with fpc := x.cp, addr := .ofNat 48 (offOf .plinth k) } }] })
      match t1.opAccess n o acc .plinth 4 keys with
      | .error (k, a) => failed k { code := 0x18, otag := a.tag, seq := a.rsn }
      | .ok t2 =>
        match keys.find? fun k => t2.metaPoison .plinth k 4 with
        | some k => failed k { code := 0x16 }
        | none => .adv (t2.flushMore n o d)

/-- A write of the map unit to a page of a context stands in its side log: a fill from the page waits for the replay
(R328). -/
def State.pageWritten (s : State) (cluster c page : Nat) : Bool :=
  s.parked.any fun p => p.unit == .mapUnit cluster && p.ctx == c && p.page == page &&
    (match p.kind with
     | .write _ _ _ => true
     | _ => false)

/-- A fill of a chunk waits for a replay: a store into the chunk, or a write of the map unit to its page, is set aside
(R328). -/
def State.fillHeld (s : State) (cluster i k : Nat) : Bool :=
  s.chunkLogged i k || s.pageWritten cluster (s.window i).ctx ((s.window i).page k)

/-- The fill of a chunk met a page fault: its page is requested (R326, R329). -/
def State.fillFaulted (s : State) (i k : Nat) : State :=
  let y := s.window i
  { s with windows := tset s.windows i { y with faulted := nins y.faulted k } }.request y.ctx (y.page k) false

/-- WINDOW_FILL (R67): the map unit fills the first chunk asked for whose page has no write of its own set aside, or
requests its page; a chunk that stores wait for is filled by their replay (R328). -/
def execWindowFill (cluster : Nat) (s : State) : Out :=
  match (s.cluster cluster).fills.find? fun (_, i, k) => !s.pageWritten cluster (s.window i).ctx ((s.window i).page k) with
  | none => .next s
  | some (w, i, k) =>
    let s1 := s.modCluster cluster fun c => { c with fills := c.fills.erase (w, i, k) }
    let y := s1.window i
    if (tfind s1.windows i).isNone || y.filled.contains k || s1.fillHeld cluster i k then .next s1
    else
      match s1.fillChunk i k with
      | (some t, _) => .next t
      | (none, t) => .next (t.fillFaulted i k)

/-- A write-back of a flush is set aside. -/
def State.flushParked (s : State) (n : Nat) : Bool :=
  s.parked.any fun p =>
    match p.kind with
    | .write _ _ org => org == .flush n
    | _ => false

/-- WFLUSH_COMPLETION (R68): once every byte has been written back, the flag is released. -/
def execWflushCompletion (op : Nat) (s : State) : Out :=
  match tfind s.ops op with
  | none => .next s
  | some o =>
    match o.kind with
    | .wflush [] => .next (if s.flushParked op then s else s.finishOp op o)
    | .wflush rest => .next (if (s.wblk o.warp).st == .saved then s else s.flushMore op o rest)
    | _ => .next s

end Sys2Proof.Machine
end

