-- ==== Sys2Proof/Machine/Fetch.lean ====
section
/-! DEFINITION. Line fetch and its checks (R162 to R168, R326), the ageing of entries (R28) and the end of a yield
(R167). -/

namespace Sys2Proof.Machine

/-- The virtual address of a line of the warp's module (R22, R162). -/
def State.lineVa (s : State) (w line : Nat) : Nat := (s.wgrid w).cbase + 64 * line

/-- The exclusive or of the low n bits of a number. -/
def parity (x : Nat) : Nat → Bool
  | 0 => false
  | n + 1 => (x % 2 == 1) != parity (x / 2) n

/-- `PAR0` fails: line-word bits [29:0], slots 0 and 1 and the parity bit hold an odd number of ones (R163, R164). -/
def par0Bad (l : Line) : Bool := parity (bits l.toNat 0 31 + bits l.toNat 32 192 * 2 ^ 31) 223

/-- `PAR1` fails: slots 2 to 4 and the parity bit hold an odd number of ones (R163, R164). -/
def par1Bad (l : Line) : Bool := parity (bits l.toNat 31 1 + bits l.toNat 224 288 * 2) 289

/-- Two adjacent `PAIR` bits are set (R166). -/
def pairBad (x : Nat) : Bool := (List.range 3).any fun k => bits (lwPair x) k 1 == 1 && bits (lwPair x) (k + 1) 1 == 1

/-- The fault a fetched line gives its entry (R179 priorities 1 to 3). -/
def lineFault (l : Line) (c : Word) (check : Bool) : Option FaultRec :=
  let lw := lineWord l
  if par0Bad l || par1Bad l then
    some { precise 0x05 c with par := .ofNat 2 ((if par0Bad l then 1 else 0) + (if par1Bad l then 2 else 0)) }
  else if pairBad lw then some (precise cMalformed c)
  else if check && !(cpSlot c < 5 && lwTgt lw (cpSlot c)) then some (precise cControl c)
  else none

/-- The entry at `c` has entered its line. -/
def Warp.enter (w : Warp) (c : Word) (l : Line) : Warp :=
  { w.modThs (w.entLanes c) fun _ t => { t with check := false } with
    entries := tset w.entries c.toNat { w.entry c with entered := true, waited := false, line := l, check := false } }

/-- Fetch the line of the entry at `c` (R164 to R166, R326): the entry enters the line, raises what its checks find, or
blocks on the page.  Bytes that are poisoned raise POISON (R127). -/
def State.fetchLine (s : State) (w : Nat) (c : Word) : State :=
  let x := s.warp w
  let e := x.entry c
  let lanes := x.entLanes c
  let va := s.lineVa w (cpLine c)
  if e.past || (s.wgrid w).clines ≤ cpLine c then s.raise w lanes (precise cControl c)
  else
    match s.vread (.mapUnit (s.wcluster w)) (s.wctx w) va 64 with
    | (.error page, s1) =>
      ((s1.request (s.wctx w) page false).dqLeave w lanes).modWarp w fun y =>
        (y.modThs lanes fun _ t => { t with check := e.check }).blockLanes lanes (.fetchPage (s.wctx w) (max page va))
          fun _ k => k
    | (.ok bytes, s1) =>
      let l : Line := .ofNat 512 (natOf bytes)
      let pa := (s1.xlate (.mapUnit (s.wcluster w)) (s.wctx w) va false).1
      if (match pa with | some a => s1.poisoned a | none => false) then
        s1.raise w lanes (precise 0x16 c 0 0 (.ofNat 48 va))
      else
        match lineFault l c e.check with
        | some r => s1.raise w lanes r
        | none => s1.modWarp w fun y => y.enter c l

/-- LINE_FETCH (R164): the entry the warp chooses fetches the line it enters; void when it has entered it. -/
def execLineFetch (w : Nat) (s : State) : Host.Outcome State Fault Refusal :=
  match (s.warp w).choice with
  | none => .next s
  | some c => if !s.mayIssue w || ((s.warp w).entry c).entered then .next s else .next (s.fetchLine w c)

/-- ENTRY_AGED (R28): entries whose age has reached 64 are aged. -/
def execEntryAged (w : Nat) (s : State) : Host.Outcome State Fault Refusal :=
  .next (s.modWarp w fun x => { x with entries := x.entries.map fun (k, e) => (k, { e with aged := e.isAged }) })

/-- The quadrant of a warp among those of the device. -/
def State.quadOf (s : State) (w : Nat) : Nat := 4 * (s.wblk w).core + (s.warp w).quadrant

/-- The warp is ready: the entry it would choose can issue (R30). -/
def State.readyWarp (s : State) (w : Nat) : Bool :=
  let x := s.warp w
  s.mayIssue w &&
    match x.choice with
    | none => false
    | some c => !(x.entry c).entered || (x.entry c).waited || x.flagsClear (lwWait (lineWord (x.entry c).line))

/-- The active set of a quadrant (R30): at most 8 of its resident warps, those it has issued last, then the others by number (log
entry 77). -/
def State.activeSet (s : State) (q : Nat) : List Nat :=
  let here := (s.warps.filter fun (v, x) => s.quadOf v == q && (s.wblk v).st == .resident && !x.retired).map (·.1)
  let l := (tget [] s.active q).filter fun v => here.contains v
  (l ++ here.filter fun v => !l.contains v).take 8

/-- A yield is over: since the warp's own issue every other ready warp of the active set has issued once, or 8 issue cycles
have passed (R167; log entry 77). -/
def State.yieldOver (s : State) (w : Nat) : Bool :=
  let q := s.quadOf w
  let l := tget [] s.issues q
  let since := l.takeWhile (· != w)
  !l.contains w || 8 ≤ since.length ||
    (s.activeSet q).all fun v => v == w || !s.readyWarp v || since.contains v

/-- YIELD_EXPIRY (R167): the warp may issue again; void before the yield is over. -/
def execYieldExpiry (w : Nat) (s : State) : Host.Outcome State Fault Refusal :=
  .next (if s.yieldOver w then s.modWarp w fun x => { x with yielding := false } else s)

end Sys2Proof.Machine
end

