-- ==== Sys2Proof/Machine/Control.lean ====
section
/-! DEFINITION. Control transfers, the end of threads, re-fusion and exchange between lanes (R191 to R200). -/

namespace Sys2Proof.Machine

/-- The verdict on one transfer target. -/
inductive Target where
  /-- the target's checks pass -/
  | good
  /-- CONTROL-FLOW -/
  | bad
  /-- the line word cannot be read: the virtual address whose page is missing -/
  | absent (va : Nat)
  deriving DecidableEq, Repr

/-- Check a transfer's target (R22, R165): slot and line exist, and the target line's `TGT` bit is set.  `line` is exact:
a relative target may lie outside the module on either side. -/
def State.checkTarget (s : State) (w : Nat) (line : Int) (slot : Nat) : Target × State :=
  if 5 ≤ slot || line < 0 || ((s.wgrid w).clines : Int) ≤ line then (.bad, s)
  else
    let va := s.lineVa w line.toNat
    match s.vreadNat (.mapUnit (s.wcluster w)) (s.wctx w) va 4 with
    | (.error _, s1) => (.absent va, s1)
    | (.ok lw, s1) => (if lwTgt lw slot then .good else .bad, s1)

/-- Check the targets of the listed lanes. -/
def State.checkTargets (s : State) (w : Nat) (tgt : Nat → Int × Nat) : List Nat → List (Nat × Target) × State
  | [] => ([], s)
  | l :: r =>
    match s.checkTarget w (tgt l).1 (tgt l).2 with
    | (v, s1) =>
      match s1.checkTargets w tgt r with
      | (vs, s2) => ((l, v) :: vs, s2)

/-- A checked transfer (R192): no lane transfers before the checks of every participating lane pass.  `eff` is what else
the instruction does then. -/
def State.transfer (s : State) (x : Ix) (tgt : Nat → Int × Nat) (cp : Nat → Word) (eff : State → State) : Res :=
  match s.checkTargets x.w tgt x.lanes with
  | (vs, s1) =>
    match vs.findSome? fun (_, v) => match v with | .absent va => some va | _ => none with
    | some va => (s1.request (s1.wctx x.w) (va / 4096 * 4096) false).blockOn x (.transferPage (s1.wctx x.w) va)
    | none =>
      match vs.find? fun (_, v) => v == .bad with
      | some (l, _) => .raise s1 (precise cControl x.cp l)
      | none => .go (eff s1) cp

/-- The relative target of `BRA` and `CALL` (R191). -/
def brLine (f : BR) (c : Word) : Int := (cpLine c : Int) + f.loff.toInt

/-- `BRA` (R192). -/
def execBra (c : Common) (f : BR) (s : State) : Out :=
  s.issue false (.bra c f) fun x t =>
    t.transfer x (fun _ => (brLine f x.cp, f.slot.toNat)) (fun _ => mkCp f.prio.toNat (brLine f x.cp).toNat f.slot.toNat) id

/-- A transfer to the code pointers that an operand holds (R192). -/
def State.transferTo (s : State) (x : Ix) (o : Opd) : Res :=
  let v (l : Nat) : Word := (s.warp x.w).word o 0 l
  s.transfer x (fun l => ((cpLine (v l) : Int), cpSlot (v l))) v id

/-- `BRX` (R192). -/
def execBrx (c : Common) (f : BR) (s : State) : Out := s.issue false (.brx c f) fun x t => t.transferTo x f.a

/-- `RET` (R192): as `BRX`. -/
def execRet (c : Common) (f : BR) (s : State) : Out := s.issue false (.ret c f) fun x t => t.transferTo x f.a

/-- `CALL` (R192): as `BRA`, and the link receives the next slot. -/
def execCall (c : Common) (f : BR) (s : State) : Out :=
  s.issue false (.call c f) fun x t =>
    t.transfer x (fun _ => (brLine f x.cp, f.slot.toNat)) (fun _ => mkCp f.prio.toNat (brLine f x.cp).toNat f.slot.toNat)
      fun u => u.writeD x false f.a 1 fun _ => (nextCp x.cp).toNat

/-- `NOP` (R194). -/
def execNop (c : Common) (f : BR) (s : State) : Out := s.issue false (.nop c f) fun _ t => .adv t

/-- `YIELD` (R194). -/
def execYield (c : Common) (f : BR) (s : State) : Out :=
  s.issue false (.yield c f) fun x t =>
    .adv (if x.lanes.isEmpty then t else t.modWarp x.w fun y => { y with yielding := true })

/-- `RGN` (R196). -/
def execRgn (c : Common) (f : BR) (s : State) : Out := s.issue false (.rgn c f) fun x t => .adv (t.restart x x.ent)

/-! ### Re-fusion -/

/-- The position of a code pointer, its priority apart (R22). -/
def cpPos (c : Word) : Nat := bits c.toNat 0 20

/-- The mask a thread waits with at `WSYNC`, at the given position. -/
def Thread.arrived (t : Thread) (pos : Nat) : Option Word :=
  match t.st with
  | .blocked (.wsync m) => if cpPos t.cp == pos then some m else none
  | _ => none

/-- Every lane a mask names has arrived at the position, has exited, or was never live (R31).  Only a lane that still waits there has
arrived (log entry 88). -/
def Warp.maskMet (w : Warp) (pos lane : Nat) (m : Word) : Bool :=
  (lanesOf m).all fun k =>
    k == lane || ((w.th k).arrived pos).isSome ||
      (match (w.th k).st with | .never | .exited => true | _ => false)

/-- Release the threads whose masks are met at a position: they continue as one entry, with the lowest priority any of
them arrived with (R31). -/
def Warp.wsyncAt (w : Warp) (pos : Nat) : Warp :=
  let out := allLanes.filter fun l =>
    match (w.th l).arrived pos with
    | some m => w.maskMet pos l m
    | none => false
  match out with
  | [] => w
  | l :: r =>
    let prio := r.foldl (fun p k => min p (cpPrio (w.th k).cp)) (cpPrio (w.th l).cp)
    w.wake out fun _ c => mkCp prio (cpLine (nextCp c)) (cpSlot (nextCp c))

/-- Release what an exit releases, position by position (R31, R193). -/
def Warp.wsyncAll (w : Warp) : Warp :=
  let pos := (allLanes.filterMap fun l =>
    match (w.th l).st with
    | .blocked (.wsync _) => some (cpPos (w.th l).cp)
    | _ => none).eraseDups
  pos.foldl Warp.wsyncAt w

/-- `WSYNC` (R31, R195): the participating lanes arrive and block, the others fall through, and the arrival releases whom
it can. -/
def execWsync (c : Common) (f : BR) (s : State) : Out :=
  s.issue false (.wsync c f) fun x t =>
    let w := t.warp x.w
    let w1 := w.modThs x.lanes fun l th => { th with st := .blocked (.wsync (w.word f.a 0 l)) }
    .set (t.setWarp x.w { (w1.move x.cp [] fun _ => 0).wsyncAt (cpPos x.cp) with hold := none })

/-! ### The end of threads -/

/-- The participating threads end, and those that waited for them at `WSYNC` go on (R193). -/
def Warp.endLanes (w : Warp) (cp : Word) (lanes : List Nat) : Warp :=
  let w1 := w.modThs lanes fun _ th => { th with st := .exited, hmode := false }
  (w1.move cp [] fun _ => 0).wsyncAll

/-- No thread of the warp is live or blocked outside the listed lanes. -/
def Warp.lastOf (w : Warp) (lanes : List Nat) : Bool := (w.lanesWhere Thread.present).all fun l => lanes.contains l

/-- Every other warp of the block has retired. -/
def State.lastWarp (s : State) (w : Nat) : Bool := (s.wblk w).warps.all fun v => v == w || (s.warp v).retired

/-- A window write-back of the warp's exit or release is set aside. -/
def State.exitParked (s : State) (w : Nat) : Bool :=
  s.parked.any fun p => p.warp == w &&
    (match p.kind with
     | .write _ _ org => org == .exitWriteBack
     | _ => false)

/-- The last warp of a block retires: its windows are written back and unbound, and the block ends (R69, R193).  The entry
stalls until every store into them that is set aside is replayed (R77) and every byte is visible.  The reads of these write-backs take
no part in race detection (log entry 38). -/
def State.exitBlock (s : State) (x : Ix) (done : State → State) : Res :=
  let b := (s.warp x.w).block
  let wins := s.endWindows b
  if s.windowLogged wins then .keep s
  else
    match s.writeBacks (fun p => { p with warp := x.w, pc := x.cp }) .exitWriteBack (s.dirtyOf wins) with
    | (rest, s1) => if !rest.isEmpty || s1.exitParked x.w then .keep s1 else .set ((done (s1.unbind wins)).endBlock b)

/-- `EXIT` (R193). -/
def execExit (c : Common) (f : BR) (s : State) : Out :=
  s.issue false (.exit c f) fun x t =>
    match t.releaseCheck x with
    | some r => r
    | none =>
      let w := t.warp x.w
      let done (last : Bool) (u : State) : State :=
        u.modWarp x.w fun y => { (y.boundary.endLanes x.cp x.lanes) with hold := none, retired := last }
      if x.lanes.isEmpty || !w.lastOf x.lanes then .set (done false t)
      else if !w.flagsClear 0xFFF then .keep t
      else
        match w.flagFault 0xFFF with
        | some p => .raise (t.setWarp x.w (w.takeFault p)) { p.fr with async := true, rpc := x.cp }
        | none => if t.lastWarp x.w then t.exitBlock x (done true) else .set (done true t)

/-- What `BRK` and `TRAP` raise (R197). -/
def State.trapWith (s : State) (x : Ix) (code : BitVec 8) (n : BitVec 24) : Res :=
  if x.lanes.isEmpty then .adv s
  else .raise s { precise code x.cp x.first with rpc := nextCp x.cp, info := n.zeroExtend 32 }

/-- `BRK` (R197). -/
def execBrk (c : Common) (f : FS) (s : State) : Out := s.issue false (.brk c f) fun x t => t.trapWith x 0x40 f.imm

/-- `TRAP` (R197). -/
def execTrap (c : Common) (f : FS) (s : State) : Out := s.issue false (.trap c f) fun x t => t.trapWith x 0x41 f.imm

/-! ### Exchange between lanes -/

/-- The ballot of a predicate over the participating lanes (R198). -/
def Warp.ballot (w : Warp) (x : Ix) (m : BitVec 8) : Word :=
  maskOf (x.lanes.filter fun l => w.rp (modBits m 2 3) l != modBit m 5)

/-- `VOTE` (R198). -/
def voteEff (f : RRR) (x : Ix) (s : State) : State :=
  let b := (s.warp x.w).ballot x f.mod
  match modBits f.mod 0 2 with
  | 0 => s.writeP x false f.pd fun _ => b == maskOf x.lanes
  | 1 => s.writeP x false f.pd fun _ => b != 0
  | 2 => s.writeP x false f.pd fun _ => b == 0 || b == maskOf x.lanes
  | _ => s.writeD x false f.d 1 fun _ => b.toNat

/-- `VOTE` (R198). -/
def execVote (c : Common) (f : RRR) (s : State) : Out := s.issue false (.vote c f) fun x t => .adv (voteEff f x t)

/-- The lane that lane L reads under a mode and segment width, and whether the mode permits it (R199). -/
def shflSource (mode w k l : Nat) : Bool × Nat :=
  let sb := l - l % w
  match mode with
  | 0 => (true, sb + k % w)
  | 1 => (decide (k ≤ l - sb), l - k)
  | 2 => (decide (k < sb + w - l), l + k)
  | _ => (true, sb + ((l - sb) ^^^ (k % w)))

/-- The lane a participating lane reads: its own when the source is not permitted or does not participate (R199). -/
def Ix.shflLane (x : Ix) (mode w k l : Nat) : Bool × Nat :=
  let t := shflSource mode w k l
  if t.1 && x.lanes.contains t.2 then (true, t.2) else (false, l)

/-- `SHFL` (R199). -/
def shflEff (f : RRR) (x : Ix) (s : State) : State :=
  let w := s.warp x.w
  let src (l : Nat) : Bool × Nat := x.shflLane (modBits f.mod 0 2) (2 ^ modBits f.mod 2 3) (w.word f.b 0 l).toNat l
  (s.writeD x false f.d f.ty.regs fun l => w.opd f.a f.ty.regs (src l).2).writeP x false f.pd fun l => (src l).1

/-- `SHFL` (R199). -/
def execShfl (c : Common) (f : RRR) (s : State) : Out := s.issue false (.shfl c f) fun x t => .adv (shflEff f x t)

/-- A register of an operand is poisoned in a lane (R376). -/
def Warp.poisonedOpd (w : Warp) (o : Opd) (n l : Nat) : Bool :=
  match o with
  | .v r => (List.range n).any fun i => w.poison.contains (0, 32 * (r.toNat + i) + l)
  | _ => false

/-- `RDLANE` (R200). -/
def execRdlane (c : Common) (f : RRR) (s : State) : Out :=
  s.issue false (.rdlane c f) fun x t =>
    let w := t.warp x.w
    let k := (w.word f.b 0 0).toNat % 32
    if x.lanes.isEmpty then .adv t
    else if w.poisonedOpd f.a f.ty.regs k then .raise t (precise cRegPoison x.cp k)
    else .adv (t.writeD x false f.d f.ty.regs fun _ => w.opd f.a f.ty.regs k)

end Sys2Proof.Machine
end

