-- ==== Sys2Proof/Machine/Claims.lean ====
section
/-! DEFINITION. Claims and the grant arbiter (R44 to R57, R239, R240, R302, R303). -/

namespace Sys2Proof.Machine

/-! ### The arbiter's rows -/

/-- The slice a cluster belongs to (R360). -/
def State.sliceOf (s : State) (c : Nat) : Option Nat := (List.range 8).find? fun n => s.sliceValid n && s.sliceF n c 1 == 1

/-- A scratch unit of a cluster is quarantined (R367): it takes in bytes that a scrub is to zero. -/
def State.unitQuar (s : State) (c u : Nat) : Bool :=
  s.scrubs.any fun k => k.spans.any fun (a, n) =>
    let lo := s.chipOf c * 2 ^ 31 + s.unitOff c u
    a < lo + Config.unitBytes && lo < a + n

/-- Blocks on a cluster that hold what they were given. -/
def State.holders (s : State) (c : Nat) : List Block :=
  (s.blocks.filter fun (_, b) => clusterOf b.core == c && b.holds && b.st != .saved).map (·.2)

/-- A scratch unit of a cluster is held by a block (R45). -/
def State.unitHeld (s : State) (c u : Nat) : Bool := (s.holders c).any fun b => b.units.any fun (v, _) => v == u

/-- The pool sizes of a cluster by column (R44, R46), less the quarantined scratch units (R367) that no block's row still
counts (log entry 74). -/
def State.pools (s : State) (c : Nat) : List Int :=
  let sl := (s.sliceOf c).getD 0
  let quar := ((List.range (s.unitCount c)).filter fun u => s.unitQuar c u && !s.unitHeld c u).length
  [(s.sliceF sl 128 8 : Int) - quar, (s.sliceF sl 141 5 : Int)] ++ List.replicate 8 (Config.granules : Int) ++
    List.replicate 8 (Config.tilesPerCore : Int)

/-- The gangs that hold a row of a cluster's arbiter (R46). -/
def State.claimants (s : State) (c : Nat) : List Nat :=
  (s.gangs.filter fun (_, g) => g.cluster == c && !g.claim.isEmpty).map (·.1)

/-- Add and subtract rows column by column. -/
def rowAdd (a b : List Int) : List Int := a.zipWith (· + ·) b
/-- Subtract a row. -/
def rowSub (a b : List Int) : List Int := a.zipWith (· - ·) b
/-- A row fits another in every column. -/
def rowLe (a b : List Int) : Bool := (a.zip b).all fun (x, y) => x ≤ y
/-- A row of natural numbers. -/
def rowOf (a : List Nat) : List Int := a.map Int.ofNat

/-- What no gang has been allocated (R46). -/
def State.available (s : State) (c : Nat) : List Int :=
  (s.claimants c).foldl (fun t g => rowSub t (rowOf (s.gang g).alloc)) (s.pools c)

/-- The rounds of R48: from work, mark every claimant whose need fits, take back what they hold, until none is left. -/
def safeRounds : Nat → List Int → List (List Int × List Int) → Bool
  | 0, _, left => left.isEmpty
  | k + 1, work, left =>
    if left.isEmpty then true
    else
      let fit := left.filter fun (need, _) => rowLe need work
      if fit.isEmpty then false
      else safeRounds k (fit.foldl (fun t (_, al) => rowAdd t al) work) (left.filter fun (need, _) => !rowLe need work)

/-- The safety test (R48): `mine` is the claimant's tentative (claim, allocation), `others` the rows of the others. -/
def safeTest (avail : List Int) (mine : List Int × List Int) (others : List (List Int × List Int)) : Bool :=
  if avail.any (· < 0) then false
  else if rowLe (rowSub mine.1 mine.2) avail then true
  else
    safeRounds (others.length + 1) avail ((mine :: others).map fun (claim, al) => (rowSub claim al, al))

/-- Test a request of a gang for columns of its cluster (R48). -/
def State.testRequest (s : State) (g : Nat) (cols : List Nat) : Bool :=
  let x := s.gang g
  let others := ((s.claimants x.cluster).filter (· != g)).map fun h => (rowOf (s.gang h).claim, rowOf (s.gang h).alloc)
  safeTest (rowSub (s.available x.cluster) (rowOf cols)) (rowOf x.claim, rowAdd (rowOf x.alloc) (rowOf cols)) others

/-- Add columns to a gang's allocation row. -/
def State.allocate (s : State) (g : Nat) (cols : List Nat) : State :=
  s.modGang g fun x => { x with alloc := x.alloc.zipWith (· + ·) cols }

/-! ### Grants -/

/-- The first n numbers below a bound that satisfy a test. -/
def firstFree (n bound : Nat) (free : Nat → Bool) : List Nat := ((List.range bound).filter free).take n

/-- A scratch unit of a cluster is free (R45). -/
def State.unitFree (s : State) (c u : Nat) : Bool := !s.unitQuar c u && !s.unitHeld c u

/-- How many scratch units of a cluster are free. -/
def State.unitsFree (s : State) (c : Nat) : Nat := ((List.range (s.unitCount c)).filter (s.unitFree c)).length

/-- A tile of a core is free. -/
def State.tileFree (s : State) (core t : Nat) : Bool :=
  !(s.holders (clusterOf core)).any fun b => b.core == core && b.tiles.any fun (_, p, _) => p == t

/-- Overwrite a range of the Plinth with zeros. -/
def State.zeroPlinth (s : State) (k n : Nat) : State :=
  { s with plinth := s.plinth.filter fun (a, _) => !(k ≤ a && a < k + n)
           poisonPlinth := s.poisonPlinth.filter fun u => !(k ≤ u * 64 && u * 64 < k + n) }

/-- A unit comes to a context: it is zeroed when another context held it last (R55). -/
def State.takeUnit (s : State) (ctx c u : Nat) : State :=
  let last := tget 0 s.unitCtx (s.unitKey c u)
  let s1 := if last == 0 || last == ctx + 1 then s
    else s.zeroPlinth (s.chipOf c * 2 ^ 31 + s.unitOff c u) Config.unitBytes
  { s1 with unitCtx := tset s1.unitCtx (s.unitKey c u) (ctx + 1) }

/-- The bounded register of a granted unit at a Plinth offset (R51). -/
def unitReg (off : Nat) : Bounded :=
  { ptr := .ofNat 32 off, base := .ofNat 32 off, limit := .ofNat 32 (off + Config.unitBytes), space := 2, r := true, w := true
    a := true, g := true }

/-- `ACQ.SCR` granted. -/
def State.grantScr (s : State) (w n k : Nat) : State :=
  let b := (s.warp w).block
  let c := s.wcluster w
  let us := firstFree n (s.unitCount c) (s.unitFree c)
  let s1 := us.foldl (fun t u => t.takeUnit (s.wctx w) c u) s
  let s2 := s1.modBlk b fun x => { x with units := x.units ++ us.map fun u => (u, false) }
  (us.zipIdx).foldl (fun t (u, i) => t.modWarp w fun y => y.wb (k + i) (unitReg (s.unitOff c u))) s2

/-- `ACQ.CHN` granted: the write pointer and the status record start afresh (R17, R74, R251). -/
def State.grantChn (s : State) (w n : Nat) (d : Opd) : State :=
  let b := (s.warp w).block
  let c := s.wcluster w
  let cs := firstFree n Config.chansPerCluster fun i => (s.chan (16 * c + i)).owner.isNone
  let s1 := cs.foldl (fun t i => t.modChan (16 * c + i) fun _ => { owner := some b }) s
  let s2 := s1.modBlk b fun x => { x with chans := x.chans ++ cs.map fun i => 16 * c + i }
  (cs.zipIdx).foldl (fun t (v, i) => t.modWarp w fun y => y.wword d i 0 (.ofNat 32 v)) s2

/-- `ACQ.REG` granted: the newly mapped registers read 0. -/
def State.grantReg (s : State) (w n : Nat) : State :=
  let m := (s.warp w).granules
  let lo := 32 * (192 + 8 * m)
  let hi := 32 * (192 + 8 * (m + n))
  let s1 := s.modWarp w fun y =>
    { y with
      granules := m + n
      v := y.v.filter fun (k, _) => !(lo ≤ k && k < hi)
      poison := y.poison.filter fun (cl, k) => !(cl == 0 && lo ≤ k && k < hi) }
  s1.modBlk (s.warp w).block fun x => { x with dynReg := x.dynReg + n }

/-- `ACQ.ZT` granted: the lowest free names, on the lowest free tiles of the core. -/
def State.grantZt (s : State) (w n : Nat) (d : Opd) : State :=
  let b := (s.warp w).block
  let core := (s.blk b).core
  let names := firstFree n 8 fun z => !s.zHeld w z
  let ps := firstFree n Config.tilesPerCore (s.tileFree core)
  let s1 := s.modBlk b fun x => { x with tiles := x.tiles ++ (names.zip ps).map fun (z, p) => (z, p, false) }
  s1.modWarp w fun y => y.wword d 0 0 (maskOf names)

/-- The results of a grant (R51). -/
def State.grantTo (s : State) (w cls n : Nat) (d : Opd) : State :=
  match cls with
  | 0 => s.grantScr w n d.code
  | 1 => s.grantChn w n d
  | 2 => s.grantReg w n
  | _ => s.grantZt w n d

/-- The amounts of a request by class. -/
def amounts (cls n : Nat) : List Nat := (List.range 4).map fun k => if k == cls then n else 0

/-- A grant of the arbiter to a warp: rows, results, and `ACQ.TRY`'s predicate (R49, R52). -/
def State.grantRequest (s : State) (w cls n : Nat) (d : Opd) (part : BitVec 32) (tryPd : Option (BitVec 3)) : State :=
  let b := s.wblk w
  let s1 := (s.allocate b.gang (columnsOf b.core (amounts cls n))).grantTo w cls n d
  match tryPd with
  | none => s1
  | some pd => s1.modWarp w fun y => y.wp pd.toNat part part

/-! ### ACQ, REL and CLAIMRD -/

/-- The fault of a request (R53). -/
def State.acqFault (s : State) (x : Ix) (cls n : Nat) (d : Opd) : Option (BitVec 8) :=
  let max := if cls == 2 || cls == 3 then 8 else 4
  let span := match cls with
    | 0 => d.code + n ≤ 16
    | 1 => (match d with | .s k => k.toNat + n ≤ 64 | _ => true)
    | _ => true
  let b := (s.warp x.w).block
  let held := (s.heldBy b).getD cls 0
  let claim := (s.wgrid x.w).maxClaim.getD cls 0
  if 4 ≤ cls || n == 0 || max < n || !span then some 0x21
  else if claim < held + n || cls == 2 && 8 < (s.warp x.w).granules + n then some 0x20
  else none

/-- `ACQ` and `ACQ.TRY` (R51, R52, R56, R302): a CONCURRENT block draws from its reserve, and stalls while a scrub holds back
the units of it (R367; log entry 74); otherwise the request goes to the arbiter's queue and the warp issues nothing until its
outcome. -/
def State.acquireClaim (s : State) (x : Ix) (f : FS) (tryPd : Option (BitVec 3)) : Res :=
  let cls := modBits f.mod 0 3
  let n := f.imm.toNat
  if x.lanes.isEmpty then .adv (s.boundary x)
  else
    match s.acqFault x cls n f.d with
    | some code => .raise s (precise code x.cp)
    | none =>
      let w := s.warp x.w
      let full := Config.deferredMax ≤ (s.cluster (s.wcluster x.w)).deferred.length
      if (s.wgrid x.w).cls == 1 then
        if cls == 0 && s.unitsFree (s.wcluster x.w) < n then .keep s
        else
          let s1 := s.grantTo x.w cls n f.d
          let s2 := match tryPd with
            | none => s1
            | some pd => s1.modWarp x.w fun y => y.wp pd.toNat (maskOf x.lanes) (maskOf x.lanes)
          .adv ((s2.boundary x).restart x x.ent)
      else if w.acqRefused.contains x.cp && full then .keep s
      else
        let op := ArbOp.request x.w x.cp (maskOf x.ent) (maskOf x.lanes) cls n f.d tryPd
        let s1 := if w.acqRefused.contains x.cp then s else s.boundary x
        let s2 := s1.modWarp x.w fun y =>
          { y with acqWait := true, acqRefused := y.acqRefused.filter (· != x.cp), hold := some x.cp }
        .keep (s2.modCluster (s.wcluster x.w) fun c => { c with queue := c.queue ++ [op] })

/-- `ACQ` (R51). -/
def execAcq (c : Common) (f : FS) (s : State) : Out := s.issue false (.acq c f) fun x t => t.acquireClaim x f none

/-- `ACQ.TRY` (R52). -/
def execAcqTry (c : Common) (f : FS) (s : State) : Out :=
  s.issue false (.acqTry c f) fun x t => t.acquireClaim x f (some f.pd)

/-- The scratch unit of the issuing block's cluster that a granted register names (R53 priority 2): the one that holds its
`BASE` (log entry 75). -/
def State.unitOfReg (s : State) (w : Nat) (k : Bounded) : Option Nat :=
  if k.g && k.space == 2 then
    match s.unitAt (s.wcluster w) k.base.toNat with
    | some u => if (s.wblk w).units.any (fun (v, st) => v == u && !st) then some u else none
    | none => none
  else none

/-- Every element is present and no two are the same. -/
def allDistinct (l : List (Option Nat)) : Bool := l.all Option.isSome && (l.filterMap id).eraseDups.length == l.length

/-- What a `REL` names: units, channels of the device, granules, tile names; none is CLAIM-CLASS (R51, R53). -/
def State.relNames (s : State) (x : Ix) (f : FS) : Option (List Nat) :=
  let w := s.warp x.w
  let n := f.imm.toNat
  let base := 16 * s.wcluster x.w
  match modBits f.mod 0 3 with
  | 0 =>
    let us := (List.range n).map fun i => s.unitOfReg x.w (w.rb (f.a.code + i))
    if n == 0 || 4 < n || 16 < f.a.code + n || !allDistinct us then none else some (us.filterMap id)
  | 1 =>
    let k := match f.a with | .s r => r.toNat | _ => 64
    let cs := (List.range n).map fun i =>
      let v := (w.rs (k + i)).toNat
      if v < 16 && (s.wblk x.w).chans.contains (base + v) then some (base + v) else none
    if n == 0 || 4 < n || 64 < k + n || !allDistinct cs then none else some (cs.filterMap id)
  | 2 => if n == 0 || 8 < n || w.granules < n then none else some (List.replicate n 0)
  | 3 =>
    let zs := (lanesOf (w.word f.a 0 x.first)).filter (· < 8)
    if zs.all fun z => (s.wblk x.w).tiles.any fun (m, _, st) => m == z && !st then some zs else none
  | _ => none

/-- Bytes of the Plinth that a recorded register covers lie in a unit at a key. -/
def State.coversUnit (s : State) (w : Nat) (k : Bounded) (lo : Nat) : Bool :=
  k.sp == some .plinth && s.keyOf w .plinth k.base.toNat < lo + Config.unitBytes &&
    lo < s.keyOf w .plinth k.limit.toNat

/-- The bounded register by which a copy command writes its destination, when it is local and not a MULTICAST (R72, R244,
R248). -/
def Cmd.writesBy (m : Cmd) : Option Bounded :=
  let lo := (m.words.getD 4 0).toNat
  let hi := (m.words.getD 5 0).toNat
  if bits hi 31 1 == 1 && bits (m.words.getD 0 0).toNat 0 8 != 6 then some (tget {} m.regs (bits lo 24 4)) else none

/-- A write of the block into a unit is outstanding: a copy command, a tile store or a parked store (R240). -/
def State.unitBusy (s : State) (b c u : Nat) : Bool :=
  let lo := s.chipOf c * 2 ^ 31 + s.unitOff c u
  ((s.blk b).chans.any fun n => (s.chan n).queue.any fun m =>
      m.writesBy.any fun k => s.coversUnit m.warp k lo) ||
    (s.ops.any fun (_, o) => (s.warp o.warp).block == b &&
      (match o.kind with
       | .zst _ _ _ k _ => s.coversUnit o.warp k lo
       | _ => false)) ||
    s.parked.any fun p => (s.warp p.warp).block == b &&
      (match p.kind with
       | .local _ _ key _ | .localAtomic _ _ key _ _ _ _ _ _ => lo ≤ key && key < lo + Config.unitBytes
       | _ => false)

/-- The tiles an operation uses, by name (R137, R139). -/
def AsyncKind.tiles : AsyncKind → List Nat
  | .mma m z _ _ _ _ _ _ _ => if m then [z, z + 1] else [z]
  | .zld z _ _ _ _ | .zst z _ _ _ _ => [z]
  | .att zo zs _ _ _ _ _ _ _ => [zo, zs]
  | .attfin zo => [zo]
  | .wflush _ => []

/-- An operation of the block that uses one of the named tiles is outstanding. -/
def State.tilesBusy (s : State) (b : Nat) (zs : List Nat) : Bool :=
  s.ops.any fun (_, o) => (s.warp o.warp).block == b && o.kind.tiles.any zs.contains

/-- The windows of a block in a unit (R69). -/
def State.unitWindows (s : State) (b c u : Nat) : List Nat :=
  let lo := s.chipOf c * 2 ^ 31 + s.unitOff c u
  (s.windows.filter fun (_, y) => y.block == b && y.base < lo + Config.unitBytes && lo < y.limit).map (·.1)

/-- Return amounts of a block to the arbiter, or to its reserve (R47, R56). -/
def State.returnClaim (s : State) (w cls n : Nat) : State :=
  let b := s.wblk w
  if (s.wgrid w).cls == 1 then s
  else
    s.modCluster (s.wcluster w) fun c =>
      { c with queue := c.queue ++ [.release b.gang (columnsOf b.core (amounts cls n)) false] }

/-- End the waits of the block's warps at `WPWAIT` on released channels (R238). -/
def State.endWaits (s : State) (b : Nat) (cs : List Nat) : State :=
  (s.blk b).warps.foldl (fun t w => t.modWarp w fun y =>
    { y with wpWait := y.wpWait.map fun (cp, n, e) => (cp, n, e || cs.contains n) }) s

/-- `REL` of checked names (R17, R19, R51, R69, R240). -/
def State.releaseNames (s : State) (x : Ix) (f : FS) (l : List Nat) : Res :=
  let b := (s.warp x.w).block
  let c := s.wcluster x.w
  let cls := modBits f.mod 0 3
  let done (t : State) : Res := .adv (((t.returnClaim x.w cls l.length).boundary x).restart x x.ent)
  match cls with
  | 0 =>
    let wins := l.flatMap (s.unitWindows b c)
    if l.any (s.unitBusy b c) then .keep s
    else
      match s.writeBacks (fun p => { p with warp := x.w, pc := x.cp }) .exitWriteBack (s.dirtyOf wins) with
      | (rest, s1) =>
        if !rest.isEmpty || s1.exitParked x.w then .keep s1
        else
          let s2 := l.foldl (fun t u =>
            t.clearRaces .plinth (s.chipOf c * 2 ^ 31 + s.unitOff c u) Config.unitBytes) (s1.unbind wins)
          let s3 := (List.range l.length).foldl (fun t i => t.modWarp x.w fun y =>
            y.wb (f.a.code + i) { y.rb (f.a.code + i) with space := 0 }) s2
          done (s3.modBlk b fun y => { y with units := y.units.filter fun (u, _) => !l.contains u })
  | 1 =>
    if l.any fun n => !(s.chan n).queue.isEmpty then .keep s
    else
      let s1 := l.foldl (fun t n => t.modChan n fun _ => {}) (s.endWaits b l)
      done (s1.modBlk b fun y => { y with chans := y.chans.filter fun n => !l.contains n })
  | 2 =>
    done ((s.modWarp x.w fun y => { y with granules := y.granules - l.length }).modBlk b
      fun y => { y with dynReg := y.dynReg - l.length })
  | _ =>
    if s.tilesBusy b l then .keep s
    else done (s.modBlk b fun y => { y with tiles := y.tiles.filter fun (z, _, _) => !l.contains z })

/-- `REL` (R51, R53, R240). -/
def execRel (c : Common) (f : FS) (s : State) : Out :=
  s.issue false (.rel c f) fun x t =>
    if x.lanes.isEmpty then .adv (t.boundary x)
    else
      match t.relNames x f with
      | none => .raise t (precise 0x21 x.cp)
      | some l => t.releaseNames x f l

/-- `CLAIMRD` (R51, R53): it closes no region (R239; log entry 76). -/
def execClaimrd (c : Common) (f : FS) (s : State) : Out :=
  s.issue false (.claimrd c f) fun x t =>
    let cls := modBits f.mod 0 3
    if x.lanes.isEmpty then .adv t
    else if 4 ≤ cls || f.d == .s 63 then .raise t (precise 0x21 x.cp)
    else
      let held := (t.heldBy (t.warp x.w).block).getD cls 0
      let claim := (t.wgrid x.w).maxClaim.getD cls 0
      .adv (t.writeD x true f.d 2 fun _ => held + claim * 2 ^ 32)

/-! ### The arbiter's events -/

/-- A request is granted at its test: the entry goes on after the `ACQ` (R49). -/
def State.passRequest (s : State) (w : Nat) (cp : Word) (lanes : List Nat) : State :=
  s.modWarp w fun y =>
    { (y.moveOnly cp lanes [] fun _ => 0).restart lanes (nextCp cp) with acqWait := false, hold := none }

/-- ARBITER_REQUEST_TEST (R48, R49, R52): the request at the head of the queue; `ACQ.TRY` is not granted while the deferred
list is full. -/
def execArbiterRequestTest (cluster : Nat) (s : State) : Out :=
  match (s.cluster cluster).queue with
  | .request w cp lanes part cls n d tryPd :: r =>
    let s1 := s.modCluster cluster fun c => { c with queue := r }
    let b := s1.wblk w
    let ls := lanesOf lanes
    let full := Config.deferredMax ≤ (s1.cluster cluster).deferred.length
    if s1.testRequest b.gang (columnsOf b.core (amounts cls n)) && !(tryPd.isSome && full) then
      .next ((s1.grantRequest w cls n d part tryPd).passRequest w cp ls)
    else
      match tryPd with
      | some pd =>
        .next (s1.modWarp w fun y =>
          { ((y.wp pd.toNat part 0).moveOnly cp ls [] fun _ => 0) with acqWait := false, hold := none })
      | none =>
        if full then
          .next (s1.modWarp w fun y => { y with acqWait := false, acqRefused := cp :: y.acqRefused, hold := none })
        else
          let s2 := s1.modCluster cluster fun c =>
            { c with deferred := c.deferred ++ [.request w cp lanes part cls n d tryPd] }
          .next (s2.modWarp w fun y => { y.blockIssue cp ls ls .acq with acqWait := false })
  | _ => .next s

/-- Re-test the deferred list from the oldest entry onward (R50). -/
def State.retest (s : State) (cluster : Nat) : List ArbOp → State
  | [] => s
  | op :: r =>
    match op with
    | .request w cp lanes part cls n d tryPd =>
      let b := s.wblk w
      if s.testRequest b.gang (columnsOf b.core (amounts cls n)) then
        let s1 := s.modCluster cluster fun c => { c with deferred := c.deferred.erase op }
        let s2 := s1.grantRequest w cls n d part tryPd
        (s2.modWarp w fun y =>
          (y.wake (lanesOf lanes) fun _ _ => nextCp cp).restart (lanesOf lanes) (nextCp cp)).retest cluster r
      else s.retest cluster r
    | .release _ _ _ | .restock => s.retest cluster r

/-- ARBITER_RELEASE (R47, R50, R303): the release at the head of the queue, or units that a scrub gives back to the pool
(R367), then the deferred list.  A CONCURRENT gang needs
nothing at any time, so a block that ends takes its claim with it (R56); another gang's claim stays (log entry 35). -/
def execArbiterRelease (cluster : Nat) (s : State) : Out :=
  match (s.cluster cluster).queue with
  | .release g cols final :: r =>
    let s1 := s.modCluster cluster fun c => { c with queue := r }
    let s2 := s1.modGang g fun x =>
      if final then { x with alloc := [], claim := [] }
      else
        { x with
          alloc := x.alloc.zipWith (· - ·) cols
          claim := if (s.grid x.grid).cls == 1 then x.claim.zipWith (· - ·) cols else x.claim }
    .next (s2.retest cluster (s2.cluster cluster).deferred)
  | .restock :: r =>
    let s1 := s.modCluster cluster fun c => { c with queue := r }
    .next (s1.retest cluster (s1.cluster cluster).deferred)
  | _ => .next s

end Sys2Proof.Machine
end

