-- ==== Sys2Proof/Machine/Convert.lean ====
section
/-! DEFINITION. Conversion, packing, quantisation, packed dot products and moves (R213 to R219), and the derivation of block
scales (R158, R159). -/

namespace Sys2Proof.Machine

/-- What one element of a type is (R149 to R152). -/
inductive Elem where
  | int (sgn : Bool) (w : Nat)
  | fp (f : FpFmt)
  | e8m0
  deriving DecidableEq, Repr

/-- The element of a type, scalar or packed. -/
def elemOf (t : Ty) : Elem :=
  match t with
  | .n8 | .n8x4 => .int false 8
  | .s8 | .s8x4 => .int true 8
  | .n16 => .int false 16
  | .s16 => .int true 16
  | .s32 => .int true 32
  | .n64 => .int false 64
  | .s64 => .int true 64
  | .n4x8 => .int false 4
  | .s4x8 => .int true 4
  | .f16 | .f16x2 => .fp fp16
  | .bf16 | .bf16x2 => .fp bf16
  | .f32 => .fp fp32
  | .f64 => .fp fp64
  | .e4m3x4 => .fp e4m3
  | .e5m2x4 => .fp e5m2
  | .e2m1x8 => .fp e2m1
  | .e8m0 => .e8m0
  | _ => .int false 32

/-- The width of an element in bits. -/
def Elem.width : Elem → Nat
  | .int _ w => w
  | .fp f => fpWidth f
  | .e8m0 => 8

/-- An element's value: an integer, or an exact value with `FTZ` applied. -/
def Elem.read (e : Elem) (ftz : Bool) (x : Nat) : Int ⊕ FV :=
  match e with
  | .int sg w => .inl (readInt sg w x)
  | .fp f => .inr (f.operand ftz (x % 2 ^ fpWidth f))
  | .e8m0 => .inr (e8m0Val x)

/-- An element's exact value. -/
def Elem.value (e : Elem) (x : Nat) : FV :=
  match e.read false x with
  | .inl n => FV.int n
  | .inr v => v

/-- Convert a value to an element's code (R155, R156).  Any integer that the destination cannot hold wraps, or is clamped under
`SAT`, whether the destination is narrower or not (log entry 86). -/
def Elem.write (e : Elem) (md : FpMod) (v : Int ⊕ FV) : Nat :=
  match e, v with
  | .int sg w, .inl n => unsigned w (if md.sat then clampInt sg w n else n)
  | .int sg w, .inr x => unsigned w (x.toInt md.rnd sg w)
  | .fp f, .inl n => f.round md (FV.int n)
  | .fp f, .inr x => f.round md x
  | .e8m0, _ => 0

/-- A code in its register form: signed codes narrower than 32 bits are sign-extended (R213). -/
def Elem.extend (e : Elem) (x : Nat) : Nat :=
  match e with
  | .int true w => if w < 32 then unsigned 32 (signed w x) else x
  | _ => x

/-- `CVT` of one source value (R213). -/
def cvtOf (dt st : Ty) (m : BitVec 8) (a : Nat) : Nat :=
  let md := FpMod.ofMod m
  let se := elemOf st
  (elemOf dt).extend ((elemOf dt).write md (se.read md.ftz (bits a (se.width * modBits m 4 3) se.width)))

/-- `CVT` (R213). -/
def cvtEff (c : Common) (f : RRR) (x : Ix) (s : State) : State :=
  let w := s.warp x.w
  let st := Ty.ofCode (f.c.code % 64)
  s.writeD x c.u f.d f.ty.regs fun l => cvtOf f.ty st f.mod (w.opd f.a st.regs l)

/-- `CVT` (R213). -/
def execCvt (c : Common) (f : RRR) (s : State) : Out := s.issue false (.cvt c f) fun x t => .adv (cvtEff c f x t)

/-- `PACK` (R214): `FTZ` acts on a floating-point source, and on a result in F16 or BF16 (R154; log entry 83). -/
def packOf (t : Ty) (m : BitVec 8) (a c : Nat) : Nat :=
  let md := FpMod.ofMod m
  let e := elemOf t
  let v : Int ⊕ FV := match e with
    | .int sg _ => .inl (readInt sg 32 a)
    | _ => .inr (fp32.operand md.ftz a)
  setBits c (e.width * modBits m 4 3) e.width (e.write md v)

/-- `PACK` (R214). -/
def packEff (c : Common) (f : RRR) (x : Ix) (s : State) : State :=
  let w := s.warp x.w
  s.writeD x c.u f.d 1 fun l => packOf f.ty f.mod (w.opd f.a 1 l) (w.opd f.c 1 l)

/-- `PACK` (R214). -/
def execPack (c : Common) (f : RRR) (s : State) : Out := s.issue false (.pack c f) fun x t => .adv (packEff c f x t)

/-- One byte of `BSEL` (R215). -/
def bselByte (src g : Nat) : Nat :=
  let y := bits src (8 * bits g 0 3) 8
  match bits g 3 2 with
  | 0 => y
  | 1 => 0
  | 2 => if bits y 7 1 == 1 then 0xFF else 0
  | _ => revOf 8 y

/-- `BSEL` (R215). -/
def bselOf (a b c : Nat) : Nat := packElems 8 4 fun i => bselByte (a + b * 2 ^ 32) (bits c (8 * i) 8)

/-- `BSEL` (R215). -/
def bselEff (c : Common) (f : RRR) (x : Ix) (s : State) : State :=
  let w := s.warp x.w
  s.writeD x c.u f.d 1 fun l => bselOf (w.opd f.a 1 l) (w.opd f.b 1 l) (w.opd f.c 1 l)

/-- `BSEL` (R215). -/
def execBsel (c : Common) (f : RRR) (s : State) : Out := s.issue false (.bsel c f) fun x t => .adv (bselEff c f x t)

/-! ### Block scales -/

/-- The exponent of the largest power of two in an element format (R159). -/
def Elem.emax (e : Elem) : Int :=
  match e with
  | .int sg w => if sg then (w : Int) - 2 else (w : Int) - 1
  | .fp f => if f == e4m3 then 8 else if f == e5m2 then 15 else 2
  | .e8m0 => 0

/-- The floor of the base-2 logarithm of a nonzero magnitude. -/
def floorLog2 (m : Nat) (e : Int) : Int := (Nat.log2 m : Int) + e

/-- The larger of two magnitudes. -/
def magMax : List FV → Nat × Int
  | [] => (0, 0)
  | x :: r =>
    let b := magMax r
    match x with
    | .fin _ m e => if dyLt b.1 b.2 m e then (m, e) else b
    | _ => b

/-- A value with no infinity and no NaN. -/
def FV.finite : FV → Bool
  | .fin _ _ _ => true
  | _ => false

/-- The scale of a block (R159). -/
def blockScale (e : Elem) (xs : List FV) : Nat :=
  if xs.any fun x => !x.finite then 0xFF
  else
    let (m, k) := magMax xs
    if m == 0 then 0x7F else (min (max (floorLog2 m k - e.emax + 127) 0) 254).toNat

/-- The element format's NaN, or 0 where it has none (R159). -/
def Elem.nanCode : Elem → Nat
  | .fp f => f.canonNan
  | _ => 0

/-- The code of one value of a block under its scale (R159), which R138's SAT does not change for scale 0xFF (log entry 56). -/
def blockCode (e : Elem) (md : FpMod) (s : Nat) (x : FV) : Nat :=
  if s == 0xFF then e.nanCode else e.write md (.inr (x.scale (127 - s)))

/-- `QNT` (R216). -/
def qntEff (f : RRR) (x : Ix) (s : State) : State :=
  let w := s.warp x.w
  let e := elemOf f.ty
  let v (l : Nat) : FV := fp32.decode (w.opd f.a 1 l)
  let sc := blockScale e (x.lanes.map v)
  (s.writeD x false f.d 1 fun l => blockCode e (FpMod.ofMod f.mod) sc (v l)).writeD x true f.c 1 fun _ => sc

/-- `QNT` (R216). -/
def execQnt (c : Common) (f : RRR) (s : State) : Out := s.issue false (.qnt c f) fun x t => .adv (qntEff f x t)

/-- `DQT` (R217). -/
def dqtOf (t : Ty) (m : BitVec 8) (a b : Nat) : Nat :=
  let e := elemOf t
  let s := b % 256
  if s == 0xFF then fp32.canonNan
  else fp32.round (FpMod.ofMod m) ((e.value (a % 2 ^ e.width)).scale ((s : Int) - 127))

/-- `DQT` (R217). -/
def dqtEff (f : RRR) (x : Ix) (s : State) : State :=
  let w := s.warp x.w
  s.writeD x false f.d 1 fun l => dqtOf f.ty f.mod (w.opd f.a 1 l) (w.opd f.b 1 l)

/-- `DQT` (R217). -/
def execDqt (c : Common) (f : RRR) (s : State) : Out := s.issue false (.dqt c f) fun x t => .adv (dqtEff f x t)

/-! ### Packed dot products -/

/-- The codes of the elements of a packed operand. -/
def elemsOf (t : Ty) (a : Nat) : List Nat := (List.range t.count).map fun i => bits a ((elemOf t).width * i) (elemOf t).width

/-- `FDP4` and `FDP8` (R218): summed exactly, rounded once. -/
def fdpOf (t : Ty) (m : BitVec 8) (a b c : Nat) : Nat :=
  let md := FpMod.ofMod m
  let ps := (elemsOf t a).zipWith (fun p q => FV.mul ((elemOf t).value p) ((elemOf t).value q)) (elemsOf t b)
  fp32.round md (FV.sum (md.rnd == .rd) (ps ++ [fp32.operand md.ftz c]))

/-- `IDP4` and `IDP8` (R218): summed exactly, wrapped or clamped. -/
def idpOf (t : Ty) (m : BitVec 8) (a b c : Nat) : Nat :=
  let sg := match elemOf t with | .int sg _ => sg | _ => false
  let v (p : Nat) : Int := readInt sg (elemOf t).width p
  let sum := ((elemsOf t a).zipWith (fun p q => v p * v q) (elemsOf t b)).sum + readInt sg 32 c
  unsigned 32 (if modBit m 3 then clampInt sg 32 sum else sum)

/-- Write a packed dot product. -/
def dotEff (c : Common) (f : RRR) (op : Ty → BitVec 8 → Nat → Nat → Nat → Nat) (x : Ix) (s : State) : State :=
  let w := s.warp x.w
  s.writeD x c.u f.d 1 fun l => op f.ty f.mod (w.opd f.a 1 l) (w.opd f.b 1 l) (w.opd f.c 1 l)

/-- `FDP4` (R218). -/
def execFdp4 (c : Common) (f : RRR) (s : State) : Out := s.issue false (.fdp4 c f) fun x t => .adv (dotEff c f fdpOf x t)

/-- `FDP8` (R218). -/
def execFdp8 (c : Common) (f : RRR) (s : State) : Out := s.issue false (.fdp8 c f) fun x t => .adv (dotEff c f fdpOf x t)

/-- `IDP4` (R218). -/
def execIdp4 (c : Common) (f : RRR) (s : State) : Out := s.issue false (.idp4 c f) fun x t => .adv (dotEff c f idpOf x t)

/-- `IDP8` (R218). -/
def execIdp8 (c : Common) (f : RRR) (s : State) : Out := s.issue false (.idp8 c f) fun x t => .adv (dotEff c f idpOf x t)

/-! ### Moves -/

/-- `MOV` (R219). -/
def execMov (c : Common) (f : RRR) (s : State) : Out :=
  s.issue false (.mov c f) fun x t => .adv (unaryEff c f f.ty.regs f.ty.regs id x t)

/-- `MOVI` (R219). -/
def moviEff (c : Common) (f : RI) (x : Ix) (s : State) : State := s.writeD x c.u f.d f.ty.regs fun _ => widen f.ty f.imm

/-- `MOVI` (R219). -/
def execMovi (c : Common) (f : RI) (s : State) : Out := s.issue false (.movi c f) fun x t => .adv (moviEff c f x t)

end Sys2Proof.Machine
end

