-- ==== Sys2Proof/Machine/Moment.lean ====
section
/-! DEFINITION. Moment arithmetic (R96 to R107, R264 to R266). -/

namespace Sys2Proof.Machine

/-! ### Steps that round (R96, R107) -/

/-- A computation on FP32 values that notes when a step rounds a finite value to an infinity (`OV`, R107). -/
abbrev MomM := StateM Bool

/-- Run it from no overflow: the value and whether a step overflowed. -/
def runMom {α : Type} (m : MomM α) : α × Bool := m false

/-- A value is infinite. -/
def FV.isInf : FV → Bool
  | .inf _ => true
  | _ => false
/-- A value is a finite number. -/
def FV.isFin : FV → Bool
  | .fin _ _ _ => true
  | _ => false
/-- A number below zero; −0 and NaN are not (R106). -/
def FV.isNeg (x : FV) : Bool := x.lt (.fin false 0 0)
/-- A zero of either sign. -/
def FV.isZero (x : FV) : Bool := x.eq (.fin false 0 0)
/-- +0 -/
def fvZero : FV := .fin false 0 0
/-- 1 -/
def fvOne : FV := .fin false 1 0
/-- The FP32 value of a code. -/
def fv32 (x : Nat) : FV := fp32.decode x

/-- A result, with `OV` noted when the exact value is finite. -/
def momOut (finite : Bool) (code : Nat) : MomM FV := do
  let y := fv32 code
  if finite && y.isInf then set true
  pure y

/-- RN of an exact value. -/
def mRn (x : FV) : MomM FV := momOut x.isFin (fp32.round {} x)
/-- RN(a + b) -/
def mAdd (a b : FV) : MomM FV := mRn (a.add false b)
/-- RN(a − b) -/
def mSub (a b : FV) : MomM FV := mRn (a.add false b.neg)
/-- RN(a · b) -/
def mMul (a b : FV) : MomM FV := mRn (a.mul b)
/-- RN(a / b), as `FDIV` computes it. -/
def mDiv (a b : FV) : MomM FV := momOut (a.isFin && b.isFin && !b.isZero) (fp32.div {} a b)
/-- RN(√a) -/
def mSqrt (a : FV) : MomM FV := pure (fv32 (fp32.sqrt {} a))
/-- A function of R157 (R102: `PHI`, `PDF`, `EX2`). -/
def mFun (f : TFun) (x : FV) : MomM FV := momOut x.isFin (f.eval {} x)
/-- max(x, +0): a negative value and −0 give +0; NaN stays. -/
def FV.plus (x : FV) : FV := if x.isNeg || x.isZero then fvZero else x

/-! ### Moments -/

/-- A moment: mean and variance. -/
structure Mom where
  mean : FV
  var : FV
  deriving DecidableEq, Repr

/-- The moment of a register (R96). -/
def momOf (x : DWord) : Mom := { mean := fv32 (x.toNat % 2 ^ 32), var := fv32 (x.toNat / 2 ^ 32) }

/-- A half is NaN. -/
def Mom.isNan (x : Mom) : Bool := x.mean.isNan || x.var.isNan

/-- The register of a moment: both halves the canonical NaN when either is NaN, and no −0 variance (R96). -/
def Mom.code (x : Mom) : DWord :=
  if x.isNan then 0x7FC000007FC00000
  else .ofNat 64 (fp32.round {} x.mean + (if x.var.isZero then 0 else fp32.round {} x.var) * 2 ^ 32)

/-- What a moment computation answers in a lane: a value, and whether a negative variance was found and replaced by +0
(R106). -/
structure MRes (α : Type) where
  val : α
  neg : Bool := false

/-- A result without a check of its variance. -/
def momRes (mean var : FV) : MRes Mom := { val := { mean := mean, var := var } }

/-- A result whose variance is checked when `chk` (R106). -/
def momChk (chk : Bool) (mean var : FV) : MRes Mom :=
  if chk && var.isNeg then { val := { mean := mean, var := fvZero }, neg := true } else momRes mean var

/-- A variance that comes out negative where R106 lists no check: it never stands (R96), and the spec states no value in its
place, which is a free one that is neither negative nor NaN (log entry 82). -/
def momClip (var : FV) : FV :=
  if var.isNeg then
    match fv32 ((Config.freeVar (fp32.round {} var)).toNat % 2 ^ 31) with
    | .nan => fvZero
    | y => y
  else var

/-- The covariance modes (R98). -/
inductive Cov where
  | ind | pos | neg | exp
  deriving DecidableEq, Repr

/-- The mode of a `COV` field. -/
def covOf (c : BitVec 2) : Cov :=
  match c.toNat with
  | 0 => .ind | 1 => .pos | 2 => .neg | _ => .exp

/-- The covariance c of a mode; `e` is the operand of EXP (R98). -/
def mCov (m : Cov) (a b : Mom) (e : FV) : MomM FV := do
  match m with
  | .ind => pure fvZero
  | .pos => mMul (← mSqrt a.var) (← mSqrt b.var)
  | .neg => pure (← mMul (← mSqrt a.var) (← mSqrt b.var)).neg
  | .exp => pure e

/-- `MADD` and `MSUB` (R99). -/
def mSum (sub : Bool) (m : Cov) (a b : Mom) (e : FV) : MomM (MRes Mom) := do
  let mean ← if sub then mSub a.mean b.mean else mAdd a.mean b.mean
  let square (minus : Bool) : MomM FV := do
    let sa ← mSqrt a.var
    let sb ← mSqrt b.var
    let t ← if minus then mSub sa sb else mAdd sa sb
    mMul t t
  match m with
  | .ind => pure (momRes mean (← mAdd a.var b.var))
  | .pos => pure (momRes mean (← square sub))
  | .neg => pure (momRes mean (← square !sub))
  | .exp => pure (momChk true mean (← mAdd (← mAdd a.var b.var) ((e.scale 1).negIf sub)))

/-- The variance of a product (R100), with the covariance c. -/
def mMulVar (m : Cov) (a b : Mom) (c g : FV) : MomM FV := do
  let x ← mMul a.mean a.mean
  let y ← mMul b.mean b.mean
  let p ← mMul x b.var
  let q ← mMul y a.var
  let w ← mMul a.var b.var
  let t ← mAdd (← mAdd p q) w
  if m == .ind then pure t
  else
    let k2 ← mMul c c
    mAdd t (← mAdd k2 ((← mMul g c).scale 1))

/-- A product with its variance: it is checked in EXP mode (R106). -/
def momProduct (m : Cov) (mean var : FV) : MRes Mom := if m == .exp then momChk true mean var else momRes mean (momClip var)

/-- `MMUL` (R100). -/
def mProd (m : Cov) (a b : Mom) (e : FV) : MomM (MRes Mom) := do
  let g ← mMul a.mean b.mean
  let c ← mCov m a b e
  let var ← mMulVar m a b c g
  let mean ← if m == .ind then pure g else mAdd g c
  pure (momProduct m mean var)

/-- `MFMA` (R101). -/
def mFma (m : Cov) (a b k : Mom) (e : FV) : MomM (MRes Mom) := do
  let g ← mMul a.mean b.mean
  let c ← mCov m a b e
  let var ← mMulVar m a b c g
  let mean ← mRn (((a.mean.mul b.mean).add false c).add false k.mean)
  pure (momProduct m mean (← mAdd var k.var))

/-- `MSCL` (R99). -/
def mScl (k : FV) (a : Mom) : MomM (MRes Mom) := do
  let mean ← mMul k a.mean
  pure (momRes mean (← mMul (← mMul k k) a.var))

/-- `LOG2E` and `L` (R102). -/
def momLog2e : FV := fv32 0x3FB8AA3B
/-- RN(π/8) -/
def momL : FV := fv32 0x3EC90FDB

/-- `MRELU` (R102). -/
def mRelu (a : Mom) : MomM (MRes Mom) := do
  if a.var.isZero then pure (momRes a.mean.plus fvZero)
  else
    let s ← mSqrt a.var
    let al ← mDiv a.mean s
    let p ← mFun .phi al
    let d ← mFun .pdf al
    let mean ← mAdd (← mMul a.mean p) (← mMul s d)
    let l ← mMul (← mAdd (← mMul a.mean a.mean) a.var) p
    let r ← mMul (← mMul a.mean s) d
    let e2 ← mAdd l r
    let var ← mSub e2 (← mMul mean mean)
    pure (momRes mean var.plus)

/-- `MSIGM` (R102). -/
def mSigm (a : Mom) : MomM (MRes Mom) := do
  let t ← mSqrt (← mAdd fvOne (← mMul momL a.var))
  let z ← mDiv a.mean t
  let e ← mFun .ex2 (← mMul z.neg momLog2e)
  let mean ← mDiv fvOne (← mAdd fvOne e)
  let u ← mMul mean (← mSub fvOne mean)
  let w ← mSub fvOne (← mDiv fvOne t)
  pure (momRes mean (← mMul u w))

/-- `MEXP` (R102). -/
def mExp (a : Mom) : MomM (MRes Mom) := do
  let h ← mRn (a.var.scale (-1))
  let mean ← mFun .ex2 (← mMul (← mAdd a.mean h) momLog2e)
  let u ← mSub (← mFun .ex2 (← mMul a.var momLog2e)) fvOne
  pure (momRes mean (← mMul u (← mMul mean mean)))

/-- th2 of `MMAX`, `MMIN` and `MPLT`: a negative one counts as +0, and in EXP mode it is a negative variance (R102, R103,
R106). -/
def mTh2 (m : Cov) (a b : Mom) (c : FV) : MomM (MRes FV) := do
  let t ← mSub (← mAdd a.var b.var) (c.scale 1)
  pure (if t.isNeg then { val := fvZero, neg := m == .exp } else { val := t })

/-- `MMAX` (R102) of a and b with the covariance c. -/
def mMaxOf (m : Cov) (a b : Mom) (c : FV) : MomM (MRes Mom) := do
  let th2 ← mTh2 m a b c
  if th2.val.isZero then
    pure { val := if b.mean.lt a.mean || a.mean.eq b.mean then a else b, neg := th2.neg }
  else
    let th ← mSqrt th2.val
    let al ← mDiv (← mSub a.mean b.mean) th
    let p ← mFun .phi al
    let q ← mFun .phi al.neg
    let d ← mFun .pdf al
    let mean ← mAdd (← mAdd (← mMul a.mean p) (← mMul b.mean q)) (← mMul th d)
    let ea ← mMul (← mAdd (← mMul a.mean a.mean) a.var) p
    let eb ← mMul (← mAdd (← mMul b.mean b.mean) b.var) q
    let ec ← mMul (← mMul (← mAdd a.mean b.mean) th) d
    let e2 ← mAdd (← mAdd ea eb) ec
    let var ← mSub e2 (← mMul mean mean)
    pure (momRes mean var.plus)

/-- `MMAX` (R102). -/
def mMax (m : Cov) (a b : Mom) (e : FV) : MomM (MRes Mom) := do mMaxOf m a b (← mCov m a b e)

/-- `MMIN` (R102): −`MMAX`(−a, −b) with the same c. -/
def mMin (m : Cov) (a b : Mom) (e : FV) : MomM (MRes Mom) := do
  let r ← mMaxOf m { a with mean := a.mean.neg } { b with mean := b.mean.neg } (← mCov m a b e)
  pure { r with val := { r.val with mean := r.val.mean.neg } }

/-- `MPLT` (R103). -/
def mPlt (m : Cov) (a b : Mom) (e : FV) : MomM (MRes FV) := do
  let th2 ← mTh2 m a b (← mCov m a b e)
  if th2.val.isZero then pure { val := if a.mean.lt b.mean then fvOne else fvZero, neg := th2.neg }
  else
    let x ← mDiv (← mSub b.mean a.mean) (← mSqrt th2.val)
    pure { val := ← mFun .phi x }

/-- `MCOL` (R104): z is the multiplier in `vD`. -/
def mCol (form : Nat) (a : Mom) (z : FV) : MomM (MRes FV) := do
  match form with
  | 0 => pure { val := a.mean }
  | 1 => pure { val := a.var }
  | 2 => pure { val := ← mSqrt a.var }
  | _ =>
    let s ← mSqrt a.var
    pure { val := ← mRn (a.mean.add false (z.mul s)) }

/-- One level of the pairwise tree (R105). -/
def mLevel : List FV → MomM (List FV)
  | a :: b :: r => do pure ((← mAdd a b) :: (← mLevel r))
  | l => pure l

/-- The sum of 32 values by the pairwise tree (R105). -/
def mTree (l : List FV) : MomM FV := do
  let l ← mLevel l
  let l ← mLevel l
  let l ← mLevel l
  let l ← mLevel l
  let l ← mLevel l
  pure (l.headD fvZero)

/-- `MRED` (R105) of the moments of 32 lanes. -/
def mRedOf (m : Cov) (l : List Mom) : MomM (MRes Mom) := do
  let mean ← mTree (l.map (·.mean))
  if m == .pos then
    let s ← mTree (← l.mapM fun x => mSqrt x.var)
    pure (momRes mean (← mMul s s))
  else pure (momRes mean (← mTree (l.map (·.var))))

/-! ### Instructions -/

/-- NVAR -/
def cNvar : BitVec 8 := 0x30
/-- The moment of two NaN halves. -/
def momNan : Mom := { mean := .nan, var := .nan }

/-- A moment computation unless an operand has a NaN half (R96): then no step of it is performed (log entry 55). -/
def momGuard {α : Type} (nan : α) (ops : List Mom) (m : MomM (MRes α)) : MomM (MRes α) :=
  if ops.any Mom.isNan then pure { val := nan } else m

/-- A lane's result as it is written: 64 bits, or 32 for a `v` register, and whether it is NaN. -/
structure MLane where
  lane : Nat
  code : Nat
  nan : Bool
  neg : Bool
  ov : Bool
  deriving DecidableEq, Repr

/-- A lane's moment (R96). -/
def momLane (l : Nat) (m : MomM (MRes Mom)) : MLane :=
  let (r, ov) := runMom m
  { lane := l, code := r.val.code.toNat, nan := r.val.isNan, neg := r.neg, ov := ov }

/-- A lane's FP32 value (R107). -/
def fpLane (l : Nat) (m : MomM (MRes FV)) : MLane :=
  let (r, ov) := runMom m
  { lane := l, code := fp32.round {} r.val, nan := r.val.isNan, neg := r.neg, ov := ov }

/-- The sticky bits a completing instruction sets (R107). -/
def mstatOf (l : List MLane) : Word :=
  (if l.any (·.neg) then 1 else 0) ||| (if l.any (·.nan) then 2 else 0) ||| (if l.any (·.ov) then 4 else 0)

/-- Write lanes' results to a moment register. -/
def Warp.wmLanes (w : Warp) (r : Nat) : List MLane → Warp
  | [] => w
  | x :: t => (w.wm r x.lane (.ofNat 64 x.code)).wmLanes r t

/-- Write lanes' results to an ordinary register. -/
def Warp.wvLanes (w : Warp) (o : Opd) : List MLane → Warp
  | [] => w
  | x :: t => (w.wopd o 1 x.lane x.code).wvLanes o t

/-- The end of a moment instruction (R106, R107, R266): NVAR for the first lane with a negative variance unless `NVM`
clamps it, else the writes and the status. -/
def State.momEnd (s : State) (x : Ix) (l : List MLane) (put : Warp → List MLane → Warp) : Res :=
  let w := s.warp x.w
  match if w.mctl.getLsbD 0 then none else l.find? (·.neg) with
  | some b => .raise s (precise cNvar x.cp b.lane)
  | none => .adv (s.setWarp x.w ((put w l).mstatSet (mstatOf l)))

/-- A moment instruction that writes `mD`. -/
def State.momDo (s : State) (x : Ix) (f : FK) (m : Nat → MomM (MRes Mom)) : Res :=
  s.momEnd x (x.lanes.map fun l => momLane l (m l)) fun w l => w.wmLanes f.md.toNat l

/-- A moment operand in a lane. -/
def Warp.mom (w : Warp) (r : BitVec 6) (l : Nat) : Mom := momOf (w.rm r.toNat l)
/-- The ordinary operand as FP32. -/
def Warp.momV (w : Warp) (f : FK) (l : Nat) : FV := fv32 (w.word f.v 0 l).toNat

/-- A binary form (R97). -/
def State.momBin (s : State) (x : Ix) (f : FK) (op : Cov → Mom → Mom → FV → MomM (MRes Mom)) : Res :=
  let w := s.warp x.w
  s.momDo x f fun l =>
    momGuard momNan [w.mom f.ma l, w.mom f.mb l] (op (covOf f.cov) (w.mom f.ma l) (w.mom f.mb l) (w.momV f l))

/-- A unary form. -/
def State.momUn (s : State) (x : Ix) (f : FK) (op : Nat → Mom → MomM (MRes Mom)) : Res :=
  let w := s.warp x.w
  s.momDo x f fun l => momGuard momNan [w.mom f.ma l] (op l (w.mom f.ma l))

/-- A pair as `MSET` and `MLD` take it: a negative variance is checked, whatever the mean is; a NaN half makes both NaN as they
are written (R96, R106). -/
def mPair (p : Mom) : MomM (MRes Mom) := pure (momChk true p.mean p.var)

/-- `MSET` (R97, R106). -/
def execMset (c : Common) (f : FK) (s : State) : Out :=
  s.issue false (.mset c f) fun x t =>
    t.momDo x f fun l => mPair (momOf (.ofNat 64 ((t.warp x.w).opd f.v 2 l)))

/-- `MMOV` (R97): a copy. -/
def execMmov (c : Common) (f : FK) (s : State) : Out :=
  s.issue false (.mmov c f) fun x t => t.momUn x f fun _ a => pure { val := a }

/-- `MADD` (R99). -/
def execMadd (c : Common) (f : FK) (s : State) : Out := s.issue false (.madd c f) fun x t => t.momBin x f (mSum false)
/-- `MSUB` (R99). -/
def execMsub (c : Common) (f : FK) (s : State) : Out := s.issue false (.msub c f) fun x t => t.momBin x f (mSum true)
/-- `MMUL` (R100). -/
def execMmul (c : Common) (f : FK) (s : State) : Out := s.issue false (.mmul c f) fun x t => t.momBin x f mProd
/-- `MMAX` (R102). -/
def execMmax (c : Common) (f : FK) (s : State) : Out := s.issue false (.mmax c f) fun x t => t.momBin x f mMax
/-- `MMIN` (R102). -/
def execMmin (c : Common) (f : FK) (s : State) : Out := s.issue false (.mmin c f) fun x t => t.momBin x f mMin

/-- `MFMA` (R101). -/
def execMfma (c : Common) (f : FK) (s : State) : Out :=
  s.issue false (.mfma c f) fun x t =>
    let w := t.warp x.w
    t.momDo x f fun l =>
      momGuard momNan [w.mom f.ma l, w.mom f.mb l, w.mom f.mc l]
        (mFma (covOf f.cov) (w.mom f.ma l) (w.mom f.mb l) (w.mom f.mc l) (w.momV f l))

/-- `MSCL` (R99). -/
def execMscl (c : Common) (f : FK) (s : State) : Out :=
  s.issue false (.mscl c f) fun x t => t.momUn x f fun l a => mScl ((t.warp x.w).momV f l) a
/-- `MRELU` (R102). -/
def execMrelu (c : Common) (f : FK) (s : State) : Out :=
  s.issue false (.mrelu c f) fun x t => t.momUn x f fun _ => mRelu
/-- `MSIGM` (R102). -/
def execMsigm (c : Common) (f : FK) (s : State) : Out :=
  s.issue false (.msigm c f) fun x t => t.momUn x f fun _ => mSigm
/-- `MEXP` (R102). -/
def execMexp (c : Common) (f : FK) (s : State) : Out := s.issue false (.mexp c f) fun x t => t.momUn x f fun _ => mExp

/-- A form that writes an FP32 value to `vD`. -/
def State.momV (s : State) (x : Ix) (f : FK) (m : Nat → MomM (MRes FV)) : Res :=
  s.momEnd x (x.lanes.map fun l => fpLane l (m l)) fun w l => w.wvLanes f.v l

/-- `MPLT` (R103). -/
def execMplt (c : Common) (f : FK) (s : State) : Out :=
  s.issue false (.mplt c f) fun x t =>
    let w := t.warp x.w
    t.momV x f fun l =>
      momGuard .nan [w.mom f.ma l, w.mom f.mb l] (mPlt (covOf f.cov) (w.mom f.ma l) (w.mom f.mb l) (w.momV f l))

/-- `MCOL` (R104). -/
def execMcol (c : Common) (f : FK) (s : State) : Out :=
  s.issue false (.mcol c f) fun x t =>
    let w := t.warp x.w
    t.momV x f fun l => momGuard .nan [w.mom f.ma l] (mCol (modBits f.mod 0 3) (w.mom f.ma l) (w.momV f l))

/-- `MRED` (R105, R266): lanes that do not take part contribute (+0, +0). -/
def execMred (c : Common) (f : FK) (s : State) : Out :=
  s.issue false (.mred c f) fun x t =>
    let w := t.warp x.w
    let l := allLanes.map fun k => if x.lanes.contains k then w.mom f.ma k else { mean := fvZero, var := fvZero }
    let r := momGuard momNan l (mRedOf (covOf f.cov) l)
    t.momDo x f fun _ => r

/-- `MSHFL` (R105, R199, R266). -/
def execMshfl (c : Common) (f : FK) (s : State) : Out :=
  s.issue false (.mshfl c f) fun x t =>
    let w := t.warp x.w
    let src (l : Nat) : Bool × Nat :=
      x.shflLane (modBits f.mod 0 2) (2 ^ modBits f.mod 2 3) (w.word f.v 0 l).toNat l
    let lane (l : Nat) : MLane :=
      let y := w.rm f.ma.toNat (src l).2
      { lane := l, code := y.toNat, nan := (momOf y).isNan, neg := false, ov := false }
    .adv ((t.setWarp x.w ((w.wmLanes f.md.toNat (x.lanes.map lane)).mstatSet (mstatOf (x.lanes.map lane)))).writeP x false
      f.pd fun l => (src l).1)

/-- The address fields of `MLD` and `MST` in the form the loads and stores use (R265). -/
def mAddress (f : FK) : FM :=
  { r := .zero, bx := f.mc.setWidth 4, idx := f.v, off := f.off, ty := .n64, mod := f.mod, c := .zero, pd := f.pd }

/-- `MLD` (R265): after the faults of R224, NVAR; only then are its reads on record (R106, R184). -/
def execMld (c : Common) (f : FK) (s : State) : Out :=
  s.issue false (.mld c f) fun x t =>
    t.access x (mAddress f) false .load 8 fun sp keys absent u =>
      if !absent.isEmpty then u.blockOnChunk x absent
      else
        match u.loadChecks x sp 8 keys with
        | .error (v, r) => .raise v r
        | .ok v =>
          (v.momDo x f fun l => mPair (momOf (.ofNat 64 (v.getLocal sp (tget 0 keys l) 8)))).after fun y =>
            y.loadRecord x sp 8 keys

/-- `MST` (R265). -/
def execMst (c : Common) (f : FK) (s : State) : Out :=
  s.issue false (.mst c f) fun x t =>
    t.access x (mAddress f) false .store 8 fun sp keys l u =>
      storeAct 8 (fun k => ((t.warp x.w).rm f.ma.toNat k).toNat) x sp keys l u

end Sys2Proof.Machine
end

