-- ==== Sys2Proof/Machine/Matrix.lean ====
section
/-! DEFINITION. The matrix unit: convergence registers, accumulator tiles, tile loads and stores, attention steps and the
moment matrix (R108, R128 to R141, R258 to R263). -/

namespace Sys2Proof.Machine

/-! ### Tiles (R8, R137) -/

/-- Words of a tile. -/
def tileWords : Nat := 64 * 192

/-- The first key of the tile a block names. -/
def State.tileKey (s : State) (b z : Nat) : Nat :=
  let k := s.blk b
  match k.tiles.find? fun (n, _, _) => n == z with
  | some (_, p, _) => (8 * k.core + p) * tileWords
  | none => 0

/-- An element of a block's tile. -/
def State.tile (s : State) (b z i j : Nat) : Word := tget 0 s.tiles (s.tileKey b z + 192 * i + j)

/-- The entries of a table of words from a key on, in canonical form. -/
def tileList (f : Nat → Word) (k : Nat) : Nat → Nat → Tab Word
  | _, 0 => []
  | i, n + 1 => if f i = 0 then tileList f k (i + 1) n else (k + i, f i) :: tileList f k (i + 1) n

/-- Write every element of a block's tile; the words are poisoned no more (R375). -/
def State.setTile (s : State) (b z : Nat) (f : Nat → Nat → Word) : State :=
  let k := s.tileKey b z
  { s with
    tiles := (s.tiles.filter fun (a, _) => a < k) ++ tileList (fun i => f (i / 192) (i % 192)) k 0 tileWords ++
      s.tiles.filter fun (a, _) => k + tileWords ≤ a
    poisonTile := s.poisonTile.filter fun a => a < k || k + tileWords ≤ a }

/-- Write the first n columns of a block's tile; the others, with their marks, stay as they are (R139, R375). -/
def State.setCols (s : State) (b z n : Nat) (f : Nat → Nat → Word) : State :=
  let k := s.tileKey b z
  { s.setTile b z fun i j => if j < n then f i j else s.tile b z i j with
    poisonTile := s.poisonTile.filter fun a => !(k ≤ a && a < k + tileWords && (a - k) % 192 < n) }

/-- A tile takes unspecified contents: a free value in every word (R135, R139; log entry 3). -/
def State.freeTile (s : State) (b z : Nat) : State :=
  let n := s.freeCtr
  { s.setTile b z fun i j => Config.freeWord (n + 192 * i + j) with freeCtr := n + tileWords }

/-- A word of a block's tile is poisoned in columns that satisfy a test. -/
def State.tilePoison (s : State) (b z : Nat) (cols : Nat → Nat → Bool) : Bool :=
  let k := s.tileKey b z
  s.poisonTile.any fun a => k ≤ a && a < k + tileWords && cols ((a - k) / 192) ((a - k) % 192)

/-! ### Elements (R128 to R132) -/

/-- The element of a slot code. -/
def slotElem (code : Nat) : Elem :=
  match code with
  | 0 => .fp bf16 | 1 => .fp fp16 | 2 => .fp e4m3 | 3 => .fp e5m2 | 4 => .fp e2m1 | 5 => .int true 8 | 6 => .int true 4
  | 7 => .int false 8 | _ => .fp fp32

/-- K of an element width (R128). -/
def kOf (w : Nat) : Nat := if w == 16 then 16 else if w == 8 then 32 else 64

/-- Element k of row i of the deposited A (R129). -/
def aElem (e : Elem) (a : ARows) (i k : Nat) : FV :=
  let bit := k * e.width
  let word := tget 0 a.rows (16 * (i / 2) + 8 * (i % 2) + bit / 32)
  e.value (bits word.toNat (bit % 32) e.width)

/-- The E8M0 scale of row i for element k (R131): unsigned lanes contribute 0x7F (R134). -/
def aScale (a : ARows) (i k : Nat) : FV :=
  e8m0Val (bits (tget 0x7F7F7F7F a.scales (i / 2)).toNat (16 * (i % 2) + 8 * (k / 32)) 8)

/-- Element k of the column at a key (R130). -/
def bElem (e : Elem) (m : List Host.Cell) (col k : Nat) : FV :=
  let bit := k * e.width
  e.value (bits (rdNat m (col + bit / 8) 4) (bit % 8) e.width)

/-- The column stride of B (R130). -/
def bStride (scl : Nat) : Nat := if scl == 1 then 36 else 32

/-- One new element of an `MMA` (R128, R131): products exact, the sum exact, one rounding. -/
def mmaElem (slot : Nat) (a : ARows) (sa sb : Word) (m : List Host.Cell) (key : Nat) (z : Word) (i j : Nat) : Word :=
  let ea := slotElem (slotA slot)
  let eb := slotElem (slotB slot)
  let scl := slotScl slot
  let col := key + bStride scl * j
  let prod (k : Nat) : FV :=
    let p := (aElem ea a i k).mul (bElem eb m col k)
    if scl == 1 then (p.mul (aScale a i k)).mul (e8m0Val (rdByte m (col + 32 + k / 32)).toNat)
    else if scl == 2 then (p.mul (fv32 sa.toNat)).mul (fv32 sb.toNat)
    else p
  let sum := FV.sum false ((List.range (kOf ea.width)).map prod)
  .ofNat 32 (fp32.round {} ((fv32 z.toNat).add false sum))

/-! ### Convergence registers (R133, R134, R136) -/

/-- CONVERGENCE -/
def cConverge : BitVec 8 := 0x24

/-- `CINIT` (R133, R237). -/
def execCinit (c : Common) (f : FS) (s : State) : Out :=
  s.issue false (.cinit c f) fun x t =>
    let w := t.warp x.w
    let k := modBits f.mod 0 4
    let n := f.imm.toNat
    if x.lanes.isEmpty then .adv t
    else if n < 1 || 32 < n || (w.rc k).mask != 0 then .raise t (precise cConverge x.cp x.first)
    else .adv (t.setWarp x.w (w.wc k { init := true, expect := n }))

/-- The width of a slot's A elements. -/
def slotWidth (slot : Nat) : Nat := (slotElem (slotA slot)).width

/-- A signature breaks R134 or R136. -/
def Conv.refuses (k : Conv) (w : Warp) (moment : Bool) (f : FX) (slot : Nat) (addr : Int) (lanes : List Nat) : Bool :=
  let signed := (lanesOf k.mask).length
  !k.init || k.expect < signed + lanes.length || k.mask &&& maskOf lanes != 0 ||
    k.mask != 0 && !(k.moment == moment && k.zd == f.zd && k.fslot == f.fslot && k.sa == f.sa.code && k.mod == f.mod &&
      k.addr == addr) ||
    match w.latch with
    | some l => l.width != slotWidth slot
    | none => false

/-- The rows and the scale word that lanes deposit (R129, R131): in a mode without a scale for each row, every scale byte is
1.0 as E8M0 (log entry 56). -/
def Warp.deposit (w : Warp) (f : FX) (scl : Nat) (a : ARows) : List Nat → ARows
  | [] => a
  | l :: r =>
    let words := (List.range 16).foldl (fun t i => tput 0 t (16 * l + i) (w.word f.a i l)) a.rows
    let scale : Word := if scl == 1 then w.word f.sa 0 l else 0x7F7F7F7F
    w.deposit f scl { rows := words, scales := tset a.scales l scale } r

/-- The register after a signature.  In a mode without an FP32 scale A's and B's are 1.0 (log entry 56). -/
def Conv.sign (k : Conv) (w : Warp) (moment : Bool) (f : FX) (scl : Nat) (addr : Int) (x : Ix) (flag : Nat) : Conv :=
  let one : Word := 0x3F800000
  let first : Conv :=
    { k with
      moment := moment
      zd := f.zd
      fslot := f.fslot
      sa := f.sa.code
      mod := f.mod
      addr := addr
      bk := w.rb f.bx.toNat
      scaleA := if scl == 2 then w.word f.sa 0 x.first else one
      scaleB := if scl == 2 then w.word f.sa 1 x.first else one
      pc := x.cp }
  let k1 := if k.mask == 0 then first else k
  { k1 with mask := k1.mask ||| maskOf x.lanes, rows := w.deposit f scl k1.rows x.lanes, flags := k1.flags ++ [flag] }

/-- The operation of a full register issues (R134, R136): A comes from the latch when it holds one. -/
def State.signedIssue (s : State) (x : Ix) (k : Conv) (n slot : Nat) : State :=
  let w := s.warp x.w
  let rows := match w.latch with | some l => l.rows | none => k.rows
  let sa := match w.latch with | some l => l.scaleA | none => k.scaleA
  let latch : Option Latch :=
    if k.mod.getLsbD 0 then some { width := slotWidth slot, rows := rows, scaleA := sa } else none
  let kind : AsyncKind := .mma k.moment k.zd.toNat (.ofNat 32 slot) k.mod rows sa k.scaleB k.bk k.addr
  match s.takeOp x.w with
  | (m, v, t) =>
    let op : AsyncOp :=
      { warp := x.w, kind := kind, flags := k.flags, pc := k.pc, nvm := w.mctl.getLsbD 0, rsn := w.rsn, vc := v }
    let t1 := t.modWarp x.w fun y => { y.wc n { init := true, expect := k.expect } with latch := latch }
    { t1 with ops := tset t1.ops m op }

/-- A signing instruction for an entry (R134, R259). -/
def State.signAct (s : State) (x : Ix) (moment : Bool) (c : Common) (f : FX) : Res :=
  let w := s.warp x.w
  let slot := (s.wgrid x.w).slot f.fslot.toNat
  let n := f.cv.toNat
  let k := w.rc n
  let addr : Int := (w.rb f.bx.toNat).ptr.toNat + f.off.toInt
  let flag := s.fsFlag x c
  if x.lanes.isEmpty then .adv s
  else if k.refuses w moment f slot addr x.lanes then .raise s (precise cConverge x.cp x.first)
  else if s.flagFull x.w flag then .keep s
  else
    let k1 := k.sign w moment f (slotScl slot) addr x flag
    let t := s.modWarp x.w fun y => (y.flagUp flag).wc n k1
    let t1 := if (lanesOf k1.mask).length == k1.expect then t.signedIssue x k1 n slot else t
    .adv (t1.restart x x.lanes)

/-- `MMA` (R134). -/
def execMma (c : Common) (f : FX) (s : State) : Out := s.issue false (.mma c f) fun x t => t.signAct x false c f

/-- `MMOM` (R108). -/
def execMmom (c : Common) (f : FX) (s : State) : Out := s.issue false (.mmom c f) fun x t => t.signAct x true c f

/-! ### Operations in order (R128, R137, R263) -/

/-- An operation of the matrix unit. -/
def AsyncKind.matrix : AsyncKind → Bool
  | .mma _ _ _ _ _ _ _ _ _ | .att _ _ _ _ _ _ _ _ _ | .attfin _ => true
  | _ => false

/-- Operation n waits for no page, and no earlier operation stands before it: of its core's matrix unit, or of its block on one
of its tiles. -/
def State.opFirst (s : State) (n : Nat) (o : AsyncOp) : Bool :=
  let b := (s.warp o.warp).block
  o.waits.isNone && s.ops.all fun (m, p) =>
    n ≤ m || !(o.kind.matrix && p.kind.matrix && (s.wblk p.warp).core == (s.blk b).core ||
      (s.warp p.warp).block == b && p.kind.tiles.any o.kind.tiles.contains)

/-- An operation ends in a fault: it is pending on the operation's flags, and the destination tiles are unspecified
(R135). -/
def State.opStop (s : State) (n : Nat) (o : AsyncOp) (r : FaultRec) (dest : List Nat) : State :=
  let t := s.modWarp o.warp fun w =>
    { w with faults := w.faults ++ [{ flags := o.flags, acc := n, fr := { r with fpc := o.pc } }] }
  (dest.foldl (fun u z => u.freeTile (s.warp o.warp).block z) t).finishOp n o

/-- The tiles that an operation writes (R135). -/
def AsyncKind.outs : AsyncKind → List Nat
  | .mma moment zd _ _ _ _ _ _ _ => if moment then [zd, zd + 1] else [zd]
  | .zld zd _ _ _ _ => [zd]
  | .att zo zs _ _ _ _ _ _ _ => [zo, zs]
  | .attfin zo => [zo]
  | .zst _ _ _ _ _ | .wflush _ => []

/-- What reaching memory gives an operation. -/
inductive Reach where
  | ok (s : State) (sp : Space) (keys : List Nat)
  | fault (s : State) (r : FaultRec)
  /-- a window's page is absent: the operation waits -/
  | wait (s : State)

/-- The fault of an operation's memory operand (R60, R130, R138, R139): ranges of len bytes, the first of them aligned to
16. -/
def State.engineFault (s : State) (b : Block) (k : Bounded) (need : Need) (addrs : List Int) (len : Nat) :
    Option (BitVec 8 × Int) :=
  let first := addrs.headD 0
  if k.sp.isNone then some (0x10, first)
  else
    (((addrs.find? fun a => k.sp == some .plinth && s.spanBarred b k.g a len).map
      fun a => ((0x10 : BitVec 8), a)).or <|
    if !k.permits need then some (0x12, first)
    else if first % 16 != 0 then some (0x11, first)
    else (addrs.find? fun a => !k.inRange a len).map fun a => (0x10, a))

/-- Operation n waits for the page of a window's chunk (R326, R332). -/
def State.opWait (s : State) (n i k : Nat) : State :=
  let y := s.window i
  { s with ops := s.ops.map fun (m, o) => (m, if m == n then { o with waits := some (y.ctx, y.page k) } else o) }

/-- Fill the chunks that operation n of a cluster touches; none when a page is absent, which is then requested and waited for, or
a fill waits for a replay (R328). -/
def State.fillAll (s : State) (n cluster : Nat) : List (Nat × Nat) → Option State × State
  | [] => (some s, s)
  | (i, k) :: r =>
    if s.fillHeld cluster i k then (none, s)
    else
      match s.fillChunk i k with
      | (some t, _) => t.fillAll n cluster r
      | (none, t) => (none, (t.fillFaulted i k).opWait n i k)

/-- The operation reaches its memory operand: faults, fills, RACE, then POISON on what it reads. -/
def State.reach (s : State) (n : Nat) (o : AsyncOp) (k : Bounded) (shared : Bool) (need : Need) (addrs : List Int)
    (len : Nat) : Reach :=
  let bad : Bool := shared && k.sp != some .shared
  match if bad then some (0x10, addrs.headD 0) else s.engineFault (s.wblk o.warp) k need addrs len with
  | some (code, a) => .fault s { code := code, addr := eaWord a }
  | none =>
    let sp := k.sp.getD .shared
    let keys := addrs.map fun a => s.keyOf o.warp sp a.toNat
    match if sp == .plinth && !s.windows.isEmpty then s.fillAll n (s.wcluster o.warp) (s.unfilled keys len) else (some s, s) with
    | (none, t) => .wait t
    | (some t, _) =>
      match t.opAccess n o (t.opAcc n o (need == .store)) sp len keys with
      | .error (key, a) =>
        .fault t { code := 0x18, addr := .ofNat 48 (offOf sp key), otag := a.tag, seq := a.rsn }
      | .ok t1 =>
        match keys.find? fun key => need == .load && t1.localPoison sp key len || t1.metaPoison sp key len with
        | some key => .fault t1 { code := 0x16, addr := .ofNat 48 (offOf sp key) }
        | none => .ok t1 sp keys

/-- POISON of a tile an operation reads (R375). -/
def poisonStop : FaultRec := { code := 0x16 }

/-- Every element of a tile. -/
def anyCol (_ _ : Nat) : Bool := true

/-- The new tile of an `MMA`. -/
def State.mmaRun (s : State) (b zd slot : Nat) (rows : ARows) (sa sb : Word) (sp : Space) (key : Nat) : State :=
  s.setTile b zd fun i j => mmaElem slot rows sa sb (s.bytes sp) key (s.tile b zd i j) i j

/-- Bytes of B (R108, R130). -/
def bBytes (moment : Bool) (scl : Nat) : Nat := if moment then 12288 else 192 * bStride scl

/-- MMA_COMPLETION (R134). -/
def execMmaCompletion (op : Nat) (s : State) : Out :=
  match tfind s.ops op with
  | none => .next s
  | some o =>
    match o.kind with
    | .mma false zd fs _ rows sa sb bk addr =>
      let b := (s.warp o.warp).block
      let slot := fs.toNat
      if !s.opFirst op o then .next s
      else
        match s.reach op o bk false .load [addr] (bBytes false (slotScl slot)) with
        | .wait t => .next t
        | .fault t r => .next (t.opStop op o r [zd])
        | .ok t sp keys =>
          if t.tilePoison b zd anyCol then .next (t.opStop op o poisonStop [zd])
          else .next ((t.mmaRun b zd slot rows sa sb sp (keys.headD 0)).finishOp op o)
    | _ => .next s

/-! ### The moment matrix (R108) -/

/-- The variance half of element k of the column at a key. -/
def bVar (m : List Host.Cell) (col k : Nat) : FV := (Elem.fp bf16).value (rdNat m (col + 4 * k + 2) 2)
/-- The mean half. -/
def bMean (m : List Host.Cell) (col k : Nat) : FV := (Elem.fp bf16).value (rdNat m (col + 4 * k) 2)

/-- Some variance of B is negative (R106). -/
def bNegative (m : List Host.Cell) (key : Nat) : Bool :=
  (List.range 192).any fun j => (List.range 16).any fun k => (bVar m (key + 64 * j) k).isNeg

/-- The exact value of an element of the mean tile (R108). -/
def momMean (rows : ARows) (m : List Host.Cell) (key : Nat) (z : Word) (i j : Nat) : FV :=
  (fv32 z.toNat).add false (FV.sum false ((List.range 16).map fun k =>
    (aElem (.fp bf16) rows i k).mul (bMean m (key + 64 * j) k)))

/-- The exact value of an element of the variance tile, a negative variance of B counting as +0 (R106, R108). -/
def momVar (rows : ARows) (m : List Host.Cell) (key : Nat) (z : Word) (i j : Nat) : FV :=
  (fv32 z.toNat).add false (FV.sum false ((List.range 16).map fun k =>
    let a := aElem (.fp bf16) rows i k
    let v := bVar m (key + 64 * j) k
    (a.mul a).mul (if v.isNeg then fvZero else v)))

/-- A step rounds a finite value to an infinity (R107). -/
def overflows (x : FV) : Bool := x.isFin && (fv32 (fp32.round {} x)).isInf

/-- The new tile pair of an `MMOM`, with the status it leaves. -/
def State.mmomRun (s : State) (w b zd : Nat) (rows : ARows) (sp : Space) (key : Nat) : State :=
  let m := s.bytes sp
  let mean (i j : Nat) : FV := momMean rows m key (s.tile b zd i j) i j
  let var (i j : Nat) : FV := momVar rows m key (s.tile b (zd + 1) i j) i j
  let plus (x : Nat) : Nat := if x == 0x80000000 then 0 else x
  let ov := (List.range 64).any fun i => (List.range 192).any fun j => overflows (mean i j) || overflows (var i j)
  let t := (s.setTile b zd fun i j => .ofNat 32 (fp32.round {} (mean i j))).setTile b (zd + 1) fun i j =>
    .ofNat 32 (plus (fp32.round {} (var i j)))
  t.modWarp w fun y => y.mstatSet ((if bNegative m key then 1 else 0) ||| (if ov then 4 else 0))

/-- MMOM_COMPLETION (R108). -/
def execMmomCompletion (op : Nat) (s : State) : Out :=
  match tfind s.ops op with
  | none => .next s
  | some o =>
    match o.kind with
    | .mma true zd _ _ rows _ _ bk addr =>
      let b := (s.warp o.warp).block
      if !s.opFirst op o then .next s
      else
        match s.reach op o bk false .load [addr] (bBytes true 0) with
        | .wait t => .next t
        | .fault t r => .next (t.opStop op o r [zd, zd + 1])
        | .ok t sp keys =>
          let key := keys.headD 0
          if t.tilePoison b zd anyCol || t.tilePoison b (zd + 1) anyCol then
            .next (t.opStop op o poisonStop [zd, zd + 1])
          else if bNegative (t.bytes sp) key && !o.nvm then .next (t.opStop op o { code := cNvar } [zd, zd + 1])
          else .next ((t.mmomRun o.warp b zd rows sp key).finishOp op o)
    | _ => .next s

/-! ### `ZCLR` and `ZMOV` (R137, R260) -/

/-- `ZCLR` (R137): `.ATT` puts −∞ into column 128. -/
def execZclr (c : Common) (f : FX) (s : State) : Out :=
  s.issue false (.zclr c f) fun x t =>
    let b := (t.warp x.w).block
    if x.lanes.isEmpty then .adv t
    else if t.tilesBusy b [f.zd.toNat] then .keep t
    else .adv (t.setTile b f.zd.toNat fun _ j => if f.mod.getLsbD 0 && j == 128 then 0xFF800000 else 0)

/-- The word of row 2L + r and column 8g + i that a lane's registers give (R137). -/
def Warp.zmovWord (w : Warp) (f : FX) (i j : Nat) : Word := w.word f.a (8 * (i % 2) + j % 8) (i / 2)

/-- `ZMOV` from registers to a tile (R260): the other elements keep their values. -/
def State.zmovIn (s : State) (x : Ix) (f : FX) : State :=
  let w := s.warp x.w
  let b := w.block
  let k := s.tileKey b f.zd.toNat
  let g := f.off.toNat
  let hit (i j : Nat) : Bool := x.lanes.contains (i / 2) && j / 8 == g
  { s.setTile b f.zd.toNat fun i j => if hit i j then w.zmovWord f i j else s.tile b f.zd.toNat i j with
    poisonTile := s.poisonTile.filter fun a =>
      !(k ≤ a && a < k + tileWords && hit ((a - k) / 192) ((a - k) % 192)) }

/-- `ZMOV` from a tile to registers. -/
def State.zmovOut (s : State) (x : Ix) (f : FX) : State :=
  let b := (s.warp x.w).block
  let g := f.off.toNat
  let lane (w : Warp) (l : Nat) : Warp :=
    (List.range 16).foldl (fun y i => y.wword f.a i l (s.tile b f.zd.toNat (2 * l + i / 8) (8 * g + i % 8))) w
  s.setWarp x.w (x.lanes.foldl lane (s.warp x.w))

/-- The first lane whose words of the tile are poisoned. -/
def State.zmovPoison (s : State) (x : Ix) (f : FX) : Option Nat :=
  let b := (s.warp x.w).block
  x.lanes.find? fun l => s.tilePoison b f.zd.toNat fun i j => i / 2 == l && j / 8 == f.off.toNat

/-- `ZMOV` (R137, R260): it waits for the operations of the block that name the tile. -/
def execZmov (c : Common) (f : FX) (s : State) : Out :=
  s.issue false (.zmov c f) fun x t =>
    let b := (t.warp x.w).block
    if x.lanes.isEmpty then .adv t
    else if t.tilesBusy b [f.zd.toNat] then .keep t
    else if f.mod.getLsbD 0 then .adv (t.zmovIn x f)
    else
      match t.zmovPoison x f with
      | some l => .raise t (precise 0x16 x.cp l)
      | none => .adv (t.zmovOut x f)

/-! ### `ZLD` and `ZST` (R137, R138, R261) -/

/-- An asynchronous instruction that needs no signature: accepted under its flag (R169). -/
def State.acceptAct (s : State) (x : Ix) (c : Common) (kind : AsyncKind) : Res :=
  let flag := s.fsFlag x c
  if x.lanes.isEmpty then .adv s
  else if s.flagFull x.w flag then .keep s
  else .adv ((s.acceptOp x kind flag).restart x x.ent)

/-- The memory operand of format X: the register as it stands, and the address. -/
def Warp.xAddr (w : Warp) (f : FX) : Bounded × Int :=
  (w.rb f.bx.toNat, (w.rb f.bx.toNat).ptr.toNat + f.off.toInt)

/-- `ZLD` (R137, R261). -/
def execZld (c : Common) (f : FX) (s : State) : Out :=
  s.issue false (.zld c f) fun x t =>
    let w := t.warp x.w
    let slot : Word := .ofNat 32 ((t.wgrid x.w).slot f.fslot.toNat)
    t.acceptAct x c (.zld f.zd.toNat slot (w.word f.sa 0 x.first) (w.xAddr f).1 (w.xAddr f).2)

/-- `ZST` (R137, R261). -/
def execZst (c : Common) (f : FX) (s : State) : Out :=
  s.issue false (.zst c f) fun x t =>
    let w := t.warp x.w
    let slot : Word := .ofNat 32 ((t.wgrid x.w).slot f.fslot.toNat)
    t.acceptAct x c (.zst f.zd.toNat slot (w.word f.sa 0 x.first) (w.xAddr f).1 (w.xAddr f).2)

/-- Bytes of a row's elements. -/
def rowBytes (e : Elem) : Nat := 192 * e.width / 8
/-- Bytes of a row with its scales. -/
def rowLen (e : Elem) (scl : Nat) : Nat := rowBytes e + (if scl == 1 then 6 else 0)
/-- The row stride (R138). -/
def rowStride (e : Elem) (scl : Nat) : Nat := (rowLen e scl + 15) / 16 * 16

/-- The addresses of the 64 rows. -/
def rowAddrs (e : Elem) (scl : Nat) (addr : Int) : List Int := 
  (List.range 64).map fun (i : Nat) => addr + ((i * rowStride e scl : Nat) : Int)

/-- An element of a row in memory, converted to FP32 (R137, R158). -/
def zldElem (e : Elem) (scl : Nat) (scale : Word) (m : List Host.Cell) (row j : Nat) : Word :=
  let bit := j * e.width
  let v := e.value (bits (rdNat m (row + bit / 8) 4) (bit % 8) e.width)
  let x := if scl == 1 then v.mul (e8m0Val (rdByte m (row + rowBytes e + j / 32)).toNat)
    else if scl == 2 then v.mul (fv32 scale.toNat)
    else v
  .ofNat 32 (fp32.round {} x)

/-- ZLD_COMPLETION (R137, R138). -/
def execZldCompletion (op : Nat) (s : State) : Out :=
  match tfind s.ops op with
  | none => .next s
  | some o =>
    match o.kind with
    | .zld zd fs scale bk addr =>
      let b := (s.warp o.warp).block
      let e := slotElem (slotB fs.toNat)
      let scl := slotScl fs.toNat
      if !s.opFirst op o then .next s
      else
        match s.reach op o bk false .load (rowAddrs e scl addr) (rowLen e scl) with
        | .wait t => .next t
        | .fault t r => .next (t.opStop op o r [zd])
        | .ok t sp keys =>
          .next ((t.setTile b zd fun i j => zldElem e scl scale (t.bytes sp) (keys.getD i 0) j).finishOp op o)
    | _ => .next s

/-- Round a quotient of exact values to an integer format: the quotient is carried far below the point, with a last bit that
says that more follows. -/
def quotInt (r : Rnd) (sgn : Bool) (w : Nat) (a b : FV) : Int :=
  match a, b with
  | .nan, _ | _, .nan => 0
  | .inf _, .inf _ => 0
  | .inf n, .fin n' _ _ => (FV.inf (n != n')).toInt r sgn w
  | .fin _ _ _, .inf _ => 0
  | .fin n m e, .fin n' m' e' =>
    if m' == 0 then (if m == 0 then 0 else (FV.inf (n != n')).toInt r sgn w)
    else
      let k := 400 + Nat.log2 m'
      let q := m * 2 ^ k / m'
      let more := if m * 2 ^ k % m' == 0 then 0 else 1
      (FV.fin (n != n') (2 * q + more) (e - e' - k - 1)).toInt r sgn w

/-- x / scale rounded once to an element (R138). -/
def quotCode (e : Elem) (md : FpMod) (x scale : FV) : Nat :=
  match e with
  | .int sg w => unsigned w (quotInt md.rnd sg w x scale)
  | .fp f => f.div md x scale
  | .e8m0 => 0

/-- The codes of a row, lowest column first, and its scale bytes (R138, R159). -/
def zstRow (slot : Nat) (scale : Word) (z : Nat → Word) : List Nat × List Nat :=
  let e := slotElem (slotB slot)
  let md : FpMod := { rnd := .ofCode (slotRnd slot), sat := slotSat slot }
  let v (j : Nat) : FV := fv32 (z j).toNat
  let cols := List.range 192
  match slotScl slot with
  | 1 =>
    let scales := (List.range 6).map fun b => blockScale e ((List.range 32).map fun i => v (32 * b + i))
    (cols.map fun j => blockCode e md (scales.getD (j / 32) 0) (v j), scales)
  | 2 => (cols.map fun j => quotCode e md (v j) (fv32 scale.toNat), [])
  | _ => (cols.map fun j => e.write md (.inr (v j)), [])

/-- The bytes of a row: the codes packed, low first, then the scales. -/
def zstBytes (e : Elem) (row : List Nat × List Nat) : List Byte :=
  let x := row.1.foldr (fun c t => c % 2 ^ e.width + t * 2 ^ e.width) 0
  bytesOf (rowBytes e) x ++ row.2.map (.ofNat 8)

/-- Write the rows of a `ZST`. -/
def State.zstRun (s : State) (b z slot : Nat) (scale : Word) (sp : Space) (keys : List Nat) : State :=
  let e := slotElem (slotB slot)
  s.putLocal sp ((keys.zipIdx).flatMap fun (key, i) => addrs key (zstBytes e (zstRow slot scale fun j => s.tile b z i j)))

/-- ZST_COMPLETION (R137, R138). -/
def execZstCompletion (op : Nat) (s : State) : Out :=
  match tfind s.ops op with
  | none => .next s
  | some o =>
    match o.kind with
    | .zst z fs scale bk addr =>
      let b := (s.warp o.warp).block
      let e := slotElem (slotB fs.toNat)
      let scl := slotScl fs.toNat
      if !s.opFirst op o then .next s
      else if s.tilePoison b z anyCol then .next (s.opStop op o poisonStop [])
      else
        match s.reach op o bk false .store (rowAddrs e scl addr) (rowLen e scl) with
        | .wait t => .next t
        | .fault t r => .next (t.opStop op o r [])
        | .ok t sp keys => .next ((t.zstRun b z fs.toNat scale sp keys).finishOp op o)
    | _ => .next s

/-! ### Attention (R139, R140, R262) -/

/-- `ATT` (R139, R262). -/
def execAtt (c : Common) (f : FX) (s : State) : Out :=
  s.issue false (.att c f) fun x t =>
    let w := t.warp x.w
    let r (i : Nat) : Word := w.word f.sa i x.first
    t.acceptAct x c (.att f.zd.toNat f.zs.toNat (w.xAddr f).1 (w.xAddr f).2 (r 0) (r 1) (r 2) (r 3) (r 4))

/-- `ATTFIN` (R140). -/
def execAttfin (c : Common) (f : FX) (s : State) : Out :=
  s.issue false (.attfin c f) fun x t => t.acceptAct x c (.attfin f.zd.toNat)

/-- RN of an exact value. -/
def rn32 (x : FV) : FV := fv32 (fp32.round {} x)
/-- The larger of two values; NaN when either is NaN, +0 above −0 (R139, R208). -/
def fvMax (a b : FV) : FV :=
  if a.isNan || b.isNan then .nan
  else if a.lt b then b
  else
    match a with
    | .fin true 0 _ => if a.eq b then b else a
    | _ => a
/-- EX2 rounded to FP32. -/
def ex2Rn (x : FV) : FV := fv32 (TFun.ex2.eval {} x)

/-- A BF16 element of a row-major array of 128 columns. -/
def attElem (m : List Host.Cell) (key i d : Nat) : FV := (Elem.fp bf16).value (rdNat m (key + 2 * (128 * i + d)) 2)

/-- One row of an attention step (R139): the new m, l and O[d]. -/
structure AttRow where
  m : FV
  l : FV
  o : Nat → FV

/-- The scores of row i. -/
def attScores (mem : List Host.Cell) (q k : Nat) (scale : FV) (n : Nat) (cb : Int) (i : Nat) : List FV :=
  (List.range 128).map fun j =>
    if n ≤ j || cb + i < j then .inf true
    else
      let dot := FV.sum false ((List.range 128).map fun d => (attElem mem q i d).mul (attElem mem k j d))
      rn32 (scale.mul (rn32 dot))

/-- Row i of an attention step from its old m, l and O. -/
def attRow (mem : List Host.Cell) (v : Nat) (s : List FV) (m l : FV) (o : Nat → FV) : AttRow :=
  let m' := s.foldl fvMax m
  let dead := m' == .inf true
  let al := if dead then fvOne else ex2Rn (rn32 (m.add false m'.neg))
  let p := s.map fun x => if dead then fvZero else ex2Rn (rn32 (x.add false m'.neg))
  { m := m'
    l := rn32 ((rn32 (al.mul l)).add false (FV.sum false p))
    o := fun d => rn32 ((rn32 (al.mul (o d))).add false
      (FV.sum false ((p.zipIdx).map fun (x, j) => x.mul (attElem mem v j d)))) }

/-- The new `zO` of an attention step; `zS` is unspecified (R139). -/
def State.attRun (s : State) (b zo zs q k v : Nat) (scale n cb : Word) : State :=
  let mem := s.shared
  let z (i j : Nat) : FV := fv32 (s.tile b zo i j).toNat
  let row (i : Nat) : AttRow :=
    attRow mem v (attScores mem q k (fv32 scale.toNat) (min n.toNat 128) cb.toInt i) (z i 128) (z i 129) (z i)
  let code (x : FV) : Word := .ofNat 32 (fp32.round {} x)
  let t := s.setCols b zo 130 fun i j =>
    if j < 128 then code ((row i).o j) else if j == 128 then code (row i).m else code (row i).l
  t.freeTile b zs

/-- The columns an attention step reads. -/
def attCols (_ j : Nat) : Bool := j < 130

/-- ATT_COMPLETION (R139). -/
def execAttCompletion (op : Nat) (s : State) : Out :=
  match tfind s.ops op with
  | none => .next s
  | some o =>
    match o.kind with
    | .att zo zs bk addr scale n cb koff voff =>
      let b := (s.warp o.warp).block
      let at_ (x : Word) : Int := bk.ptr.toNat + x.toNat
      if !s.opFirst op o then .next s
      else
        match s.reach op o bk true .load [addr] 16384 with
        | .wait t => .next t
        | .fault t r => .next (t.opStop op o r [zo, zs])
        | .ok t1 _ q =>
          match t1.reach op o bk true .load [at_ koff] 32768 with
          | .wait t => .next t
          | .fault t r => .next (t.opStop op o r [zo, zs])
          | .ok t2 _ k =>
            match t2.reach op o bk true .load [at_ voff] 32768 with
            | .wait t => .next t
            | .fault t r => .next (t.opStop op o r [zo, zs])
            | .ok t3 _ v =>
              if t3.tilePoison b zo attCols then .next (t3.opStop op o poisonStop [zo, zs])
              else .next ((t3.attRun b zo zs (q.headD 0) (k.headD 0) (v.headD 0) scale n cb).finishOp op o)
    | _ => .next s

/-- ATTFIN_COMPLETION (R140). -/
def execAttfinCompletion (op : Nat) (s : State) : Out :=
  match tfind s.ops op with
  | none => .next s
  | some o =>
    match o.kind with
    | .attfin zo =>
      let b := (s.warp o.warp).block
      let z (i j : Nat) : FV := fv32 (s.tile b zo i j).toNat
      if !s.opFirst op o then .next s
      else if s.tilePoison b zo attCols then .next (s.opStop op o poisonStop [zo])
      else
        .next ((s.setCols b zo 128 fun i j =>
          if (z i 129).isZero then 0 else .ofNat 32 (fp32.div {} (z i j) (z i 129))).finishOp op o)
    | _ => .next s

end Sys2Proof.Machine
end

