-- ==== Sys2Proof/Machine/System.lean ====
section
/-! DEFINITION. Special and privileged registers, the return from an exception, invalidation and the error log (R185, R186,
R220, R275 to R279, R343, R344). -/

namespace Sys2Proof.Machine

/-- The fault record as 256 bits (R343). -/
def FaultRec.word (r : FaultRec) : Nat :=
  r.code.toNat + r.sub.toNat * 2 ^ 8 + r.lane.toNat * 2 ^ 16 + r.async.toNat * 2 ^ 21 + r.par.toNat * 2 ^ 22 +
    r.rpc.toNat * 2 ^ 32 + r.fpc.toNat * 2 ^ 64 + r.info.toNat * 2 ^ 96 + r.addr.toNat * 2 ^ 128 + r.otag.toNat * 2 ^ 192 +
    r.seq.toNat * 2 ^ 224

/-- Coordinate n (0 x, 1 y, 2 z) of a linear index under dimensions (R32, R33). -/
def coord (d : Nat × Nat × Nat) (i n : Nat) : Nat :=
  match n with
  | 0 => i % d.1
  | 1 => i / d.1 % d.2.1
  | _ => i / (d.1 * d.2.1)

/-- Dimension n of a triple. -/
def dimOf (d : Nat × Nat × Nat) (n : Nat) : Nat :=
  match n with
  | 0 => d.1
  | 1 => d.2.1
  | _ => d.2.2

/-- The virtual address of a heap region's descriptor, when the context names one (R109, R336). -/
def State.heapDesc (s : State) (c r : Nat) : Option Nat :=
  if s.ctxF c (319 + 64 * r) 1 == 1 then some (s.ctxF c (256 + 64 * r) 48) else none

/-- The epoch of a region, from `EPOCH` of its descriptor (R109), or the address that cannot be read. -/
def State.epoch (s : State) (u : XUnit) (c r : Nat) : Except Nat Nat × State :=
  let a := (s.heapDesc c r).getD 0 + 10
  match s.vreadNat u c a 1 with
  | (.error p, s1) => (.error (max p a), s1)
  | (.ok x, s1) => (.ok (x % 4), s1)

/-- A special register in a lane (R185), `%hcolor` apart. -/
def State.special (s : State) (w n l : Nat) : Nat :=
  let x := s.warp w
  let g := s.wgrid w
  let b := s.wblk w
  let c := clusterOf b.core
  match n with
  | 0x000 => l
  | 0x001 | 0x002 | 0x003 => coord g.bdim (32 * x.idx + l) (n - 1)
  | 0x004 | 0x005 | 0x006 => coord g.gdim b.index (n - 4)
  | 0x007 | 0x008 | 0x009 => dimOf g.bdim (n - 7)
  | 0x00A | 0x00B | 0x00C => dimOf g.gdim (n - 10)
  | 0x010 => x.idx
  | 0x011 => b.core % Config.coresPerCluster
  | 0x012 => s.clusterNum g.slice c
  | 0x013 => s.chipNum (s.chipOf c)
  | 0x014 => Config.coresPerCluster * (s.liveClusters g.slice).length
  | 0x015 => (s.liveClusters g.slice).length
  | 0x016 => (s.gang b.gang).blocks.length
  | 0x017 => b.rank
  | 0x018 => g.depth
  | 0x020 => x.mctl.toNat
  | 0x021 => x.mstat.toNat
  | 0x030 => x.wissue.toNat
  | 0x031 => x.wdrain.toNat
  | 0x032 => s.cyclesOf b.core % 2 ^ 64
  | 0x040 | 0x041 | 0x042 | 0x043 => bits x.frec.word (64 * (n - 0x40)) 64
  | _ => 0

/-- The 32-bit registers that a special register fills (R185). -/
def specialRegs (n : Nat) : Nat := if 0x30 ≤ n then 2 else 1

/-- `RDSR` (R185, R220).  While the page of the region's descriptor is absent, an entry that reads `%hcolor` stalls at issue: R23
lets no thread block for it (log entry 27). -/
def execRdsr (c : Common) (f : FS) (s : State) : Out :=
  s.issue false (.rdsr c f) fun x t =>
    let n := f.imm.toNat
    if n == 0x22 && !x.lanes.isEmpty then
      match t.epoch (.heapPort (t.wblk x.w).core) (t.wctx x.w) (t.wgrid x.w).heap with
      | (.error va, t1) =>
        let q := va / 4096 * 4096
        .keep ((t1.request (t1.wctx x.w) q false).stallOn x (t1.wctx x.w) q false)
      | (.ok e, t1) => .adv (t1.writeD x c.u f.d 1 fun _ => e)
    else .adv (t.writeD x c.u f.d (specialRegs n) fun l => t.special x.w n l)

/-- `WRSR` (R107, R185): a reserved bit of the value raises RESERVED-FIELD. -/
def execWrsr (c : Common) (f : FS) (s : State) : Out :=
  s.issue false (.wrsr c f) fun x t =>
    let v := (t.warp x.w).word f.a 0 x.first
    let ctl := f.imm == 0x20
    if x.lanes.isEmpty then .adv t
    else if v &&& ~~~(if ctl then 1 else 7) != 0 then .raise t (precise cReserved x.cp)
    else .adv (t.modWarp x.w fun y => if ctl then { y with mctl := v } else { y with mstat := v })

/-- `RTE` (R276, R344): to the record's return code pointer, or to a checked target. -/
def execRte (c : Common) (f : FS) (s : State) : Out :=
  s.issue false (.rte c f) fun x t =>
    if x.lanes.isEmpty then .adv t
    else if !modBit f.mod 0 then .set (t.rte x.w (t.warp x.w).frec.rpc)
    else
      let v := (t.warp x.w).word f.a 0 x.first
      match t.checkTarget x.w (cpLine v) (cpSlot v) with
      | (.good, t1) => .set (t1.rte x.w v)
      | (.bad, t1) => .raise t1 (precise cControl x.cp x.first)
      | (.absent va, t1) =>
        (t1.request (t1.wctx x.w) (va / 4096 * 4096) false).blockOn x (.transferPage (t1.wctx x.w) va)

/-- The context's key slot on a chiplet, when it holds one (R365). -/
def State.keySlot (s : State) (c chip : Nat) : Option Nat :=
  match tget 0 (s.ctx c).slots chip with
  | 0 => none
  | n + 1 => some n

/-- `PRD` (R277): without a key slot `%keyslot` reads a free value (log entry 3). -/
def State.privReg (s : State) (w n : Nat) : Word × State :=
  let c := s.wctx w
  match n with
  | 0x000 => (.ofNat 32 c, s)
  | 0x001 => (.ofNat 32 (s.ctxVf c), s)
  | 0x002 => (.ofNat 32 (s.wgrid w).slice, s)
  | 0x003 => match s.keySlot c (s.wchip w) with | some k => (.ofNat 32 k, s) | none => s.free
  | 0x010 => (.ofNat 32 (s.cluster (s.wcluster w)).passcnt, s)
  | 0x011 => (.ofNat 32 s.dev.cooltab, s)
  | 0x020 => ((s.ctx c).elogrd, s)
  | 0x021 => ((s.ctx c).elogwr, s)
  | _ => ((s.ctx c).elogovf, s)

/-- `PRD` (R277). -/
def execPrd (c : Common) (f : FS) (s : State) : Out :=
  s.issue false (.prd c f) fun x t =>
    if x.lanes.isEmpty then .adv t
    else
      match t.privReg x.w f.imm.toNat with
      | (v, t1) => .adv (t1.writeD x true f.d 1 fun _ => v.toNat)

/-- `PWR` (R277): irrevocable once accepted. -/
def execPwr (c : Common) (f : FS) (s : State) : Out :=
  s.issue false (.pwr c f) fun x t =>
    let v := (t.warp x.w).word f.a 0 x.first
    let k := t.wctx x.w
    let rd := f.imm == 0x20
    if x.lanes.isEmpty then .adv t
    else if (if rd then 256 < ((t.ctx k).elogwr - v).toNat else v != 0) then .raise t (precise cReserved x.cp)
    else
      .adv ((t.modCtx k fun y => if rd then { y with elogrd := v } else { y with elogovf := v }).restart x x.ent)

/-- `ERRRD` (R278): irrevocable once accepted (R280), with a record or without. -/
def execErrrd (c : Common) (f : FS) (s : State) : Out :=
  s.issue false (.errrd c f) fun x t =>
    let k := t.wctx x.w
    let y := t.ctx k
    if x.lanes.isEmpty then .adv t
    else if y.elogrd == y.elogwr then .adv ((t.writeP x true f.pd fun _ => false).restart x x.ent)
    else
      let r := t.phys (t.ctxF k 192 40 * 4096 + 32 * (y.elogrd.toNat % 256)) 32
      let t1 := (t.writeD x true f.d 8 fun _ => r).writeP x true f.pd fun _ => true
      .adv ((t1.modCtx k fun z => { z with elogrd := z.elogrd + 1 }).restart x x.ent)

/-- The page sizes of an `INVMARK` size code (R275). -/
def invSize (n : Nat) : Nat :=
  match n with
  | 0 => 2 ^ 12
  | 1 => 2 ^ 16
  | 2 => 2 ^ 21
  | _ => 2 ^ 30

/-- What is wrong with an invalidation range: its base, page size and count (R279, R325). -/
def invFault (base size n : Nat) (extra : Bool) : Option (BitVec 8) :=
  if base % size != 0 then some 0x11
  else if n == 0 || 1048576 < n || extra then some cReserved
  else if 2 ^ 48 < base + size * n then some 0x10
  else none

/-- `INVMARK` (R279): every unit acknowledges the mark in the same step, so that the warp goes on. -/
def execInvmark (c : Common) (f : FS) (s : State) : Out :=
  s.issue false (.invmark c f) fun x t =>
    let w := t.warp x.w
    let base := w.opd f.a 2 x.first
    let n := (w.word f.a 2 x.first).toNat
    let size := invSize (modBits f.mod 0 2)
    if x.lanes.isEmpty then .adv t
    else
      match invFault base size n (w.word f.a 3 x.first != 0) with
      | some code => .raise t (precise code x.cp x.first 0 (if code == cReserved then 0 else .ofNat 48 base))
      | none => .adv ((t.invMark (t.wctx x.w) base (size * n)).restart x x.ent)

/-- `INVCONF` (R279): it waits for copy writes in flight to a peer; every other write under a marked translation is performed
as it is made. -/
def execInvconf (c : Common) (f : FS) (s : State) : Out :=
  s.issue false (.invconf c f) fun x t =>
    if x.lanes.isEmpty then .adv t
    else if t.markedWrites (t.wctx x.w) then .keep t
    else .adv (t.invConf (t.wctx x.w))

end Sys2Proof.Machine
end

