-- ==== Sys2Proof/Machine/Heap.lean ====
section
/-! DEFINITION. The managed heap: regions, the barrier, allocation, the heap instructions and pinning (R109 to R127, R267 to
R273). -/

namespace Sys2Proof.Machine

/-- Why a heap instruction does not complete. -/
inductive HStop where
  /-- a precise fault: code, lane and address -/
  | fault (code : BitVec 8) (lane : Nat) (addr : Nat)
  /-- its threads block until a page is replayed; whether the access that faulted writes -/
  | page (ctx va : Nat) (wr : Bool)
  /-- the page of its region's descriptor is absent -/
  | desc (ctx va : Nat)
  /-- its threads block until a forwarding entry is DONE -/
  | entry (ctx e : Nat)
  /-- it stalls -/
  | stall

/-- A computation of the heap port: it may stop, and what it did to the state stands. -/
abbrev HeapM := ExceptT HStop (StateM State)

/-- Run a computation of the heap port. -/
def runHeap {α : Type} (m : HeapM α) (s : State) : Except HStop α × State := m s

/-- A computation whose stop is an answer. -/
def hCatch {α : Type} (m : HeapM α) : HeapM (Option α) := fun s =>
  match runHeap m s with
  | (.error _, t) => (.ok none, t)
  | (.ok a, t) => (.ok (some a), t)

/-- A computation that leaves the state as it was when it stops. -/
def atomically {α : Type} (m : HeapM α) : HeapM α := fun s =>
  match runHeap m s with
  | (.error e, _) => (.error e, s)
  | (.ok a, t) => (.ok a, t)

/-- HEAP-EXHAUSTED -/
def cExhausted : BitVec 8 := 0x38
/-- HEAP-BOUND -/
def cHeapBound : BitVec 8 := 0x39
/-- HEAP-TAG -/
def cHeapTag : BitVec 8 := 0x3A
/-- PIN-OVERFLOW -/
def cPin : BitVec 8 := 0x3B

/-- The port that makes an access: its unit and the context. -/
structure Port where
  unit : XUnit
  ctx : Nat
  deriving DecidableEq, Repr

/-- The heap port of a warp's core. -/
def State.heapPort (s : State) (w : Nat) : Port :=
  { unit := .heapPort (s.wblk w).core, ctx := s.wctx w }

/-- The port the Jointer uses for a context. -/
def jointerPort (c : Nat) : Port := { unit := .jointer, ctx := c }

/-- A page of the port that holds a write in its side log: a later load waits for the replay (R328). -/
def State.pageLogged (s : State) (p : Port) (page : Nat) : Bool :=
  s.parked.any fun q => q.unit == p.unit && q.ctx == p.ctx && q.page == page && q.isLog

/-- Physical addresses of n virtual bytes; a fault blocks. -/
def hPhys (p : Port) (va n : Nat) (write : Bool) : HeapM (List Nat) := do
  let s ← get
  match (pagesOf va n).find? (s.pageLogged p) with
  | some q => throw (.page p.ctx (max q va) false)
  | none =>
    match s.xlRange p.unit p.ctx va n write with
    | (.error q, t) =>
      set t
      throw (.page p.ctx (max q va) write)
    | (.ok l, t) =>
      set t
      pure l

/-- Read n bytes as a number. -/
def hRead (p : Port) (va n : Nat) : HeapM Nat := do
  let l ← hPhys p va n false
  let s ← get
  pure (natOf (l.map (s.memByte p.ctx)))

/-- A port whose side log is full writes no more (R327). -/
def hRoom (p : Port) : HeapM Unit := do
  if !(← get).logRoom p.unit 1 then throw .stall

/-- Write n bytes at once; a fault blocks. -/
def hWrite (p : Port) (va n x : Nat) : HeapM Unit := do
  hRoom p
  let l ← hPhys p va n true
  modify fun s => s.putFor p.ctx (l.zip (bytesOf n x))

/-! ### Regions (R109) -/

/-- Bytes of a pool page. -/
def poolPage : Nat := 2 ^ 21

/-- A region as its descriptor gives it, with the address of the descriptor. -/
structure Region where
  num : Nat
  desc : Nat
  base : Nat
  pages : Nat
  epoch : Nat
  cycle : Bool
  types : Nat
  ntypes : Nat
  freeMap : Nat
  fwdLen : Nat
  fwd : Nat
  deriving DecidableEq, Repr

/-- The fields of a descriptor (R109). -/
def regionOf (r a x : Nat) : Region :=
  { num := r, desc := a, base := bits x 0 48, pages := bits x 64 16, epoch := bits x 80 2, cycle := bits x 82 1 == 1
    types := bits x 128 48, ntypes := bits x 176 16, freeMap := bits x 192 48, fwdLen := bits x 240 16
    fwd := bits x 256 48 }

/-- Read the descriptor of a region of the port's context. -/
def hRegion (p : Port) (r : Nat) : HeapM Region := fun s =>
  let a := (s.heapDesc p.ctx r).getD 0
  match runHeap (hRead p a 64) s with
  | (.ok x, t) => (.ok (regionOf r a x), t)
  | (.error (.page c va _), t) => (.error (.desc c va), t)
  | (.error e, t) => (.error e, t)

/-- The pool page of an address. -/
def Region.pageOf (g : Region) (a : Nat) : Nat := (a - g.base) / poolPage
/-- The address of a pool page. -/
def Region.pageVa (g : Region) (p : Nat) : Nat := g.base + p * poolPage
/-- An address lies in the pool. -/
def Region.inPool (g : Region) (a : Nat) : Bool := g.base ≤ a && a < g.base + g.pages * poolPage
/-- The address of a page's directory entry (R119). -/
def Region.dirVa (g : Region) (p : Nat) : Nat := g.fwd + 8 * p
/-- `PINS` of a directory entry. -/
def dirPins (d : Nat) : Nat := bits d 0 8
/-- `ARMED` of a directory entry. -/
def dirArmed (d : Nat) : Bool := bits d 8 1 == 1
/-- `TOFF` of a directory entry, as a byte offset. -/
def dirToff (d : Nat) : Nat := bits d 12 20 * 4096

/-- Set or clear a page's free bit by an atomic update (R109, R271). -/
def hSetFree (p : Port) (g : Region) (page : Nat) (bit : Bool) : HeapM Unit := do
  let b ← hRead p (g.freeMap + page / 8) 1
  hWrite p (g.freeMap + page / 8) 1 (setBits b (page % 8) 1 (if bit then 1 else 0))

/-- The free-page bitmap. -/
def hFreeMap (p : Port) (g : Region) : HeapM Nat := hRead p g.freeMap ((g.pages + 7) / 8)

/-- A page is free and not armed. -/
def hPageFree (p : Port) (g : Region) (map page : Nat) : HeapM Bool := do
  if bits map page 1 == 0 then pure false
  else pure (!dirArmed (← hRead p (g.dirVa page) 8))

/-- k pages from a page on are free and not armed. -/
def hRunFree (p : Port) (g : Region) (map page : Nat) : Nat → HeapM Bool
  | 0 => pure true
  | k + 1 => do if ← hPageFree p g map page then hRunFree p g map (page + 1) k else pure false

/-- The lowest of the listed pages from which k pages are free and not armed. -/
def hFindRun (p : Port) (g : Region) (map k : Nat) : List Nat → HeapM (Option Nat)
  | [] => pure none
  | q :: r => do if ← hRunFree p g map q k then pure (some q) else hFindRun p g map k r

/-- Where the objects that the device has placed in a pool page end: at the page's end where it has placed none (R113, R121;
log entry 30). -/
def State.pageEnd (s : State) (c r page : Nat) : Nat :=
  match s.pageEnds.find? fun (a, b, q, _) => a == c && b == r && q == page with
  | some (_, _, _, o) => o
  | none => poolPage

/-- The device places no object in a page any more: it is taken anew, or freed. -/
def State.dropPageEnd (s : State) (c r page : Nat) : State :=
  { s with pageEnds := s.pageEnds.filter fun (a, b, q, _) => !(a == c && b == r && q == page) }

/-- The objects placed in a page end at an offset. -/
def State.putPageEnd (s : State) (c r page off : Nat) : State :=
  { s with pageEnds := (c, r, page, off) :: (s.dropPageEnd c r page).pageEnds }

/-- Take the lowest run of k free pages that are not armed, clearing their free bits (R113, R121). -/
def hTakePages (p : Port) (g : Region) (k : Nat) : HeapM (Option Nat) := do
  let map ← hFreeMap p g
  match ← hFindRun p g map k (List.range (g.pages + 1 - k)) with
  | none => pure none
  | some q =>
    (List.range k).forM fun i => do
      hSetFree p g (q + i) false
      modify fun s => s.dropPageEnd p.ctx g.num (q + i)
    pure (some q)

/-! ### Headers and types (R111, R112) -/

/-- `SIZE` of a header word, in bytes. -/
def hdrSize (h : Nat) : Nat := bits h 0 32 * 16
/-- `TYPE` -/
def hdrType (h : Nat) : Nat := bits h 32 12
/-- `DEAD` -/
def hdrDead (h : Nat) : Bool := bits h 48 1 == 1
/-- `LARGE` -/
def hdrLarge (h : Nat) : Bool := bits h 49 1 == 1

/-- A type entry is valid (R111). -/
def typeOk (x : Nat) : Bool := bits x 0 9 ≤ 496 && bits x 9 7 == 0

/-- The type entry of a type, unless it is at or above `TYPE_COUNT`. -/
def hType (p : Port) (g : Region) (t : Nat) : HeapM (Option Nat) := do
  if t < g.ntypes then pure (some (← hRead p (g.types + 64 * t) 64)) else pure none

/-- Word w of an object is a reference field (R111). -/
def refWord (ty w : Nat) : Bool := bits ty 0 9 != 0 && bits ty (16 + w % bits ty 0 9) 1 == 1

/-- Some word that n bytes at a field offset touch is a reference field. -/
def refTouched (ty off n : Nat) : Bool :=
  (List.range ((off + n - 1) / 8 - off / 8 + 1)).any fun i => refWord ty (off / 8 + i - 2)

/-! ### The barrier (R114, R115, R118, R119) -/

/-- `ADDR` of a reference, as an address. -/
def refAddr (x : Nat) : Nat := bits x 4 44 * 16
/-- A reference to an address, with the marker and a color. -/
def mkRef (a color : Nat) : Nat := a / 16 % 2 ^ 44 * 16 + 8 + color % 4

/-- `STATE` of a forwarding entry's word 0. -/
def fwdState (e : Nat) : Nat := bits e 0 2

/-- Search count entries of a table from index i for a page offset (R119). -/
def hSearch (p : Port) (t o i : Nat) : Nat → HeapM (Option Nat)
  | 0 => pure none
  | k + 1 => do
    let e := t + 4096 + 16 * i
    if bits (← hRead p (e + 8) 8) 0 17 == o then pure (some e) else hSearch p t o (i + 1) k

/-- The forwarding entry of the object at an address of an armed page, by its address (R119). -/
def hLookup (p : Port) (g : Region) (d a : Nat) : HeapM (Option Nat) := do
  let t := g.fwd + dirToff d
  let o := (a - g.pageVa (g.pageOf a)) / 16
  let b := o / 256
  let first ← hRead p (t + 16 + 4 * b) 4
  let last ← if b = 511 then hRead p (t + 8) 4 else hRead p (t + 20 + 4 * b) 4
  hSearch p t o first (last - first)

/-- What the barrier finds for one reference. -/
inductive Bar where
  /-- the healed reference -/
  | healed (x : Nat)
  /-- its entry is EMPTY or CLAIMED -/
  | claim (e : Nat)
  | wait (e : Nat)
  /-- a read of the directory or of a table faults -/
  | absent (va : Nat)
  | tag
  deriving DecidableEq, Repr

/-- The barrier on one reference (R115), before anything is claimed. -/
def hBarrier (p : Port) (g : Region) (x : Nat) : HeapM Bar := do
  let a := refAddr x
  if x == 0 || bits x 3 1 == 0 || !g.inPool a then pure .tag
  else if bits x 0 2 == g.epoch then pure (.healed x)
  else if (bits x 0 2 + 1) % 4 == g.epoch then
    let d ← hRead p (g.dirVa (g.pageOf a)) 8
    if !dirArmed d then pure (.healed (setBits x 0 2 g.epoch))
    else
      match ← hLookup p g d a with
      | none => pure .tag
      | some e =>
        let w ← hRead p e 8
        match fwdState w with
        | 0 => pure (.claim e)
        | 1 => pure (.wait e)
        | 2 => pure (.healed (setBits (setBits x 4 44 (bits w 4 44)) 0 2 g.epoch))
        | _ => pure .tag
  else pure .tag

/-- The barrier on one reference, with a fault of its reads as an answer. -/
def hBarrierCatch (p : Port) (g : Region) (x : Nat) : HeapM Bar := fun s =>
  match runHeap (hBarrier p g x) s with
  | (.error (.page _ va _), t) => (.ok (.absent va), t)
  | (.error e, t) => (.error e, t)
  | (.ok b, t) => (.ok b, t)

/-- A reference that an instruction uses: its lane, the `h` register that holds it, if one does, and its value. -/
structure RefUse where
  lane : Nat
  reg : Option Nat
  val : Nat
  deriving DecidableEq, Repr

/-- Ask the Jointer to copy a claimed object now (R115). -/
def hClaim (p : Port) (g : Region) (e : Nat) : HeapM Unit := do
  let w ← hRead p e 8
  if fwdState w == 0 then
    hWrite p e 8 (setBits w 0 2 1)
    modify fun s => { s with cycles := s.cycles.map fun c =>
      if c.ctx == p.ctx && c.region == g.num then { c with claims := c.claims ++ [e] } else c }

/-- A null reference passes unchanged (R268); the value a use denotes once every barrier has passed. -/
def RefUse.out (u : RefUse) : Bar → Nat
  | .healed x => x
  | _ => u.val

/-- What blocks the lanes of one use. -/
def Bar.stop (ctx : Nat) : Bar → Option HStop
  | .claim e | .wait e => some (.entry ctx e)
  | .absent va => some (.page ctx va false)
  | _ => none

/-- The entry a use has to claim. -/
def Bar.claimed : Bar → Option Nat
  | .claim e => some e
  | _ => none

/-- The barrier on every use of an instruction (R115, R268, R270 rows 2 and 3): healed values replace the registers that
held them, a rejected one raises HEAP-TAG, then the lanes wait.  It answers the value of each use. -/
def hBarriers (p : Port) (g : Region) (w : Nat) (uses : List RefUse) : HeapM (List Nat) := do
  let l ← uses.mapM fun u => do pure (u, ← hBarrierCatch p g u.val)
  l.forM fun (u, b) => do
    match u.reg with
    | some r => modify fun s => s.modWarp w fun y => y.wh r u.lane (.ofNat 64 (u.out b))
    | none => pure ()
  match l.find? fun (_, b) => b == .tag with
  | some (u, _) => throw (.fault cHeapTag u.lane 0)
  | none =>
    (l.filterMap fun (_, b) => b.claimed).forM fun e => hClaim p g e
    match l.findSome? fun (_, b) => b.stop p.ctx with
    | some e => throw e
    | none => pure (l.map fun (u, b) => u.out b)

/-- An object that a lane accesses: its address, its header and its type entry. -/
structure HObj where
  lane : Nat
  addr : Nat
  hdr : Nat
  type : Nat
  deriving DecidableEq, Repr

/-- The headers and types of the objects (R270 row 4). -/
def hObjects (p : Port) (g : Region) (l : List (Nat × Nat)) : HeapM (List HObj) := do
  let objs ← l.mapM fun (lane, x) => do
    let h ← hRead p (refAddr x) 8
    let t ← hType p g (hdrType h)
    pure (lane, refAddr x, h, t)
  match objs.find? fun (_, _, _, t) => !(match t with | some x => typeOk x | none => false) with
  | some (lane, _) => throw (.fault cHeapTag lane 0)
  | none => pure (objs.map fun (lane, a, h, t) => { lane := lane, addr := a, hdr := h, type := t.getD 0 })

/-- Each lane's use of one register. -/
def State.refUses (s : State) (x : Ix) (r : Nat) : List RefUse :=
  x.lanes.map fun l => { lane := l, reg := some r, val := ((s.warp x.w).rh r l).toNat }

/-- The objects the lanes' base registers denote, healed and checked (R270 rows 2 to 4). -/
def hOpen (p : Port) (g : Region) (x : Ix) (r : Nat) : HeapM (List HObj) := do
  let s ← get
  let vals ← hBarriers p g x.w (s.refUses x r)
  hObjects p g (x.lanes.zip vals)

/-- The checks of R270 rows 5 to 7 on each lane's field offset: in bounds, of the right kind, aligned. -/
def hField (ref : Bool) (n : Nat) (off : Nat → Int) (objs : List HObj) : HeapM Unit := do
  let at_ (o : HObj) : Nat := unsigned 48 (o.addr + off o.lane)
  match objs.find? fun o => off o.lane < 16 || hdrSize o.hdr < off o.lane + n with
  | some o => throw (.fault cHeapBound o.lane (at_ o))
  | none =>
    match objs.find? fun o =>
        if ref then !refTouched o.type (off o.lane).toNat 1 else refTouched o.type (off o.lane).toNat n with
    | some o => throw (.fault cHeapTag o.lane (at_ o))
    | none =>
      match objs.find? fun o => off o.lane % n != 0 with
      | some o => throw (.fault 0x11 o.lane (at_ o))
      | none => pure ()

/-- The address of each lane's field. -/
def fieldVa (off : Nat → Int) (o : HObj) : Nat := o.addr + (off o.lane).toNat

/-- The physical bytes of each lane's field (R270 row 9). -/
def hFieldPhys (p : Port) (n : Nat) (write : Bool) (off : Nat → Int) (objs : List HObj) :
    HeapM (List (HObj × List Nat)) :=
  objs.mapM fun o => do pure (o, ← hPhys p (fieldVa off o) n write)

/-- POISON on loaded bytes (R127, R270 row 10). -/
def hPoison (off : Nat → Int) (l : List (HObj × List Nat)) : HeapM Unit := do
  let s ← get
  match l.find? fun (_, bs) => bs.any s.poisoned with
  | some (o, _) => throw (.fault 0x16 o.lane (fieldVa off o))
  | none => pure ()

/-- Write bytes at virtual addresses, in order; a sector whose page faults goes to the side log (R326).  A full log stalls
the instruction, which then has done nothing (R327). -/
def hStore (p : Port) (w : Nat) (pc : Word) (org : Origin) (bytes : List (Nat × Byte)) : HeapM Unit := do
  let s ← get
  let mk (q : Parked) : Parked := { q with warp := w, pc := pc, wno := (s.warp w).wissue.toNat }
  match s.writeOrPark p.ctx p.unit 0 mk org (sectors 0 bytes) with
  | ([], t) => set t
  | (_ :: _, _) => throw .stall

/-! ### How a heap instruction ends -/

/-- The lanes wait for a forwarding entry; the instruction completes when they have it (R23), with the `s` registers as it
read them at issue (R171). -/
def State.blockOnEntry (s : State) (x : Ix) (i : Instr) (c e : Nat) : Res :=
  .set (s.modWarp x.w fun y =>
    { y.blockIssue x.cp x.ent x.lanes (.heapEntry c e) with heapWaits := y.heapWaits ++ [(i, x.cp, maskOf x.lanes, y.s)] })

/-- A heap instruction that reads the heap for its lanes: a page that it lacks blocks them, that of its region's descriptor too
(R23; log entry 27). -/
def heapLoad : Instr → Bool
  | .hld _ _ | .hldr _ _ | .hatom _ _ | .hcas _ _ | .hhdr _ _ | .hpin _ _ => true
  | _ => false

/-- Do a heap instruction for an entry.  Without its region's descriptor, an instruction that is no heap load stalls at issue (R23;
log entry 27). -/
def State.heapDo (s : State) (i : Instr) (x : Ix) (m : HeapM Unit) : Res :=
  match runHeap m s with
  | (.ok _, t) => .adv t
  | (.error (.fault code l a), t) => .raise t (precise code x.cp l 0 (.ofNat 48 a))
  | (.error (.page c va wr), t) => (t.request c (va / 4096 * 4096) false).blockOn x (.page c va wr)
  | (.error (.desc c va), t) =>
    let u := t.request c (va / 4096 * 4096) false
    if heapLoad i then u.blockOn x (.page c va false) else .keep (u.stallOn x c (va / 4096 * 4096) false)
  | (.error (.entry c e), t) => t.blockOnEntry x i c e
  | (.error .stall, t) => .keep t

/-- The region the warp's `h` registers refer to (R109). -/
def hMine (x : Ix) : HeapM (Port × Region) := do
  let s ← get
  let p := s.heapPort x.w
  pure (p, ← hRegion p (s.wgrid x.w).heap)

/-- The field offset of a lane (R116, R267). -/
def Warp.hOff (w : Warp) (f : FH) (l : Nat) : Int := f.off.toInt + w.opdS f.ix l

/-- A heap write of the warp is counted (R90, R269). -/
def hCount (x : Ix) : HeapM Unit := modify fun s => s.countWrite x

/-- A group of steps that a stall undoes (R327). -/
def hWhole (m : HeapM Unit) : HeapM Unit := fun s =>
  match runHeap m s with
  | (.error .stall, _) => (.error .stall, s)
  | r => r

/-! ### Data instructions -/

/-- `HLD` (R269). -/
def hldAct (c : Common) (f : FH) (x : Ix) (s : State) : Res :=
  s.heapDo (.hld c f) x do
    let (p, g) ← hMine x
    let off := ((← get).warp x.w).hOff f
    let objs ← hOpen p g x f.ha.toNat
    hField false f.ty.bytes off objs
    let l ← hFieldPhys p f.ty.bytes false off objs
    hPoison off l
    modify fun t => t.writeD x false f.v f.ty.regs fun k =>
      match l.find? fun (o, _) => o.lane == k with
      | some (_, bs) => loadVal f.ty (natOf (bs.map (t.memByte p.ctx)))
      | none => 0

/-- `HLD` (R269). -/
def execHld (c : Common) (f : FH) (s : State) : Out :=
  s.issue false (.hld c f) fun x t => if x.lanes.isEmpty then .adv t else hldAct c f x t

/-- `HST` (R269): lanes that store the same byte leave the highest lane's value. -/
def hstAct (c : Common) (f : FH) (x : Ix) (s : State) : Res :=
  s.heapDo (.hst c f) x do
    let (p, g) ← hMine x
    let w := (← get).warp x.w
    let objs ← hOpen p g x f.ha.toNat
    hField false f.ty.bytes (w.hOff f) objs
    hWhole do
      hCount x
      hStore p x.w x.cp .heap (objs.flatMap fun o =>
        addrs (fieldVa (w.hOff f) o) (bytesOf f.ty.bytes (w.opd f.v f.ty.regs o.lane)))

/-- `HST` (R269). -/
def execHst (c : Common) (f : FH) (s : State) : Out :=
  s.issue false (.hst c f) fun x t => if x.lanes.isEmpty then .adv t else hstAct c f x t

/-- The releases that physical words carry. -/
def State.msgsPhys (s : State) (bs : List Nat) : List RelMsg :=
  ((bs.map (· / 4)).eraseDups).flatMap fun i => tget [] s.relMem i

/-- Put the releases of a write on physical words (R80). -/
def State.putMsgsPhys (s : State) (bs : List Nat) (m : List RelMsg) : State :=
  { s with relMem := ((bs.map (· / 4)).eraseDups).foldl (fun t i => tput [] t i m) s.relMem }

/-- One lane of a heap atomic: the old value is written to the destination, then the new one to memory (R226, R269). -/
def hAtomLane (x : Ix) (o : AtomOp) (lane : Nat) (bs : List Nat) (s : State) : State :=
  let old := natOf (bs.map (s.memByte (s.wctx x.w)))
  let msgs := s.msgsPhys bs
  let s1 := if o.reads then s.readMsgs x.w o.scope o.ord msgs else s
  let s2 := s1.setWarp x.w ((s1.warp x.w).wopd o.dst o.ty.regs lane old)
  match o.op lane old with
  | none => s2
  | some v =>
    (s2.putFor (s.wctx x.w) (bs.zip (bytesOf o.ty.bytes v))).putMsgsPhys bs (s2.writeMsgs x.w o.scope o.ord (o.opc != 1) msgs)

/-- What `HATOM` and `HCAS` do once they may (R269). -/
def hAtomic (o : AtomOp) (f : FH) (x : Ix) : HeapM Unit := do
  let (p, g) ← hMine x
  let off (_ : Nat) : Int := f.off.toInt
  let objs ← hOpen p g x f.ha.toNat
  hField false o.ty.bytes off objs
  let l ← hFieldPhys p o.ty.bytes (o.opc != 0) off objs
  if o.reads then hPoison off l
  if o.opc != 0 then hRoom p
  modify fun s => (l.foldl (fun t (ob, bs) => hAtomLane x o ob.lane bs t) (s.countWrite x)).atomDone x o.ord

/-- An instruction of the heap's atomic group; with no lane taking part its order still acts (R94). -/
def State.heapAtomic (s : State) (i : Instr) (o : AtomOp) (f : FH) (x : Ix) : Res :=
  match if ordRel o.ord then s.releaseCheck x else none with
  | some r => r
  | none => if x.lanes.isEmpty then .adv (s.atomDone x o.ord) else s.heapDo i x (hAtomic o f x)

/-- What `HATOM` does (R226, R269). -/
def hatomOp (f : FH) (w : Warp) : AtomOp :=
  let opc := modBits f.mod 4 4
  let v (l : Nat) : Nat := w.opd f.ix f.ty.regs l
  { opc := opc, ord := modBits f.mod 1 3, scope := f.pd.toNat, ty := f.ty, reads := opc != 1, dst := f.v
    op := fun l old => if opc == 0 then none else some (atomNew opc f.ty old (v l)) }

/-- What `HCAS` does (R227, R269). -/
def hcasOp (f : FH) (w : Warp) : AtomOp :=
  let n := f.ty.regs
  let v (l : Nat) : Nat := w.opd f.ix (2 * n) l
  { opc := 2, ord := modBits f.mod 1 3, scope := f.pd.toNat, ty := f.ty, reads := true, dst := f.v
    op := fun l old => if old == v l % 2 ^ (32 * n) then some (v l / 2 ^ (32 * n)) else none }

/-- `HATOM` for an entry. -/
def hatomAct (c : Common) (f : FH) (x : Ix) (s : State) : Res :=
  s.heapAtomic (.hatom c f) (hatomOp f (s.warp x.w)) f x

/-- `HATOM` (R269). -/
def execHatom (c : Common) (f : FH) (s : State) : Out := s.issue false (.hatom c f) fun x t => hatomAct c f x t

/-- `HCAS` for an entry. -/
def hcasAct (c : Common) (f : FH) (x : Ix) (s : State) : Res := s.heapAtomic (.hcas c f) (hcasOp f (s.warp x.w)) f x

/-- `HCAS` (R269). -/
def execHcas (c : Common) (f : FH) (s : State) : Out := s.issue false (.hcas c f) fun x t => hcasAct c f x t

/-! ### Reference instructions -/

/-- The healing write-back of one lane: a compare-and-swap against the loaded value, logged when its page may not be written
or holds a logged write, and then compared at its replay (R272, R326, R328). -/
def hHeal (p : Port) (w : Nat) (pc : Word) (va old new : Nat) : HeapM Unit := do
  let s ← get
  let page := va / 4096 * 4096
  if old != new then
    if s.pageLogged p page then
      if s.logRoom p.unit 1 then
        set (s.park { ctx := p.ctx, page := page, unit := p.unit, warp := w, pc := pc
                      kind := .write 0 (addrs va (bytesOf 8 new)) (.heal old) })
      else throw .stall
    else if (← hRead p va 8) == old then hStore p w pc (.heal old) (addrs va (bytesOf 8 new))

/-- `HLDR` (R272): loads the field, heals the value, writes `hD`, and writes the healed value back. -/
def hldrAct (c : Common) (f : FH) (x : Ix) (s : State) : Res :=
  s.heapDo (.hldr c f) x do
    let (p, g) ← hMine x
    let off (_ : Nat) : Int := f.off.toInt
    let objs ← hOpen p g x f.ha.toNat
    hField true 8 off objs
    let l ← hFieldPhys p 8 false off objs
    hPoison off l
    let t ← get
    let vals := l.map fun (o, bs) => (o, natOf (bs.map (t.memByte p.ctx)))
    let full := vals.filter fun (_, v) => v != 0
    let healed ← hBarriers p g x.w (full.map fun (o, v) => { lane := o.lane, reg := none, val := v })
    hWhole do
      (full.zip healed).forM fun ((o, v), n) => hHeal p x.w x.cp (fieldVa off o) v n
      modify fun t => vals.foldl (fun t (o, v) =>
        let n := match (full.zip healed).find? fun (q, _) => q.1.lane == o.lane with
          | some (_, n) => n
          | none => v
        t.modWarp x.w fun y => y.wh f.hd.toNat o.lane (.ofNat 64 n)) t

/-- `HLDR` (R272). -/
def execHldr (c : Common) (f : FH) (s : State) : Out :=
  s.issue false (.hldr c f) fun x t => if x.lanes.isEmpty then .adv t else hldrAct c f x t

/-- `HSTR` (R272): heals both operands and stores the second; a null is stored as it is.  Of rejected references, a `hA` of any
lane is reported before a `hB` (R343; log entry 48). -/
def hstrAct (c : Common) (f : FH) (x : Ix) (s : State) : Res :=
  s.heapDo (.hstr c f) x do
    let (p, g) ← hMine x
    let off (_ : Nat) : Int := f.off.toInt
    let t ← get
    let base := t.refUses x f.ha.toNat
    let data := (t.refUses x f.hb.toNat).filter fun u => u.val != 0
    let vals ← hBarriers p g x.w (base ++ data)
    let objs ← hObjects p g (x.lanes.zip vals)
    hField true 8 off objs
    hWhole do
      hCount x
      let w := (← get).warp x.w
      hStore p x.w x.cp .heap (objs.flatMap fun o =>
        addrs (fieldVa off o) (bytesOf 8 (w.rh f.hb.toNat o.lane).toNat))

/-- `HSTR` (R272). -/
def execHstr (c : Common) (f : FH) (s : State) : Out :=
  s.issue false (.hstr c f) fun x t => if x.lanes.isEmpty then .adv t else hstrAct c f x t

/-- A value that `HMOV` accepts as a reference (R21). -/
def refForm (x : Nat) : Bool := x == 0 || bits x 3 1 == 1 && bits x 2 1 == 0 && bits x 48 16 == 0

/-- `HMOV` (R21, R272): it does not pass the barrier. -/
def execHmov (c : Common) (f : FH) (s : State) : Out :=
  s.issue false (.hmov c f) fun x t =>
    let w := t.warp x.w
    let val (l : Nat) : Nat := if modBit f.mod 0 then (w.rh f.ha.toNat l).toNat else w.opd f.v 2 l
    match if modBit f.mod 0 then none else x.lanes.find? fun l => !refForm (val l) with
    | some l => .raise t (precise cHeapTag x.cp l)
    | none => .adv (t.setWarp x.w (x.lanes.foldl (fun y l => y.wh f.hd.toNat l (.ofNat 64 (val l))) w))

/-- `HCMP` (R116, R272). -/
def hcmpAct (c : Common) (f : FH) (x : Ix) (s : State) : Res :=
  s.heapDo (.hcmp c f) x do
    let (p, g) ← hMine x
    let t ← get
    let uses := (x.lanes.flatMap fun l => [f.ha.toNat, f.hb.toNat].map fun r =>
      ({ lane := l, reg := some r, val := ((t.warp x.w).rh r l).toNat } : RefUse)).filter fun u => u.val != 0
    let _ ← hBarriers p g x.w uses
    modify fun t => t.writeP x false f.pd fun l =>
      refAddr ((t.warp x.w).rh f.ha.toNat l).toNat == refAddr ((t.warp x.w).rh f.hb.toNat l).toNat

/-- `HCMP` (R116, R272). -/
def execHcmp (c : Common) (f : FH) (s : State) : Out :=
  s.issue false (.hcmp c f) fun x t => if x.lanes.isEmpty then .adv t else hcmpAct c f x t

/-- `HHDR` (R116): 16·`SIZE`, header bits [63:32] and `AUX`. -/
def hhdrAct (c : Common) (f : FH) (x : Ix) (s : State) : Res :=
  s.heapDo (.hhdr c f) x do
    let (p, g) ← hMine x
    let off (_ : Nat) : Int := 0
    let objs ← hOpen p g x f.ha.toNat
    let l ← hFieldPhys p 16 false off objs
    hPoison off l
    modify fun t => t.writeD x false f.v 4 fun k =>
      match l.find? fun (o, _) => o.lane == k with
      | some (_, bs) =>
        let h := natOf (bs.map (t.memByte p.ctx))
        hdrSize h % 2 ^ 32 + h / 2 ^ 32 * 2 ^ 32
      | none => 0

/-- `HHDR` (R116). -/
def execHhdr (c : Common) (f : FH) (s : State) : Out :=
  s.issue false (.hhdr c f) fun x t => if x.lanes.isEmpty then .adv t else hhdrAct c f x t

/-! ### Pinning (R124, R273) -/

/-- Count lanes' pins in turn, from the directory entries as they stand: the lane that passes the limit, or the new counts
by page. -/
def pinCounts (up : Bool) (lim : Nat → Nat) : List (Nat × Nat) → Tab Nat → Except Nat (Tab Nat)
  | [], t => .ok t
  | (lane, page) :: r, t =>
    let n := (tfind t page).getD (lim page)
    if up then if n = 255 then .error lane else pinCounts up lim r (tset t page (n + 1))
    else if n = 0 then .error lane else pinCounts up lim r (tset t page (n - 1))

/-- Change the pin counts of the objects' pages by one for each lane, in ascending order, all of them or none (R124, R270). -/
def hPins (p : Port) (g : Region) (up : Bool) (objs : List HObj) : HeapM Unit := do
  let pages := objs.map fun o => (o.lane, g.pageOf o.addr)
  let dirs ← (pages.map (·.2)).eraseDups.mapM fun q => do pure (q, ← hRead p (g.dirVa q) 8)
  match pinCounts up (fun q => dirPins (tget 0 dirs q)) pages [] with
  | .error lane => throw (.fault cPin lane 0)
  | .ok t =>
    atomically (t.forM fun (q, n) => hWrite p (g.dirVa q) 8 (setBits (tget 0 dirs q) 0 8 n))

/-- `HPIN` (R124, R273): the raw address of the present copy. -/
def hpinAct (c : Common) (f : FH) (x : Ix) (s : State) : Res :=
  s.heapDo (.hpin c f) x do
    let (p, g) ← hMine x
    let objs ← hOpen p g x f.ha.toNat
    hPins p g true objs
    modify fun t =>
      (t.writeD x false f.v 2 fun k => match objs.find? (·.lane == k) with | some o => o.addr | none => 0).restart x x.ent

/-- `HPIN` (R124, R273). -/
def execHpin (c : Common) (f : FH) (s : State) : Out :=
  s.issue false (.hpin c f) fun x t => if x.lanes.isEmpty then .adv t else hpinAct c f x t

/-- `HUNPIN` (R124, R273). -/
def hunpinAct (c : Common) (f : FH) (x : Ix) (s : State) : Res :=
  s.heapDo (.hunpin c f) x do
    let (p, g) ← hMine x
    let objs ← hOpen p g x f.ha.toNat
    hPins p g false objs
    modify fun t => t.restart x x.ent

/-- `HUNPIN` (R124, R273). -/
def execHunpin (c : Common) (f : FH) (s : State) : Out :=
  s.issue false (.hunpin c f) fun x t => if x.lanes.isEmpty then .adv t else hunpinAct c f x t

/-! ### Allocation (R113, R271) -/

/-- Bytes of an object with a payload of n bytes. -/
def objBytes (n : Nat) : Nat := 16 + (n + 15) / 16 * 16

/-- The allocation page of a core for a context and region, with its next free offset. -/
def State.allocPage (s : State) (core c r : Nat) : Option (Nat × Nat) :=
  ((tget {} s.cores core).alloc.find? fun (a, b, _, _) => a == c && b == r).map fun (_, _, p, o) => (p, o)

/-- Set it. -/
def State.setAllocPage (s : State) (core c r p o : Nat) : State :=
  { s.putPageEnd c r p o with cores := tmod {} s.cores core fun k =>
      { k with alloc := (k.alloc.filter fun (a, b, _, _) => !(a == c && b == r)) ++ [(c, r, p, o)] } }

/-- Place one object (R113): its address, or HEAP-EXHAUSTED for the lane. -/
def hAlloc (p : Port) (g : Region) (core lane size : Nat) : HeapM Nat := do
  let s ← get
  if size ≤ 2 ^ 18 then
    let fresh : HeapM Nat := do
      match ← hTakePages p g 1 with
      | none => throw (.fault cExhausted lane 0)
      | some q =>
        modify fun t => t.setAllocPage core p.ctx g.num q size
        pure (g.pageVa q)
    match s.allocPage core p.ctx g.num with
    | some (q, o) =>
      if o + size ≤ poolPage then
        set (s.setAllocPage core p.ctx g.num q (o + size))
        pure (g.pageVa q + o)
      else fresh
    | none => fresh
  else
    match ← hTakePages p g ((size + poolPage - 1) / poolPage) with
    | none => throw (.fault cExhausted lane 0)
    | some q =>
      modify fun t => t.putPageEnd p.ctx g.num q (min size poolPage)
      pure (g.pageVa q)

/-- The header of a new object and its zeroed payload (R112, R113, R271). -/
def newBytes (a n ty : Nat) : List (Nat × Byte) :=
  let size := objBytes n
  let h := size / 16 + ty * 2 ^ 32 + (if 2 ^ 18 < size then 2 ^ 49 else 0)
  addrs a (bytesOf 16 h) ++ addrs (a + 16) (List.replicate (size - 16) 0)

/-- Place an object for each lane of an `HNEW`, all of them or none (R113, R271): the instruction counts as a write, and has what
it still has to write on record. -/
def hNewPlace (f : FH) (x : Ix) : HeapM Unit := do
  let (p, g) ← hMine x
  let w := (← get).warp x.w
  let core := ((← get).wblk x.w).core
  let n (l : Nat) : Nat := w.opd f.v 1 l
  match x.lanes.find? fun l => 2 ^ 30 - 16 < n l || g.ntypes ≤ f.off.toNat with
  | some l => throw (.fault cHeapBound l 0)
  | none =>
    let _ ← hType p g f.off.toNat
    let addr ← atomically (x.lanes.mapM fun l => do pure (l, ← hAlloc p g core l (objBytes (n l))))
    let refs := addr.map fun (l, a) => (l, BitVec.ofNat 64 (mkRef a g.epoch))
    modify fun t => (t.countWrite x).modWarp x.w fun y =>
      { y with newAt := some { cp := x.cp, ent := x.ent, refs := refs, done := 0 } }

/-- The sectors of the headers and payloads of an `HNEW`'s objects (R112, R271, R327). -/
def Warp.newSectors (w : Warp) (f : FH) (y : NewObjects) : List (List (Nat × Byte)) :=
  sectors 0 (y.refs.flatMap fun (l, r) => newBytes (refAddr r.toNat) (w.opd f.v 1 l) f.off.toNat)

/-- An `HNEW` has written its objects: each lane receives its reference, and the lanes of its entry go on (R271). -/
def State.newDone (s : State) (f : FH) (w : Nat) (y : NewObjects) : State :=
  s.modWarp w fun v =>
    let v1 := y.refs.foldl (fun t (l, r) => t.wh f.hd.toNat l r) v
    { (v1.restart y.ent (nextCp y.cp)).moveOnly y.cp y.ent [] (fun _ => 0) with hold := none, newAt := none }

/-- An `HNEW` writes its objects as far as its port's side log takes them (R326, R327).  With a full log it waits at the entry,
which is a restart region of its own from then on (log entry 85). -/
def State.newWrite (s : State) (f : FH) (x : Ix) (y : NewObjects) : Res :=
  let p := s.heapPort x.w
  let l := (s.warp x.w).newSectors f y
  let mk (q : Parked) : Parked := { q with warp := x.w, pc := x.cp, wno := (s.warp x.w).wissue.toNat }
  match s.writeOrPark p.ctx p.unit 0 mk .heap (l.drop y.done) with
  | ([], t) => .set (t.newDone f x.w y)
  | (r, t) => .keep (t.modWarp x.w fun v =>
      { v.restart y.ent x.cp with newAt := some { y with done := l.length - r.length }, hold := some x.cp })

/-- `HNEW` for an entry (R113, R271): it places its objects, unless it has done so already, and writes them. -/
def hnewAct (c : Common) (f : FH) (x : Ix) (s : State) : Res :=
  let go (t : State) : Res :=
    match (t.warp x.w).newAt with
    | some y => t.newWrite f x y
    | none => .keep t
  match (s.warp x.w).newAt.filter fun y => y.cp == x.cp with
  | some _ => go s
  | none =>
    match s.heapDo (.hnew c f) x (hNewPlace f x) with
    | .adv t => go t
    | r => r

/-- `HNEW` (R113, R271). -/
def execHnew (c : Common) (f : FH) (s : State) : Out :=
  s.issue false (.hnew c f) fun x t => if x.lanes.isEmpty then .adv t else hnewAct c f x t

/-! ### The end of a wait at the barrier -/

/-- A heap instruction that waits at the barrier, performed for its lanes. -/
def heapAct (i : Instr) (x : Ix) (s : State) : Res :=
  match i with
  | .hld c f => hldAct c f x s
  | .hst c f => hstAct c f x s
  | .hatom c f => hatomAct c f x s
  | .hcas c f => hcasAct c f x s
  | .hldr c f => hldrAct c f x s
  | .hstr c f => hstrAct c f x s
  | .hcmp c f => hcmpAct c f x s
  | .hhdr c f => hhdrAct c f x s
  | .hpin c f => hpinAct c f x s
  | .hunpin c f => hunpinAct c f x s
  | _ => .adv s

/-- A waiting instruction whose entry is DONE completes: its threads return after it (R23).  It is performed with the `s`
registers it read at issue (R171).  When it stalls or waits for a page it is presented again; a fault is taken, in handler
mode too (R342). -/
def State.heapResume (s : State) (w : Nat) (i : Instr) (cp : Word) (lanes : List Nat) (regs : Tab Word) : State :=
  let x : Ix := { w := w, cp := cp, ent := lanes, lanes := lanes }
  let back (t : State) : State := t.modWarp w fun y => { y with s := (s.warp w).s }
  match heapAct i x (s.modWarp w fun y => { y with s := regs }) with
  | .adv t => (back t).modWarp w fun y => y.wake lanes fun _ _ => nextCp cp
  | .set t => back t
  | .raise t r => (back t).raise w lanes r
  | .keep t | .go t _ => (back t).modWarp w fun y => y.wake lanes fun _ _ => cp

/-- The waiting instructions of one warp whose lanes wait for an entry go on. -/
def State.wakeHeap (s : State) (w c e : Nat) : List (Instr × Word × BitVec 32 × Tab Word) → State
  | [] => s
  | (i, cp, m, regs) :: r =>
    let lanes := (lanesOf m).filter fun l => ((s.warp w).th l).st == .blocked (.heapEntry c e)
    if lanes.isEmpty then s.wakeHeap w c e r
    else
      let s1 := s.modWarp w fun y => { y with heapWaits := y.heapWaits.erase (i, cp, m, regs) }
      (s1.heapResume w i cp lanes regs).wakeHeap w c e r

/-- Every instruction that waits for a forwarding entry goes on. -/
def State.entryDone (s : State) (c e : Nat) : State :=
  s.warps.foldl (fun t (w, _) => t.wakeHeap w c e (t.warp w).heapWaits) s

end Sys2Proof.Machine
end

