-- ==== Sys2Proof/Machine/Copy.lean ====
section
/-! DEFINITION. Copy channels and the engine queues: `PUSH`, `CPST`, `WPRD`, `WPWAIT`, and the channel's own work (R71 to
R76, R238, R241 to R252, R355, R358). -/

namespace Sys2Proof.Machine

/-! ### The command's fields (R72, R243, R244) -/

/-- Word i of a command. -/
def Cmd.word (c : Cmd) (i : Nat) : Nat := (c.words.getD i 0).toNat
/-- The 64-bit operand in words i and i + 1. -/
def Cmd.opd (c : Cmd) (i : Nat) : Nat := c.word i + c.word (i + 1) * 2 ^ 32
/-- `KIND` -/
def Cmd.kind (c : Cmd) : Nat := bits (c.word 0) 0 8
/-- `ACQ`, `REL`, `TRAP` and `WPTR` -/
def Cmd.acqBit (c : Cmd) : Bool := bits (c.word 0) 8 1 == 1
/-- `REL` -/
def Cmd.relBit (c : Cmd) : Bool := bits (c.word 0) 9 1 == 1
/-- `TRAP` -/
def Cmd.trap (c : Cmd) : Bool := bits (c.word 0) 13 1 == 1
/-- `WPTR` -/
def Cmd.wptrBit (c : Cmd) : Bool := bits (c.word 0) 14 1 == 1
/-- `LEN` -/
def Cmd.len (c : Cmd) : Nat := c.word 1
/-- `ESZ` as a size, and `IX64` as the bytes of an index. -/
def Cmd.esz (c : Cmd) : Nat := 2 ^ bits (c.word 6) 0 3
/-- Bytes of an index. -/
def Cmd.ixBytes (c : Cmd) : Nat := if bits (c.word 6) 3 1 == 1 then 8 else 4
/-- A gather or scatter, by elements. -/
def Cmd.byElem (c : Cmd) : Bool := 3 ≤ c.kind && c.kind ≤ 5
/-- Bytes of an element. -/
def Cmd.elemBytes (c : Cmd) : Nat := if c.kind == 4 then c.word 6 else c.esz

/-- Word 0 of a copy command is as R72 requires. -/
def copyWord0 (x : Nat) : Bool := 1 ≤ bits x 0 8 && bits x 0 8 ≤ 7 && bits x 10 3 < 6 && bits x 15 17 == 0

/-- A local operand (R244). -/
def opLocal (o : Nat) : Bool := bits o 63 1 == 1
/-- `BX` of a local operand. -/
def opBx (o : Nat) : Nat := bits o 24 4
/-- `OFF` of a local operand. -/
def opOff (o : Nat) : Int := signed 24 o
/-- The reserved bits of an operand are 0. -/
def opClean (o : Nat) : Bool := bits o 48 15 == 0 && (!opLocal o || bits o 28 20 == 0)

/-- The words, with a mask of the bits that the `KIND` uses (R243); the others must be 0. -/
def Cmd.usedMask (kind i : Nat) : Nat :=
  let all := 2 ^ 32 - 1
  match i with
  | 0 => all
  | 1 => if kind == 2 then 0 else all
  | 2 | 3 => if kind == 4 || kind == 7 then 0 else all
  | 4 | 5 => all
  | 6 => match kind with | 3 | 5 => 15 | 4 | 7 => all | 6 => 255 | _ => 0
  | 7 => if kind == 4 then all else 0
  | 8 | 9 => if 3 ≤ kind && kind ≤ 5 then all else 0
  | 10 | 11 => if kind == 2 then all else 0
  | _ => 0

/-- A bit is set in a field that the `KIND` does not use. -/
def Cmd.unused (c : Cmd) : Bool := (List.range 16).any fun i => c.word i &&& (2 ^ 32 - 1 - Cmd.usedMask c.kind i) != 0

/-! ### The layout record (R249, R250) -/

/-- `NDIM` -/
def lyDims (x : Nat) : Nat := bits x 440 3
/-- `SIZEd`, `SSTRd` and `WEXTd` -/
def lySize (x d : Nat) : Nat := bits x (32 * d) 32
/-- `SSTRd` -/
def lyStride (x d : Nat) : Int := signed 40 (bits x (160 + 40 * d) 40)
/-- `WEXTd` -/
def lyExt (x d : Nat) : Nat := bits x (360 + 16 * d) 16
/-- `BANK` -/
def lyBank (x : Nat) : Nat := bits x 456 4
/-- `FILL` -/
def lyFill (x : Nat) : Nat := bits x 464 32

/-- The element types a record accepts, by `TYPE` code: their bytes, and how `FILL` is widened (R249, R250). -/
def lyType (x : Nat) : Option Ty :=
  match Ty.ofCode (bits x 448 6) with
  | .n8 => some .n8 | .s8 => some .s8 | .n16 => some .n16 | .s16 => some .s16 | .f16 => some .f16 | .bf16 => some .bf16
  | .n32 => some .n32 | .s32 => some .s32 | .f32 => some .f32 | .n64 => some .n64 | .s64 => some .s64 | .f64 => some .f64
  | .e8m0 => some .e8m0
  | _ => none

/-- Bytes of an element of a record. -/
def lyBytes (x : Nat) : Nat := ((lyType x).getD .n8).bytes
/-- Elements of the window. -/
def lyElems (x : Nat) : Nat := (List.range (lyDims x)).foldl (fun n d => n * lyExt x d) 1
/-- Bytes of a row. -/
def lyRow (x : Nat) : Nat := lyExt x 0 * lyBytes x

/-- A record is as R250 requires. -/
def lyOk (x : Nat) : Bool :=
  let n := lyDims x
  bits x 496 272 == 0 && bits x 460 4 == 0 && bits x 454 2 == 0 && bits x 443 5 == 0 && 1 ≤ n && n ≤ 5 &&
    ((List.range 5).all fun d =>
      if d < n then lyExt x d != 0 else lySize x d == 0 && bits x (160 + 40 * d) 40 == 0 && lyExt x d == 0) &&
    (lyType x).isSome && lyBank x ≤ 3 && (lyBank x == 0 || lyRow x % (16 * 2 ^ lyBank x) == 0) &&
    lyElems x * lyBytes x < 2 ^ 32

/-- The index of element k of the window in dimension d, dimension 0 innermost. -/
def lyIndex (x k d : Nat) : Nat := k / (List.range d).foldl (fun n i => n * lyExt x i) 1 % lyExt x d

/-- The source offset of element k, unless it lies beyond the ragged edge (R249). -/
def lySource (x k : Nat) : Option Int :=
  let ds := List.range (lyDims x)
  if ds.any fun d => lySize x d ≤ lyIndex x k d then none
  else some (ds.foldl (fun t d => t + lyIndex x k d * lyStride x d) 0)

/-- The window byte that lies at a destination byte: the 16-byte chunks of a row are interleaved (R249). -/
def lyWindowByte (x i : Nat) : Nat :=
  let row := i / lyRow x
  let c := i % lyRow x
  if lyBank x == 0 then i else row * lyRow x + Nat.xor (c / 16) (row % 2 ^ lyBank x) * 16 + c % 16

/-- The widened fill value (R249). -/
def lyFillVal (x : Nat) : Nat := widen ((lyType x).getD .n8) (.ofNat 32 (lyFill x))

/-! ### Units -/

/-- Bytes of the destination of a command, or of all its elements. -/
def Cmd.destLen (c : Cmd) : Nat :=
  if c.byElem then c.len * c.elemBytes else if c.kind == 2 then lyElems c.layout * lyBytes c.layout else c.len

/-- The place of the first destination byte in its 64-byte beat (R74). -/
def Cmd.phase (c : Cmd) : Nat :=
  let o := c.opd 4
  if c.kind == 6 then unsigned 6 (opOff o)
  else if opLocal o then unsigned 6 ((tget {} c.regs (opBx o)).ptr.toNat + opOff o)
  else o % 64

/-- Bytes of the first beat. -/
def Cmd.firstBeat (c : Cmd) : Nat := min c.destLen (64 - c.phase)

/-- How many units a command has: beats of its destination, or elements. -/
def Cmd.units (c : Cmd) : Nat :=
  if c.byElem then c.len else if c.destLen = 0 then 0 else 1 + (c.destLen - c.firstBeat + 63) / 64

/-- The destination offset at which unit u begins; at the count of units, the whole length. -/
def Cmd.unitOff (c : Cmd) (u : Nat) : Nat :=
  if c.byElem then u * c.elemBytes
  else if u = 0 then 0 else min c.destLen (c.firstBeat + 64 * (u - 1))

/-- What `ELEM` reports of a unit (R251). -/
def Cmd.elemOf (c : Cmd) (u : Nat) : Nat := if c.byElem then u else c.unitOff u

/-- The write pointer follows the units of the command (R74). -/
def Cmd.progressive (c : Cmd) : Bool := c.byElem || c.wptrBit || c.kind == 6

/-- The command as an operation that race detection and the error log see (R89). -/
def Cmd.asOp (c : Cmd) : AsyncOp :=
  { warp := c.warp, kind := .wflush [], flags := [c.flag], pc := c.pc, rsn := c.rsn, vc := c.vc }

/-- An access of unit u (R89). -/
def Cmd.acc (s : State) (c : Cmd) (u : Nat) (write : Bool) : Acc :=
  { party := c.party, own := c.party, ep := u, rsn := c.rsn, write := write, atomic := false, tag := (s.warp c.warp).tag }

/-! ### What a unit does -/

/-- Why a unit is not performed. -/
inductive CStop where
  /-- it fails with a code, and what a fault record says of it (R343) -/
  | fail (code : BitVec 8) (why : BitVec 48 × Word × Word := (0, 0, 0))
  /-- a page it reads is absent -/
  | absent (ctx va : Nat)
  /-- bytes that it reads are asked of a peer (R355) -/
  | peer (r : PeerReq)
  /-- it waits for a relocation, or for room in a side log -/
  | wait
  deriving DecidableEq, Repr

/-- A computation of a channel. -/
abbrev CopyM := ExceptT CStop (StateM State)

/-- Run a computation of a channel. -/
def runCopy {α : Type} (m : CopyM α) (s : State) : Except CStop α × State := m s

/-- A failure at an address. -/
def failAt (code : BitVec 8) (a : BitVec 48) : CStop := .fail code (a, 0, 0)

/-- Fill the chunks of local keys that are unfilled (R67); a chunk whose page faults, or whose fill waits for a replay (R328),
makes the unit wait for the page. -/
def cFill (w : Nat) (keys : List (Nat × Nat)) : CopyM Unit :=
  keys.forM fun (i, k) => do
    let s ← get
    if s.fillHeld (s.wcluster w) i k then throw (.absent (s.wctx w) ((s.window i).page k))
    else
      match s.fillChunk i k with
      | (some t, _) => set t
      | (none, t) =>
        set (t.fillFaulted i k)
        throw (.absent (t.wctx w) ((t.window i).page k))

/-- The key of n bytes of a local operand, checked (R244). -/
def cLocalKey (c : Cmd) (o : Nat) (off : Int) (n : Nat) (need : Need) : CopyM (Space × Nat) := do
  let s ← get
  let k := tget {} c.regs (opBx o)
  let ea : Int := k.ptr.toNat + opOff o + off
  match s.boundFault (s.wblk c.warp) k need n false [(0, ea)] with
  | some (code, _, a) => throw (failAt code (eaWord a))
  | none =>
    let sp := k.sp.getD .shared
    let key := s.keyOf c.warp sp ea.toNat
    if sp == .plinth && !s.windows.isEmpty then cFill c.warp (s.unfilled [key] n)
    pure (sp, key)

/-- Check and record the accesses of a unit to n bytes at a key (R82, R89). -/
def cAccess (c : Cmd) (u : Nat) (write : Bool) (sp : Space) (key n : Nat) : CopyM Unit := do
  let s ← get
  match s.opAccess (c.party / 2) c.asOp (c.acc s u write) sp n [key] with
  | .error (k, a) => throw (.fail 0x18 (.ofNat 48 (offOf sp k), a.tag, a.rsn))
  | .ok t => if s.metaPoison sp key n then throw (failAt 0x16 (.ofNat 48 (offOf sp key))) else set t

/-- Read n bytes of a local operand. -/
def cReadLocal (c : Cmd) (u o : Nat) (off : Int) (n : Nat) : CopyM (List Byte) := do
  let (sp, key) ← cLocalKey c o off n .load
  cAccess c u false sp key n
  let s ← get
  if s.localPoison sp key n then throw (failAt 0x16 (.ofNat 48 (offOf sp key)))
  else pure ((List.range n).map fun i => rdByte (s.bytes sp) (key + i))

/-- A virtual address as a fault record reports it. -/
def vaWord (va : Int) : BitVec 48 := .ofNat 48 (unsigned 48 va)

/-- The physical addresses of n bytes that the channel reads (R244, R355). -/
def cPhys (ch : Nat) (c : Cmd) (va : Int) (n : Nat) : CopyM (List Nat) := do
  let s ← get
  if va < 0 || (2 ^ 48 : Nat) < va + n then throw (failAt 0x10 (vaWord va))
  else
    match s.xlRange (.chan ch) (s.wctx c.warp) va.toNat n false true with
    | (.error q, t) =>
      set t
      throw (.absent (t.wctx c.warp) (max q va.toNat))
    | (.ok l, t) =>
      set t
      pure l

/-- The byte that a peer has answered with for an address of unit u. -/
def Cmd.gotByte (c : Cmd) (u va : Nat) : Option Byte :=
  (c.got.find? fun (e, a, _) => e == u && a == va).map fun (_, _, b) => b

/-- The first bytes of unit u that are a peer's and not answered yet, as one request: they lie in one page (R355). -/
def Cmd.peerRead (c : Cmd) (ctx u va : Nat) (l : List Nat) : Option PeerReq :=
  let lacks (i : Nat) : Bool := isPeer (l.getD i 0) && (c.gotByte u (va + i)).isNone
  ((List.range l.length).find? lacks).map fun i =>
    let run := (List.range (l.length - i)).takeWhile fun j => lacks (i + j) && (va + i + j) / 4096 == (va + i) / 4096
    { unit := u, write := false, link := peerLink (l.getD i 0), ctx := ctx, va := va + i, len := run.length }

/-- Read n bytes at a virtual address: a peer's bytes are asked for first (R355); a poisoned byte fails the unit (R127). -/
def cBytes (ch : Nat) (c : Cmd) (u : Nat) (va : Int) (n : Nat) : CopyM (List Byte) := do
  let l ← cPhys ch c va n
  let s ← get
  match c.peerRead (s.wctx c.warp) u va.toNat l with
  | some r => throw (.peer r)
  | none =>
    match l.findIdx? s.poisoned with
    | some i => throw (failAt 0x16 (vaWord (va + i)))
    | none => pure (l.zipIdx.map fun (a, i) => if isPeer a then (c.gotByte u (va.toNat + i)).getD 0
        else s.memByte (s.wctx c.warp) a)

/-- Read n bytes of the source at an offset from its operand. -/
def cRead (ch : Nat) (c : Cmd) (u o : Nat) (off : Int) (n : Nat) : CopyM (List Byte) :=
  if opLocal o then cReadLocal c u o off n else cBytes ch c u ((bits o 0 48 : Nat) + off) n

/-- An index of the list (R246). -/
def cIndex (c : Cmd) (u : Nat) : CopyM Nat := do
  pure (natOf (← cReadLocal c u (c.opd 8) (u * c.ixBytes : Nat) c.ixBytes))

/-- What a stop of the heap port is to a channel (R247, R326). -/
def CStop.ofHeap : HStop → CStop
  | .fault code _ a => .fail code (.ofNat 48 a, 0, 0)
  | .page c va _ | .desc c va => .absent c va
  | .entry _ _ | .stall => .wait

/-- A computation of the heap port made by a channel. -/
def liftHeap {α : Type} (m : HeapM α) : CopyM α := fun s =>
  match runHeap m s with
  | (.error e, t) => (.error (.ofHeap e), t)
  | (.ok a, t) => (.ok a, t)

/-- Change the command in progress. -/
def State.modCmd (s : State) (n : Nat) (f : Cmd → Cmd) : State :=
  s.modChan n fun h => { h with queue := h.queue.modify 0 f }

/-- The address that element u of a GATHER-REF reads (R247): its reference passes the barrier of the core's heap port (R320), once
(R120). -/
def cRefAddr (n : Nat) (c : Cmd) (u ref : Nat) : CopyM Nat := do
  let s ← get
  let p := s.heapPort c.warp
  match c.passed.find? fun (e, _) => e == u with
  | some (_, a) => pure a
  | none =>
    if !(s.wgrid c.warp).heapen then throw (.fail cHeapTag)
    else
      liftHeap do
        let g ← hRegion p (s.wgrid c.warp).heap
        let vals ← hBarriers p g c.warp [{ lane := 0, reg := none, val := ref }]
        let objs ← hObjects p g [(0, vals.headD 0)]
        match objs with
        | o :: _ =>
          let a := o.addr + c.word 7
          if c.word 7 < 16 || hdrSize o.hdr < c.word 7 + c.word 6 then throw (.fault cHeapBound 0 a)
          else
            modify fun t => t.modCmd n fun k => { k with passed := (u, a) :: k.passed }
            pure a
        | [] => throw .stall

/-- The bytes of a STRIDED beat: the elements they belong to are read once each (R249). -/
def cStrided (n : Nat) (c : Cmd) (u : Nat) : CopyM (List Byte) := do
  let x := c.layout
  let z := lyBytes x
  let lo := c.unitOff u
  let places := (List.range (c.unitOff (u + 1) - lo)).map fun i => lyWindowByte x (lo + i)
  let elems ← ((places.map (· / z)).eraseDups).mapM fun k => do
    match lySource x k with
    | none => pure (k, bytesOf z (lyFillVal x))
    | some off => pure (k, ← cRead n c u (c.opd 2) off z)
  pure (places.map fun i => (tget [] elems (i / z)).getD (i % z) 0)

/-- The bytes that unit u of a command writes (R245 to R249). -/
def cSource (n : Nat) (c : Cmd) (u : Nat) : CopyM (List Byte) := do
  let lo := c.unitOff u
  let len := c.unitOff (u + 1) - lo
  match c.kind with
  | 2 => cStrided n c u
  | 3 => cRead n c u (c.opd 2) ((← cIndex c u) * c.esz : Nat) c.esz
  | 4 =>
    let ref := natOf (← cReadLocal c u (c.opd 8) (8 * u : Nat) 8)
    cBytes n c u (← cRefAddr n c u ref : Nat) c.elemBytes
  | 7 => pure ((List.range len).map fun i => .ofNat 8 (c.word 6 / 2 ^ (8 * ((lo + i) % 4))))
  | _ => cRead n c u (c.opd 2) (lo : Nat) len

/-! ### Bytes that lie in source and destination alike (R244) -/

/-- What the list holds for element u, as n bytes, when the element can read it. -/
def State.listAt (s : State) (c : Cmd) (u n : Nat) : Option Nat :=
  let k := tget {} c.regs (opBx (c.opd 8))
  let ea : Int := k.ptr.toNat + opOff (c.opd 8) + (u * n : Nat)
  match s.boundFault (s.wblk c.warp) k .load n false [(0, ea)] with
  | some _ => none
  | none =>
    let sp := k.sp.getD .shared
    some (s.getLocal sp (s.keyOf c.warp sp ea.toNat) n)

/-- The source ranges of a command: the offset from its source operand, or the address of a referenced object's bytes, with
the length. -/
def State.spans (s : State) (n : Nat) (c : Cmd) : List (Int × Nat) :=
  match c.kind with
  | 1 | 6 => [(0, c.len)]
  | 2 => (List.range (lyElems c.layout)).filterMap fun k => (lySource c.layout k).map fun o => (o, lyBytes c.layout)
  | 3 => (List.range c.len).filterMap fun e => (s.listAt c e c.ixBytes).map fun i => ((i * c.esz : Nat), c.esz)
  | 4 => (List.range c.len).filterMap fun e =>
      match (s.listAt c e 8).map fun r => (runCopy (cRefAddr n c e r) s).1 with
      | some (.ok a) => some ((a : Nat), c.elemBytes)
      | _ => none
  | 5 => [(0, c.len * c.esz)]
  | _ => []

/-- A place of a byte: where it lies (0 a virtual address, 1 shared memory, 2 the Plinth, 3 physical memory) and its
address there. -/
abbrev Place := Nat × Nat

/-- The number of a local space among the places. -/
def Space.place : Space → Nat
  | .shared => 1
  | .plinth => 2

/-- The physical address of a virtual one, as the command's channel finds it. -/
def State.copyPa (s : State) (n : Nat) (c : Cmd) (va : Nat) : Option Nat := (s.xlate (.chan n) (s.wctx c.warp) va false true).1

/-- The places of the byte at an offset of an operand. -/
def State.placesOf (s : State) (n : Nat) (c : Cmd) (o : Nat) (off : Int) : List Place :=
  if opLocal o then
    let k := tget {} c.regs (opBx o)
    let sp := k.sp.getD .shared
    [(sp.place, s.keyOf c.warp sp (k.ptr.toNat + opOff o + off).toNat)]
  else
    let va := ((bits o 0 48 : Nat) + off).toNat
    (0, va) :: ((s.copyPa n c va).map fun a => (3, a)).toList

/-- The ranges that a command reads: the place of the first byte, and the length; a range of virtual addresses is also the
physical ranges of its pages, so that two addresses of one page are the same bytes. -/
def State.sources (s : State) (n : Nat) (c : Cmd) : List (Place × Nat) :=
  (s.spans n c).flatMap fun (o, len) =>
    if opLocal (c.opd 2) && c.kind != 4 then (s.placesOf n c (c.opd 2) o).map fun p => (p, len)
    else
      let va := ((if c.kind == 4 then 0 else bits (c.opd 2) 0 48 : Nat) + o).toNat
      ((0, va), len) :: (pagesOf va len).filterMap fun q =>
        (s.copyPa n c (max q va)).map fun a => ((3, a), min (q + 4096) (va + len) - max q va)

/-- The bytes to be written at places that the source takes in have free values (R244; log entry 3). -/
def cOverlap (n : Nat) (c : Cmd) (dest : Nat → List Place) (bytes : List Byte) : CopyM (List Byte) := do
  let src := (← get).sources n c
  (bytes.zipIdx).mapM fun (b, i) => do
    if (dest i).any fun (p, a) => src.any fun ((q, lo), len) => p == q && lo ≤ a && a < lo + len then
      let (v, t) := (← get).free
      set t
      pure (v.setWidth 8)
    else pure b

/-! ### Writing -/

/-- The blocks a MULTICAST writes, by rank (R248). -/
def State.receivers (s : State) (c : Cmd) : List Nat :=
  let bs := (s.gang (s.wblk c.warp).gang).blocks
  let m := c.word 6
  if m == 0 then bs else (bs.zipIdx.filter fun (_, i) => bits m i 1 == 1).map (·.1)

/-- Write to one receiver of a MULTICAST (R248); a receiver that holds its shared memory no more fails the beat. -/
def cReceive (n : Nat) (c : Cmd) (u : Nat) (off : Int) (bytes : List Byte) (b : Nat) : CopyM Unit := do
  let s ← get
  let k := s.blk b
  let a := opOff (c.opd 4) + off
  if !k.holds || a < 0 || (s.grid k.grid).f 416 19 < a + bytes.length then throw (failAt 0x10 (eaWord a))
  else
    let key := k.core * 2 ^ 19 + k.shBase + a.toNat
    cAccess c u true .shared key bytes.length
    let bs ← cOverlap n c (fun i => [(1, key + i)]) bytes
    modify fun t => t.putLocal .shared (addrs key bs)

/-- Requests are sent to peers and wait for their answers (R355). -/
def State.askPeers (s : State) (n : Nat) (l : List PeerReq) : State :=
  s.modCmd n fun c => { c with peers := c.peers ++ l }

/-- The request that writes bytes of a sector to a peer, when its page is a peer's (R355). -/
def State.sectorPeer (s : State) (x : XUnit) (ctx u va : Nat) (sec : List (Nat × Byte)) : Option PeerReq × State :=
  match sec with
  | [] => (none, s)
  | (i, _) :: _ =>
    match s.xlate x ctx (va + i) true true with
    | (none, t) => (none, t)
    | (some a, t) =>
      if isPeer a then
        let leaf := (t.cached (some x) (t.unitChip x) ctx (va + i) true true).map fun e => (e.va, e.size)
        (some { unit := u, write := true, link := peerLink a, ctx := ctx, va := va + i, len := sec.length
                bytes := sec.map (·.2), leaf := leaf.getD ((va + i) / 4096 * 4096, 4096) }, t)
      else (none, t)

/-- A sector stands behind a logged write of the channel (R328). -/
def State.sectorBehind (s : State) (n ctx va : Nat) (sec : List (Nat × Byte)) : Bool :=
  sec.any fun (i, _) => s.sectorLogged (.chan n) ctx ((va + i) / 64)

/-- Write one sector of a unit's bytes: a peer's is sent to it, and one whose page faults, or that stands behind a logged write, goes
to the side log (R326, R328, R355).  None while the log is full, or the core has no request left (R5, R327). -/
def State.putSector (s : State) (n : Nat) (c : Cmd) (p : CopyRest) : Option State :=
  let ctx := s.wctx c.warp
  if !s.logRoom (.chan n) 1 then none
  else
    match if s.sectorBehind n ctx p.va p.bytes then (none, s) else s.sectorPeer (.chan n) ctx p.unit p.va p.bytes with
    | (some q, t) => if t.requestRoom c.warp = 0 then none else some (t.askPeers n [q])
    | (none, t) =>
      some (t.writeOrPark ctx (.chan n) p.va (fun y => { y with warp := c.warp, pc := c.pc }) (.copyWrite n p.unit) [p.bytes]).2

/-- Write sectors in order, up to the first that has to wait: those that are left. -/
def State.putSectors (s : State) (n : Nat) (c : Cmd) : List CopyRest → List CopyRest × State
  | [] => ([], s)
  | p :: r =>
    match s.putSector n c p with
    | some t => t.putSectors n c r
    | none => (p :: r, s)

/-- The sectors of bytes at a virtual address of a unit. -/
def restOf (u va : Nat) (bytes : List Byte) : List CopyRest :=
  (sectors va (addrs 0 bytes)).map fun l => { unit := u, va := va, bytes := l }

/-- Write bytes to global memory, as far as they can be written and nothing before them is left; the rest follows, in order, when
there is room (R326, R327). -/
def cWriteGlobal (n : Nat) (c : Cmd) (u : Nat) (va : Int) (bytes : List Byte) : CopyM Unit := do
  let s ← get
  if va < 0 || (2 ^ 48 : Nat) < va + bytes.length then throw (failAt 0x10 (vaWord va))
  else
    let l := restOf u va.toNat bytes
    match if ((s.chan n).queue.headD {}).rest.isEmpty then s.putSectors n c l else (l, s) with
    | (r, t) => set (t.modCmd n fun k => { k with rest := k.rest ++ r })

/-- Write bytes at an offset of the destination. -/
def cWriteAt (n : Nat) (c : Cmd) (u : Nat) (off : Int) (bytes : List Byte) : CopyM Unit := do
  let o := c.opd 4
  if c.kind == 6 then
    ((← get).receivers c).forM fun b => cReceive n c u off bytes b
  else if opLocal o then
    let (sp, key) ← cLocalKey c o off bytes.length .store
    cAccess c u true sp key bytes.length
    modify fun t => t.putLocal sp (addrs key bytes)
  else cWriteGlobal n c u ((bits o 0 48 : Nat) + off) bytes

/-- The bytes of a scatter's element that no later element has written (R246): runs of (offset, bytes). -/
def spotFree (spots : List (Nat × Nat)) (u z at_ : Nat) (bytes : List Byte) : List (Nat × Byte) :=
  (bytes.zipIdx.filter fun (_, i) => !spots.any fun (e, a) => u < e && a ≤ at_ + i && at_ + i < a + z).map
    fun (b, i) => (at_ + i, b)

/-- The bytes of a unit as its destination at an offset takes them (R244); those of a MULTICAST depend on the receiver. -/
def cDest (n : Nat) (c : Cmd) (off : Nat) (bytes : List Byte) : CopyM (List Byte) := do
  let s ← get
  if c.kind == 6 then pure bytes else cOverlap n c (fun i => s.placesOf n c (c.opd 4) (off + i : Nat)) bytes

/-- Write the bytes of unit u where they go. -/
def cWrite (n : Nat) (c : Cmd) (u : Nat) (bytes : List Byte) : CopyM Unit := do
  if c.kind == 5 then
    let a := (← cIndex c u) * c.esz
    let bs ← cDest n c a bytes
    let l := spotFree c.spots u c.esz a bs
    if l.length == bs.length then cWriteAt n c u (a : Nat) bs
    else l.forM fun (i, b) => cWriteAt n c u (i : Nat) [b]
    modify fun s => s.modChan n fun h =>
      { h with queue := h.queue.modify 0 fun q => { q with spots := (u, a) :: q.spots } }
  else
    cWriteAt n c u (c.unitOff u : Nat) (← cDest n c (c.unitOff u) bytes)

/-! ### Progress of a command -/

/-- Advance in order over the units delivered ahead. -/
def advanceDone (ahead : List Nat) (d : Nat) : Nat → Nat
  | 0 => d
  | k + 1 => if ahead.contains d then advanceDone ahead (d + 1) k else d

/-- Unit u of the command in progress has been delivered: the units in order, the write pointer and what a `WPWAIT` takes
(R74, R75, R88).  Nothing advances past a failed unit. -/
def State.delivered (s : State) (n u : Nat) : State :=
  s.modChan n fun h =>
    match h.queue with
    | [] => h
    | c :: r =>
      let ahead := u :: c.ahead
      let d := advanceDone ahead c.done ahead.length
      let c' : Cmd := { c with done := d, ahead := ahead.filter fun e => d ≤ e }
      if c.progressive then
        { h with queue := c' :: r, wptr := .ofNat 64 (c.wptr0 + c.unitOff d)
                 vcDone := vcJoin (vcJoin h.vcDone c.vc) [(c.party, d)] }
      else { h with queue := c' :: r }

/-- Elements of a channel that are set aside. -/
def State.parkedUnits (s : State) (n : Nat) : List Nat := s.parked.filterMap fun p => p.kind.ofChan n

/-- The command with unit u failed: what was left of its write goes with it, and an element that has passed the barrier is read only
if a peer has still to answer for it (R75). -/
def Cmd.unitFails (c : Cmd) (u : Nat) : Cmd :=
  { c with
    bad := u :: c.bad
    rest := c.rest.filter fun p => p.unit != u
    passed := c.passed.filter fun (e, _) => e != u && c.peers.any fun p => p.unit == e }

/-- A unit fails (R75, R251): the first failure is recorded, and the elements of the fault list are removed from it. -/
def State.copyFail (s : State) (n u : Nat) (code : BitVec 8) (why : BitVec 48 × Word × Word := (0, 0, 0)) : State :=
  let s1 := s.modChan n fun h =>
    match h.queue with
    | [] => h
    | c :: r =>
      let c1 := c.unitFails u
      let c' : Cmd := if c.fail.isSome then c1 else { c1 with fail := some (code, c.elemOf u), why := why }
      let h1 : Chan := { h with queue := c' :: r }
      if h.code == 0 && c.fail.isNone then
        { h1 with code := code, elem := .ofNat 32 (c.elemOf u), fseq := h.seq + 1 }
      else h1
  { s1 with parked := s1.parked.filter fun p =>
      match p.kind with
      | .copyRead m _ _ => m != n
      | _ => true }

/-- The next unit to start: the lowest that is neither delivered, nor set aside, nor outstanding at a peer. -/
def State.nextUnit (s : State) (n : Nat) (c : Cmd) : Option Nat :=
  let away := s.parkedUnits n ++ c.ahead ++ c.peers.map (·.unit)
  (List.range (c.ahead.length + away.length + 1)).map (c.done + ·) |>.find? fun u => u < c.units && !away.contains u

/-- What a written unit does next: it is delivered, unless it has failed (R75), or a byte of it has still to be written, went to the
side log (R74), or to a peer that has not answered (R355). -/
def State.written (s : State) (n u : Nat) : State :=
  let c := (s.chan n).queue.headD {}
  if (s.parkedUnits n).contains u || c.bad.contains u || c.peers.any (fun p => p.unit == u) || c.rest.any (fun p => p.unit == u)
  then s
  else s.delivered n u

/-- The fault list of a channel has room (R327). -/
def State.listRoom (s : State) (n : Nat) : Bool :=
  (s.parked.filter fun p => match p.kind with | .copyRead m _ _ => m == n | _ => false).length < 256

/-- A unit whose page is absent goes to the fault list (R326); none does once the command has failed (R75). -/
def State.parkUnit (s : State) (n : Nat) (c : Cmd) (u ctx va : Nat) : State :=
  if c.fail.isSome then s
  else s.park { ctx := ctx, page := va / 4096 * 4096, unit := .chan n, kind := .copyRead n u va, warp := c.warp, pc := c.pc }

/-- What stops a unit: a failure leaves nothing of it but that, the rest what it has done so far. -/
def State.copyStop (s t : State) (n : Nat) (c : Cmd) (u : Nat) : CStop → State
  | .fail code why => s.copyFail n u code why
  | .peer r => if t.requestRoom c.warp = 0 then t else t.askPeers n [r]
  | .absent ctx va => t.parkUnit n c u ctx va
  | .wait => t

/-- Write the bytes of unit u, once read. -/
def State.copyPut (s : State) (n : Nat) (c : Cmd) (u : Nat) (bytes : List Byte) : State :=
  match runCopy (cWrite n c u bytes) s with
  | (.ok _, t) =>
    (t.modCmd n fun k =>
      { k with got := k.got.filter fun g => g.1 != u, passed := k.passed.filter fun (e, _) => e != u }).written n u
  | (.error e, t) => s.copyStop t n c u e

/-- Perform unit u of the command in progress. -/
def State.copyUnit (s : State) (n : Nat) (c : Cmd) (u : Nat) : State :=
  match runCopy (cSource n c u) s with
  | (.ok bytes, t) => t.copyPut n c u bytes
  | (.error e, t) => t.copyStop t n c u e

/-- The checks of a command before a byte moves (R243, R246 to R250): the layout record of a STRIDED command. -/
def cStart (c : Cmd) : CopyM Nat := do
  let s ← get
  let bad : CopyM Nat := throw (.fail cReserved)
  if c.unused then bad
  else if c.kind == 4 && c.word 6 == 0 then bad
  else if c.kind != 2 && c.len == 0 then pure 0
  else if (c.kind == 3 || c.kind == 5) && 4 < bits (c.word 6) 0 3 then bad
  else if !((List.range 4).all fun i => opClean (c.opd ([2, 4, 8, 10].getD i 0)) || i == 0 && c.kind == 7) then bad
  else if c.byElem && !opLocal (c.opd 8) || c.kind == 2 && !opLocal (c.opd 10) then bad
  else if c.kind == 6 && (!opLocal (c.opd 4) || opBx (c.opd 4) != 0 ||
      2 ^ (s.gang (s.wblk c.warp).gang).blocks.length ≤ c.word 6) then bad
  else if c.kind == 2 then
    let x := natOf (← cReadLocal c 0 (c.opd 10) 0 96)
    if lyOk x then pure x else bad
  else pure 0

/-- The channel begins the command at its head. -/
def State.copyStart (s : State) (n : Nat) (c : Cmd) : State :=
  let begin_ (t : State) (x : Nat) : State :=
    t.modCmd n fun k => { k with started := true, layout := x, wptr0 := (t.chan n).wptr.toNat }
  match runCopy (cStart c) s with
  | (.ok x, t) => begin_ t x
  | (.error (.fail code why), t) => (begin_ t 0).copyFail n 0 code why
  | (.error (.absent ctx va), t) => t.request ctx (va / 4096 * 4096) false
  | (.error _, t) => t

/-- The channel may work: its block and, for the receivers of a MULTICAST, its gang are resident (R340). -/
def State.chanRuns (s : State) (c : Cmd) : Bool :=
  let g := s.gang (s.wblk c.warp).gang
  !s.stopped (s.wctx c.warp) && g.st != .saved && g.blocks.all fun b => (s.blk b).st != .saved

/-- The channel goes on with what is left of the writes of its units (R5, R327). -/
def State.copyRest (s : State) (n : Nat) (c : Cmd) : State :=
  match s.putSectors n c c.rest with
  | (l, t) =>
    ((c.rest.map (·.unit)).eraseDups).foldl (fun v u => v.written n u) (t.modCmd n fun k => { k with rest := l })

/-- COPY_BEAT_DELIVERY (R74, R246): the channel begins its command, goes on with what is left of a write, or performs the next
unit, unless its fault list is full (R327). -/
def execCopyBeatDelivery (chan : Nat) (s : State) : Out :=
  match (s.chan chan).queue with
  | [] => .next s
  | c :: _ =>
    if !s.chanRuns c then .next s
    else if !c.started then .next (s.copyStart chan c)
    else if !c.rest.isEmpty then .next (s.copyRest chan c)
    else if c.fail.isSome || !s.listRoom chan then .next s
    else
      match s.nextUnit chan c with
      | none => .next s
      | some u => .next (s.copyUnit chan c u)

/-! ### Completion (R75, R251) -/

/-- What a completed command's bytes and reads give to the next wait on its flag (R88). -/
def Cmd.clock (c : Cmd) : Tab Nat := vcJoin c.vc [(c.party, c.units + 1)]

/-- The queued commands are cancelled: their flags are released (R75). -/
def State.cancelAll (s : State) (n : Nat) : List Cmd → State
  | [] => s
  | c :: r =>
    ((s.modWarp c.warp fun w => w.flagDown c.flag c.vc).modChan n fun h => { h with seq := h.seq + 1, canc := true }).cancelAll
      n r

/-- The fault of a command with `TRAP`, pending on its flag (R75, R135). -/
def State.copyTrap (s : State) (c : Cmd) (code : BitVec 8) (elem : Nat) : State :=
  let fr : FaultRec :=
    { code := code, fpc := c.pc, info := .ofNat 32 elem, addr := c.why.1, otag := c.why.2.1, seq := c.why.2.2 }
  s.modWarp c.warp fun w => { w with faults := w.faults ++ [{ flags := [c.flag], acc := c.party / 2, fr := fr }] }

/-- COPY_COMMAND_COMPLETION (R75): with no request outstanding, the command completes or ends in its failure. -/
def execCopyCommandCompletion (chan : Nat) (s : State) : Out :=
  match (s.chan chan).queue with
  | [] => .next s
  | c :: r =>
    if !c.started || !c.peers.isEmpty || !c.rest.isEmpty || !(s.parkedUnits chan).isEmpty || !s.chanRuns c then .next s
    else
      match c.fail with
      | some (code, elem) =>
        let s1 := s.modChan chan fun h => { h with queue := [], seq := h.seq + 1 }
        let s2 := if c.trap then s1.copyTrap c code elem else s1
        .next ((s2.modWarp c.warp fun w => w.flagDown c.flag c.clock).cancelAll chan r)
      | none =>
        if c.done < c.units then .next s
        else
          let s1 := s.modChan chan fun h =>
            { h with
              queue := r, seq := h.seq + 1, wptr := .ofNat 64 (c.wptr0 + c.destLen)
              vcDone := vcJoin (vcJoin h.vcDone c.vc) [(c.party, c.units)] }
          .next (s1.modWarp c.warp fun w => w.flagDown c.flag c.clock)

/-! ### Peers (R355, R358) -/

/-- A request is the one an answer names: the element and the address. -/
def PeerReq.named (elem va : Nat) (p : PeerReq) : Bool := p.unit == elem && p.va == va

/-- The command in progress on a channel, when it is the named operation and waits for the named request; and the request. -/
def State.peerAsked (s : State) (chan op elem va : Nat) : Option (Cmd × PeerReq) :=
  match (s.chan chan).queue with
  | [] => none
  | c :: _ => if c.party / 2 == op then (c.peers.find? (PeerReq.named elem va)).map fun p => (c, p) else none

/-- A request has been answered, or its time is over. -/
def State.peerEnd (s : State) (chan : Nat) (p : PeerReq) : State :=
  s.modCmd chan fun c => { c with peers := c.peers.erase p }

/-- A response that comes after its request's expiry is discarded and recorded in the error log of the initiator's context
(R358). -/
def State.latePeer (s : State) (op elem va : Nat) : State :=
  match s.peerLate.find? fun (o, p) => o == op && p.named elem va with
  | none => s
  | some (o, p) =>
    ({ s with peerLate := s.peerLate.erase (o, p) } : State).ctxLog
      { kind := 0x06, info := elem, ctx := p.ctx, vf := s.ctxVf p.ctx, slice := s.ctxSlice p.ctx, addr := p.va }

/-- The bytes that a peer answers a read with. -/
def PeerReq.take (p : PeerReq) (bytes : List Byte) : List (Nat × Nat × Byte) :=
  (List.range p.len).map fun i => (p.unit, p.va + i, bytes.getD i 0)

/-- PEER_RESPONSE (R355, R357, R358): the element fails, is written, or goes on with the bytes it asked for, at once unless the
fault list is full (R327). -/
def execPeerResponse (chan : Nat) (elem : PeerKey) (answer : PeerAnswer) (s : State) : Out :=
  match s.peerAsked chan elem.op elem.elem elem.va with
  | none => .next (s.latePeer elem.op elem.elem elem.va)
  | some (c, p) =>
    let t := s.peerEnd chan p
    match answer with
    | .remoteFault => .next (t.copyFail chan elem.elem 0x14 (.ofNat 48 elem.va, 0, 0))
    | .written => .next (if p.write then t.written chan elem.elem else t.copyFail chan elem.elem 0x14 (.ofNat 48 elem.va, 0, 0))
    | .data bytes =>
      if p.write then .next (t.written chan elem.elem)
      else
        let c' : Cmd := { c with peers := c.peers.erase p, got := c.got ++ p.take bytes }
        let t1 := t.modCmd chan fun k => { k with got := k.got ++ p.take bytes }
        .next (if s.listRoom chan then t1.copyUnit chan c' elem.elem else t1)

/-- PEER_TIMEOUT (R358): the element fails, and the response will come too late; a request whose command is gone only ends. -/
def execPeerTimeout (chan : Nat) (elem : PeerKey) (s : State) : Out :=
  match s.peerAsked chan elem.op elem.elem elem.va with
  | none =>
    .next { s with peerLate := s.peerLate.map fun (o, p) =>
      (o, if o == elem.op && p.named elem.elem elem.va then { p with expired := true } else p) }
  | some (_, p) =>
    let t : State := { s.peerEnd chan p with peerLate := s.peerLate ++ [(elem.op, { p with expired := true })] }
    .next (t.copyFail chan elem.elem 0x15 (.ofNat 48 elem.va, 0, 0))

/-! ### `PUSH` (R71, R241, R242) -/

/-- A queue that `PUSH` names (R71). -/
inductive Queue where
  | chan (n : Nat)
  | launch | jointer | sander | hostnote
  deriving DecidableEq, Repr

/-- The queue of an identifier, when the block may name it (R17, R71). -/
def State.queueOf (s : State) (w q : Nat) : Option Queue :=
  if 0x100 ≤ q ∧ q < 0x110 then (s.wblk w).chans[q - 0x100]?.map .chan
  else if q = 0x200 then some .launch
  else if q = 0x300 then some .jointer
  else if q = 0x301 then some .sander
  else if q = 0x400 then some .hostnote
  else none

/-- Word 0 is as the queue requires (R72, R241, R253 to R255); of a Jointer command it is checked when it is performed
(R125). -/
def Queue.word0Ok (q : Queue) (x : Nat) : Bool :=
  match q with
  | .chan _ => copyWord0 x
  | .launch | .sander => x == 1
  | .jointer => true
  | .hostnote => bits x 16 16 == 0

/-- The fault of a `PUSH` (R241). -/
def State.pushFault (s : State) (x : Ix) (q : Option Queue) (x0 : Nat) : Option (BitVec 8) :=
  match q with
  | none => some 0x23
  | some k =>
    if (k == .jointer || k == .sander) && !(s.wgrid x.w).priv then some cPrivileged
    else if k == .launch && 9 ≤ (s.wgrid x.w).depth then some 0x22
    else if !k.word0Ok x0 then some cReserved
    else none

/-- A queue has room for a command of the warp (R242). -/
def State.queueRoom (s : State) (w : Nat) : Queue → Bool
  | .chan n => (s.chan n).queue.length < 8
  | .launch => (s.launchQ.filter fun r => r.ctx == s.wctx w && r.child.isSome).length < 64
  | .jointer => s.jointerQ.length < 8
  | .sander => s.sanderQ.length < 8
  | .hostnote => (s.cluster (s.wcluster w)).notes.length < 8

/-- A `PUSH` that synchronises (R78), and whether it releases (R95). -/
def pushSync (q : Queue) (x0 : Nat) : Bool :=
  match q with
  | .chan _ => bits x0 8 2 != 0
  | .launch => true
  | _ => false

/-- It waits for parked stores. -/
def pushRel (q : Queue) (x0 : Nat) : Bool :=
  match q with
  | .chan _ => bits x0 9 1 == 1
  | .launch => true
  | _ => false

/-- The bounded registers a copy command names, recorded (R73). -/
def recordRegs (w : Warp) (words : List Word) : Tab Bounded :=
  let c : Cmd := { words := words }
  [2, 4, 8, 10].foldl (fun t i => if opLocal (c.opd i) then tset t (opBx (c.opd i)) (w.rb (opBx (c.opd i))) else t) []

/-- Put an accepted command into its queue, with the number and clock of its operation. -/
def State.enqueue (s : State) (x : Ix) (q : Queue) (words : List Word) (flag n rsn : Nat) (v : Tab Nat) : State :=
  let e : EngineCmd := { words := words, warp := x.w, flag := flag, ctx := s.wctx x.w, pc := x.cp }
  let g := s.wgrid x.w
  match q with
  | .chan k =>
    let c : Cmd :=
      { words := words, regs := recordRegs (s.warp x.w) words, warp := x.w, flag := flag, pc := x.cp, party := partyOfOp n
        rsn := .ofNat 32 rsn, vc := v }
    s.modChan k fun h => { h with queue := h.queue ++ [c] }
  | .launch =>
    let bad := (List.range 16).any fun i => (i == 1 || 6 ≤ i) && e.word i != 0
    let bad := bad || 2 ^ 16 ≤ e.word 3 || 2 ^ 16 ≤ e.word 5
    { s with launchQ := s.launchQ ++ [{
        ctx := e.ctx, recVa := e.word 2 + e.word 3 * 2 ^ 32, param := e.word 4 + e.word 5 * 2 ^ 32, depth := g.depth + 1
        priv := g.priv, child := some (x.w, flag), pc := x.cp, bad := bad, vc := v }] }
  | .jointer => { s with jointerQ := s.jointerQ ++ [e] }
  | .sander => { s with sanderQ := s.sanderQ ++ [e] }
  | .hostnote => s.modCluster (s.wcluster x.w) fun c =>
      { c with notes := c.notes ++ [{ words := words, warp := x.w, flag := flag, fn := s.ctxVf e.ctx }] }

/-- A `PUSH` that synchronises closes the region (R78). -/
def State.pushEnd (s : State) (x : Ix) (q : Queue) (x0 : Nat) : State := if pushSync q x0 then s.boundary x else s

/-- `PUSH` (R71, R241). -/
def execPush (c : Common) (f : FS) (s : State) : Out :=
  s.issue false (.push c f) fun x t =>
    let w := t.warp x.w
    let words := (List.range 16).map fun i => w.word f.a i x.first
    let x0 := (words.headD 0).toNat
    let q := t.queueOf x.w f.imm.toNat
    let flag := t.fsFlag x c
    match if x.lanes.isEmpty then none else t.pushFault x q x0 with
    | some code => .raise t (precise code x.cp x.first)
    | none =>
      let k := q.getD .hostnote
      match if pushRel k x0 then t.releaseCheck x else none with
      | some r => r
      | none =>
        if x.lanes.isEmpty then .adv (t.pushEnd x k x0)
        else if !t.queueRoom x.w k then .adv ((t.writeP x true f.pd fun _ => true).pushEnd x k x0)
        else if t.flagFull x.w flag then .keep t
        else
          match t.takeOp x.w with
          | (n, v, t1) =>
            let t2 := (t1.modWarp x.w fun y => y.flagUp flag).enqueue x k words flag n w.rsn.toNat v
            .adv (((t2.writeP x true f.pd fun _ => false).pushEnd x k x0).restart x x.ent)

/-! ### Status and write pointers (R238, R252) -/

/-- The channel of the device that a physical number names, when the block holds it. -/
def State.chanHeld (s : State) (w : Nat) (c : Int) : Option Nat :=
  let n := Config.chansPerCluster * s.wcluster w + c.toNat
  if 0 ≤ c && c < Config.chansPerCluster && (s.wblk w).chans.contains n then some n else none

/-- The 128-bit status record (R251). -/
def Chan.status (h : Chan) : Nat :=
  h.code.toNat + (if h.canc then 2 ^ 8 else 0) + h.queue.length * 2 ^ 12 + h.elem.toNat * 2 ^ 32 +
    h.fseq.toNat * 2 ^ 64 + h.seq.toNat * 2 ^ 96

/-- `CPST` (R252).  The channel index is `A` as an unsigned number plus the signed immediate, exactly (log entry 86). -/
def execCpst (c : Common) (f : FS) (s : State) : Out :=
  s.issue false (.cpst c f) fun x t =>
    if x.lanes.isEmpty then .adv t
    else
      match t.chanHeld x.w (((t.warp x.w).word f.a 0 x.first).toNat + f.imm.toInt) with
      | none => .raise t (precise 0x23 x.cp x.first)
      | some n =>
        let t1 := t.writeD x true f.d 4 fun _ => (t.chan n).status
        .adv (if modBit f.mod 0 then
          t1.modChan n fun h => { h with code := 0, canc := false, elem := 0, fseq := 0 } else t1)

/-- `WPRD` (R238).  The channel index is `IDX` as an unsigned number plus the signed `OFF`, exactly (log entry 86). -/
def execWprd (c : Common) (f : FM) (s : State) : Out :=
  s.issue false (.wprd c f) fun x t =>
    if x.lanes.isEmpty then .adv t
    else
      match t.chanHeld x.w (((t.warp x.w).word f.idx 0 x.first).toNat + f.off.toInt) with
      | none => .raise t (precise 0x23 x.cp x.first)
      | some n => .adv (t.writeD x true f.r 2 fun _ => (t.chan n).wptr.toNat)

/-- A `WPWAIT` ends with a result: it acquires what the channel has delivered, and closes the region (R78, R88, R238). -/
def State.wpEnd (s : State) (x : Ix) (f : FM) (v : Tab Nat) (ok : Bool) : State :=
  ((s.modWarp x.w fun w => { w.acquire v with wpWait := none }).writeP x true f.pd fun _ => ok).boundary x

/-- The channel was released since the `WPWAIT` at this code pointer began to wait (R238). -/
def Warp.wpReleased (w : Warp) (cp : Word) : Bool :=
  match w.wpWait with
  | some (c, _, r) => c == cp && r
  | none => false

/-- `WPWAIT` (R238): the pointer has reached the target, or the channel is idle below it, or it waits. -/
def execWpwait (c : Common) (f : FM) (s : State) : Out :=
  s.issue false (.wpwait c f) fun x t =>
    let w := t.warp x.w
    let c := t.chanHeld x.w ((w.word f.idx 0 x.first).toNat + f.off.toInt)
    if x.lanes.isEmpty then .adv ((c.elim t fun n => t.modWarp x.w fun y => y.acquire (t.chan n).vcDone).boundary x)
    else if w.wpReleased x.cp then .adv (t.wpEnd x f [] false)
    else
      match c with
      | none => .raise t (precise 0x23 x.cp x.first)
      | some n =>
        let h := t.chan n
        if w.opd f.r 2 x.first ≤ h.wptr.toNat then .adv (t.wpEnd x f h.vcDone true)
        else if h.queue.isEmpty then .adv (t.wpEnd x f h.vcDone false)
        else .keep (t.modWarp x.w fun y => { y with wpWait := some (x.cp, n, false) })

end Sys2Proof.Machine
end

