-- ==== Sys2Proof/Machine/Jointer.lean ====
section
/-! DEFINITION. Relocation cycles and the Jointer: `HFLIP`, the copying of objects, the heal sweep and FREE commands (R117 to
R125, R274). -/

namespace Sys2Proof.Machine

/-- Write bytes at once; a fault blocks. -/
def hWriteBytes (p : Port) (va : Nat) (l : List Byte) : HeapM Unit := do
  let a ← hPhys p va l.length true
  modify fun s => s.putFor p.ctx (a.zip l)

/-! ### The objects of a page -/

/-- The headers of a page, by page offset, as a reader finds them from an offset on: where there is no object a header reads
`SIZE` 0, and the walk goes on at the next 16-byte boundary (R117; log entry 30). -/
def hWalk (rd : Nat → HeapM (Option Nat)) (va last off : Nat) : Nat → HeapM (List (Nat × Nat))
  | 0 => pure []
  | k + 1 => do
    if last ≤ off then pure []
    else
      match ← rd (va + off) with
      | none => pure []
      | some h =>
        if hdrSize h == 0 then hWalk rd va last (off + 16) k
        else pure ((off, h) :: (← hWalk rd va last (off + hdrSize h) k))

/-- The objects of a page: page offset and header. -/
def hObjs (p : Port) (g : Region) (page : Nat) : HeapM (List (Nat × Nat)) := do
  hWalk (fun a => do pure (some (← hRead p a 8))) (g.pageVa page) ((← get).pageEnd p.ctx g.num page) 0 (poolPage / 16)

/-- The physical place of a pool page's byte at an offset, as the table stands. -/
def State.poolPhys (s : State) (c : Nat) (g : Region) (page off : Nat) : Option Nat :=
  (s.walk c (g.pageVa page + off) false).map fun (pa, n, _) => pa + (g.pageVa page + off) % n

/-- Some of the written physical bytes lie in a pool page behind an offset. -/
def State.wroteBehind (s : State) (l : List Nat) (c : Nat) (g : Region) (page off : Nat) : Bool :=
  (List.range (poolPage / 4096)).any fun k =>
    off < 4096 * k + 4096 &&
      (match s.poolPhys c g page (4096 * k) with
       | some pa => l.any fun a => pa ≤ a && a < pa + 4096 && off ≤ 4096 * k + (a - pa)
       | none => false)

/-- The driver has written physical bytes behind the last object that the device placed in a pool page: it has laid the page out
anew, and its objects reach to the page's end (R309; log entry 30). -/
def State.relaid (s : State) (l : List Nat) : State :=
  { s with pageEnds := s.pageEnds.filter fun (c, r, page, off) =>
      match (runHeap (hRegion (jointerPort c) r) s).1 with
      | .ok g => !s.wroteBehind l c g page off
      | .error _ => true }

/-- The pages in use at which objects start, from page q on: the pages of a `LARGE` object after its first are passed
over. -/
def hHeads (p : Port) (g : Region) (map q : Nat) : Nat → HeapM (List Nat)
  | 0 => pure []
  | k + 1 => do
    if g.pages ≤ q then pure []
    else if bits map q 1 == 1 then hHeads p g map (q + 1) k
    else
      let h ← hRead p (g.pageVa q) 8
      let next := if hdrLarge h then (hdrSize h + poolPage - 1) / poolPage else 1
      pure (q :: (← hHeads p g map (q + max next 1) k))

/-! ### `HFLIP.MARK` (R117, R274) -/

/-- Bytes of the page directory (R119). -/
def Region.dirLen (g : Region) : Nat := (8 * g.pages + 4095) / 4096 * 4096

/-- Bytes of the table of n entries (R119). -/
def tableLen (n : Nat) : Nat := (4096 + 16 * n + 4095) / 4096 * 4096

/-- How many listed offsets lie below bucket b (R119). -/
def bucketOf (objs : List (Nat × Nat)) (b : Nat) : Nat := (objs.filter fun (o, _) => o / 16 < 256 * b).length

/-- The forwarding table of a page (R118, R119). -/
def tableBytes (page : Nat) (objs : List (Nat × Nat)) : List Byte :=
  bytesOf 8 page ++ bytesOf 8 objs.length ++ ((List.range 512).flatMap fun b => bytesOf 4 (bucketOf objs b)) ++
    List.replicate 2032 0 ++
    objs.flatMap fun (o, h) => bytesOf 8 (if hdrDead h then 3 else 0) ++ bytesOf 8 (o / 16)

/-- A page that a `MARK` arms: its index, its entry count and the offset of its table. -/
structure Armed where
  page : Nat
  count : Nat
  toff : Nat
  deriving DecidableEq, Repr

/-- One list entry: the page it arms, if it arms one, with its table written (R117, R274). -/
def hMarkOne (p : Port) (g : Region) (map : Nat) (heads seen : List Nat) (e next : Nat) : HeapM (Option Armed) := do
  let page := bits e 0 16
  if bits e 16 47 != 0 || g.pages ≤ page || seen.contains page || bits map page 1 == 1 || !heads.contains page then
    pure none
  else if dirPins (← hRead p (g.dirVa page) 8) != 0 then pure none
  else
    let objs ← hObjs p g page
    if objs.any fun (_, h) => hdrLarge h then pure none
    else if g.fwdLen * 65536 < next + tableLen objs.length then pure none
    else
      hWriteBytes p (g.fwd + next) (tableBytes page objs)
      pure (some { page := page, count := objs.length, toff := next })

/-- The list entries in turn; bit 63 is set in each whose page is not armed. -/
def hMarkList (p : Port) (g : Region) (map : Nat) (heads : List Nat) (va : Nat) :
    Nat → List Nat → Nat → HeapM (List Armed)
  | 0, _, _ => pure []
  | k + 1, seen, next => do
    let e ← hRead p va 8
    match ← hMarkOne p g map heads seen e next with
    | none =>
      hWrite p va 8 (setBits e 63 1 1)
      hMarkList p g map heads (va + 8) k (bits e 0 16 :: seen) next
    | some a =>
      pure (a :: (← hMarkList p g map heads (va + 8) k (a.page :: seen) (next + tableLen a.count)))

/-- A reference recolored to the epoch, when it has the color before it and lies in the pool (R117 step 1). -/
def Region.recolor (g : Region) (x : DWord) : DWord :=
  let n := x.toNat
  if bits n 3 1 == 1 && g.inPool (refAddr n) && (bits n 0 2 + 1) % 4 == g.epoch then .ofNat 64 (setBits n 0 2 g.epoch)
  else x

/-- Heal the `h` registers of every warp, resident or saved, of the region's grids (R117 step 1), and the references that an `HNEW`
under way is to give them (log entry 85). -/
def State.healRegs (s : State) (c : Nat) (g : Region) : State :=
  { s with warps := s.warps.map fun (n, w) =>
      let k := s.grid (s.blk w.block).grid
      if k.ctx == c && k.heapen && k.heap == g.num && !w.retired then
        (n, { w with
          h := w.h.map fun (i, x) => (i, g.recolor x)
          newAt := w.newAt.map fun y => { y with refs := y.refs.map fun (l, x) => (l, g.recolor x) } }) else (n, w) }

/-- The steps of a `MARK` (R117): everything takes effect together, or, while a page is absent, nothing. -/
def hMark (p : Port) (g : Region) (va n : Nat) : HeapM Unit := atomically do
  modify fun s => s.healRegs p.ctx g
  let map ← hFreeMap p g
  let heads ← hHeads p g map 0 g.pages
  let armed ← hMarkList p g map heads va n [] g.dirLen
  armed.forM fun a => do
    let d ← hRead p (g.dirVa a.page) 8
    hWrite p (g.dirVa a.page) 8 (setBits (setBits d 8 1 1) 12 20 (a.toff / 4096))
  let b ← hRead p (g.desc + 10) 1
  hWrite p (g.desc + 10) 1 (setBits (setBits b 0 2 (g.epoch + 1)) 2 1 1)
  modify fun s =>
    { s with
      cores := s.cores.map fun (n, k) => (n, { k with alloc := k.alloc.filter fun (c, r, q, _) =>
        !(c == p.ctx && r == g.num && armed.any fun a => a.page == q) })
      cycles := s.cycles ++ [{ ctx := p.ctx, region := g.num, pages := armed.map fun a => (a.page, a.count) }] }

/-- `HFLIP.MARK` (R117, R274).  Bits [31:16] of `sA+2`, which no rule names, are ignored (log entry 51). -/
def execHflipMark (c : Common) (f : FH) (s : State) : Out :=
  s.issue false (.hflipMark c f) fun x t =>
    let w := t.warp x.w
    let a := w.word f.v 0 x.first
    let va := (w.word f.v 1 x.first).toNat + (w.word f.v 2 x.first).toNat % 2 ^ 16 * 2 ^ 32
    let n := (w.word f.v 3 x.first).toNat
    if x.lanes.isEmpty then .adv t
    else if 16 ≤ a.toNat || n < 1 || 1024 < n || (t.heapDesc (t.wctx x.w) a.toNat).isNone then
      .raise t (precise cReserved x.cp x.first)
    else
      t.heapDo (.hflipMark c f) x do
        let p := t.heapPort x.w
        let g ← hRegion p a.toNat
        if !g.cycle then hMark p g va n
        modify fun u => (u.writeP x true f.pd fun _ => !g.cycle).restart x x.ent

/-! ### `HFLIP.CONF` (R120, R274) -/

/-- An address lies in a page that the cycle has armed. -/
def Region.armed (g : Region) (c : Cycle) (a : Nat) : Bool := g.inPool a && c.pages.any fun q => q.1 == g.pageOf a

/-- The commands of the channels, those of saved blocks among them. -/
def State.copyCmds (s : State) : List Cmd :=
  s.chans.flatMap (fun (_, h) => h.queue) ++
    s.blocks.flatMap fun (_, b) => ((b.img.map (·.chans)).getD []).flatMap (·.queue)

/-- A heap access that passed the barrier before `CONF` still targets an armed page of the cycle (R120): a heap write set aside, or
a healing write-back; an element of a GATHER-REF; or what an `HNEW` has still to write. -/
def State.armedParked (s : State) (g : Region) (c : Cycle) : Bool :=
  (s.parked.any fun p => p.ctx == c.ctx &&
    (match p.kind with
     | .write va bytes .heap | .write va bytes (.heal _) => bytes.any fun (i, _) => g.armed c (va + i)
     | _ => false)) ||
    (s.copyCmds.any fun k => s.wctx k.warp == c.ctx && k.passed.any fun (_, a) => g.armed c a) ||
    s.warps.any fun (w, y) => s.wctx w == c.ctx && !y.retired &&
      y.newAt.any fun o => o.refs.any fun (_, x) => g.armed c (refAddr x.toNat)

/-- The cycle of a region. -/
def State.cycleOf (s : State) (c r : Nat) : Option Cycle := s.cycles.find? fun y => y.ctx == c && y.region == r

/-- Change the cycle of a region. -/
def State.modCycle (s : State) (c r : Nat) (f : Cycle → Cycle) : State :=
  { s with cycles := s.cycles.map fun y => if y.ctx == c && y.region == r then f y else y }

/-- `HFLIP.CONF` (R120, R274). -/
def execHflipConf (c : Common) (f : FH) (s : State) : Out :=
  s.issue false (.hflipConf c f) fun x t =>
    let a := ((t.warp x.w).word f.v 0 x.first).toNat
    if x.lanes.isEmpty then .adv t
    else if 16 ≤ a then .raise t (precise cReserved x.cp x.first)
    else
      match t.cycleOf (t.wctx x.w) a with
      | none => .adv (t.restart x x.ent)
      | some y =>
        t.heapDo (.hflipConf c f) x do
          let g ← hRegion (t.heapPort x.w) a
          if (← get).armedParked g y then throw .stall
          else modify fun u => (u.modCycle y.ctx a fun k => { k with conf := true }).restart x x.ent

/-! ### The Jointer's copies (R120, R121) -/

/-- The forwarding entries of a cycle's tables, in list order and ascending page offset. -/
def hEntries (p : Port) (g : Region) (c : Cycle) : HeapM (List (Nat × Nat)) := do
  let l ← c.pages.mapM fun (q, n) => do
    let d ← hRead p (g.dirVa q) 8
    pure ((List.range n).map fun i => (q, g.fwd + dirToff d + 4096 + 16 * i))
  pure l.flatten

/-- The first listed entry in a given state, with its page. -/
def hFirst (p : Port) (st : Nat → Bool) : List (Nat × Nat) → HeapM (Option (Nat × Nat))
  | [] => pure none
  | (q, e) :: r => do if st (fwdState (← hRead p e 8)) then pure (some (q, e)) else hFirst p st r

/-- Where a copy of n bytes goes: the destination page being filled, or the lowest free page (R121). -/
def hDest (p : Port) (g : Region) (c : Cycle) (n : Nat) : HeapM (Option (Nat × Nat)) := do
  match c.dest with
  | some (q, o) => if o + n ≤ poolPage then pure (some (q, o)) else fresh
  | none => fresh
where
  /-- a new destination page -/
  fresh : HeapM (Option (Nat × Nat)) := do pure ((← hTakePages p g 1).map fun q => (q, 0))

/-- The poison marks of bytes copied from one place to another (R127): every unit that takes in a byte of a poisoned unit is
poisoned (log entry 51). -/
def State.copyPoison (s : State) (src dst : List Nat) : State :=
  let marks := ((src.zip dst).filterMap fun (a, b) => if s.poisoned a then some (b / 64) else none).eraseDups
  { s with poisonMem := s.poisonMem ++ marks.filter fun u => !s.poisonMem.contains u }

/-- The releases that the words of a copied object carry go with it (R122). -/
def State.copyRel (s : State) (src dst : List Nat) : State :=
  { s with relMem := (src.zip dst).foldl (fun t (a, b) =>
      if b % 4 = 0 then tput [] t (b / 4) (tget [] s.relMem (a / 4)) else t) s.relMem }

/-- Copy one object and set its entry DONE (R120, R121); false when no page is free. -/
def hCopy (p : Port) (g : Region) (c : Cycle) (page e : Nat) : HeapM Bool := do
  let off := bits (← hRead p (e + 8) 8) 0 17 * 16
  let src := g.pageVa page + off
  let n := hdrSize (← hRead p src 8)
  match ← hDest p g c n with
  | none => pure false
  | some (q, o) =>
    let a ← hPhys p src n false
    let b ← hPhys p (g.pageVa q + o) n true
    modify fun s =>
      (((((s.putFor p.ctx (b.zip (a.map (s.memByte p.ctx)))).copyPoison a b).copyRel a b).putPageEnd c.ctx c.region q
        (o + n)).modCycle c.ctx c.region fun k =>
        { k with dest := some (q, o + n), claims := k.claims.filter (· != e), stopped := false })
    hWrite p e 8 (setBits (setBits (← hRead p e 8) 4 44 ((g.pageVa q + o) / 16)) 0 2 2)
    pure true

/-- What the Jointer does next: the entry it copies is one claimed on demand, else the first EMPTY one (R121). -/
def hJoint (p : Port) (c : Cycle) : HeapM (Option (Nat × Nat × Bool)) := do
  let g ← hRegion p c.region
  let entries ← hEntries p g c
  let claimed := c.claims.filterMap fun e => entries.find? fun x => x.2 == e
  match ← hFirst p (· ≤ 1) (claimed ++ entries) with
  | none => pure none
  | some (q, e) => pure (some (q, e, ← hCopy p g c q e))

/-- A page that the Jointer cannot reach is requested. -/
def State.jointerAsks (s : State) : HStop → State
  | .page c va wr => s.request c (va / 4096 * 4096) wr
  | .desc c va => s.request c (va / 4096 * 4096) false
  | _ => s

/-- JOINTER_OBJECT_COPY (R120, R121). -/
def execJointerObjectCopy (ctx region : Nat) (s : State) : Out :=
  match s.cycleOf ctx region with
  | none => .next s
  | some c =>
    if !c.conf then .next s
    else
      match runHeap (atomically (hJoint (jointerPort ctx) c)) s with
      | (.error e, t) => .next (t.jointerAsks e)
      | (.ok none, t) => .next t
      | (.ok (some (_, e, true)), t) => .next (t.entryDone ctx e)
      | (.ok (some (q, _, false)), t) =>
        if c.stopped then .next t
        else
          let r : LogRec :=
            { kind := 0x05, code := 0x38, ctx := ctx, vf := t.ctxVf ctx, slice := t.ctxSlice ctx, region := region
              addr := q }
          .next (((t.ctxLog r).signal 0 3).modCycle ctx region fun k => { k with stopped := true })

/-! ### The heal sweep (R120) -/

/-- Heal one reference field of a live object, exactly as `HLDR` does. -/
def hHealField (p : Port) (g : Region) (va : Nat) : HeapM Unit := do
  let v ← hRead p va 8
  if v == 0 then pure ()
  else
    match ← hBarrier p g v with
    | .healed x => if x != v then hWrite p va 8 x
    | _ => pure ()

/-- Heal the fields of the objects of one page. -/
def hHealPage (p : Port) (g : Region) (page : Nat) : HeapM Unit := do
  let objs ← hObjs p g page
  (objs.filter fun (_, h) => !hdrDead h).forM fun (o, h) => do
    match ← hType p g (hdrType h) with
    | none => pure ()
    | some ty =>
      if typeOk ty then
        ((List.range (hdrSize h / 8 - 2)).filter fun w => refWord ty w).forM fun w =>
          hHealField p g (g.pageVa page + o + 16 + 8 * w)

/-- The sweep of a cycle whose every entry is DONE or VOID: heal every field, free and disarm the pages, and clear `CYCLE`;
false while copies are outstanding. -/
def hSweep (p : Port) (c : Cycle) : HeapM Bool := do
  let g ← hRegion p c.region
  match ← hFirst p (· ≤ 1) (← hEntries p g c) with
  | some _ => pure false
  | none =>
    let map ← hFreeMap p g
    let heads ← hHeads p g map 0 g.pages
    (heads.filter fun q => !c.pages.any fun a => a.1 == q).forM fun q => hHealPage p g q
    c.pages.forM fun (q, _) => do
      hSetFree p g q true
      modify fun s => s.dropPageEnd p.ctx g.num q
      let d ← hRead p (g.dirVa q) 8
      hWrite p (g.dirVa q) 8 (bits d 0 8)
    hWrite p (g.desc + 10) 1 (setBits (← hRead p (g.desc + 10) 1) 2 1 0)
    pure true

/-- HEAL_SWEEP (R120). -/
def execHealSweep (ctx region : Nat) (s : State) : Out :=
  match s.cycleOf ctx region with
  | none => .next s
  | some c =>
    if !c.conf then .next s
    else
      match runHeap (atomically (hSweep (jointerPort ctx) c)) s with
      | (.error e, t) => .next (t.jointerAsks e)
      | (.ok false, t) => .next t
      | (.ok true, t) => .next { t with cycles := t.cycles.filter fun y => !(y.ctx == ctx && y.region == region) }

/-! ### FREE (R125) -/

/-- The error-log record of a Jointer or Sander command that fails (R125, R255, R377). -/
def EngineCmd.failRec (c : EngineCmd) (s : State) (code : BitVec 8) (addr : Nat) : LogRec :=
  { s.recOf c.warp 0x05 with code := code.toNat, pc := c.pc.toNat, ctx := c.ctx, addr := addr }

/-- An engine's command is done: its flag is released (R242). -/
def State.engineDone (s : State) (c : EngineCmd) : State := s.modWarp c.warp fun w => w.flagDown c.flag []

/-- A FREE command whose fields are as R125 requires. -/
def EngineCmd.freeOk (c : EngineCmd) : Bool :=
  c.word 0 == 0x10 && c.word 1 == 0 && (List.range 12).all fun i => c.word (4 + i) == 0

/-- What a FREE command does: the object its reference denotes, healed, becomes `DEAD`. -/
def hFree (p : Port) (r w x : Nat) : HeapM Unit := do
  let g ← hRegion p r
  let vals ← hBarriers p g w [{ lane := 0, reg := none, val := x }]
  let a := refAddr (vals.headD 0)
  hWrite p a 8 (setBits (← hRead p a 8) 48 1 1)

/-- JOINTER_FREE (R125; log entry 51 for the region a FREE is of): the head of Q_JOINTER is performed, fails, or waits for a relocation or a page. -/
def execJointerFree (s : State) : Out :=
  match s.jointerQ with
  | [] => .next s
  | c :: r =>
    let x := c.word 2 + c.word 3 * 2 ^ 32
    let t : State := { s with jointerQ := r }
    let fail (u : State) (code : BitVec 8) : State := (u.ctxLog (c.failRec u code (refAddr x))).engineDone c
    if !c.freeOk then .next (fail t cReserved)
    else if !(s.wgrid c.warp).heapen then .next (fail t cHeapTag)
    else
      match runHeap (hFree (jointerPort c.ctx) (s.wgrid c.warp).heap c.warp x) t with
      | (.ok _, u) => .next (u.engineDone c)
      | (.error (.fault code _ _), u) => .next (fail u code)
      | (.error e, u) => .next { u.jointerAsks e with jointerQ := c :: r }

end Sys2Proof.Machine
end

