-- ==== Sys2Proof/Machine/Launch.lean ====
section
/-! DEFINITION. Launch validation, the distributor and the cluster dispatchers, power gating, and the note and Sander queues
(R30, R32 to R41, R62, R64, R242, R253 to R255, R311 to R319, R378). -/

namespace Sys2Proof.Machine

/-! ### Validation (R311, R312, R378) -/

/-- What validation answers: it waits for a page that the word at `detail` names, refuses, or accepts. -/
inductive Verdict where
  | wait (page detail : Nat)
  | refuse (code : BitVec 8) (detail : Nat)
  | accept (g : Grid)

/-- The distributor reads virtual memory for a launch (R312, R320, R326): none beyond the address space. -/
def State.launchRead (s : State) (c va n detail : Nat) : Except Verdict Nat × State :=
  if 2 ^ 48 < va + n then (.error (.refuse 0x13 detail), s)
  else
    match s.vreadNat (s.launchUnit c) c va n with
    | (.error p, t) => (.error (.wait p detail), t)
    | (.ok x, t) => (.ok x, t)

/-- The codes of R184. -/
def faultCodes : List Nat :=
  [0x01, 0x02, 0x03, 0x04, 0x05, 0x06, 0x07, 0x10, 0x11, 0x12, 0x13, 0x14, 0x15, 0x16, 0x17, 0x18, 0x19, 0x20, 0x21, 0x22,
    0x23, 0x24, 0x25, 0x26, 0x30, 0x38, 0x39, 0x3A, 0x3B, 0x40, 0x41]

/-- The bits of a record that are reserved for software: (lowest bit, count) (R311). -/
def recordReserved : List (Nat × Nat) :=
  [(112, 16), (176, 16), (231, 1), (244, 8), (368, 1), (382, 2), (409, 7), (435, 13), (472, 8), (507, 5), (906, 6), (920, 40), (978, 1070)]

/-- The byte offset of the 4-byte word that holds a bit. -/
def wordOfBit (n : Nat) : Nat := n / 32 * 4

/-- The words of the reserved bits that are set, in a field of n bits from lo. -/
def setWords (x lo n : Nat) : List Nat := ((List.range n).filter fun i => bits x (lo + i) 1 == 1).map fun i => wordOfBit (lo + i)

/-- A format slot that R132 rejects. -/
def slotBad (x : Nat) : Bool :=
  let a := slotA x
  let b := slotB x
  let width (c : Nat) : Nat := if c ≤ 1 then 16 else if c == 4 || c == 6 then 4 else 8
  bits x 15 17 != 0 || 8 ≤ a || 9 ≤ b || b ≤ 7 && a ≤ 7 && width a != width b || slotScl x == 3 ||
    slotScl x == 1 && (width a == 16 || b == 8 || width b == 16) || 2 ≤ slotAcc x

/-- A heap region descriptor that R109 rejects. -/
def descBad (x : Nat) : Bool :=
  bits x 304 208 != 0 || bits x 83 45 != 0 || bits x 48 16 != 0 ||
    bits x 240 16 * 65536 < (8 * bits x 64 16 + 4095) / 4096 * 4096

/-- The failing words of order 2 (R312): `desc` is the region's descriptor when the context names one. -/
def reservedWords (g : Grid) (desc : Option Nat) : List Nat :=
  let x := g.lr.toNat
  let flag (b : Bool) (w : Nat) : List Nat := if b then [w] else []
  let d := g.bdim
  let n := g.gdim
  let static := g.warpsPer * g.warpReg
  let reg := g.f 493 10
  recordReserved.flatMap (fun (lo, k) => setWords x lo k) ++
  flag (g.cls == 3) 28 ++ flag (n.1 == 0) 32 ++ flag (n.2.1 == 0 || n.2.2 == 0) 36 ++ flag (d.1 == 0 || d.2.1 == 0) 40 ++
  flag (d.2.2 == 0) 44 ++ flag (1024 < g.threads) 40 ++ flag (2 ^ 32 ≤ g.nblocks) 32 ++
  flag (g.f 240 4 == 0 || g.f 236 4 < g.f 240 4 || 8 < g.f 236 4) 28 ++
  flag (256 < g.sv || 64 < g.sm) 48 ++ flag (16 < g.sh || 8 < g.f 405 4) 48 ++ flag (393216 < g.f 416 19) 52 ++
  flag (512 < reg || 16 < g.f 488 5 || 8 < g.f 503 4) 60 ++ flag (g.clines == 0 || 131072 < g.clines) 120 ++
  flag (g.spill % 4 != 0) 56 ++ flag (65536 < g.psize) 24 ++ flag (g.pptr % 16 != 0) 16 ++
  ((List.range 8).filter fun k => slotBad (g.slot k)).map (fun k => 64 + 4 * k) ++
  ((List.range 128).filter fun k => g.hvalid && g.hmask k && !faultCodes.contains k).map (fun k => wordOfBit (768 + k)) ++
  flag (!g.hvalid && g.f 768 128 != 0) 28 ++
  flag (g.heapen && (match desc with | none => true | some y => descBad y)) 28 ++
  flag (g.f 480 8 < g.f 464 8) 56 ++ flag (reg != 0 && reg < static) 48 ++ flag (g.f 503 4 < g.f 405 4) 48 ++
  flag (static < reg && 192 < g.sv) 48

/-- A code pointer of the record that does not name a slot of the module (R312 order 4). -/
def cpBad (g : Grid) (c : Word) : Bool := 4 < cpSlot c || g.clines ≤ cpLine c

/-- Scratch cap and channel share of a slice in a cluster (R44). -/
def State.shares (s : State) (sl : Nat) : Nat × Nat := (s.sliceF sl 128 8, s.sliceF sl 141 5)

/-- The starts of the runs of n units of a cluster that lie together in the Plinth, lowest first (R62). -/
def State.runs (s : State) (c n : Nat) : List Nat :=
  (List.range (s.unitCount c + 1 - n)).filter fun u =>
    (List.range n).all fun i => s.unitSlot c (u + i) == s.unitSlot c u + i

/-- The failing words of the gang test (R378): a gang of `GANGF` blocks. -/
def State.gangTest (s : State) (g : Grid) : List Nat :=
  let flag (b : Bool) (w : Nat) : List Nat := if b then [w] else []
  let n := g.f 240 4
  let claim := g.maxClaim
  let static := g.static
  let (scr, chn) := if (s.liveClusters g.slice).isEmpty then (0, 0) else s.shares g.slice
  flag ((s.liveClusters g.slice).isEmpty || Config.coresPerCluster < n) 28 ++
  flag (Config.granules < static.getD 2 0) 48 ++ flag (Config.granules < claim.getD 2 0) 60 ++
  flag (s.dev.spillm * 16 * 2 ^ 20 < n * g.warpsPer * 32 * g.spill) 56 ++
  flag (scr < n * static.getD 0 0 || (s.liveClusters g.slice).all fun c => (s.runs c (n * static.getD 0 0)).isEmpty) 56 ++
  flag (scr < n * claim.getD 0 0 || chn < n * claim.getD 1 0 || Config.tilesPerCore < claim.getD 3 0) 60

/-! ### Room and placement (R34, R41, R46, R62, R64, R318) -/

/-- The blocks that count against a core. -/
def State.onCore (s : State) (core : Nat) : List Block :=
  (s.blocks.filter fun (_, b) => b.core == core && (b.st == .admitted || b.st == .resident)).map (·.2)

/-- A core is quarantined (R367). -/
def State.coreQuar (s : State) (core : Nat) : Bool := s.scrubs.any fun k => k.cores.contains (s.physCore core)

/-- The lowest place of n units, a multiple of `al`, in [lo, hi) clear of the used ranges, given by start and length. -/
def fitAt (used : List (Nat × Nat)) (lo hi n al : Nat) : Option Nat :=
  let starts := (lo :: used.map fun (a, k) => (a + k + al - 1) / al * al).filter fun a => lo ≤ a && a + n ≤ hi
  (starts.filter fun a => used.all fun (b, k) => a + n ≤ b || b + k ≤ a).min?

/-- The place of a new block's shared memory on a core (log entry 15). -/
def State.sharedFit (s : State) (core : Nat) (g : Grid) : Option Nat :=
  fitAt ((s.onCore core).map fun b => (b.shBase, (s.grid b.grid).f 416 19)) 0 Config.sharedBytes (g.f 416 19) 64

/-- Plinth offset at which the spill area begins (log entry 11). -/
def State.spillLo (s : State) : Nat := 12 * s.dev.scru * 2 ^ 20
/-- Plinth offset at which it ends, and the parameter blocks begin. -/
def State.spillHi (s : State) : Nat := s.spillLo + s.dev.spillm * 16 * 2 ^ 20

/-- Quarantined ranges of a chiplet's Plinth, by offset (R367). -/
def State.quarSpans (s : State) (chip : Nat) : List (Nat × Nat) :=
  (s.scrubs.flatMap (·.spans)).filterMap fun (k, n) => if k / 2 ^ 31 == chip then some (k % 2 ^ 31, n) else none

/-- Spill carves in use on a chiplet. -/
def State.carves (s : State) (chip : Nat) : List (Nat × Nat) :=
  s.warps.filterMap fun (_, w) =>
    let b := s.blk w.block
    if s.chipOf (clusterOf b.core) == chip && (b.st == .admitted || b.st == .resident) && (s.grid b.grid).spill != 0 then
      some (w.spillBase, 32 * (s.grid b.grid).spill)
    else none

/-- Parameter blocks in use on a chiplet. -/
def State.paramBlocks (s : State) (chip : Nat) : List (Nat × Nat) :=
  s.blocks.filterMap fun (_, b) =>
    let g := s.grid b.grid
    if s.chipOf (clusterOf b.core) == chip && g.st != .retired && b.st != .saved && g.psize != 0 then
      some (b.paramBase, g.psize)
    else none

/-- The parameter block of a grid on a chiplet. -/
def State.paramOf (s : State) (gid chip : Nat) : Option Nat :=
  (s.blocks.find? fun (_, b) => b.grid == gid && s.chipOf (clusterOf b.core) == chip && b.st != .saved).map (·.2.paramBase)

/-- The parameter block of a grid on a chiplet, copied there when it is the first (R318). -/
def State.placeParam (s : State) (gid chip : Nat) : Option (Nat × State) :=
  let g := s.grid gid
  match if g.psize == 0 then some 0 else s.paramOf gid chip with
  | some a => some (a, s)
  | none =>
    (fitAt (s.paramBlocks chip ++ s.quarSpans chip) s.spillHi Config.plinthBytes g.psize 64).map fun a =>
      (a, s.putLocal .plinth (addrs (chip * 2 ^ 31 + a) (g.image.getD [])))

/-- The columns of a gang whose blocks on the listed cores each have the amounts. -/
def gangCols (amt : List Nat) (cores : List Nat) : List Nat :=
  cores.foldl (fun t k => t.zipWith (· + ·) (columnsOf k amt)) (List.replicate Config.columns 0)

/-- What a block is admitted with, by class: all its claim in a CONCURRENT grid (R41, R56). -/
def Grid.admitAmt (g : Grid) : List Nat := if g.cls == 1 then g.maxClaim else g.static

/-- A core can take one more block of a grid that has the given amounts (R8, R34). -/
def State.coreRoom (s : State) (g : Grid) (amt : List Nat) (core : Nat) : Bool :=
  let av := s.available (clusterOf core)
  let bs := s.onCore core
  let fits (k : Nat) : Bool := (amt.getD k 0 : Int) ≤ av.getD (colOf k core) 0
  (bs.foldl (fun n b => n + (s.grid b.grid).warpsPer) 0) + g.warpsPer ≤ 64 && bs.length < 16 && fits 2 && fits 3 &&
    (s.sharedFit core g).isSome && !s.coreQuar core

/-- The lowest run of n free units of a cluster (R62). -/
def State.unitRun (s : State) (c n : Nat) : Option Nat :=
  (s.runs c n).find? fun u => (List.range n).all fun i => s.unitFree c (u + i)

/-- A carve of n bytes holds free values: what lay there was written under another key, or is not stated (R64, R65; log entry
84). -/
def State.fillCarve (s : State) (chip base n : Nat) : State :=
  { s with plinth := wrList s.plinth ((List.range n).map fun i =>
      (chip * 2 ^ 31 + base + i, Config.garbled s.time (2 ^ 60 + chip * 2 ^ 31 + base + i))) }

/-- Carve the spill stacks of a block's warps and create them (R64): their numbers. -/
def State.placeWarps (s : State) (b : Nat) (g : Grid) (chip : Nat) : List Nat → Option (List Nat × State)
  | [] => some ([], s)
  | i :: r =>
    match fitAt (s.carves chip ++ s.quarSpans chip) s.spillLo s.spillHi (32 * g.spill) 128 with
    | none => none
    | some base =>
      let n := tnext s.warps
      let w : Warp := { block := b, idx := i, tag := .ofNat 32 (n + 1), spillBase := base, vc := g.vc }
      (((s.setWarp n w).fillCarve chip base (32 * g.spill)).placeWarps b g chip r).map fun (l, t) => (n :: l, t)

/-- Place the blocks of a gang, with their warps, on the listed cores. -/
def State.placeBlocks (s : State) (gid gg chip param u : Nat) : List (Nat × Nat) → Option (List Nat × State)
  | [] => some ([], s)
  | (core, k) :: r =>
    let g := s.grid gid
    let n := tnext s.blocks
    let nu := g.f 464 8
    let tiles := (firstFree (g.f 405 4) Config.tilesPerCore (s.tileFree core)).zipIdx.map fun (p, z) => (z, p, true)
    let b : Block :=
      { grid := gid, gang := gg, rank := k, index := g.nextBlock + k, core := core, shBase := (s.sharedFit core g).getD 0
        tiles := tiles, units := (List.range nu).map fun i => (u + k * nu + i, true), paramBase := param }
    match ({ s with blocks := tset s.blocks n b } : State).placeWarps n g chip (List.range g.warpsPer) with
    | none => none
    | some (ws, t) =>
      ((t.modBlk n fun y => { y with warps := ws }).placeBlocks gid gg chip param u r).map fun (l, v) => (n :: l, v)

/-- Admit a gang of the next n blocks of a grid to a cluster, when the cluster has room for it (R34, R46, R48, R55, R62). -/
def State.placeGang (s : State) (gid n c : Nat) : Option State :=
  let g := s.grid gid
  let chip := s.chipOf c
  let cores := (((List.range 8).map (8 * c + ·)).filter (s.coreRoom g g.admitAmt)).take n
  let gg := tnext s.gangs
  let gang : Gang :=
    { grid := gid, cluster := c, alloc := List.replicate Config.columns 0
      claim := gangCols (if g.cls == 1 then g.admitAmt else g.maxClaim) cores }
  let s1 : State := { s with gangs := tset s.gangs gg gang }
  let cols := gangCols g.admitAmt cores
  if (s.cluster c).gate == .gated || cores.length < n || !s1.testRequest gg cols then none
  else
    match s.unitRun c (n * g.f 464 8), (s1.allocate gg cols).placeParam gid chip with
    | some u, some (a, s2) =>
      (s2.placeBlocks gid gg chip a u cores.zipIdx).map fun (bs, s3) =>
        let s4 := (List.range (n * g.f 464 8)).foldl (fun t i => t.takeUnit g.ctx c (u + i)) s3
        let s5 := s4.modGang gg fun y => { y with blocks := bs }
        (s5.modCluster c fun y => { y with dispatchQ := y.dispatchQ ++ bs, handed := true }).modGrid gid fun y =>
          { y with nextBlock := y.nextBlock + n }
    | _, _ => none

/-- Where a gang may go, trying clusters in turn: none has room; or one has, unless operations wait in the arbiter's queue
of the first, behind which the admission waits (R34, R47). -/
def State.tryClusters (s : State) (place : Nat → Option State) : List Nat → Option (Option State)
  | [] => none
  | c :: r =>
    if !(s.cluster c).queue.isEmpty then some none
    else
      match place c with
      | some t => some (some t)
      | none => s.tryClusters place r

/-- Admit the next gang of a grid: the preferred size, else the fallback size, on the lowest cluster with room (R34). -/
def State.admitTry (s : State) (gid : Nat) : Option (Option State) :=
  let g := s.grid gid
  let left := g.nblocks - g.nextBlock
  [min (g.f 236 4) left, min (g.f 240 4) left].findSome? fun n =>
    s.tryClusters (s.placeGang gid n) (s.liveClusters g.slice)

/-- The state with the next gang of a grid admitted. -/
def State.admitGang (s : State) (gid : Nat) : Option State := (s.admitTry gid).join

/-- Admit every gang of a grid that is left, or none (R41). -/
def State.admitAllTry (s : State) (gid : Nat) : Nat → Option (Option State)
  | 0 => some (some s)
  | k + 1 =>
    if (s.grid gid).nextBlock == (s.grid gid).nblocks then some (some s)
    else
      match s.admitTry gid with
      | none => none
      | some none => some none
      | some (some t) => t.admitAllTry gid k

/-- The state with every gang of a grid admitted. -/
def State.admitAll (s : State) (gid k : Nat) : Option State := (s.admitAllTry gid k).join

/-- The device with no other work resident (R41, R378). -/
def State.vacant (s : State) : State :=
  { s with
    warps := []
    blocks := []
    gangs := []
    scrubs := []
    clusters := s.clusters.map fun (n, c) => (n, { c with gate := .open, queue := [], dispatchQ := [] }) }

/-- The whole-grid test of R41. -/
def State.wholeGrid (s : State) (g : Grid) : Bool :=
  let v := s.vacant
  let n := tnext v.grids
  g.nblocks ≤ Config.clusters * 8 * 16 &&
    (({ v with grids := tset v.grids n { g with image := some [] } } : State).admitAll n g.nblocks).isSome

/-! ### Accepting and refusing -/

/-- The checks of a record whose reads have been made (R312). -/
def State.judge (s : State) (g : Grid) (desc : Option Nat) : Verdict :=
  match (reservedWords g desc).min? with
  | some w => .refuse 0x02 w
  | none =>
    if g.cbase % 64 != 0 then .refuse 0x11 8
    else if cpBad g g.entry then .refuse 0x04 0
    else if g.hvalid && cpBad g g.hentry then .refuse 0x04 4
    else
      match (s.gangTest g ++ if g.cls == 1 && !s.wholeGrid g then [28] else []).min? with
      | some w => .refuse 0x25 w
      | none => .accept g

/-- Validate a launch (R312): the reads of order 1, then the checks in order.  A request whose own words are malformed is
refused without them.  A nonzero `PARAM` takes the place of the record's `PPTR` in every check (log entry 57). -/
def State.validate (s : State) (q : LaunchReq) : Verdict × State :=
  if q.bad || q.recVa % 64 != 0 then (.refuse 0x02 0, s)
  else
    match s.launchRead q.ctx q.recVa 256 0 with
    | (.error v, t) => (v, t)
    | (.ok x, t) =>
      let parent := q.child.map fun (w, _) => (t.warp w).block
      let g : Grid :=
        { ctx := q.ctx, recVa := q.recVa, lr := .ofNat 2048 x, pptr := if q.param == 0 then bits x 128 48 else q.param
          depth := q.depth, priv := q.priv, slice := t.ctxSlice q.ctx, vf := t.ctxVf q.ctx, parent := parent, pc := q.pc, host := q.host
          vc := q.vc }
      match t.launchRead q.ctx g.pptr (min g.psize 65536) 16 with
      | (.error v, u) => (v, u)
      | (.ok _, u) =>
        match if g.heapen then u.heapDesc q.ctx g.heap else none with
        | none => (u.judge g none, u)
        | some a =>
          match u.launchRead q.ctx a 64 28 with
          | (.error v, v1) => (v, v1)
          | (.ok d, v1) => (v1.judge g (some d), v1)

/-- The block that launched a child no longer waits for it (R37). -/
def State.childGone (s : State) (b : Nat) : State :=
  if (s.blk b).st == .held && !s.childLive b then
    (s.modBlk b fun k => { k with st := .finished }).retire (s.blk b).grid 16
  else s

/-- The launch has been decided: it leaves the queue, and the flag of a child's `PUSH` is released (R242), also while
its `STATUS` waits for a page (log entry 57). -/
def State.decided (s : State) (q : LaunchReq) : State :=
  let t : State := { s with launchQ := s.launchQ.erase q }
  match q.child with
  | some (w, flag) => t.modWarp w fun y => y.flagDown flag []
  | none => t

/-- Refuse a launch (R253, R313, R315): a `STATUS` that would lie beyond the address space is not written. -/
def State.refuseLaunch (s : State) (q : LaunchReq) (code : BitVec 8) (detail : Nat) : State :=
  let s1 := if 2 ^ 48 < q.recVa + 120 then s else s.setStatus q.ctx q.recVa code 2 detail
  let s2 := s1.complete { ctx := q.ctx, recVa := q.recVa, host := q.host } code 2
  match q.child with
  | none => s2.decided q
  | some (w, _) =>
    let r : LogRec := { s2.recOf w 0x04 with code := code.toNat, pc := q.pc.toNat, addr := q.recVa, info := detail }
    ((s2.ctxLog r).decided q).childGone (s2.warp w).block

/-- The record of a child grid that is refused after it was accepted (R313, R377). -/
def State.logRefusedGrid (s : State) (g : Grid) (code : BitVec 8) (detail : Nat) : State :=
  match g.parent with
  | none => s
  | some b =>
    s.ctxLog { s.recOf ((s.blk b).warps.headD 0) 0x04 with code := code.toNat, pc := g.pc.toNat, addr := g.recVa, info := detail }

/-- Accept a launch: `STATE` 00 and `DEPTH`, and its place in the slice's queue (R313, R317). -/
def State.acceptLaunch (s : State) (q : LaunchReq) (g : Grid) : State :=
  let n := tnext s.grids
  let s1 := if s.ctxState q.ctx == 0 then s.setCtxState q.ctx 1 else s
  let s2 := s1.setStatus q.ctx q.recVa 0 0 0
  let s3 := (s2.writeOrPark q.ctx (s2.launchUnit q.ctx) (q.recVa + 31) id .status [addrs 0 [.ofNat 8 (q.depth * 16)]]).2
  ({ s3 with
      grids := tset s3.grids n g
      admitQ := s3.admitQ ++ [(g.slice, g.f 228 2, n)] } : State).decided q

/-- A launch can be validated: its context runs, or is being saved and has accepted the request of one of its warps, which
completes (R256, R337). -/
def State.launchRuns (s : State) (q : LaunchReq) : Bool :=
  let c := s.ctx q.ctx
  !c.saving || q.child.isSome && !c.restoring && s.ctxState q.ctx == 3

/-- The launches that the distributors have begun: the first of each slice that can be validated (R317, R337). -/
def State.launchHeads (s : State) : List LaunchReq :=
  s.launchQ.foldl (fun l q =>
    if !s.launchRuns q || l.any (fun p => s.ctxSlice p.ctx == s.ctxSlice q.ctx) then l else l ++ [q]) []

/-- Validate the first of the listed launches that does not wait for a page. -/
def State.validateFirst (s : State) : List LaunchReq → State
  | [] => s
  | q :: r =>
    match s.validate q with
    | (.wait p _, t) => (t.request q.ctx p false).validateFirst r
    | (.refuse code d, t) => t.refuseLaunch q code d
    | (.accept g, t) => t.acceptLaunch q g

/-- LAUNCH_VALIDATION (R312). -/
def execLaunchValidation (s : State) : Out := .next (s.validateFirst s.launchHeads)

/-! ### Admission (R34, R40 to R42, R317) -/

/-- The grid a slice's distributor works on: the head of its highest non-empty queue, contexts that are saved apart. -/
def State.sliceHead (s : State) (sl : Nat) : Option Nat :=
  let l := s.admitQ.filter fun (k, _, g) => k == sl && !(s.ctx (s.grid g).ctx).saving
  [3, 2, 1, 0].findSome? fun p => (l.find? fun (_, q, _) => q == p).map fun (_, _, g) => g

/-- Read the parameter image of a grid, once (R318): none while its page is absent. -/
def State.loadImage (s : State) (gid : Nat) : Option State × State :=
  let g := s.grid gid
  if g.image.isSome || g.psize == 0 then (some s, s)
  else
    match s.vread (s.launchUnit g.ctx) g.ctx g.pptr g.psize with
    | (.error p, t) => (none, t.request g.ctx p false)
    | (.ok l, t) => (some (t.modGrid gid fun y => { y with image := some l }), t)

/-- A gang of the grid has been admitted: `STATE` 01 at the first, and the grid leaves the queue with its last (R313,
R317). -/
def State.afterAdmission (s : State) (gid : Nat) : State :=
  let g := s.grid gid
  let s1 := if g.admitted then s
    else (s.modGrid gid fun y => { y with st := .running, admitted := true }).setStatus g.ctx g.recVa 0 1 0
  if g.nextBlock == g.nblocks then { s1 with admitQ := s1.admitQ.filter fun (_, _, n) => n != gid } else s1

/-- A status write of a launch record is parked (R313, R326). -/
def State.statusParked (s : State) (ctx recVa : Nat) : Bool :=
  s.parked.any fun p => p.ctx == ctx &&
    match p.kind with
    | .write va _ .status => recVa ≤ va && va < recVa + 256
    | _ => false

/-- Admission of a grid in its turn: the image as it stands when the first gang is admitted (R318), and no `STATE` 01 before
`STATE` 00 is visible (R313). -/
def State.admission (s : State) (gid : Nat) (place : State → Option State) : Out :=
  let g := s.grid gid
  if !g.admitted && s.statusParked g.ctx g.recVa then .next s
  else
    match s.loadImage gid with
    | (none, t) => .next t
    | (some t, _) =>
      match place t with
      | none => .next (t.modGrid gid fun y => { y with image := g.image })
      | some u => .next (u.afterAdmission gid)

/-- GANG_ADMISSION (R34, R40). -/
def execGangAdmission (slice : Nat) (s : State) : Out :=
  match s.sliceHead slice with
  | none => .next s
  | some gid => if (s.grid gid).cls == 1 then .next s else s.admission gid fun t => t.admitGang gid

/-- CONCURRENT_ADMISSION (R41). -/
def execConcurrentAdmission (slice : Nat) (s : State) : Out :=
  match s.sliceHead slice with
  | none => .next s
  | some gid => if (s.grid gid).cls != 1 then .next s else s.admission gid fun t => t.admitAll gid (t.grid gid).nblocks

/-! ### Dispatch (R30, R32, R62, R318) -/

/-- The quadrant for one more warp: the one with the fewest, the lowest on a tie (R318). -/
def State.nextQuadrant (s : State) (core : Nat) (placed : List Nat) : Nat :=
  let ws := s.warps.filterMap fun (_, w) =>
    let b := s.blk w.block
    if b.core == core && b.st == .resident then some w.quadrant else none
  let n (q : Nat) : Nat := ((ws ++ placed).filter (· == q)).length
  [1, 2, 3].foldl (fun q k => if n k < n q then k else q) 0

/-- The quadrants of n warps placed one at a time. -/
def State.quadrants (s : State) (core : Nat) : Nat → List Nat → List Nat
  | 0, placed => placed
  | n + 1, placed => s.quadrants core n (placed ++ [s.nextQuadrant core placed])

/-- The presets of `b0`, `b1` and `b2` (R62). -/
def State.presets (s : State) (b : Block) : Tab Bounded :=
  let g := s.grid b.grid
  let c := clusterOf b.core
  let us := (s.gang b.gang).blocks.flatMap fun p => ((s.blk p).units.filter (·.2)).map (·.1)
  let reg (base n : Nat) (sp : BitVec 2) (w : Bool) : Bounded :=
    { ptr := .ofNat 32 base, base := .ofNat 32 base, limit := .ofNat 32 (base + n), space := sp, r := true, w := w, a := w }
  [(0, reg b.shBase (g.f 416 19) 1 true)] ++
    (match us.min? with
     | some u => [(1, reg (s.unitOff c u) (us.length * Config.unitBytes) 2 true)]
     | none => []) ++
    (if g.psize == 0 then [] else [(2, reg b.paramBase g.psize 2 false)])

/-- A warp starts: its threads that exist are live at `ENTRY` (R32, R334). -/
def Warp.start (w : Warp) (g : Grid) (q : Nat) (b : Tab Bounded) : Warp :=
  let th (l : Nat) : Thread :=
    if 32 * w.idx + l < g.threads then { st := .live, cp := g.entry, rcp := g.entry } else {}
  { w with
    quadrant := q
    b := b
    threads := allLanes.map fun l => (l, th l) }.place allLanes true

/-- BLOCK_DISPATCH (R318): the block at the head of the dispatcher's queue starts. -/
def execBlockDispatch (cluster : Nat) (s : State) : Out :=
  match (s.cluster cluster).dispatchQ with
  | [] => .next s
  | n :: r =>
    let s1 := s.modCluster cluster fun c => { c with dispatchQ := r }
    let b := s1.blk n
    let g := s1.grid b.grid
    let qs := s1.quadrants b.core b.warps.length []
    let bs := s1.presets b
    let s2 := (b.warps.zip qs).foldl (fun t (w, q) => t.modWarp w fun y => y.start g q bs) s1
    let s3 := s2.modBlk n fun y => { y with st := .resident }
    .next { s3 with cores := tmod {} s3.cores b.core fun k => { k with ranCtx := nins k.ranCtx g.ctx } }

/-! ### Power gating (R319) -/

/-- A cluster has no resident block, no deferred request and no pending grant. -/
def State.clusterIdle (s : State) (c : Nat) : Bool :=
  (s.holders c).isEmpty && (s.cluster c).deferred.isEmpty && (s.cluster c).queue.isEmpty

/-- GATING_REQUEST (R319). -/
def execGatingRequest (cluster : Nat) (s : State) : Out :=
  if s.clusterIdle cluster && (s.cluster cluster).gate == .open then
    .next (s.modCluster cluster fun c => { c with gate := .requested, handed := false })
  else .next s

/-- GATING_COMMIT (R319): a block handed to the cluster since the request wins. -/
def execGatingCommit (cluster : Nat) (s : State) : Out :=
  let c := s.cluster cluster
  if c.gate == .requested then
    .next (s.modCluster cluster fun y => { y with gate := if c.handed then .open else .gated })
  else .next s

/-! ### Notes (R242, R254, R354) and the Sander's command (R255) -/

/-- A note ring has room. -/
def Fn.noteRoom (f : Fn) : Bool := f.nrlog != 0 && (f.nrtail - f.nrhead).toNat < 2 ^ f.nrlog

/-- The 512 bits of a note. -/
def Note.val (n : Note) : Nat := n.words.foldr (fun x t => x.toNat + 2 ^ 32 * t) 0

/-- HOSTNOTE_WRITE (R254): the first note of the cluster whose ring has room. -/
def execHostnoteWrite (cluster : Nat) (s : State) : Out :=
  match (s.cluster cluster).notes.find? fun n => (s.fn n.fn).noteRoom with
  | none => .next s
  | some n =>
    let f := s.fn n.fn
    let s1 := s.putPhys (addrs (f.nrbase.toNat + 64 * (f.nrtail.toNat % 2 ^ f.nrlog)) (bytesOf 64 n.val))
    let s2 := (s1.modFn n.fn fun y => { y with nrtail := y.nrtail + 1 }).signal n.fn 2
    .next ((s2.modCluster cluster fun c => { c with notes := c.notes.erase n }).modWarp n.warp fun w => w.flagDown n.flag [])

/-- Overwrite n physical bytes with zeros (R255, R367). -/
def State.zeroPhys (s : State) (a n : Nat) : State :=
  { s with
    mem := s.mem.filter fun (k, _) => !(a ≤ k && k < a + n)
    poisonMem := s.poisonMem.filter fun u => !(a ≤ 64 * u && 64 * u + 64 ≤ a + n)
    memCtx := s.memCtx.filter fun (u, _) => !(a ≤ 64 * u && 64 * u + 64 ≤ a + n)
    relMem := s.relMem.filter fun (k, _) => !(a ≤ 4 * k && 4 * k < a + n) }

/-- What is wrong with a Sander command (R255; log entry 16). -/
def EngineCmd.sandFault (words : List Word) : Option (BitVec 8) :=
  let w (i : Nat) : Nat := (words.getD i 0).toNat
  let base := w 2 + w 3 * 2 ^ 32
  let len := w 4 + w 5 * 2 ^ 32
  if w 0 != 1 || w 1 != 0 || (List.range 10).any (fun i => w (6 + i) != 0) || 2 ^ 16 ≤ w 3 || len == 0 || len % 4096 != 0
  then some 0x02
  else if base % 4096 != 0 then some 0x11
  else if 2 ^ 48 < base + len then some 0x10
  else none

/-- Overwrite n pages of a context from a virtual address; the page that does not translate ends it (R255). -/
def State.sandPages (s : State) (c va : Nat) : Nat → Option Nat × State
  | 0 => (none, s)
  | n + 1 =>
    match s.xlate .sander c va true with
    | (none, t) => (some va, t)
    | (some pa, t) => (t.zeroPhys pa 4096).sandPages c (va + 4096) n

/-- SANDER_OVERWRITE (R255): the command at the head of Q_SANDER. -/
def execSanderOverwrite (s : State) : Out :=
  match s.sanderQ with
  | [] => .next s
  | c :: r =>
    let w (i : Nat) : Nat := (c.words.getD i 0).toNat
    let base := w 2 + w 3 * 2 ^ 32
    let t : State := { s with sanderQ := r }
    let fail (u : State) (code : BitVec 8) (a : Nat) : State :=
      u.ctxLog { u.recOf c.warp 0x05 with code := code.toNat, pc := c.pc.toNat, ctx := c.ctx, addr := a }
    let u := match EngineCmd.sandFault c.words with
      | some code => fail t code base
      | none =>
        match t.sandPages c.ctx base ((w 4 + w 5 * 2 ^ 32) / 4096) with
        | (none, v) => v
        | (some a, v) => fail v 0x13 a
    .next (u.modWarp c.warp fun y => y.flagDown c.flag [])

end Sys2Proof.Machine
end

