-- ==== Sys2Proof/Machine/Rings.lean ====
section
/-! DEFINITION. The rings of a function and the device log's registers: doorbell, launch entries, completions and the counts
the driver writes (R314 to R316, R329, R354, R377, R379, R380). -/

namespace Sys2Proof.Machine

/-- The host's writes are taken: the device is in FULL and has not tripped (R349, R373). -/
def State.hostTaken (s : State) : Bool := s.dev.stage == 3 && !s.dev.tripped

/-- A count has moved at most 2^k past another; a ring of 2^0 entries is disabled and holds none (R379; log entry 17). -/
def ringHolds (tail head : Word) (k : Nat) : Bool := (tail - head).toNat ≤ (if k == 0 then 0 else 2 ^ k)

/-- LRTAIL_DOORBELL (R314, R373). -/
def execLrtailDoorbell (fn : Nat) (val : BitVec 32) (s : State) : Out :=
  let f := s.fn fn
  if s.dev.stage != 3 then .next s
  else if s.dev.tripped || !ringHolds val f.lrhead f.lrlog then .next (s.ignored fn 0x10C)
  else .next (s.modFn fn fun y => { y with lrtail := val })

/-- Word i of a launch entry (R253). -/
def entryWord (x i : Nat) : Nat := bits x (32 * i) 32

/-- A launch entry that is refused without its record being read (R380). -/
def entryBad (x : Nat) : Bool :=
  entryWord x 0 != 1 || entryWord x 1 != 0 || bits x 192 320 != 0 || bits x 112 16 != 0 || bits x 176 16 != 0 ||
    bits x 64 48 % 64 != 0

/-- A function's launch ring holds an entry to read. -/
def Fn.pending (f : Fn) : Bool := f.lrlog != 0 && f.lrhead != f.lrtail

/-- The slice whose distributor reads a function's launch ring: that of the context bound to it, and 8 without one (R316). -/
def State.ringSlice (s : State) (fn : Nat) : Nat := if (s.fn fn).ctx == 0 then 8 else s.ctxSlice ((s.fn fn).ctx - 1)

/-- The function whose ring has its turn among those of a slice: the next one above the last served that has an entry
(R317; log entry 79). -/
def State.ringTurn (s : State) (sl : Nat) : Option Nat :=
  ((List.range 64).map fun i => (tget 0 s.ringLast sl + i) % 64).find? fun n => (s.fn n).pending && s.ringSlice n == sl

/-- LAUNCH_ENTRY_READ (R314, R316, R317, R380). -/
def execLaunchEntryRead (fn : Nat) (r : State) : Out :=
  let f := r.fn fn
  if !r.hostTaken || !f.pending || r.ringTurn (r.ringSlice fn) != some fn then .next r
  else
    let s : State := { r with ringLast := tset r.ringLast (r.ringSlice fn) (fn + 1) }
    let x := s.phys (f.lrbase.toNat + 64 * (f.lrhead.toNat % 2 ^ f.lrlog)) 64
    let n := f.lrhead.toNat
    let s1 := s.modFn fn fun y => { y with lrhead := y.lrhead + 1 }
    let rec_ := bits x 64 48
    if entryBad x || f.ctx == 0 then
      let s2 := s1.modFn fn fun y => { y with completions := y.completions ++ [(rec_, cReserved, 2, n, 0)] }
      .next (s2.devLog { kind := 0x04, code := cReserved.toNat, vf := fn, addr := rec_ })
    else
      .next { s1 with launchQ := s1.launchQ ++
        [{ ctx := f.ctx - 1, recVa := rec_, param := bits x 128 48, depth := 0, priv := fn == 0, host := some (fn, n) }] }

/-- COMPLETION_ENTRY_WRITE (R313, R315): once the ring has room and the record's status is visible. -/
def execCompletionEntryWrite (fn : Nat) (s : State) : Out :=
  let f := s.fn fn
  match f.completions with
  | [] => .next s
  | (rec_, code, st, n, ctx) :: r =>
    if f.lrlog == 0 || 2 ^ f.lrlog ≤ (f.crtail - f.crhead).toNat || ctx != 0 && s.statusParked (ctx - 1) rec_ then .next s
    else
      let x := rec_ % 2 ^ 48 + code.toNat * 2 ^ 48 + st * 2 ^ 56 + n % 2 ^ 16 * 2 ^ 64
      let s1 := s.putPhys (addrs (f.crbase.toNat + 16 * (f.crtail.toNat % 2 ^ f.lrlog)) (bytesOf 16 x))
      .next ((s1.modFn fn fun y => { y with completions := r, crtail := y.crtail + 1 }).signal fn 0)

/-- A driver's write of a HEAD count: it may move HEAD neither past TAIL nor so that the ring holds more than its size
(R379). -/
def headOk (tail val : Word) (k : Nat) : Bool := ringHolds tail val k

/-- RING_HEAD_WRITE (R379): `CRHEAD` at 0x124, `PRHEAD` at 0x150, `NRHEAD` at 0x170 of BAR 0. -/
def execRingHeadWrite (fn off : Nat) (val : BitVec 32) (s : State) : Out :=
  let f := s.fn fn
  if !s.hostTaken then .next s
  else
    match off with
    | 0x124 => .next (if headOk f.crtail val f.lrlog then s.modFn fn fun y => { y with crhead := val } else s.ignored fn off)
    | 0x150 => .next (if headOk f.prtail val f.prlog then s.modFn fn fun y => { y with prhead := val } else s.ignored fn off)
    | 0x170 => .next (if headOk f.nrtail val f.nrlog then s.modFn fn fun y => { y with nrhead := val } else s.ignored fn off)
    | _ => .next s

/-- DLRD_WRITE (R377): taken from FULL on, after a trip too (R373). -/
def execDlrdWrite (val : BitVec 32) (s : State) : Out :=
  let d := s.dev
  if d.stage != 3 then .next s
  else if (d.dlwr - val).toNat ≤ 4096 then .next { s with dev := { d with dlrd := val } }
  else .next { s with dev := { d with dlovf := d.dlovf ||| 0x80000000 } }

/-- DLOVF_WRITE (R377): only 0 is taken. -/
def execDlovfWrite (val : BitVec 32) (s : State) : Out :=
  if s.dev.stage != 3 then .next s
  else if val == 0 then .next { s with dev := { s.dev with dlovf := 0 } }
  else .next (s.ignored 0 0x310)

end Sys2Proof.Machine
end

