-- ==== Sys2Proof/Machine/Paging.lean ====
section
/-! DEFINITION. Page requests, replies and replay, and the invalidation commands of the host (R324 to R332). -/

namespace Sys2Proof.Machine

/-! ### Requests (R329, R330) -/

/-- The page-request ring has room. -/
def Fn.reqRoom (f : Fn) : Bool := f.prlog != 0 && (f.prtail - f.prhead).toNat < 2 ^ f.prlog

/-- The entries parked for a page of a context, in log order. -/
def State.parkedFor (s : State) (c page : Nat) : List Parked := s.parked.filter fun p => p.ctx == c && p.page == page

/-- A thread waits for a page of a context: the address, and why. -/
def Thread.waitsPage (t : Thread) (c page : Nat) : Option (Nat × Cause) :=
  match t.st with
  | .blocked k =>
    match k.waitsFor with
    | some (c', va) => if c' == c && va / 4096 * 4096 == page then some (va, k) else none
    | none => none
  | _ => none

/-- The threads that wait for a page of a context. -/
def State.threadsFor (s : State) (c page : Nat) : List Thread :=
  s.warps.flatMap fun (_, w) => (allLanes.map w.th).filter fun t => (t.waitsPage c page).isSome

/-- The pages of a context that instructions stalled at issue have asked for. -/
def State.asksFor (s : State) (c page : Nat) : List Ask :=
  s.warps.flatMap fun (_, w) => w.asks.filter fun a => a.ctx == c && a.page == page

/-- The Jointer has something to do for a context. -/
def State.jointerWorks (s : State) (c : Nat) : Bool :=
  (s.cycles.any fun y => y.ctx == c) || s.jointerQ.any fun k => k.ctx == c

/-- An access parked at this moment needs `W` (R330): a logged write, a blocked thread, an instruction that stalls at issue, or the
Jointer, which asks again instead of parking. -/
def State.needsWrite (s : State) (q : PageReq) : Bool :=
  (s.parkedFor q.ctx q.page).any Parked.isLog ||
    (s.threadsFor q.ctx q.page).any (fun t => ((t.waitsPage q.ctx q.page).map (·.2.needsW)).getD false) ||
    (s.asksFor q.ctx q.page).any (·.wr) || q.wr && s.jointerWorks q.ctx

/-- Write an entry of the page-request ring and signal it (R330, R353). -/
def State.putRequest (s : State) (q : PageReq) (kind tag : Nat) : State :=
  let f := s.fn q.fn
  let x := q.page % 2 ^ 48 + (if s.needsWrite q then 2 ^ 48 else 0) + kind * 2 ^ 56 + tag * 2 ^ 64 + q.ctx * 2 ^ 96 + q.rcnt * 2 ^ 106
  let s1 := s.putPhys (addrs (f.prbase.toNat + 32 * (f.prtail.toNat % 2 ^ f.prlog)) (bytesOf 32 x))
  (s1.modFn q.fn fun y => { y with prtail := y.prtail + 1 }).signal q.fn 1

/-- Change the request of a page. -/
def State.modReq (s : State) (c page : Nat) (f : PageReq → PageReq) : State :=
  { s with pageReqs := s.pageReqs.map fun q => if q.ctx == c && q.page == page then f q else q }

/-- The lowest tag that no outstanding request of a function bears. -/
def State.freeTag (s : State) (fn : Nat) : Option Nat :=
  let used := s.pageReqs.filterMap fun q => if q.fn == fn then q.tag else none
  if 4096 ≤ used.length then none else (List.range 4097).find? fun t => !used.contains t

/-- PAGE_REQUEST_WRITE (R329, R332): the first request of the function that has no tag, or is to be reported stalled. -/
def execPageRequestWrite (fn : Nat) (s : State) : Out :=
  if !(s.fn fn).reqRoom then .next s
  else
    match s.pageReqs.find? fun q => q.fn == fn && (q.tag.isNone && (s.freeTag fn).isSome || q.stalled) with
    | none => .next s
    | some q =>
      match q.tag with
      | some t => .next ((s.putRequest q 0x02 t).modReq q.ctx q.page fun y => { y with stalled := false })
      | none =>
        let t := (s.freeTag fn).getD 0
        .next ((s.putRequest q 0x01 t).modReq q.ctx q.page fun y => { y with tag := some t })

/-! ### Replay (R326, R331, R332) -/

/-- What an access that has been replayed does next: a channel's unit may be delivered (R74). -/
def State.replayed (s : State) : ParkedKind → State
  | .write _ _ (.copyWrite n u) => s.written n u
  | _ => s

/-- The window's chunk is filled, if it can be. -/
def State.ensureChunk (s : State) (i chunk : Nat) : Option State × State :=
  if (s.window i).filled.contains chunk then (some s, s) else s.fillChunk i chunk

/-- The access belongs to a warp of a block. -/
def Parked.ofWarp (p : Parked) : Bool :=
  match p.kind with
  | .write _ _ .status => false
  | _ => p.unit != .jointer

/-- The request of a logged copy write whose page is a peer's (R355), as its channel sends it at the replay. -/
def State.logPeer (s : State) (p : Parked) : Option (Nat × PeerReq) :=
  match p.kind with
  | .write va bytes (.copyWrite n u) =>
    match (s.sectorPeer p.unit p.ctx u va bytes).1 with
    | some q => some (n, q)
    | none => none
  | _ => none

/-- Perform a parked write, whose entry has left the log: none when its walk faults again (R332). -/
def State.replayWrite (s : State) (p : Parked) (va : Nat) (bytes : List (Nat × Byte)) (org : Origin) :
    Option State × State :=
  let l := bytes.map fun (i, b) => (va + i - p.page, b)
  match s.vwrite p.unit p.ctx p.page 4096 (match org with | .heal _ => [] | _ => l) with
  | (.error _, t) => (none, t)
  | (.ok _, t) =>
    match org with
    | .heal old =>
      match t.vreadNat p.unit p.ctx (va + (bytes.head?.map (·.1)).getD 0) 8 with
      | (.ok x, u) =>
        if x == old then (some (u.vwrite p.unit p.ctx p.page 4096 l).2, t) else (some u, t)
      | (.error _, u) => (none, u)
    | _ => (some (t.replayed p.kind), t)

/-- A sector that its channel has still to write (R5). -/
def State.keepRest (s : State) (n u va : Nat) (bytes : List (Nat × Byte)) : State :=
  s.modCmd n fun c => { c with rest := c.rest ++ [{ unit := u, va := va, bytes := bytes }] }

/-- Perform a parked access, whose entry has left the log: none when its walk faults again (R332). -/
def State.replayOne (s : State) (p : Parked) : Option State × State :=
  match p.kind with
  | .write va bytes org =>
    match s.logPeer p with
    | some (n, q) => (some (if s.requestRoom p.warp = 0 then s.keepRest n q.unit va bytes else s.askPeers n [q]), s)
    | none => s.replayWrite p va bytes org
  | .local i chunk _ bytes =>
    if (tfind s.windows i).isNone then (some s, s)
    else
      match s.ensureChunk i chunk with
      | (some t, _) => (some (t.putLocal .plinth bytes), t)
      | (none, t) => (none, t)
  | .localAtomic i chunk key opc ty c cmp dst lane =>
    if (tfind s.windows i).isNone then (some s, s)
    else
      match s.ensureChunk i chunk with
      | (some t, _) =>
        let old := t.getLocal .plinth key ty.bytes
        let t1 := match atomStep opc ty (cmp.map (·.toNat)) c.toNat old with
          | some v => t.putLocal .plinth (addrs key (bytesOf ty.bytes v))
          | none => t
        (some (t1.modWarp p.warp fun y => y.wopd dst ty.regs lane old), t)
      | (none, t) => (none, t)
  | .copyRead _ _ _ =>
    match s.xlate p.unit p.ctx p.page false true with
    | (some _, t) => (some t, t)
    | (none, t) => (none, t)

/-- An entry leaves its log. -/
def State.unpark (s : State) (p : Parked) : State := { s with parked := s.parked.erase p }

/-- The count of an access whose walk has faulted again at a replay; a reply to one that has stalled starts it anew (R332). -/
def recount (r : Nat) : Nat := (if 3 ≤ r then 0 else r) + 1

/-- A replay walks for an access with a count (R332): after a reply for every one, by itself for those with counts 1 and 2. -/
def dueAt (reply : Bool) (r : Nat) : Bool := reply || r == 1 || r == 2

/-- The entries whose walk is due, in log order: none passes an entry of its own side log that is not walked (R328); `stuck` is
what was passed over. -/
def dueEntries (due : Nat → Bool) (stuck : List Parked) : List Parked → List Parked
  | [] => []
  | p :: r =>
    if due p.rcnt && !(p.isLog && stuck.any fun q => q.unit == p.unit) then p :: dueEntries due stuck r
    else dueEntries due (if p.isLog then p :: stuck else stuck) r

/-- Replay listed entries in log order: how many have faulted again, each counted (R332), and the state. -/
def State.replayAll (s : State) : List Parked → Nat × State
  | [] => (0, s)
  | p :: r =>
    match (s.unpark p).replayOne p with
    | (some t, _) => t.replayAll r
    | (none, t) =>
      match ({ t with parked := s.parked.replace p { p with rcnt := recount p.rcnt } } : State).replayAll r with
      | (n, u) => (n + 1, u)

/-- The unit by which a blocked thread of a warp reaches its page (R320). -/
def State.causeUnit (s : State) (w : Nat) : Cause → XUnit
  | .page _ _ _ => (s.heapPort w).unit
  | _ => .mapUnit (s.wcluster w)

/-- The page can be used as a blocked thread of the warp needs. -/
def State.pageServes (s : State) (w c page : Nat) (k : Cause) : Bool := (s.xlate (s.causeUnit w k) c page k.needsW).1.isSome

/-- Walk for the threads of one warp that wait for a page: those that find it go on, and each other one is counted; whether one is
left (R332). -/
def State.wakePage (s : State) (due : Nat → Bool) (w c page : Nat) : Bool × State :=
  let x := s.warp w
  let ls := allLanes.filter fun l => ((x.th l).waitsPage c page).isSome && due (x.th l).rcnt
  let go := ls.filter fun l => ((x.th l).waitsPage c page).any fun (_, k) => s.pageServes w c page k
  let no := ls.filter fun l => !go.contains l
  let t := if no.isEmpty then s else s.modWarp w fun y => y.modThs no fun _ t => { t with rcnt := recount t.rcnt }
  (!no.isEmpty, if go.isEmpty then t else t.modWarp w fun y => y.wake go fun _ k => k)

/-- Walk for the threads of listed warps. -/
def State.wakePages (s : State) (due : Nat → Bool) (c page : Nat) : List Nat → Bool × State
  | [] => (false, s)
  | w :: r =>
    match s.wakePage due w c page with
    | (b, t) =>
      match t.wakePages due c page r with
      | (b', u) => (b || b', u)

/-- The page can be used as an instruction of a warp that stalls at issue needs: its heap port reaches it. -/
def State.portServes (s : State) (w c page : Nat) (wr : Bool) : Bool := (s.xlate (s.heapPort w).unit c page wr).1.isSome

/-- Walk for the stalls at issue: those that find their page are over, and each other one is counted; whether one is left. -/
def State.wakeAsks (s : State) (due : Nat → Bool) (c page : Nat) : Bool × State :=
  let walk (w : Nat) (a : Ask) : Option Ask :=
    if !(a.ctx == c && a.page == page && due a.rcnt) then some a
    else if s.portServes w c page a.wr then none else some { a with rcnt := recount a.rcnt }
  let left := s.warps.any fun (w, x) => x.asks.any fun a =>
    a.ctx == c && a.page == page && due a.rcnt && !s.portServes w c page a.wr
  (left, { s with warps := s.warps.map fun (w, x) => (w, { x with asks := x.asks.filterMap (walk w) }) })

/-- The operations whose window fill waits for a page (R332). -/
def State.opsFor (s : State) (c page : Nat) : List (Nat × AsyncOp) := s.ops.filter fun (_, o) => o.waits == some (c, page)

/-- Walk for the operations whose window fill waits for a page: those that find it go on, and each other one is counted; whether one
is left. -/
def State.wakeOps (s : State) (due : Nat → Bool) (c page : Nat) : Bool × State :=
  let l := (s.opsFor c page).filter fun (_, o) => due o.rcnt
  let finds (o : AsyncOp) : Bool := (s.xlate (.mapUnit (s.wcluster o.warp)) c page false).1.isSome
  (l.any fun (_, o) => !finds o,
    { s with ops := l.foldl (fun t (n, o) =>
        tset t n (if finds o then { o with waits := none, rcnt := 0 } else { o with rcnt := recount o.rcnt })) s.ops })

/-- The command at the head of Q_JOINTER, when it is a FREE that waits for a page. -/
def State.freeWaits (s : State) (c page : Nat) : Option EngineCmd :=
  s.jointerQ.head?.filter fun k =>
    k.ctx == c && k.freeOk && (s.wgrid k.warp).heapen &&
      (match runHeap (hFree (jointerPort c) (s.wgrid k.warp).heap k.warp (k.word 2 + k.word 3 * 2 ^ 32)) s with
       | (.error (.page _ va _), _) | (.error (.desc _ va), _) => va / 4096 * 4096 == page
       | _ => false)

/-- The launches that wait for a page in a distributor's read (R326). -/
def State.launchesFor (s : State) (c page : Nat) : List (LaunchReq × Nat) :=
  s.launchHeads.filterMap fun q =>
    match (s.validate q).1 with
    | .wait p d => if q.ctx == c && p == page then some (q, d) else none
    | _ => none

/-- The grids at the head of their queues whose parameter image waits for a page. -/
def State.imagesFor (s : State) (c page : Nat) : List Nat :=
  ((List.range 8).filterMap s.sliceHead).filter fun gid =>
    let g := s.grid gid
    g.ctx == c && g.image.isNone && g.psize != 0 &&
      (match (s.vread (s.launchUnit c) c g.pptr g.psize).1 with
       | .error p => p == page
       | .ok _ => false)

/-- The channels whose command waits for a page to begin, with the address it waits for. -/
def State.startsFor (s : State) (c page : Nat) : List (Nat × Nat) :=
  s.chans.filterMap fun (n, h) =>
    match h.queue with
    | k :: _ =>
      if !k.started && s.chanRuns k && s.wctx k.warp == c then
        match (runCopy (cStart k) s).1 with
        | .error (.absent _ va) => if va / 4096 * 4096 == page then some (n, va) else none
        | _ => none
      else none
    | [] => none

/-- The request of a page ends and its tag is free; a fill that had met its absence can be asked for again. -/
def State.endRequest (s : State) (c page : Nat) : State :=
  { s with
    pageReqs := s.pageReqs.filter fun q => !(q.ctx == c && q.page == page)
    windows := s.windows.map fun (i, x) =>
      (i, if x.ctx == c then { x with faulted := x.faulted.filter fun k => x.page k != page } else x) }

/-- Walk for the launches and the FREE that wait for a page: each that is left is counted; whether one is left. -/
def State.walkAccepted (s : State) (due : Nat → Bool) (c page : Nat) : Bool × State :=
  let ls := (s.launchesFor c page).filter fun (q, _) => due q.rcnt
  let fs := ((s.freeWaits c page).filter fun k => due k.rcnt).isSome
  (!ls.isEmpty || fs,
    { s with
      launchQ := s.launchQ.map fun q => if ls.any fun (y, _) => y == q then { q with rcnt := recount q.rcnt } else q
      jointerQ := if fs then s.jointerQ.modify 0 fun k => { k with rcnt := recount k.rcnt } else s.jointerQ })

/-- Walk for the parameter images and the copies that have not begun: each that is left is counted; whether one is left. -/
def State.walkStarts (s : State) (due : Nat → Bool) (c page : Nat) : Bool × State :=
  let gs := (s.imagesFor c page).filter fun g => due (s.grid g).rcnt
  let ns := (s.startsFor c page).filter fun (n, _) => due ((s.chan n).queue.headD {}).rcnt
  let t := gs.foldl (fun t g => t.modGrid g fun y => { y with rcnt := recount y.rcnt }) s
  (!gs.isEmpty || !ns.isEmpty, ns.foldl (fun t (n, _) => t.modCmd n fun k => { k with rcnt := recount k.rcnt }) t)

/-- Walk for what waits on a page and whose walk is due, the table walked as it stands (R324, R332): what finds the page is performed
or goes on, and each that does not is counted; whether one is left. -/
def State.walkPage (s : State) (due : Nat → Bool) (c page : Nat) : Bool × State :=
  match (s.forget c page).replayAll (dueEntries due [] (s.parkedFor c page)) with
  | (n, s1) =>
    match s1.wakePages due c page (s1.warps.map (·.1)) with
    | (b1, s2) =>
      match s2.wakeOps due c page with
      | (b2, s3) =>
        match s3.wakeAsks due c page with
        | (b3, s4) =>
          match s4.walkAccepted due c page with
          | (b4, s5) =>
            match s5.walkStarts due c page with
            | (b5, s6) => (n != 0 || b1 || b2 || b3 || b4 || b5, s6)

/-- The counts of the operations, the launches and the FREE that wait on a page. -/
def State.acceptedCounts (s : State) (c page : Nat) : List Nat :=
  (s.opsFor c page).map (·.2.rcnt) ++ (s.launchesFor c page).map (·.1.rcnt) ++ ((s.freeWaits c page).map (·.rcnt)).toList

/-- The counts of the entries parked for a page and of the threads that wait for it. -/
def State.parkedCounts (s : State) (c page : Nat) : List Nat :=
  (s.parkedFor c page).map (·.rcnt) ++ (s.threadsFor c page).map (·.rcnt)

/-- The counts of all that waits on a page. -/
def State.waitCounts (s : State) (c page : Nat) : List Nat :=
  s.parkedCounts c page ++ (s.asksFor c page).map (·.rcnt) ++ s.acceptedCounts c page ++
    (s.imagesFor c page).map (fun g => (s.grid g).rcnt) ++ (s.startsFor c page).map fun (n, _) => ((s.chan n).queue.headD {}).rcnt

/-- How many of the counts have reached 3. -/
def stalledOf (l : List Nat) : Nat := (l.filter fun r => 3 ≤ r).length

/-- What a request stands at after a walk that leaves counts (R332): it walks again by itself for counts 1 and 2, and reports each
that has reached 3, more than `was` of them. -/
def PageReq.walked (q : PageReq) (l : List Nat) (was : Nat) : PageReq :=
  { q with rcnt := l.foldl max 0, rewalk := l.any (dueAt false), stalled := q.stalled || was < stalledOf l }

/-- Replay what waits on a page (R331, R332): all of it after a reply, what has counts 1 and 2 by itself.  Once none of that is left,
what was parked later is walked for too; when nothing waits any more, the tag is free (log entry 61). -/
def State.replayPage (s : State) (c page : Nat) (reply : Bool) : State :=
  let was := if reply then 0 else stalledOf (s.waitCounts c page)
  let t :=
    match s.walkPage (dueAt reply) c page with
    | (true, t) => t
    | (false, t) => (t.walkPage (· == 0) c page).2
  match t.waitCounts c page with
  | [] => t.endRequest c page
  | l => t.modReq c page fun q => q.walked l was

/-- A replay while a context is saved, or what waits has not returned (R327, R337): operations that were accepted, and launches
that were pushed, go on; the reply is recorded for the rest. -/
def State.replayHeld (s : State) (c page : Nat) (reply : Bool) : State :=
  let was := if reply then 0 else stalledOf (s.acceptedCounts c page)
  let kept := reply || (s.parkedCounts c page).any (dueAt false)
  match (s.forget c page).wakeOps (dueAt reply) c page with
  | (_, t) =>
    match t.walkAccepted (dueAt reply) c page with
    | (_, u) => u.modReq c page fun q =>
        { q.walked (u.acceptedCounts c page) was with replied := if kept then some true else q.replied }

/-! ### Unresolvable pages (R331) -/

/-- The record of a discarded logged write (R331, R377). -/
def State.logDiscard (s : State) (p : Parked) (addr : Nat) : State :=
  s.ctxLog { s.recOf p.warp 0x0B with
    code := 0x13, ctx := p.ctx, vf := s.ctxVf p.ctx, slice := s.ctxSlice p.ctx, pc := p.pc.toNat, addr := addr }

/-- The issuing warp takes PAGE-FAULT at its next release (R331). -/
def State.faultLater (s : State) (p : Parked) (addr : Nat) : State :=
  let fr : FaultRec := { code := 0x13, fpc := p.pc, async := true, addr := .ofNat 48 addr }
  s.modWarp p.warp fun w => { w with drainFaults := w.drainFaults ++ [fr] }

/-- A destination receives a free value: the atomic that was to give it an old one is discarded (R331; log entry 37). -/
def State.freeOpd (s : State) (w : Nat) (dst : Opd) (n lane : Nat) : State :=
  let x := (List.range n).foldl (fun y k => y + (Config.freeWord (s.freeCtr + k)).toNat * 2 ^ (32 * k)) 0
  { s.modWarp w fun y => y.wopd dst n lane x with freeCtr := s.freeCtr + n }

/-- End a parked access whose page cannot be resolved (R331). -/
def State.dropOne (s : State) (p : Parked) : State :=
  let t := s.unpark p
  match p.kind with
  | .copyRead n u va => t.copyFail n u 0x13 (.ofNat 48 va, 0, 0)
  | .local _ _ key bytes =>
    let a := offOf .plinth ((bytes.head?.map (·.1)).getD key)
    (t.logDiscard p a).faultLater p a
  | .localAtomic _ _ key _ ty _ _ dst lane =>
    ((t.logDiscard p (offOf .plinth key)).faultLater p (offOf .plinth key)).freeOpd p.warp dst ty.regs lane
  | .write va bytes org =>
    let a := va + (bytes.head?.map (·.1)).getD 0
    let t1 := t.logDiscard p a
    match org with
    | .store | .heap => t1.faultLater p a
    | .copyWrite n u => t1.copyFail n u 0x13 (.ofNat 48 a, 0, 0)
    | .flush op =>
      match tfind t1.ops op with
      | some o => t1.opFault op o 0x13 (.ofNat 48 a)
      | none => t1
    | .unmap =>
      let fr : FaultRec := { code := 0x13, fpc := p.pc, addr := .ofNat 48 a }
      t1.modWarp p.warp fun w => { w with unmapFault := w.unmapFault.or (some fr) }
    | .exitWriteBack | .stopWriteBack _ | .status | .heal _ => t1

/-- The blocked groups of a warp that wait for a page: code pointer, lanes and the address of the first. -/
def Warp.pageGroups (w : Warp) (c page : Nat) : List (Word × List Nat × Nat) :=
  let ls := allLanes.filter fun l => ((w.th l).waitsPage c page).isSome
  ((ls.map fun l => (w.th l).cp).eraseDups).map fun k =>
    let g := ls.filter fun l => (w.th l).cp == k
    (k, g, match (w.th (g.headD 0)).waitsPage c page with | some (va, _) => va | none => page)

/-- A blocked warp takes PAGE-FAULT at the parked access of each entry (R331). -/
def State.faultPage (s : State) (c page : Nat) : List Nat → State
  | [] => s
  | w :: r =>
    (((s.warp w).pageGroups c page).foldl (fun t (k, ls, va) =>
      let still := ls.filter fun l => (((t.warp w).th l).waitsPage c page).isSome
      if still.isEmpty then t
      else (t.modWarp w fun y => y.modThs still fun _ h => { h with rcnt := 0 }).raise w still
        (precise 0x13 k (still.headD 0) 0 (.ofNat 48 va))) s).faultPage c page r

/-- Refuse a grid whose parameter image cannot be read any more: no block of it has started. -/
def State.refuseGrid (s : State) (gid : Nat) : State :=
  let g := s.grid gid
  let s1 : State := { s with admitQ := s.admitQ.filter fun (_, _, n) => n != gid }
  let s2 := (s1.modGrid gid fun y => { y with st := .retired, code := 0x13 }).setStatus g.ctx g.recVa 0x13 2 16
  let s3 := ((s2.complete g 0x13 2).logRefusedGrid g 0x13 16).idle g.ctx
  match g.parent with
  | some b => s3.childGone b
  | none => s3

/-- The operations whose window fill waits for a page end in PAGE-FAULT (R135, R331). -/
def State.dropOps (s : State) (c page : Nat) : State :=
  (s.opsFor c page).foldl (fun t (n, _) =>
    match tfind t.ops n with
    | some o => t.opStop n o { code := 0x13, addr := .ofNat 48 page } o.kind.outs
    | none => t) s

/-- The FREE at the head of Q_JOINTER fails with PAGE-FAULT (R125, R331; log entry 51). -/
def State.dropFree (s : State) : State :=
  match s.jointerQ with
  | [] => s
  | k :: r =>
    let t : State := { s with jointerQ := r }
    (t.ctxLog (k.failRec t 0x13 (refAddr (k.word 2 + k.word 3 * 2 ^ 32)))).engineDone k

/-- Operations, launches and a FREE that wait on a page end (R331, R337). -/
def State.dropAccepted (s : State) (c page : Nat) : State :=
  let ls := s.launchesFor c page
  let s1 := ls.foldl (fun t (q, d) => t.refuseLaunch q 0x13 d) (s.dropOps c page)
  if (s1.freeWaits c page).isSome then s1.dropFree else s1

/-- A warp whose instruction stalls at issue for a page takes PAGE-FAULT at it (R331). -/
def State.faultAsks (s : State) (c page : Nat) : List Nat → State
  | [] => s
  | w :: r =>
    let mine := (s.warp w).asks.filter fun a => a.ctx == c && a.page == page
    let t := s.modWarp w fun y => { y with asks := y.asks.filter fun a => !mine.contains a }
    (mine.foldl (fun u a =>
      match if u.portServes w c page a.wr then [] else (u.warp w).entLanes a.cp with
      | [] => u
      | l :: ls => u.raise w (l :: ls) (precise 0x13 a.cp l 0 (.ofNat 48 page))) t).faultAsks c page r

/-- End everything that waits on a page (R331).  The tag is free before a launch is refused: the status of one whose own page it is
asks for the page anew (R313). -/
def State.dropPage (s : State) (c page : Nat) : State :=
  let gs := s.imagesFor c page
  let ns := s.startsFor c page
  let s0 := ((s.parkedFor c page).foldl (fun t p => t.dropOne p) s).endRequest c page
  let s1 := s0.faultPage c page (s0.warps.map (·.1))
  let s2 := s1.faultAsks c page (s1.warps.map (·.1))
  let s3 := s2.dropAccepted c page
  let s4 := gs.foldl (fun t g => t.refuseGrid g) s3
  ns.foldl (fun t (n, va) => (t.modCmd n fun k => { k with started := true }).copyFail n 0 0x13 (.ofNat 48 va, 0, 0)) s4

/-! ### Replies (R327, R331, R332) -/

/-- A page waits for something of a saved block. -/
def State.pageHeld (s : State) (c page : Nat) : Bool :=
  s.parked.any (fun p => p.ctx == c && p.page == page && p.ofWarp && (s.wblk p.warp).st == .saved) ||
    s.warps.any fun (_, w) => (s.blk w.block).st == .saved && allLanes.any fun l => ((w.th l).waitsPage c page).isSome

/-- The context of a page is saved, or something that waits for it has not returned (R327). -/
def State.replyHeld (s : State) (q : PageReq) : Bool := s.stopped q.ctx || s.pageHeld q.ctx q.page

/-- A walk of the device for the request of a page (R327, R332). -/
def State.rewalk (s : State) (q : PageReq) (reply : Bool) : State :=
  (if s.replyHeld q then s.replayHeld q.ctx q.page reply else s.replayPage q.ctx q.page reply).endAllStopped

/-- A reply to the request of a page; while its context is saved, or what waits for it has not returned, it is recorded
(R327). -/
def State.reply (s : State) (q : PageReq) (ok : Bool) : State :=
  if ok then s.rewalk q true
  else if s.replyHeld q then (s.dropAccepted q.ctx q.page).modReq q.ctx q.page fun y => { y with replied := some false }
  else (s.dropPage q.ctx q.page).endAllStopped

/-- A teardown of the context is pending (R367). -/
def State.scrubbing (s : State) (c : Nat) : Bool := s.scrubs.any fun k => k.ctx == c

/-- PAGE_REQUEST_REPLY (R331, R367, R373). -/
def execPageRequestReply (fn : Nat) (val : BitVec 32) (s : State) : Out :=
  let x := val.toNat
  if s.dev.stage != 3 then .next s
  else if s.dev.tripped || 2 ≤ bits x 16 16 then .next (s.ignored fn 0x158)
  else
    match s.pageReqs.find? fun q => q.fn == fn && q.tag == some (bits x 0 16) with
    | none => .next (s.ignored fn 0x158)
    | some q => .next (if s.scrubbing q.ctx then s.ignored fn 0x158 else s.reply q (bits x 16 1 == 0))

/-- REPLAY_REWALK (R332): the device walks again by itself at counts 1 and 2. -/
def execReplayRewalk (ctx page : Nat) (s : State) : Out :=
  match s.pageReqs.find? fun q => q.ctx == ctx && q.page == page with
  | none => .next s
  | some q => .next (if q.rewalk then s.rewalk q false else s)

/-! ### Invalidation by the host (R324, R325) -/

/-- A write of `INVCTL` (R325): ignored and logged while busy; a command with a reserved or out-of-range value does
nothing. -/
def State.invCommand (s : State) (val : Nat) : State :=
  let d := s.dev
  let c := bits val 0 10
  let base := bits d.invva.toNat 0 48
  let size := invSize (bits d.invva.toNat 48 2)
  let refuse : State := { s with dev := { d with invErr := true } }
  let go (t : State) (confirm : Bool) : State :=
    { t with dev := { t.dev with invBusy := true, invErr := false, invCmd := some (confirm, c) } }
  if !s.hostTaken then s
  else if d.invBusy then s.ignored 0 0x20C
  else if bits val 10 6 != 0 || bits val 18 14 != 0 then refuse
  else
    match bits val 16 2 with
    | 1 =>
      if (invFault base size d.invcnt.toNat (bits d.invva.toNat 50 14 != 0)).isSome then refuse
      else go (s.invMark c base (size * d.invcnt.toNat)) false
    | 2 => go s true
    | _ => refuse

/-- INV_MARK_COMMAND (R324). -/
def execInvMarkCommand (val : BitVec 32) (s : State) : Out := .next (s.invCommand val.toNat)

/-- INV_CONFIRM_COMMAND (R324). -/
def execInvConfirmCommand (val : BitVec 32) (s : State) : Out := .next (s.invCommand val.toNat)

/-- INVALIDATION_DONE (R324, R325): a confirm waits until every write under a marked translation is visible, and drops the
draining translations; after a trip the command stays pending (R373). -/
def execInvalidationDone (s : State) : Out :=
  match s.dev.invCmd with
  | none => .next s
  | some (confirm, c) =>
    if s.dev.tripped || confirm && s.markedWrites c then .next s
    else
      let t := if confirm then s.invConf c else s
      .next { t with dev := { t.dev with invBusy := false, invCmd := none } }

end Sys2Proof.Machine
end

