-- ==== Sys2Proof/Machine/Context.lean ====
section
/-! DEFINITION. Pre-emption: saving and restoring a context (R43, R57, R123, R144, R334 to R340). -/

namespace Sys2Proof.Machine

/-! ### What belongs to a context -/

/-- The blocks of a context that hold what they were given, with their numbers. -/
def State.ctxBlocks (s : State) (c : Nat) : List Nat :=
  (s.blocks.filter fun (_, b) => (s.grid b.grid).ctx == c && b.holds).map (·.1)

/-- The gangs of a context that have such a block. -/
def State.ctxGangs (s : State) (c : Nat) : List Nat :=
  ((s.ctxBlocks c).map fun b => (s.blk b).gang).eraseDups

/-- The warps of a context. -/
def State.ctxWarps (s : State) (c : Nat) : List Nat := (s.ctxBlocks c).flatMap fun b => (s.blk b).warps

/-! ### The size of an image (R338) -/

/-- The warps of a block that have not retired: a retired one leaves nothing in an image (R338). -/
def State.liveWarps (s : State) (b : Nat) : List Nat := (s.blk b).warps.filter fun w => !(s.warp w).retired

/-- A unit whose side log counts in the size of an image (R338): a heap port, a map unit or a channel. -/
def XUnit.inImage : XUnit → Bool
  | .heapPort _ | .mapUnit _ | .chan _ => true
  | .jointer | .sander | .link => false

/-- Bytes of the image of one block. -/
def State.blockBytes (s : State) (b : Nat) : Nat :=
  let k := s.blk b
  let g := s.grid k.grid
  65536 + (g.warpsPer * g.warpReg + k.dynReg) * 1024 + g.f 416 19 + k.tiles.length * 49152 +
    32 * g.spill * (s.liveWarps b).length + k.units.length * Config.unitBytes

/-- Bytes a save area must hold (R338). -/
def State.imageBytes (s : State) (c : Nat) : Nat :=
  let mine := s.parked.filter fun p => p.ctx == c && p.unit.inImage
  let logs := ((mine.filter Parked.counted).map (·.unit)).eraseDups.length
  let lists := ((mine.filter fun p => !p.isLog).map (·.unit)).eraseDups.length
  let held := (s.blocks.filter fun (_, b) => (s.grid b.grid).ctx == c && b.st == .held).length
  (s.ctxBlocks c).foldl (fun t b => t + s.blockBytes b) (held * 65536 + logs * 5120 + lists * 4096)

/-! ### Saving (R337) -/

/-- A blocked thread of a stopping warp: one that waits for parked data, for a fill or at the barrier returns to its region
start (R337 step 2); while a thread of the warp is in handler mode it stays blocked until `RTE` (R342). -/
def Thread.unblock (handler : Bool) (t : Thread) : Thread :=
  match t.st with
  | .blocked (.page _ _ _) | .blocked (.fillPage _ _) | .blocked (.heapEntry _ _) =>
    { t with st := if handler && !t.hmode then .blocked .handler else .live, cp := t.rcp, rcnt := 0 }
  | _ => t

/-- The entry point that a thread stands at has still to be checked by a fetch (R165). -/
def Warp.unchecked (w : Warp) (l : Nat) : Bool :=
  (w.th l).check || (w.th l).live && (w.entry (w.th l).cp).check

/-- A warp stops: what it waits for at issue is dropped, and its barrier arrivals are not kept (R234, R337).  An `HNEW` that has
placed its objects goes on with them when the warp runs again (log entry 85). -/
def Warp.halt (w : Warp) : Warp :=
  let w1 : Warp :=
    { w with
      yielding := false
      acqWait := false
      acqRefused := []
      wpWait := none
      bar := none
      gbar := none
      drainTo := none
      hold := w.newAt.map (·.cp)
      asks := []
      heapWaits := [] }
  (w1.modThs allLanes fun l t => { t.unblock w.inHandler with check := w1.unchecked l }).place allLanes

/-- A flush is under way: it has bytes still to write back, or some of them stand in a side log. -/
def State.flushing (s : State) (n : Nat) (o : AsyncOp) : Bool :=
  match o.kind with
  | .wflush rest => !rest.isEmpty || s.flushParked n
  | _ => false

/-- A flush under way that its warp issues again when it resumes: the lanes that issued it still start their region before it
(R232). -/
def State.reissues (s : State) (n : Nat) (o : AsyncOp) : Bool :=
  s.flushing n o && o.starts.all fun (l, k) => ((s.warp o.warp).th l).present && ((s.warp o.warp).th l).rcp == k

/-- The flushes of a context that are issued again are dropped: their flags are released, and the bytes they have not written
back stay dirty (R232, R256; log entry 63). -/
def State.dropFlushes (s : State) (c : Nat) : State :=
  (s.ops.filter fun (n, o) => s.wctx o.warp == c && s.reissues n o).foldl (fun t (n, o) =>
    { t.modWarp o.warp fun w => w.flagsDown [] o.flags with ops := terase t.ops n }) s

/-- Steps 1 and 2 of R337: issue stops, requests and waiting operations are withdrawn, and what has not been performed is
dropped. -/
def State.halt (s : State) (c : Nat) : State :=
  let ws := s.ctxWarps c
  let bs := s.ctxBlocks c
  let s := s.dropFlushes c
  { s.modCtx c fun y => { y with saving := true, restoring := false } with
    warps := ws.foldl (fun t w => tmod {} t w Warp.halt) s.warps
    dqWaits := s.dqWaits.filter fun d => !ws.contains d.warp
    clusters := s.clusters.map fun (n, k) => (n, k.withdraw ws bs) }

/-- Nothing of a launch request is left to complete: a queued entry of a ring stays queued, and one that a warp has pushed is
decided first (R242, R256, R337). -/
def LaunchReq.done (q : LaunchReq) : Bool := q.child.isNone

/-- The accepted operations of a context have completed, copy commands apart (R337 step 3): a flush that is not issued again
stays pending, and goes on after the restore (R232; log entry 63). -/
def State.settled (s : State) (c : Nat) : Bool :=
  let mine (w : Nat) : Bool := s.wctx w == c
  s.ops.all (fun (n, o) => !mine o.warp || s.flushing n o) && s.launchQ.all (fun q => q.ctx != c || q.done) &&
    s.jointerQ.all (fun e => e.ctx != c) && s.sanderQ.all (fun e => e.ctx != c) &&
    s.clusters.all (fun (_, k) => k.notes.all fun n => !mine n.warp) &&
    (s.ctxBlocks c).all fun b => (s.blk b).chans.all fun n => (s.chan n).queue.all fun k => k.peers.isEmpty

/-- The entries of a byte memory in a range, by offset. -/
def slice {α : Type} (m : List (Nat × α)) (k n : Nat) : List (Nat × α) :=
  m.filterMap fun (a, x) => if k ≤ a && a < k + n then some (a - k, x) else none

/-- The marks in a range, by offset. -/
def marksIn (l : List Nat) (k n : Nat) : List Nat := l.filterMap fun a => if k ≤ a && a < k + n then some (a - k) else none

/-- The image of a block (R338). -/
def State.imageOf (s : State) (b : Nat) : BlockImg :=
  let k := s.blk b
  let g := s.grid k.grid
  let c := clusterOf k.core
  let chip := s.chipOf c * 2 ^ 31
  let sh := k.core * 2 ^ 19 + k.shBase
  let at_ (u : Nat) : Nat := chip + s.unitOff c u
  { shared := slice s.shared sh (g.f 416 19)
    tiles := k.tiles.map fun (z, p, _) => (z, slice s.tiles ((8 * k.core + p) * tileWords) tileWords)
    units := k.units.map fun (u, _) => (u, slice s.plinth (at_ u) Config.unitBytes)
    spill := (s.liveWarps b).map fun w => (w, slice s.plinth (chip + (s.warp w).spillBase) (32 * g.spill))
    badShared := marksIn s.poisonShared (sh / 4) ((g.f 416 19 + 3) / 4)
    badTiles := k.tiles.flatMap fun (z, p, _) => (marksIn s.poisonTile ((8 * k.core + p) * tileWords) tileWords).map fun a => (z, a)
    badSpill := (s.liveWarps b).flatMap fun w =>
      (marksIn s.poisonPlinth ((chip + (s.warp w).spillBase) / 64) ((32 * g.spill + 63) / 64)).map fun a => (w, a)
    badUnits := k.units.flatMap fun (u, _) => (marksIn s.poisonPlinth (at_ u / 64) (Config.unitBytes / 64)).map fun a => (u, a)
    chans := k.chans.map s.chan }

/-- What saved units are numbered by, beyond every unit of the device: nothing of theirs counts against a unit. -/
def savedTag (b : Nat) : Nat := 2 ^ 20 * (b + 1)

/-- A channel number inside a parked access. -/
def ParkedKind.onChan (f : Nat → Nat) : ParkedKind → ParkedKind
  | .write va bytes (.copyWrite n u) => .write va bytes (.copyWrite (f n) u)
  | .copyRead n u va => .copyRead (f n) u va
  | k => k

/-- The unit that holds a parked access. -/
def XUnit.map (core cluster chan : Nat → Nat) : XUnit → XUnit
  | .heapPort n => .heapPort (core n)
  | .mapUnit n => .mapUnit (cluster n)
  | .chan n => .chan (chan n)
  | u => u

/-- The side-log entries of a block leave their units with it (R338). -/
def Parked.away (p : Parked) (b : Nat) : Parked :=
  let t := savedTag b
  { p with unit := p.unit.map (t + ·) (t + ·) (t + ·), kind := p.kind.onChan (t + ·) }

/-- Keys of the windows of saved blocks lie beyond every key of the Plinth. -/
def windowAway : Nat := 2 ^ 60

/-- Save one block: its image is taken and everything it held is free. -/
def State.saveBlock (s : State) (b : Nat) : State :=
  let k := s.blk b
  let c := clusterOf k.core
  let s1 := s.modBlk b fun y => { y with st := .saved, img := some (s.imageOf b) }
  let s2 := k.chans.foldl (fun t n => t.modChan n fun _ => {}) s1
  let s3 : State := { s2 with
    parked := s2.parked.map fun p => if p.ofWarp && (s.warp p.warp).block == b then p.away b else p
    windows := s2.windows.map fun (i, y) =>
      (i, if y.block == b then { y with base := y.base + windowAway, limit := y.limit + windowAway } else y) }
  let s4 := k.units.foldl (fun t (u, _) =>
    t.clearRaces .plinth (s.chipOf c * 2 ^ 31 + s.unitOff c u) Config.unitBytes) s3
  (s4.clearRaces .shared (k.core * 2 ^ 19 + k.shBase) ((s.grid k.grid).f 416 19)).dropAlloc k.core

/-- The release of all that a gang was allocated, at the end of its arbiter's input queue (R47). -/
def State.queueRelease (s : State) (gg : Nat) : State :=
  let g := s.gang gg
  s.modCluster g.cluster fun k => { k with queue := k.queue ++ [.release gg g.alloc true] }

/-- Save one gang: its row goes to the arbiter as a release, and its bound registers keep their values (R47, R146, R338). -/
def State.saveGang (s : State) (gg : Nat) : State :=
  let g := s.gang gg
  let s1 := ((g.blocks.filter fun b => (s.blk b).holds).foldl (fun t b => t.saveBlock b) s).modGang gg fun y =>
    { y with st := .saved }
  { s1.queueRelease gg with bndMsgs := s1.bndMsgs.filter fun (h, _, _, _) => h != gg }

/-- The device is done with a context command: `BUSY` clears. -/
def State.ctxDone (s : State) : State := { s with dev := { s.dev with ctxBusy := false } }

/-- The image of a context is written to its save area: R338 gives no layout, so that every byte is a free value (log
entry 63). -/
def State.writeImage (s : State) (c : Nat) : State :=
  s.putFor c ((List.range (s.imageBytes c)).map fun i => (s.ctxF c 88 40 * 4096 + i, Config.imageByte s.time i))

/-- CONTEXT_SAVE_COMPLETE (R337 step 4, R338): once accepted operations have completed. -/
def execContextSaveComplete (ctx : Nat) (s : State) : Out :=
  let y := s.ctx ctx
  if !s.dev.ctxBusy || !y.saving || y.restoring || s.ctxState ctx != 3 || !s.settled ctx then .next s
  else
    let t := (s.ctxGangs ctx).foldl (fun t g => t.saveGang g) (s.writeImage ctx)
    .next (t.setCtxState ctx 2).ctxDone

/-! ### Restoring (R339) -/

/-- A displacement of offsets: of shared memory, and of Plinth ranges given by start, length and new start. -/
structure Rebase where
  sharedBy : Int
  plinth : List (Nat × Nat × Nat)

/-- The displacement of a Plinth offset, by the range it lies in; an end of a range counts when no range begins there. -/
def Rebase.at_ (r : Rebase) (off : Nat) : Int :=
  match r.plinth.find? fun (a, n, _) => a ≤ off && off < a + n with
  | some (a, _, b) => (b : Int) - a
  | none =>
    match r.plinth.find? fun (a, n, _) => a + n == off with
    | some (a, _, b) => (b : Int) - a
    | none => 0

/-- Rebase a bounded register (R339 step 3). -/
def Rebase.reg (r : Rebase) (k : Bounded) : Bounded :=
  let d := match k.sp with
    | some .shared => r.sharedBy
    | some .plinth => r.at_ k.base.toNat
    | none => 0
  let mv (x : Word) : Word := .ofNat 32 (unsigned 32 (x.toNat + d))
  { k with ptr := mv k.ptr, base := mv k.base, limit := mv k.limit }

/-- Rebase what a convergence register recorded. -/
def Rebase.conv (r : Rebase) (k : Conv) : Conv :=
  let b := r.reg k.bk
  { k with bk := b, addr := k.addr + ((b.ptr.toNat : Int) - k.bk.ptr.toNat) }

/-- Cores for blocks in rank order: each takes the lowest core above the last that has room for what it holds (R318). -/
def State.pickCores (s : State) (c : Nat) : Nat → List Nat → Option (List Nat)
  | _, [] => some []
  | lo, b :: r =>
    let g := s.grid (s.blk b).grid
    match ((List.range 8).drop lo).find? fun i => s.coreRoom g (s.allocOf b) (8 * c + i) with
    | none => none
    | some i => (s.pickCores c (i + 1) r).map fun l => (8 * c + i) :: l

/-- The lowest place of the gang's run of static units at which the units of the blocks that return are free: `want` lists
their positions in a run of n (R62). -/
def State.staticRun (s : State) (c n : Nat) (want : List Nat) : Option Nat :=
  (s.runs c n).find? fun u => want.all fun i => s.unitFree c (u + i)

/-- The static units of a gang in rank order: block and unit. -/
def State.staticUnits (s : State) (gg : Nat) : List (Nat × Nat) :=
  (s.gang gg).blocks.flatMap fun b => ((s.blk b).units.filter (·.2)).map fun (u, _) => (b, u)

/-- Give a returning block its core, its shared memory, its tiles, its channels and its dynamic units on a cluster: the old
and new numbers of the units, and none without room. -/
def State.seatBlock (s : State) (b core : Nat) (runs : List (Nat × Nat × Nat)) : Option (List (Nat × Nat) × State) :=
  let k := s.blk b
  let g := s.grid k.grid
  let c := clusterOf core
  let old := (k.units.filter fun (_, st) => !st).map (·.1)
  let fresh := firstFree old.length (s.unitCount c) fun u => s.unitFree c u && !runs.any fun (_, _, v) => v == u
  let units := (k.units.filter (·.2)).map fun (u, _) => ((runs.find? fun (p, o, _) => p == b && o == u).map (·.2.2)).getD u
  let tiles := (k.tiles.zip (firstFree k.tiles.length Config.tilesPerCore (s.tileFree core))).map fun ((z, _, st), p) => (z, p, st)
  let chans := k.chans.map fun n => 16 * c + n % 16
  match s.sharedFit core g with
  | none => none
  | some sh =>
    if fresh.length < old.length || tiles.length < k.tiles.length || chans.any (fun n => (s.chan n).owner.isSome) then none
    else
      let img := k.img.getD {}
      let s1 := (chans.zip img.chans).foldl (fun t (n, h) => t.modChan n fun _ => h) s
      some (old.zip fresh, s1.modBlk b fun y =>
        { y with
          st := .admitted
          core := core
          shBase := sh
          tiles := tiles
          units := units.map (fun u => (u, true)) ++ fresh.map fun u => (u, false)
          chans := chans })

/-- Seat the blocks of a gang in turn. -/
def State.seatAll (s : State) (runs : List (Nat × Nat × Nat)) : List (Nat × Nat) → Option (List (Nat × Nat) × State)
  | [] => some ([], s)
  | (b, core) :: r =>
    match s.seatBlock b core runs with
    | none => none
    | some (m, t) => (t.seatAll runs r).map fun (l, u) => (m ++ l, u)

/-- Carve the spill stacks of a returning block's warps (R64). -/
def State.recarve (s : State) (g : Grid) (chip : Nat) : List Nat → Option State
  | [] => some s
  | w :: r =>
    match fitAt (s.carves chip ++ s.quarSpans chip) s.spillLo s.spillHi (32 * g.spill) 128 with
    | none => none
    | some base => ((s.modWarp w fun y => { y with spillBase := base }).fillCarve chip base (32 * g.spill)).recarve g chip r

/-- The spill stacks of returning blocks stand in no carve's way until they have their own. -/
def State.uncarve (s : State) (bs : List Nat) : State :=
  (bs.flatMap fun b => (s.blk b).warps).foldl (fun t w => t.modWarp w fun y => { y with spillBase := s.spillHi }) s

/-- Carve for every returning block. -/
def State.recarveAll (s : State) (chip : Nat) : List Nat → Option State
  | [] => some s
  | b :: r =>
    let k := s.blk b
    match s.recarve (s.grid k.grid) chip k.warps with
    | none => none
    | some t => t.recarveAll chip r

/-- Write the contents of a block's image to its new place (R339 step 2). -/
def State.loadImg (s : State) (b : Nat) (m : List (Nat × Nat)) : State :=
  let k := s.blk b
  let img := k.img.getD {}
  let c := clusterOf k.core
  let chip := s.chipOf c * 2 ^ 31
  let sh := k.core * 2 ^ 19 + k.shBase
  let unit (u : Nat) : Nat := chip + s.unitOff c (((m.find? fun (o, _) => o == u).map (·.2)).getD u)
  let tile (z : Nat) : Nat := ((k.tiles.find? fun (n, _, _) => n == z).map fun (_, p, _) => (8 * k.core + p) * tileWords).getD 0
  let put (mem : List Host.Cell) (base n : Nat) (l : List (Nat × Byte)) : List Host.Cell :=
    wrList (mem.filter fun (a, _) => !(base ≤ a && a < base + n)) (l.map fun (a, x) => (base + a, x))
  let g := s.grid k.grid
  let plinth1 := img.units.foldl (fun t (u, l) => put t (unit u) Config.unitBytes l) s.plinth
  let carve (w : Nat) : Nat := chip + (s.warp w).spillBase
  let plinth2 := img.spill.foldl (fun t (w, l) => put t (carve w) (32 * g.spill) l) plinth1
  { s with
    shared := put s.shared sh (g.f 416 19) img.shared
    plinth := plinth2
    tiles := img.tiles.foldl (fun t (z, l) =>
      l.foldl (fun u (a, x) => tput 0 u (tile z + a) x) (t.filter fun (a, _) => !(tile z ≤ a && a < tile z + tileWords))) s.tiles
    poisonShared := s.poisonShared.filter (fun a => !(sh / 4 ≤ a && a < (sh + g.f 416 19 + 3) / 4)) ++
      img.badShared.map (sh / 4 + ·)
    poisonTile := s.poisonTile.filter (fun a => !img.tiles.any fun (z, _) => tile z ≤ a && a < tile z + tileWords) ++
      img.badTiles.map fun (z, a) => tile z + a
    poisonPlinth := s.poisonPlinth.filter (fun a =>
        !(img.units.any fun (u, _) => unit u / 64 ≤ a && a < (unit u + Config.unitBytes) / 64) &&
          !(img.spill.any fun (w, _) => carve w / 64 ≤ a && a < carve w / 64 + (32 * g.spill + 63) / 64)) ++
      (img.badUnits.map fun (u, a) => unit u / 64 + a) ++ img.badSpill.map fun (w, a) => carve w / 64 + a }

/-- A parked access of a returning block: back at a unit of its new place, with window keys displaced (R338). -/
def Parked.back (p : Parked) (b core : Nat) (delta : Nat → Int) : Parked :=
  let c := clusterOf core
  let ch (n : Nat) : Nat := 16 * c + (n - savedTag b) % 16
  let mv (i key : Nat) : Nat := (key + delta i).toNat
  let kind := match p.kind.onChan ch with
    | .local i k key bytes => .local i k (mv i key) (bytes.map fun (a, x) => (mv i a, x))
    | .localAtomic i k key o t x c d l => .localAtomic i k (mv i key) o t x c d l
    | k => k
  { p with unit := p.unit.map (fun _ => core) (fun _ => c) ch, kind := kind }

/-- A thread of a returning warp: it resumes at its region start; a thread that waited for a grant issues its `ACQ` again,
and another blocked thread stays blocked (R57, R339 step 4). -/
def Thread.resume (t : Thread) : Thread :=
  match t.st with
  | .live => { t with cp := t.rcp }
  | _ => t

/-- A returning warp. -/
def Warp.resume (w : Warp) : Warp :=
  let acq := w.lanesWhere fun t => t.st == .blocked .acq
  let w1 := (w.modThs allLanes fun _ t => t.resume).place allLanes
  if acq.isEmpty then w1 else w1.wake acq fun _ c => c

/-- Everything a returning block's records name is displaced, its image is loaded, and its warps resume on their
quadrants. -/
def State.landBlock (s : State) (old : Block) (b param : Nat) (m : List (Nat × Nat)) : State :=
  let k := s.blk b
  let g := s.grid k.grid
  let c := clusterOf k.core
  let o := clusterOf old.core
  let ranges := (if g.psize == 0 then [] else [(old.paramBase, g.psize, param)]) ++
    m.map fun (u, v) => (s.unitOff o u, Config.unitBytes, s.unitOff c v)
  let r : Rebase := { sharedBy := (k.shBase : Int) - old.shBase, plinth := ranges }
  let s1 := s.loadImg b m
  let win (y : Window) : Nat :=
    let off := (y.base - windowAway) % 2 ^ 31
    s.chipOf c * 2 ^ 31 + (off + r.at_ off).toNat
  let delta (i : Nat) : Int := (win (s.window i) : Int) - (((s.window i).base - windowAway : Nat) : Int)
  let started := k.warps.any fun w => !(s.warp w).threads.isEmpty
  let qs := s1.quadrants k.core k.warps.length []
  let s2 : State := { s1 with
    windows := s1.windows.map fun (i, y) =>
      (i, if y.block == b then { y with base := win y, limit := win y + (y.limit - y.base), chip := s.chipOf c } else y)
    parked := s1.parked.map fun p => if p.ofWarp && (s.warp p.warp).block == b then p.back b k.core delta else p }
  let s3 := k.chans.foldl (fun t n => t.modChan n fun h =>
    { h with queue := h.queue.map fun q => { q with regs := q.regs.map fun (i, y) => (i, r.reg y) } }) s2
  let s4 := (k.warps.zip qs).foldl (fun t (w, q) => t.modWarp w fun y =>
    let y1 : Warp :=
      { y with
        quadrant := q
        b := y.b.map fun (i, x) => (i, r.reg x)
        c := y.c.map fun (i, x) => (i, r.conv x) }
    if started then y1.resume else y1) s3
  let s5 := s4.modBlk b fun y => { y with st := if started then .resident else .admitted, paramBase := param, img := none }
  let s6 : State := { s5 with cores := tmod {} s5.cores k.core fun y => { y with ranCtx := nins y.ranCtx g.ctx } }
  s6.modCluster c fun y => { y with dispatchQ := if started then y.dispatchQ else y.dispatchQ ++ [b], handed := true }

/-- Bring back a saved gang to a cluster with what it held (R48, R57, R339): none without room or when the test finds it
unsafe. -/
def State.placeSaved (s : State) (gg c : Nat) : Option State :=
  let gang := s.gang gg
  let chip := s.chipOf c
  let bs := gang.blocks.filter fun b => (s.blk b).st == .saved
  let stat := s.staticUnits gg
  let want := (stat.zipIdx.filter fun ((b, _), _) => bs.contains b).map (·.2)
  match s.pickCores c 0 bs, s.staticRun c stat.length want with
  | some cores, some u =>
    let cols := (cores.zip bs).foldl (fun t (k, b) => t.zipWith (· + ·) (columnsOf k (s.allocOf b))) (List.replicate Config.columns 0)
    let claim := (cores.zip bs).foldl (fun t (k, b) =>
      let g := s.grid (s.blk b).grid
      t.zipWith (· + ·) (columnsOf k (if g.cls == 1 then s.allocOf b else g.maxClaim))) (List.replicate Config.columns 0)
    let s1 := s.modGang gg fun y => { y with cluster := c, alloc := List.replicate Config.columns 0, claim := claim }
    let runs := stat.zipIdx.map fun ((b, o), i) => (b, o, u + i)
    if (s.cluster c).gate == .gated || !s1.testRequest gg cols then none
    else
      match (s1.allocate gg cols).placeParam gang.grid chip with
      | none => none
      | some (param, s2) =>
        match s2.seatAll runs (bs.zip cores) with
        | none => none
        | some (dyn, s3) =>
          match (s3.uncarve bs).recarveAll chip bs with
          | none => none
          | some s4 =>
            let g := s.grid gang.grid
            let m := dyn ++ runs.map fun (_, o, n) => (o, n)
            let gone := (gang.blocks.filter fun b => !bs.contains b).foldl (fun t b => t.modBlk b fun y =>
              { y with units := y.units.map fun (o, st) => (((runs.find? fun (p, q, _) => p == b && q == o).map (·.2.2)).getD o, st)
                       core := 8 * c + y.core % 8
                       paramBase := param }) s4
            let s5 := (bs.flatMap fun b => (gone.blk b).units).foldl (fun t (n, _) => t.takeUnit g.ctx c n) gone
            let s6 := bs.foldl (fun t b => t.landBlock (s.blk b) b param m) s5
            some ({ s6 with
              shadows := (List.range 8).foldl (fun t k => (List.range 4).foldl (fun v n =>
                tset v ((8 * gg + k) * 4 + n) (gang.bnd.getD n 0)) t) s6.shadows }.modGang gg fun y => { y with st := .resident })
  | _, _ => none

/-- Perform the replies recorded for a context (R327). -/
def State.replies (s : State) (c : Nat) : State :=
  (s.pageReqs.filter fun q => q.ctx == c && q.replied.isSome).foldl (fun t q =>
    (t.modReq q.ctx q.page fun y => { y with replied := none }).reply q (q.replied == some true)) s

/-- A restore whose every gang has returned ends (R339). -/
def State.restoreEnd (s : State) (c : Nat) : State :=
  if s.gangs.any fun (_, g) => g.st == .saved && (s.grid g.grid).ctx == c then s
  else
    let t := (s.modCtx c fun y => { y with saving := false, restoring := false }).setCtxState c 1
    (t.ctxDone.idle c).replies c

/-- Where a saved gang may return, on the clusters of its context's slice (R339): nowhere yet while the release of its former
row waits for its arbiter (R47). -/
def State.readmitTry (s : State) (gang : Nat) : Option (Option State) :=
  if !(s.gang gang).claim.isEmpty then some none
  else s.tryClusters (s.placeSaved gang) (s.liveClusters (s.ctxSlice (s.grid (s.gang gang).grid).ctx))

/-- GANG_READMISSION (R339): the saved gang returns to the lowest cluster of its slice with room, in any order among the
gangs of its context (log entry 78). -/
def execGangReadmission (gang : Nat) (s : State) : Out :=
  let g := s.gang gang
  let x := s.grid g.grid
  if g.st != .saved || !(s.ctx x.ctx).restoring then .next s
  else
    match (s.readmitTry gang).join with
    | none => .next s
    | some t => .next ((t.replies x.ctx).restoreEnd x.ctx).endAllStopped

/-- The slice has a gang that no ungated cluster has room for: the next of its first grid, one of those that a CONCURRENT
grid is admitted with, or a saved one (R41, R319, R339). -/
def State.wakeWanted (s : State) (sl : Nat) : Bool :=
  (match s.sliceHead sl with
    | some gid =>
      if (s.grid gid).cls == 1 then (s.admitAllTry gid (s.grid gid).nblocks).isNone else (s.admitTry gid).isNone
    | none => false) ||
    s.gangs.any fun (n, g) =>
      let c := (s.grid g.grid).ctx
      g.st == .saved && (s.ctx c).restoring && s.ctxSlice c == sl && (s.readmitTry n).isNone

/-- CLUSTER_WAKE (R319): only when no ungated cluster of the slice has room for a gang that waits. -/
def execClusterWake (cluster : Nat) (s : State) : Out :=
  if (s.cluster cluster).gate == .gated && (List.range 8).any fun sl => s.sliceF sl cluster 1 == 1 && s.wakeWanted sl then
    .next (s.modCluster cluster fun c => { c with gate := .open })
  else .next s

/-! ### The commands (R335) -/

/-- The grids of a context belong to the slice and the function that its record names (R316, R336, R339). -/
def State.reslice (s : State) (c : Nat) : State :=
  let mine (n : Nat) : Bool := (s.grid n).ctx == c
  { s with
    grids := s.grids.map fun (n, g) => (n, if mine n then { g with slice := s.ctxSlice c, vf := s.ctxVf c } else g)
    admitQ := s.admitQ.map fun (k, p, n) => (if mine n then s.ctxSlice c else k, p, n) }

/-- A write of `CTXCMD`: ignored and logged while busy; a refused command does nothing. -/
def State.ctxCommand (s : State) (val : Nat) : State :=
  let c := bits val 0 10
  let d := s.dev
  let refuse : State := { s with dev := { d with ctxErr := true } }
  let begin_ (t : State) : State :=
    { t with dev := { t.dev with ctxBusy := true, ctxErr := false, ctxAbandoned := false } }
  if !s.hostTaken then s
  else if d.ctxBusy then s.ignored 0 0x300
  else if bits val 10 6 != 0 || bits val 18 14 != 0 then refuse
  else
    match bits val 16 2 with
    | 1 =>
      if s.ctxState c != 1 || s.ctxF c 160 32 * 4096 < s.imageBytes c then refuse
      else begin_ ((s.halt c).setCtxState c 3)
    | 2 =>
      if s.ctxState c != 2 then refuse
      else
        let t := ((begin_ (s.setCtxState c 3)).reslice c).modCtx c fun y => { y with saving := true, restoring := true }
        (t.replies c).restoreEnd c
    | _ => refuse

/-- CONTEXT_SAVE (R337). -/
def execContextSave (val : BitVec 32) (s : State) : Out := .next (s.ctxCommand val.toNat)

/-- CONTEXT_RESTORE (R339). -/
def execContextRestore (val : BitVec 32) (s : State) : Out := .next (s.ctxCommand val.toNat)

end Sys2Proof.Machine
end

