-- ==== Sys2Proof/Machine/Deque.lean ====
section
/-! DEFINITION. Steal deques and gang bounds (R142 to R148). -/

namespace Sys2Proof.Machine

/-- A deque descriptor (R142). -/
structure Deque where
  top : Nat
  bottom : Nat
  owner : Word
  logcap : Nat
  valid : Bool
  /-- a reserved bit is 1 -/
  junk : Bool
  deriving DecidableEq, Repr

/-- The descriptor in 64 bytes. -/
def dequeOf (x : Nat) : Deque :=
  { top := bits x 0 32, bottom := bits x 32 32, owner := .ofNat 32 (bits x 64 32), logcap := bits x 96 5
    valid := bits x 127 1 == 1, junk := bits x 101 26 != 0 || bits x 128 384 != 0 }

/-- The 64 bytes of a descriptor. -/
def Deque.code (d : Deque) : Nat :=
  d.top % 2 ^ 32 + d.bottom % 2 ^ 32 * 2 ^ 32 + d.owner.toNat * 2 ^ 64 + d.logcap % 2 ^ 5 * 2 ^ 96 +
    (if d.valid then 2 ^ 127 else 0)

/-- Entries held (R142). -/
def Deque.held (d : Deque) : Nat := (d.bottom + 2 ^ 32 - d.top) % 2 ^ 32
/-- Slots of the ring. -/
def Deque.cap (d : Deque) : Nat := 2 ^ d.logcap
/-- The key of the slot of a count. -/
def Deque.slot (d : Deque) (key i : Nat) : Nat := key + 64 + 16 * (i % d.cap)

/-- Which of the four operations. -/
inductive DqOp where
  | init | push | pop | steal
  deriving DecidableEq, Repr

/-- The effective address of the descriptor (R143). -/
def Warp.dqEa (w : Warp) (f : FM) (l : Nat) : Int := (w.rb f.bx.toNat).ptr.toNat + f.off.toInt + w.opdS f.idx l

/-- `LOGCAP` of `DQINIT`'s operand, unless it is outside 1 to 15 (R145). -/
def dqCap (x : Word) : Option Nat := if 1 ≤ x.toNat ∧ x.toNat ≤ 15 then some x.toNat else none

/-- BOUND of row 4 of R145: the descriptor and its ring lie within the register's range. -/
def State.dqRange (s : State) (x : Ix) (f : FM) (logcap : Nat) : Option FaultRec :=
  let w := s.warp x.w
  let ea := w.dqEa f x.first
  if (w.rb f.bx.toNat).inRange ea (64 + 16 * 2 ^ logcap) then none else some (precise 0x10 x.cp x.first 0 (eaWord ea))

/-- The faults of R145 that ask nothing of the descriptor in memory: rows 2 and 3, and row 4 of `DQINIT`. -/
def State.dqEarly (s : State) (x : Ix) (op : DqOp) (f : FM) : Option FaultRec :=
  let w := s.warp x.w
  let k := w.rb f.bx.toNat
  let ea := w.dqEa f x.first
  let all : Bool := k.r && k.w && k.a
  let need : Need := if all then .load else if k.r then (if k.w then .atomic else .store) else .load
  if op == .init && (dqCap (w.word f.r 0 x.first)).isNone then some (precise cReserved x.cp x.first)
  else if k.sp == some .shared then some (precise 0x10 x.cp x.first 0 (eaWord ea))
  else
    (s.memFault x k need 64 [(x.first, ea)]).or
      (if op == .init then s.dqRange x f ((dqCap (w.word f.r 0 x.first)).getD 0) else none)

/-- The faults of rows 4 and 5 of R145 that judge the descriptor in memory, d: none of `DQINIT`'s. -/
def State.dqLate (s : State) (x : Ix) (op : DqOp) (f : FM) (d : Deque) : Option FaultRec :=
  let w := s.warp x.w
  let at_ (code : BitVec 8) : Option FaultRec := some (precise code x.cp x.first 0 (eaWord (w.dqEa f x.first)))
  if op == .init then none
  else
    (s.dqRange x f d.logcap).or <|
    if d.junk then at_ cReserved
    else if !d.valid || op != .steal && d.owner != w.tag then at_ 0x12
    else none

/-- The faults of a deque instruction, in R145's order from its second row; d is the descriptor in memory. -/
def State.dqFault (s : State) (x : Ix) (op : DqOp) (f : FM) (d : Deque) : Option FaultRec :=
  (s.dqEarly x op f).or (s.dqLate x op f d)

/-- BOUND for an entry in a scratch unit that the block cannot reach (R54, R63): the first of the slots served, with its lane and
address (log entry 54). -/
def State.dqBarred (s : State) (x : Ix) (f : FM) (key : Nat) (served : List (Nat × Nat)) : Option FaultRec :=
  let w := s.warp x.w
  let at_ (slot : Nat) : Int := w.dqEa f x.first + slot - key
  (served.find? fun (_, slot) => s.spanBarred (s.wblk x.w) (w.rb f.bx.toNat).g (at_ slot) 16).map fun (l, slot) =>
    precise 0x10 x.cp l 0 (eaWord (at_ slot))

/-- A stamp of the owner's is met (R144): its `%wdrain` has reached it, or no warp of the context that is resident or saved
has the tag. -/
def State.stampMet (s : State) (c : Nat) (owner : Word) (stamp : Nat) : Bool :=
  s.warps.all fun (n, w) => w.tag != owner || w.retired || s.wctx n != c || stamp ≤ w.wdrain.toNat

/-- The lanes an operation serves, with their slots (R144). -/
def Deque.serves (d : Deque) (op : DqOp) (key : Nat) (lanes : List Nat) : List (Nat × Nat) :=
  let n := match op with
    | .init => 0
    | .push => (d.cap + 2 ^ 32 - d.held) % 2 ^ 32
    | _ => d.held
  ((lanes.take n).zipIdx).map fun (l, i) =>
    (l, d.slot key (match op with
      | .push | .init => d.bottom + i
      | .pop => d.bottom + 2 ^ 32 - 1 - i
      | .steal => d.top + i))

/-- The descriptor after n lanes are served. -/
def Deque.after (d : Deque) (op : DqOp) (n : Nat) : Deque :=
  match op with
  | .init => d
  | .push => { d with bottom := (d.bottom + n) % 2 ^ 32 }
  | .pop => { d with bottom := (d.bottom + 2 ^ 32 - n) % 2 ^ 32 }
  | .steal => { d with top := (d.top + n) % 2 ^ 32 }

/-- The engine writes bytes of a deque: a relaxed atomic access of the issuing warp's (R83). -/
def State.dqWrite (s : State) (w key n x : Nat) : State :=
  (s.recordAcc .plinth key n (s.accOf w true true)).putLocal .plinth (addrs key (bytesOf n x))

/-- A push puts its entries, each with the stamp and the release of R80. -/
def State.dqPut (s : State) (w : Nat) (val : Nat → Nat) (stamp : Nat) : List (Nat × Nat) → State
  | [] => s
  | (l, k) :: r =>
    let s1 := s.dqWrite w k 16 (val l % 2 ^ 64 + stamp * 2 ^ 64)
    let m := s.relMsg w 3 ((s.warp w).vcNow w)
    (s1.putMsgs .plinth 16 k fun _ => [m]).dqPut w val stamp r

/-- A pop or steal takes its entries, and acquires from their pushes (R80, R91). -/
def State.dqTake (s : State) (w : Nat) (dst : Opd) : List (Nat × Nat) → State
  | [] => s
  | (l, k) :: r =>
    let e := s.getLocal .plinth k 8
    let v := s.pairs w 3 (s.msgsAt .plinth 16 k)
    let s1 := s.recordAcc .plinth k 16 (s.accOf w false true)
    (s1.setWarp w (((s1.warp w).wopd dst 2 l e).acquire v)).dqTake w dst r

/-- A waiting operation of a deque stands before an entry's: of another warp, or of another entry of the warp. -/
def State.dqBehind (s : State) (key : Nat) (x : Ix) : Bool :=
  match s.dqWaits.find? fun q => q.key == key with
  | some q => q.warp != x.w || q.cp != x.cp
  | none => false

/-- The operation waits in the queue of its deque, and changes nothing else. -/
def State.dqWait (s : State) (x : Ix) (i : Instr) (key : Nat) : Res :=
  if s.dqWaits.any fun q => q.key == key && q.warp == x.w && q.cp == x.cp then .keep s
  else .keep { s with dqWaits := (s.dqLeave x.w x.ent).dqWaits ++ [{ key := key, warp := x.w, instr := i, cp := x.cp }] }

/-- The operation is performed: it leaves the queue, closes the region and starts a new restart region (R78, R144). -/
def State.dqDone (s : State) (x : Ix) : Res := .adv (((s.dqLeave x.w x.ent).boundary x).restart x x.ent)

/-- Perform an operation whose stamps are met (R144). -/
def State.dqRun (s : State) (x : Ix) (op : DqOp) (f : FM) (d : Deque) (key : Nat) (served : List (Nat × Nat)) : Res :=
  let w := s.warp x.w
  match op with
  | .init =>
    let e : Deque := { top := 0, bottom := 0, owner := w.tag, logcap := (w.word f.r 0 x.first).toNat, valid := true, junk := false }
    (s.dqWrite x.w key 64 e.code).dqDone x
  | _ =>
    let s1 := if op == .push then s.dqPut x.w (fun l => w.opd f.r 2 l) w.wissue.toNat served else s.dqTake x.w f.r served
    let s2 := if served.isEmpty then s1.recordAcc .plinth key 64 (s1.accOf x.w false true)
      else s1.dqWrite x.w key 64 (d.after op served.length).code
    (s2.writeP x false f.pd fun l => served.any fun p => p.1 == l).dqDone x

/-- A deque instruction whose descriptor has passed its checks: the fills, races, poison and stamps of its entries, then the
operation.  One that waits is not yet accepted: the races it would log are logged when it is performed (R144). -/
def State.dqServe (s : State) (x : Ix) (i : Instr) (op : DqOp) (f : FM) (d : Deque) (key : Nat) : Res :=
  let w := s.warp x.w
  let served := d.serves op key x.lanes
  match s.fillNeed x.w (key :: served.map (·.2)) 16 with
  | .wait t => .keep t
  | .absent l => (s.dqLeave x.w x.ent).blockOnChunk x l
  | .filled =>
    let write : Bool := op == .init || !served.isEmpty
    match s.raceCheck x .plinth 64 [(x.first, key)] (fun _ => write) true with
    | .error r => .raise s r
    | .ok s1 =>
      match s1.raceCheck x .plinth 16 served (fun _ => op == .push) true with
      | .error r => .raise s1 r
      | .ok s2 =>
        let poisoned := if op == .init then none
          else (s2.poisonFault x .plinth 64 [(x.first, key)]).or
            (if op == .push then none else s2.poisonFault x .plinth 16 served)
        match poisoned with
        | some r => .raise s2 r
        | none =>
          let met := op == .push || served.all fun p =>
            s2.stampMet (s2.wctx x.w) d.owner (s2.getLocal .plinth (p.2 + 8) 8)
          match if op == .pop && !served.isEmpty then w.drainFaults else [] with
          | r :: rest =>
            .raise (s2.modWarp x.w fun y => { y with drainFaults := rest }) { r with rpc := x.cp }
          | [] => if s2.dqBehind key x || !met then s.dqWait x i key else s2.dqRun x op f d key served

/-- A deque instruction for an entry: its faults, the fill of its descriptor's chunk before the descriptor is judged (R67,
R145), its place in the deque's queue, its stamps, then the operation.  One that faults, or blocks on a page, leaves the
queue. -/
def State.dqAct (s : State) (x : Ix) (i : Instr) (op : DqOp) (f : FM) : Res :=
  let key := s.keyOf x.w .plinth ((s.warp x.w).dqEa f x.first).toNat
  if x.lanes.isEmpty then .adv (s.boundary x)
  else
    match s.dqEarly x op f with
    | some r => .raise s r
    | none =>
      match s.fillNeed x.w [key] 64 with
      | .wait t => .keep t
      | .absent l => (s.dqLeave x.w x.ent).blockOnChunk x l
      | .filled =>
        let d := dequeOf (s.getLocal .plinth key 64)
        match (s.dqLate x op f d).or (s.dqBarred x f key (d.serves op key x.lanes)) with
        | some r => .raise s r
        | none => s.dqServe x i op f d key

/-- `DQINIT` (R144). -/
def execDqinit (c : Common) (f : FM) (s : State) : Out :=
  s.issue false (.dqinit c f) fun x t => t.dqAct x (.dqinit c f) .init f

/-- `DQPUSH` (R144). -/
def execDqpush (c : Common) (f : FM) (s : State) : Out :=
  s.issue false (.dqpush c f) fun x t => t.dqAct x (.dqpush c f) .push f

/-- `DQPOP` (R144). -/
def execDqpop (c : Common) (f : FM) (s : State) : Out :=
  s.issue false (.dqpop c f) fun x t => t.dqAct x (.dqpop c f) .pop f

/-- `DQSTEAL` (R144). -/
def execDqsteal (c : Common) (f : FM) (s : State) : Out :=
  s.issue false (.dqsteal c f) fun x t => t.dqAct x (.dqsteal c f) .steal f

/-- The operation and the fields of a deque instruction. -/
def dqParts : Instr → Option (DqOp × Common × FM)
  | .dqinit c f => some (.init, c, f)
  | .dqpush c f => some (.push, c, f)
  | .dqpop c f => some (.pop, c, f)
  | .dqsteal c f => some (.steal, c, f)
  | _ => none

/-- DEQUE_STAMP_MET (R144): the waiting operation of a warp's chosen entry issues again, as any instruction does, once the entry
has entered its line; it changes nothing while it still has to wait, and one whose slot holds it no more is withdrawn. -/
def execDequeStampMet (warp : Nat) (s : State) : Out :=
  match s.dqWaits.find? fun q => q.warp == warp && (s.warp warp).choice == some q.cp with
  | none => .next s
  | some q =>
    let e := (s.warp warp).entry q.cp
    match dqParts q.instr, s.pick warp ((dqParts q.instr).elim .always fun p => p.2.1.grd) with
    | some (op, _, f), some x =>
      if !s.mayIssue warp || !e.entered then .next s
      else if decode (lineSlot e.line (cpSlot q.cp)) != .ok q.instr then .next (s.dqLeave warp x.ent)
      else
        match s.issueAt false x q.instr fun y t => t.dqAct y q.instr op f with
        | .keep _ => .next s
        | r => .next (State.settle x r)
    | _, _ => .next s

/-! ### Gang bounds (R146 to R148) -/

/-- What a bound holds at gang admission (R146). -/
def bndInit : DWord := 0x7FF0000000000000

/-- A type of R147 ranks its values: none is a NaN, which is ignored. -/
def bndRank (t : Nat) (x : DWord) : Option Int :=
  match t with
  | 0 => some x.toNat
  | 1 => some x.toInt
  | _ =>
    let m : Nat := x.toNat % 2 ^ 63
    if 0x7FF0000000000000 < m then none else if x.toNat < 2 ^ 63 then some m else some (-(m : Int) - 1)

/-- The lane with the least value of the listed ones, the first of equals, with its rank. -/
def bndLeast (t : Nat) (val : Nat → DWord) : List Nat → Option (Nat × Int)
  | [] => none
  | l :: r =>
    match bndRank t (val l), bndLeast t val r with
    | none, q => q
    | some a, none => some (l, a)
    | some a, some (m, b) => if b < a then some (m, b) else some (l, a)

/-- The key of a core's shadow of a bound. -/
def shadowKey (gang core n : Nat) : Nat := (8 * gang + core % 8) * 4 + n

/-- The cores of a gang's blocks other than one. -/
def State.otherCores (s : State) (gang core : Nat) : List Nat :=
  (((s.gang gang).blocks.map fun b => (s.blk b).core % 8).eraseDups).filter (· != core)

/-- The value of a bound reaches the shadow of the core that issued the `BNDMIN`; what was on its way to it is older (R148). -/
def State.bndSee (s : State) (gang core n : Nat) (x : DWord) : State :=
  { s with
    shadows := tset s.shadows (shadowKey gang core n) x
    bndMsgs := s.bndMsgs.filter fun (g, c, m, _) => !(g == gang && c == core && m == n) }

/-- Lower a bound: the master copy and the issuing core's shadow at once, the other shadows by messages (R148). -/
def State.bndLower (s : State) (gang core n : Nat) (x : DWord) : State :=
  let s1 := (s.modGang gang fun g => { g with bnd := g.bnd.set n x }).bndSee gang core n x
  { s1 with bndMsgs := s1.bndMsgs ++ (s1.otherCores gang core).map fun c => (gang, c, n, x) }

/-- `BNDMIN` (R147, R148): the bound, lowered or not, reaches the issuing core's shadow. -/
def execBndmin (c : Common) (f : FS) (s : State) : Out :=
  s.issue false (.bndmin c f) fun x t =>
    let w := t.warp x.w
    let n := modBits f.mod 0 2
    let ty := modBits f.mod 2 2
    let val (l : Nat) : DWord := .ofNat 64 (w.opd f.a 2 l)
    let b := t.wblk x.w
    let old := (t.gang b.gang).bnd.getD n bndInit
    if x.lanes.isEmpty then .adv t
    else
      match bndLeast ty val x.lanes with
      | none => .adv ((t.writeP x false f.pd fun _ => false).restart x x.ent)
      | some (l, a) =>
        let lower := match bndRank ty old with
          | none => true
          | some o => a < o
        let t1 := if lower then t.bndLower b.gang (b.core % 8) n (val l) else t.bndSee b.gang (b.core % 8) n old
        .adv ((t1.writeP x false f.pd fun k => lower && k == l).restart x x.ent)

/-- `BNDRD` (R147, R148): the local shadow. -/
def execBndrd (c : Common) (f : FS) (s : State) : Out :=
  s.issue false (.bndrd c f) fun x t =>
    let b := t.wblk x.w
    .adv (t.writeD x c.u f.d 2 fun _ =>
      (tget bndInit t.shadows (shadowKey b.gang b.core (modBits f.mod 0 2))).toNat)

/-- BOUND_SHADOW_UPDATE (R148): the oldest message for a core's shadow of a bound arrives. -/
def execBoundShadowUpdate (gang core n : Nat) (s : State) : Out :=
  match s.bndMsgs.find? fun (g, c, m, _) => g == gang && c == core && m == n with
  | none => .next s
  | some q =>
    .next { s with
      shadows := tset s.shadows (shadowKey gang core n) q.2.2.2
      bndMsgs := s.bndMsgs.erase q }

end Sys2Proof.Machine
end

