-- ==== Sys2Proof/Machine/Peers.lean ====
section
/-! DEFINITION. The target side of a peer access (R355 to R357). -/

namespace Sys2Proof.Machine

/-- The local context bound to a link and an initiator's context (R356): none without a valid binding. -/
def State.bound (s : State) (link ctx : Nat) : Option Nat :=
  let e := s.phys (s.dev.wbind.toNat + 4 * (1024 * link + ctx)) 4
  if bits e 15 1 == 1 && bits e 10 5 == 0 && bits e 16 16 == 0 then some (bits e 0 10) else none

/-- Answer a peer. -/
def State.answer (s : State) (link : Nat) (a : PeerAnswer) : State :=
  { s with dev := { s.dev with peerOut := s.dev.peerOut ++ [(link, a)] } }

/-- Return REMOTE-FAULT to a peer (R357). -/
def State.remoteFault (s : State) (link : Nat) : State := s.answer link .remoteFault

/-- PEER_ACCESS (R355, R357): nothing is parked and no page request is raised. -/
def execPeerAccess (link ctx addr len : Nat) (write : Option (List (BitVec 8))) (s : State) : Out :=
  if s.dev.stage < 2 || s.dev.tripped || 12 ≤ link || bits s.dev.wlink.toNat link 1 == 0 then .next s
  else
    match s.bound link (ctx % 1024) with
    | none => .next ((s.alarm { kind := 0x07, addr := addr }).remoteFault link)
    | some c =>
      let rec_ : LogRec := { kind := 0x07, ctx := c, vf := s.ctxVf c, slice := s.ctxSlice c, addr := addr }
      match write with
      | none =>
        match s.vread .link c addr len with
        | (.ok bytes, t) => .next (t.answer link (.data bytes))
        | (.error _, t) => .next (((t.ctxLog rec_).signal 0 3).remoteFault link)
      | some bytes =>
        match s.vwrite .link c addr bytes.length (addrs 0 bytes) with
        | (.ok _, t) => .next (t.answer link .written)
        | (.error _, t) => .next (((t.ctxLog rec_).signal 0 3).remoteFault link)

end Sys2Proof.Machine
end

