-- ==== Sys2Proof/Machine/Tenancy.lean ====
section
/-! DEFINITION. Slices, retirement, keys, attestation, teardown and resets (R341, R348, R359 to R369). -/

namespace Sys2Proof.Machine

/-! ### Slices (R360 to R363) -/

/-- Clusters in a mask. -/
def maskClusters (m : Nat) : List Nat := (List.range 48).filter fun c => bits m c 1 == 1

/-- Gibibytes of trained second-tier memory: an eighth of the 3,072 GiB on each link that is up (R4, R361; log entry 81). -/
def State.tier2 (s : State) : Nat := 384 * (maskClusters s.dev.cxlUp.toNat).length

/-- Gigabytes a second of the Wale links that are up (R361). -/
def State.waleBw (s : State) : Nat := 200 * (maskClusters s.dev.wlink.toNat).length

/-- Four times the remaining HBM bandwidth in GB/s (R361, R364). -/
def State.hbm4 (s : State) : Nat := 80000 - 625 * s.dev.retiredChans.length

/-- The descriptors of the valid slices, with one of them replaced. -/
def State.validSlices (s : State) (n : Nat) (x : BitVec 256) : List (Nat × Nat) :=
  ((List.range 8).map fun k => (k, if k == n then x.toNat else (tget 0 s.dev.slices k).toNat)).filter fun (_, y) =>
    bits y 192 1 == 1

/-- A sum of a minimum over descriptors exceeds what remains (R361, R364). -/
def State.overCommitted (s : State) (l : List (Nat × Nat)) : Bool :=
  let sum (lo : Nat) : Nat := l.foldl (fun t (_, y) => t + bits y lo 16) 0
  s.hbm4 < 4 * sum 48 || s.tier2 < sum 80 || s.waleBw < sum 160

/-- The scratch pools of the owned clusters of a chiplet exceed its scratch share (R361). -/
def State.scratchOver (s : State) (l : List (Nat × Nat)) : Bool :=
  (List.range 4).any fun chip =>
    12 * s.dev.scru < l.foldl (fun t (_, y) =>
      t + bits y 128 8 * ((maskClusters (bits y 0 48)).filter fun c => s.chipOf c == chip).length) 0

/-- A cluster is quarantined (R361, R367). -/
def State.clusterQuar (s : State) (c : Nat) : Bool :=
  s.scrubs.any (fun k => k.cores.any fun n => n / 8 == s.physOfCluster c) || (List.range (s.unitCount c)).any (s.unitQuar c)

/-- What is wrong with a descriptor: 1 invalid, 2 busy (R361; log entry 18). -/
def State.sliceFault (s : State) (n : Nat) (x : BitVec 256) : Option Nat :=
  let y := x.toNat
  let mask := bits y 0 48
  let others := (s.validSlices n 0).filter fun (k, _) => k != n
  let all := s.validSlices n x
  let above (lo hi w : Nat) : Bool := bits y hi w < bits y lo w
  if bits y 194 62 != 0 || bits y 146 6 != 0 || bits y 112 8 != 0 || bits y 46 2 != 0 then some 1
  else if above 48 64 16 || above 80 96 16 || above 120 128 8 || above 136 141 5 || above 160 176 16 then some 1
  else if bits y 192 1 == 1 && (bits y 141 5 == 0 || 16 < bits y 141 5) then some 1
  else if (maskClusters mask).any fun c => (s.cluster c).retired || others.any fun (_, z) => bits z c 1 == 1 then some 1
  else if s.overCommitted all || s.scratchOver all then some 1
  else if (List.range 1024).any fun c => s.ctxSlice c == n && s.ctxState c != 0 then some 2
  else if (maskClusters (mask ||| s.sliceF n 0 48)).any s.clusterQuar then some 2
  else none

/-- The places of n units for a cluster's pool among those of a chiplet that are not used: together if they can be, else
the lowest (log entry 11). -/
def State.poolPlaces (s : State) (n : Nat) (used : List Nat) : List Nat :=
  let cap := 12 * s.dev.scru
  match (List.range (cap + 1 - n)).find? fun b => (List.range n).all fun i => !used.contains (b + i) with
  | some b => (List.range n).map (b + ·)
  | none => firstFree n cap fun k => !used.contains k

/-- The places that the clusters of the valid slices have in a chiplet's scratch share. -/
def State.usedPlaces (s : State) (chip : Nat) (l : List (Nat × Nat)) : List Nat :=
  l.flatMap fun (_, y) => ((maskClusters (bits y 0 48)).filter fun c => s.chipOf c == chip).flatMap fun c =>
    (List.range (bits y 128 8)).map (s.unitSlot c)

/-- Lay out pools of n units for clusters in turn, clear of the places of the slices listed (R44, R361). -/
def State.layPools (s : State) (n : Nat) (l : List (Nat × Nat)) (laid : List (Nat × List Nat)) : List Nat → State
  | [] => s
  | c :: r =>
    let chip := s.chipOf c
    let used := s.usedPlaces chip l ++ (laid.filter fun (k, _) => k == chip).flatMap (·.2)
    let p := s.poolPlaces n used
    (s.modCluster c fun k => { k with pool := some p }).layPools n l ((chip, p) :: laid) r

/-- The clusters that a slice gives up have no pool any more (R361; log entry 11). -/
def State.dropPools (s : State) (l : List Nat) : State := l.foldl (fun t c => t.modCluster c fun k => { k with pool := some [] }) s

/-- SLICE_DESCRIPTOR_WRITE (R360, R361, R363): the clusters are numbered by the new mask, and each has a pool of `SCRMAX`
scratch units; `BELOW` clears (R364). -/
def execSliceDescriptorWrite (slice : Nat) (val : BitVec 256) (s : State) : Out :=
  let d := s.dev
  if !s.hostTaken || 8 ≤ slice then .next s
  else
    match s.sliceFault slice val with
    | some e => .next { s with dev := { d with sliceErr := true, ecode := .ofNat 4 e } }
    | none =>
      let u := s.dropPools (s.sliceClusters slice)
      let t := if bits val.toNat 192 1 == 1 then
          u.layPools (bits val.toNat 128 8) ((s.validSlices slice 0).filter fun (k, _) => k != slice) []
            (maskClusters (bits val.toNat 0 48))
        else u
      .next { t with dev := { d with
        slices := tset d.slices slice (.ofNat 256 (setBits val.toNat 193 1 0))
        sliceNum := tset d.sliceNum slice (bits val.toNat 0 48)
        sliceErr := false
        ecode := 0 } }

/-! ### Retirement (R364) -/

/-- A cluster with a resident or held block, a deferred request or a claimant row is not drained. -/
def State.clusterBusy (s : State) (c : Nat) : Bool :=
  s.blocks.any (fun (_, b) => clusterOf b.core == c && (b.st == .admitted || b.st == .resident || b.st == .held)) ||
    !(s.cluster c).deferred.isEmpty || !(s.claimants c).isEmpty

/-- Flag BELOW-MINIMUM on the slice that bears a loss when a sum of minima now exceeds what remains, or, when it has lost a
cluster, falls below `CLMIN`: its record, and the error vector. -/
def State.flagBelow (s : State) (n : Nat) (cluster : Bool) : State :=
  let y := (tget 0 s.dev.slices n).toNat
  let below := s.overCommitted (s.validSlices n (.ofNat 256 y)) ||
    cluster && (maskClusters (bits y 0 48)).length < bits y 152 8
  let s1 : State := { s with dev := { s.dev with retErr := false, retBelow := below } }
  if below then
    ({ s1 with dev := { s1.dev with slices := tset s1.dev.slices n (.ofNat 256 (setBits y 193 1 1)) } } : State).alarm
      { kind := 0x08, slice := n }
  else s1

/-- A physical address lies in the HBM of a chiplet that is listed (R364; log entry 80). -/
def onChip (chips : Nat → Bool) (a : Nat) : Bool :=
  match Config.memChannel a with
  | some k => chips (k / 32)
  | none => false

/-- Bytes that cannot be read as plaintext any more have free values from then on (R364, R367; log entry 73). -/
def State.garbleMem (s : State) (l : List Nat) : State :=
  { s with mem := wrList s.mem (l.map fun a => (a, Config.garbled s.time a)) }

/-- The bytes left on a retired memory channel become unreadable (R364; log entry 80). -/
def State.loseChannel (s : State) (i : Nat) : State :=
  s.garbleMem ((s.mem.map (·.1)).filter fun a => Config.memChannel a == some i)

/-- A write of `RETCMD`. -/
def State.retire_ (s : State) (val : Nat) : State :=
  let kind := bits val 0 8
  let n := bits val 16 3
  let i := bits val 8 8
  let refuse : State := { s with dev := { s.dev with retErr := true, retBelow := false } }
  if !s.hostTaken then s
  else if bits val 19 13 != 0 then refuse
  else
    match kind with
    | 1 =>
      match (maskClusters (tget 0 s.dev.sliceNum n))[i]? with
      | none => refuse
      | some c =>
        if !s.sliceValid n || (s.cluster c).retired || s.clusterBusy c then refuse
        else
          let y := (tget 0 s.dev.slices n).toNat
          let s1 := s.modCluster c fun k => { k with retired := true }
          ({ s1 with dev := { s1.dev with slices := tset s1.dev.slices n (.ofNat 256 (setBits y c 1 0)) } } : State).flagBelow
            n true
    | 2 =>
      if 128 ≤ i || s.dev.retiredChans.contains i then refuse
      else (({ s with dev := { s.dev with retiredChans := nins s.dev.retiredChans i } } : State).loseChannel i).flagBelow n false
    | _ => refuse

/-- RETIRE_CLUSTER (R364). -/
def execRetireCluster (val : BitVec 32) (s : State) : Out := .next (s.retire_ val.toNat)

/-- RETIRE_MEMORY_CHANNEL (R364): every request of the model is complete within its step, so that none is outstanding. -/
def execRetireMemoryChannel (val : BitVec 32) (s : State) : Out := .next (s.retire_ val.toNat)

/-! ### What a context owns (R367) -/

/-- The physical cores that have run a block of the context since their last scrub (R367). -/
def State.ownedCores (s : State) (c : Nat) : List Nat :=
  (s.cores.filter fun (_, k) => k.ranCtx.contains c).map fun (n, _) => s.physCore n

/-- The places of the chiplets' scratch shares that the context held last, by their keys in `unitCtx` (R55, R367). -/
def State.ownedSlots (s : State) (c : Nat) : List Nat := (s.unitCtx.filter fun (_, x) => x == c + 1).map (·.1)

/-- The Plinth ranges of a context: its units, spill carves and parameter blocks, by key and length (R367). -/
def State.ownedSpans (s : State) (c : Nat) : List (Nat × Nat) :=
  (s.ownedSlots c).map (fun k => (k / 2 ^ 12 * 2 ^ 31 + k % 2 ^ 12 * Config.unitBytes, Config.unitBytes)) ++
    (s.ctxBlocks c).flatMap fun b =>
      let k := s.blk b
      let g := s.grid k.grid
      let chip := s.chipOf (clusterOf k.core) * 2 ^ 31
      if k.st == .saved then []
      else
        (if g.psize == 0 then [] else [(chip + k.paramBase, g.psize)]) ++
          k.warps.map fun w => (chip + (s.warp w).spillBase, 32 * g.spill)

/-! ### Keys (R365) -/

/-- The place of a slot in the table of keys. -/
def keyIx (chip slot : Nat) : Nat := 64 * chip + slot

/-- The addresses of the 64-byte units of memory that a context wrote last (R4; log entry 73). -/
def State.memOf (s : State) (c : Nat) : List Nat :=
  (s.memCtx.filter fun (_, x) => x == c + 1).flatMap fun (u, _) => (List.range 64).map (64 * u + ·)

/-- n free values for the bytes of a saved image, by the place of the first among those of the image. -/
def State.lostBytes (s : State) (k n : Nat) : List (Nat × Byte) :=
  wrList [] ((List.range n).map fun i => (i, Config.garbled s.time (2 ^ 61 + k + i)))

/-- A free value in place of n bytes of a saved image. -/
def State.lost (s : State) (k n : Nat) : Nat := natOf ((List.range n).map fun i => Config.garbled s.time (2 ^ 61 + k + i))

/-- The contents of a block's image whose key is gone: free values in place of each byte and word. -/
def State.lostImg (s : State) (b : Nat) (m : BlockImg) : BlockImg :=
  let g := s.grid (s.blk b).grid
  let at_ (part n : Nat) : Nat := ((b * 2 ^ 8 + part) * 2 ^ 8 + n) * 2 ^ 24
  { m with
    shared := s.lostBytes (at_ 0 0) (g.f 416 19)
    tiles := m.tiles.map fun (z, _) =>
      (z, (List.range tileWords).foldl (fun t i => tput 0 t i (.ofNat 32 (s.lost (at_ 1 z + 4 * i) 4))) [])
    units := m.units.map fun (u, _) => (u, s.lostBytes (at_ 2 u) Config.unitBytes)
    spill := m.spill.map fun (w, _) => (w, s.lostBytes (at_ 3 w) (32 * g.spill)) }

/-- The registers and the code pointers of a saved warp whose key is gone. -/
def State.lostWarp (s : State) (n : Nat) (w : Warp) : Warp :=
  let at_ (part : Nat) : Nat := 2 ^ 62 + (n * 2 ^ 8 + part) * 2 ^ 24
  let regs (part k : Nat) : Tab Word :=
    (List.range k).foldl (fun t i => tput 0 t i (.ofNat 32 (s.lost (at_ part + 4 * i) 4))) []
  let wide (part k : Nat) : Tab DWord :=
    (List.range k).foldl (fun t i => tput 0 t i (.ofNat 64 (s.lost (at_ part + 8 * i) 8))) []
  let x : Warp :=
    { w with
      v := regs 0 (32 * 256), m := wide 1 (32 * 64), h := wide 2 (32 * 16), s := regs 3 64, p := regs 4 7
      b := w.b.map fun (i, k) =>
        (i, { k with base := .ofNat 32 (s.lost (at_ 5 + 16 * i) 4), limit := .ofNat 32 (s.lost (at_ 5 + 16 * i + 4) 4)
                     ptr := .ofNat 32 (s.lost (at_ 5 + 16 * i + 8) 4) }) }
  x.modThs allLanes fun l t =>
    { t with cp := .ofNat 32 (s.lost (at_ 6 + 8 * l) 4), rcp := .ofNat 32 (s.lost (at_ 6 + 8 * l + 4) 4) }

/-- The images of a context's saved blocks cannot be read as plaintext any more (R338, R365, R367; log entry 73). -/
def State.garbleSaved (s : State) (c : Nat) : State :=
  let bs := (s.ctxBlocks c).filter fun b => (s.blk b).st == .saved
  let t := bs.foldl (fun t b => t.modBlk b fun y => { y with img := y.img.map (s.lostImg b) }) s
  (bs.flatMap fun b => (s.blk b).warps).foldl (fun t w => t.modWarp w (s.lostWarp w)) t

/-- What a context holds in the Plinth and in the HBM of some chiplets, written under a key that is gone, cannot be read as
plaintext any more (R4, R65, R365, R367; log entry 73). -/
def State.garbleHeld (s : State) (c : Nat) (chips : Nat → Bool) : State :=
  let spans := (s.ownedSpans c).filter fun (k, _) => chips (k / 2 ^ 31)
  let t := s.garbleMem ((s.memOf c).filter (onChip chips))
  { t with plinth := wrList t.plinth (spans.flatMap fun (k, n) =>
      (List.range n).map fun i => (k + i, Config.garbled s.time (2 ^ 60 + k + i))) }

/-- The key of a context on some chiplets is gone: what was written under it cannot be read as plaintext any more. -/
def State.garble (s : State) (c : Nat) (chips : Nat → Bool) : State := (s.garbleHeld c chips).garbleSaved c

/-- Put a context's slot number on a chiplet, plus 1. -/
def Ctx.setSlot (y : Ctx) (chip n : Nat) : Ctx := { y with slots := tput 0 y.slots chip n }

/-- Install a transport key from the ciphertext at `KSADDR` (R365, R366): none when it fails. -/
def State.installKey (s : State) (c : Nat) : Option State :=
  match (s.ctx c).decap with
  | none => none
  | some id =>
    (Config.mlkemDecap id (s.phys s.dev.ksaddr.toNat 1568)).map fun k =>
      s.modCtx c fun y => { y with transport := some k, decap := none }

/-- Load a key slot from the blob at `KSADDR`: none when it fails.  The context's former slot on the chiplet is zeroised, and
what lay under another key is lost. -/
def State.loadKey (s : State) (c chip slot : Nat) : Option State :=
  let i := keyIx chip slot
  match (s.ctx c).transport, tfind s.keys i with
  | none, _ => none
  | some k, held =>
    if (match held with | some x => x.ctx != c || x.quarantined | none => false) then none
    else
      (Config.keyUnwrap k (.ofNat 576 (s.phys s.dev.ksaddr.toNat 72))).map fun key =>
        let old := tget 0 (s.ctx c).slots chip
        let keys := if old == 0 then s.keys else terase s.keys (keyIx chip (old - 1))
        let lost := old != 0 && (tfind s.keys (keyIx chip (old - 1))).any fun y => y.key != key
        let s := if lost then s.garble c (· == chip) else s
        ({ s with keys := tset keys i { ctx := c, key := key } } : State).modCtx c fun y => y.setSlot chip (slot + 1)

/-- Zeroise a slot: none when another context holds it or it is quarantined.  What lay under its key is lost. -/
def State.clearKey (s : State) (c chip slot : Nat) : Option State :=
  let i := keyIx chip slot
  match tfind s.keys i with
  | none => some s
  | some x =>
    if x.ctx != c || x.quarantined then none
    else
      let s := s.garble c (· == chip)
      some (({ s with keys := terase s.keys i } : State).modCtx c fun y => y.setSlot chip 0)

/-- A write of `KSCMD`. -/
def State.keyCommand (s : State) (val : Nat) : State :=
  let c := bits val 0 10
  let slot := bits val 10 6
  let chip := bits val 16 2
  let done (t : Option State) : State :=
    match t with
    | some u => { u with dev := { u.dev with ksErr := false } }
    | none => { s with dev := { s.dev with ksErr := true } }
  if !s.hostTaken then s
  else if bits val 18 12 != 0 then done none
  else if bits val 30 1 == 1 then done (s.installKey c)
  else if bits val 31 1 == 1 then done (s.loadKey c chip slot)
  else done (s.clearKey c chip slot)

/-- KEY_SLOT_LOAD (R365). -/
def execKeySlotLoad (val : BitVec 32) (s : State) : Out := .next (s.keyCommand val.toNat)

/-- KEY_SLOT_ZEROISE (R365). -/
def execKeySlotZeroise (val : BitVec 32) (s : State) : Out := .next (s.keyCommand val.toNat)

/-- TRANSPORT_KEY_INSTALL (R365, R366). -/
def execTransportKeyInstall (val : BitVec 32) (s : State) : Out := .next (s.keyCommand val.toNat)

/-! ### Attestation (R366) -/

/-- The part number of R1 in ASCII, padded with zeros to 16 bytes. -/
def partNumber : List Byte :=
  [0x48, 0x56, 0x2D, 0x39, 0x33, 0x36, 0x38, 0x2D, 0x41, 0x31, 0, 0, 0, 0, 0, 0]

/-- Bytes 0 to 2,047 of a report. -/
def State.report (s : State) (c id : Nat) : List Byte :=
  let chips := List.range 4
  let loaded := chips.foldl (fun t k => t + if (s.keySlot c k).isSome then 2 ^ k else 0) 0
  let key := if (s.ctx c).transport.isSome then 16 else 0
  bytesOf 64 (s.phys s.dev.atnonce.toNat 64) ++ bytesOf 64 s.dev.measure.toNat ++ partNumber ++ bytesOf 16 Config.serial ++
    (List.range 8).flatMap (fun n => bytesOf 32 (tget 0 s.dev.slices n).toNat) ++ bytesOf 2 c ++ bytesOf 1 (s.ctxVf c) ++
    bytesOf 1 (s.ctxSlice c) ++ chips.map (fun k => BitVec.ofNat 8 ((s.keySlot c k).getD 0)) ++ bytesOf 1 (loaded + key) ++
    bytesOf 7 0 ++ bytesOf 1568 (Config.mlkemPublic id) ++ bytesOf 48 0

/-- ATTESTATION_REQUEST (R366): a fresh key pair, numbered by the free values taken, and the signed report. -/
def execAttestationRequest (val : BitVec 32) (s : State) : Out :=
  let x := val.toNat
  let c := bits x 0 10
  let refuse : State := { s with dev := { s.dev with atErr := true } }
  if !s.hostTaken then .next s
  else if bits x 10 21 != 0 then .next refuse
  else if bits x 31 1 == 0 then .next s
  else if s.ctxState c == 0 && s.sliceF (s.ctxSlice c) 192 1 == 0 then .next refuse
  else
    let id := s.freeCtr
    let body := s.report c id
    let s1 : State := { s with freeCtr := id + 1, dev := { s.dev with atErr := false } }
    .next ((s1.modCtx c fun y => { y with decap := some id }).putPhys
      (addrs s.dev.atout.toNat (body ++ bytesOf 1280 (Config.falconSign (natOf body)))))

/-! ### Teardown (R367, R368) -/

/-- The entry of the pending-scrub list for a context, with the physical pages of a list. -/
def State.scrubOf (s : State) (c : Nat) (pages : List Nat) : Scrub :=
  let cores := s.ownedCores c
  let spans := s.ownedSpans c
  { ctx := c, fn := s.ctxVf c, cores := cores, pages := pages, spans := spans
    total := .ofNat 64 (cores.length * 1310720 + spans.foldl (fun t (_, n) => t + n) 0 + pages.length * 4096) }

/-- Every key slot of a context is zeroised and quarantined, and its transport and decapsulation keys are discarded (R366,
R367). -/
def State.zeroise (s : State) (c : Nat) : State :=
  { s.modCtx c fun y => { y with slots := [], transport := none, decap := none } with
    keys := s.keys.map fun (i, k) => (i, if k.ctx == c then { k with key := 0, quarantined := true } else k) }

/-- One of the codes of R184, by a free value (log entry 12). -/
def someCode (v : Word) : BitVec 8 := .ofNat 8 (faultCodes.getD (v.toNat % faultCodes.length) 1)

/-- The entries of host rings whose launches a context takes with it receive their completions: the spec names no code (R380;
log entry 12). -/
def State.completeAll (s : State) (l : List (Nat × Nat × Nat)) : State :=
  l.foldl (fun t (fn, n, rec_) =>
    let (v, u) := t.free
    u.modFn fn fun f => { f with completions := f.completions ++ [(rec_, someCode v, 2, n, 0)] }) s

/-- Steps 1 and 3 of R367: a context begins to stop for good, its queued launches and page requests are dropped, and what it
used is quarantined until the scrub. -/
def State.quarantine (s : State) (c : Nat) (pages : List Nat) : State :=
  let k := s.scrubOf c pages
  let s1 := (s.halt c).completeAll ((s.launchQ.filter fun q => q.ctx == c).filterMap fun q =>
    q.host.map fun (fn, n) => (fn, n, q.recVa))
  { s1 with
    launchQ := s1.launchQ.filter fun q => q.ctx != c
    pageReqs := s1.pageReqs.filter fun q => q.ctx != c
    scrubs := s1.scrubs ++ [k] }

/-- Step 2 of R367: the keys of a context are zeroised, and its data is plaintext no more. -/
def State.darken (s : State) (c : Nat) : State :=
  let t := (s.zeroise c).garble c fun _ => true
  { t with scrubs := t.scrubs.map fun k => if k.ctx == c then { k with dark := true } else k }

/-- A context stops for good (R341, R367): when it has nothing left to complete, its keys are zeroised at once. -/
def State.condemn (s : State) (c : Nat) (pages : List Nat) : State :=
  let t := s.quarantine c pages
  if t.settled c then t.darken c else t

/-- The grids of a context that have not retired complete: refused when they were never admitted, else with their code, or
one the spec does not name (R313, R380; log entry 12). -/
def State.completeGrids (s : State) (c : Nat) : State :=
  s.grids.foldl (fun t (_, g) =>
    if g.ctx != c || g.st == .retired then t
    else
      let (v, u) := t.free
      { u with fns := (u.complete g (if g.code == 0 then someCode v else g.code) (if g.admitted then 3 else 2)).fns }) s

/-- Nothing of a context is left on the device: the rows of its gangs go to their arbiters as releases (R47), and no status is
written (log entry 12). -/
def State.evict (r : State) (c : Nat) : State :=
  let s := r.completeGrids c
  let mine (b : Nat) : Bool := (s.grid (s.blk b).grid).ctx == c
  let gangOf (g : Nat) : Bool := (s.grid (s.gang g).grid).ctx == c
  let rows (n : Nat) : List ArbOp :=
    (s.gangs.filter fun (g, y) => gangOf g && y.cluster == n && !y.claim.isEmpty).map fun (g, y) => .release g y.alloc true
  let chans := (s.blocks.filter fun (b, k) => mine b && k.st != .saved).flatMap fun (_, k) => k.chans
  let s1 : State := { s with
    warps := s.warps.map fun (w, y) => (w, if mine y.block then y.endAll else y)
    blocks := s.blocks.map fun (b, y) =>
      (b, if mine b then { y with st := .finished, img := none, chans := [], tiles := [], units := [], dynReg := 0 } else y)
    gangs := s.gangs.map fun (g, y) => (g, if gangOf g then { y with st := .done } else y)
    grids := s.grids.map fun (n, g) => (n, if g.ctx == c then { g with st := .retired } else g)
    ops := s.ops.filter fun (_, o) => !mine (s.warp o.warp).block
    dqWaits := s.dqWaits.filter fun d => !mine (s.warp d.warp).block
    parked := s.parked.filter fun p => p.ctx != c
    pageReqs := s.pageReqs.filter fun q => q.ctx != c
    cycles := s.cycles.filter fun y => y.ctx != c
    jointerQ := s.jointerQ.filter fun e => e.ctx != c
    sanderQ := s.sanderQ.filter fun e => e.ctx != c
    launchQ := s.launchQ.filter fun q => q.ctx != c
    admitQ := s.admitQ.filter fun (_, _, g) => (s.grid g).ctx != c
    windows := s.windows.filter fun (_, y) => y.ctx != c
    tlb := s.tlb.filter fun e => e.ctx != c
    bndMsgs := s.bndMsgs.filter fun (g, _, _, _) => !gangOf g
    clusters := s.clusters.map fun (n, k) =>
      (n, { k with
        notes := k.notes.filter fun x => !mine (s.warp x.warp).block
        queue := (k.queue.filter fun o =>
          match o with
          | .request w _ _ _ _ _ _ _ => !mine (s.warp w).block
          | .release _ _ _ | .restock => true) ++ rows n })
    pageEnds := s.pageEnds.filter fun (x, _, _, _) => x != c
    cores := s.cores.map fun (n, k) => (n, { k with alloc := k.alloc.filter fun (x, _, _, _) => x != c }) }
  chans.foldl State.resetChan s1

/-- A context command under way for the context ends. -/
def State.abandon (s : State) (c : Nat) : State :=
  if s.ctxState c == 3 then { s with dev := { s.dev with ctxBusy := false, ctxAbandoned := true } } else s

/-- A write of `TDCMD` (R368). -/
def State.teardown_ (s : State) (val : Nat) : State :=
  let d := s.dev
  let c := bits val 0 10
  let pages := (List.range d.tdcnt.toNat).map fun i => s.phys (d.tdlist.toNat + 8 * i) 8
  let refuse : State := { s with dev := { d with tdErr := true } }
  if !s.hostTaken then s
  else if bits val 10 21 != 0 || 8 ≤ s.scrubs.length || s.scrubs.any (fun k => k.ctx == c) then refuse
  else if bits val 31 1 == 0 then s
  else if 2 ^ 20 < d.tdcnt.toNat || pages.any fun p => bits p 0 12 != 0 || bits p 52 12 != 0 then refuse
  else
    let s1 := (s.abandon c).condemn c pages
    { s1 with dev := { s1.dev with tdErr := false } }

/-- TEARDOWN (R367). -/
def execTeardown (val : BitVec 32) (s : State) : Out := .next (s.teardown_ val.toNat)

/-- Zero the memories of a core: register files hold nothing of it any more (R367). -/
def State.scrubCore (s : State) (n : Nat) : State :=
  let sh := n * 2 ^ 19
  let t := 8 * n * tileWords
  let s1 := s.clearRaces .shared sh Config.sharedBytes
  { s1 with
    shared := s1.shared.filter fun (a, _) => !(sh ≤ a && a < sh + Config.sharedBytes)
    tiles := s1.tiles.filter fun (a, _) => !(t ≤ a && a < t + 8 * tileWords)
    poisonShared := s1.poisonShared.filter fun a => !(sh / 4 ≤ a && a < (sh + Config.sharedBytes) / 4)
    poisonTile := s1.poisonTile.filter fun a => !(t ≤ a && a < t + 8 * tileWords)
    cores := tmod {} s1.cores n fun k => { k with ranCtx := [] } }

/-- What a condemned context had accepted has completed, or waits for pages that are not answered any more (log entry 19). -/
def State.stopDone (s : State) (c : Nat) : Bool := s.settled c || s.pageReqs.any fun q => q.ctx == c

/-- The cores of the device that a scrub concerns. -/
def State.scrubCores (s : State) (k : Scrub) : List Nat :=
  (List.range (Config.clusters * Config.coresPerCluster)).filter fun n => k.cores.contains (s.physCore n)

/-- A scrub may end: its context's data is dark, and no other context's block is on its cores (log entry 19). -/
def State.scrubReady (s : State) (k : Scrub) : Bool :=
  k.dark && (s.scrubCores k).all fun n => (s.onCore n).all fun b => (s.grid b.grid).ctx == k.ctx

/-- The clusters that units come back to have their deferred lists tested again, in the arbiter's order (R47, R50). -/
def State.restock (s : State) (l : List Nat) : State :=
  l.foldl (fun t c => t.modCluster c fun k => { k with queue := k.queue ++ [.restock] }) s

/-- Steps 4 and 5 of R367: a scrub ends, with those that are left pending. -/
def State.scrubEnd (s : State) (k : Scrub) (r : List Scrub) : State :=
  let back := (List.range Config.clusters).filter fun c => (List.range (s.unitCount c)).any (s.unitQuar c)
  let s1 := s.evict k.ctx
  let s2 := (s.scrubCores k).foldl (fun t n => t.scrubCore n) s1
  let s3 := k.spans.foldl (fun t (a, n) => (t.clearRaces .plinth a n).zeroPlinth a n) s2
  let s4 := k.pages.foldl (fun t p => t.zeroPhys p 4096) s3
  let s5 : State := { s4 with unitCtx := s4.unitCtx.filter fun (_, x) => x != k.ctx + 1 }
  let s6 := (s5.modCtx k.ctx fun _ => {}).setCtxState k.ctx 0
  ({ s6 with
      scrubs := r
      keys := s6.keys.filter fun (_, y) => !(y.quarantined && y.ctx == k.ctx)
      dev := { s6.dev with tdDone := true, tdDoneCtx := k.ctx } } : State).restock back

/-- SCRUB_COMPLETE (R367): the data of a condemned context that has stopped is plaintext no more (step 2); else the oldest scrub
ends (steps 4 and 5).  After a trip it stays pending (R373). -/
def execScrubComplete (s : State) : Out :=
  match s.scrubs with
  | [] => .next s
  | k :: r =>
    if s.dev.tripped then .next s
    else
      match s.scrubs.find? fun y => !y.dark && s.stopDone y.ctx with
      | some y => .next (s.darken y.ctx)
      | none => if s.scrubReady k then .next (s.scrubEnd k r) else .next s

/-! ### Resets (R341, R348, R369) -/

/-- Every pending scrub starts from the beginning (R369). -/
def State.rescrub (s : State) : State := { s with scrubs := s.scrubs.map fun k => { k with progress := 0 } }

/-- A function's ring is gone: the launches that came from it complete to nobody. -/
def State.unhost (s : State) (fn : Nat) : State :=
  let keep (h : Option (Nat × Nat)) : Option (Nat × Nat) := h.filter fun (f, _) => f != fn
  { s with
    grids := s.grids.map fun (n, g) => (n, { g with host := keep g.host })
    launchQ := s.launchQ.map fun q => { q with host := keep q.host } }

/-- FUNCTION_LEVEL_RESET (R341, R349, R369; log entry 20). -/
def execFunctionLevelReset (fn : Nat) (s : State) : Out :=
  let note : State := s.devLog { kind := 0x0A, vf := fn }
  let mine := (List.range 1024).filter fun c => s.ctxVf c == fn && s.ctxState c != 0
  if s.dev.stage != 3 || s.dev.tripped then .next note
  else if s.scrubs.any fun k => k.fn == fn then .next note
  else
    let t := mine.foldl (fun (t : State) c =>
      let st := t.ctxState c
      let t1 := ((t.abandon c).condemn c []).setCtxState c 0
      if 2 ≤ st then
        ({ t1 with dev := { t1.dev with ctxAbandoned := true } } : State).devLog
          { kind := 0x09, ctx := c, vf := fn, slice := t1.ctxSlice c }
      else t1) s
    .next ((t.unhost fn).modFn fn fun f => { ctx := f.ctx })

/-- Cores are reset: their cycle counts start again (R186). -/
def State.resetCores (s : State) (l : List Nat) : State :=
  { s with coreReset := l.foldl (fun t n => tset t n s.time) s.coreReset }

/-- The cores of a chiplet. -/
def State.coresOn (s : State) (chip : Nat) : List Nat :=
  (List.range (Config.clusters * Config.coresPerCluster)).filter fun n => s.chipOf (clusterOf n) == chip

/-- CHIPLET_RESET (R186, R369): the cycle count of its cores starts again, a scrub restarts, and what it quarantines stays
quarantined (log entry 65). -/
def execChipletReset (chiplet : Nat) (s : State) : Out := .next (s.rescrub.resetCores (s.coresOn chiplet))

/-- What every context has written in the HBM under a key that a reset drops cannot be read as plaintext any more (R4; log entry
73). -/
def State.loseKeys (s : State) : State :=
  s.ctxs.foldl (fun t (c, _) => t.garbleMem ((t.memOf c).filter (onChip fun k => (s.memKey c k).isSome))) s

/-- A pending scrub after a reset that has stopped everything and dropped every key: step 2 of R367 is done. -/
def Scrub.afterReset (k : Scrub) : Scrub := { k with progress := 0, dark := true }

/-- The key slots that stay quarantined over a reset: those of the contexts whose scrub is pending, zeroised (R367, R369). -/
def State.scrubKeys (s : State) : Tab KeySlot :=
  (s.keys.filter fun (_, k) => k.quarantined || s.scrubs.any fun y => y.ctx == k.ctx).map fun (i, k) =>
    (i, { k with key := 0, quarantined := true })

/-- FUNDAMENTAL_RESET (R348, R369): STANDBY again.  Flash, fuses, retirement and the pending-scrub list with its
quarantine marks survive; memory is as it was, but for what lay under a key (log entry 21). -/
def execFundamentalReset (s : State) : Out :=
  let d := s.dev
  .next { State.reset with
    mem := s.loseKeys.mem
    poisonMem := s.poisonMem
    clusters := (s.clusters.filter fun (_, c) => c.retired).map fun (n, _) => (n, { retired := true })
    scrubs := s.scrubs.map Scrub.afterReset
    keys := s.scrubKeys
    memCtx := s.memCtx
    dev := { powered := d.powered, flash := d.flash, retiredChans := d.retiredChans, fuses := d.fuses }
    turn := s.turn
    agenda := s.agenda
    freeCtr := s.freeCtr
    opCtr := s.opCtr
    coreReset := (List.range (Config.clusters * Config.coresPerCluster)).map fun n => (n, s.time)
    time := s.time }

end Sys2Proof.Machine
end

