-- ==== Sys2Proof/Machine/Power.lean ====
section
/-! DEFINITION. Power, cooling, timing errors and soft errors (R7, R127, R370 to R377). -/

namespace Sys2Proof.Machine

/-! ### Power and cooling (R370 to R372) -/

/-- PASS_COUNT_CHANGE (R371): what an instruction does is the same at every pass count. -/
def execPassCountChange (cluster count : Nat) (s : State) : Out :=
  if Config.clusters ≤ cluster || !(count == 1 || count == 2 || count == 4) then .next s
  else .next (s.modCluster cluster fun c => { c with passcnt := count })

/-- SUPPLY_SAG (R370): the chiplet's clock is stretched. -/
def execSupplySag (chiplet : Nat) (s : State) : Out :=
  .next { s with dev := { s.dev with sag := nins s.dev.sag chiplet } }

/-- SUPPLY_RECOVERY (R370). -/
def execSupplyRecovery (chiplet : Nat) (s : State) : Out :=
  .next { s with dev := { s.dev with sag := s.dev.sag.filter (· != chiplet) } }

/-- The package limit of a cooling table, in watts (R7). -/
def tableLimit (t : Nat) : Nat :=
  match t with
  | 2 => 3600
  | 1 => 3200
  | _ => 1200

/-- The table a coolant report selects: inlet in tenths of a degree, flow in tenths of a litre a minute (R372). -/
def coolTable (medium : Coolant) (inlet flow : Nat) : Nat :=
  match medium with
  | .immersion => if inlet ≤ 450 then 2 else 0
  | .plate => if inlet ≤ 400 && 15 ≤ flow then 1 else 0
  | .air => 0

/-- Select a cooling table. -/
def State.cool (s : State) (t : Nat) : State := { s with dev := { s.dev with cooltab := t, limitW := tableLimit t } }

/-- COOLANT_REPORT (R372). -/
def execCoolantReport (medium : Coolant) (inletTenths flowTenths : Nat) (s : State) : Out :=
  if s.dev.powered then .next (s.cool (coolTable medium inletTenths flowTenths)) else .next s

/-- COOLANT_REPORT_TIMEOUT (R372). -/
def execCoolantReportTimeout (s : State) : Out := if s.dev.powered then .next (s.cool 0) else .next s

/-! ### The thermal trip (R373) -/

/-- THERMAL-STOP -/
def cThermal : BitVec 8 := 0x26

/-- Every grid that has not retired, and every launch still queued, receives its status and its completion; a child's refusal is
recorded (R313). -/
def State.tripGrids (s : State) : State :=
  let ends (t : State) (n : Nat) (g : Grid) (st : Nat) : State :=
    ((t.setStatus g.ctx g.recVa cThermal st 0).complete g cThermal st).modGrid n fun y =>
      { y with st := .retired, code := cThermal }
  let s1 := s.grids.foldl (fun t (n, g) =>
    match g.st with
    | .queued => (ends t n g 2).logRefusedGrid g cThermal 0
    | .running => ends t n g 3
    | .retired => t) s
  s1.launchQ.foldl (fun t q => t.refuseLaunch q cThermal 0) { s1 with launchQ := [] }

/-- Every context that is not idle loses what it had on the device: its record reads `STATE` 00. -/
def State.tripCtx (s : State) (c : Nat) : State :=
  let t := s.evict c
  { (t.modCtx c fun y => { y with slots := [], transport := none, decap := none, saving := false, restoring := false }) with
    keys := t.keys.filter fun (_, k) => k.quarantined || k.ctx != c }.setCtxState c 0

/-- What the compute chiplets and their Plinth layers held is gone. -/
def State.powerDown (s : State) : State :=
  { s with
    plinth := []
    shared := []
    tiles := []
    poisonShared := []
    poisonTile := []
    poisonPlinth := []
    poisonMeta := []
    raceShared := []
    racePlinth := []
    relShared := []
    relPlinth := []
    tlb := []
    parked := []
    pageReqs := [] }

/-- THERMAL_TRIP (R349, R373). -/
def execThermalTrip (chiplet : Nat) (s : State) : Out :=
  let d := s.dev
  if d.stage == 0 || d.tripped || d.fail then .next s
  else if d.stage != 3 then .next { s with dev := { d with fail := true, fcode := 8 } }
  else
    let live := (List.range 1024).filter fun c => s.ctxState c != 0
    let s1 := live.foldl (fun t c => t.halt c) s.tripGrids
    let s2 := (live.foldl (fun t c => t.tripCtx c) s1).powerDown
    let s3 := s2.alarm { kind := 0x0C, code := cThermal.toNat, chip := chiplet }
    .next { s3 with dev := { s3.dev with tripped := true, fail := true, fcode := 8 } }

/-! ### Timing errors and soft errors (R374 to R376) -/

/-- TIMING_ERROR_REPLAY (R374): it changes nothing but the time taken, and is counted. -/
def execTimingErrorReplay (_core _quadrant : Nat) (s : State) : Out :=
  .next { s with dev := { s.dev with replays := s.dev.replays + 1 } }

/-- Where a core stands, for a record (R377). -/
def State.coreRec (s : State) (core kind : Nat) : LogRec :=
  let c := clusterOf core
  { kind := kind, chip := s.chipOf c, cluster := s.physOfCluster c % 12, core := s.physInCluster core }

/-- What a record says of the place of an error (R377). -/
def State.siteRec (s : State) (kind : Nat) : ErrSite → LogRec
  | .register w _ l => { s.coreRec (s.wblk w).core kind with loc := 1, lane := l }
  | .shared core word => { s.coreRec core kind with loc := 2, addr := 4 * word }
  | .tile core t word => { s.coreRec core kind with loc := 3, addr := 4 * (t * tileWords + word) }
  | .plinth chip unit => { kind := kind, chip := chip, loc := 4, addr := 64 * unit }
  | .metadata chip g => { kind := kind, chip := chip, loc := 4, addr := 16 * g }
  | .hbm unit => { kind := kind, loc := 5, addr := 64 * unit }
  | .control c => { s.coreRec (8 * c) kind with core := 0, loc := 8 }

/-- The structure an error site belongs to: the register file, shared memory or accumulator memory of a core, the Plinth
of a chiplet, the HBM, the control state of a cluster (R375). -/
def State.structOf (s : State) : ErrSite → ErrSite
  | .register w _ _ => .register (s.wblk w).core 0 0
  | .shared core _ => .shared core 0
  | .tile core _ _ => .tile core 0 0
  | .plinth chip _ | .metadata chip _ => .plinth chip 0
  | .hbm _ => .hbm 0
  | .control c => .control c

/-- Clock cycles in 1 ms at 1,300 MHz (R352, R375). -/
def msCycles : Nat := 1300000

/-- CORRECTABLE_ERROR (R375): counted, and recorded when it is the first of its structure in its millisecond. -/
def execCorrectableError (site : ErrSite) (s : State) : Out :=
  let d := s.dev
  let s1 : State := { s with dev := { d with corrected := d.corrected + 1 } }
  let key := (s.structOf site, (Config.cycleCount s.time).toNat / msCycles)
  if d.corrLogged.contains key then .next s1
  else
    let s2 : State := { s1 with dev := { s1.dev with corrLogged := key :: s1.dev.corrLogged } }
    .next (s2.devLog (s2.siteRec 0x01 site))

/-- A block of a chiplet's Plinth holds a byte: its units, parameter block and spill stacks. -/
def State.blockHasPlinth (s : State) (chip off : Nat) (b : Block) : Bool :=
  let g := s.grid b.grid
  let c := clusterOf b.core
  let has (lo n : Nat) : Bool := lo ≤ off && off < lo + n
  b.holds && b.st != .saved && s.chipOf c == chip &&
    (b.units.any (fun (u, _) => has (s.unitOff c u) Config.unitBytes) || has b.paramBase g.psize ||
      b.warps.any fun w => has (s.warp w).spillBase (32 * g.spill))

/-- The context whose data an error strikes (R377), the heap apart. -/
def State.siteCtx (s : State) (site : ErrSite) : Option Nat :=
  let owner (f : Block → Bool) : Option Nat := (s.blocks.find? fun (_, b) => f b).map fun (_, b) => (s.grid b.grid).ctx
  let plinth (chip off : Nat) : Option Nat :=
    (owner (s.blockHasPlinth chip off)).or ((s.windowAt (chip * 2 ^ 31 + off)).map fun (_, x) => x.ctx)
  match site with
  | .register w _ _ => if (tfind s.warps w).isSome && !(s.warp w).retired then some (s.wctx w) else none
  | .shared core word => owner fun b => b.core == core && b.st == .resident && b.shBase ≤ 4 * word &&
      4 * word < b.shBase + (s.grid b.grid).f 416 19
  | .tile core t _ => owner fun b => b.core == core && b.holds && b.st != .saved && b.tiles.any fun (_, p, _) => p == t
  | .plinth chip unit => plinth chip (64 * unit)
  | .metadata chip g => plinth chip (16 * g)
  | .hbm _ | .control _ => none

/-- n bytes at a virtual address take in a physical unit of 64 bytes. -/
def hCovers (p : Port) (va n unit : Nat) : HeapM Bool :=
  (pagesOf va n).anyM fun q => do
    match ← hCatch (hPhys p q 1 false) with
    | some (x :: _) =>
      let a := q + 64 * unit % 4096
      pure (x / 4096 == 64 * unit / 4096 && a < va + n && va < a + 64)
    | _ => pure false

/-- The first of a page's objects that holds a physical unit, by its header address. -/
def hFindIn (p : Port) (va unit : Nat) : List (Nat × Nat) → HeapM (Option Nat)
  | [] => pure none
  | (o, h) :: r => do if ← hCovers p (va + o) (hdrSize h) unit then pure (some (va + o)) else hFindIn p va unit r

/-- The object of a region that holds a physical unit, found by walking the headers of the pages in use, from page q on
(R127): a header that cannot be read ends the walk of its page. -/
def hFindObj (p : Port) (g : Region) (map unit q : Nat) : Nat → HeapM (Option Nat)
  | 0 => pure none
  | k + 1 => do
    if g.pages ≤ q then pure none
    else if bits map q 1 == 1 then hFindObj p g map unit (q + 1) k
    else
      let objs ← hWalk (fun a => hCatch (hRead p a 8)) (g.pageVa q) ((← get).pageEnd p.ctx g.num q) 0 (poolPage / 16)
      match ← hFindIn p (g.pageVa q) unit objs with
      | some a => pure (some a)
      | none =>
        let next := match objs with
          | (_, h) :: _ => if hdrLarge h then (hdrSize h + poolPage - 1) / poolPage else 1
          | [] => 1
        hFindObj p g map unit (q + max next 1) k

/-- The free-page bitmap as far as it can be read: a page whose bit cannot be read counts as in use (log entry 30). -/
def hFreeSeen (p : Port) (g : Region) : HeapM Nat := do
  let l ← (List.range ((g.pages + 7) / 8)).mapM fun i => hCatch (hRead p (g.freeMap + i) 1)
  pure (natOf (l.map fun b => .ofNat 8 (b.getD 0)))

/-- The object of a region of a context that holds a physical unit. -/
def hObjectIn (c r unit : Nat) : HeapM (Option Nat) := do
  let p := jointerPort c
  let g ← hRegion p r
  hFindObj p g (← hFreeSeen p g) unit 0 g.pages

/-- The context, region and object that hold a physical unit (R127): every context whose record names the region.  The walk through a
region that cannot be read ends without an answer (log entry 30). -/
def State.objectAt (s : State) (unit : Nat) : Option (Nat × Nat × Nat) :=
  (List.range 1024).findSome? fun c =>
    (List.range 16).findSome? fun r =>
      if (s.heapDesc c r).isNone then none
      else
        match (runHeap (hObjectIn c r unit) s).1 with
        | .ok (some a) => some (c, r, a)
        | _ => none

/-- The register a site names: class and index of its word (R181; log entry 58). -/
def regMark (reg lane : Nat) : Nat × Nat :=
  if reg < 256 then (0, 32 * reg + lane) else if reg < 320 then (1, 32 * (reg - 256) + lane) else (2, 32 * (reg - 320) + lane)

/-- Poison the granule that an uncorrectable error strikes (R375). -/
def State.strike (s : State) : ErrSite → State
  | .register w r l => s.modWarp w fun x => { x with poison := regMark r l :: unpoison x.poison (regMark r l).1 (regMark r l).2 }
  | .shared core word => { s with poisonShared := nins s.poisonShared (core * 2 ^ 19 / 4 + word) }
  | .tile core t word => { s with poisonTile := nins s.poisonTile ((8 * core + t) * tileWords + word) }
  | .plinth chip unit => { s with poisonPlinth := nins s.poisonPlinth (chip * 2 ^ 31 / 64 + unit) }
  | .metadata chip g => { s with poisonMeta := nins s.poisonMeta (chip * 2 ^ 31 / 16 + g) }
  | .hbm unit => { s with poisonMem := nins s.poisonMem unit }
  | .control c =>
    let gs := ((s.gangs.filter fun (_, g) => g.cluster == c && g.st == .resident).map fun (_, g) => g.grid).eraseDups
    gs.foldl (fun t g => t.stopGrid g 0x16) s

/-- Record an error that belongs to a context in its log, with the driver's copy in the device log (R377). -/
def State.poisonLog (s : State) (c : Option Nat) (r : LogRec) : State :=
  match c with
  | none => s.devLog r
  | some c =>
    let x : LogRec := { r with ctx := c, vf := s.ctxVf c, slice := s.ctxSlice c }
    (s.ctxLog x).devLog x

/-- UNCORRECTABLE_ERROR (R127, R375, R376). -/
def execUncorrectableError (site : ErrSite) (s : State) : Out :=
  let r : LogRec := { s.siteRec 0x02 site with code := 0x16 }
  match site with
  | .hbm unit =>
    match s.objectAt unit with
    | some (c, rg, a) => .next ((s.strike site).poisonLog (some c) { r with region := rg, obj := a })
    | none => .next ((s.strike site).poisonLog none r)
  | .register w _ _ =>
    if (tfind s.warps w).isNone then .next s else .next ((s.strike site).poisonLog (s.siteCtx site) r)
  | _ => .next ((s.strike site).poisonLog (s.siteCtx site) r)

end Sys2Proof.Machine
end

