-- ==== Sys2Proof/Machine/Start.lean ====
section
/-! DEFINITION. Staged start: power, self-test, firmware, training, the first slice, and the Plinth configuration record
(R348 to R351, R360). -/

namespace Sys2Proof.Machine

/-- The device stops in its stage with a failure code, a chiplet and an HBM stack (R349). -/
def Dev.failed (d : Dev) (code chip stack : Nat) : Dev :=
  { d with fail := true, fcode := .ofNat 8 code, fchip := .ofNat 4 chip, funit := .ofNat 4 stack }

/-- POWER_GOOD (R348). -/
def execPowerGood (s : State) : Out :=
  if s.dev.powered then .next s else .next { s with dev := { s.dev with powered := true } }

/-- ENTER_SAFE (R348): the self-test kernel of a chiplet may fail. -/
def execEnterSafe (selfTestFail : Option Nat) (s : State) : Out :=
  let d := s.dev
  if !d.powered || d.stage != 0 then .next s
  else
    let d1 : Dev := { d with stage := 1 }
    match selfTestFail with
    | some chip => .next { s with dev := d1.failed 1 chip 0 }
    | none => .next { s with dev := d1 }

/-- Measurement register 0 extended by the SHAKE256 digest of an image (R350). -/
def Dev.extend (d : Dev) (image : Nat) : Dev :=
  { d with measure := Config.measureExtend d.measure (Config.shake256 image) }

/-- FIRMWARE_AUTHENTICATION (R350). -/
def execFirmwareAuthentication (image signature : Nat) (s : State) : Out :=
  let d := s.dev
  if d.stage != 1 || d.fail || d.firmwareOk then .next s
  else if Config.falconVerify image signature then .next { s with dev := { d.extend image with firmwareOk := true } }
  else .next { s with dev := d.failed 2 0 0 }

/-- A numbering of n things gives each another number below n. -/
def renumbers (n : Nat) (f : Nat → Nat) : Bool :=
  (List.range n).all (fun k => f k < n) && ((List.range n).map f).eraseDups.length == n

/-- A remap table names a physical cluster for every logical one, none twice, and none that fuses disable; it renumbers the
chiplets among themselves, and so the cores of each cluster (R2, R349; log entry 8). -/
def remapOk (fuses : List Nat) (r : RemapTable) : Bool :=
  let l := r.clusters
  l.length == Config.clusters && (List.range Config.clusters).all (fun c => (tfind l c).isSome) &&
    l.all (fun (_, p) => p < 48 && !fuses.contains p) && (l.map (·.2)).eraseDups.length == Config.clusters &&
    renumbers 4 (fun k => tget k r.chips k) &&
    (List.range Config.clusters).all fun c => renumbers 8 fun k => tget k r.cores (8 * c + k)

/-- A list of pairs as a table: the first pair of a key counts. -/
def tabOf (l : List (Nat × Nat)) : Tab Nat := l.foldr (fun (k, x) t => tset t k x) []

/-- A Plinth configuration record is valid (R351). -/
def recordOk (scru spillm : Nat) : Bool :=
  16 ≤ scru && scru ≤ 112 && 1 ≤ spillm && spillm ≤ 16 && 12 * scru + 16 * spillm ≤ 1408

/-- The Plinth configuration record is read and measured (R351): a flash that holds none gives the defaults. -/
def Dev.plinthRecord (d : Dev) : Dev :=
  match d.flash with
  | none => { d with scru := 64, spillm := 4 }
  | some (scru, spillm) =>
    let d1 := d.extend (Config.plinthRecordImage scru spillm)
    if recordOk scru spillm then { d1 with scru := scru, spillm := spillm } else d1.failed 9 0 0

/-- ENTER_TRAINED (R348, R349, R351): a failure stops the device in SAFE; a CXL or Wale link that does not train is left
down. -/
def execEnterTrained (hbmFail plinthFail : Option Nat) (remap : RemapTable) (cxlUp waleUp : Nat) (s : State) : Out :=
  let d := s.dev
  if d.stage != 1 || d.fail || !d.firmwareOk then .next s
  else
    match hbmFail, plinthFail with
    | some stack, _ => .next { s with dev := d.failed 3 0 stack }
    | none, some chip => .next { s with dev := d.failed 6 chip 0 }
    | none, none =>
      if !remapOk d.fuses remap then .next { s with dev := d.failed 7 0 0 }
      else
        let d1 := d.plinthRecord
        if d1.fail then .next { s with dev := d1 }
        else .next { s with dev := { d1 with
          stage := 2
          remap := tabOf remap.clusters
          chipNums := tabOf remap.chips
          coreNums := tabOf remap.cores
          cxlUp := .ofNat 8 cxlUp
          wlink := .ofNat 12 waleUp } }

/-- Slice descriptor 0 as the device writes it in FULL (R360): every enabled cluster, minima 0 and maxima all there is. -/
def State.firstSlice (s : State) : BitVec 256 :=
  let mask := (List.range Config.clusters).foldl (fun t c => if (s.cluster c).retired then t else t + 2 ^ c) 0
  .ofNat 256 (mask + s.hbm4 / 4 * 2 ^ 64 + s.tier2 * 2 ^ 96 + s.dev.scru * 2 ^ 128 + 16 * 2 ^ 141 + s.waleBw * 2 ^ 176 + 2 ^ 192)

/-- ENTER_FULL (R348, R360): each cluster has its own part of its chiplet's scratch share. -/
def execEnterFull (s : State) : Out :=
  let d := s.dev
  if d.stage != 2 || d.fail then .next s
  else
    let x := s.firstSlice
    .next { s with dev := { d with
      stage := 3
      slices := tset d.slices 0 x
      sliceNum := tset d.sliceNum 0 (bits x.toNat 0 48) } }

/-- PLINTH_CONFIG_COMMIT (R351): a write of `PCFGNEXT`, which takes effect at the next fundamental reset. -/
def execPlinthConfigCommit (val : BitVec 32) (s : State) : Out :=
  let d := s.dev
  let scru := bits val.toNat 0 8
  let spillm := bits val.toNat 8 8
  if !s.hostTaken then .next s
  else
    let d1 : Dev := { d with pcfgNext := val &&& 0x7FFFFFFF }
    if bits val.toNat 31 1 == 0 then .next { s with dev := d1 }
    else if bits val.toNat 16 15 != 0 || !recordOk scru spillm then .next { s with dev := { d1 with pcfgErr := true } }
    else .next { s with dev := { d1 with flash := some (scru, spillm), pcfgErr := false } }

end Sys2Proof.Machine
end

