-- ==== Sys2Proof/Machine/Registers.lean ====
section
/-! DEFINITION. Writes of the device's registers by the host (R314, R325, R329, R335, R349, R351, R354, R356, R364 to R368,
R377, R379). -/

namespace Sys2Proof.Machine

/-- A base address as R379 takes it: 4 KiB aligned, with bits [63:48] 0. -/
def baseOk (val : Nat) : Bool := bits val 0 12 == 0 && bits val 48 16 == 0

/-- A ring size in its range, or 0, which disables the ring (R379). -/
def logOk (hi val : Nat) : Bool := val == 0 || 4 ≤ val && val ≤ hi

/-- A write of a register of the 0x0100 block that has no behaviour of its own (R314, R329, R354, R379): none is ignored
and logged. -/
def Fn.write (f : Fn) (off : Nat) (val : Nat) : Option Fn :=
  let idle := f.lrhead == f.lrtail
  match off with
  | 0x100 => if baseOk val && idle then some { f with lrbase := .ofNat 64 val } else none
  | 0x108 => if logOk 16 (val % 2 ^ 32) && idle then some { f with lrlog := val % 2 ^ 32 } else none
  | 0x118 => if baseOk val then some { f with crbase := .ofNat 64 val } else none
  | 0x140 => if baseOk val then some { f with prbase := .ofNat 64 val } else none
  | 0x148 => if logOk 12 (val % 2 ^ 32) then some { f with prlog := val % 2 ^ 32 } else none
  | 0x160 => if baseOk val then some { f with nrbase := .ofNat 64 val } else none
  | 0x168 => if logOk 12 (val % 2 ^ 32) then some { f with nrlog := val % 2 ^ 32 } else none
  | _ => some f

/-- A register of the physical function's BAR 0 that has no behaviour of its own (R325, R335, R356): none is ignored and
logged (log entry 59). -/
def Dev.write0 (d : Dev) (off : Nat) (val : Nat) : Option Dev :=
  match off with
  | 0x200 => some { d with invva := .ofNat 64 val }
  | 0x208 => some { d with invcnt := .ofNat 32 val }
  | 0x308 => if bits val 0 18 == 0 && bits val 52 12 == 0 then some { d with ctxtab := .ofNat 64 val } else none
  | 0x400 => if bits val 0 12 == 0 && bits val 52 12 == 0 then some { d with wbind := .ofNat 64 val } else none
  | 0x408 => if 1 ≤ val % 2 ^ 32 && val % 2 ^ 32 ≤ 1000000 then some { d with wtmo := .ofNat 32 val } else none
  | _ => some d

/-- A register of BAR 2 that has no behaviour of its own (R351, R365, R366, R368, R377): none is ignored and logged (log
entry 59). -/
def Dev.write2 (d : Dev) (off : Nat) (val : Nat) : Option Dev :=
  match off with
  | 0x200 => some { d with ksaddr := .ofNat 64 val }
  | 0x220 => some { d with atnonce := .ofNat 64 val }
  | 0x228 => if bits val 0 12 == 0 then some { d with atout := .ofNat 64 val } else none
  | 0x240 => some { d with tdlist := .ofNat 64 val }
  | 0x248 => some { d with tdcnt := .ofNat 32 val }
  | 0x300 => if bits val 0 12 == 0 && bits val 52 12 == 0 then some { d with dlbase := .ofNat 64 val } else none
  | _ => some d

/-- A write of BAR 0 of a function (R354): a register with an event of its own behaves as that event. -/
def State.write0 (s : State) (fn off : Nat) (val : BitVec 64) : Out :=
  let v32 : BitVec 32 := val.setWidth 32
  match off with
  | 0x10C => execLrtailDoorbell fn v32 s
  | 0x124 | 0x150 | 0x170 => execRingHeadWrite fn off v32 s
  | 0x158 => execPageRequestReply fn v32 s
  | _ =>
    if !s.hostTaken then .next s
    else if bits off 8 8 == 1 && off < 0x200 then
      match (s.fn fn).write off val.toNat with
      | some f => .next (s.modFn fn fun _ => f)
      | none => .next (s.ignored fn off)
    else if fn != 0 then .next s
    else if off == 0x20C then .next (s.invCommand v32.toNat)
    else if off == 0x300 then .next (s.ctxCommand v32.toNat)
    else
      match s.dev.write0 off val.toNat with
      | some d => .next { s with dev := d }
      | none => .next (s.ignored 0 off)

/-- A write of BAR 2 of the physical function (R360, R377): a register with an event of its own behaves as that event. -/
def State.write2 (s : State) (off : Nat) (val : BitVec 64) : Out :=
  let v32 : BitVec 32 := val.setWidth 32
  match off with
  | 0x120 => .next (s.retire_ v32.toNat)
  | 0x208 => .next (s.keyCommand v32.toNat)
  | 0x230 => execAttestationRequest v32 s
  | 0x24C => .next (s.teardown_ v32.toNat)
  | 0x284 => execPlinthConfigCommit v32 s
  | 0x30C => execDlrdWrite v32 s
  | 0x310 => execDlovfWrite v32 s
  | _ =>
    if s.dev.stage != 3 || s.dev.tripped && off != 0x300 then .next s
    else
      match s.dev.write2 off val.toNat with
      | some d => .next { s with dev := d }
      | none => .next (s.ignored 0 off)

/-- REGISTER_WRITE (R349, R354, R373, R379). -/
def execRegisterWrite (fn bar off : Nat) (val : BitVec 64) (s : State) : Out :=
  if 64 ≤ fn then .next s
  else
    match bar with
    | 0 => s.write0 fn off val
    | 2 => if fn == 0 then s.write2 off val else .next s
    | _ => .next s

end Sys2Proof.Machine
end

