-- ==== Sys2Proof/Machine/Sync.lean ====
section
/-! DEFINITION. Fences, barriers, waits and the drain of writes (R90, R233 to R236). -/

namespace Sys2Proof.Machine

/-- `FENCE` (R87, R233): it acts even with no participating lane (R94). -/
def execFence (c : Common) (f : FS) (s : State) : Out :=
  s.issue false (.fence c f) fun x t =>
    let ord := modBits f.mod 0 3
    match if ordRel ord then t.releaseCheck x else none with
    | some r => r
    | none => .adv ((t.fence x.w (modBits f.mod 3 3) ord).boundary x)

/-- The joint clock of the warps at a barrier (R80). -/
def State.joinClock (s : State) : List Nat → Tab Nat
  | [] => []
  | w :: r => vcJoin (s.joinClock r) ((s.warp w).vcNow w)

/-- The warps of a block. -/
def State.blockWarps (s : State) (b : Nat) : List Nat := (s.blk b).warps

/-- The warps of every block of a gang. -/
def State.gangWarps (s : State) (g : Nat) : List Nat := (s.gang g).blocks.flatMap s.blockWarps

/-- The participating warp leaves the barrier it has passed. -/
def Warp.passBar (w : Warp) (gang : Bool) : Warp := if gang then { w with gbar := none } else { w with bar := none }

/-- The generation a warp has arrived in. -/
def Warp.barOf (w : Warp) (gang : Bool) : Option Nat := if gang then w.gbar else w.bar

/-- Record the arrival, and release the barrier when no warp is missing (R234). -/
def State.arrive (s : State) (x : Ix) (gang : Bool) (gen : Nat) (all : List Nat) (next : State → State)
    (pass : State → Res) : Res :=
  let s1 := s.modWarp x.w fun w =>
    if gang then { w with gbar := some gen, hold := some x.cp } else { w with bar := some gen, hold := some x.cp }
  let here := all.filter fun v => !(s1.warp v).retired
  if here.all fun v => (s1.warp v).barOf gang == some gen then
    let v := s1.joinClock here
    pass (next (here.foldl (fun t k => t.modWarp k fun w => w.acquire v) s1))
  else .keep s1

/-- A barrier over the listed warps (R234): `gen` is its generation, `next` advances it. -/
def State.barrier (s : State) (x : Ix) (gang : Bool) (gen : Nat) (all : List Nat) (next : State → State) : Res :=
  match s.releaseCheck x with
  | some r => r
  | none =>
    let pass (t : State) : Res := .adv ((t.modWarp x.w fun w => w.passBar gang).boundary x)
    match (s.warp x.w).barOf gang with
    | some g =>
      if g < gen then pass s else s.arrive x gang gen all next pass
    | none => s.arrive x gang gen all next pass
/-- `BAR` (R234). -/
def execBar (c : Common) (f : FM) (s : State) : Out :=
  s.issue false (.bar c f) fun x t =>
    let b := (t.warp x.w).block
    t.barrier x false (t.blk b).barGen (t.blockWarps b) fun u => u.modBlk b fun k => { k with barGen := k.barGen + 1 }

/-- `GBAR` (R234). -/
def execGbar (c : Common) (f : FM) (s : State) : Out :=
  s.issue false (.gbar c f) fun x t =>
    let g := (t.wblk x.w).gang
    t.barrier x true (t.gang g).gbarGen (t.gangWarps g) fun u => u.modGang g fun k => { k with gbarGen := k.gbarGen + 1 }

/-- `WAITF` (R135, R235): it waits, reports and closes the region whatever the guards (R94). -/
def execWaitf (c : Common) (f : FS) (s : State) : Out :=
  s.issue false (.waitf c f) fun x t =>
    let w := t.warp x.w
    let m := f.imm.toNat
    if !w.flagsClear m then .keep t
    else
      match w.flagFault m with
      | some p => .raise (t.setWarp x.w (w.takeFault p)) { p.fr with async := true, rpc := x.cp }
      | none => .adv (t.setWarp x.w (w.flagAcquire m).boundary)

/-- `DRAIN` (R236): the count of writes when it first issued is what it waits for. -/
def execDrain (c : Common) (f : FS) (s : State) : Out :=
  s.issue false (.drain c f) fun x t =>
    let w := t.warp x.w
    let goal : DWord := match w.drainTo with
      | some (cp, n) => if cp == x.cp then n else w.wissue
      | none => w.wissue
    if x.lanes.isEmpty then .adv t
    else
      match w.drainFaults with
      | r :: rest => .raise (t.setWarp x.w { w with drainFaults := rest, drainTo := none }) { r with rpc := x.cp }
      | [] =>
        if goal ≤ w.wdrain then .adv (t.setWarp x.w { w with drainTo := none })
        else .keep (t.setWarp x.w { w with drainTo := some (x.cp, goal) })

/-- A write of the warp is set aside under its number in issue order (R90). -/
def State.writeParked (s : State) (w n : Nat) : Bool := s.parked.any fun p => p.warp == w && p.wno == n && p.isLog

/-- WRITE_DRAINED (R90): the oldest write not counted yet is performed and visible, unless it is set aside. -/
def execWriteDrained (warp : Nat) (s : State) : Out :=
  let w := s.warp warp
  if w.wdrain < w.wissue && !s.writeParked warp (w.wdrain.toNat + 1) then
    .next (s.modWarp warp fun y => { y with wdrain := y.wdrain + 1 })
  else .next s

end Sys2Proof.Machine
end

