-- ==== Sys2Proof/Machine/Dispatch.lean ====
section
/-! DEFINITION. The meaning of each instruction and event: one arm, one call. -/

namespace Sys2Proof.Machine

/-- Perform an instruction of warp `cur`, or an event. -/
def exec (i : Instr) (s : State) : Host.Outcome State Fault Refusal :=
  match i with
  | .nop c f => Sys2Proof.Machine.execNop c f s
  | .bra c f => Sys2Proof.Machine.execBra c f s
  | .brx c f => Sys2Proof.Machine.execBrx c f s
  | .call c f => Sys2Proof.Machine.execCall c f s
  | .ret c f => Sys2Proof.Machine.execRet c f s
  | .exit c f => Sys2Proof.Machine.execExit c f s
  | .yield c f => Sys2Proof.Machine.execYield c f s
  | .wsync c f => Sys2Proof.Machine.execWsync c f s
  | .rgn c f => Sys2Proof.Machine.execRgn c f s
  | .vote c f => Sys2Proof.Machine.execVote c f s
  | .shfl c f => Sys2Proof.Machine.execShfl c f s
  | .rdlane c f => Sys2Proof.Machine.execRdlane c f s
  | .brk c f => Sys2Proof.Machine.execBrk c f s
  | .trap c f => Sys2Proof.Machine.execTrap c f s
  | .iadd c f => Sys2Proof.Machine.execIadd c f s
  | .isub c f => Sys2Proof.Machine.execIsub c f s
  | .imul c f => Sys2Proof.Machine.execImul c f s
  | .imulh c f => Sys2Proof.Machine.execImulh c f s
  | .imad c f => Sys2Proof.Machine.execImad c f s
  | .imadw c f => Sys2Proof.Machine.execImadw c f s
  | .idiv c f => Sys2Proof.Machine.execIdiv c f s
  | .irem c f => Sys2Proof.Machine.execIrem c f s
  | .imin c f => Sys2Proof.Machine.execImin c f s
  | .imax c f => Sys2Proof.Machine.execImax c f s
  | .iabs c f => Sys2Proof.Machine.execIabs c f s
  | .logt c f => Sys2Proof.Machine.execLogt c f s
  | .shl c f => Sys2Proof.Machine.execShl c f s
  | .shr c f => Sys2Proof.Machine.execShr c f s
  | .shp c f => Sys2Proof.Machine.execShp c f s
  | .popc c f => Sys2Proof.Machine.execPopc c f s
  | .clz c f => Sys2Proof.Machine.execClz c f s
  | .brev c f => Sys2Proof.Machine.execBrev c f s
  | .bfe c f => Sys2Proof.Machine.execBfe c f s
  | .bfi c f => Sys2Proof.Machine.execBfi c f s
  | .isetp c f => Sys2Proof.Machine.execIsetp c f s
  | .sel c f => Sys2Proof.Machine.execSel c f s
  | .lea c f => Sys2Proof.Machine.execLea c f s
  | .plogt c f => Sys2Proof.Machine.execPlogt c f s
  | .fadd c f => Sys2Proof.Machine.execFadd c f s
  | .fmul c f => Sys2Proof.Machine.execFmul c f s
  | .ffma c f => Sys2Proof.Machine.execFfma c f s
  | .fmin c f => Sys2Proof.Machine.execFmin c f s
  | .fmax c f => Sys2Proof.Machine.execFmax c f s
  | .fsetp c f => Sys2Proof.Machine.execFsetp c f s
  | .fdiv c f => Sys2Proof.Machine.execFdiv c f s
  | .fsqrt c f => Sys2Proof.Machine.execFsqrt c f s
  | .frcp c f => Sys2Proof.Machine.execFrcp c f s
  | .frsq c f => Sys2Proof.Machine.execFrsq c f s
  | .fex2 c f => Sys2Proof.Machine.execFex2 c f s
  | .flg2 c f => Sys2Proof.Machine.execFlg2 c f s
  | .fsin c f => Sys2Proof.Machine.execFsin c f s
  | .fcos c f => Sys2Proof.Machine.execFcos c f s
  | .ftanh c f => Sys2Proof.Machine.execFtanh c f s
  | .ferf c f => Sys2Proof.Machine.execFerf c f s
  | .fclass c f => Sys2Proof.Machine.execFclass c f s
  | .fscale c f => Sys2Proof.Machine.execFscale c f s
  | .cvt c f => Sys2Proof.Machine.execCvt c f s
  | .qnt c f => Sys2Proof.Machine.execQnt c f s
  | .dqt c f => Sys2Proof.Machine.execDqt c f s
  | .bsel c f => Sys2Proof.Machine.execBsel c f s
  | .pack c f => Sys2Proof.Machine.execPack c f s
  | .fdp4 c f => Sys2Proof.Machine.execFdp4 c f s
  | .fdp8 c f => Sys2Proof.Machine.execFdp8 c f s
  | .idp4 c f => Sys2Proof.Machine.execIdp4 c f s
  | .idp8 c f => Sys2Proof.Machine.execIdp8 c f s
  | .mov c f => Sys2Proof.Machine.execMov c f s
  | .movi c f => Sys2Proof.Machine.execMovi c f s
  | .rdsr c f => Sys2Proof.Machine.execRdsr c f s
  | .wrsr c f => Sys2Proof.Machine.execWrsr c f s
  | .ld c f => Sys2Proof.Machine.execLd c f s
  | .st c f => Sys2Proof.Machine.execSt c f s
  | .atom c f => Sys2Proof.Machine.execAtom c f s
  | .atomcas c f => Sys2Proof.Machine.execAtomcas c f s
  | .red c f => Sys2Proof.Machine.execRed c f s
  | .ldk c f => Sys2Proof.Machine.execLdk c f s
  | .stk c f => Sys2Proof.Machine.execStk c f s
  | .bnarrow c f => Sys2Proof.Machine.execBnarrow c f s
  | .badv c f => Sys2Proof.Machine.execBadv c f s
  | .bget c f => Sys2Proof.Machine.execBget c f s
  | .wmap c f => Sys2Proof.Machine.execWmap c f s
  | .wunmap c f => Sys2Proof.Machine.execWunmap c f s
  | .wflush c f => Sys2Proof.Machine.execWflush c f s
  | .fence c f => Sys2Proof.Machine.execFence c f s
  | .bar c f => Sys2Proof.Machine.execBar c f s
  | .gbar c f => Sys2Proof.Machine.execGbar c f s
  | .cinit c f => Sys2Proof.Machine.execCinit c f s
  | .waitf c f => Sys2Proof.Machine.execWaitf c f s
  | .wprd c f => Sys2Proof.Machine.execWprd c f s
  | .wpwait c f => Sys2Proof.Machine.execWpwait c f s
  | .drain c f => Sys2Proof.Machine.execDrain c f s
  | .acq c f => Sys2Proof.Machine.execAcq c f s
  | .acqTry c f => Sys2Proof.Machine.execAcqTry c f s
  | .rel c f => Sys2Proof.Machine.execRel c f s
  | .claimrd c f => Sys2Proof.Machine.execClaimrd c f s
  | .push c f => Sys2Proof.Machine.execPush c f s
  | .cpst c f => Sys2Proof.Machine.execCpst c f s
  | .bndmin c f => Sys2Proof.Machine.execBndmin c f s
  | .bndrd c f => Sys2Proof.Machine.execBndrd c f s
  | .dqpush c f => Sys2Proof.Machine.execDqpush c f s
  | .dqpop c f => Sys2Proof.Machine.execDqpop c f s
  | .dqsteal c f => Sys2Proof.Machine.execDqsteal c f s
  | .dqinit c f => Sys2Proof.Machine.execDqinit c f s
  | .mma c f => Sys2Proof.Machine.execMma c f s
  | .zclr c f => Sys2Proof.Machine.execZclr c f s
  | .zmov c f => Sys2Proof.Machine.execZmov c f s
  | .zst c f => Sys2Proof.Machine.execZst c f s
  | .zld c f => Sys2Proof.Machine.execZld c f s
  | .att c f => Sys2Proof.Machine.execAtt c f s
  | .attfin c f => Sys2Proof.Machine.execAttfin c f s
  | .mset c f => Sys2Proof.Machine.execMset c f s
  | .mld c f => Sys2Proof.Machine.execMld c f s
  | .mst c f => Sys2Proof.Machine.execMst c f s
  | .mmov c f => Sys2Proof.Machine.execMmov c f s
  | .madd c f => Sys2Proof.Machine.execMadd c f s
  | .msub c f => Sys2Proof.Machine.execMsub c f s
  | .mmul c f => Sys2Proof.Machine.execMmul c f s
  | .mscl c f => Sys2Proof.Machine.execMscl c f s
  | .mfma c f => Sys2Proof.Machine.execMfma c f s
  | .mrelu c f => Sys2Proof.Machine.execMrelu c f s
  | .msigm c f => Sys2Proof.Machine.execMsigm c f s
  | .mexp c f => Sys2Proof.Machine.execMexp c f s
  | .mmax c f => Sys2Proof.Machine.execMmax c f s
  | .mmin c f => Sys2Proof.Machine.execMmin c f s
  | .mplt c f => Sys2Proof.Machine.execMplt c f s
  | .mcol c f => Sys2Proof.Machine.execMcol c f s
  | .mred c f => Sys2Proof.Machine.execMred c f s
  | .mshfl c f => Sys2Proof.Machine.execMshfl c f s
  | .mmom c f => Sys2Proof.Machine.execMmom c f s
  | .hnew c f => Sys2Proof.Machine.execHnew c f s
  | .hld c f => Sys2Proof.Machine.execHld c f s
  | .hst c f => Sys2Proof.Machine.execHst c f s
  | .hatom c f => Sys2Proof.Machine.execHatom c f s
  | .hldr c f => Sys2Proof.Machine.execHldr c f s
  | .hstr c f => Sys2Proof.Machine.execHstr c f s
  | .hmov c f => Sys2Proof.Machine.execHmov c f s
  | .hcmp c f => Sys2Proof.Machine.execHcmp c f s
  | .hhdr c f => Sys2Proof.Machine.execHhdr c f s
  | .hpin c f => Sys2Proof.Machine.execHpin c f s
  | .hunpin c f => Sys2Proof.Machine.execHunpin c f s
  | .hflipMark c f => Sys2Proof.Machine.execHflipMark c f s
  | .hflipConf c f => Sys2Proof.Machine.execHflipConf c f s
  | .hcas c f => Sys2Proof.Machine.execHcas c f s
  | .rte c f => Sys2Proof.Machine.execRte c f s
  | .prd c f => Sys2Proof.Machine.execPrd c f s
  | .pwr c f => Sys2Proof.Machine.execPwr c f s
  | .invmark c f => Sys2Proof.Machine.execInvmark c f s
  | .invconf c f => Sys2Proof.Machine.execInvconf c f s
  | .errrd c f => Sys2Proof.Machine.execErrrd c f s
  | .lineFetch warp => Sys2Proof.Machine.execLineFetch warp s
  | .entryAged warp => Sys2Proof.Machine.execEntryAged warp s
  | .yieldExpiry warp => Sys2Proof.Machine.execYieldExpiry warp s
  | .arbiterRequestTest cluster => Sys2Proof.Machine.execArbiterRequestTest cluster s
  | .arbiterRelease cluster => Sys2Proof.Machine.execArbiterRelease cluster s
  | .gangAdmission slice => Sys2Proof.Machine.execGangAdmission slice s
  | .concurrentAdmission slice => Sys2Proof.Machine.execConcurrentAdmission slice s
  | .blockDispatch cluster => Sys2Proof.Machine.execBlockDispatch cluster s
  | .windowFill cluster => Sys2Proof.Machine.execWindowFill cluster s
  | .wflushCompletion op => Sys2Proof.Machine.execWflushCompletion op s
  | .copyBeatDelivery chan => Sys2Proof.Machine.execCopyBeatDelivery chan s
  | .copyCommandCompletion chan => Sys2Proof.Machine.execCopyCommandCompletion chan s
  | .mmaCompletion op => Sys2Proof.Machine.execMmaCompletion op s
  | .mmomCompletion op => Sys2Proof.Machine.execMmomCompletion op s
  | .zldCompletion op => Sys2Proof.Machine.execZldCompletion op s
  | .zstCompletion op => Sys2Proof.Machine.execZstCompletion op s
  | .attCompletion op => Sys2Proof.Machine.execAttCompletion op s
  | .attfinCompletion op => Sys2Proof.Machine.execAttfinCompletion op s
  | .writeDrained warp => Sys2Proof.Machine.execWriteDrained warp s
  | .dequeStampMet warp => Sys2Proof.Machine.execDequeStampMet warp s
  | .boundShadowUpdate gang core n => Sys2Proof.Machine.execBoundShadowUpdate gang core n s
  | .jointerObjectCopy ctx region => Sys2Proof.Machine.execJointerObjectCopy ctx region s
  | .healSweep ctx region => Sys2Proof.Machine.execHealSweep ctx region s
  | .jointerFree => Sys2Proof.Machine.execJointerFree s
  | .sanderOverwrite => Sys2Proof.Machine.execSanderOverwrite s
  | .launchValidation => Sys2Proof.Machine.execLaunchValidation s
  | .hostnoteWrite cluster => Sys2Proof.Machine.execHostnoteWrite cluster s
  | .lrtailDoorbell fn val => Sys2Proof.Machine.execLrtailDoorbell fn val s
  | .launchEntryRead fn => Sys2Proof.Machine.execLaunchEntryRead fn s
  | .completionEntryWrite fn => Sys2Proof.Machine.execCompletionEntryWrite fn s
  | .ringHeadWrite fn off val => Sys2Proof.Machine.execRingHeadWrite fn off val s
  | .registerWrite fn bar off val => Sys2Proof.Machine.execRegisterWrite fn bar off val s
  | .pageRequestWrite fn => Sys2Proof.Machine.execPageRequestWrite fn s
  | .pageRequestReply fn val => Sys2Proof.Machine.execPageRequestReply fn val s
  | .replayRewalk ctx page => Sys2Proof.Machine.execReplayRewalk ctx page s
  | .invMarkCommand val => Sys2Proof.Machine.execInvMarkCommand val s
  | .invConfirmCommand val => Sys2Proof.Machine.execInvConfirmCommand val s
  | .invalidationDone => Sys2Proof.Machine.execInvalidationDone s
  | .contextSave val => Sys2Proof.Machine.execContextSave val s
  | .contextSaveComplete ctx => Sys2Proof.Machine.execContextSaveComplete ctx s
  | .contextRestore val => Sys2Proof.Machine.execContextRestore val s
  | .gangReadmission gang => Sys2Proof.Machine.execGangReadmission gang s
  | .functionLevelReset fn => Sys2Proof.Machine.execFunctionLevelReset fn s
  | .fundamentalReset => Sys2Proof.Machine.execFundamentalReset s
  | .powerGood => Sys2Proof.Machine.execPowerGood s
  | .enterSafe selfTestFail => Sys2Proof.Machine.execEnterSafe selfTestFail s
  | .firmwareAuthentication image signature => Sys2Proof.Machine.execFirmwareAuthentication image signature s
  | .enterTrained hbmFail plinthFail remap cxlUp waleUp => Sys2Proof.Machine.execEnterTrained hbmFail plinthFail remap cxlUp waleUp s
  | .enterFull => Sys2Proof.Machine.execEnterFull s
  | .plinthConfigCommit val => Sys2Proof.Machine.execPlinthConfigCommit val s
  | .sliceDescriptorWrite slice val => Sys2Proof.Machine.execSliceDescriptorWrite slice val s
  | .retireCluster val => Sys2Proof.Machine.execRetireCluster val s
  | .retireMemoryChannel val => Sys2Proof.Machine.execRetireMemoryChannel val s
  | .keySlotLoad val => Sys2Proof.Machine.execKeySlotLoad val s
  | .keySlotZeroise val => Sys2Proof.Machine.execKeySlotZeroise val s
  | .transportKeyInstall val => Sys2Proof.Machine.execTransportKeyInstall val s
  | .attestationRequest val => Sys2Proof.Machine.execAttestationRequest val s
  | .teardown val => Sys2Proof.Machine.execTeardown val s
  | .scrubComplete => Sys2Proof.Machine.execScrubComplete s
  | .dlrdWrite val => Sys2Proof.Machine.execDlrdWrite val s
  | .dlovfWrite val => Sys2Proof.Machine.execDlovfWrite val s
  | .passCountChange cluster count => Sys2Proof.Machine.execPassCountChange cluster count s
  | .supplySag chiplet => Sys2Proof.Machine.execSupplySag chiplet s
  | .supplyRecovery chiplet => Sys2Proof.Machine.execSupplyRecovery chiplet s
  | .coolantReport medium inletTenths flowTenths => Sys2Proof.Machine.execCoolantReport medium inletTenths flowTenths s
  | .coolantReportTimeout => Sys2Proof.Machine.execCoolantReportTimeout s
  | .thermalTrip chiplet => Sys2Proof.Machine.execThermalTrip chiplet s
  | .timingErrorReplay core quadrant => Sys2Proof.Machine.execTimingErrorReplay core quadrant s
  | .correctableError site => Sys2Proof.Machine.execCorrectableError site s
  | .uncorrectableError site => Sys2Proof.Machine.execUncorrectableError site s
  | .gatingRequest cluster => Sys2Proof.Machine.execGatingRequest cluster s
  | .gatingCommit cluster => Sys2Proof.Machine.execGatingCommit cluster s
  | .clusterWake cluster => Sys2Proof.Machine.execClusterWake cluster s
  | .peerAccess link ctx addr len write => Sys2Proof.Machine.execPeerAccess link ctx addr len write s
  | .peerResponse chan elem answer => Sys2Proof.Machine.execPeerResponse chan elem answer s
  | .peerTimeout chan elem => Sys2Proof.Machine.execPeerTimeout chan elem s
  | .chipletReset chiplet => Sys2Proof.Machine.execChipletReset chiplet s

end Sys2Proof.Machine
end

