-- ==== Sys2Proof/Machine/Schedule.lean ====
section
/-! DEFINITION. What the machine does next when the agenda names nothing (log entry 2), and the words of a program placed
before a warp. -/

namespace Sys2Proof.Machine

/-- What a warp has due: an entry to age, a yield to end, a write to drain, and the withheld deque operation to perform. -/
def State.warpEvents (s : State) (w : Nat) (x : Warp) : List Instr :=
  (if x.entries.any fun (_, e) => e.isAged && !e.aged then [.entryAged w] else []) ++
    (if x.yielding && s.yieldOver w then [.yieldExpiry w] else []) ++ (if x.wdrain < x.wissue then [.writeDrained w] else []) ++
    (if s.dqWaits.any fun d => d.warp == w then [.dequeStampMet w] else [])

/-- What a cluster has due: arbiter, dispatcher, map unit, notes and power gating. -/
def Cluster.events (c : Nat) (k : Cluster) : List Instr :=
  (match k.queue with
    | .request _ _ _ _ _ _ _ _ :: _ => [.arbiterRequestTest c]
    | .release _ _ _ :: _ | .restock :: _ => [.arbiterRelease c]
    | [] => []) ++
    (if k.dispatchQ.isEmpty then [] else [.blockDispatch c]) ++ (if k.fills.isEmpty then [] else [.windowFill c]) ++
    (if k.notes.isEmpty then [] else [.hostnoteWrite c]) ++
    (match k.gate with
      | .open => []
      | .requested => [.gatingCommit c]
      | .gated => [.clusterWake c])

/-- The completion of an accepted operation. -/
def AsyncOp.event (n : Nat) (o : AsyncOp) : Instr :=
  match o.kind with
  | .mma false _ _ _ _ _ _ _ _ => .mmaCompletion n
  | .mma true _ _ _ _ _ _ _ _ => .mmomCompletion n
  | .zld _ _ _ _ _ => .zldCompletion n
  | .zst _ _ _ _ _ => .zstCompletion n
  | .att _ _ _ _ _ _ _ _ _ => .attCompletion n
  | .attfin _ => .attfinCompletion n
  | .wflush _ => .wflushCompletion n

/-- What a function's rings have due. -/
def State.fnEvents (s : State) (n : Nat) (f : Fn) : List Instr :=
  (if f.lrhead == f.lrtail then [] else [.launchEntryRead n]) ++
    (if f.completions.isEmpty then [] else [.completionEntryWrite n]) ++
    (if s.pageReqs.any fun q => q.fn == n && (q.tag.isNone || q.stalled) then [.pageRequestWrite n] else [])

/-- What the Jointer, the Sander, the distributors, the translating units and the controller have due. -/
def State.unitEvents (s : State) : List Instr :=
  (s.cycles.filter (·.conf)).flatMap (fun y => [Instr.jointerObjectCopy y.ctx y.region, .healSweep y.ctx y.region]) ++
    (if s.jointerQ.isEmpty then [] else [.jointerFree]) ++ (if s.sanderQ.isEmpty then [] else [.sanderOverwrite]) ++
    (if s.launchQ.isEmpty then [] else [.launchValidation]) ++
    ((s.admitQ.map fun (k, _, _) => k).eraseDups.flatMap fun k => [Instr.gangAdmission k, .concurrentAdmission k]) ++
    (s.pageReqs.filter (·.rewalk)).map (fun q => Instr.replayRewalk q.ctx q.page) ++
    s.bndMsgs.map (fun (g, c, n, _) => Instr.boundShadowUpdate g c n) ++
    (if s.dev.invBusy then [.invalidationDone] else []) ++
    ((s.ctxs.filter fun (_, y) => y.saving && !y.restoring).map fun (c, _) => Instr.contextSaveComplete c) ++
    ((s.gangs.filter fun (_, g) => g.st == .saved).map fun (g, _) => Instr.gangReadmission g) ++
    (if s.scrubs.isEmpty then [] else [.scrubComplete])

/-- A step passes: it is counted. -/
def State.tick (s : State) : State := { s with time := s.time + 1 }

/-- The quadrant of a warp tries to issue it (R167); a drowsy warp is swapped into the active set (R30). -/
def State.attempt (s : State) (w : Nat) : State :=
  let q := s.quadOf w
  if s.mayIssue w && (s.warp w).choice.isSome then
    { s with
      issues := tset s.issues q ((w :: tget [] s.issues q).take 9)
      active := tset s.active q ((w :: (tget [] s.active q).filter fun v => v != w).take 8) }
  else s

/-- Everything the device may do by itself now (log entry 2). -/
def State.dueEvents (s : State) : List Instr :=
  s.warps.flatMap (fun (w, x) => s.warpEvents w x) ++ s.clusters.flatMap (fun (c, k) => k.events c) ++
    s.ops.map (fun (n, o) => o.event n) ++
    ((s.chans.filter fun (_, c) => !c.queue.isEmpty).flatMap fun (n, _) => [Instr.copyBeatDelivery n, .copyCommandCompletion n]) ++
    s.fns.flatMap (fun (n, f) => s.fnEvents n f) ++ s.unitEvents

/-- The device event of this step: in every other step one of those due, each in its turn; none lets a warp issue (log
entry 2). -/
def State.dueEvent (s : State) : Option Instr :=
  if s.time % 2 == 0 then
    let l := s.dueEvents
    if l.isEmpty then none else l[s.time / 2 % l.length]?
  else none

/-- A byte of the record of a context that runs, is being saved or is being restored: the device ignores a driver's write
of it (R336). -/
def State.recordLocked (s : State) (a : Nat) : Bool :=
  let base := s.dev.ctxtab.toNat
  base ≤ a && a < base + 256 * 1024 && s.ctxState ((a - base) / 256) % 2 == 1

/-- The world outside writes physical memory: all bytes but those of a locked context record (R336). -/
def State.hostWrite (s : State) (a : Nat) (bytes : List Byte) : State :=
  let l := (addrs a bytes).filter fun (x, _) => !s.recordLocked x
  (s.putPhys l).relaid (l.map (·.1))

/-- The next number listed in a table at or above a number, or the least. -/
def nextKey {α : Type} (t : Tab α) (k : Nat) : Option Nat :=
  match t.find? fun (j, _) => k ≤ j with
  | some (j, _) => some j
  | none => t.head?.map (·.1)

/-- The warp whose turn it is, with the turn passed on (log entry 2). -/
def State.turnWarp (s : State) : Option Nat × State :=
  match nextKey s.warps s.turn with
  | none => (none, s)
  | some w => (some w, { s with turn := w + 1 })

/-- A line word whose `SETA` and `SETB` name flags 0 and 1, with every slot a legal target and no parity of its own. -/
def probeLineWord : Nat := 0x3E000001

/-- A launch record of one block of 32 threads that has every register of R311 and one line of code. -/
def probeRecord : BitVec 2048 :=
  .ofNat 2048 (2 ^ 960 + 192 * 2 ^ 384 + 64 * 2 ^ 393 + 16 * 2 ^ 400 + 32 * 2 ^ 320 + 2 ^ 336 + 2 ^ 352 + 2 ^ 256 + 2 ^ 288 +
    2 ^ 304 + 2 ^ 236 + 2 ^ 240)

/-- A warp of 32 live threads at code pointer 0, in a line whose slot 0 holds the word (log entry 13). -/
def probeWarp (b nbits w : Nat) : Warp :=
  { block := b
    threads := allLanes.map fun l => (l, { st := .live })
    entries := [(0, { entered := true, line := .ofNat 512 (probeLineWord + w % 2 ^ (min nbits 96) * 2 ^ 32) })] }

/-- The machine with a resident grid of one warp, about to issue the word (log entry 13). -/
def State.withWord (s : State) (nbits w : Nat) : State :=
  let g := tnext s.grids
  let gg := tnext s.gangs
  let b := tnext s.blocks
  let n := tnext s.warps
  { s with
    grids := tset s.grids g { lr := probeRecord, st := .running, nextBlock := 1, admitted := true }
    gangs := tset s.gangs gg { grid := g, blocks := [b] }
    blocks := tset s.blocks b { grid := g, gang := gg, st := .resident, warps := [n] }
    warps := tset s.warps n (probeWarp b nbits w)
    agenda := .issue n :: s.agenda }

end Sys2Proof.Machine
end

