-- ==== Sys2Proof/Machine/Step.lean ====
section
/-! DEFINITION. One step: what the agenda names, else a device event that is due, else the issue of the warp whose turn it
is. -/

namespace Sys2Proof.Machine

/-- Issue a warp: its chosen entry enters its line, or performs the instruction its slot decodes to (R25, R164,
R179). -/
def issueWarp (w : Nat) (r : State) : Host.Outcome State Fault Refusal :=
  let s : State := { r.attempt w with cur := w }
  let x := r.warp w
  match x.choice with
  | none => .next s
  | some c =>
    if !(x.entry c).entered then exec (.lineFetch w) s
    else
      let word := lineSlot (x.entry c).line (cpSlot c)
      match decode word with
      | .ok i => exec i s
      | .illegal sub => s.issueIllegal (word.toNat / 2 ^ 86) sub
      | .reserved i => s.issue true i fun _ t => .keep t

/-- Perform one thing of the agenda. -/
def perform (a : Act) (s : State) : Host.Outcome State Fault Refusal :=
  match a with
  | .issue w => issueWarp w s
  | .event i => exec i s
  | .hostWrite addr bytes => .next (s.hostWrite addr bytes)
  | .bindRing fn ctx => .next (s.modFn fn fun f => { f with ctx := ctx + 1 })

/-- One step. -/
def step (s : State) : Host.Outcome State Fault Refusal :=
  let t : State := s.tick
  match t.agenda with
  | a :: r => perform a { t with agenda := r }
  | [] =>
    match t.dueEvent with
    | some i => exec i t
    | none =>
      match t.turnWarp with
      | (none, u) => .next u
      | (some w, u) => issueWarp w u

/-- The machine whose very next step issues the instruction with the given bits (log entry 13). -/
def State.withFetchWord (s : State) (nbits w : Nat) : State := s.withWord nbits w

end Sys2Proof.Machine
end

