-- ==== Sys2Proof/Safety.lean ====
section
/-! DEFINITION. The terms in which claims are stated: a safe step, the canonical form of the memories, when an instruction
issues, what it leaves as it was, and what one correct rounding is. -/

namespace Sys2Proof.Machine

/-- Every memory is in its canonical form. -/
def State.memWf (s : State) : Bool := Memory.wf s.mem && Memory.wf s.plinth && Memory.wf s.shared

/-- A step that stops nothing. -/
def Safe (s : State) : Prop := ∃ t, step s = .next t

/-- An instruction of warp `cur` issues for the entry `x`: R25 chooses it, nothing withholds the warp, the `WAIT` check of
its line is done (R168), no register of its operands still waits for an atomic that was set aside (R326), and no check of R179
fails. -/
structure Ready (s : State) (i : Instr) (x : Ix) : Prop where
  pick : s.pick s.cur i.common.grd = some x
  may : s.mayIssue s.cur = true
  waited : ((s.warp x.w).entry x.cp).waited = true ∨ lwWait (lineWord ((s.warp x.w).entry x.cp).line) = 0
  free : s.awaits x i = false
  clean : s.genericFault false x i = none

/-- Of the whole machine only one warp may have changed: every byte of memory, every tile, block, channel and device
register is as before. -/
structure OnlyWarp (s t : State) (w : Nat) : Prop where
  rest : t = { s with warps := t.warps }
  others : ∀ k, k ≠ w → t.warp k = s.warp k

/-- The elements of the list are taken in turn (R249): one beyond the ragged edge has the fill value, and any other is read at its
source offset. -/
def TakesElems (source : Nat → Option Int) (read : Int → State → Except CStop (List Byte) × State) (fill : List Byte) :
    List Nat → Tab (List Byte) → State → State → Prop
  | [], l, s, t => l = [] ∧ s = t
  | k :: r, l, s, t => ∃ b u l', l = (k, b) :: l' ∧ TakesElems source read fill r l' u t ∧
      (source k = none → b = fill ∧ u = s) ∧ ∀ o, source k = some o → read o s = (.ok b, u)

/-- The pages of the list are armed in turn (R117 step 3): in the directory entry of each, `ARMED` is set and `TOFF` names its
table. -/
def ArmsPages (p : Port) (g : Region) : List Armed → State → State → Prop
  | [], s, t => s = t
  | a :: r, s, t => ∃ d u v, runHeap (hRead p (g.dirVa a.page) 8) s = (.ok d, u) ∧
      runHeap (hWrite p (g.dirVa a.page) 8
        (d / 2 ^ 32 * 2 ^ 32 + a.toff / 4096 % 2 ^ 20 * 2 ^ 12 + d / 2 ^ 9 % 8 * 2 ^ 9 + 2 ^ 8 + d % 2 ^ 8)) u = (.ok (), v) ∧
      ArmsPages p g r v t

/-- The armed pages are given back in turn (R120): the free bit of each is set, and in its directory entry `ARMED` and `TOFF` are
cleared. -/
def FreesPages (p : Port) (g : Region) : List (Nat × Nat) → State → State → Prop
  | [], s, t => s = t
  | (q, _) :: r, s, t => ∃ d u v w, runHeap (hSetFree p g q true) s = (.ok (), u) ∧
      runHeap (hRead p (g.dirVa q) 8) (u.dropPageEnd p.ctx g.num q) = (.ok d, v) ∧
      runHeap (hWrite p (g.dirVa q) 8 (d % 2 ^ 8)) v = (.ok (), w) ∧ FreesPages p g r w t

/-- The threads of the issued entry stand at the next slot, and every other thread is as before (R26). -/
def FallsThrough (s t : State) (x : Ix) : Prop :=
  ∀ l, (t.warp x.w).th l =
    if l ∈ x.ent then { (s.warp x.w).th l with cp := nextCp x.cp } else (s.warp x.w).th l

end Sys2Proof.Machine

namespace Sys2Proof

/-- Word `r` of the `v` registers in lane `l` belongs to the n registers of a destination. -/
def Opd.coversV (d : Opd) (n : Nat) (lanes : List Nat) (r l : Nat) : Prop :=
  match d with
  | .v k => k.toNat ≤ r ∧ r < k.toNat + n ∧ l ∈ lanes
  | _ => False

/-- Register `r` of the `s` registers belongs to the n registers of a destination that some lane writes. -/
def Opd.coversS (d : Opd) (n : Nat) (lanes : List Nat) (r : Nat) : Prop :=
  match d with
  | .s k => k.toNat ≤ r ∧ r < k.toNat + n ∧ lanes ≠ []
  | _ => False

/-- The lane whose value a destination holds at the end: every writing lane for a `v` register, the last one for an `s`
register; `ZERO` holds none (R175). -/
def Opd.holdsOf (d : Opd) (lanes : List Nat) (l : Nat) : Prop :=
  match d with
  | .v _ => l ∈ lanes
  | .s _ => lanes.getLast? = some l
  | _ => False

end Sys2Proof

namespace Sys2Proof.Machine

/-- What writing n registers of a destination in the listed lanes does to the general registers: the destination holds the
value, low word first, and every other word of `v` and `s`, and every poison mark on one, is as before (R175, R187, R188,
R376). -/
structure Writes (a b : Warp) (lanes : List Nat) (d : Opd) (n : Nat) (val : Nat → Nat) : Prop where
  value : ∀ l, d.holdsOf lanes l → ∀ k, k < n → b.word d k l = .ofNat 32 (val l / 2 ^ (32 * k))
  keepV : ∀ r l, l < 32 → ¬ d.coversV n lanes r l → b.rv r l = a.rv r l
  keepS : ∀ r, ¬ d.coversS n lanes r → b.rs r = a.rs r
  marks : ∀ q, q ∈ b.poison ↔ q ∈ a.poison ∧ ¬ ∃ r l, q = (0, 32 * r + l) ∧ d.coversV n lanes r l

/-- What writing a predicate in the listed lanes does: they hold the value, and every other lane of every predicate is as
before; a write of `p7` is discarded (R173). -/
def WritesP (a b : Warp) (lanes : List Nat) (pd : BitVec 3) (val : Nat → Bool) : Prop :=
  ∀ k l, l < 32 → b.rp k l = if k = pd.toNat ∧ pd ≠ 7 ∧ l ∈ lanes then val l else a.rp k l

/-- Everything of a warp but its general and predicate registers, their poison marks and its threads' places is as before:
the moment, heap, bounded and convergence registers, flags, `%mctl`, `%mstat`, counters, fault record. -/
def KeptButRegs (a b : Warp) : Prop :=
  b = { a with
    v := b.v, s := b.s, p := b.p, poison := b.poison, threads := b.threads, entries := b.entries, yielding := b.yielding
    hold := none }

/-- An instruction that only computes: its destination and its predicate receive their values in the lanes that write them,
its entry falls through, and nothing else changes. -/
structure Computes (s t : State) (x : Ix) (u : Bool) (d : Opd) (n : Nat) (val : Nat → Nat) (pd : BitVec 3)
    (pval : Nat → Bool) : Prop where
  only : OnlyWarp s t x.w
  kept : KeptButRegs (s.warp x.w) (t.warp x.w)
  falls : FallsThrough s t x
  dest : Writes (s.warp x.w) (t.warp x.w) (x.targets u) d n val
  pred : WritesP (s.warp x.w) (t.warp x.w) x.lanes pd fun l => pval (if u then x.first else l)

/-- `exec` answers a next state in which an instruction that only computes has computed. -/
def Answers (i : Instr) (s : State) (x : Ix) (u : Bool) (d : Opd) (n : Nat) (val : Nat → Nat) (pd : BitVec 3)
    (pval : Nat → Bool) : Prop :=
  ∃ t, exec i s = .next t ∧ Computes s t x u d n val pd pval

/-- The same for an instruction that writes a destination and no predicate. -/
abbrev AnswersD (i : Instr) (s : State) (x : Ix) (u : Bool) (d : Opd) (n : Nat) (val : Nat → Nat) : Prop :=
  Answers i s x u d n val 7 fun _ => false

/-- The same for an instruction that writes a predicate and no register. -/
abbrev AnswersP (i : Instr) (s : State) (x : Ix) (u : Bool) (pd : BitVec 3) (pval : Nat → Bool) : Prop :=
  Answers i s x u .zero 0 (fun _ => 0) pd pval

/-- A transfer taken: the participating threads stand at their targets, the entry's other threads at the next slot, and
every other thread is as before (R26, R192). -/
def Transfers (s t : State) (x : Ix) (target : Nat → Word) : Prop :=
  ∀ l, (t.warp x.w).th l =
    if l ∈ x.lanes then { (s.warp x.w).th l with cp := target l }
    else if l ∈ x.ent then { (s.warp x.w).th l with cp := nextCp x.cp }
    else (s.warp x.w).th l

/-- Everything of a warp but its threads' places is as before: every register, flag, counter and record. -/
def KeptAll (a b : Warp) : Prop :=
  b = { a with threads := b.threads, entries := b.entries, yielding := b.yielding, hold := none }

/-- Of the whole machine only one warp and the cached translations may have changed. -/
structure OnlyWarpTlb (s t : State) (w : Nat) : Prop where
  rest : t = { s with warps := t.warps, tlb := t.tlb }
  others : ∀ k, k ≠ w → t.warp k = s.warp k

/-- Every target of the participating lanes passes its checks (R165, R192). -/
def TargetsGood (s : State) (x : Ix) (tgt : Nat → Int × Nat) : Prop :=
  ∀ p ∈ (s.checkTargets x.w tgt x.lanes).1, p.2 = .good

/-- `t` is `a` with the issued entry moved to the next slot: the entry's threads stand there, and nothing else of any warp
or of the machine differs (R26). -/
structure Moved (a t : State) (x : Ix) : Prop where
  rest : t = { a with warps := t.warps }
  others : ∀ k, k ≠ x.w → t.warp k = a.warp k
  kept : KeptAll (a.warp x.w) (t.warp x.w)
  falls : FallsThrough a t x

/-- `exec` answers a next state in which exactly the effect `a` has happened and the entry has moved on. -/
def Performs (i : Instr) (s : State) (x : Ix) (a : State) : Prop := ∃ t, exec i s = .next t ∧ Moved a t x

/-- The key at which an access of n bytes through a bounded register falls in a lane (R58, R60, R221). -/
def State.keyAt (s : State) (x : Ix) (f : FM) (n : Nat) (sp : Space) (l : Nat) : Nat :=
  s.keyOf x.w sp ((s.warp x.w).ea f n l).toNat

/-- The lanes that access, with their keys. -/
def State.keysAt (s : State) (x : Ix) (f : FM) (u : Bool) (n : Nat) (sp : Space) : List (Nat × Nat) :=
  (x.targets u).map fun l => (l, s.keyAt x f n sp l)

/-- An access of n bytes passes its checks: those of R60 in the space that the bounded register names, with no unfilled
chunk of a window among its bytes (R67), no race (R82) and no poisoned race metadata (R375).  `r` is the state in which
races are judged: that of the access itself, with what an atomic's acquire has taken (R80). -/
structure Passes (s r : State) (x : Ix) (f : FM) (u : Bool) (need : Need) (n : Nat) (sp : Space) (wr : Nat → Bool)
    (atomic : Bool) : Prop where
  space : ((s.warp x.w).rb f.bx.toNat).sp = some sp
  bound : s.memFault x ((s.warp x.w).rb f.bx.toNat) need n (s.eas x f u n) = none
  filled : sp = .plinth → s.unfilled ((x.targets u).map (s.keyAt x f n sp)) n = []
  race : r.racesOf x sp n (s.keysAt x f u n sp) wr atomic = []
  metaOk : r.metaFault x sp n (s.keysAt x f u n sp) = none

/-- Of the whole machine only one warp, the bytes of a local space with the marks kept beside them (poison, dirty windows),
and the records of race detection may have changed. -/
structure OnlyLocal (s t : State) (w : Nat) (sp : Space) : Prop where
  rest : t = { s with
    warps := t.warps, shared := t.shared, plinth := t.plinth, windows := t.windows, poisonShared := t.poisonShared
    poisonPlinth := t.poisonPlinth, raceShared := t.raceShared, racePlinth := t.racePlinth, relShared := t.relShared
    relPlinth := t.relPlinth }
  others : ∀ k, k ≠ w → t.warp k = s.warp k
  shared : sp ≠ .shared → t.shared = s.shared
  plinth : sp ≠ .plinth → t.plinth = s.plinth ∧ t.windows = s.windows

/-- Everything of a warp but its general registers and their poison marks, its threads' places, the count of its writes and
what orders its accesses is as before: predicates, every other register, flags, `%mctl`, `%mstat`, fault record. -/
def KeptButOrder (a b : Warp) : Prop :=
  b = { a with
    v := b.v, s := b.s, poison := b.poison, threads := b.threads, entries := b.entries, yielding := b.yielding
    hold := none, wissue := b.wissue, rsn := b.rsn, ep := b.ep, vc := b.vc, readVc := b.readVc, fenceVc := b.fenceVc }

/-- The issued entry stands at the next slot, which starts a new restart region (R26, R334). -/
def FallsRestarted (s t : State) (x : Ix) : Prop :=
  ∀ l, (t.warp x.w).th l =
    if l ∈ x.ent then { (s.warp x.w).th l with cp := nextCp x.cp, rcp := nextCp x.cp } else (s.warp x.w).th l

/-- Of the whole machine only one warp and the words of one tile, from the key k on, may have changed. -/
structure OnlyTile (s t : State) (w k : Nat) : Prop where
  rest : t = { s with warps := t.warps, tiles := t.tiles, poisonTile := t.poisonTile }
  others : ∀ v, v ≠ w → t.warp v = s.warp v
  outside : ∀ a, a < k ∨ k + tileWords ≤ a → tget 0 t.tiles a = tget 0 s.tiles a

/-- The state after a warp's asynchronous operation is accepted under a flag: the flag's count rises, the operation is
listed under the next number, and a new restart region starts (R88, R169, R334). -/
def State.accepted (s : State) (x : Ix) (kind : AsyncKind) (flag : Nat) : State :=
  let w := s.warp x.w
  let o : AsyncOp := { warp := x.w, kind := kind, flags := [flag], pc := x.cp, rsn := w.rsn, vc := w.vcNow x.w }
  { s.setWarp x.w { w with ep := w.ep + 1, flags := tput 0 w.flags flag (w.flag flag + 1) } with
    opCtr := s.opCtr + 1, ops := tset s.ops s.opCtr o }.restart x x.ent

/-- Claimants, each with its need and its allocation, can finish one after the other in this order: each one's need fits what
is available then, and it returns its allocation (R48). -/
def finishInOrder : List Int → List (List Int × List Int) → Prop
  | _, [] => True
  | avail, (need, al) :: r => rowLe need avail = true ∧ finishInOrder (rowAdd avail al) r

/-- A pairwise tree of 2^n leaves over an operation (R105). -/
def pairTree (op : FV → FV → FV) (leaf : Nat → FV) : Nat → Nat → FV
  | 0, i => leaf i
  | n + 1, i => op (pairTree op leaf n (2 * i)) (pairTree op leaf n (2 * i + 1))

/-- `exec` answers the next state in which the effect `a` has happened and the live threads of the issued entry have moved on
to the next slot (R26). -/
def Settles (i : Instr) (s : State) (x : Ix) (a : State) : Prop := exec i s = .next (State.settle x (.adv a))

/-! ### Exact results and their one rounding (R153 to R156) -/

/-- A real number is the one that a finite exact value stands for. -/
def FV.Is (v : FV) (x : Real) : Prop :=
  ∃ (n : Bool) (m : Nat) (e : Int), v = .fin n m e ∧ x = (if n then -1 else 1) * (m : Real) * (2 : Real) ^ e

/-- The sign that a value carries; zeros carry one too (R153). -/
def FV.sign : FV → Bool
  | .nan => false
  | .inf n => n
  | .fin n _ _ => n

/-- A row of R149 and R155: a format, its largest finite magnitude M, the gap u between M and the next smaller value, the
codes of a positive overflow without and with `SAT`, and that of NaN. -/
structure FpRow where
  fmt : FpFmt
  big : Nat
  gap : Nat
  inf : Nat
  max : Nat
  nan : Nat

/-- The rows of R149, R153 and R155. -/
def fpRows : List FpRow :=
  [{ fmt := fp64, big := (2 ^ 53 - 1) * 2 ^ 971, gap := 2 ^ 971, inf := 0x7FF0000000000000, max := 0x7FEFFFFFFFFFFFFF
     nan := 0x7FF8000000000000 },
   { fmt := fp32, big := (2 ^ 24 - 1) * 2 ^ 104, gap := 2 ^ 104, inf := 0x7F800000, max := 0x7F7FFFFF, nan := 0x7FC00000 },
   { fmt := fp16, big := 65504, gap := 32, inf := 0x7C00, max := 0x7BFF, nan := 0x7E00 },
   { fmt := bf16, big := 255 * 2 ^ 120, gap := 2 ^ 120, inf := 0x7F80, max := 0x7F7F, nan := 0x7FC0 },
   { fmt := e5m2, big := 57344, gap := 8192, inf := 0x7C, max := 0x7B, nan := 0x7E },
   { fmt := e4m3, big := 448, gap := 32, inf := 0x7F, max := 0x7E, nan := 0x7F },
   { fmt := e2m1, big := 6, gap := 2, inf := 0x7, max := 0x7, nan := 0 }]

/-- A code of the format stands for a real number (R149). -/
def FpRow.Value (p : FpRow) (k : Nat) (y : Real) : Prop := k < 2 ^ fpWidth p.fmt ∧ (p.fmt.decode k).Is y

/-- A finite exact result overflows under a mode (R155). -/
def FpRow.Over (p : FpRow) (r : Rnd) (x : Real) : Prop :=
  match r with
  | .rn => (p.big : Real) + (p.gap : Real) / 2 ≤ |x|
  | .rz => False
  | .rd => x < -(p.big : Real)
  | .ru => (p.big : Real) < x

/-- What an overflow or an infinite value of a sign gives (R155). -/
def FpRow.limit (p : FpRow) (sat neg : Bool) : Nat :=
  (if neg then 2 ^ (fpWidth p.fmt - 1) else 0) + if sat then p.max else p.inf

/-- A result is subnormal (R154): rounded as if the exponent range had no lower limit, its magnitude is below the smallest
normal `2 ^ (1 - bias)`.  The last place just below that is worth `2 ^ (-bias - fb)`. -/
def FpRow.Small (p : FpRow) (r : Rnd) (x : Real) : Prop :=
  let least : Real := (2 : Real) ^ (1 - (p.fmt.bias : Int))
  let u : Real := (2 : Real) ^ (-(p.fmt.bias : Int) - p.fmt.fb)
  match r with
  | .rn => |x| < least - u / 2
  | .rz => |x| < least
  | .rd => if 0 ≤ x then x < least else -x ≤ least - u
  | .ru => if 0 ≤ x then x ≤ least - u else -x < least

/-- A code is a real number rounded under a mode to the nearest value, ties to the even code, or to the next one in the mode's
direction (R154). -/
def FpRow.Nearest (p : FpRow) (r : Rnd) (x : Real) (k : Nat) : Prop :=
  ∃ y, p.Value k y ∧ ∀ j z, p.Value j z →
    match r with
    | .rn => |x - y| ≤ |x - z| ∧ (|x - y| = |x - z| → y ≠ z → k % 2 = 0)
    | .rz => |y| ≤ |x| ∧ (|z| ≤ |x| → |z| ≤ |y|)
    | .rd => y ≤ x ∧ (z ≤ x → z ≤ y)
    | .ru => x ≤ y ∧ (x ≤ z → y ≤ z)

/-- `FTZ` replaces subnormal results of FP64, FP32, F16 and BF16 by zero (R154). -/
def FpRow.Flushed (p : FpRow) (md : FpMod) (x : Real) : Prop :=
  md.ftz = true ∧ (p.fmt = fp64 ∨ p.fmt = fp32 ∨ p.fmt = fp16 ∨ p.fmt = bf16) ∧ p.Small md.rnd x

/-- A code is the exact result x of a sign rounded once to the format (R154, R155): overflow, a flushed subnormal, or the
neighbour that the mode names, with the sign of x. -/
def FpRow.Rounds (p : FpRow) (md : FpMod) (neg : Bool) (x : Real) (k : Nat) : Prop :=
  (p.Over md.rnd x → k = p.limit md.sat neg) ∧
  (¬ p.Over md.rnd x → p.Flushed md x → k = if neg then 2 ^ (fpWidth p.fmt - 1) else 0) ∧
  (¬ p.Over md.rnd x → ¬ p.Flushed md x → p.Nearest md.rnd x k ∧ p.fmt.isNeg k = neg)

/-- A code is what an exact value gives in the format (R153 to R155). -/
def FpRow.Gives (p : FpRow) (md : FpMod) (v : FV) (k : Nat) : Prop :=
  (v = .nan → k = p.nan) ∧ (∀ neg, v = .inf neg → k = p.limit md.sat neg) ∧ ∀ x, v.Is x → p.Rounds md v.sign x k

/-- The operand that a code stands for, a subnormal replaced by zero of its sign when `FTZ` says so (R154). -/
def FpRow.operand (p : FpRow) (ftz : Bool) (x : Nat) : FV :=
  if ftz ∧ (p.fmt = fp64 ∨ p.fmt = fp32 ∨ p.fmt = fp16 ∨ p.fmt = bf16) ∧ x / 2 ^ p.fmt.fb % 2 ^ p.fmt.eb = 0 then
    p.fmt.decode (if p.fmt.isNeg x then 2 ^ (fpWidth p.fmt - 1) else 0)
  else p.fmt.decode x

/-- An integer is a real number rounded under a mode (R156). -/
def RoundsInt (r : Rnd) (x : Real) (n : Int) : Prop :=
  match r with
  | .rn => |x - n| ≤ 1 / 2 ∧ (|x - n| = 1 / 2 → n % 2 = 0)
  | .rz => |(n : Real)| ≤ |x| ∧ |x - n| < 1 ∧ 0 ≤ x * n
  | .rd => (n : Real) ≤ x ∧ x < n + 1
  | .ru => x ≤ (n : Real) ∧ (n : Real) < x + 1

/-- A number is what an exact value gives in an integer format (R156): NaN gives 0, and what lies outside gives the nearest
limit, in two's complement. -/
def GivesInt (r : Rnd) (sg : Bool) (w : Nat) (v : FV) (k : Nat) : Prop :=
  let lo : Int := if sg then -(2 ^ (w - 1) : Nat) else 0
  let hi : Int := if sg then (2 ^ (w - 1) : Nat) - 1 else (2 ^ w : Nat) - 1
  let code (n : Int) : Nat := (n % (2 ^ w : Nat)).toNat
  (v = .nan → k = 0) ∧ (∀ neg, v = .inf neg → k = code (if neg then lo else hi)) ∧
    ∀ x n, v.Is x → RoundsInt r x n → k = code (max lo (min hi n))

end Sys2Proof.Machine
end

