-- ==== Sys2Proof/Certificates/Slice0/Obligations.lean ====
section
/-! DEFINITION. The statements for the provers. -/

open Sys2Proof Sys2Proof.Machine

/-! ### Integer, floating-point and conversion instructions -/

/-- R202, R203: the results of the integer arithmetic instructions, exact before wrap or clamp, with the carry, borrow or
overflow of `IADD` and `ISUB`; nothing else changes. -/
def Obligations.IntegerArithmetic : Prop :=
  (∀ (c : Common) (f : Arith) (s : State) (x : Ix),
    let a (l : Nat) : Int := tyInt f.ty ((s.warp x.w).arithA f l)
    let b (l : Nat) : Int := tyInt f.ty ((s.warp x.w).arithB f l)
    let fit (v : Int) : Nat := if modBit f.mod 0 then clampTy f.ty v else wrapTy f.ty v
    let corner (l : Nat) : Prop := tySigned f.ty = true ∧ a l = -(2 ^ (tyWidth f.ty - 1) : Nat) ∧ b l = -1
    let n := f.ty.regs
    (Ready s (.iadd c f) x →
      Answers (.iadd c f) s x c.u f.d n (fun l => fit (a l + b l)) f.pd fun l => tyOut f.ty (a l + b l)) ∧
    (Ready s (.isub c f) x →
      Answers (.isub c f) s x c.u f.d n (fun l => fit (a l - b l)) f.pd fun l => tyOut f.ty (a l - b l)) ∧
    (Ready s (.imul c f) x → AnswersD (.imul c f) s x c.u f.d n fun l => wrapTy f.ty (a l * b l)) ∧
    (Ready s (.imulh c f) x →
      AnswersD (.imulh c f) s x c.u f.d n fun l => wrapTy f.ty (a l * b l / (2 ^ tyWidth f.ty : Nat))) ∧
    (Ready s (.idiv c f) x → AnswersD (.idiv c f) s x c.u f.d n fun l => wrapTy f.ty
      (if b l = 0 then -1 else if corner l then a l else (a l).tdiv (b l))) ∧
    (Ready s (.irem c f) x → AnswersD (.irem c f) s x c.u f.d n fun l => wrapTy f.ty
      (if b l = 0 then a l else if corner l then 0 else a l - (a l).tdiv (b l) * b l)) ∧
    (Ready s (.imin c f) x → AnswersD (.imin c f) s x c.u f.d n fun l => wrapTy f.ty (min (a l) (b l))) ∧
    (Ready s (.imax c f) x → AnswersD (.imax c f) s x c.u f.d n fun l => wrapTy f.ty (max (a l) (b l)))) ∧
  ∀ (c : Common) (f : RRR) (s : State) (x : Ix),
    let v (o : Opd) (n l : Nat) : Nat := (s.warp x.w).opd o n l
    let i (o : Opd) (l : Nat) : Int := tyInt f.ty (v o f.ty.regs l)
    let sg := tySigned f.ty
    (Ready s (.imad c f) x →
      AnswersD (.imad c f) s x c.u f.d f.ty.regs fun l => wrapTy f.ty (i f.a l * i f.b l + i f.c l)) ∧
    (Ready s (.imadw c f) x →
      AnswersD (.imadw c f) s x c.u f.d 2 fun l =>
        unsigned 64 (readInt sg 32 (v f.a 1 l) * readInt sg 32 (v f.b 1 l) + readInt sg 64 (v f.c 2 l))) ∧
    (Ready s (.iabs c f) x →
      AnswersD (.iabs c f) s x c.u f.d f.ty.regs fun l =>
        if modBit f.mod 0 then clampTy f.ty (i f.a l).natAbs else wrapTy f.ty (i f.a l).natAbs)

/-- R202, R203: what wrap, clamp, the range test and the division say of numbers, and bit i of a value given bit by bit.
wrap is congruent modulo 2^w and of w bits; clamp is the nearest number of the type; a result is out of range exactly when
its wrap reads back as another number; the quotient and remainder satisfy a = q·b + r with |r| < |b| and r of the sign of a. -/
def Obligations.IntegerNumbers : Prop :=
  (∀ (t : Ty) (v a b : Int), t ∈ [Ty.n32, .s32, .n64, .s64] →
    let w := tyWidth t
    let lo : Int := if tySigned t then -(2 ^ (w - 1) : Nat) else 0
    let hi : Int := if tySigned t then (2 ^ (w - 1) : Nat) - 1 else (2 ^ w : Nat) - 1
    (lo ≤ tyInt t (wrapTy t v) ∧ tyInt t (wrapTy t v) ≤ hi ∧ (2 ^ w : Int) ∣ v - tyInt t (wrapTy t v)) ∧
    tyInt t (clampTy t v) = max lo (min hi v) ∧
    (tyOut t v = true ↔ tyInt t (wrapTy t v) ≠ v) ∧
    (b ≠ 0 → lo ≤ a → a ≤ hi → lo ≤ b → b ≤ hi → ¬ (a = lo ∧ b = -1) →
      a = (divRem t a b).1 * b + (divRem t a b).2 ∧ (divRem t a b).2.natAbs < b.natAbs ∧ 0 ≤ a * (divRem t a b).2) ∧
    divRem t a 0 = (-1, a) ∧ (tySigned t = true → divRem t lo (-1) = (lo, 0))) ∧
  ∀ (w i : Nat) (p : Nat → Bool), (ofBits w p).testBit i = (decide (i < w) && p i)

/-- R204: the bit and shift instructions. -/
def Obligations.IntegerBits : Prop :=
  ∀ (c : Common) (f : RRR) (g : Arith) (s : State) (x : Ix),
    let v (o : Opd) (n l : Nat) : Nat := (s.warp x.w).opd o n l
    let n := f.ty.regs
    let w := tyWidth f.ty
    let k (l : Nat) : Nat :=
      if modBit g.mod 0 then (s.warp x.w).arithAmount g l % tyWidth g.ty else (s.warp x.w).arithAmount g l
    let a (l : Nat) : Nat := (s.warp x.w).arithA g l
    (Ready s (.logt c f) x → AnswersD (.logt c f) s x c.u f.d n fun l =>
      ofBits w fun i => f.mod.getLsbD (bits (v f.a n l) i 1 + 2 * bits (v f.b n l) i 1 + 4 * bits (v f.c n l) i 1)) ∧
    (Ready s (.shl c g) x → AnswersD (.shl c g) s x c.u g.d g.ty.regs fun l =>
      if tyWidth g.ty ≤ k l then 0 else a l * 2 ^ k l % 2 ^ tyWidth g.ty) ∧
    (Ready s (.shr c g) x → AnswersD (.shr c g) s x c.u g.d g.ty.regs fun l =>
      if tySigned g.ty then wrapTy g.ty (tyInt g.ty (a l) / (2 ^ min (k l) (tyWidth g.ty - 1) : Nat))
      else if tyWidth g.ty ≤ k l then 0 else a l / 2 ^ k l) ∧
    (Ready s (.shp c f) x → AnswersD (.shp c f) s x c.u f.d 1 fun l =>
      let m := if modBit f.mod 1 then min (v f.c 1 l) 64 else v f.c 1 l % 64
      let y := v f.a 1 l * 2 ^ 32 + v f.b 1 l
      let z := if modBit f.mod 0 then y * 2 ^ m % 2 ^ 64 else y / 2 ^ m
      if modBit f.mod 2 then z / 2 ^ 32 else z % 2 ^ 32) ∧
    (Ready s (.popc c f) x → AnswersD (.popc c f) s x c.u f.d 1 fun l =>
      ((List.range w).filter fun i => bits (v f.a n l) i 1 == 1).length) ∧
    (Ready s (.clz c f) x → AnswersD (.clz c f) s x c.u f.d 1 fun l =>
      if v f.a n l = 0 then w else w - 1 - Nat.log2 (v f.a n l)) ∧
    (Ready s (.brev c f) x → AnswersD (.brev c f) s x c.u f.d n fun l =>
      ofBits w fun i => bits (v f.a n l) (w - 1 - i) 1 == 1) ∧
    (Ready s (.bfe c f) x → AnswersD (.bfe c f) s x c.u f.d n fun l =>
      let src := v f.a n l
      let p := v f.b 1 l % 256
      let m := min (v f.c 1 l % 256) w
      let bit (i : Nat) : Bool := if i < w then src.testBit i else tySigned f.ty && src.testBit (w - 1)
      ofBits w fun i =>
        if m = 0 then false else if i < m then bit (p + i) else tySigned f.ty && bit (p + m - 1)) ∧
    (Ready s (.bfi c f) x → AnswersD (.bfi c f) s x c.u f.d n fun l =>
      let p := v f.b 1 l % 256
      let m := min (v f.b 1 l / 256 % 256) w
      ofBits w fun i => if p ≤ i ∧ i < p + m then (v f.a n l).testBit (i - p) else (v f.c n l).testBit i)

/-- R180, R205: `ISETP`, `SEL`, `LEA` and `PLOGT`, with the codes and fields they refuse: a comparison code of 6 or 7 in a word
that shows nothing else to refuse, and an operand field of `PLOGT` with a bit above its low four.  That the uniform form of
`PLOGT` reads its predicates from the lowest participating lane is the model's reading (log entry 86, DEDUCED). -/
def Obligations.IntegerCompareSelect : Prop :=
  ∀ (c : Common) (f : RRR) (g : Arith) (s : State) (x : Ix),
    let w := s.warp x.w
    let a (l : Nat) : Int := tyInt g.ty (w.arithA g l)
    let b (l : Nat) : Int := tyInt g.ty (w.arithB g l)
    let q (o : Opd) (l : Nat) : Nat := (w.rp (bits o.code 0 3) l != (bits o.code 3 1 == 1)).toNat
    (Ready s (.isetp c g) x → AnswersP (.isetp c g) s x c.u g.pd fun l =>
      match modBits g.mod 0 3 with
      | 0 => decide (a l = b l)
      | 1 => decide (a l ≠ b l)
      | 2 => decide (a l < b l)
      | 3 => decide (a l ≤ b l)
      | 4 => decide (b l < a l)
      | _ => decide (b l ≤ a l)) ∧
    (Ready s (.sel c f) x → AnswersD (.sel c f) s x c.u f.d f.ty.regs fun l =>
      if w.rp (modBits f.mod 0 3) l != modBit f.mod 3 then w.opd f.a f.ty.regs l else w.opd f.b f.ty.regs l) ∧
    (∀ k : BitVec 8, 6 ≤ modBits k 0 3 → ∀ r : RI,
      ((Instr.isetp c (.rrr { f with mod := k &&& 0xF8 })).illegal = none →
        (Instr.isetp c (.rrr { f with mod := k })).illegal = some 3) ∧
      ((Instr.isetp c (.ri { r with mod := k &&& 0xF8 })).illegal = none →
        (Instr.isetp c (.ri { r with mod := k })).illegal = some 3)) ∧
    (Ready s (.lea c f) x → AnswersD (.lea c f) s x c.u f.d f.ty.regs fun l =>
      (w.opd f.a f.ty.regs l + w.opd f.b f.ty.regs l * 2 ^ modBits f.mod 0 3) % 2 ^ tyWidth f.ty) ∧
    (Ready s (.plogt c f) x → AnswersP (.plogt c f) s x c.u f.pd fun l =>
      f.mod.getLsbD (q f.a l + 2 * q f.b l + 4 * q f.c l)) ∧
    ((16 ≤ f.a.code ∨ 16 ≤ f.b.code ∨ 16 ≤ f.c.code) → (.plogt c f : Instr).reserved = true)

/-- R207, R208: `FADD`, `FMUL`, `FFMA`, `FMIN` and `FMAX`, element by element: exact, negated as `MOD` says, rounded once.
The sum and the product of two finite values are the exact ones; with NaN and infinities they are those of IEEE 754, and a
zero sum takes the sign that R153 gives it.
`FMIN` and `FMAX` return one of their operands; a number against NaN gives the number, two NaNs give the canonical NaN, and
−0 ranks below +0. -/
def Obligations.FloatArithmetic : Prop :=
  (∀ (c : Common) (f : RRR) (g : Arith) (s : State) (x : Ix),
    let w := s.warp x.w
    let n := g.ty.regs
    let md := FpMod.ofMod g.mod
    let mf := FpMod.ofMod f.mod
    let k := fpWidth (fpOf f.ty).1
    let e (o : Opd) (i l : Nat) : Nat := bits (w.opd o f.ty.regs l) (k * i) k
    (Ready s (.fadd c g) x → AnswersD (.fadd c g) s x c.u g.d n fun l => perElem g.ty (fun q a b =>
      q.round md (FV.add (md.rnd == .rd) (q.operand md.ftz a) ((q.operand md.ftz b).negIf (modBit g.mod 5))))
      (w.arithA g l) (w.arithB g l)) ∧
    (Ready s (.fmul c g) x → AnswersD (.fmul c g) s x c.u g.d n fun l => perElem g.ty (fun q a b =>
      q.round md (FV.mul ((q.operand md.ftz a).negIf (modBit g.mod 4)) (q.operand md.ftz b)))
      (w.arithA g l) (w.arithB g l)) ∧
    (Ready s (.ffma c f) x → AnswersD (.ffma c f) s x c.u f.d f.ty.regs fun l =>
      packElems k (fpOf f.ty).2 fun i =>
        (fpOf f.ty).1.round mf (FV.add (mf.rnd == .rd)
          (FV.mul (((fpOf f.ty).1.operand mf.ftz (e f.a i l)).negIf (modBit f.mod 4)) ((fpOf f.ty).1.operand mf.ftz (e f.b i l)))
          (((fpOf f.ty).1.operand mf.ftz (e f.c i l)).negIf (modBit f.mod 5)))) ∧
    (Ready s (.fmin c g) x → AnswersD (.fmin c g) s x c.u g.d n fun l =>
      perElem g.ty (fminmaxOf false g.mod) (w.arithA g l) (w.arithB g l)) ∧
    (Ready s (.fmax c g) x → AnswersD (.fmax c g) s x c.u g.d n fun l =>
      perElem g.ty (fminmaxOf true g.mod) (w.arithA g l) (w.arithB g l))) ∧
  (∀ (q : FpFmt) (mx : Bool) (m : BitVec 8) (a0 b0 : Nat), q = fp32 ∨ q = fp64 ∨ q = fp16 ∨ q = bf16 →
    let flushed (u : Nat) : Nat :=
      if modBit m 2 = true ∧ u / 2 ^ q.fb % 2 ^ q.eb = 0 then (if q.isNeg u = true then 2 ^ (fpWidth q - 1) else 0) else u
    let a := flushed a0
    let b := flushed b0
    let r := fminmaxOf mx m q a0 b0
    ((q.decode a).isNan = true ∧ (q.decode b).isNan = true → r = q.canonNan) ∧
      ((q.decode a).isNan = true ∧ (q.decode b).isNan = false → r = b) ∧
      ((q.decode a).isNan = false ∧ (q.decode b).isNan = true → r = a) ∧
      ((q.decode a).isNan = false ∧ (q.decode b).isNan = false →
        (r = a ∨ r = b) ∧
          ((q.decode a).lt (q.decode b) = true → r = if mx then b else a) ∧
          ((q.decode b).lt (q.decode a) = true → r = if mx then a else b) ∧
          ((q.decode a).eq (q.decode b) = true → q.isNeg a = true → q.isNeg b = false → r = if mx then b else a) ∧
          ((q.decode a).eq (q.decode b) = true → q.isNeg a = false → q.isNeg b = true → r = if mx then a else b))) ∧
  ∀ (d n n' : Bool) (a b : FV) (y : Real),
    (a = .nan ∨ b = .nan → FV.add d a b = .nan ∧ FV.mul a b = .nan) ∧
    FV.add d (.inf n) (.inf n') = (if n = n' then .inf n else .nan) ∧
    FV.mul (.inf n) (.inf n') = .inf (n != n') ∧
    (b.Is y → FV.add d (.inf n) b = .inf n ∧ FV.add d b (.inf n) = .inf n ∧
      (y = 0 → FV.mul (.inf n) b = .nan ∧ FV.mul b (.inf n) = .nan) ∧
      (y ≠ 0 → FV.mul (.inf n) b = .inf (n != b.sign) ∧ FV.mul b (.inf n) = .inf (b.sign != n)) ∧
      ∀ x : Real, a.Is x →
        (FV.add d a b).Is (x + y) ∧ (FV.mul a b).Is (x * y) ∧ (FV.mul a b).sign = (a.sign != b.sign) ∧
        (x + y = 0 → (FV.add d a b).sign = if a.sign = b.sign then a.sign else d))

/-- R209, R211: `FSETP` and `FCLASS`; the table of the comparisons, with NaN, infinities and numbers; the ten classes of a code
by its sign, its exponent and its fraction. -/
def Obligations.FloatCompareClass : Prop :=
  (∀ (c : Common) (f : RRR) (g : Arith) (s : State) (x : Ix),
    let w := s.warp x.w
    let q := (fpOf g.ty).1
    let a (l : Nat) : FV := q.operand (modBit g.mod 2) (w.arithA g l)
    let b (l : Nat) : FV := q.operand (modBit g.mod 2) (w.arithB g l)
    (Ready s (.fsetp c g) x → AnswersP (.fsetp c g) s x c.u g.pd fun l => cmpFp (modBits g.mod 4 3) (a l) (b l)) ∧
    (Ready s (.fclass c f) x → AnswersD (.fclass c f) s x c.u f.d 1 fun l =>
      2 ^ (fpOf f.ty).1.cls (w.opd f.a f.ty.regs l))) ∧
  (∀ a b : FV, (a.isNan = true ∨ b.isNan = true) →
    (List.range 8).map (fun k => cmpFp k a b) = [false, true, false, false, false, false, false, true]) ∧
  (∀ a b : FV, a.isNan = false → b.isNan = false → cmpFp 6 a b = true ∧ cmpFp 7 a b = false ∧
    cmpFp 1 a b = !cmpFp 0 a b ∧ cmpFp 3 a b = (cmpFp 2 a b || cmpFp 0 a b) ∧ cmpFp 4 a b = cmpFp 2 b a ∧
    cmpFp 5 a b = cmpFp 3 b a) ∧
  (∀ (n n' : Bool) (m m' : Nat) (e e' : Int),
    let v (neg : Bool) (m : Nat) (k : Int) : Int := (if neg then -1 else 1) * (m * 2 ^ (k - min e e').toNat : Nat)
    (cmpFp 0 (.fin n m e) (.fin n' m' e') = true ↔ v n m e = v n' m' e') ∧
    (cmpFp 2 (.fin n m e) (.fin n' m' e') = true ↔ v n m e < v n' m' e') ∧
    cmpFp 2 (.inf n) (.fin n' m' e') = n ∧ cmpFp 2 (.fin n' m' e') (.inf n) = (!n) ∧
    cmpFp 2 (.inf n) (.inf n') = (n && !n') ∧ cmpFp 0 (.inf n) (.inf n') = (n == n') ∧
    cmpFp 0 (.inf n) (.fin n' m' e') = false ∧ cmpFp 0 (.fin n' m' e') (.inf n) = false) ∧
  (∀ q : FpFmt, q = fp32 ∨ q = fp64 → ∀ a : Nat, a < 2 ^ fpWidth q →
    let neg := 2 ^ (fpWidth q - 1) ≤ a
    let ex := a / 2 ^ q.fb % 2 ^ q.eb
    let fr := a % 2 ^ q.fb
    let top := 2 ^ q.eb - 1
    (q.cls a = 0 ↔ neg ∧ ex = top ∧ fr = 0) ∧ (q.cls a = 7 ↔ ¬ neg ∧ ex = top ∧ fr = 0) ∧
    (q.cls a = 1 ↔ neg ∧ 0 < ex ∧ ex < top) ∧ (q.cls a = 6 ↔ ¬ neg ∧ 0 < ex ∧ ex < top) ∧
    (q.cls a = 2 ↔ neg ∧ ex = 0 ∧ fr ≠ 0) ∧ (q.cls a = 5 ↔ ¬ neg ∧ ex = 0 ∧ fr ≠ 0) ∧
    (q.cls a = 3 ↔ neg ∧ ex = 0 ∧ fr = 0) ∧ (q.cls a = 4 ↔ ¬ neg ∧ ex = 0 ∧ fr = 0) ∧
    (q.cls a = 8 ↔ ex = top ∧ fr ≠ 0 ∧ a.testBit (q.fb - 1) = false) ∧
    (q.cls a = 9 ↔ ex = top ∧ a.testBit (q.fb - 1) = true) ∧ (8 ≤ q.cls a ↔ (q.decode a).isNan = true))

/-- R153 to R155, R157, R210, R212: rounding, and the functions that are rounded correctly.  `FpFmt.round` gives the one
rounding of an exact value, in every format and mode, with overflow, `SAT` and `FTZ`.  `FDIV`, `FSQRT`, `FRCP`, `FRSQ` and
`FSCALE` write the one rounding of the exact quotient, root, reciprocal root or product a·2^n, with the special cases of R157.
`FEX2`, `FLG2`, `FSIN`, `FCOS`, `FTANH` and `FERF` write the model's evaluation of their function (log entry 7, the model's
choice of a method), which gives the special cases of R157 and the one rounding of the exact powers and logarithms. -/
def Obligations.FloatFunctions : Prop :=
  (∀ (c : Common) (f : RRR) (s : State) (x : Ix),
    let w := s.warp x.w
    let q := (fpOf f.ty).1
    let md := FpMod.ofMod f.mod
    let a (l : Nat) : FV := q.operand md.ftz (w.opd f.a f.ty.regs l)
    let b (l : Nat) : FV := q.operand md.ftz (w.opd f.b f.ty.regs l)
    let n := f.ty.regs
    (Ready s (.fdiv c f) x → AnswersD (.fdiv c f) s x c.u f.d n fun l => q.div md (a l) (b l)) ∧
    (Ready s (.fsqrt c f) x → AnswersD (.fsqrt c f) s x c.u f.d n fun l => q.sqrt md (a l)) ∧
    (Ready s (.frcp c f) x → AnswersD (.frcp c f) s x c.u f.d n fun l => q.div md (.fin false 1 0) (a l)) ∧
    (Ready s (.frsq c f) x → AnswersD (.frsq c f) s x c.u f.d n fun l => q.rsqrt md (a l)) ∧
    (Ready s (.fex2 c f) x → AnswersD (.fex2 c f) s x c.u f.d n fun l => TFun.ex2.eval md (a l)) ∧
    (Ready s (.flg2 c f) x → AnswersD (.flg2 c f) s x c.u f.d n fun l => TFun.lg2.eval md (a l)) ∧
    (Ready s (.fsin c f) x → AnswersD (.fsin c f) s x c.u f.d n fun l => TFun.sin.eval md (a l)) ∧
    (Ready s (.fcos c f) x → AnswersD (.fcos c f) s x c.u f.d n fun l => TFun.cos.eval md (a l)) ∧
    (Ready s (.ftanh c f) x → AnswersD (.ftanh c f) s x c.u f.d n fun l => TFun.tanh.eval md (a l)) ∧
    (Ready s (.ferf c f) x → AnswersD (.ferf c f) s x c.u f.d n fun l => TFun.erf.eval md (a l)) ∧
    (Ready s (.fscale c f) x → AnswersD (.fscale c f) s x c.u f.d n fun l => fscaleOf q md (a l) (w.opdS f.b l))) ∧
  (∀ p ∈ fpRows, ∀ (md : FpMod) (v : FV), p.Gives md v (p.fmt.round md v)) ∧
  (∀ p ∈ fpRows, p.fmt = fp32 ∨ p.fmt = fp64 → ∀ (md : FpMod) (a b : FV) (k : Nat) (n : Int),
    let sign (neg : Bool) : Nat := if neg then 2 ^ (fpWidth p.fmt - 1) else 0
    let neg := a.sign != b.sign
    let zero (v : FV) : Prop := v.Is 0
    let isInf (v : FV) : Prop := v = .inf false ∨ v = .inf true
    let div := p.fmt.div md a b
    let sqrt := p.fmt.sqrt md a
    let rsqrt := p.fmt.rsqrt md a
    (p.fmt.operand md.ftz k = p.operand md.ftz k) ∧
    ((a = .nan ∨ b = .nan ∨ zero a ∧ zero b ∨ isInf a ∧ isInf b) → div = p.nan) ∧
    ((∃ x, a.Is x ∧ x ≠ 0) → zero b → div = p.limit md.sat neg) ∧
    (isInf a → (∃ x, b.Is x) → div = p.limit md.sat neg) ∧ ((∃ x, a.Is x) → isInf b → div = sign neg) ∧
    (∀ x y, a.Is x → b.Is y → y ≠ 0 → p.Rounds md neg (x / y) div) ∧
    ((a = .nan ∨ a = .inf true) → sqrt = p.nan ∧ rsqrt = p.nan) ∧
    (∀ x, a.Is x → x < 0 → sqrt = p.nan ∧ rsqrt = p.nan) ∧
    (a = .inf false → sqrt = p.limit md.sat false ∧ rsqrt = 0) ∧
    (zero a → sqrt = sign a.sign ∧ rsqrt = p.limit md.sat a.sign) ∧
    (∀ x, a.Is x → 0 < x → p.Rounds md false (Real.sqrt x) sqrt ∧ p.Rounds md false (1 / Real.sqrt x) rsqrt) ∧
    (k < 2 ^ fpWidth p.fmt →
      let v := p.operand md.ftz k
      let r := fscaleOf p.fmt md v n
      (v = .nan → r = p.nan) ∧ (∀ neg, v = .inf neg → r = p.limit md.sat neg) ∧
        ∀ x, v.Is x → p.Rounds md v.sign (x * (2 : Real) ^ n) r)) ∧
  ∀ p ∈ fpRows, p.fmt = fp32 → ∀ (md : FpMod) (t : TFun) (neg : Bool) (m : Nat) (e : Int) (k : Int),
    let v := t.eval md
    let x : FV := .fin neg m e
    let one (neg : Bool) (code : Nat) : Prop := p.Rounds md neg (if neg then -1 else 1) code
    v .nan = p.nan ∧
    (t = .ex2 → v (.inf true) = 0 ∧ v (.inf false) = p.limit md.sat false ∧
      (x.Is k → k ≤ 400 → -400 ≤ k → p.Rounds md false ((2 : Real) ^ k) (v x))) ∧
    (t = .lg2 → v (.inf true) = p.nan ∧ v (.inf false) = p.limit md.sat false ∧ v (.fin neg 0 e) = p.limit md.sat true ∧
      (neg = true → m ≠ 0 → v x = p.nan) ∧
      (x.Is ((2 : Real) ^ k) → p.Rounds md (decide (k < 0)) (k : Real) (v x))) ∧
    ((t = .sin ∨ t = .cos) → v (.inf neg) = p.nan) ∧
    (t = .sin → v (.fin neg 0 e) = if neg then 2 ^ 31 else 0) ∧ (t = .cos → one false (v (.fin neg 0 e))) ∧
    ((t = .tanh ∨ t = .erf) → one neg (v (.inf neg)) ∧ v (.fin neg 0 e) = if neg then 2 ^ 31 else 0)

/-- R152, R156, R160, R213 to R215, R217 to R219: conversion, packing, byte selection, dequantisation, packed dot products and
moves.  An element is read by its format and written by it: rounded once, clamped or wrapped as R155 and R156 say, sign-extended
below 32 bits; what an integer conversion writes whose destination is not narrower is log entry 86 (DEDUCED).  `PACK` replaces
one element and copies the others; `FTZ` acts on its F16 or BF16 result too (log entry 83, the model's reading of R154).  `DQT` rounds the scaled element once.  `FDP4` and `FDP8` round the exact sum once, with the NaN cases
of R218; `IDP4` and `IDP8` wrap or clamp it. -/
def Obligations.Conversions : Prop :=
  (∀ (c : Common) (f : RRR) (g : RI) (s : State) (x : Ix),
    let w := s.warp x.w
    let v (o : Opd) (l : Nat) : Nat := w.opd o 1 l
    (Ready s (.cvt c f) x → AnswersD (.cvt c f) s x c.u f.d f.ty.regs fun l =>
      cvtOf f.ty (Ty.ofCode (f.c.code % 64)) f.mod (w.opd f.a (Ty.ofCode (f.c.code % 64)).regs l)) ∧
    (Ready s (.pack c f) x → AnswersD (.pack c f) s x c.u f.d 1 fun l => packOf f.ty f.mod (v f.a l) (v f.c l)) ∧
    (Ready s (.bsel c f) x → AnswersD (.bsel c f) s x c.u f.d 1 fun l => packElems 8 4 fun i =>
      bselByte (v f.a l + v f.b l * 2 ^ 32) (bits (v f.c l) (8 * i) 8)) ∧
    (Ready s (.dqt c f) x → AnswersD (.dqt c f) s x false f.d 1 fun l => dqtOf f.ty f.mod (v f.a l) (v f.b l)) ∧
    (Ready s (.fdp4 c f) x → AnswersD (.fdp4 c f) s x c.u f.d 1 fun l => fdpOf f.ty f.mod (v f.a l) (v f.b l) (v f.c l)) ∧
    (Ready s (.fdp8 c f) x → AnswersD (.fdp8 c f) s x c.u f.d 1 fun l => fdpOf f.ty f.mod (v f.a l) (v f.b l) (v f.c l)) ∧
    (Ready s (.idp4 c f) x → AnswersD (.idp4 c f) s x c.u f.d 1 fun l => idpOf f.ty f.mod (v f.a l) (v f.b l) (v f.c l)) ∧
    (Ready s (.idp8 c f) x → AnswersD (.idp8 c f) s x c.u f.d 1 fun l => idpOf f.ty f.mod (v f.a l) (v f.b l) (v f.c l)) ∧
    (Ready s (.mov c f) x → AnswersD (.mov c f) s x c.u f.d f.ty.regs fun l => w.opd f.a f.ty.regs l) ∧
    (Ready s (.movi c g) x → AnswersD (.movi c g) s x c.u g.d g.ty.regs fun _ => widen g.ty g.imm)) ∧
  (∀ (w n i : Nat) (e : Nat → Nat), i < n → bits (packElems w n e) (w * i) w = e i % 2 ^ w) ∧
  (∀ src g : Nat, bselByte src g =
    if g / 8 % 4 = 0 then src / 2 ^ (8 * (g % 8)) % 256
    else if g / 8 % 4 = 1 then 0
    else if g / 8 % 4 = 2 then (if 128 ≤ src / 2 ^ (8 * (g % 8)) % 256 then 255 else 0)
    else revOf 8 (src / 2 ^ (8 * (g % 8)) % 256)) ∧
  (∀ (p : FpRow) (sg ftz : Bool) (w x : Nat), p ∈ fpRows → w ∈ [4, 8, 16, 32, 64] →
    (x < 2 ^ w → Elem.read (.int sg w) ftz x =
      .inl (if sg = true ∧ 2 ^ (w - 1) ≤ x then (x : Int) - (2 ^ w : Nat) else x)) ∧
    (x < 2 ^ fpWidth p.fmt → Elem.read (.fp p.fmt) ftz x = .inr (p.operand ftz x)) ∧
    (x < 256 → Elem.read .e8m0 ftz x = .inr (if x = 255 then .nan else .fin false 1 ((x : Int) - 127)))) ∧
  (∀ (p : FpRow) (md : FpMod) (sg : Bool) (w : Nat) (n : Int) (v : FV), p ∈ fpRows → w ∈ [4, 8, 16, 32, 64] →
    let lo : Int := if sg then -(2 ^ (w - 1) : Nat) else 0
    let hi : Int := if sg then (2 ^ (w - 1) : Nat) - 1 else (2 ^ w : Nat) - 1
    Elem.write (.int sg w) md (.inl n) = ((if md.sat then max lo (min hi n) else n) % (2 ^ w : Nat)).toNat ∧
    GivesInt md.rnd sg w v (Elem.write (.int sg w) md (.inr v)) ∧ p.Gives md v (Elem.write (.fp p.fmt) md (.inr v)) ∧
    p.Rounds md (decide (n < 0)) n (Elem.write (.fp p.fmt) md (.inl n))) ∧
  (∀ (dt st : Ty) (m : BitVec 8) (a : Nat),
    let md := FpMod.ofMod m
    let w := (elemOf st).width
    let code := (elemOf dt).write md ((elemOf st).read md.ftz (a / 2 ^ (w * modBits m 4 3) % 2 ^ w))
    dt ∈ [Ty.n8, .s8, .n16, .s16, .n32, .s32, .n64, .s64, .f16, .bf16, .f32, .f64] →
      cvtOf dt st m a =
        if dt = .s8 ∧ 2 ^ 7 ≤ code then code + (2 ^ 32 - 2 ^ 8)
        else if dt = .s16 ∧ 2 ^ 15 ≤ code then code + (2 ^ 32 - 2 ^ 16)
        else code) ∧
  (∀ (p : FpRow) (t : Ty) (m : BitVec 8) (a c i : Nat), p ∈ fpRows → p.fmt = fp32 →
    t ∈ [Ty.f16x2, .bf16x2, .e4m3x4, .e5m2x4, .e2m1x8, .s8x4, .s4x8, .n8x4, .n4x8] →
    let md := FpMod.ofMod m
    let e := elemOf t
    let k := e.width * modBits m 4 3
    let code := e.write md (match e with | .int sg _ => .inl (readInt sg 32 a) | _ => .inr (p.operand md.ftz a))
    a < 2 ^ 32 → c < 2 ^ 32 → k + e.width ≤ 32 →
      (packOf t m a c).testBit i = if k ≤ i ∧ i < k + e.width then code.testBit (i - k) else c.testBit i) ∧
  (∀ (p : FpRow) (t : Ty) (m : BitVec 8) (a b : Nat), p ∈ fpRows → p.fmt = fp32 →
    t ∈ [Ty.e4m3x4, .e5m2x4, .e2m1x8, .s8x4, .s4x8, .n8x4] →
    let v : FV := match (elemOf t).read false (a % 2 ^ (elemOf t).width) with
      | .inl n => .fin (decide (n < 0)) n.natAbs 0
      | .inr v => v
    (b % 256 = 255 → dqtOf t m a b = 0x7FC00000) ∧
    (b % 256 ≠ 255 → p.Gives (FpMod.ofMod m) (v.scale ((b % 256 : Nat) - 127)) (dqtOf t m a b))) ∧
  (∀ (p q : FpRow) (t : Ty) (m : BitVec 8) (a b c n : Nat), p ∈ fpRows → p.fmt = fp32 → q ∈ fpRows →
    (t, q.fmt, n) ∈ [(Ty.e4m3x4, e4m3, 4), (.e5m2x4, e5m2, 4), (.e2m1x8, e2m1, 8)] →
    let md := FpMod.ofMod m
    let w := fpWidth q.fmt
    let va (i : Nat) : FV := q.fmt.decode (a / 2 ^ (w * i) % 2 ^ w)
    let vb (i : Nat) : FV := q.fmt.decode (b / 2 ^ (w * i) % 2 ^ w)
    let vc := p.operand md.ftz (c % 2 ^ 32)
    let isInf (v : FV) : Prop := v = .inf false ∨ v = .inf true
    let inf (g : Bool) : Prop :=
      vc = .inf g ∨ ∃ i, i < n ∧ (isInf (va i) ∨ isInf (vb i)) ∧ ((va i).sign != (vb i).sign) = g
    let bad := vc = .nan ∨ (∃ i, i < n ∧ (va i = .nan ∨ vb i = .nan ∨ isInf (va i) ∧ (vb i).Is 0 ∨ (va i).Is 0 ∧ isInf (vb i))) ∨
      inf false ∧ inf true
    c < 2 ^ 32 →
    (bad → fdpOf t m a b c = 0x7FC00000) ∧ (∀ g, ¬ bad → inf g → fdpOf t m a b c = p.limit md.sat g) ∧
    ∀ (xa xb : Nat → Real) (xc : Real) (neg : Bool), (∀ i, i < n → (va i).Is (xa i) ∧ (vb i).Is (xb i)) → vc.Is xc →
      let sum : Real := ((List.range n).map fun i => xa i * xb i).sum + xc
      let minus (i : Nat) : Prop := ((va i).sign != (vb i).sign) = true
      let zeroSign := vc.sign = true ∧ (∀ i, i < n → minus i) ∨ md.rnd = .rd ∧ (vc.sign = true ∨ ∃ i, i < n ∧ minus i)
      (sum < 0 → neg = true) → (0 < sum → neg = false) → (sum = 0 → (neg = true ↔ zeroSign)) →
        p.Rounds md neg sum (fdpOf t m a b c)) ∧
  (∀ (t : Ty) (sg : Bool) (w k : Nat) (m : BitVec 8) (a b c : Nat),
    (t, sg, w, k) ∈ [(Ty.s8x4, true, 8, 4), (.n8x4, false, 8, 4), (.s4x8, true, 4, 8), (.n4x8, false, 4, 8)] →
    let p (y i : Nat) : Int := readInt sg w (y / 2 ^ (w * i) % 2 ^ w)
    let sum := ((List.range k).map fun i => p a i * p b i).sum + readInt sg 32 c
    idpOf t m a b c = unsigned 32 (if modBit m 3 then clampInt sg 32 sum else sum))

/-- R158, R159, R216: `QNT` derives one scale from the participating lanes, writes each lane's code to `D` and the scale to the
`s` register `C`, and nothing else.  The scale of a block is 0xFF when a value is no number, 0x7F when all are zero, and otherwise
the exponent of the largest magnitude less that of the format, biased and clamped; a code is the value under the scale converted
once. -/
def Obligations.Quantise : Prop :=
  (∀ (c : Common) (f : RRR) (s : State) (x : Ix) (d : BitVec 8) (k : BitVec 6), f.d = .v d → f.c = .s k →
    Ready s (.qnt c f) x →
    let e := elemOf f.ty
    let v (l : Nat) : FV := fp32.decode ((s.warp x.w).opd f.a 1 l)
    let sc := blockScale e (x.lanes.map v)
    ∃ t, exec (.qnt c f) s = .next t ∧ OnlyWarp s t x.w ∧ KeptButRegs (s.warp x.w) (t.warp x.w) ∧ FallsThrough s t x ∧
      (∀ r l, l < 32 → (t.warp x.w).rv r l =
        if r = d.toNat ∧ l ∈ x.lanes then .ofNat 32 (blockCode e (FpMod.ofMod f.mod) sc (v l)) else (s.warp x.w).rv r l) ∧
      (∀ r, (t.warp x.w).rs r =
        if r = k.toNat ∧ x.lanes ≠ [] then .ofNat 32 sc else (s.warp x.w).rs r) ∧
      (∀ r l, l < 32 → (t.warp x.w).rp r l = (s.warp x.w).rp r l)) ∧
  (∀ (e : Elem) (emax : Int) (xs : List FV), (e, emax) ∈
      [(Elem.fp e4m3, 8), (.fp e5m2, 15), (.fp e2m1, 2), (.int true 8, 6), (.int false 8, 7), (.int true 4, 2)] →
    let sc := blockScale e xs
    let numbers := ∀ v ∈ xs, ∃ x, v.Is x
    (¬ numbers → sc = 0xFF) ∧ ((∀ v ∈ xs, v.Is 0) → sc = 0x7F) ∧
    (∀ v ∈ xs, ∀ (a : Real) (g : Int), numbers → v.Is a → (∀ u ∈ xs, ∀ b, u.Is b → |b| ≤ |a|) → (2 : Real) ^ g ≤ |a| →
      |a| < (2 : Real) ^ (g + 1) → sc = (min (max (g - emax + 127) 0) 254).toNat)) ∧
  ∀ (p : FpRow) (sg : Bool) (w sc : Nat) (md : FpMod) (v : FV), p ∈ fpRows → w ∈ [4, 8] →
    (sc = 0xFF → (p.fmt = e4m3 ∨ p.fmt = e5m2 ∨ p.fmt = e2m1 → blockCode (.fp p.fmt) md sc v = p.nan) ∧
      blockCode (.int sg w) md sc v = 0) ∧
    (sc < 0xFF → p.Gives md (v.scale (127 - sc)) (blockCode (.fp p.fmt) md sc v) ∧
      GivesInt md.rnd sg w (v.scale (127 - sc)) (blockCode (.int sg w) md sc v))

/-! ### Control -/

/-- R22, R25, R28, R165: among its live threads' code pointers a warp chooses an aged one of the largest age when one is
aged, and otherwise the lowest.  A transfer's target is refused when its slot or its line does not exist, and otherwise by the
`TGT` bit of the line word it names; without the page nothing is decided.  That a target below line 0 is refused is the model's
choice (log entry 25): the spec speaks only of slots 5 to 7 and of lines at or past `CLINES`. -/
def Obligations.IssueChoice : Prop :=
  (∀ (w : Warp) (c : Word), w.hold = none → w.choice = some c →
    (∃ l, l < 32 ∧ (w.th l).live = true ∧ (w.th l).cp = c) ∧
    ∀ l, l < 32 → (w.th l).live = true →
      let d := (w.th l).cp
      ((w.entry d).isAged = true → (w.entry c).isAged = true ∧
        ((w.entry d).age < (w.entry c).age ∨ (w.entry d).age = (w.entry c).age ∧ c ≤ d)) ∧
      ((w.entry c).isAged = false → c ≤ d)) ∧
  ∀ (s : State) (w : Nat) (line : Int) (slot : Nat),
    let va := s.lineVa w line.toNat
    let r := s.vreadNat (.mapUnit (s.wcluster w)) (s.wctx w) va 4
    ((5 ≤ slot ∨ line < 0 ∨ ((s.wgrid w).clines : Int) ≤ line) → s.checkTarget w line slot = (.bad, s)) ∧
    (slot < 5 → 0 ≤ line → line < (s.wgrid w).clines →
      (∀ lw, r.1 = .ok lw → (s.checkTarget w line slot).1 = if lwTgt lw slot = true then .good else .bad) ∧
      (∀ p, r.1 = .error p → (s.checkTarget w line slot).1 = .absent va))

/-- R26, R192: `BRA`, `BRX`, `RET` and `CALL`.  When the targets of all participating lanes pass, those lanes take their
targets, the entry's others fall through, and no register changes but the link of `CALL`, which receives the next slot.  With
a refused target and no missing page the transfer raises CONTROL-FLOW for the lowest failing lane. -/
def Obligations.ControlTransfers : Prop :=
  (∀ (c : Common) (f : BR) (s : State) (x : Ix),
    let line : Int := (cpLine x.cp : Int) + f.loff.toInt
    let near : Word := mkCp f.prio.toNat line.toNat f.slot.toNat
    let v (l : Nat) : Word := (s.warp x.w).word f.a 0 l
    let far (l : Nat) : Int × Nat := ((cpLine (v l) : Int), cpSlot (v l))
    (Ready s (.bra c f) x → TargetsGood s x (fun _ => (line, f.slot.toNat)) →
      ∃ t, exec (.bra c f) s = .next t ∧ OnlyWarpTlb s t x.w ∧ Transfers s t x (fun _ => near) ∧
        KeptAll (s.warp x.w) (t.warp x.w)) ∧
    (Ready s (.brx c f) x → TargetsGood s x far →
      ∃ t, exec (.brx c f) s = .next t ∧ OnlyWarpTlb s t x.w ∧ Transfers s t x v ∧ KeptAll (s.warp x.w) (t.warp x.w)) ∧
    (Ready s (.ret c f) x → TargetsGood s x far →
      ∃ t, exec (.ret c f) s = .next t ∧ OnlyWarpTlb s t x.w ∧ Transfers s t x v ∧ KeptAll (s.warp x.w) (t.warp x.w)) ∧
    (Ready s (.call c f) x → TargetsGood s x (fun _ => (line, f.slot.toNat)) →
      ∃ t, exec (.call c f) s = .next t ∧ OnlyWarpTlb s t x.w ∧ Transfers s t x (fun _ => near) ∧
        KeptButRegs (s.warp x.w) (t.warp x.w) ∧
        Writes (s.warp x.w) (t.warp x.w) x.lanes f.a 1 (fun _ => (nextCp x.cp).toNat) ∧
        ∀ k l, l < 32 → (t.warp x.w).rp k l = (s.warp x.w).rp k l)) ∧
  ∀ (c : Common) (f : BR) (s : State) (x : Ix) (l : Nat),
    let tgt : Nat → Int × Nat := fun _ => ((cpLine x.cp : Int) + f.loff.toInt, f.slot.toNat)
    let far : Nat → Int × Nat := fun l =>
      ((cpLine ((s.warp x.w).word f.a 0 l) : Int), cpSlot ((s.warp x.w).word f.a 0 l))
    let refused (i : Instr) (tgt : Nat → Int × Nat) : Prop :=
      let r := s.checkTargets x.w tgt x.lanes
      Ready s i x → (∀ p ∈ r.1, ∀ va, p.2 ≠ .absent va) → (r.1.find? fun p => p.2 == .bad) = some (l, .bad) →
        exec i s = .next (r.2.raise x.w x.ent (precise 0x04 x.cp l))
    refused (.bra c f) tgt ∧ refused (.call c f) tgt ∧ refused (.brx c f) far ∧ refused (.ret c f) far

/-- R31, R194 to R196, R342: `NOP` and `YIELD` change no register and fall through, `YIELD` making the warp yield when a lane
participates; `RGN` gives every thread of the entry the next slot as its region start.  A lane of the entry that does not
participate in `WSYNC` falls through.  Every lane that waits at the `WSYNC`'s position, whether it came with this arrival or
before, goes on when the arrival meets its mask: at the next slot, with the lowest `PRIO` that any lane so released arrived with,
live, or, while a thread of the warp is in handler mode, blocked until `RTE`.  A participating lane whose mask is not met stays
blocked there with its mask; no other thread moves, and no register changes. -/
def Obligations.WarpControl : Prop :=
  (∀ (c : Common) (f : BR) (s : State) (x : Ix),
    (Ready s (.nop c f) x →
      ∃ t, exec (.nop c f) s = .next t ∧ OnlyWarp s t x.w ∧ FallsThrough s t x ∧ KeptAll (s.warp x.w) (t.warp x.w)) ∧
    (Ready s (.yield c f) x →
      ∃ t, exec (.yield c f) s = .next t ∧ OnlyWarp s t x.w ∧ FallsThrough s t x ∧ KeptAll (s.warp x.w) (t.warp x.w) ∧
        (x.lanes ≠ [] → (t.warp x.w).yielding = true)) ∧
    (Ready s (.rgn c f) x →
      ∃ t, exec (.rgn c f) s = .next t ∧ OnlyWarp s t x.w ∧ KeptAll (s.warp x.w) (t.warp x.w) ∧
        ∀ l, (t.warp x.w).th l =
          if l ∈ x.ent then { (s.warp x.w).th l with cp := nextCp x.cp, rcp := nextCp x.cp } else (s.warp x.w).th l)) ∧
  ∀ (c : Common) (f : BR) (s : State) (x : Ix), Ready s (.wsync c f) x →
    let w := s.warp x.w
    let m (l : Nat) : Word := w.word f.a 0 l
    let a := w.modThs x.lanes fun l th => { th with st := .blocked (.wsync (m l)) }
    let out (l : Nat) : Prop := l < 32 ∧ ∃ k, (a.th l).st = .blocked (.wsync k) ∧ cpPos (a.th l).cp = cpPos x.cp ∧
      ∀ j ∈ lanesOf k, j = l ∨ (a.th j).st = .never ∨ (a.th j).st = .exited ∨
        ∃ i, (a.th j).st = .blocked (.wsync i) ∧ cpPos (a.th j).cp = cpPos x.cp
    let lowest (p : Nat) : Prop := (∀ k, out k → p ≤ cpPrio (a.th k).cp) ∧ ∃ k, out k ∧ p = cpPrio (a.th k).cp
    ∃ t, exec (.wsync c f) s = .next t ∧ OnlyWarp s t x.w ∧ KeptAll w (t.warp x.w) ∧
      (∀ l ∈ x.ent, l ∉ x.lanes → (t.warp x.w).th l = { w.th l with cp := nextCp x.cp }) ∧
      (∀ l, out l → cpPos ((t.warp x.w).th l).cp = cpPos (nextCp x.cp) ∧ lowest (cpPrio ((t.warp x.w).th l).cp) ∧
        (t.warp x.w).th l = { a.th l with
          cp := ((t.warp x.w).th l).cp
          st := if w.inHandler = true ∧ (w.th l).hmode = false then .blocked .handler else .live }) ∧
      (∀ l ∈ x.lanes, ¬ out l → (t.warp x.w).th l = a.th l) ∧ ∀ l, l ∉ x.ent → ¬ out l → (t.warp x.w).th l = w.th l

/-- R37, R38, R57, R69, R193, R313: `EXIT`, when no store of the warp is parked.  While another thread of the warp remains, the
participating threads are exited, the region is closed, and no general register changes.  When the last threads of a warp exit,
its flags clear and no fault pending on one, the warp retires; while another warp of the block has not, nothing else of the
machine changes.  The last warp of a block first waits for the stores into the windows that the block's end concerns which are set aside, writes
back the dirty bytes of those windows, and waits until they are visible; then those windows are unbound and the block ends: held while a child grid is live, else
finished; its channels are reset, its tiles and dynamic resources returned in one release.  A grid whose blocks have all been
admitted and are finished retires with its status and completion, and a held block of its parent that waits for no other
child is finished in turn.  A block of a grid that was stopped ends in the same way.  Which windows the end concerns is log
entry 38, and when a stopped block ends log entry 12, the model's choices. -/
def Obligations.Exit : Prop :=
  (∀ (c : Common) (f : BR) (s : State) (x : Ix), Ready s (.exit c f) x → s.releaseCheck x = none →
    (x.lanes = [] ∨ (s.warp x.w).lastOf x.lanes = false) →
    ∃ t, exec (.exit c f) s = .next t ∧ OnlyWarp s t x.w ∧ (∀ l ∈ x.lanes, ((t.warp x.w).th l).st = .exited) ∧
      (t.warp x.w).rsn = (s.warp x.w).rsn + 1 ∧ (t.warp x.w).v = (s.warp x.w).v ∧ (t.warp x.w).s = (s.warp x.w).s ∧
      (t.warp x.w).p = (s.warp x.w).p ∧ (t.warp x.w).flags = (s.warp x.w).flags ∧ (t.warp x.w).retired = false) ∧
  (∀ (c : Common) (f : BR) (s : State) (x : Ix), Ready s (.exit c f) x → s.releaseCheck x = none → x.lanes ≠ [] →
    (s.warp x.w).lastOf x.lanes = true → (s.warp x.w).flagsClear 0xFFF = true → (s.warp x.w).flagFault 0xFFF = none →
    let b := (s.warp x.w).block
    let wins := s.endWindows b
    let back := s.writeBacks (fun p => { p with warp := x.w, pc := x.cp }) .exitWriteBack (s.dirtyOf wins)
    let ended (u : State) : State :=
      u.modWarp x.w fun y => { y.boundary.endLanes x.cp x.lanes with hold := none, retired := true }
    ((∃ v ∈ (s.wblk x.w).warps, v ≠ x.w ∧ (s.warp v).retired = false) →
      ∃ t, exec (.exit c f) s = .next t ∧ OnlyWarp s t x.w ∧ (t.warp x.w).retired = true ∧
        ∀ l ∈ x.lanes, ((t.warp x.w).th l).st = .exited) ∧
    ((∀ v ∈ (s.wblk x.w).warps, v ≠ x.w → (s.warp v).retired = true) →
      (s.windowLogged wins = true → exec (.exit c f) s = .next s) ∧
      (s.windowLogged wins = false → (back.1 ≠ [] ∨ back.2.exitParked x.w = true) → exec (.exit c f) s = .next back.2) ∧
      (s.windowLogged wins = false → back.1 = [] → back.2.exitParked x.w = false →
        exec (.exit c f) s = .next ((ended (back.2.unbind wins)).endBlock b) ∧
        ((ended (back.2.unbind wins)).warp x.w).retired = true ∧
        ∀ i ∈ wins, ∀ y, (i, y) ∈ (back.2.unbind wins).windows → y.dirty ≠ [])) ∧
    ∀ i, i ∈ wins ↔ ∃ y, (i, y) ∈ s.windows ∧ (y.block = b ∨
      ((s.blk b).holds = true ∧ (s.blk b).st ≠ .saved ∧ (s.blk y.block).st ≠ .saved ∧
        ∃ u ∈ (s.blk b).units,
          let lo := s.chipOf ((s.blk b).core / 8) * 2 ^ 31 + s.unitOff ((s.blk b).core / 8) u.1
          y.base < lo + 2 ^ 20 ∧ lo < y.limit))) ∧
  (∀ (b : Nat) (s : State),
    let k := s.blk b
    let g := s.gang k.gang
    let t := s.endBlock b
    let final : Bool := g.blocks.all fun p => p == b || !(s.blk p).holds
    let k1 := { k with chans := [], tiles := [], dynReg := 0, units := k.units.filter (·.2) }
    (s.childLive b = true → t.blk b = { k1 with st := .held }) ∧ (s.childLive b = false → t.blk b = { k1 with st := .finished }) ∧
      (t.cluster g.cluster).queue = (s.cluster g.cluster).queue ++ [.release k.gang (columnsOf k.core (s.allocOf b)) final] ∧
      (final = true → (t.gang k.gang).st = .done) ∧ (∀ n ∈ k.chans, t.chan n = {}) ∧ t.warps = s.warps ∧
      t.windows = s.windows ∧ t.shared = s.shared ∧ t.plinth = s.plinth ∧ t.tiles = s.tiles) ∧
  (∀ (b : Nat) (s : State),
    let k := s.blk b
    let wins := s.endWindows b
    let back := s.writeBacks (fun p => { p with warp := k.warps.headD 0 }) (.stopWriteBack b) (s.dirtyOf wins)
    let due := k.stopped = true ∧ (k.st = .admitted ∨ k.st = .resident)
    ((¬ due ∨ s.windowLogged wins = true) → s.endStopped b = s) ∧
    (due → s.windowLogged wins = false → (back.1 ≠ [] ∨ back.2.stopParked b = true) → s.endStopped b = back.2) ∧
    (due → s.windowLogged wins = false → back.1 = [] → back.2.stopParked b = false →
      s.endStopped b = ((back.2.unbind wins).modBlk b fun y => { y with stopped := false }).endBlock b)) ∧
  (∀ (b : Nat) (s : State), s.childLive b = true ↔
    (∃ p ∈ s.grids, p.2.parent = some b ∧ p.2.st ≠ .retired) ∨
      ∃ q ∈ s.launchQ, ∃ w flag, q.child = some (w, flag) ∧ (s.warp w).block = b) ∧
  ∀ (g n : Nat) (s : State),
    let x := s.grid g
    let t := s.retire g (n + 1)
    let due := x.st = .running ∧ x.nextBlock = x.nblocks ∧ ∀ p ∈ s.blocks, p.2.grid = g → p.2.st = .finished
    (¬ due → t = s) ∧
    (due → (t.grid g).st = .retired ∧ t.warps = s.warps ∧
      (∀ fn k, x.host = some (fn, k) → (x.recVa, x.code, 3, k, x.ctx + 1) ∈ (t.fn fn).completions) ∧
      ∀ b, x.parent = some b → (s.blk b).st = .held → (∀ p ∈ s.grids, p.1 ≠ g → p.2.parent = some b → p.2.st = .retired) →
        (∀ q ∈ s.launchQ, ∀ w flag, q.child = some (w, flag) → (s.warp w).block ≠ b) → (t.blk b).st = .finished)

/-- R198 to R200: `VOTE`, `SHFL` and `RDLANE`. -/
def Obligations.LaneExchange : Prop :=
  ∀ (c : Common) (f : RRR) (s : State) (x : Ix),
    let w := s.warp x.w
    let yes := x.lanes.filter fun l => w.rp (modBits f.mod 2 3) l != modBit f.mod 5
    let width := 2 ^ modBits f.mod 2 3
    let src (l : Nat) : Bool × Nat :=
      let k := (w.word f.b 0 l).toNat
      let sb := l - l % width
      let (ok, t) := match modBits f.mod 0 2 with
        | 0 => (true, sb + k % width)
        | 1 => (decide (k ≤ l - sb), l - k)
        | 2 => (decide (k < sb + width - l), l + k)
        | _ => (true, sb + ((l - sb) ^^^ (k % width)))
      if ok && x.lanes.contains t then (true, t) else (false, l)
    let named := (w.word f.b 0 0).toNat % 32
    (Ready s (.vote c f) x → modBits f.mod 0 2 = 0 →
      AnswersP (.vote c f) s x false f.pd fun _ => maskOf yes == maskOf x.lanes) ∧
    (Ready s (.vote c f) x → modBits f.mod 0 2 = 1 → AnswersP (.vote c f) s x false f.pd fun _ => maskOf yes != 0) ∧
    (Ready s (.vote c f) x → modBits f.mod 0 2 = 2 →
      AnswersP (.vote c f) s x false f.pd fun _ => maskOf yes == 0 || maskOf yes == maskOf x.lanes) ∧
    (Ready s (.vote c f) x → modBits f.mod 0 2 = 3 → AnswersD (.vote c f) s x false f.d 1 fun _ => (maskOf yes).toNat) ∧
    (Ready s (.shfl c f) x →
      Answers (.shfl c f) s x false f.d f.ty.regs (fun l => w.opd f.a f.ty.regs (src l).2) f.pd fun l => (src l).1) ∧
    (Ready s (.rdlane c f) x → x.lanes ≠ [] → w.poisonedOpd f.a f.ty.regs named = false →
      AnswersD (.rdlane c f) s x false f.d f.ty.regs fun _ => w.opd f.a f.ty.regs named)

/-! ### Exceptions -/

/-- R197: `BRK` and `TRAP` with a participating lane raise BREAKPOINT and SOFTWARE-TRAP for the entry, with the lowest
participating lane, n, and the next slot as return code pointer; with none they do nothing. -/
def Obligations.SoftwareTraps : Prop :=
  ∀ (c : Common) (f : FS) (s : State) (x : Ix),
    let r (code : BitVec 8) : FaultRec :=
      { code := code, lane := .ofNat 5 (x.lanes.headD 0), rpc := nextCp x.cp, fpc := x.cp, info := f.imm.zeroExtend 32 }
    (Ready s (.brk c f) x → x.lanes ≠ [] → exec (.brk c f) s = .next (s.raise x.w x.ent (r 0x40))) ∧
    (Ready s (.trap c f) x → x.lanes ≠ [] → exec (.trap c f) s = .next (s.raise x.w x.ent (r 0x41))) ∧
    (Ready s (.brk c f) x → x.lanes = [] →
      ∃ t, exec (.brk c f) s = .next t ∧ OnlyWarp s t x.w ∧ FallsThrough s t x ∧ KeptAll (s.warp x.w) (t.warp x.w)) ∧
    (Ready s (.trap c f) x → x.lanes = [] →
      ∃ t, exec (.trap c f) s = .next t ∧ OnlyWarp s t x.w ∧ FallsThrough s t x ∧ KeptAll (s.warp x.w) (t.warp x.w))

/-- R184, R342: a fault that the handler takes.  The entry's threads are live in handler mode at `HENTRY`, with `HENTRY` as
their region start; the record is written; the warp's other live threads block until `RTE`; registers, flags and everything
outside the warp are as before, but that a deque operation at which the entry waited is withdrawn (R144; log entry 54).  A fault
that no handler takes stops a running grid, whose code becomes the fault's unless it
has one. -/
def Obligations.ExceptionEntry : Prop :=
  (∀ (s : State) (x : Ix) (g : Guard) (r : FaultRec), s.pick s.cur g = some x → (s.wgrid x.w).hvalid = true →
    (s.wgrid x.w).hmask r.code.toNat = true → (s.warp x.w).inHandler = false →
    let t := s.raise x.w x.ent r
    let h := (s.wgrid x.w).hentry
    let a := s.warp x.w
    let b := t.warp x.w
    OnlyWarp { s with dqWaits := s.dqWaits.filter fun q => !(q.warp == x.w && q.cp == x.cp) } t x.w ∧ b.frec = r ∧
      (∀ l, b.th l =
        if l ∈ x.ent then { a.th l with st := .live, cp := h, rcp := h, hmode := true, check := false }
        else if l < 32 ∧ (a.th l).live = true then { a.th l with st := .blocked .handler }
        else a.th l) ∧
      b = { a with threads := b.threads, entries := b.entries, frec := r, hold := none }) ∧
  ∀ (s : State) (w : Nat) (lanes : List Nat) (r : FaultRec),
    ((s.wgrid w).hvalid = false ∨ (s.wgrid w).hmask r.code.toNat = false ∨ (s.warp w).inHandler = true) →
    let g := (s.wblk w).grid
    let t := s.raise w lanes r
    ((s.grid g).st ≠ .running → t = s) ∧
    ((s.grid g).st = .running →
      (t.grid g).code = (if (s.grid g).code = 0 then r.code else (s.grid g).code) ∧
      ∀ b k, (b, k) ∈ s.blocks → k.grid = g → k.holds = true → ∀ v, v ∈ (s.blk b).warps → ∀ l, l < 32 →
        ((t.warp v).th l).live = false)

/-- R165, R276, R343, R344: `RTE` ends handler mode: the handler's threads go on at the record's return code pointer, or at the target
that `A` names once it passes its checks, which is their region start; the threads that waited for `RTE` are live where they
stood; no register changes.  A deque operation at which the handler's threads waited is withdrawn (R144).  That a refused target raises CONTROL-FLOW with the first participating lane as `LANE` is the model's
reading (log entry 23, DEDUCED): R342 names the lane of a per-lane fault, and R276 does not say which lane reports this one. -/
def Obligations.ExceptionReturn : Prop :=
  ∀ (c : Common) (f : FS) (s : State) (x : Ix), Ready s (.rte c f) x → x.lanes ≠ [] →
    let a := s.warp x.w
    let v := a.word f.a 0 x.first
    let back (t : State) (cp : Word) : Prop :=
      OnlyWarpTlb { s with dqWaits := s.dqWaits.filter fun q => !(q.warp == x.w && allLanes.any fun l =>
        (a.th l).hmode && (a.th l).present && (a.th l).cp == q.cp) } t x.w ∧
      (∀ l, l < 32 → (t.warp x.w).th l =
        if (a.th l).hmode = true ∧ (a.th l).present = true then
          { a.th l with st := .live, cp := cp, rcp := cp, hmode := false }
        else if (a.th l).st = .blocked .handler then { a.th l with st := .live }
        else a.th l) ∧
      t.warp x.w = { a with threads := (t.warp x.w).threads, entries := (t.warp x.w).entries }
    (modBit f.mod 0 = false → ∃ t, exec (.rte c f) s = .next t ∧ back t a.frec.rpc) ∧
    (modBit f.mod 0 = true → (s.checkTarget x.w (cpLine v) (cpSlot v)).1 = .good →
      ∃ t, exec (.rte c f) s = .next t ∧ back t v) ∧
    (modBit f.mod 0 = true → (s.checkTarget x.w (cpLine v) (cpSlot v)).1 = .bad →
      exec (.rte c f) s = .next ((s.checkTarget x.w (cpLine v) (cpSlot v)).2.raise x.w x.ent (precise 0x04 x.cp x.first)))

/-- R110, R168, R179, R183: an instruction whose checks find a fault takes it: it has none of its own effect.  A privileged
instruction of an unprivileged grid that has passed the checks before it raises PRIVILEGED.  That the record of such a fault,
which no lane reports, holds `LANE` 0 is the model's choice (log entry 23).  A heap instruction of a grid without a heap raises
ILLEGAL-OPCODE 0x09, before anything else that its word is refused for (log entry 22, the model's reading of R110). -/
def Obligations.FaultsInsteadOfIssuing : Prop :=
  (∀ (s : State) (x : Ix) (i : Instr) (r : FaultRec), i.view.isSome = true → s.pick s.cur i.common.grd = some x →
    s.mayIssue s.cur = true → ((s.warp x.w).entry x.cp).waited = true → s.awaits x i = false →
    s.genericFault false x i = some r → exec i s = .next (s.raise x.w x.ent r)) ∧
  (∀ (s : State) (x : Ix) (i : Instr), Instr.privileged i = true → (s.wgrid x.w).priv = false → i.illegal = none →
    i.reserved = false → flagBad (lineWord ((s.warp x.w).entry x.cp).line) i.common.fs = false →
    s.illegalNow x.w i = none → s.genericFault false x i = some (precise 0x07 x.cp)) ∧
  ∀ (s : State) (x : Ix) (i : Instr) (op : Nat) (c : Common) (o : Body), i.view = some (op, c, o) →
    (0x280 ≤ op ∧ op ≤ 0x28A ∨ op = 0x28C) → (s.wgrid x.w).heapen = false →
    s.genericFault false x i = some (precise 0x01 x.cp 0 9)

/-- R78, R168, R326: while a line's `WAIT` names a flag that is not clear, no instruction of it issues: the warp keeps its entry
and nothing changes.  When every flag that `WAIT` names is clear and carries no fault, the line's check is done once: the
instruction is performed as it is in the state in which the check is done; while a register it names still waits for an atomic that
was set aside, it does nothing more. -/
def Obligations.LineWait : Prop :=
  (∀ (s : State) (x : Ix) (i : Instr), i.view.isSome = true → s.pick s.cur i.common.grd = some x →
    ((s.warp x.w).entry x.cp).waited = false →
    (s.warp x.w).flagsClear (lwWait (lineWord ((s.warp x.w).entry x.cp).line)) = false → exec i s = .next s) ∧
  ∀ (s : State) (x : Ix) (i : Instr), i.view.isSome = true → s.pick s.cur i.common.grd = some x →
    s.mayIssue s.cur = true → s.waitCheck x = none →
    exec i s = exec i (s.waitDone x) ∧
      (((s.waitDone x).warp x.w).entry x.cp).waited =
        (((s.warp x.w).entry x.cp).waited || lwWait (lineWord ((s.warp x.w).entry x.cp).line) != 0) ∧
      ((s.waitDone x).awaits x i = true → exec i s = .next (s.waitDone x))

/-! ### Special and privileged registers -/

/-- R185, R220: what `RDSR` reads, and `WRSR` writes.  A `WRSR` of a value with a reserved bit raises RESERVED-FIELD.  How far a
step advances a core's `%cycles` is open (log entry 4); that an entry stalls at issue while the page of `%hcolor`'s descriptor is
absent (log entry 27) and `LANE` 0 of that fault (log entry 23) are the model's choices. -/
def Obligations.SpecialRegisters : Prop :=
  ∀ (c : Common) (f : FS) (s : State) (x : Ix),
    let w := s.warp x.w
    let g := s.wgrid x.w
    let b := s.wblk x.w
    let n := f.imm.toNat
    let bd := g.bdim
    let gd := g.gdim
    let k (l : Nat) : Nat := 32 * w.idx + l
    let value (l : Nat) : Nat :=
      if n = 0x000 then l
      else if n = 0x001 then k l % bd.1
      else if n = 0x002 then k l / bd.1 % bd.2.1
      else if n = 0x003 then k l / (bd.1 * bd.2.1)
      else if n = 0x004 then b.index % gd.1
      else if n = 0x005 then b.index / gd.1 % gd.2.1
      else if n = 0x006 then b.index / (gd.1 * gd.2.1)
      else if n = 0x007 then bd.1
      else if n = 0x008 then bd.2.1
      else if n = 0x009 then bd.2.2
      else if n = 0x00A then gd.1
      else if n = 0x00B then gd.2.1
      else if n = 0x00C then gd.2.2
      else if n = 0x010 then w.idx
      else if n = 0x011 then b.core % 8
      else if n = 0x012 then s.clusterNum g.slice (clusterOf b.core)
      else if n = 0x013 then s.chipNum (s.chipOf (clusterOf b.core))
      else if n = 0x014 then 8 * (s.liveClusters g.slice).length
      else if n = 0x015 then (s.liveClusters g.slice).length
      else if n = 0x016 then (s.gang b.gang).blocks.length
      else if n = 0x017 then b.rank
      else if n = 0x018 then g.depth
      else if n = 0x020 then w.mctl.toNat
      else if n = 0x021 then w.mstat.toNat
      else if n = 0x030 then w.wissue.toNat
      else if n = 0x031 then w.wdrain.toNat
      else if n = 0x032 then s.cyclesOf b.core % 2 ^ 64
      else w.frec.word / 2 ^ (64 * (n - 0x40)) % 2 ^ 64
    let color := s.epoch (.heapPort b.core) (s.wctx x.w) g.heap
    let v := w.word f.a 0 x.first
    (Ready s (.rdsr c f) x → n ≠ 0x022 →
      AnswersD (.rdsr c f) s x c.u f.d (if 0x30 ≤ n then 2 else 1) value) ∧
    (∀ e, Ready s (.rdsr c f) x → n = 0x022 → x.lanes ≠ [] → color.1 = .ok e →
      ∃ t, exec (.rdsr c f) s = .next t ∧ OnlyWarpTlb s t x.w ∧ KeptButRegs (s.warp x.w) (t.warp x.w) ∧
        FallsThrough s t x ∧ Writes (s.warp x.w) (t.warp x.w) (x.targets c.u) f.d 1 fun _ => e) ∧
    (∀ va, Ready s (.rdsr c f) x → n = 0x022 → x.lanes ≠ [] → color.1 = .error va →
      ∃ t, exec (.rdsr c f) s = .next t ∧ t.requested (s.wctx x.w) (va / 4096 * 4096) = true ∧
        (∀ l, (t.warp x.w).th l = (s.warp x.w).th l) ∧ (t.warp x.w).v = (s.warp x.w).v ∧ (t.warp x.w).s = (s.warp x.w).s ∧
        t.mem = s.mem ∧ t.shared = s.shared ∧ t.plinth = s.plinth) ∧
    (Ready s (.wrsr c f) x → x.lanes ≠ [] → n = 0x020 → v &&& 0xFFFFFFFE = 0 →
      Performs (.wrsr c f) s x (s.modWarp x.w fun y => { y with mctl := v })) ∧
    (Ready s (.wrsr c f) x → x.lanes ≠ [] → n = 0x021 → v &&& 0xFFFFFFF8 = 0 →
      Performs (.wrsr c f) s x (s.modWarp x.w fun y => { y with mstat := v })) ∧
    (Ready s (.wrsr c f) x → x.lanes ≠ [] →
      (n = 0x020 ∧ v &&& 0xFFFFFFFE ≠ 0 ∨ n = 0x021 ∧ v &&& 0xFFFFFFF8 ≠ 0) →
      exec (.wrsr c f) s = .next (s.raise x.w x.ent (precise 0x02 x.cp))) ∧
    (Ready s (.wrsr c f) x → x.lanes = [] → Performs (.wrsr c f) s x s)

/-- R277, R278, R280, R365: what `PRD` reads, what `PWR` and `ERRRD` change, and the values that `PWR` refuses.  A `PRD` of
`%keyslot` is stated for a context that holds a key slot on its chiplet.  R279, R324: `INVMARK` marks draining exactly
the issuing context's cached translations that meet its range, and starts a new restart region; what it refuses;
`INVCONF` waits for the copy writes in flight to a peer under a marked translation, and leaves none of the context's marked
translations.  The model's choices are: `INVMARK` takes effect at once, and a range that ends past 2^48 raises BOUND (log entry
39); an `ERRRD`, a `PWR` or an `INVMARK` without a participating lane starts no restart region (log entry 40); `LANE` of these
faults (log entry 23). -/
def Obligations.PrivilegedRegisters : Prop :=
  (∀ (c : Common) (f : FS) (s : State) (x : Ix),
    let k := s.wctx x.w
    let y := s.ctx k
    let n := f.imm.toNat
    let v := (s.warp x.w).word f.a 0 x.first
    let reads (val : Nat) : Prop := AnswersD (.prd c f) s x true f.d 1 fun _ => val
    let record : Nat := s.phys (s.ctxF k 192 40 * 4096 + 32 * (y.elogrd.toNat % 256)) 32
    (Ready s (.prd c f) x →
      (n = 0x000 → reads (k % 2 ^ 32)) ∧ (n = 0x001 → reads (s.ctxVf k % 2 ^ 32)) ∧
      (n = 0x002 → reads ((s.wgrid x.w).slice % 2 ^ 32)) ∧
      (∀ u, n = 0x003 → s.keySlot k (s.wchip x.w) = some u → reads (u % 2 ^ 32)) ∧
      (n = 0x010 → reads ((s.cluster (s.wcluster x.w)).passcnt % 2 ^ 32)) ∧ (n = 0x011 → reads (s.dev.cooltab % 2 ^ 32)) ∧
      (n = 0x020 → reads y.elogrd.toNat) ∧ (n = 0x021 → reads y.elogwr.toNat) ∧ (n = 0x022 → reads y.elogovf.toNat)) ∧
    (Ready s (.pwr c f) x → x.lanes ≠ [] → n = 0x020 → (y.elogwr - v).toNat ≤ 256 →
      Performs (.pwr c f) s x ((s.modCtx k fun z => { z with elogrd := v }).restart x x.ent)) ∧
    (Ready s (.pwr c f) x → x.lanes ≠ [] → n = 0x022 → v = 0 →
      Performs (.pwr c f) s x ((s.modCtx k fun z => { z with elogovf := 0 }).restart x x.ent)) ∧
    (Ready s (.pwr c f) x → x.lanes ≠ [] → (n = 0x020 ∧ 256 < (y.elogwr - v).toNat ∨ n = 0x022 ∧ v ≠ 0) →
      exec (.pwr c f) s = .next (s.raise x.w x.ent (precise 0x02 x.cp))) ∧
    (Ready s (.pwr c f) x → x.lanes = [] → Performs (.pwr c f) s x s) ∧
    (Ready s (.errrd c f) x → x.lanes = [] → Performs (.errrd c f) s x s) ∧
    (Ready s (.errrd c f) x → x.lanes ≠ [] → y.elogrd = y.elogwr →
      Performs (.errrd c f) s x ((s.writeP x true f.pd fun _ => false).restart x x.ent)) ∧
    (Ready s (.errrd c f) x → x.lanes ≠ [] → y.elogrd ≠ y.elogwr →
      Performs (.errrd c f) s x (((((s.writeD x true f.d 8 fun _ => record).writeP x true f.pd fun _ => true)).modCtx k
        fun z => { z with elogrd := y.elogrd + 1 }).restart x x.ent))) ∧
  ∀ (c : Common) (f : FS) (s : State) (x : Ix),
    let w := s.warp x.w
    let k := s.wctx x.w
    let base := w.opd f.a 2 x.first
    let n := (w.word f.a 2 x.first).toNat
    let size : Nat := match modBits f.mod 0 2 with | 0 => 2 ^ 12 | 1 => 2 ^ 16 | 2 => 2 ^ 21 | _ => 2 ^ 30
    let refused (code : BitVec 8) (addr : BitVec 48) : Prop :=
      exec (.invmark c f) s = .next (s.raise x.w x.ent (precise code x.cp x.first 0 addr))
    let hit (e : TlbEntry) : Prop := e.ctx = k ∧ e.va < base + size * n ∧ base < e.va + e.size
    let marked : List TlbEntry := s.tlb.map fun e =>
      if e.ctx = k ∧ e.va < base + size * n ∧ base < e.va + e.size then { e with draining := true } else e
    (Ready s (.invmark c f) x → x.lanes ≠ [] → base % size ≠ 0 → refused 0x11 (.ofNat 48 base)) ∧
    (Ready s (.invmark c f) x → x.lanes ≠ [] → base % size = 0 →
      (n = 0 ∨ 1048576 < n ∨ w.word f.a 3 x.first ≠ 0) → refused 0x02 0) ∧
    (Ready s (.invmark c f) x → x.lanes ≠ [] → base % size = 0 → 1 ≤ n → n ≤ 1048576 → w.word f.a 3 x.first = 0 →
      2 ^ 48 < base + size * n → refused 0x10 (.ofNat 48 base)) ∧
    (Ready s (.invmark c f) x → x.lanes ≠ [] → base % size = 0 → 1 ≤ n → n ≤ 1048576 → w.word f.a 3 x.first = 0 →
      base + size * n ≤ 2 ^ 48 →
      (let t := s.invMark k base (size * n)
       Performs (.invmark c f) s x (t.restart x x.ent) ∧ t = { s with tlb := marked, chans := t.chans, peerLate := t.peerLate } ∧
        (∀ e ∈ marked, hit e → e.draining = true) ∧ ∀ e ∈ s.tlb, ¬ hit e → e ∈ marked)) ∧
    (Ready s (.invmark c f) x → x.lanes = [] → Performs (.invmark c f) s x s) ∧
    (Ready s (.invconf c f) x → x.lanes ≠ [] → s.markedWrites k = true → exec (.invconf c f) s = .next s) ∧
    (Ready s (.invconf c f) x → x.lanes ≠ [] → s.markedWrites k = false →
      Performs (.invconf c f) s x { s with tlb := s.tlb.filter fun e => !(e.ctx == k && e.draining) }) ∧
    (Ready s (.invconf c f) x → x.lanes = [] → Performs (.invconf c f) s x s)

/-! ### Memory -/

/-- R60, R221, R224: the checks of an address, in their order, for `LD` and `ST`: the failure of the highest priority that
an active lane shows is raised for the lowest such lane, with its address, and no lane's access is performed. -/
def Obligations.AddressChecks : Prop :=
  ∀ (c : Common) (f : FM) (s : State) (x : Ix) (store : Bool),
    let i : Instr := if store then .st c f else .ld c f
    let n := f.ty.bytes
    let b := s.wblk x.w
    let k := (s.warp x.w).rb f.bx.toNat
    let ea (l : Nat) : Int := k.ptr.toNat + f.off.toInt + (s.warp x.w).opdS f.idx l * (if modBit f.mod 0 then n else 1)
    let active := x.targets c.u
    let space := k.space = 1 ∨ k.space = 2
    let barred (l : Nat) : Prop :=
      k.space = 2 ∧ (s.unitBarred b k.g (ea l) = true ∨ s.unitBarred b k.g (ea l + n - 1) = true)
    let permitted := if store then k.w = true else k.r = true
    let aligned (l : Nat) : Prop := (n : Int) ∣ ea l
    let inRange (l : Nat) : Prop := (k.base.toNat : Int) ≤ ea l ∧ ea l + n ≤ k.limit.toNat
    let lowest (l : Nat) (bad : Nat → Prop) : Prop := l ∈ active ∧ bad l ∧ ∀ j ∈ active, j < l → ¬ bad j
    let raises (code : BitVec 8) (l : Nat) : Prop :=
      exec i s = .next (s.raise x.w x.ent (precise code x.cp l 0 (.ofNat 48 (ea l % 2 ^ 48).toNat)))
    Ready s i x → ∀ l,
      (¬ space → lowest l (fun _ => True) → raises 0x10 l) ∧
      (space → lowest l barred → raises 0x10 l) ∧
      (space → (∀ j ∈ active, ¬ barred j) → ¬ permitted → lowest l (fun _ => True) → raises 0x12 l) ∧
      (space → (∀ j ∈ active, ¬ barred j) → permitted → lowest l (fun j => ¬ aligned j) → raises 0x11 l) ∧
      (space → (∀ j ∈ active, ¬ barred j) → permitted → (∀ j ∈ active, aligned j) → lowest l (fun j => ¬ inRange j) →
        raises 0x10 l)

/-- R77, R90, R222, R223, R225: a load and a store that pass their checks.  A load's destination receives the bytes at each
lane's address, extended as the type says, and no byte of any memory changes.  When no flush of its warp holds a store up,
each byte stored to holds the byte of the highest lane that stores to it, every other byte of every memory is as before, no
register changes, and the store is counted. -/
def Obligations.LoadAndStore : Prop :=
  (∀ (c : Common) (f : FM) (s : State) (x : Ix) (sp : Space),
    let n := f.ty.bytes
    let raw (l : Nat) : Nat := rdNat (s.bytes sp) (s.keyAt x f n sp l) n
    let value (l : Nat) : Nat :=
      if f.ty = .s8 ∧ 2 ^ 7 ≤ raw l then raw l + 2 ^ 32 - 2 ^ 8
      else if f.ty = .s16 ∧ 2 ^ 15 ≤ raw l then raw l + 2 ^ 32 - 2 ^ 16
      else raw l
    Ready s (.ld c f) x → Passes s s x f c.u .load n sp (fun _ => false) false →
      s.poisonFault x sp n (s.keysAt x f c.u n sp) = none →
      ∃ t, exec (.ld c f) s = .next t ∧ OnlyLocal s t x.w sp ∧ t.shared = s.shared ∧ t.plinth = s.plinth ∧
        t.windows = s.windows ∧ FallsThrough s t x ∧ KeptButRegs (s.warp x.w) (t.warp x.w) ∧
        Writes (s.warp x.w) (t.warp x.w) (x.targets c.u) f.r f.ty.regs value ∧
        ∀ k l, l < 32 → (t.warp x.w).rp k l = (s.warp x.w).rp k l) ∧
  ∀ (c : Common) (f : FM) (s : State) (x : Ix) (sp : Space),
    let n := f.ty.bytes
    let key (l : Nat) : Nat := s.keyAt x f n sp l
    let v (l : Nat) : Nat := (s.warp x.w).opd f.r f.ty.regs l
    Ready s (.st c f) x → Passes s s x f c.u .store n sp (fun _ => true) false →
      s.flushHolds x.w ((x.targets c.u).flatMap fun l => addrs (key l) (bytesOf n (v l))) = false →
      ∃ t, exec (.st c f) s = .next t ∧ OnlyLocal s t x.w sp ∧ FallsThrough s t x ∧
        (∀ a, (∀ l ∈ x.targets c.u, ¬ (key l ≤ a ∧ a < key l + n)) → rdByte (t.bytes sp) a = rdByte (s.bytes sp) a) ∧
        (∀ l ∈ x.targets c.u, ∀ j, j < n →
          (∀ h ∈ x.targets c.u, l < h → ¬ (key h ≤ key l + j ∧ key l + j < key h + n)) →
          rdByte (t.bytes sp) (key l + j) = .ofNat 8 (v l / 2 ^ (8 * j))) ∧
        t.warp x.w = { s.warp x.w with
          threads := (t.warp x.w).threads, entries := (t.warp x.w).entries, yielding := (t.warp x.w).yielding
          hold := none, wissue := (s.warp x.w).wissue + if x.lanes = [] then 0 else 1 }

/-- R77, R78, R90, R226 to R229: `ATOM`, `ATOMCAS` and `RED` that pass their checks.  The lanes act in ascending order, each
on what those before it have left; the destination receives the old values; every byte outside the words written is as
before; the instruction is counted when a lane participates, and an order other than relaxed opens a new region. -/
def Obligations.Atomics : Prop :=
  ∀ (c : Common) (f : FM) (s : State) (x : Ix) (sp : Space),
    let n := f.ty.bytes
    let opc := modBits f.mod 4 4
    let ord := modBits f.mod 1 3
    let key (l : Nat) : Nat := s.keyAt x f n sp l
    let w := s.warp x.w
    let fp : Bool := f.ty = .f32 || f.ty = .f64 || f.ty = .f16x2 || f.ty = .bf16x2
    let value (v old : Nat) : Nat :=
      match opc with
      | 0 => old
      | 3 => if fp then perElem f.ty (faddOf 0) old v else (old + v) % 2 ^ (8 * n)
      | 4 => if fp then perElem f.ty (fminmaxOf false 0) old v else if tyInt f.ty old ≤ tyInt f.ty v then old else v
      | 5 => if fp then perElem f.ty (fminmaxOf true 0) old v else if tyInt f.ty v ≤ tyInt f.ty old then old else v
      | 6 => old &&& v
      | 7 => old ||| v
      | 8 => old ^^^ v
      | _ => v
    let performs (i : Instr) (dst : Opd) (reads : Bool) (new : Nat → Nat → Nat) (writes : Nat → Nat → Bool) : Prop :=
      let msgs := if reads then (s.keysAt x f c.u n sp).flatMap fun p => s.msgsAt sp n p.2 else []
      let run (ls : List Nat) : List Host.Cell :=
        ls.foldl (fun m l => wrNat m (key l) n (new l (rdNat m (key l) n))) (s.bytes sp)
      let old (l : Nat) : Nat := rdNat (run ((x.targets c.u).filter (· < l))) (key l) n
      let wrote (l : Nat) : Bool := writes l (old l)
      Ready s i x → (ordRel ord = true → s.releaseCheck x = none) →
        Passes s (s.readMsgs x.w f.pd.toNat ord msgs) x f c.u .atomic n sp wrote true →
        (reads = true → s.poisonFault x sp n (s.keysAt x f c.u n sp) = none) →
        s.flushHolds x.w (((x.targets c.u).filter wrote).map fun l => (key l, 0)) = false →
        ∃ t, exec i s = .next t ∧ OnlyLocal s t x.w sp ∧
          (if x.lanes = [] then FallsThrough s t x else FallsRestarted s t x) ∧
          KeptButOrder w (t.warp x.w) ∧ Writes w (t.warp x.w) (x.targets c.u) dst f.ty.regs old ∧
          (∀ a, rdByte (t.bytes sp) a = rdByte (run (x.targets c.u)) a) ∧
          (∀ a, (∀ l ∈ x.targets c.u, wrote l = true → ¬ (key l ≤ a ∧ a < key l + n)) →
            rdByte (t.bytes sp) a = rdByte (s.bytes sp) a) ∧
          (t.warp x.w).wissue = w.wissue + (if x.lanes = [] then 0 else 1) ∧
          (t.warp x.w).rsn = if ord = 0 then w.rsn else w.rsn + 1
    let pair (l : Nat) : Nat := w.opd f.c (2 * f.ty.regs) l
    performs (.atom c f) f.r (opc != 1) (fun l old => value (w.opd f.c f.ty.regs l) old) (fun _ _ => opc != 0) ∧
    performs (.red c f) .zero true (fun l old => value (w.opd f.r f.ty.regs l) old) (fun _ _ => true) ∧
    performs (.atomcas c f) f.r true
      (fun l old => if old = pair l % 2 ^ (8 * n) then pair l / 2 ^ (8 * n) else old)
      fun l old => old == pair l % 2 ^ (8 * n)

/-- R64, R230: `LDK` and `STK`.  Word j of lane L stands at the warp's carve + 128·j + 4·L of the chiplet's Plinth; a
misaligned offset and one outside the spill stack are refused, in that order; no other byte of any memory changes. -/
def Obligations.SpillStack : Prop :=
  ∀ (c : Common) (f : FM) (s : State) (x : Ix),
    let w := s.warp x.w
    let n := f.ty.bytes
    let o (l : Nat) : Int := f.off.toInt + w.opdS f.idx l * (if modBit f.mod 0 then n else 1)
    let place (l j : Nat) : Nat := s.wchip x.w * 2 ^ 31 + (w.spillBase + ((o l).toNat / 4 + j) * 128 + l * 4)
    let good (l : Nat) : Prop := (4 : Int) ∣ o l ∧ 0 ≤ o l ∧ o l + n ≤ (s.wgrid x.w).spill
    let raises (i : Instr) (code : BitVec 8) (l : Nat) : Prop :=
      exec i s = .next (s.raise x.w x.ent (precise code x.cp l 0 (.ofNat 48 (o l % 2 ^ 48).toNat)))
    let first (bad : Nat → Prop) (l : Nat) : Prop := l ∈ x.lanes ∧ bad l ∧ ∀ j ∈ x.lanes, j < l → ¬ bad j
    (Ready s (.ldk c f) x → (∀ l ∈ x.lanes, good l) →
      (∀ l ∈ x.lanes, ∀ j, j < f.ty.regs → s.localPoison .plinth (place l j) 4 = false) →
      AnswersD (.ldk c f) s x false f.r f.ty.regs fun l =>
        ((List.range f.ty.regs).map fun j => rdNat s.plinth (place l j) 4 * 2 ^ (32 * j)).sum) ∧
    (Ready s (.stk c f) x → (∀ l ∈ x.lanes, good l) →
      ∃ t, exec (.stk c f) s = .next t ∧ OnlyLocal s t x.w .plinth ∧ FallsThrough s t x ∧
        (∀ a, (∀ l ∈ x.lanes, ∀ j, j < f.ty.regs → ¬ (place l j ≤ a ∧ a < place l j + 4)) →
          rdByte t.plinth a = rdByte s.plinth a) ∧
        (∀ l ∈ x.lanes, ∀ j, j < f.ty.regs → rdNat t.plinth (place l j) 4 = (w.word f.r j l).toNat) ∧
        t.warp x.w = { w with
          threads := (t.warp x.w).threads, entries := (t.warp x.w).entries, yielding := (t.warp x.w).yielding
          hold := none, wissue := w.wissue + if x.lanes = [] then 0 else 1 }) ∧
    ∀ l,
      (first (fun j => ¬ (4 : Int) ∣ o j) l →
        (Ready s (.ldk c f) x → raises (.ldk c f) 0x11 l) ∧ (Ready s (.stk c f) x → raises (.stk c f) 0x11 l)) ∧
      ((∀ j ∈ x.lanes, (4 : Int) ∣ o j) → first (fun j => ¬ (0 ≤ o j ∧ o j + n ≤ (s.wgrid x.w).spill)) l →
        (Ready s (.ldk c f) x → raises (.ldk c f) 0x10 l) ∧ (Ready s (.stk c f) x → raises (.stk c f) 0x10 l))

/-- R59, R61: `BADV`, `BNARROW` and `BGET`: the new register, the values refused with BOUND, and that neither changes
anything else; no bounded register they write has a wider range or a permission its source lacks.  `LANE` of those faults is the
model's choice (log entry 23). -/
def Obligations.BoundedRegisters : Prop :=
  ∀ (c : Common) (f : FM) (s : State) (x : Ix),
    let w := s.warp x.w
    let k := w.rb f.bx.toNat
    let base := k.base.toNat
    let limit := k.limit.toNat
    let p : Int := k.ptr.toNat + w.opdS f.idx x.first + f.off.toInt
    let lo := w.opd f.idx 1 x.first
    let hi := w.opd f.c 1 x.first
    let b : Word := .ofNat 32 (base + lo)
    let narrowed : Bounded :=
      { k with base := b, ptr := b, limit := .ofNat 32 (base + hi), r := k.r && f.mod.getLsbD 0
               w := k.w && f.mod.getLsbD 1, a := k.a && f.mod.getLsbD 2 }
    (Ready s (.badv c f) x → x.lanes ≠ [] → base ≤ p → p ≤ limit →
      Performs (.badv c f) s x (s.modWarp x.w fun y => y.wb f.bx.toNat { k with ptr := .ofInt 32 p })) ∧
    (Ready s (.badv c f) x → x.lanes ≠ [] → (p < base ∨ limit < p) →
      exec (.badv c f) s = .next (s.raise x.w x.ent (precise 0x10 x.cp x.first 0 (.ofNat 48 (p % 2 ^ 48).toNat)))) ∧
    (Ready s (.bnarrow c f) x → x.lanes ≠ [] → lo ≤ hi → base + hi ≤ limit →
      Performs (.bnarrow c f) s x (s.modWarp x.w fun y => y.wb f.r.code narrowed) ∧
        base ≤ narrowed.base.toNat ∧ narrowed.base.toNat ≤ narrowed.limit.toNat ∧ narrowed.limit.toNat ≤ limit) ∧
    (Ready s (.bnarrow c f) x → x.lanes ≠ [] → (hi < lo ∨ limit < base + hi) →
      exec (.bnarrow c f) s = .next (s.raise x.w x.ent (precise 0x10 x.cp x.first 0 (.ofNat 48 (base + hi))))) ∧
    (Ready s (.badv c f) x → x.lanes = [] → Performs (.badv c f) s x s) ∧
    (Ready s (.bnarrow c f) x → x.lanes = [] → Performs (.bnarrow c f) s x s) ∧
    (Ready s (.bget c f) x → AnswersD (.bget c f) s x true f.r 4 fun _ =>
      k.ptr.toNat + base * 2 ^ 32 + limit * 2 ^ 64 + k.space.toNat * 2 ^ 96 + k.r.toNat * 2 ^ 98 + k.w.toNat * 2 ^ 99 +
        k.a.toNat * 2 ^ 100 + k.g.toNat * 2 ^ 101)

/-- R66 to R69, R232: `WMAP` with its checks in their order, `WUNMAP`, `WFLUSH`, the fill of a chunk and the completion of a
flush.  A fill writes the 4 KiB of the chunk's page into the Plinth range and nothing else of the Plinth.  A write-back takes the
dirty bytes sector by sector, writes those bytes of the page and no other byte of memory, and leaves them clean; where another
context's key covers the unit, what the other bytes read as is open (R4).  The model's choices are: the low 48 bits of the address of a `WMAP`, a `WMAP` without room that starts no region, a `WUNMAP` of no window that
starts one, a `WFLUSH` of no window that completes, and that `WUNMAP` and `WFLUSH` wait for stores set aside (log entry 38); `LANE`
of the faults (log entry 23). -/
def Obligations.Windows : Prop :=
  (∀ (c : Common) (f : FM) (s : State) (x : Ix),
    let w := s.warp x.w
    let k := w.rb f.bx.toNat
    let va := w.opd f.r 2 x.first % 2 ^ 48
    let y : Window :=
      { block := w.block, ctx := s.wctx x.w, chip := s.wchip x.w, base := s.wchip x.w * 2 ^ 31 + k.base.toNat
        limit := s.wchip x.w * 2 ^ 31 + k.limit.toNat, va := va }
    let clash (z : Window) : Prop :=
      z.chip = y.chip ∧ (s.blk z.block).st ≠ .saved ∧
        (z.ctx = y.ctx ∧ z.va < va + (y.limit - y.base) ∧ va < z.va + (z.limit - z.base) ∨
          z.base < y.base + (y.limit - y.base) ∧ y.base < z.base + (z.limit - z.base))
    let aligned := 4096 ∣ k.base.toNat ∧ 4096 ∣ k.limit.toNat ∧ 4096 ∣ va ∧ k.base ≠ k.limit
    let alone := ∀ p ∈ s.windows, ¬ clash p.2
    let room := s.windowCount (s.wcluster x.w) < 64
    let raises (code : BitVec 8) (addr : BitVec 48) : Prop :=
      exec (.wmap c f) s = .next (s.raise x.w x.ent (precise code x.cp x.first 0 addr))
    let wins := s.windowsIn x.w k
    (Ready s (.wmap c f) x → x.lanes ≠ [] →
      (k.space ≠ 2 → raises 0x10 0) ∧
      (k.space = 2 → (k.r = false ∨ k.w = false) → raises 0x12 0) ∧
      (k.space = 2 → k.r = true → k.w = true → ¬ aligned → raises 0x11 (.ofNat 48 va)) ∧
      (k.space = 2 → k.r = true → k.w = true → aligned → ¬ alone → raises 0x19 (.ofNat 48 va)) ∧
      (k.space = 2 → k.r = true → k.w = true → aligned → alone → ¬ room →
        Performs (.wmap c f) s x (s.writeP x true f.pd fun _ => false)) ∧
      (k.space = 2 → k.r = true → k.w = true → aligned → alone → room →
        Performs (.wmap c f) s x
          (({ s with windows := tset s.windows (tnext s.windows) y
                     relPlinth := outsideWords y.base (y.limit - y.base) s.relPlinth }.writeP x true f.pd
            fun _ => true).restart x x.ent))) ∧
    (Ready s (.wunmap c f) x → x.lanes ≠ [] → wins = [] → Performs (.wunmap c f) s x (s.restart x x.ent)) ∧
    (Ready s (.wunmap c f) x → x.lanes ≠ [] → wins ≠ [] → s.windowLogged wins = true → exec (.wunmap c f) s = .next s) ∧
    (∀ s0 s1, Ready s (.wunmap c f) x → x.lanes ≠ [] → wins ≠ [] → s.windowLogged wins = false → s.unmapReads x (s.dirtyOf wins) = .ok s0 →
      s0.writeBacks (fun p => { p with warp := x.w, pc := x.cp }) .unmap (s0.dirtyOf wins) = ([], s1) →
      s1.unmapParked x.w = false → (s1.warp x.w).unmapFault = none →
      Performs (.wunmap c f) s x
        ({ s1 with windows := s1.windows.filter fun p => !(wins.contains p.1 && p.2.dirty.isEmpty) }.restart x x.ent)) ∧
    (Ready s (.wflush c f) x → wins = [] → Performs (.wflush c f) s x s) ∧
    (Ready s (.wflush c f) x → x.lanes ≠ [] → wins ≠ [] →
      (s.flagFull x.w (s.fsFlag x c) = true ∨ s.windowLogged wins = true) → exec (.wflush c f) s = .next s) ∧
    (let d := s.dirtyOf wins
     let a := (s.acceptOp x (.wflush d) (s.fsFlag x c)).adoptFlushes x.w
     let o : AsyncOp :=
       { warp := x.w, kind := .wflush d, flags := [s.fsFlag x c], pc := x.cp, rsn := w.rsn, vc := w.vcNow x.w
         starts := x.lanes.map fun l => (l, (w.th l).rcp) }
     ∀ s1, Ready s (.wflush c f) x → x.lanes ≠ [] → wins ≠ [] → s.flagFull x.w (s.fsFlag x c) = false →
      s.windowLogged wins = false →
      a.opAccess s.opCtr o { a.opAcc s.opCtr o false with own := partyOfWarp x.w } .plinth 4
        ((a.dirtyWords d).map (·.2)) = .ok s1 →
      ((a.dirtyWords d).map (·.2)).all (fun k => !s1.metaPoison .plinth k 4) = true →
      Performs (.wflush c f) s x (s1.flushMore s.opCtr o d))) ∧
  (∀ (cluster w i k : Nat) (r : List (Nat × Nat × Nat)) (bytes : List Byte) (s u : State),
    let y := s.window i
    let at_ (j : Nat) : Nat := y.base + 4096 * k + j
    (s.cluster cluster).fills = (w, i, k) :: r → tfind s.windows i = some y → k ∉ y.filled → s.fillHeld cluster i k = false →
      (s.modCluster cluster fun c => { c with fills := r }).vread (s.windowUnit y) y.ctx (y.va + k * 4096) 4096 = (.ok bytes, u) →
      ∃ t, exec (.windowFill cluster) s = .next t ∧ k ∈ (t.window i).filled ∧ (t.window i).dirty = y.dirty ∧
        t.mem = s.mem ∧ t.shared = s.shared ∧ (t.cluster cluster).fills = r ∧
        (∀ j, j < 4096 → rdByte t.plinth (at_ j) = bytes.getD j 0) ∧
        ∀ a, (a < at_ 0 ∨ at_ 4096 ≤ a) → rdByte t.plinth a = rdByte s.plinth a) ∧
  (∀ (i sec pa : Nat) (offs : List Nat) (mk : Parked → Parked) (org : Origin) (s u : State),
    let y := s.window i
    let c := clusterOf (s.blk y.block).core
    let place (o : Nat) : Nat := pa + (y.va + o) % 4096
    offs ≠ [] → offs.Nodup → (∀ o ∈ offs, (y.va + o) / 64 = sec) → s.logRoom (.mapUnit c) 1 = true →
      s.sectorLogged (.mapUnit c) y.ctx sec = false →
      s.xlate (.mapUnit c) y.ctx (sec * 64 / 4096 * 4096) true = (some pa, u) →
      (∀ o ∈ offs, s.readsPlain y.ctx (place o) = true) →
      ∃ t, s.writeBackAt i offs mk org = ([], t) ∧ (∀ o ∈ offs, rdByte t.mem (place o) = rdByte s.plinth (y.base + o)) ∧
        (∀ a, (∀ o ∈ offs, a ≠ place o) → rdByte t.mem a = rdByte s.mem a) ∧ t.plinth = s.plinth ∧ t.shared = s.shared ∧
        t.window i = { y with dirty := y.dirty.filter fun o => !offs.contains o } ∧ t.parked = s.parked) ∧
  (∀ (va : Nat) (bytes : List (Nat × Byte)), (sectors va bytes).flatten.Perm bytes ∧
    ∀ l ∈ sectors va bytes, ∃ k, ∀ p ∈ l, (va + p.1) / 64 = k) ∧
  ∀ (n : Nat) (o : AsyncOp) (s : State), tfind s.ops n = some o →
    (o.kind = .wflush [] → s.flushParked n = false →
      exec (.wflushCompletion n) s = .next
        { s.modWarp o.warp fun y => y.flagsDown (opClock o.vc n) o.flags with ops := terase s.ops n }) ∧
    (o.kind = .wflush [] → s.flushParked n = true → exec (.wflushCompletion n) s = .next s) ∧
    ∀ p rest, o.kind = .wflush (p :: rest) →
      ((s.wblk o.warp).st = .saved → exec (.wflushCompletion n) s = .next s) ∧
      ((s.wblk o.warp).st ≠ .saved → exec (.wflushCompletion n) s = .next (s.flushMore n o (p :: rest)))

/-! ### Ordering and waits -/

/-- R78, R87, R90, R94, R95, R233, R235, R236: `FENCE`, `WAITF` and `DRAIN`.  A releasing fence waits while a store of the
warp is set aside; `WAITF` waits for its flags and then reports a pending fault or closes the region; `DRAIN` waits for the
writes issued before it, which WRITE_DRAINED counts one by one.  None of them writes a register or a byte of memory.  That
`WAITF` waits, and reports, whatever its guard is the model's choice (log entry 43). -/
def Obligations.FencesAndWaits : Prop :=
  (∀ (c : Common) (f : FS) (s : State) (x : Ix),
    let w := s.warp x.w
    let ord := modBits f.mod 0 3
    let scope := modBits f.mod 3 3
    let acquires := ord = 1 ∨ ord = 3 ∨ ord = 4
    let releases := ord = 2 ∨ ord = 3 ∨ ord = 4
    let vc := if acquires then vcJoin w.vc (s.pairs x.w scope w.readVc) else w.vc
    let done : Warp :=
      { w with
        rsn := w.rsn + 1, ep := w.ep + 1, vc := vc
        fenceVc := if releases then setFence (vcJoin vc [(2 * x.w, w.ep + 1)]) scope w.fenceVc else w.fenceVc }
    let m := f.imm.toNat
    let goal : DWord := match w.drainTo with
      | some (cp, n) => if cp = x.cp then n else w.wissue
      | none => w.wissue
    (Ready s (.fence c f) x → (releases → s.storeParked x.w = false ∧ w.drainFaults = []) →
      Performs (.fence c f) s x (s.setWarp x.w done)) ∧
    (Ready s (.fence c f) x → releases → s.storeParked x.w = true → exec (.fence c f) s = .next s) ∧
    (Ready s (.waitf c f) x → w.flagsClear m = false → exec (.waitf c f) s = .next s) ∧
    (∀ p, Ready s (.waitf c f) x → w.flagsClear m = true → w.flagFault m = some p →
      exec (.waitf c f) s = .next ((s.setWarp x.w { w with faults := w.faults.erase p }).raise x.w x.ent
        { p.fr with async := true, rpc := x.cp })) ∧
    (Ready s (.waitf c f) x → w.flagsClear m = true → w.flagFault m = none →
      ∃ t, exec (.waitf c f) s = .next t ∧ OnlyWarp s t x.w ∧ FallsThrough s t x ∧
        t.warp x.w = { w with
          threads := (t.warp x.w).threads, entries := (t.warp x.w).entries, yielding := (t.warp x.w).yielding
          hold := none, rsn := w.rsn + 1, ep := w.ep + 1, vc := (t.warp x.w).vc, flagVc := (t.warp x.w).flagVc }) ∧
    (Ready s (.drain c f) x → x.lanes = [] → Performs (.drain c f) s x s) ∧
    (Ready s (.drain c f) x → x.lanes ≠ [] → w.drainFaults = [] → goal ≤ w.wdrain →
      Performs (.drain c f) s x (s.setWarp x.w { w with drainTo := none })) ∧
    (Ready s (.drain c f) x → x.lanes ≠ [] → w.drainFaults = [] → w.wdrain < goal →
      exec (.drain c f) s = .next (s.setWarp x.w { w with drainTo := some (x.cp, goal) })) ∧
    (∀ r rest, Ready s (.drain c f) x → x.lanes ≠ [] → w.drainFaults = r :: rest →
      exec (.drain c f) s = .next ((s.setWarp x.w { w with drainFaults := rest, drainTo := none }).raise x.w x.ent
        { r with rpc := x.cp }))) ∧
  ∀ (k : Nat) (s : State),
    ((s.warp k).wdrain < (s.warp k).wissue → s.writeParked k ((s.warp k).wdrain.toNat + 1) = false →
      exec (.writeDrained k) s = .next (s.modWarp k fun y => { y with wdrain := y.wdrain + 1 })) ∧
    ((s.warp k).wissue ≤ (s.warp k).wdrain ∨ s.writeParked k ((s.warp k).wdrain.toNat + 1) = true →
      exec (.writeDrained k) s = .next s)

/-- R80, R95, R234: `BAR` and `GBAR`.  A first attempt records the arrival; while a warp is missing the entry waits and
nothing else changes; the arrival that completes the barrier advances its generation and goes on, with every waiting warp
ordered after all of them; a warp whose barrier has released goes on. -/
def Obligations.Barriers : Prop :=
  ∀ (c : Common) (f : FM) (s : State) (x : Ix) (gang : Bool),
    let i : Instr := if gang then .gbar c f else .bar c f
    let b := (s.warp x.w).block
    let g := (s.blk b).gang
    let gen := if gang then (s.gang g).gbarGen else (s.blk b).barGen
    let all := if gang then (s.gang g).blocks.flatMap fun k => (s.blk k).warps else (s.blk b).warps
    let at_ (w : Warp) : Option Nat := if gang then w.gbar else w.bar
    let s1 := s.modWarp x.w fun w =>
      if gang then { w with gbar := some gen, hold := some x.cp } else { w with bar := some gen, hold := some x.cp }
    let here := all.filter fun v => !(s1.warp v).retired
    let s2 := here.foldl (fun t k => t.modWarp k fun w => { w with vc := vcJoin w.vc (s1.joinClock here) }) s1
    let s3 := if gang then s2.modGang g fun k => { k with gbarGen := gen + 1 }
              else s2.modBlk b fun k => { k with barGen := gen + 1 }
    let passed (t : State) : State := t.modWarp x.w fun w =>
      if gang then { w with gbar := none, rsn := w.rsn + 1, ep := w.ep + 1 }
      else { w with bar := none, rsn := w.rsn + 1, ep := w.ep + 1 }
    Ready s i x → s.storeParked x.w = false → (s.warp x.w).drainFaults = [] →
      ((∀ k, at_ (s.warp x.w) = some k → gen ≤ k) → (∃ v ∈ here, at_ (s1.warp v) ≠ some gen) → exec i s = .next s1) ∧
      ((∀ k, at_ (s.warp x.w) = some k → gen ≤ k) → (∀ v ∈ here, at_ (s1.warp v) = some gen) →
        Performs i s x (passed s3)) ∧
      ∀ k, at_ (s.warp x.w) = some k → k < gen → Performs i s x (passed s)

/-! ### The matrix unit -/

/-- R129, R133, R134, R136, R237, R259: `CINIT`, and the signatures of `MMA` and `MMOM`: what the convergence register holds
after one, when a signature is refused, when it waits for its flag, and that the signature that fills the register issues
the operation and leaves the register initialised and empty.  The model's choices are: that the kind of the first signature,
`MMA` or `MMOM`, is one of the fields that the later ones must share, and the scale bytes of 1.0 where the mode has no scale for
each row (log entry 56); `LANE` of these faults (log entry 23). -/
def Obligations.Convergence : Prop :=
  (∀ (c : Common) (f : FS) (s : State) (x : Ix),
    let k := modBits f.mod 0 4
    let n := f.imm.toNat
    let free := ((s.warp x.w).rc k).mask = 0
    (Ready s (.cinit c f) x → x.lanes ≠ [] → 1 ≤ n → n ≤ 32 → free →
      Performs (.cinit c f) s x (s.modWarp x.w fun y => y.wc k { init := true, expect := n })) ∧
    (Ready s (.cinit c f) x → x.lanes ≠ [] → ¬ (1 ≤ n ∧ n ≤ 32 ∧ free) →
      exec (.cinit c f) s = .next (s.raise x.w x.ent (precise 0x24 x.cp x.first))) ∧
    (Ready s (.cinit c f) x → x.lanes = [] → Performs (.cinit c f) s x s)) ∧
  ∀ (c : Common) (f : FX) (s : State) (x : Ix) (moment : Bool),
    let i : Instr := if moment then .mmom c f else .mma c f
    let w := s.warp x.w
    let slot := (s.wgrid x.w).slot f.fslot.toNat
    let n := f.cv.toNat
    let k := w.rc n
    let addr : Int := (w.rb f.bx.toNat).ptr.toNat + f.off.toInt
    let flag := s.fsFlag x c
    let count (m : BitVec 32) : Nat := (lanesOf m).length
    let same := k.moment = moment ∧ k.zd = f.zd ∧ k.fslot = f.fslot ∧ k.sa = f.sa.code ∧ k.mod = f.mod ∧ k.addr = addr
    let accepts :=
      k.init = true ∧ count k.mask + x.lanes.length ≤ k.expect ∧ k.mask &&& maskOf x.lanes = 0 ∧ (k.mask = 0 ∨ same) ∧
        ∀ l, w.latch = some l → l.width = (slotElem (slotA slot)).width
    let k1 := k.sign w moment f (slotScl slot) addr x flag
    let signed := s.modWarp x.w fun y => (y.flagUp flag).wc n k1
    Ready s i x → x.lanes ≠ [] →
      (¬ accepts → exec i s = .next (s.raise x.w x.ent (precise 0x24 x.cp x.first))) ∧
      (accepts → 15 ≤ w.flag flag → exec i s = .next s) ∧
      (accepts → w.flag flag < 15 → count (k.mask ||| maskOf x.lanes) ≠ k.expect →
        Performs i s x (signed.restart x x.lanes)) ∧
      (accepts → w.flag flag < 15 → count (k.mask ||| maskOf x.lanes) = k.expect →
        Performs i s x ((signed.signedIssue x k1 n slot).restart x x.lanes) ∧
          ((signed.signedIssue x k1 n slot).warp x.w).rc n = { init := true, expect := k.expect }) ∧
      (accepts → k1.mask = k.mask ||| maskOf x.lanes ∧ k1.flags = k.flags ++ [flag] ∧ k1.expect = k.expect ∧
        (∀ l ∈ x.lanes, ∀ j, j < 16 → tget 0 k1.rows.rows (16 * l + j) = w.word f.a j l) ∧
        ∀ l ∈ x.lanes, tget 0 k1.rows.scales l = if slotScl slot = 1 then w.word f.sa 0 l else 0x7F7F7F7F)

/-- R8, R137, R260: `ZCLR` and `ZMOV`, element by element; no other tile changes, and they wait for the operations of the
block that name the tile. -/
def Obligations.TileMoves : Prop :=
  ∀ (c : Common) (f : FX) (s : State) (x : Ix),
    let w := s.warp x.w
    let b := w.block
    let z := f.zd.toNat
    let g := f.off.toNat
    let key := s.tileKey b z
    (Ready s (.zclr c f) x → x.lanes ≠ [] → s.tilesBusy b [z] = false →
      ∃ t, exec (.zclr c f) s = .next t ∧ OnlyTile s t x.w key ∧ FallsThrough s t x ∧
        KeptAll (s.warp x.w) (t.warp x.w) ∧
        ∀ i j, i < 64 → j < 192 → t.tile b z i j = if f.mod.getLsbD 0 = true ∧ j = 128 then 0xFF800000 else 0) ∧
    (Ready s (.zmov c f) x → x.lanes ≠ [] → s.tilesBusy b [z] = false → f.mod.getLsbD 0 = true →
      ∃ t, exec (.zmov c f) s = .next t ∧ OnlyTile s t x.w key ∧ FallsThrough s t x ∧
        KeptAll (s.warp x.w) (t.warp x.w) ∧
        ∀ i j, i < 64 → j < 192 → t.tile b z i j =
          if i / 2 ∈ x.lanes ∧ j / 8 = g then w.word f.a (8 * (i % 2) + j % 8) (i / 2) else s.tile b z i j) ∧
    (∀ r, f.a = .v r → Ready s (.zmov c f) x → x.lanes ≠ [] → s.tilesBusy b [z] = false → f.mod.getLsbD 0 = false →
      s.zmovPoison x f = none →
      ∃ t, exec (.zmov c f) s = .next t ∧ OnlyWarp s t x.w ∧ FallsThrough s t x ∧
        KeptButRegs (s.warp x.w) (t.warp x.w) ∧
        (∀ l ∈ x.lanes, ∀ i, i < 16 → (t.warp x.w).rv (r.toNat + i) l = s.tile b z (2 * l + i / 8) (8 * g + i % 8)) ∧
        (∀ k l, l < 32 → ¬ (r.toNat ≤ k ∧ k < r.toNat + 16 ∧ l ∈ x.lanes) → (t.warp x.w).rv k l = w.rv k l) ∧
        (t.warp x.w).s = w.s ∧ (t.warp x.w).p = w.p) ∧
    (Ready s (.zclr c f) x → x.lanes ≠ [] → s.tilesBusy b [z] = true → exec (.zclr c f) s = .next s) ∧
    (Ready s (.zmov c f) x → x.lanes ≠ [] → s.tilesBusy b [z] = true → exec (.zmov c f) s = .next s) ∧
    (Ready s (.zclr c f) x → x.lanes = [] → Performs (.zclr c f) s x s) ∧
    (Ready s (.zmov c f) x → x.lanes = [] → Performs (.zmov c f) s x s)

/-- R88, R137 to R140, R169, R261, R262: `ZLD`, `ZST`, `ATT` and `ATTFIN` are accepted under their flag with their operands
as they stand, and change nothing else; a full flag holds them at issue. -/
def Obligations.MatrixAcceptance : Prop :=
  ∀ (c : Common) (f : FX) (s : State) (x : Ix),
    let w := s.warp x.w
    let slot : Word := .ofNat 32 ((s.wgrid x.w).slot f.fslot.toNat)
    let bk := w.rb f.bx.toNat
    let addr : Int := bk.ptr.toNat + f.off.toInt
    let flag := s.fsFlag x c
    let r (i : Nat) : Word := w.word f.sa i x.first
    let accepts (i : Instr) (kind : AsyncKind) : Prop :=
      (Ready s i x → x.lanes ≠ [] → w.flag flag < 15 → Performs i s x (s.accepted x kind flag)) ∧
      (Ready s i x → x.lanes ≠ [] → 15 ≤ w.flag flag → exec i s = .next s) ∧
      (Ready s i x → x.lanes = [] → Performs i s x s)
    accepts (.zld c f) (.zld f.zd.toNat slot (r 0) bk addr) ∧ accepts (.zst c f) (.zst f.zd.toNat slot (r 0) bk addr) ∧
    accepts (.att c f) (.att f.zd.toNat f.zs.toNat bk addr (r 0) (r 1) (r 2) (r 3) (r 4)) ∧
    accepts (.attfin c f) (.attfin f.zd.toNat)

/-- R108, R128 to R131, R134, R137 to R140, R158, R159: the operations of the matrix unit complete.  Each element is computed
from exact products and sums and rounded once; `ZST` derives the scale of 32 columns from them and converts each value under it;
`ATT` follows the recurrence of R139 row by row, and neither it nor `ATTFIN` touches the columns it does not write or their
marks; the operation's flags are released, and nothing else changes but the tiles or the bytes stored.  The model's choices are:
the row of V of a masked key counts with its weight, the order of equal maxima and the reading of memory at completion (log entry
56); the contents of `zS` after a step are a free value (log entry 3). -/
def Obligations.MatrixCompletions : Prop :=
  ∀ (op : Nat) (o : AsyncOp) (s t : State) (sp : Space) (keys : List Nat),
    let b := (s.warp o.warp).block
    let m := t.bytes sp
    let key := keys.headD 0
    let rnd (v : FV) : Word := .ofNat 32 (fp32.round {} v)
    let z0 (v : Nat) : Nat := if v = 0x80000000 then 0 else v
    tfind s.ops op = some o → s.opFirst op o = true →
    (∀ zd fs md rows sa sb bk addr, o.kind = .mma false zd fs md rows sa sb bk addr →
      let slot := fs.toNat
      let scl := slotScl slot
      let ea := slotElem (slotA slot)
      let stride := if scl = 1 then 36 else 32
      let prod (i j k : Nat) : FV :=
        let p := (aElem ea rows i k).mul (bElem (slotElem (slotB slot)) m (key + stride * j) k)
        if scl = 1 then (p.mul (aScale rows i k)).mul (e8m0Val (rdByte m (key + stride * j + 32 + k / 32)).toNat)
        else if scl = 2 then (p.mul (fv32 sa.toNat)).mul (fv32 sb.toNat)
        else p
      s.reach op o bk false .load [addr] (192 * stride) = .ok t sp keys → t.tilePoison b zd anyCol = false →
      exec (.mmaCompletion op) s = .next ((t.setTile b zd fun i j =>
        rnd ((fv32 (t.tile b zd i j).toNat).add false (FV.sum false ((List.range (kOf ea.width)).map (prod i j))))).finishOp
          op o)) ∧
    (∀ zd fs md rows sa sb bk addr, o.kind = .mma true zd fs md rows sa sb bk addr →
      s.reach op o bk false .load [addr] 12288 = .ok t sp keys → t.tilePoison b zd anyCol = false →
      t.tilePoison b (zd + 1) anyCol = false → bNegative m key = false →
      ∃ u, exec (.mmomCompletion op) s = .next u ∧
        (∀ i j, i < 64 → j < 192 → t.tileKey b zd ≠ t.tileKey b (zd + 1) → t.tileKey b zd % tileWords = 0 →
          t.tileKey b (zd + 1) % tileWords = 0 →
          u.tile b zd i j = rnd ((fv32 (t.tile b zd i j).toNat).add false (FV.sum false ((List.range 16).map fun k =>
            (aElem (.fp bf16) rows i k).mul (bMean m (key + 64 * j) k)))) ∧
          u.tile b (zd + 1) i j = .ofNat 32 (z0 (fp32.round {} ((fv32 (t.tile b (zd + 1) i j).toNat).add false
            (FV.sum false ((List.range 16).map fun k =>
              ((aElem (.fp bf16) rows i k).mul (aElem (.fp bf16) rows i k)).mul (bVar m (key + 64 * j) k))))))) ∧
        u.mem = t.mem ∧ u.plinth = t.plinth ∧ u.shared = t.shared ∧ u.ops = terase t.ops op) ∧
    (∀ zd fs scale bk addr, o.kind = .zld zd fs scale bk addr →
      let e := slotElem (slotB fs.toNat)
      let scl := slotScl fs.toNat
      s.reach op o bk false .load (rowAddrs e scl addr) (rowLen e scl) = .ok t sp keys →
      exec (.zldCompletion op) s = .next ((t.setTile b zd fun i j =>
        let row := keys.getD i 0
        let v := e.value (bits (rdNat m (row + j * e.width / 8) 4) (j * e.width % 8) e.width)
        rnd (if scl = 1 then v.mul (e8m0Val (rdByte m (row + 192 * e.width / 8 + j / 32)).toNat)
          else if scl = 2 then v.mul (fv32 scale.toNat) else v)).finishOp op o)) ∧
    (∀ z fs scale bk addr, o.kind = .zst z fs scale bk addr →
      let e := slotElem (slotB fs.toNat)
      let scl := slotScl fs.toNat
      s.tilePoison b z anyCol = false →
      s.reach op o bk false .store (rowAddrs e scl addr) (rowLen e scl) = .ok t sp keys →
      let v (i j : Nat) : FV := fv32 (t.tile b z i j).toNat
      let md : FpMod := { rnd := .ofCode (fs.toNat / 2 ^ 13 % 4), sat := fs.toNat / 2 ^ 12 % 2 == 1 }
      let scaleOf (i g : Nat) : Nat := blockScale e ((List.range 32).map fun k => v i (32 * g + k))
      let code (i j : Nat) : Nat :=
        if scl = 1 then blockCode e md (scaleOf i (j / 32)) (v i j)
        else if scl = 2 then quotCode e md (v i j) (fv32 scale.toNat)
        else e.write md (.inr (v i j))
      let row (i : Nat) : List Byte := zstBytes e
        ((List.range 192).map (code i), if scl = 1 then (List.range 6).map (scaleOf i) else [])
      exec (.zstCompletion op) s = .next ((t.putLocal sp (keys.zipIdx.flatMap fun p => addrs p.1 (row p.2))).finishOp op o)) ∧
    (∀ zo zs bk addr scale n cb koff voff t1 t2 sp1 sp2 q k, o.kind = .att zo zs bk addr scale n cb koff voff →
      s.reach op o bk true .load [addr] 16384 = .ok t1 sp1 q →
      t1.reach op o bk true .load [(bk.ptr.toNat : Int) + koff.toNat] 32768 = .ok t2 sp2 k →
      t2.reach op o bk true .load [(bk.ptr.toNat : Int) + voff.toNat] 32768 = .ok t sp keys →
      t.tilePoison b zo attCols = false →
      let rn (x : FV) : FV := fv32 (fp32.round {} x)
      let ex2 (x : FV) : FV := fv32 (TFun.ex2.eval {} x)
      let z (i j : Nat) : FV := fv32 (t.tile b zo i j).toNat
      let bf (at_ i d : Nat) : FV := (Elem.fp bf16).value (rdNat t.shared (at_ + 2 * (128 * i + d)) 2)
      let score (i j : Nat) : FV :=
        if min n.toNat 128 ≤ j ∨ cb.toInt + i < j then .inf true
        else rn ((fv32 scale.toNat).mul
          (rn (FV.sum false ((List.range 128).map fun d => (bf (q.headD 0) i d).mul (bf (k.headD 0) j d)))))
      let top (i : Nat) : FV := ((List.range 128).map (score i)).foldl fvMax (z i 128)
      let dead (i : Nat) : Bool := top i == .inf true
      let al (i : Nat) : FV := if dead i then .fin false 1 0 else ex2 (rn ((z i 128).add false (top i).neg))
      let p (i j : Nat) : FV := if dead i then .fin false 0 0 else ex2 (rn ((score i j).add false (top i).neg))
      exec (.attCompletion op) s = .next (((t.setCols b zo 130 fun i j =>
        if j < 128 then rnd (rn ((rn ((al i).mul (z i j))).add false
          (FV.sum false ((List.range 128).map fun h => (p i h).mul (bf key h j)))))
        else if j = 128 then rnd (top i)
        else rnd (rn ((rn ((al i).mul (z i 129))).add false (FV.sum false ((List.range 128).map (p i)))))).freeTile b
          zs).finishOp op o)) ∧
    (∀ zo, o.kind = .attfin zo → s.tilePoison b zo attCols = false →
      exec (.attfinCompletion op) s = .next ((s.setCols b zo 128 fun i j =>
        if (fv32 (s.tile b zo i 129).toNat).isZero then 0
        else .ofNat 32 (fp32.div {} (fv32 (s.tile b zo i j).toNat) (fv32 (s.tile b zo i 129).toNat))).finishOp op o)) ∧
    (∀ (z n i j : Nat) (f : Nat → Nat → Word), i < 64 → j < 192 → s.tileKey b z % tileWords = 0 →
      (s.setCols b z n f).tile b z i j = (if j < n then f i j else s.tile b z i j) ∧
        ∀ a, a ∈ (s.setCols b z n f).poisonTile ↔ a ∈ s.poisonTile ∧
          ¬ (s.tileKey b z ≤ a ∧ a < s.tileKey b z + tileWords ∧ (a - s.tileKey b z) % 192 < n)) ∧
    (∀ u v : FV, (fvMax u v = u ∨ fvMax u v = v ∨ fvMax u v = .nan) ∧
      (fvMax u v = .nan ↔ u = .nan ∨ v = .nan) ∧ (u.isNan = false → v.isNan = false →
        (u.lt v = true → fvMax u v = v) ∧ (v.lt u = true → fvMax u v = u))) ∧
    (∀ (e : Elem) (codes scales : List Nat), codes.length = 192 → ∃ x,
      zstBytes e (codes, scales) = bytesOf (24 * e.width) x ++ scales.map (.ofNat 8) ∧
        ∀ j, j < 192 → x / 2 ^ (e.width * j) % 2 ^ e.width = codes.getD j 0 % 2 ^ e.width) ∧
    ∀ (p : FpRow) (md : FpMod) (sg : Bool) (w x y : Nat) (u v : Real) (g : Int), p ∈ fpRows → w ∈ [4, 8] →
      (fv32 x).Is u → (fv32 y).Is v → v ≠ 0 →
      let lo : Int := if sg then -(2 ^ (w - 1) : Nat) else 0
      let hi : Int := if sg then (2 ^ (w - 1) : Nat) - 1 else (2 ^ w : Nat) - 1
      p.Rounds md ((fv32 x).sign != (fv32 y).sign) (u / v) (quotCode (.fp p.fmt) md (fv32 x) (fv32 y)) ∧
        (RoundsInt md.rnd (u / v) g →
          quotCode (.int sg w) md (fv32 x) (fv32 y) = (max lo (min hi g) % (2 ^ w : Nat)).toNat)

/-! ### Claims -/

/-- R48: the rounds of the safety test say yes exactly when the claimants can finish one after the other, in some order, from
what is available. -/
def Obligations.ClaimSafety : Prop :=
  ∀ (avail : List Int) (rows : List (List Int × List Int)), avail.length = 18 →
    (∀ p ∈ rows, p.1.length = 18 ∧ p.2.length = 18 ∧ ∀ a ∈ p.2, 0 ≤ a) →
    (safeRounds rows.length avail rows = true ↔ ∃ order, order.Perm rows ∧ finishInOrder avail order)

/-- R17, R51 to R53, R56, R302: `ACQ` and `ACQ.TRY`: the requests refused, with CLAIM-CLASS before CLAIM-EXCEEDED; a block
of a CONCURRENT grid draws from its reserve at once; any other request is appended to the arbiter's queue, and the warp waits
for its outcome.  What a grant writes: scratch registers with every permission and G set, channels owned by the block with
fresh registers, newly mapped registers that read 0, the mask of the lowest free tiles with their contents unchanged.  The
model's choices are: that units, channels and tiles are granted from the lowest free one up (log entry 15), `LANE` 0 of the faults
(log entry 23), and that an `ACQ` turned away by a full list is presented again once there is room (log entry 41). -/
def Obligations.ClaimRequests : Prop :=
  (∀ (c : Common) (f : FS) (s : State) (x : Ix) (tries : Bool),
    let i : Instr := if tries then .acqTry c f else .acq c f
    let w := s.warp x.w
    let b := s.wblk x.w
    let g := s.wgrid x.w
    let cls := modBits f.mod 0 3
    let n := f.imm.toNat
    let k := f.d.code
    let held := match cls with
      | 0 => b.units.length | 1 => b.chans.length | 2 => g.warpsPer * g.warpReg + b.dynReg | _ => b.tiles.length
    let span := (cls = 0 → k + n ≤ 16) ∧ ∀ r, cls = 1 → f.d = .s r → r.toNat + n ≤ 64
    let legal := cls < 4 ∧ 1 ≤ n ∧ n ≤ (if cls = 2 ∨ cls = 3 then 8 else 4) ∧ span
    let within_ := held + n ≤ g.maxClaim.getD cls 0 ∧ (cls = 2 → w.granules + n ≤ 8)
    let tried (t : State) : State :=
      if tries then t.modWarp x.w fun y => y.wp f.pd.toNat (maskOf x.lanes) (maskOf x.lanes) else t
    let full := 128 ≤ (s.cluster (s.wcluster x.w)).deferred.length
    let op := ArbOp.request x.w x.cp (maskOf x.ent) (maskOf x.lanes) cls n f.d (if tries then some f.pd else none)
    let raises (code : BitVec 8) : Prop := exec i s = .next (s.raise x.w x.ent (precise code x.cp))
    (Ready s i x → x.lanes ≠ [] → ¬ legal → raises 0x21) ∧
    (Ready s i x → x.lanes ≠ [] → legal → ¬ within_ → raises 0x20) ∧
    (Ready s i x → x.lanes ≠ [] → legal → within_ → g.cls = 1 →
      Performs i s x (((tried (s.grantTo x.w cls n f.d)).boundary x).restart x x.ent)) ∧
    (Ready s i x → x.lanes ≠ [] → legal → within_ → g.cls ≠ 1 → x.cp ∉ w.acqRefused →
      exec i s = .next (((s.boundary x).modWarp x.w fun y =>
        { y with acqWait := true, acqRefused := y.acqRefused.filter (· != x.cp), hold := some x.cp }).modCluster (s.wcluster x.w) fun q =>
          { q with queue := q.queue ++ [op] })) ∧
    (Ready s i x → x.lanes ≠ [] → legal → within_ → g.cls ≠ 1 → x.cp ∈ w.acqRefused → full → exec i s = .next s) ∧
    (Ready s i x → x.lanes ≠ [] → legal → within_ → g.cls ≠ 1 → x.cp ∈ w.acqRefused → ¬ full →
      exec i s = .next ((s.modWarp x.w fun y =>
        { y with acqWait := true, acqRefused := y.acqRefused.filter (· != x.cp), hold := some x.cp }).modCluster (s.wcluster x.w) fun q =>
          { q with queue := q.queue ++ [op] })) ∧
    (Ready s i x → x.lanes = [] → Performs i s x (s.boundary x))) ∧
  ∀ (s : State) (w n : Nat) (d : Opd) (r : BitVec 6),
    let b := (s.warp w).block
    let c := s.wcluster w
    let a := s.warp w
    (let us := ((List.range (s.unitCount c)).filter (s.unitFree c)).take n
     let t := s.grantTo w 0 n d
     us.length = n → d.code + n ≤ 16 →
      (t.blk b).units = (s.blk b).units ++ us.map (fun u => (u, false)) ∧
        ∀ i, i < n → (t.warp w).rb (d.code + i) =
          { ptr := .ofNat 32 (s.unitOff c (us.getD i 0)), base := .ofNat 32 (s.unitOff c (us.getD i 0))
            limit := .ofNat 32 (s.unitOff c (us.getD i 0) + 2 ^ 20), space := 2, r := true, w := true, a := true
            g := true }) ∧
    (let cs := ((List.range 16).filter fun i => (s.chan (16 * c + i)).owner.isNone).take n
     let t := s.grantTo w 1 n (.s r)
     cs.length = n → r.toNat + n ≤ 64 →
      (t.blk b).chans = (s.blk b).chans ++ cs.map (16 * c + ·) ∧
        ∀ i, i < n → (t.warp w).rs (r.toNat + i) = .ofNat 32 (cs.getD i 0) ∧
          t.chan (16 * c + cs.getD i 0) = { owner := some b }) ∧
    (let t := s.grantTo w 2 n d
     (t.warp w).granules = a.granules + n ∧ (t.blk b).dynReg = (s.blk b).dynReg + n ∧
      ∀ k l, l < 32 → (t.warp w).rv k l =
        if 192 + 8 * a.granules ≤ k ∧ k < 192 + 8 * (a.granules + n) then 0 else a.rv k l) ∧
    (let names := ((List.range 8).filter fun z => !s.zHeld w z).take n
     let t := s.grantTo w 3 n (.s r)
     (t.warp w).rs r.toNat = maskOf names ∧ t.tiles = s.tiles ∧
      (t.blk b).tiles.length = (s.blk b).tiles.length +
        min names.length (min n ((List.range 8).filter (s.tileFree (s.blk b).core)).length))

/-- R47 to R54, R240, R263, R302, R303: `REL`, `CLAIMRD` and the arbiter.  What a `REL` names: the units of its registers, each
granted, held by the block and named once; the channels that its registers number; its highest granules; the dynamic tiles of its
mask.  A release of anything else, or outside the limits of R51, raises CLAIM-CLASS; one that waits for writes or operations stays
at issue; otherwise the block no longer holds what is released, and the amount goes back: to the arbiter's queue, or, in a
CONCURRENT grid, to the block's reserve.  The arbiter's operations are performed
one at a time from the head of its queue.  The model's choices are: that a register names the unit that holds its `BASE` (log entry
75), that `CLAIMRD` closes no region (log entry 76), and `LANE` 0 of the faults (log entry 23). -/
def Obligations.ClaimReleases : Prop :=
  (∀ (c : Common) (f : FS) (s : State) (x : Ix),
    let w := s.warp x.w
    let b := w.block
    let g := s.wgrid x.w
    let k := s.wblk x.w
    let cls := modBits f.mod 0 3
    let n := f.imm.toNat
    let done (t : State) (m : Nat) : State := ((t.returnClaim x.w cls m).boundary x).restart x x.ent
    let held := match cls with
      | 0 => k.units.length | 1 => k.chans.length | 2 => g.warpsPer * g.warpReg + k.dynReg | _ => k.tiles.length
    let names := s.relNames x f
    let back (t : State) (m : Nat) : Prop :=
      (∀ j, j ≠ s.wcluster x.w → t.cluster j = s.cluster j) ∧
        t.cluster (s.wcluster x.w) = { s.cluster (s.wcluster x.w) with
          queue := (s.cluster (s.wcluster x.w)).queue ++
            if g.cls = 1 then [] else [.release k.gang (columnsOf k.core (amounts cls m)) false] }
    (∀ l, cls = 0 → (names = some l ↔ 1 ≤ n ∧ n ≤ 4 ∧ f.a.code + n ≤ 16 ∧ l.length = n ∧ l.Nodup ∧ ∀ i, i < n →
      let r := w.rb (f.a.code + i)
      r.g = true ∧ r.space = 2 ∧ s.unitAt (s.wcluster x.w) r.base.toNat = some (l.getD i 0) ∧
        (l.getD i 0, false) ∈ k.units)) ∧
    (∀ l r, cls = 1 → f.a = .s r → (names = some l ↔ 1 ≤ n ∧ n ≤ 4 ∧ r.toNat + n ≤ 64 ∧ l.length = n ∧ l.Nodup ∧
      ∀ i, i < n → (w.rs (r.toNat + i)).toNat < 16 ∧
        l.getD i 0 = 16 * s.wcluster x.w + (w.rs (r.toNat + i)).toNat ∧ l.getD i 0 ∈ k.chans)) ∧
    (∀ l, cls = 2 → (names = some l ↔ 1 ≤ n ∧ n ≤ 8 ∧ n ≤ w.granules ∧ l = List.replicate n 0)) ∧
    (∀ l, cls = 3 → (names = some l ↔ l = (List.range 8).filter (fun z => (w.word f.a 0 x.first).getLsbD z) ∧
      ∀ z ∈ l, ∃ p, (z, p, false) ∈ k.tiles)) ∧
    (4 ≤ cls → names = none) ∧
    (Ready s (.rel c f) x → x.lanes = [] → Performs (.rel c f) s x (s.boundary x)) ∧
    (Ready s (.rel c f) x → x.lanes ≠ [] → s.relNames x f = none →
      exec (.rel c f) s = .next (s.raise x.w x.ent (precise 0x21 x.cp))) ∧
    (∀ l s1, Ready s (.rel c f) x → x.lanes ≠ [] → cls = 0 → s.relNames x f = some l →
      l.any (s.unitBusy b (s.wcluster x.w)) = false →
      s.writeBacks (fun p => { p with warp := x.w, pc := x.cp }) .exitWriteBack
        (s.dirtyOf (l.flatMap (s.unitWindows b (s.wcluster x.w)))) = ([], s1) → s1.exitParked x.w = false →
      ∃ t, exec (.rel c f) s = .next t ∧ FallsRestarted s t x ∧
        (t.blk b).units = k.units.filter (fun u => !l.contains u.1) ∧ back t l.length ∧
        (∀ i, i < l.length → ((t.warp x.w).rb (f.a.code + i)).space = 0) ∧
        (t.warp x.w).v = w.v ∧ (t.warp x.w).s = w.s ∧ (t.warp x.w).p = w.p) ∧
    (∀ l, Ready s (.rel c f) x → x.lanes ≠ [] → cls = 1 → s.relNames x f = some l →
      l.any (fun n => !(s.chan n).queue.isEmpty) = false →
      ∃ t, exec (.rel c f) s = .next t ∧ FallsRestarted s t x ∧
        (t.blk b).chans = k.chans.filter (fun n => !l.contains n) ∧ back t l.length ∧ (∀ n ∈ l, t.chan n = {}) ∧
        (∀ n, n ∉ l → t.chan n = s.chan n)) ∧
    (Ready s (.rel c f) x → x.lanes ≠ [] → cls = 2 → 1 ≤ n → n ≤ 8 → n ≤ w.granules →
      Performs (.rel c f) s x (done ((s.modWarp x.w fun y => { y with granules := y.granules - n }).modBlk b
        fun y => { y with dynReg := y.dynReg - n }) n)) ∧
    (∀ t : State, t.clusters = s.clusters → t.wcluster x.w = s.wcluster x.w → t.wgrid x.w = g → (t.wblk x.w).gang = k.gang →
      (t.wblk x.w).core = k.core → back (t.returnClaim x.w cls n) n) ∧
    (∀ l, Ready s (.rel c f) x → x.lanes ≠ [] → cls = 3 → s.relNames x f = some l → s.tilesBusy b l = false →
      Performs (.rel c f) s x (done (s.modBlk b fun y =>
        { y with tiles := y.tiles.filter fun t => !l.contains t.1 }) l.length)) ∧
    (∀ l, Ready s (.rel c f) x → x.lanes ≠ [] → s.relNames x f = some l →
      (cls = 0 ∧ l.any (s.unitBusy b (s.wcluster x.w)) = true ∨
        cls = 1 ∧ l.any (fun n => !(s.chan n).queue.isEmpty) = true ∨ cls = 3 ∧ s.tilesBusy b l = true) →
      exec (.rel c f) s = .next s) ∧
    (Ready s (.claimrd c f) x → cls < 4 → f.d ≠ .s 63 →
      AnswersD (.claimrd c f) s x true f.d 2 fun _ => held + g.maxClaim.getD cls 0 * 2 ^ 32) ∧
    (Ready s (.claimrd c f) x → x.lanes ≠ [] → (4 ≤ cls ∨ f.d = .s 63) →
      exec (.claimrd c f) s = .next (s.raise x.w x.ent (precise 0x21 x.cp))) ∧
    (Ready s (.claimrd c f) x → x.lanes = [] → Performs (.claimrd c f) s x s)) ∧
  (∀ (c off u : Nat) (s : State), (∀ l, (s.cluster c).pool = some l → l.Nodup) →
    (s.unitAt c off = some u ↔ u < s.unitCount c ∧ s.unitOff c u ≤ off ∧ off < s.unitOff c u + 2 ^ 20)) ∧
  (∀ (cluster w n cls : Nat) (cp : Word) (lanes part : BitVec 32) (d : Opd) (try_ : Option (BitVec 3)) (r : List ArbOp)
    (s : State),
    let op := ArbOp.request w cp lanes part cls n d try_
    let s1 := s.modCluster cluster fun q => { q with queue := r }
    let b := s1.wblk w
    let safe := s1.testRequest b.gang (columnsOf b.core (amounts cls n))
    let ls := lanesOf lanes
    let full := 128 ≤ (s.cluster cluster).deferred.length
    (s.cluster cluster).queue = op :: r →
      (safe = true → ¬ (try_.isSome = true ∧ full) → exec (.arbiterRequestTest cluster) s = .next
        ((s1.grantRequest w cls n d part try_).passRequest w cp ls)) ∧
      (∀ pd, (safe = false ∨ full) → try_ = some pd → exec (.arbiterRequestTest cluster) s = .next (s1.modWarp w fun y =>
        { (y.wp pd.toNat part 0).moveOnly cp ls [] (fun _ => 0) with acqWait := false, hold := none })) ∧
      (safe = false → try_ = none → full → exec (.arbiterRequestTest cluster) s = .next (s1.modWarp w fun y =>
        { y with acqWait := false, acqRefused := cp :: y.acqRefused, hold := none })) ∧
      (safe = false → try_ = none → ¬ full →
        exec (.arbiterRequestTest cluster) s = .next ((s1.modCluster cluster fun q =>
          { q with deferred := q.deferred ++ [op] }).modWarp w fun y =>
            { y.blockIssue cp ls ls .acq with acqWait := false }))) ∧
  (∀ (cluster w n cls : Nat) (cp : Word) (lanes part : BitVec 32) (d : Opd) (try_ : Option (BitVec 3)) (r : List ArbOp)
    (s : State),
    let op := ArbOp.request w cp lanes part cls n d try_
    let b := s.wblk w
    let safe := s.testRequest b.gang (columnsOf b.core (amounts cls n))
    let granted := (s.modCluster cluster fun q => { q with deferred := q.deferred.erase op }).grantRequest w cls n d part try_
    s.retest cluster [] = s ∧ (safe = false → s.retest cluster (op :: r) = s.retest cluster r) ∧
      (safe = true → s.retest cluster (op :: r) = (granted.modWarp w fun y =>
        (y.wake (lanesOf lanes) fun _ _ => nextCp cp).restart (lanesOf lanes) (nextCp cp)).retest cluster r)) ∧
  ∀ (cluster g : Nat) (cols : List Nat) (final : Bool) (r : List ArbOp) (s : State),
    let s1 := (s.modCluster cluster fun q => { q with queue := r }).modGang g fun y =>
      if final then { y with alloc := [], claim := [] }
      else
        { y with
          alloc := y.alloc.zipWith (· - ·) cols
          claim := if (s.grid y.grid).cls = 1 then y.claim.zipWith (· - ·) cols else y.claim }
    (s.cluster cluster).queue = .release g cols final :: r →
      exec (.arbiterRelease cluster) s = .next (s1.retest cluster (s.cluster cluster).deferred) ∧
        ((s.cluster cluster).deferred = [] → exec (.arbiterRelease cluster) s = .next s1)

/-! ### Deques and bounds -/

/-- R67, R142 to R145: the four deque instructions when their checks pass, no race is found, no chunk is unfilled, nothing stands
before them in the deque's queue and the stamps they need are met.  Lanes are served in ascending order; the entries,
the stamps, the counts, the destinations and the predicate are as R144 says; no other byte of the Plinth changes.  One
whose stamps are not met waits; one that faults leaves the deque's queue.  R91, R144: DEQUE_STAMP_MET performs the waiting
operation of a warp, with its fetch and its checks as a fresh attempt has them, and changes nothing while it still has to wait. -/
def Obligations.Deques : Prop :=
  (∀ (c : Common) (f : FM) (s : State) (x : Ix) (op : DqOp),
    let i : Instr := match op with
      | .init => .dqinit c f | .push => .dqpush c f | .pop => .dqpop c f | .steal => .dqsteal c f
    let w := s.warp x.w
    let key := s.wchip x.w * 2 ^ 31 + (w.dqEa f x.first).toNat
    let d := dequeOf (rdNat s.plinth key 64)
    let cap := 2 ^ d.logcap
    let held := (d.bottom + 2 ^ 32 - d.top) % 2 ^ 32
    let slot (k : Nat) : Nat := key + 64 + 16 * (k % cap)
    let n := match op with
      | .init => 0 | .push => min x.lanes.length ((cap + 2 ^ 32 - held) % 2 ^ 32) | _ => min x.lanes.length held
    let at_ (j : Nat) : Nat := match op with
      | .pop => slot (d.bottom + 2 ^ 32 - 1 - j) | .steal => slot (d.top + j) | _ => slot (d.bottom + j)
    let served := d.serves op key x.lanes
    let early := s.dqEarly x op f = none ∧ s.fillNeed x.w [key] 64 = .filled
    let free := early ∧ s.dqLate x op f d = none ∧ s.dqBarred x f key served = none ∧ s.fillNeed x.w (key :: served.map (·.2)) 16 = .filled ∧
      s.raceCheck x .plinth 64 [(x.first, key)] (fun _ => op == .init || !served.isEmpty) true = .ok s ∧
      s.raceCheck x .plinth 16 served (fun _ => op == .push) true = .ok s ∧
      (op ≠ .init → s.poisonFault x .plinth 64 [(x.first, key)] = none) ∧
      (op ≠ .init → op ≠ .push → s.poisonFault x .plinth 16 served = none) ∧ (op = .pop → w.drainFaults = []) ∧
      s.dqBehind key x = false
    let met := ∀ j, (op = .pop ∨ op = .steal) → j < n → s.stampMet (s.wctx x.w) d.owner (rdNat s.plinth (at_ j + 8) 8) = true
    let kept (t : State) : Prop :=
      OnlyLocal { s with dqWaits := t.dqWaits } t x.w .plinth ∧ FallsRestarted s t x ∧
        (t.warp x.w).rsn = w.rsn + 1 ∧ (t.warp x.w).s = w.s ∧ (t.warp x.w).m = w.m ∧ (t.warp x.w).h = w.h ∧
        (t.warp x.w).b = w.b ∧ (t.warp x.w).c = w.c ∧ (t.warp x.w).flags = w.flags ∧ (t.warp x.w).wissue = w.wissue ∧
        ∀ q l, l < 32 → (t.warp x.w).rp q l =
          if q = f.pd.toNat ∧ f.pd ≠ 7 ∧ l ∈ x.lanes ∧ op ≠ .init then decide (l ∈ x.lanes.take n) else w.rp q l
    (Ready s i x → x.lanes = [] → Performs i s x (s.boundary x)) ∧
    (Ready s i x → x.lanes ≠ [] → free → ¬ met → ∃ u, exec i s = .next u ∧
      (u = s ∨ u = { s with dqWaits := (s.dqLeave x.w x.ent).dqWaits ++ [{ key := key, warp := x.w, instr := i, cp := x.cp }] })) ∧
    (Ready s i x → x.lanes ≠ [] → free → op = .init →
      ∃ t, exec i s = .next t ∧ kept t ∧ (t.warp x.w).v = w.v ∧
        dequeOf (rdNat t.plinth key 64) = { top := 0, bottom := 0, owner := w.tag, logcap := (w.word f.r 0 x.first).toNat
                                            valid := true, junk := false } ∧
        ∀ a, (a < key ∨ key + 64 ≤ a) → rdByte t.plinth a = rdByte s.plinth a) ∧
    (∀ r, Ready s i x → x.lanes ≠ [] → (s.dqEarly x op f = some r ∨ early ∧ s.dqLate x op f d = some r ∨
        early ∧ s.dqLate x op f d = none ∧ s.dqBarred x f key served = some r) →
      exec i s = .next (s.raise x.w x.ent r)) ∧
    (Ready s i x → x.lanes ≠ [] → free → op = .push →
      ∃ t, exec i s = .next t ∧ kept t ∧ (t.warp x.w).v = w.v ∧
        dequeOf (rdNat t.plinth key 64) = { d with bottom := (d.bottom + n) % 2 ^ 32 } ∧
        (∀ j, n ≤ cap → j < n → rdNat t.plinth (at_ j) 8 = w.opd f.r 2 (x.lanes.getD j 0) % 2 ^ 64 ∧
          rdNat t.plinth (at_ j + 8) 8 = w.wissue.toNat) ∧
        ∀ a, (a < key ∨ key + 64 ≤ a) → (∀ j, j < n → ¬ (at_ j ≤ a ∧ a < at_ j + 16)) →
          rdByte t.plinth a = rdByte s.plinth a) ∧
    (Ready s i x → x.lanes ≠ [] → free → met → (op = .pop ∨ op = .steal) →
      ∃ t, exec i s = .next t ∧ kept t ∧
        dequeOf (rdNat t.plinth key 64) = (if op = .pop then { d with bottom := (d.bottom + 2 ^ 32 - n) % 2 ^ 32 }
          else { d with top := (d.top + n) % 2 ^ 32 }) ∧
        Writes w (t.warp x.w) (x.lanes.take n) f.r 2 (fun l => rdNat s.plinth (at_ (x.lanes.idxOf l)) 8) ∧
        ∀ a, (a < key ∨ key + 64 ≤ a) → rdByte t.plinth a = rdByte s.plinth a)) ∧
  ∀ (warp : Nat) (q : DqWait) (op : DqOp) (c : Common) (f : FM) (x : Ix) (s : State),
    let e := (s.warp warp).entry q.cp
    let held := decode (lineSlot e.line (cpSlot q.cp)) = .ok q.instr
    (s.dqWaits.find? fun q => q.warp == warp && (s.warp warp).choice == some q.cp) = some q →
    dqParts q.instr = some (op, c, f) → s.pick warp c.grd = some x → s.mayIssue warp = true →
    (e.entered = false → exec (.dequeStampMet warp) s = .next s) ∧
    (e.entered = true → ¬ held → exec (.dequeStampMet warp) s = .next (s.dqLeave warp x.ent)) ∧
    (e.entered = true → held → e.waited = true → s.awaits x q.instr = false →
      (∀ r, s.genericFault false x q.instr = some r → exec (.dequeStampMet warp) s = .next (s.raise x.w x.ent r)) ∧
      (s.genericFault false x q.instr = none →
        (∀ u, s.dqAct x q.instr op f = .adv u → exec (.dequeStampMet warp) s = .next (State.settle x (.adv u))) ∧
        (∀ u r, s.dqAct x q.instr op f = .raise u r → exec (.dequeStampMet warp) s = .next (u.raise x.w x.ent r)) ∧
        (∀ u, s.dqAct x q.instr op f = .set u → exec (.dequeStampMet warp) s = .next u) ∧
        ∀ u, s.dqAct x q.instr op f = .keep u → exec (.dequeStampMet warp) s = .next s))

/-- R146 to R148: `BNDMIN`, `BNDRD` and the arrival of a lowered bound.  The bound becomes the least value, in the type's
order, of the participating lanes and the old bound; NaN values count for nothing; the issuing core's shadow holds the bound at
once, lowered or not, and another core's when its message arrives. -/
def Obligations.GangBounds : Prop :=
  (∀ (c : Common) (f : FS) (s : State) (x : Ix),
    let w := s.warp x.w
    let n := modBits f.mod 0 2
    let ty := modBits f.mod 2 2
    let b := s.wblk x.w
    let val (l : Nat) : DWord := .ofNat 64 (w.opd f.a 2 l)
    let nan (v : DWord) : Bool := ty == 2 && 0x7FF0000000000000 < v.toNat % 2 ^ 63
    let below (u v : DWord) : Prop :=
      match ty with
      | 0 => u.toNat < v.toNat
      | 1 => u.toInt < v.toInt
      | _ =>
        if u.toNat < 2 ^ 63 then v.toNat < 2 ^ 63 ∧ u.toNat < v.toNat
        else v.toNat < 2 ^ 63 ∨ v.toNat < u.toNat
    let old := (s.gang b.gang).bnd.getD n 0x7FF0000000000000
    let none_ := ∀ l ∈ x.lanes, nan (val l) = true
    let least (l : Nat) : Prop := l ∈ x.lanes ∧ nan (val l) = false ∧
      ∀ k ∈ x.lanes, nan (val k) = false → ¬ below (val k) (val l) ∧ (k < l → below (val l) (val k))
    let predicate (p : Nat → Bool) (t : State) : State := (t.writeP x false f.pd p).restart x x.ent
    Ready s (.bndmin c f) x → ty < 3 →
      (x.lanes = [] → Performs (.bndmin c f) s x s) ∧
      (x.lanes ≠ [] → none_ → Performs (.bndmin c f) s x (predicate (fun _ => false) s)) ∧
      (∀ l, least l → (nan old = true ∨ below (val l) old) →
        Performs (.bndmin c f) s x (predicate (· == l) (s.bndLower b.gang (b.core % 8) n (val l)))) ∧
      ∀ l, least l → nan old = false → ¬ below (val l) old →
        Performs (.bndmin c f) s x (predicate (fun _ => false) (s.bndSee b.gang (b.core % 8) n old))) ∧
  (∀ (gang core n : Nat) (v : DWord) (s : State),
    let t := s.bndSee gang core n v
    core < 8 → n < 4 → t = { s with shadows := t.shadows, bndMsgs := t.bndMsgs } ∧
      tget bndInit t.shadows (shadowKey gang core n) = v ∧
      (∀ g c m, c < 8 → m < 4 → (g, c, m) ≠ (gang, core, n) →
        tget bndInit t.shadows (shadowKey g c m) = tget bndInit s.shadows (shadowKey g c m)) ∧
      ∀ q, q ∈ t.bndMsgs ↔ q ∈ s.bndMsgs ∧ (q.1, q.2.1, q.2.2.1) ≠ (gang, core, n)) ∧
  (∀ (c : Common) (f : FS) (s : State) (x : Ix),
    Ready s (.bndrd c f) x → AnswersD (.bndrd c f) s x c.u f.d 2 fun _ =>
      (tget bndInit s.shadows ((8 * (s.wblk x.w).gang + (s.wblk x.w).core % 8) * 4 + modBits f.mod 0 2)).toNat) ∧
  (∀ (gang core n : Nat) (v : DWord) (s : State),
    let t := s.bndLower gang core n v
    core < 8 → n < (s.gang gang).bnd.length →
      (t.gang gang).bnd.getD n 0 = v ∧ (∀ k, k ≠ n → (t.gang gang).bnd.getD k 0 = (s.gang gang).bnd.getD k 0) ∧
        tget bndInit t.shadows (shadowKey gang core n) = v ∧
        (∀ c, c < 8 → c ≠ core → tget bndInit t.shadows (shadowKey gang c n) = tget bndInit s.shadows (shadowKey gang c n)) ∧
        ∀ c ∈ s.otherCores gang core, (gang, c, n, v) ∈ t.bndMsgs) ∧
  ∀ (gang core n : Nat) (q : Nat × Nat × Nat × DWord) (s : State),
    (s.bndMsgs.find? fun (g, c, m, _) => g == gang && c == core && m == n) = some q →
      exec (.boundShadowUpdate gang core n) s = .next
        { s with shadows := tset s.shadows ((8 * gang + core % 8) * 4 + n) q.2.2.2, bndMsgs := s.bndMsgs.erase q }

/-! ### Moments -/

/-- R96 to R107, R265, R266: what the moment rules compute, step by step, each step rounded once, and the moment
instructions, lane by lane.  A variance of a product that comes out negative in POS or NEG mode never stands (R96): what stands
in its place is a value that is neither negative nor NaN, whatever it is (log entry 82, the model's choice).  What `MMOV` and
`MSHFL` do with a NaN half, and OV beside NV, are log entry 55, the model's choice.
A negative variance where R106 checks one is replaced by +0 and reported; a NaN half makes both
halves of the result NaN; a zero variance is written +0; a negative variance raises NVAR for the lowest lane that shows one,
unless `NVM` is set; `%mstat` gathers what happened; nothing else changes. -/
def Obligations.Moments : Prop :=
  (∀ (a b k : Mom) (e z : FV) (cov : Cov),
    let rn (v : FV) : FV := fv32 (fp32.round {} v)
    let add (u v : FV) : FV := rn (u.add false v)
    let sub (u v : FV) : FV := rn (u.add false v.neg)
    let mul (u v : FV) : FV := rn (u.mul v)
    let div (u v : FV) : FV := fv32 (fp32.div {} u v)
    let sqrt (v : FV) : FV := fv32 (fp32.sqrt {} v)
    let fn (t : TFun) (v : FV) : FV := fv32 (t.eval {} v)
    let zero : FV := .fin false 0 0
    let one : FV := .fin false 1 0
    let log2e : FV := fv32 0x3FB8AA3B
    let eighth : FV := fv32 0x3EC90FDB
    let sa := sqrt a.var
    let sb := sqrt b.var
    let c : FV := match cov with | .ind => zero | .pos => mul sa sb | .neg => (mul sa sb).neg | .exp => e
    let plain (mean var : FV) : MRes Mom := { val := { mean := mean, var := var } }
    let checked (mean var : FV) : MRes Mom :=
      if cov = .exp ∧ var.isNeg = true then { val := { mean := mean, var := zero }, neg := true } else plain mean var
    let product (mean var : FV) : MRes Mom := if cov = .exp then checked mean var else plain mean (momClip var)
    let sq (v : FV) : FV := mul v v
    let g := mul a.mean b.mean
    let t := add (add (mul (sq a.mean) b.var) (mul (sq b.mean) a.var)) (mul a.var b.var)
    let pvar := if cov = .ind then t else add t (add (sq c) ((mul g c).scale 1))
    let th2 := sub (add a.var b.var) (c.scale 1)
    let none_ := th2.isNeg = true ∨ th2.isZero = true
    let found := decide (th2.isNeg = true ∧ cov = .exp)
    let th := sqrt th2
    let clark (p q : FV) : Mom :=
      let al := div (sub p q) th
      let mean := add (add (mul p (fn .phi al)) (mul q (fn .phi al.neg))) (mul th (fn .pdf al))
      let e2 := add (add (mul (add (sq p) a.var) (fn .phi al)) (mul (add (sq q) b.var) (fn .phi al.neg)))
        (mul (mul (add p q) th) (fn .pdf al))
      { mean := mean, var := (sub e2 (sq mean)).plus }
    (runMom (mSum false cov a b e)).1 = (let mean := add a.mean b.mean
      match cov with
      | .ind => plain mean (add a.var b.var) | .pos => plain mean (sq (add sa sb)) | .neg => plain mean (sq (sub sa sb))
      | .exp => checked mean (add (add a.var b.var) (e.scale 1))) ∧
    (runMom (mSum true cov a b e)).1 = (let mean := sub a.mean b.mean
      match cov with
      | .ind => plain mean (add a.var b.var) | .pos => plain mean (sq (sub sa sb)) | .neg => plain mean (sq (add sa sb))
      | .exp => checked mean (sub (add a.var b.var) (e.scale 1))) ∧
    (runMom (mScl e a)).1 = plain (mul e a.mean) (mul (sq e) a.var) ∧
    (∀ v : FV, (v.isNeg = false → momClip v = v) ∧ (momClip v).isNeg = false ∧
      (v.isNan = false → (momClip v).isNan = false)) ∧
    (runMom (mProd cov a b e)).1 = product (if cov = .ind then g else add g c) pvar ∧
    (runMom (mFma cov a b k e)).1 =
      product (rn (((a.mean.mul b.mean).add false c).add false k.mean)) (add pvar k.var) ∧
    (runMom (mRelu a)).1 = (if a.var.isZero = true then plain a.mean.plus zero else
      let al := div a.mean sa
      let mean := add (mul a.mean (fn .phi al)) (mul sa (fn .pdf al))
      let e2 := add (mul (add (sq a.mean) a.var) (fn .phi al)) (mul (mul a.mean sa) (fn .pdf al))
      plain mean (sub e2 (sq mean)).plus) ∧
    (runMom (mSigm a)).1 = (let u := sqrt (add one (mul eighth a.var))
      let mean := div one (add one (fn .ex2 (mul (div a.mean u).neg log2e)))
      plain mean (mul (mul mean (sub one mean)) (sub one (div one u)))) ∧
    (runMom (mExp a)).1 = (let mean := fn .ex2 (mul (add a.mean (rn (a.var.scale (-1)))) log2e)
      plain mean (mul (sub (fn .ex2 (mul a.var log2e)) one) (sq mean))) ∧
    (none_ → (runMom (mMax cov a b e)).1 =
      { val := if b.mean.lt a.mean = true ∨ a.mean.eq b.mean = true then a else b, neg := found }) ∧
    (¬ none_ → (runMom (mMax cov a b e)).1 = { val := clark a.mean b.mean }) ∧
    (none_ → (runMom (mMin cov a b e)).1 =
      { val := (let r := if b.mean.neg.lt a.mean.neg = true ∨ a.mean.neg.eq b.mean.neg = true then a else b
                { r with mean := r.mean.neg.neg })
        neg := found }) ∧
    (¬ none_ → (runMom (mMin cov a b e)).1 =
      { val := { clark a.mean.neg b.mean.neg with mean := (clark a.mean.neg b.mean.neg).mean.neg } }) ∧
    (runMom (mPlt cov a b e)).1 = (if th2.isNeg = true ∨ th2.isZero = true
      then { val := if a.mean.lt b.mean = true then one else zero, neg := found }
      else { val := fn .phi (div (sub b.mean a.mean) th) }) ∧
    (runMom (mCol 0 a z)).1 = { val := a.mean } ∧ (runMom (mCol 1 a z)).1 = { val := a.var } ∧
    (runMom (mCol 2 a z)).1 = { val := sa } ∧
    (∀ n, 3 ≤ n → (runMom (mCol n a z)).1 = { val := rn (a.mean.add false (z.mul sa)) }) ∧
    ∀ l : List Mom, l.length = 32 →
      let sum (leaf : Nat → FV) : FV := pairTree add leaf 5 0
      let mean := sum fun i => (l.map (·.mean)).getD i zero
      (runMom (mRedOf .ind l)).1 = plain mean (sum fun i => (l.map (·.var)).getD i zero) ∧
        (runMom (mRedOf .pos l)).1 = plain mean (sq (sum fun i => (l.map fun v => sqrt v.var).getD i zero))) ∧
  ∀ (c : Common) (f : FK) (s : State) (x : Ix),
    let w := s.warp x.w
    let reg (r : BitVec 6) (l : Nat) : Mom :=
      { mean := fv32 ((w.rm r.toNat l).toNat % 2 ^ 32), var := fv32 ((w.rm r.toNat l).toNat / 2 ^ 32) }
    let a := reg f.ma
    let b := reg f.mb
    let k := reg f.mc
    let e (l : Nat) : FV := fv32 (w.word f.v 0 l).toNat
    let cov := covOf f.cov
    let nan (m : Mom) : Bool := m.mean.isNan || m.var.isNan
    let both : Mom := { mean := .nan, var := .nan }
    let ifNan {α : Type} (bad : Bool) (r : α) (m : MomM (MRes α)) : MRes α × Bool :=
      if bad then ({ val := r }, false) else runMom m
    let code (m : Mom) : DWord :=
      if nan m then 0x7FC000007FC00000
      else .ofNat 64 (fp32.round {} m.mean + (if m.var.isZero then 0 else fp32.round {} m.var) * 2 ^ 32)
    let pair (v : DWord) : MRes Mom × Bool :=
      let m : Mom := { mean := fv32 (v.toNat % 2 ^ 32), var := fv32 (v.toNat / 2 ^ 32) }
      runMom (pure (if m.var.isNeg then { val := { m with var := .fin false 0 0 }, neg := true } else { val := m }))
    let nvm := w.mctl.getLsbD 0
    let status (neg bad ov : Nat → Bool) : Word :=
      w.mstat ||| ((if x.lanes.any neg then 1 else 0) ||| (if x.lanes.any bad then 2 else 0) ||| if x.lanes.any ov then 4 else 0)
    let rest (t : State) : Prop := t.warp x.w = { w with
      m := (t.warp x.w).m, v := (t.warp x.w).v, s := (t.warp x.w).s, p := (t.warp x.w).p, mstat := (t.warp x.w).mstat
      poison := (t.warp x.w).poison, threads := (t.warp x.w).threads, entries := (t.warp x.w).entries
      yielding := (t.warp x.w).yielding, hold := none }
    let toM (t : State) (r : Nat → MRes Mom × Bool) : Prop :=
      FallsThrough s t x ∧ rest t ∧ (t.warp x.w).v = w.v ∧ (t.warp x.w).s = w.s ∧ (t.warp x.w).p = w.p ∧
        (∀ l ∈ x.lanes, (t.warp x.w).rm f.md.toNat l = code (r l).1.val) ∧
        (∀ q l, l < 32 → ¬ (q = f.md.toNat ∧ l ∈ x.lanes) → (t.warp x.w).rm q l = w.rm q l) ∧
        (t.warp x.w).mstat = status (fun l => (r l).1.neg) (fun l => nan (r l).1.val) fun l => (r l).2
    let toV (t : State) (r : Nat → MRes FV × Bool) : Prop :=
      FallsThrough s t x ∧ rest t ∧ (t.warp x.w).m = w.m ∧ (t.warp x.w).p = w.p ∧
        Writes w (t.warp x.w) x.lanes f.v 1 (fun l => fp32.round {} (r l).1.val) ∧
        (t.warp x.w).mstat = status (fun l => (r l).1.neg) (fun l => (r l).1.val.isNan) fun l => (r l).2
    let fails {α : Type} (i : Instr) (r : Nat → MRes α × Bool) : Prop :=
      ∀ l ∈ x.lanes, nvm = false → (r l).1.neg = true → (∀ j ∈ x.lanes, j < l → (r j).1.neg = false) →
        exec i s = .next (s.raise x.w x.ent (precise 0x30 x.cp l))
    let may {α : Type} (r : Nat → MRes α × Bool) : Prop := nvm = true ∨ ∀ l ∈ x.lanes, (r l).1.neg = false
    let does (i : Instr) (r : Nat → MRes Mom × Bool) : Prop :=
      (Ready s i x → may r → ∃ t, exec i s = .next t ∧ OnlyWarp s t x.w ∧ toM t r) ∧ (Ready s i x → fails i r)
    let doesV (i : Instr) (r : Nat → MRes FV × Bool) : Prop :=
      (Ready s i x → may r → ∃ t, exec i s = .next t ∧ OnlyWarp s t x.w ∧ toV t r) ∧ (Ready s i x → fails i r)
    let two (op : Mom → Mom → FV → MomM (MRes Mom)) (l : Nat) : MRes Mom × Bool :=
      ifNan (nan (a l) || nan (b l)) both (op (a l) (b l) (e l))
    let one (op : Mom → MomM (MRes Mom)) (l : Nat) : MRes Mom × Bool := ifNan (nan (a l)) both (op (a l))
    let all : List Mom := (List.range 32).map fun l =>
      if l ∈ x.lanes then a l else { mean := .fin false 0 0, var := .fin false 0 0 }
    let src (l : Nat) : Bool × Nat := x.shflLane (modBits f.mod 0 2) (2 ^ modBits f.mod 2 3) (w.word f.v 0 l).toNat l
    let key (sp : Space) (l : Nat) : Nat := s.keyAt x (mAddress f) 8 sp l
    does (.mset c f) (fun l => pair (.ofNat 64 (w.opd f.v 2 l))) ∧
    does (.mmov c f) (one fun m => pure { val := m }) ∧
    does (.madd c f) (two (mSum false cov)) ∧ does (.msub c f) (two (mSum true cov)) ∧
    does (.mmul c f) (two (mProd cov)) ∧ does (.mmax c f) (two (mMax cov)) ∧ does (.mmin c f) (two (mMin cov)) ∧
    does (.mfma c f) (fun l =>
      ifNan (nan (a l) || nan (b l) || nan (k l)) both (mFma cov (a l) (b l) (k l) (e l))) ∧
    does (.mscl c f) (fun l => ifNan (nan (a l)) both (mScl (e l) (a l))) ∧
    does (.mrelu c f) (one mRelu) ∧ does (.msigm c f) (one mSigm) ∧ does (.mexp c f) (one mExp) ∧
    does (.mred c f) (fun _ => ifNan (all.any nan) both (mRedOf cov all)) ∧
    doesV (.mplt c f) (fun l => ifNan (nan (a l) || nan (b l)) .nan (mPlt cov (a l) (b l) (e l))) ∧
    doesV (.mcol c f) (fun l => ifNan (nan (a l)) .nan (mCol (modBits f.mod 0 3) (a l) (e l))) ∧
    (Ready s (.mshfl c f) x → ∃ t, exec (.mshfl c f) s = .next t ∧ OnlyWarp s t x.w ∧ FallsThrough s t x ∧ rest t ∧
      (t.warp x.w).v = w.v ∧ (t.warp x.w).s = w.s ∧ (∀ l ∈ x.lanes, (t.warp x.w).rm f.md.toNat l = w.rm f.ma.toNat (src l).2) ∧
      (∀ q l, l < 32 → ¬ (q = f.md.toNat ∧ l ∈ x.lanes) → (t.warp x.w).rm q l = w.rm q l) ∧
      WritesP w (t.warp x.w) x.lanes f.pd (fun l => (src l).1) ∧
      (t.warp x.w).mstat =
        status (fun _ => false) (fun l => nan (reg f.ma (src l).2)) fun _ => false) ∧
    (∀ sp, Ready s (.mld c f) x → Passes s s x (mAddress f) false .load 8 sp (fun _ => false) false →
      s.poisonFault x sp 8 (s.keysAt x (mAddress f) false 8 sp) = none →
      may (fun l => pair (.ofNat 64 (rdNat (s.bytes sp) (key sp l) 8))) →
      ∃ t, exec (.mld c f) s = .next t ∧ OnlyLocal s t x.w sp ∧ t.shared = s.shared ∧ t.plinth = s.plinth ∧
        toM t fun l => pair (.ofNat 64 (rdNat (s.bytes sp) (key sp l) 8))) ∧
    ∀ sp, Ready s (.mst c f) x → Passes s s x (mAddress f) false .store 8 sp (fun _ => true) false →
      s.flushHolds x.w (x.lanes.flatMap fun l => addrs (key sp l) (bytesOf 8 (w.rm f.ma.toNat l).toNat)) = false →
      ∃ t, exec (.mst c f) s = .next t ∧ OnlyLocal s t x.w sp ∧ FallsThrough s t x ∧
        (∀ p, (∀ l ∈ x.lanes, ¬ (key sp l ≤ p ∧ p < key sp l + 8)) → rdByte (t.bytes sp) p = rdByte (s.bytes sp) p) ∧
        (∀ l ∈ x.lanes, (∀ h ∈ x.lanes, l < h → ¬ (key sp h < key sp l + 8 ∧ key sp l < key sp h + 8)) →
          rdNat (t.bytes sp) (key sp l) 8 = (w.rm f.ma.toNat l).toNat) ∧
        t.warp x.w = { w with
          threads := (t.warp x.w).threads, entries := (t.warp x.w).entries, yielding := (t.warp x.w).yielding
          hold := none, wissue := w.wissue + if x.lanes = [] then 0 else 1 }

/-! ### The managed heap -/

/-- R114, R115, R118, R119: the barrier on one reference.  A reference of the region's epoch passes; one of the color before
it is recolored, or, in an armed page, takes what its forwarding entry says; every other value is rejected. -/
def Obligations.HeapBarrier : Prop :=
  ∀ (p : Port) (g : Region) (v d w e : Nat) (s s1 s2 s3 : State),
    let a := v / 16 % 2 ^ 44 * 16
    let page := (a - g.base) / 2 ^ 21
    let valid := v ≠ 0 ∧ v / 8 % 2 = 1 ∧ g.base ≤ a ∧ a < g.base + g.pages * 2 ^ 21
    let color := v % 4
    let recolored (x : Nat) : Nat := x / 4 * 4 + g.epoch % 4
    let moved : Nat := v % 16 + w / 16 % 2 ^ 44 * 16 + v / 2 ^ 48 * 2 ^ 48
    let answers (b : Bar) (t : State) : Prop := runHeap (hBarrier p g v) s = (.ok b, t)
    (¬ valid → answers .tag s) ∧
    (valid → color = g.epoch → answers (.healed v) s) ∧
    (valid → color ≠ g.epoch → (color + 1) % 4 ≠ g.epoch → answers .tag s) ∧
    (valid → color ≠ g.epoch → (color + 1) % 4 = g.epoch → runHeap (hRead p (g.fwd + 8 * page) 8) s = (.ok d, s1) →
      (d / 2 ^ 8 % 2 = 0 → answers (.healed (recolored v)) s1) ∧
      (d / 2 ^ 8 % 2 = 1 → runHeap (hLookup p g d a) s1 = (.ok none, s2) → answers .tag s2) ∧
      (d / 2 ^ 8 % 2 = 1 → runHeap (hLookup p g d a) s1 = (.ok (some e), s2) → runHeap (hRead p e 8) s2 = (.ok w, s3) →
        (w % 4 = 0 → answers (.claim e) s3) ∧ (w % 4 = 1 → answers (.wait e) s3) ∧
        (w % 4 = 2 → answers (.healed (recolored moved)) s3) ∧ (w % 4 = 3 → answers .tag s3)))

/-- R116, R269 to R272: the heap instructions when their barrier, their checks and their accesses pass: what is loaded,
stored or exchanged at each lane's field, healed references written back, headers read.  With no participating lane they do
nothing, but an order still acts.  What a context reads of a unit that another wrote under another key is log entry 73, the
model's choice. -/
def Obligations.HeapInstructions : Prop :=
  ∀ (c : Common) (f : FH) (s s1 s2 s3 : State) (x : Ix) (p : Port) (g : Region) (objs : List HObj)
    (l : List (HObj × List Nat)),
    let w := s.warp x.w
    let n := f.ty.bytes
    let off (_ : Nat) : Int := f.off.toInt
    let offX (k : Nat) : Int := f.off.toInt + w.opdS f.ix k
    let ord := modBits f.mod 1 3
    let loaded (t : State) (k : Nat) : Nat := ((l.find? fun q => q.1.lane == k).map fun q =>
      natOf (q.2.map (t.memByte p.ctx))).getD 0
    let opened (o : Nat → Int) (ref : Bool) (m : Nat) : Prop := x.lanes ≠ [] ∧ runHeap (hMine x) s = (.ok (p, g), s1) ∧
      runHeap (hOpen p g x f.ha.toNat) s1 = (.ok objs, s2) ∧ runHeap (hField ref m o objs) s2 = (.ok (), s2)
    let reached (o : Nat → Int) (m : Nat) (write : Bool) : Prop := runHeap (hFieldPhys p m write o objs) s2 = (.ok l, s3)
    let clean (o : Nat → Int) : Prop := runHeap (hPoison o l) s3 = (.ok (), s3)
    let atomic (i : Instr) (o : AtomOp) : Prop :=
      (Ready s i x → (ordRel ord = true → s.releaseCheck x = none) → opened off false n → reached off n (o.opc != 0) →
        (o.reads = true → clean off) → (o.opc ≠ 0 → s3.logRoom p.unit 1 = true) →
        Settles i s x ((l.foldl (fun t q => hAtomLane x o q.1.lane q.2 t) (s3.countWrite x)).atomDone x ord)) ∧
      (Ready s i x → (ordRel ord = true → s.releaseCheck x = none) → x.lanes = [] → Settles i s x (s.atomDone x ord)) ∧
      ∀ (t : State) (k v : Nat) (bs : List Nat), bs.Nodup → bs.length = n →
        o.op k (natOf (bs.map (t.memByte (t.wctx x.w)))) = some v →
        natOf (bs.map (rdByte (hAtomLane x o k bs t).mem)) = v % 256 ^ n ∧
          ∀ a, a ∉ bs → (∀ b ∈ bs, b / 64 = a / 64 → t.readsPlain (t.wctx x.w) b = true) →
            rdByte (hAtomLane x o k bs t).mem a = rdByte t.mem a
    (Ready s (.hld c f) x → opened offX false n → reached offX n false → clean offX →
      Settles (.hld c f) s x (s3.writeD x false f.v f.ty.regs fun k =>
        if k ∈ objs.map (·.lane) then loadVal f.ty (loaded s3 k) else 0)) ∧
    (∀ t, Ready s (.hst c f) x → opened offX false n →
      (s2.countWrite x).writeOrPark p.ctx p.unit 0
        (fun q => { q with warp := x.w, pc := x.cp, wno := ((s2.countWrite x).warp x.w).wissue.toNat }) .heap
        (sectors 0 (objs.flatMap fun o =>
          addrs (o.addr + (offX o.lane).toNat) (bytesOf n (w.opd f.v f.ty.regs o.lane)))) = ([], t) →
      Settles (.hst c f) s x t) ∧
    atomic (.hatom c f) (hatomOp f w) ∧ atomic (.hcas c f) (hcasOp f w) ∧
    (∀ (s4 s5 : State) (healed : List Nat),
      let vals := l.map fun q => (q.1, natOf (q.2.map (s3.memByte p.ctx)))
      let full := vals.filter fun q => q.2 != 0
      Ready s (.hldr c f) x → opened off true 8 → reached off 8 false → clean off →
      runHeap (hBarriers p g x.w (full.map fun q => { lane := q.1.lane, reg := none, val := q.2 })) s3 = (.ok healed, s4) →
      runHeap ((full.zip healed).forM fun q => hHeal p x.w x.cp (fieldVa off q.1.1) q.1.2 q.2) s4 = (.ok (), s5) →
      Settles (.hldr c f) s x (vals.foldl (fun t q => t.modWarp x.w fun y => y.wh f.hd.toNat q.1.lane
        (.ofNat 64 (((full.zip healed).find? fun h => h.1.1.lane == q.1.lane).elim q.2 (·.2)))) s5)) ∧
    (∀ (vals : List Nat) (t : State), Ready s (.hstr c f) x → x.lanes ≠ [] → runHeap (hMine x) s = (.ok (p, g), s1) →
      runHeap (hBarriers p g x.w (s1.refUses x f.ha.toNat ++ (s1.refUses x f.hb.toNat).filter fun u => u.val != 0)) s1 =
        (.ok vals, s2) →
      runHeap (hObjects p g (x.lanes.zip vals)) s2 = (.ok objs, s3) → runHeap (hField true 8 off objs) s3 = (.ok (), s3) →
      (s3.countWrite x).writeOrPark p.ctx p.unit 0
        (fun q => { q with warp := x.w, pc := x.cp, wno := ((s3.countWrite x).warp x.w).wissue.toNat }) .heap
        (sectors 0 (objs.flatMap fun o => addrs (o.addr + f.off.toInt.toNat)
          (bytesOf 8 (((s3.countWrite x).warp x.w).rh f.hb.toNat o.lane).toNat))) = ([], t) →
      Settles (.hstr c f) s x t) ∧
    (∀ vals : List Nat, Ready s (.hcmp c f) x → x.lanes ≠ [] → runHeap (hMine x) s = (.ok (p, g), s1) →
      runHeap (hBarriers p g x.w ((x.lanes.flatMap fun k => [f.ha.toNat, f.hb.toNat].map fun r =>
        ({ lane := k, reg := some r, val := ((s1.warp x.w).rh r k).toNat } : RefUse)).filter fun u => u.val != 0)) s1 =
        (.ok vals, s2) →
      Settles (.hcmp c f) s x (s2.writeP x false f.pd fun k =>
        ((s2.warp x.w).rh f.ha.toNat k).toNat / 16 % 2 ^ 44 == ((s2.warp x.w).rh f.hb.toNat k).toNat / 16 % 2 ^ 44)) ∧
    (Ready s (.hhdr c f) x → x.lanes ≠ [] → runHeap (hMine x) s = (.ok (p, g), s1) →
      runHeap (hOpen p g x f.ha.toNat) s1 = (.ok objs, s2) → reached (fun _ => 0) 16 false → clean (fun _ => 0) →
      Settles (.hhdr c f) s x (s3.writeD x false f.v 4 fun k => if k ∈ objs.map (·.lane) then
        loaded s3 k % 2 ^ 32 * 16 % 2 ^ 32 + loaded s3 k / 2 ^ 32 * 2 ^ 32 else 0)) ∧
    ∀ i ∈ [Instr.hld c f, .hst c f, .hldr c f, .hstr c f, .hcmp c f, .hhdr c f, .hpin c f, .hunpin c f, .hnew c f],
      Ready s i x → x.lanes = [] → Performs i s x s

/-- R21, R113, R124, R271 to R273: `HMOV`, `HNEW`, `HPIN` and `HUNPIN`.  `HMOV` moves a reference between `h` registers or
from an ordinary pair; a pair that is no reference raises HEAP-TAG for the lowest lane that shows one.  When their accesses
pass, new references carry the epoch, the pinned addresses are those of the present copies, and a new restart region starts;
a size or a type out of range raises HEAP-BOUND.  Two clauses are the model's choice: an instruction without a participating
lane starts no restart region (log entry 40), and HEAP-TAG reports `ADDR` 0 (log entry 48). -/
def Obligations.HeapReferences : Prop :=
  (∀ (c : Common) (f : FH) (s : State) (x : Ix),
    let w := s.warp x.w
    let fromH := f.mod.getLsbD 0
    let value (l : Nat) : Nat := if fromH then (w.rh f.ha.toNat l).toNat else w.opd f.v 2 l
    let good (l : Nat) : Prop :=
      value l = 0 ∨ value l / 8 % 2 = 1 ∧ value l / 4 % 2 = 0 ∧ value l / 2 ^ 48 % 2 ^ 16 = 0
    (Ready s (.hmov c f) x → (fromH = true ∨ ∀ l ∈ x.lanes, good l) →
      ∃ t, exec (.hmov c f) s = .next t ∧ OnlyWarp s t x.w ∧ FallsThrough s t x ∧
        (∀ l ∈ x.lanes, (t.warp x.w).rh f.hd.toNat l = .ofNat 64 (value l)) ∧
        (∀ r l, l < 32 → ¬ (r = f.hd.toNat ∧ l ∈ x.lanes) → (t.warp x.w).rh r l = w.rh r l) ∧
        t.warp x.w = { w with
          h := (t.warp x.w).h, poison := (t.warp x.w).poison, threads := (t.warp x.w).threads
          entries := (t.warp x.w).entries, yielding := (t.warp x.w).yielding, hold := none }) ∧
    ∀ l ∈ x.lanes, Ready s (.hmov c f) x → fromH = false → ¬ good l → (∀ k ∈ x.lanes, k < l → good k) →
      exec (.hmov c f) s = .next (s.raise x.w x.ent (precise 0x3A x.cp l))) ∧
  ∀ (c : Common) (f : FH) (s s1 s2 s3 : State) (x : Ix) (p : Port) (g : Region) (objs : List HObj),
    let w := s.warp x.w
    let opened := x.lanes ≠ [] ∧ runHeap (hMine x) s = (.ok (p, g), s1)
    let size (k : Nat) : Nat := w.opd f.v 1 k
    let bad (k : Nat) : Prop := 2 ^ 30 - 16 < size k ∨ g.ntypes ≤ f.off.toNat
    (Ready s (.hpin c f) x → opened → runHeap (hOpen p g x f.ha.toNat) s1 = (.ok objs, s2) →
      runHeap (hPins p g true objs) s2 = (.ok (), s3) →
      Settles (.hpin c f) s x ((s3.writeD x false f.v 2 fun k =>
        (objs.find? fun o => o.lane == k).elim 0 (·.addr)).restart x x.ent)) ∧
    (Ready s (.hunpin c f) x → opened → runHeap (hOpen p g x f.ha.toNat) s1 = (.ok objs, s2) →
      runHeap (hPins p g false objs) s2 = (.ok (), s3) → Settles (.hunpin c f) s x (s3.restart x x.ent)) ∧
    (∀ k ∈ x.lanes, Ready s (.hnew c f) x → opened → bad k → (∀ j ∈ x.lanes, j < k → ¬ bad j) →
      exec (.hnew c f) s = .next (s1.raise x.w x.ent (precise 0x39 x.cp k))) ∧
    let mk (u : State) (q : Parked) : Parked := { q with warp := x.w, pc := x.cp, wno := (u.warp x.w).wissue.toNat }
    let bytes (refs : List (Nat × DWord)) : List (List (Nat × Byte)) :=
      sectors 0 (refs.flatMap fun q => newBytes (q.2.toNat / 16 % 2 ^ 44 * 16) (size q.1) f.off.toNat)
    let waits (t : State) (y : NewObjects) (left : List (List (Nat × Byte))) : State := t.modWarp x.w fun v =>
      { v.restart y.ent x.cp with newAt := some { y with done := (bytes y.refs).length - left.length }, hold := some x.cp }
    (∀ (ty : Option Nat) (addr : List (Nat × Nat)) (left : List (List (Nat × Byte))) (t : State),
      Ready s (.hnew c f) x → opened → (∀ y, w.newAt = some y → y.cp ≠ x.cp) →
      (∀ k ∈ x.lanes, ¬ bad k) → runHeap (hType p g f.off.toNat) s1 = (.ok ty, s2) →
      runHeap (x.lanes.mapM fun k => do pure (k, ← hAlloc p g (s1.wblk x.w).core k (16 + (size k + 15) / 16 * 16))) s2 =
        (.ok addr, s3) →
      let refs := addr.map fun q => (q.1, BitVec.ofNat 64 (q.2 / 16 % 2 ^ 44 * 16 + 8 + g.epoch % 4))
      let y : NewObjects := { cp := x.cp, ent := x.ent, refs := refs, done := 0 }
      let placed := (s3.countWrite x).modWarp x.w fun v => { v with newAt := some y }
      placed.writeOrPark p.ctx p.unit 0 (mk placed) .heap (bytes refs) = (left, t) →
      (left = [] → Settles (.hnew c f) s x ((refs.foldl (fun u q => u.modWarp x.w fun v => v.wh f.hd.toNat q.1 q.2) t).modWarp
        x.w (fun v => { v with newAt := none }) |>.restart x x.ent)) ∧
      (left ≠ [] → exec (.hnew c f) s = .next (waits t y left))) ∧
    ∀ (y : NewObjects) (left : List (List (Nat × Byte))) (t : State), Ready s (.hnew c f) x → x.lanes ≠ [] →
      w.newAt = some y → y.cp = x.cp → p = s.heapPort x.w →
      s.writeOrPark p.ctx p.unit 0 (mk s) .heap ((bytes y.refs).drop y.done) = (left, t) →
      (left = [] → ∃ u, exec (.hnew c f) s = .next u ∧ (u.warp x.w).newAt = none ∧
        (∀ q ∈ y.refs, (y.refs.map (·.1)).Nodup → (u.warp x.w).rh f.hd.toNat q.1 = q.2) ∧
        ∀ l ∈ y.ent, l < 32 → ((u.warp x.w).th l).cp = nextCp x.cp ∧ ((u.warp x.w).th l).rcp = nextCp x.cp) ∧
      (left ≠ [] → exec (.hnew c f) s = .next (waits t y left))

/-- R117, R120 to R122, R125, R274: `HFLIP.MARK`, `HFLIP.CONF` and the work of the Jointer.  `MARK` of a region without a
cycle writes a table for each listed page that it arms and marks the others' list entries, arms those pages, advances `EPOCH` and
begins a cycle; `CONF` waits for what has passed its barrier into armed pages; each copy carries every byte of its object
and leaves its entry DONE, with its poison marks and the releases its words carry; the sweep is true exactly
when every entry is DONE or VOID, and has then healed the fields, freed and disarmed the pages and cleared `CYCLE`; FREE sets `DEAD`
of the object that its healed reference names, or fails its command.  How the objects of a page are found (log entry
30), the edges of the commands (log entry 51) and the lane of a fault that no lane reports (log entry 23) are the model's choices. -/
def Obligations.Relocation : Prop :=
  (∀ (c : Common) (f : FH) (s s1 : State) (x : Ix) (g : Region),
    let w := s.warp x.w
    let r := (w.word f.v 0 x.first).toNat
    let va := (w.word f.v 1 x.first).toNat + (w.word f.v 2 x.first).toNat % 2 ^ 16 * 2 ^ 32
    let n := (w.word f.v 3 x.first).toNat
    let p : Port := { unit := .heapPort (s.wblk x.w).core, ctx := s.wctx x.w }
    let ok := r < 16 ∧ 1 ≤ n ∧ n ≤ 1024 ∧ s.heapDesc (s.wctx x.w) r ≠ none
    let read := runHeap (hRegion p r) s = (.ok g, s1)
    let cyc := s.cycles.find? fun y => y.ctx == s.wctx x.w && y.region == r
    (Ready s (.hflipMark c f) x → x.lanes ≠ [] → ¬ ok →
      exec (.hflipMark c f) s = .next (s.raise x.w x.ent (precise 0x02 x.cp x.first))) ∧
    (Ready s (.hflipMark c f) x → x.lanes ≠ [] → ok → read → g.cycle = true →
      Settles (.hflipMark c f) s x ((s1.writeP x true f.pd fun _ => false).restart x x.ent)) ∧
    (∀ s2, Ready s (.hflipMark c f) x → x.lanes ≠ [] → ok → read → g.cycle = false →
      runHeap (hMark p g va n) s1 = (.ok (), s2) →
      Settles (.hflipMark c f) s x ((s2.writeP x true f.pd fun _ => true).restart x x.ent) ∧
        ∃ map heads armed b sa sb sc sd se sf,
          runHeap (hFreeMap p g) (s1.healRegs p.ctx g) = (.ok map, sa) ∧ runHeap (hHeads p g map 0 g.pages) sa = (.ok heads, sb) ∧
          runHeap (hMarkList p g map heads va n [] g.dirLen) sb = (.ok armed, sc) ∧ ArmsPages p g armed sc sd ∧
          runHeap (hRead p (g.desc + 10) 1) sd = (.ok b, se) ∧
          runHeap (hWrite p (g.desc + 10) 1 (b / 8 * 8 + 4 + (g.epoch + 1) % 4)) se = (.ok (), sf) ∧ s2.mem = sf.mem ∧
          s2.cycles = s.cycles ++ [{ ctx := p.ctx, region := g.num, pages := armed.map fun a => (a.page, a.count) }]) ∧
    (Ready s (.hflipConf c f) x → x.lanes ≠ [] → 16 ≤ r →
      exec (.hflipConf c f) s = .next (s.raise x.w x.ent (precise 0x02 x.cp x.first))) ∧
    (Ready s (.hflipConf c f) x → x.lanes ≠ [] → r < 16 → cyc = none →
      Performs (.hflipConf c f) s x (s.restart x x.ent)) ∧
    (∀ y, Ready s (.hflipConf c f) x → x.lanes ≠ [] → r < 16 → cyc = some y → read →
      (s1.armedParked g y = true → exec (.hflipConf c f) s = .next s1) ∧
      (s1.armedParked g y = false → Settles (.hflipConf c f) s x
        ({ s1 with cycles := s1.cycles.map fun (z : Cycle) =>
            if z.ctx == y.ctx && z.region == r then { z with conf := true } else z }.restart x x.ent))) ∧
    ∀ i ∈ [Instr.hflipMark c f, .hflipConf c f], Ready s i x → x.lanes = [] → Performs i s x s) ∧
  (∀ (p : Port) (g : Region) (map e next va k : Nat) (heads seen : List Nat) (s : State),
    let page := e % 2 ^ 16
    let out := e / 2 ^ 16 % 2 ^ 47 ≠ 0 ∨ g.pages ≤ page ∨ page ∈ seen ∨ map / 2 ^ page % 2 = 1 ∨ page ∉ heads
    let one := runHeap (hMarkOne p g map heads seen e next)
    (out → one s = (.ok none, s)) ∧
    (∀ d s1, ¬ out → runHeap (hRead p (g.dirVa page) 8) s = (.ok d, s1) →
      (d % 2 ^ 8 ≠ 0 → one s = (.ok none, s1)) ∧
      ∀ objs s2, d % 2 ^ 8 = 0 → runHeap (hObjs p g page) s1 = (.ok objs, s2) →
        ((∃ y ∈ objs, hdrLarge y.2 = true) ∨ g.fwdLen * 65536 < next + tableLen objs.length → one s = (.ok none, s2)) ∧
        ((∀ y ∈ objs, hdrLarge y.2 = false) → next + tableLen objs.length ≤ g.fwdLen * 65536 →
          ∀ s3, runHeap (hWriteBytes p (g.fwd + next) (tableBytes page objs)) s2 = (.ok (), s3) →
            one s = (.ok (some { page := page, count := objs.length, toff := next }), s3))) ∧
    ∀ s1, runHeap (hRead p va 8) s = (.ok e, s1) →
      (∀ s2 s3, one s1 = (.ok none, s2) →
        runHeap (hWrite p va 8 (e / 2 ^ 64 * 2 ^ 64 + 2 ^ 63 + e % 2 ^ 63)) s2 = (.ok (), s3) →
        runHeap (hMarkList p g map heads va (k + 1) seen next) s =
          runHeap (hMarkList p g map heads (va + 8) k (page :: seen) next) s3) ∧
      ∀ a r s2 s3, one s1 = (.ok (some a), s2) →
        runHeap (hMarkList p g map heads (va + 8) k (a.page :: seen) (next + tableLen a.count)) s2 = (.ok r, s3) →
        runHeap (hMarkList p g map heads va (k + 1) seen next) s = (.ok (a :: r), s3)) ∧
  (∀ (p : Port) (c : Cycle) (g : Region) (l : List (Nat × Nat)) (vs : List Nat) (s s1 s2 s3 : State),
    runHeap (hRegion p c.region) s = (.ok g, s1) → runHeap (hEntries p g c) s1 = (.ok l, s2) →
      runHeap (l.mapM fun y => hRead p y.2 8) s2 = (.ok vs, s3) →
      ((∃ v ∈ vs, v % 4 ≤ 1) → ∃ t, runHeap (hSweep p c) s = (.ok false, t)) ∧
      ∀ (b : Bool) (t : State), (∀ v ∈ vs, 2 ≤ v % 4) → runHeap (hSweep p c) s = (.ok b, t) → b = true ∧
        ∃ map heads d s4 s5 s6 s7 s8, runHeap (hFreeMap p g) s3 = (.ok map, s4) ∧
          runHeap (hHeads p g map 0 g.pages) s4 = (.ok heads, s5) ∧
          runHeap ((heads.filter fun q => !c.pages.any fun a => a.1 == q).forM fun q => hHealPage p g q) s5 = (.ok (), s6) ∧
          FreesPages p g c.pages s6 s7 ∧ runHeap (hRead p (g.desc + 10) 1) s7 = (.ok d, s8) ∧
          runHeap (hWrite p (g.desc + 10) 1 (d / 8 * 8 + d % 4)) s8 = (.ok (), t)) ∧
  (∀ (p : Port) (g : Region) (r w x v h : Nat) (vals : List Nat) (s s1 s2 s3 s4 : State),
    let a := v / 16 % 2 ^ 44 * 16
    runHeap (hRegion p r) s = (.ok g, s1) →
      runHeap (hBarriers p g w [{ lane := 0, reg := none, val := x }]) s1 = (.ok (v :: vals), s2) →
      runHeap (hRead p a 8) s2 = (.ok h, s3) →
      runHeap (hWrite p a 8 (h / 2 ^ 49 * 2 ^ 49 + 2 ^ 48 + h % 2 ^ 48)) s3 = (.ok (), s4) →
      runHeap (hFree p r w x) s = (.ok (), s4)) ∧
  (∀ (ctx region : Nat) (s t : State) (c : Cycle),
    let cyc := s.cycles.find? fun y => y.ctx == ctx && y.region == region
    let p : Port := { unit := .jointer, ctx := ctx }
    let still := ∀ y, cyc = some y → y.conf = false
    (still → exec (.jointerObjectCopy ctx region) s = .next s ∧ exec (.healSweep ctx region) s = .next s) ∧
    (cyc = some c → c.conf = true →
      (runHeap (hJoint p c) s = (.ok none, t) → exec (.jointerObjectCopy ctx region) s = .next t) ∧
      (∀ q e, runHeap (hJoint p c) s = (.ok (some (q, e, true)), t) →
        exec (.jointerObjectCopy ctx region) s = .next (t.entryDone ctx e)) ∧
      (∀ q e, runHeap (hJoint p c) s = (.ok (some (q, e, false)), t) → c.stopped = true →
        exec (.jointerObjectCopy ctx region) s = .next t) ∧
      (∀ q e, runHeap (hJoint p c) s = (.ok (some (q, e, false)), t) → c.stopped = false →
        let rc : LogRec :=
          { kind := 0x05, code := 0x38, ctx := ctx, vf := t.ctxVf ctx, slice := t.ctxSlice ctx, region := region, addr := q }
        exec (.jointerObjectCopy ctx region) s = .next (((t.ctxLog rc).signal 0 3).modCycle ctx region fun k =>
          { k with stopped := true })) ∧
      (runHeap (hSweep p c) s = (.ok false, t) → exec (.healSweep ctx region) s = .next t) ∧
      (runHeap (hSweep p c) s = (.ok true, t) → ∃ u, exec (.healSweep ctx region) s = .next u ∧
        (∀ y ∈ u.cycles, ¬ (y.ctx = ctx ∧ y.region = region)) ∧ u.mem = t.mem ∧ u.warps = t.warps))) ∧
  (∀ (p : Port) (g : Region) (c : Cycle) (page e w h q o v : Nat) (a b : List Nat) (s s1 s2 s3 s4 s5 s7 s8 : State),
    let src := g.base + page * 2 ^ 21 + w % 2 ^ 17 * 16
    let dst := g.base + q * 2 ^ 21 + o
    let n := h % 2 ^ 32 * 16
    let s6 := ((((s5.putFor p.ctx (b.zip (a.map (s5.memByte p.ctx)))).copyPoison a b).copyRel a b).putPageEnd c.ctx c.region q
      (o + n)).modCycle c.ctx c.region fun k =>
        { k with dest := some (q, o + n), claims := k.claims.filter (· != e), stopped := false }
    runHeap (hRead p (e + 8) 8) s = (.ok w, s1) → runHeap (hRead p src 8) s1 = (.ok h, s2) →
      runHeap (hDest p g c n) s2 = (.ok (some (q, o)), s3) → runHeap (hPhys p src n false) s3 = (.ok a, s4) →
      runHeap (hPhys p dst n true) s4 = (.ok b, s5) → runHeap (hRead p e 8) s6 = (.ok v, s7) →
      runHeap (hWrite p e 8 (v / 2 ^ 48 * 2 ^ 48 + dst / 16 % 2 ^ 44 * 16 + v / 4 % 4 * 4 + 2)) s7 = (.ok (), s8) →
      runHeap (hCopy p g c page e) s = (.ok true, s8) ∧
        (b.Nodup → a.length = n → b.length = n →
          ∀ i, i < n → rdByte s6.mem (b.getD i 0) = s5.memByte p.ctx (a.getD i 0) ∧
            (b.getD i 0 % 4 = 0 → (∀ j, j < n → a.getD i 0 / 4 ≠ b.getD j 0 / 4) →
              tget [] s6.relMem (b.getD i 0 / 4) = tget [] s5.relMem (a.getD i 0 / 4)))) ∧
  ∀ (s u : State) (c : EngineCmd) (r : List EngineCmd),
    let x := c.word 2 + c.word 3 * 2 ^ 32
    let t : State := { s with jointerQ := r }
    let ok := c.word 0 = 0x10 ∧ c.word 1 = 0 ∧ ∀ i, i < 12 → c.word (4 + i) = 0
    let fails (u : State) (code : BitVec 8) : Prop :=
      exec .jointerFree s = .next ((u.ctxLog { u.recOf c.warp 0x05 with
        code := code.toNat, pc := c.pc.toNat, ctx := c.ctx, addr := x / 16 % 2 ^ 44 * 16 }).modWarp c.warp fun y =>
          y.flagDown c.flag [])
    (s.jointerQ = [] → exec .jointerFree s = .next s) ∧
    (s.jointerQ = c :: r →
      (¬ ok → fails t 0x02) ∧ (ok → (s.wgrid c.warp).heapen = false → fails t 0x3A) ∧
      (ok → (s.wgrid c.warp).heapen = true →
        (∀ code l va, runHeap (hFree { unit := .jointer, ctx := c.ctx } (s.wgrid c.warp).heap c.warp x) t =
          (.error (.fault code l va), u) → fails u code) ∧
        (runHeap (hFree { unit := .jointer, ctx := c.ctx } (s.wgrid c.warp).heap c.warp x) t = (.ok (), u) →
          exec .jointerFree s = .next (u.modWarp c.warp fun y => y.flagDown c.flag []) ∧ u.jointerQ = r)))

/-! ### Copy channels and queues -/

/-- R71 to R73, R78, R95, R238, R241, R242, R252: `PUSH` with its faults in their order, a full queue, a full flag, and what
each queue receives; `CPST`, `WPRD` and `WPWAIT`.  The model's choices: which command words a `PUSH` checks (log entry 51), the
lane of its faults (log entry 23), that without a participating lane it starts no restart region (log entry 40), what a `WPWAIT`
without one acquires (log entry 43), and how a channel's number is formed from a register and an offset (log entry 86). -/
def Obligations.CopyInstructions : Prop :=
  ∀ (c : Common) (s : State) (x : Ix),
    let w := s.warp x.w
    (∀ f : FS,
      let words := (List.range 16).map fun i => w.word f.a i x.first
      let x0 := (w.word f.a 0 x.first).toNat
      let id := f.imm.toNat
      let q := s.queueOf x.w id
      let flag := s.fsFlag x c
      let raises (code : BitVec 8) : Prop := exec (.push c f) s = .next (s.raise x.w x.ent (precise code x.cp x.first))
      let named (k : Queue) : Prop := match k with
        | .chan n => 0x100 ≤ id ∧ id < 0x110 ∧ (s.wblk x.w).chans[id - 0x100]? = some n
        | .launch => id = 0x200 | .jointer => id = 0x300 | .sander => id = 0x301 | .hostnote => id = 0x400
      let noPriv (k : Queue) : Prop := (k = .jointer ∨ k = .sander) ∧ (s.wgrid x.w).priv = false
      let deep (k : Queue) : Prop := k = .launch ∧ 9 ≤ (s.wgrid x.w).depth
      let formed (k : Queue) : Prop := match k with
        | .chan _ => 1 ≤ x0 % 2 ^ 8 ∧ x0 % 2 ^ 8 ≤ 7 ∧ x0 / 2 ^ 10 % 8 < 6 ∧ x0 / 2 ^ 15 % 2 ^ 17 = 0
        | .launch => x0 = 1 | .sander => x0 = 1 | .jointer => True | .hostnote => x0 / 2 ^ 16 % 2 ^ 16 = 0
      let mine : EngineCmd := { words := words, warp := x.w, flag := flag, ctx := s.wctx x.w, pc := x.cp }
      let taken (t : State) (k : Queue) : Prop := match k with
        | .chan n => ∃ m : Cmd, (t.chan n).queue = (s.chan n).queue ++ [m] ∧ m.words = words ∧ m.warp = x.w ∧
            m.flag = flag ∧ m.pc = x.cp ∧ m.done = 0 ∧ m.started = false ∧
            ∀ i ∈ [2, 4, 8, 10], 2 ^ 31 ≤ (words.getD (i + 1) 0).toNat →
              tget {} m.regs ((words.getD i 0).toNat / 2 ^ 24 % 16) = w.rb ((words.getD i 0).toNat / 2 ^ 24 % 16)
        | .jointer => t.jointerQ = s.jointerQ ++ [mine]
        | .sander => t.sanderQ = s.sanderQ ++ [mine]
        | .hostnote => (t.cluster (s.wcluster x.w)).notes = (s.cluster (s.wcluster x.w)).notes ++
            [{ words := words, warp := x.w, flag := flag, fn := s.ctxVf (s.wctx x.w) }]
        | .launch => ∃ m : LaunchReq, t.launchQ = s.launchQ ++ [m] ∧ m.ctx = s.wctx x.w ∧
            m.recVa = (words.getD 2 0).toNat + (words.getD 3 0).toNat * 2 ^ 32 ∧
            m.param = (words.getD 4 0).toNat + (words.getD 5 0).toNat * 2 ^ 32 ∧ m.depth = (s.wgrid x.w).depth + 1 ∧
            m.priv = (s.wgrid x.w).priv ∧ m.child = some (x.w, flag)
      Ready s (.push c f) x → x.lanes ≠ [] →
        (q = none ↔ ∀ k, ¬ named k) ∧ (∀ k, q = some k → named k) ∧ (q = none → raises 0x23) ∧
        ∀ k, q = some k →
          (noPriv k → raises 0x07) ∧ (deep k → raises 0x22) ∧ (¬ noPriv k → ¬ deep k → ¬ formed k → raises 0x02) ∧
          (¬ noPriv k → ¬ deep k → formed k → (pushRel k x0 = true → s.releaseCheck x = none) →
            (s.queueRoom x.w k = false →
              Performs (.push c f) s x ((s.writeP x true f.pd fun _ => true).pushEnd x k x0)) ∧
            (s.queueRoom x.w k = true → 15 ≤ w.flag flag → exec (.push c f) s = .next s) ∧
            (s.queueRoom x.w k = true → w.flag flag < 15 →
              ∃ t, exec (.push c f) s = .next t ∧ FallsRestarted s t x ∧ (t.warp x.w).flag flag = w.flag flag + 1 ∧
                (t.warp x.w).v = w.v ∧ (t.warp x.w).s = w.s ∧
                WritesP w (t.warp x.w) x.lanes f.pd (fun _ => false) ∧ taken t k ∧ t.mem = s.mem))) ∧
    (∀ f : FS, Ready s (.push c f) x → x.lanes = [] → s.releaseCheck x = none →
      ∃ t, exec (.push c f) s = .next t ∧ FallsThrough s t x ∧ t.mem = s.mem ∧ t.chans = s.chans) ∧
    (∀ f : FS,
      let k : Int := (w.word f.a 0 x.first).toNat + f.imm.toInt
      let n := 16 * s.wcluster x.w + k.toNat
      let held := 0 ≤ k ∧ k < 16 ∧ n ∈ (s.wblk x.w).chans
      let h := s.chan n
      let record := h.code.toNat + h.canc.toNat * 2 ^ 8 + h.queue.length * 2 ^ 12 + h.elem.toNat * 2 ^ 32 +
        h.fseq.toNat * 2 ^ 64 + h.seq.toNat * 2 ^ 96
      let read := s.writeD x true f.d 4 fun _ => record
      (Ready s (.cpst c f) x → x.lanes ≠ [] → ¬ held →
        exec (.cpst c f) s = .next (s.raise x.w x.ent (precise 0x23 x.cp x.first))) ∧
      (Ready s (.cpst c f) x → x.lanes ≠ [] → held → f.mod.getLsbD 0 = false →
        AnswersD (.cpst c f) s x true f.d 4 fun _ => record) ∧
      (Ready s (.cpst c f) x → x.lanes ≠ [] → held → f.mod.getLsbD 0 = true →
        Performs (.cpst c f) s x (read.modChan n fun h => { h with code := 0, canc := false, elem := 0, fseq := 0 })) ∧
      (Ready s (.cpst c f) x → x.lanes = [] → Performs (.cpst c f) s x s)) ∧
    ∀ f : FM,
      let k : Int := (w.word f.idx 0 x.first).toNat + f.off.toInt
      let n := 16 * s.wcluster x.w + k.toNat
      let held := 0 ≤ k ∧ k < 16 ∧ n ∈ (s.wblk x.w).chans
      let target := w.opd f.r 2 x.first
      let ptr := (s.chan n).wptr.toNat
      let gone := ∃ m, w.wpWait = some (x.cp, m, true)
      let ended (ok : Bool) (v : Tab Nat) : State :=
        ((s.modWarp x.w fun y => { y with vc := vcJoin y.vc v, wpWait := none }).writeP x true f.pd fun _ => ok).boundary x
      (Ready s (.wprd c f) x → x.lanes ≠ [] → ¬ held →
        exec (.wprd c f) s = .next (s.raise x.w x.ent (precise 0x23 x.cp x.first))) ∧
      (Ready s (.wprd c f) x → x.lanes ≠ [] → held → AnswersD (.wprd c f) s x true f.r 2 fun _ => ptr) ∧
      (Ready s (.wprd c f) x → x.lanes = [] → Performs (.wprd c f) s x s) ∧
      (Ready s (.wpwait c f) x → x.lanes ≠ [] → gone → Performs (.wpwait c f) s x (ended false [])) ∧
      (Ready s (.wpwait c f) x → x.lanes ≠ [] → ¬ gone → ¬ held →
        exec (.wpwait c f) s = .next (s.raise x.w x.ent (precise 0x23 x.cp x.first))) ∧
      (Ready s (.wpwait c f) x → x.lanes ≠ [] → ¬ gone → held → target ≤ ptr →
        Performs (.wpwait c f) s x (ended true (s.chan n).vcDone)) ∧
      (Ready s (.wpwait c f) x → x.lanes ≠ [] → ¬ gone → held → ptr < target → (s.chan n).queue = [] →
        Performs (.wpwait c f) s x (ended false (s.chan n).vcDone)) ∧
      (Ready s (.wpwait c f) x → x.lanes ≠ [] → ¬ gone → held → ptr < target → (s.chan n).queue ≠ [] →
        exec (.wpwait c f) s = .next (s.modWarp x.w fun y => { y with wpWait := some (x.cp, n, false) })) ∧
      (Ready s (.wpwait c f) x → x.lanes = [] → held → Performs (.wpwait c f) s x
        ((s.modWarp x.w fun y => { y with vc := vcJoin y.vc (s.chan n).vcDone }).boundary x)) ∧
      (Ready s (.wpwait c f) x → x.lanes = [] → ¬ held → Performs (.wpwait c f) s x (s.boundary x))

/-- R5, R73 to R75, R243 to R249, R251, R327, R355, R357, R358: how a channel works.  It begins the command at its head with its
checks, goes on with what is left of a write, performs the lowest unit still to do while its fault list has room, advances the
pointer only over units delivered in order, records the first failure, and completes; bytes of a peer are asked for before a unit goes on, and a peer's answers,
failures and timeouts end the units they belong to.  What a unit reads and where it writes: a beat, an element of a gather or of a
scatter by its index, one by its reference, the window of a layout record with its ragged edge and its banks, FILL; in local
memory, in global memory sector by sector, or in the shared memory of each receiver.  What `FSEQ`, `SEQ` and the pointer read after a failure, and what a channel
does where a fill or a beginning waits, are log entry 53, the bytes that source and destination share log entry 3, what counts as a
core's request log entry 87, and what a target does with a request log entry 69, the model's
choices. -/
def Obligations.CopyProgress : Prop :=
  let listed (s : State) (n : Nat) : Nat :=
    (s.parked.filter fun p => match p.kind with | .copyRead m _ _ => m == n | _ => false).length
  (∀ (n : Nat) (c : Cmd) (r : List Cmd) (s t : State),
    let h := s.chan n
    let beat (u : State) : Prop := exec (.copyBeatDelivery n) s = .next u
    let ends (u : State) : Prop := exec (.copyCommandCompletion n) s = .next u
    let begun (t : State) (y : Nat) : State :=
      t.modCmd n fun k => { k with started := true, layout := y, wptr0 := (t.chan n).wptr.toNat }
    (h.queue = [] → beat s ∧ ends s) ∧
    (h.queue = c :: r → s.chanRuns c = false → beat s ∧ ends s) ∧
    (h.queue = c :: r → s.chanRuns c = true → c.started = false →
      ends s ∧ (∀ y, runCopy (cStart c) s = (.ok y, t) → beat (begun t y)) ∧
      ∀ code why, runCopy (cStart c) s = (.error (.fail code why), t) → beat ((begun t 0).copyFail n 0 code why)) ∧
    (h.queue = c :: r → s.chanRuns c = true → c.started = true →
      (∀ l, c.rest ≠ [] → s.putSectors n c c.rest = (l, t) →
        beat (((c.rest.map (·.unit)).eraseDups).foldl (fun v u => v.written n u) (t.modCmd n fun k => { k with rest := l }))) ∧
      (c.rest = [] → (c.fail ≠ none ∨ 256 ≤ listed s n ∨ s.nextUnit n c = none) → beat s) ∧
      ∀ u, c.rest = [] → c.fail = none → listed s n < 256 → s.nextUnit n c = some u →
        (u < c.units ∧ c.done ≤ u ∧ u ∉ s.parkedUnits n ∧ u ∉ c.ahead ∧ u ∉ c.peers.map (·.unit) ∧
          ∀ v, c.done ≤ v → v < u → v ∈ s.parkedUnits n ∨ v ∈ c.ahead ∨ v ∈ c.peers.map (·.unit)) ∧
        (∀ bytes t2, runCopy (cSource n c u) s = (.ok bytes, t) → runCopy (cWrite n c u bytes) t = (.ok (), t2) →
          beat ((t2.modCmd n fun k =>
            { k with got := k.got.filter (fun g => g.1 != u), passed := k.passed.filter fun g => g.1 != u }).written n u)) ∧
        (∀ code why, runCopy (cSource n c u) s = (.error (.fail code why), t) → beat (t.copyFail n u code why)) ∧
        (∀ ctx va, runCopy (cSource n c u) s = (.error (.absent ctx va), t) →
          beat (t.park { ctx := ctx, page := va / 4096 * 4096, unit := .chan n, kind := .copyRead n u va, warp := c.warp
                         pc := c.pc })) ∧
        (∀ p, runCopy (cSource n c u) s = (.error (.peer p), t) →
          beat (if t.requestRoom c.warp = 0 then t else t.modCmd n fun k => { k with peers := k.peers ++ [p] })) ∧
        ∀ bytes code why t2, runCopy (cSource n c u) s = (.ok bytes, t) →
          runCopy (cWrite n c u bytes) t = (.error (.fail code why), t2) → beat (t.copyFail n u code why)) ∧
    (h.queue = c :: r → s.chanRuns c = true → c.started = true →
      ((c.peers ≠ [] ∨ c.rest ≠ [] ∨ s.parkedUnits n ≠ []) → ends s) ∧
      (c.peers = [] → s.parkedUnits n = [] → c.fail = none → c.done < c.units → ends s) ∧
      (c.peers = [] → c.rest = [] → s.parkedUnits n = [] → c.fail = none → c.units ≤ c.done →
        ∃ u, ends u ∧ (u.chan n).queue = r ∧ (u.chan n).seq = h.seq + 1 ∧
          (u.chan n).wptr = .ofNat 64 (c.wptr0 + c.destLen) ∧ (u.chan n).code = h.code ∧
          (u.warp c.warp).flag c.flag = (s.warp c.warp).flag c.flag - 1 ∧
          (u.warp c.warp).faults = (s.warp c.warp).faults ∧ u.mem = s.mem ∧ u.shared = s.shared ∧ u.plinth = s.plinth) ∧
      ∀ code elem, c.peers = [] → c.rest = [] → s.parkedUnits n = [] → c.fail = some (code, elem) →
        ∃ u, ends u ∧ (u.chan n).queue = [] ∧ (u.chan n).seq = h.seq + .ofNat 32 (r.length + 1) ∧
          (u.chan n).wptr = h.wptr ∧ (u.chan n).code = h.code ∧ (u.chan n).canc = (h.canc || !r.isEmpty) ∧
          (u.warp c.warp).faults = (s.warp c.warp).faults ++ (if c.trap = true then
            [{ flags := [c.flag], acc := c.party / 2, fr :=
              { code := code, fpc := c.pc, info := .ofNat 32 elem, addr := c.why.1, otag := c.why.2.1, seq := c.why.2.2 } }]
            else []) ∧ u.mem = s.mem ∧ u.shared = s.shared ∧ u.plinth = s.plinth) ∧
    (∀ u code why, h.queue = c :: r →
      let v := (s.copyFail n u code why).chan n
      (h.code = 0 → c.fail = none → v.code = code ∧ v.elem = .ofNat 32 (c.elemOf u) ∧ v.fseq = h.seq + 1) ∧
      ((h.code ≠ 0 ∨ c.fail ≠ none) → v.code = h.code ∧ v.elem = h.elem ∧ v.fseq = h.fseq) ∧ v.wptr = h.wptr ∧
      (v.queue.head?.bind (·.fail)).isSome = true ∧
      (c.fail = none → v.queue.head?.map (·.why) = some why) ∧
      (v.queue.head?.map (·.bad) = some (u :: c.bad)) ∧ (u ∈ c.bad → s.written n u = s)) ∧
    ∀ u, h.queue = c :: r →
      let v := (s.delivered n u).chan n
      (c.progressive = false → v.wptr = h.wptr) ∧
      (c.progressive = true → ∃ d, c.done ≤ d ∧ v.wptr = .ofNat 64 (c.wptr0 + c.unitOff d) ∧
        (∀ k, c.done ≤ k → k < d → k = u ∨ k ∈ c.ahead) ∧ (u = c.done → c.done < d))) ∧
  (∀ (c : Cmd), c.byElem = false →
    c.unitOff 0 = 0 ∧ c.unitOff c.units = c.destLen ∧
      ∀ u, u < c.units → c.unitOff u < c.unitOff (u + 1) ∧ c.unitOff (u + 1) ≤ c.unitOff u + 64 ∧
        (u + 1 < c.units → (c.phase + c.unitOff (u + 1)) % 64 = 0)) ∧
  (∀ (n u key : Nat) (c : Cmd) (off : Int) (bytes : List Byte) (l : List Nat) (s t t1 : State) (sp : Space),
    let va := c.opd 2 % 2 ^ 48 + c.unitOff u
    let lacks (i : Nat) : Prop := i < l.length ∧ isPeer (l.getD i 0) = true ∧ c.gotByte u (va + i) = none
    (c.kind = 7 → ∃ bs, runCopy (cSource n c u) s = (.ok bs, s) ∧ bs.length = c.unitOff (u + 1) - c.unitOff u ∧
      ∀ i, i < bs.length → bs.getD i 0 = .ofNat 8 (c.word 6 / 2 ^ (8 * ((c.unitOff u + i) % 4)))) ∧
    (c.kind = 1 → opLocal (c.opd 2) = false →
      runCopy (cPhys n c (((c.opd 2 % 2 ^ 48 : Nat) : Int) + (c.unitOff u : Nat)) (c.unitOff (u + 1) - c.unitOff u)) s =
        (.ok l, t) →
      ((∀ i, ¬ lacks i) → l.any t.poisoned = false →
        ∃ bs, runCopy (cSource n c u) s = (.ok bs, t) ∧ bs.length = l.length ∧ ∀ i, i < l.length →
          bs.getD i 0 = if isPeer (l.getD i 0) = true then (c.gotByte u (va + i)).getD 0
            else t.memByte (t.wctx c.warp) (l.getD i 0)) ∧
      ((∀ i, ¬ lacks i) → l.any t.poisoned = true → ∃ why, runCopy (cSource n c u) s = (.error (.fail 0x16 why), t)) ∧
      ∀ i, lacks i → (∀ j, j < i → ¬ lacks j) →
        ∃ p : PeerReq, runCopy (cSource n c u) s = (.error (.peer p), t) ∧ p.unit = u ∧ p.write = false ∧
          p.link = l.getD i 0 / 2 ^ 44 % 2 ^ 4 ∧ p.ctx = t.wctx c.warp ∧ p.va = va + i ∧ 1 ≤ p.len ∧
          ∀ j, j < p.len → lacks (i + j) ∧ (p.va + j) / 4096 = p.va / 4096) ∧
    (c.kind ≠ 6 → opLocal (c.opd 4) = true → runCopy (cLocalKey c (c.opd 4) off bytes.length .store) s = (.ok (sp, key), t) →
      runCopy (cAccess c u true sp key bytes.length) t = (.ok (), t1) →
      ∃ t2, runCopy (cWriteAt n c u off bytes) s = (.ok (), t2) ∧
        (∀ i, i < bytes.length → rdByte (t2.bytes sp) (key + i) = bytes.getD i 0) ∧
        (∀ a, (a < key ∨ key + bytes.length ≤ a) → rdByte (t2.bytes sp) a = rdByte (t1.bytes sp) a) ∧ t2.mem = t1.mem)) ∧
  (∀ (n u o len key va : Nat) (off : Int) (c : Cmd) (sp : Space) (l : List Nat) (bs : List Byte) (s t t1 : State),
    let src (off : Int) (len : Nat) : State → Except CStop (List Byte) × State :=
      if opLocal (c.opd 2) = true then runCopy (cReadLocal c u (c.opd 2) off len)
      else runCopy (cBytes n c u ((c.opd 2 % 2 ^ 48 : Nat) + off) len)
    let esz := 2 ^ (c.word 6 % 8)
    let ix := if c.word 6 / 8 % 2 = 1 then 8 else 4
    let index := runCopy (cReadLocal c u (c.opd 8) (u * ix : Nat) ix) s
    let x := c.layout
    let place (i : Nat) : Nat := lyWindowByte x (c.unitOff u + i)
    let count := c.unitOff (u + 1) - c.unitOff u
    (runCopy (cLocalKey c o off len .load) s = (.ok (sp, key), t) → runCopy (cAccess c u false sp key len) t = (.ok (), t1) →
      t1.localPoison sp key len = false → ∃ b, runCopy (cReadLocal c u o off len) s = (.ok b, t1) ∧ b.length = len ∧
        ∀ i, i < len → b.getD i 0 = rdByte (t1.bytes sp) (key + i)) ∧
    (runCopy (cPhys n c (va : Int) len) s = (.ok l, t) → (∀ a ∈ l, isPeer a = false ∧ t.poisoned a = false) →
      ∃ b, runCopy (cBytes n c u (va : Int) len) s = (.ok b, t) ∧ b.length = l.length ∧
        ∀ i, i < l.length → b.getD i 0 = t.memByte (t.wctx c.warp) (l.getD i 0)) ∧
    ((c.kind = 1 ∨ c.kind = 6) → runCopy (cSource n c u) s = src (c.unitOff u : Nat) count s) ∧
    (c.kind = 3 → index = (.ok bs, t) → runCopy (cSource n c u) s = src (natOf bs * esz : Nat) esz t) ∧
    (∀ ad, c.kind = 4 → runCopy (cReadLocal c u (c.opd 8) (8 * u : Nat) 8) s = (.ok bs, t) →
      runCopy (cRefAddr n c u (natOf bs)) t = (.ok ad, t1) →
      runCopy (cSource n c u) s = runCopy (cBytes n c u (ad : Nat) (c.word 6)) t1) ∧
    (c.kind = 5 → runCopy (cSource n c u) s = src (u * esz : Nat) esz s) ∧
    (∀ elems, c.kind = 2 → TakesElems (lySource x) (fun o => src o (lyBytes x)) (bytesOf (lyBytes x) (lyFillVal x))
        (((List.range count).map fun i => place i / lyBytes x).eraseDups) elems s t →
      ∃ b, runCopy (cSource n c u) s = (.ok b, t) ∧ b.length = count ∧
        ∀ i, i < count → b.getD i 0 = (tget [] elems (place i / lyBytes x)).getD (place i % lyBytes x) 0) ∧
    (∀ b bd t2, c.kind ≠ 5 → runCopy (cDest n c (c.unitOff u) b) s = (.ok bd, t) →
      runCopy (cWriteAt n c u (c.unitOff u : Nat) bd) t = (.ok (), t2) → runCopy (cWrite n c u b) s = (.ok (), t2)) ∧
    (∀ b bd t2, c.kind = 5 → index = (.ok bs, t) → runCopy (cDest n c (natOf bs * esz) b) t = (.ok bd, t1) →
      let at_ := natOf bs * esz
      let later (i : Nat) : Prop := ∃ q ∈ c.spots, u < q.1 ∧ q.2 ≤ at_ + i ∧ at_ + i < q.2 + esz
      let noted (v : State) : State := v.modCmd n fun k => { k with spots := (u, at_) :: k.spots }
      ((∀ i, i < bd.length → ¬ later i) → runCopy (cWriteAt n c u (at_ : Nat) bd) t1 = (.ok (), t2) →
        runCopy (cWrite n c u b) s = (.ok (), noted t2)) ∧
      (bd ≠ [] → (∀ i, i < bd.length → later i) → runCopy (cWrite n c u b) s = (.ok (), noted t1))) ∧
    ∀ b e, (c.kind = 6 ∨ ∀ i, i < b.length → ∀ p ∈ s.placesOf n c (c.opd 4) (e + i : Nat), ∀ q ∈ s.sources n c,
        ¬ (q.1.1 = p.1 ∧ q.1.2 ≤ p.2 ∧ p.2 < q.1.2 + q.2)) → runCopy (cDest n c e b) s = (.ok b, s)) ∧
  (∀ (x k i d : Nat), lyOk x = true → k < lyElems x →
    (∀ d, d < lyDims x → lyIndex x k d < lyExt x d) ∧
      k = ∑ d ∈ Finset.range (lyDims x), lyIndex x k d * ∏ i ∈ Finset.range d, lyExt x i ∧
      (d < lyDims x → lySize x d ≤ lyIndex x k d → lySource x k = none) ∧
      ((∀ d, d < lyDims x → lyIndex x k d < lySize x d) →
        lySource x k = some (∑ d ∈ Finset.range (lyDims x), (lyIndex x k d : Int) * lyStride x d)) ∧
      (lyBank x = 0 → lyWindowByte x i = i) ∧
      (lyBank x ≠ 0 → ∀ row ch b, ch < lyRow x / 16 → b < 16 →
        lyWindowByte x (row * lyRow x + Nat.xor ch (row % 2 ^ lyBank x) * 16 + b) = row * lyRow x + ch * 16 + b) ∧
      (lyBytes x ≤ 4 → i < lyBytes x → (bytesOf (lyBytes x) (lyFillVal x)).getD i 0 = .ofNat 8 (lyFill x / 256 ^ i)) ∧
      (lyType x = some .n64 → lyFillVal x = lyFill x) ∧
      (lyType x = some .s64 → lyFillVal x = lyFill x + if lyFill x < 2 ^ 31 then 0 else 2 ^ 64 - 2 ^ 32)) ∧
  (∀ (n u va page pa : Nat) (c : Cmd) (off : Int) (bytes : List Byte) (s t t1 : State) (l : List CopyRest) (p : CopyRest)
      (i : Nat) (b : Byte) (r : List (Nat × Byte)) (ps : List (Nat × Nat)),
    let dst : Int := (c.opd 4 % 2 ^ 48 : Nat) + off
    let ctx := s.wctx c.warp
    let mk (q : Parked) : Parked := { q with warp := c.warp, pc := c.pc }
    let aside : Parked := mk { ctx := ctx, page := (p.va + i) / 4096 * 4096, unit := .chan n
                               kind := .write p.va p.bytes (.copyWrite n p.unit) }
    let global := c.kind ≠ 6 ∧ opLocal (c.opd 4) = false
    (global → (dst < 0 ∨ (2 ^ 48 : Int) < dst + bytes.length) →
      ∃ why, runCopy (cWriteAt n c u off bytes) s = (.error (.fail 0x10 why), s)) ∧
    (global → 0 ≤ dst → dst + bytes.length ≤ (2 ^ 48 : Int) →
      (((s.chan n).queue.headD {}).rest ≠ [] → runCopy (cWriteAt n c u off bytes) s =
        (.ok (), s.modCmd n fun k => { k with rest := k.rest ++ restOf u dst.toNat bytes })) ∧
      (((s.chan n).queue.headD {}).rest = [] → s.putSectors n c (restOf u dst.toNat bytes) = (l, t) →
        runCopy (cWriteAt n c u off bytes) s = (.ok (), t.modCmd n fun k => { k with rest := k.rest ++ l }))) ∧
    ((restOf u va bytes).flatMap (·.bytes) = addrs 0 bytes ∧ ∀ q ∈ restOf u va bytes, q.unit = u ∧ q.va = va ∧ q.bytes ≠ [] ∧
      ∀ y ∈ q.bytes, ∀ z ∈ q.bytes, (va + y.1) / 64 = (va + z.1) / 64) ∧
    s.putSectors n c [] = ([], s) ∧
    (s.putSector n c p = none → s.putSectors n c (p :: l) = (p :: l, s)) ∧
    (s.putSector n c p = some t → s.putSectors n c (p :: l) = t.putSectors n c l) ∧
    (s.logRoom (.chan n) 1 = false → s.putSector n c p = none) ∧
    (s.logRoom (.chan n) 1 = true → p.bytes = (i, b) :: r → (∀ y ∈ r, (p.va + y.1) / 64 = (p.va + i) / 64) →
      page = (p.va + i) / 4096 * 4096 →
      (s.sectorLogged (.chan n) ctx ((p.va + i) / 64) = true → s.putSector n c p = some (s.park aside)) ∧
      (s.sectorLogged (.chan n) ctx ((p.va + i) / 64) = false →
        (s.xlate (.chan n) ctx (p.va + i) true true = (some pa, t) → isPeer pa = true →
          ∃ q : PeerReq, q.unit = p.unit ∧ q.write = true ∧ q.link = pa / 2 ^ 44 % 2 ^ 4 ∧ q.ctx = ctx ∧ q.va = p.va + i ∧
            q.bytes = p.bytes.map (·.2) ∧ q.len = p.bytes.length ∧
            s.putSector n c p = if t.requestRoom c.warp = 0 then none else
              some (t.modCmd n fun k => { k with peers := k.peers ++ [q] })) ∧
        (∀ a, s.xlate (.chan n) ctx (p.va + i) true true = (a, t) → (∀ k, a = some k → isPeer k = false) →
          (t.xlPages (.chan n) ctx true false [page] = (.ok ps, t1) →
            s.putSector n c p = some (t1.putFor ctx (p.bytes.map fun y => (physOf ps (page + (p.va + y.1 - page)), y.2)))) ∧
          ∀ q, t.xlPages (.chan n) ctx true false [page] = (.error q, t1) → s.putSector n c p = some (t1.park aside)))) ∧
    ∀ (w : List (Nat × Byte)) (a : Nat), (w.map (·.1)).Nodup →
      (∀ y ∈ w, rdByte (s.putFor ctx w).mem y.1 = y.2) ∧
        ((∀ y ∈ w, y.1 / 64 ≠ a / 64) → rdByte (s.putFor ctx w).mem a = rdByte s.mem a)) ∧
  (∀ (n u b j : Nat) (c : Cmd) (off : Int) (bytes : List Byte) (s t : State),
    let bs := (s.gang (s.wblk c.warp).gang).blocks
    let k := s.blk b
    let dst := opOff (c.opd 4) + off
    let key := k.core * 2 ^ 19 + k.shBase + dst.toNat
    let room := k.holds = true ∧ 0 ≤ dst ∧ dst + bytes.length ≤ ((s.grid k.grid).f 416 19 : Nat)
    (j ∈ s.receivers c ↔ ∃ i, bs[i]? = some j ∧ (c.word 6 = 0 ∨ c.word 6 / 2 ^ i % 2 = 1)) ∧
    (c.kind = 6 → runCopy (cWriteAt n c u off bytes) s =
      runCopy ((s.receivers c).forM fun b => cReceive n c u off bytes b) s) ∧
    (¬ room → ∃ why, runCopy (cReceive n c u off bytes b) s = (.error (.fail 0x10 why), s)) ∧
    (room → runCopy (cAccess c u true .shared key bytes.length) s = (.ok (), t) →
      (∀ i, i < bytes.length → ∀ q ∈ t.sources n c, ¬ (q.1.1 = 1 ∧ q.1.2 ≤ key + i ∧ key + i < q.1.2 + q.2)) →
      ∃ t2, runCopy (cReceive n c u off bytes b) s = (.ok (), t2) ∧
        (∀ i, i < bytes.length → rdByte t2.shared (key + i) = bytes.getD i 0) ∧
        (∀ a, (a < key ∨ key + bytes.length ≤ a) → rdByte t2.shared a = rdByte t.shared a) ∧
        t2.mem = t.mem ∧ t2.plinth = t.plinth)) ∧
  (∀ (n op e va : Nat) (a : PeerAnswer) (c : Cmd) (p : PeerReq) (s : State),
    let t := s.modCmd n fun c => { c with peers := c.peers.erase p }
    let why : BitVec 48 × Word × Word := (.ofNat 48 va, 0, 0)
    let named (q : Nat × PeerReq) : Bool := q.1 == op && (q.2.unit == e && q.2.va == va)
    let late := { s with peerLate := s.peerLate.erase (op, p) }.ctxLog
      { kind := 0x06, info := e, ctx := p.ctx, vf := s.ctxVf p.ctx, slice := s.ctxSlice p.ctx, addr := p.va }
    (s.peerAsked n op e va = none →
      exec (.peerTimeout n ⟨op, e, va⟩) s = .next
        { s with peerLate := s.peerLate.map fun q => if named q then (q.1, { q.2 with expired := true }) else q } ∧
      (s.peerLate.find? named = some (op, p) → exec (.peerResponse n ⟨op, e, va⟩ a) s = .next late) ∧
      (s.peerLate.find? named = none → exec (.peerResponse n ⟨op, e, va⟩ a) s = .next s)) ∧
    (s.peerAsked n op e va = some (c, p) →
      ((s.chan n).queue.head? = some c ∧ c.party / 2 = op ∧ p ∈ c.peers ∧ p.unit = e ∧ p.va = va) ∧
      exec (.peerTimeout n ⟨op, e, va⟩) s =
        .next ({ t with peerLate := s.peerLate ++ [(op, { p with expired := true })] }.copyFail n e 0x15 why) ∧
      exec (.peerResponse n ⟨op, e, va⟩ .remoteFault) s = .next (t.copyFail n e 0x14 why) ∧
      (p.write = true → exec (.peerResponse n ⟨op, e, va⟩ .written) s = .next (t.written n e)) ∧
      ∀ bytes, p.write = false →
        let told := (List.range p.len).map fun i => (e, va + i, bytes.getD i 0)
        let u := t.modCmd n fun k => { k with got := k.got ++ told }
        exec (.peerResponse n ⟨op, e, va⟩ (.data bytes)) s = .next (if listed s n < 256 then
          u.copyUnit n { c with peers := c.peers.erase p, got := c.got ++ told } e else u))) ∧
  ∀ (link ctx addr len : Nat) (bytes : List Byte) (s t : State),
    let e := s.phys (s.dev.wbind.toNat + 4 * (1024 * link + ctx % 1024)) 4
    let up := 2 ≤ s.dev.stage ∧ s.dev.tripped = false ∧ link < 12 ∧ s.dev.wlink.getLsbD link = true
    let bound := e / 2 ^ 15 % 2 = 1 ∧ e / 2 ^ 10 % 2 ^ 5 = 0 ∧ e / 2 ^ 16 % 2 ^ 16 = 0
    let c := e % 1024
    let answers (w : Option (List Byte)) (u : State) (a : PeerAnswer) : Prop :=
      exec (.peerAccess link ctx addr len w) s = .next { u with dev := { u.dev with peerOut := u.dev.peerOut ++ [(link, a)] } }
    let refused (u : State) : State :=
      (u.ctxLog { kind := 0x07, ctx := c, vf := s.ctxVf c, slice := s.ctxSlice c, addr := addr }).signal 0 3
    (∀ w, ¬ up → exec (.peerAccess link ctx addr len w) s = .next s) ∧
    (∀ w, up → ¬ bound → ∃ u, answers w u .remoteFault ∧ u.chans = s.chans ∧ u.warps = s.warps ∧ u.pageReqs = s.pageReqs ∧
      (u.fn 0).msix = (s.fn 0).msix ++ [3]) ∧
    (up → bound → s.vread .link c addr len = (.ok bytes, t) → answers none t (.data bytes)) ∧
    (∀ q, up → bound → s.vread .link c addr len = (.error q, t) → answers none (refused t) .remoteFault) ∧
    (up → bound → s.vwrite .link c addr bytes.length (addrs 0 bytes) = (.ok (), t) → answers (some bytes) t .written) ∧
    ∀ q, up → bound → s.vwrite .link c addr bytes.length (addrs 0 bytes) = (.error q, t) →
      answers (some bytes) (refused t) .remoteFault

/-! ### Fetch -/

/-- R22, R28, R163 to R168, R326: a fetch and its checks in their order, with the parity of both halves; an entry whose
page is absent blocks with a request, an entry point's target bit still to be checked; one that passes holds the line, entered
and not waited.  Entries age at 64.  A yield ends when every other ready warp of the quadrant has issued once since, or 8 issue
cycles have passed; what counts as one is log entry 77, the marking of a fall past the last line log entry 25, the address of a
poisoned line log entry 27, and the lane of a fetch's fault log entry 23, the model's choices. -/
def Obligations.Fetch : Prop :=
  (∀ (w : Nat) (c : Word) (s s1 : State),
    let k := s.warp w
    let e := k.entry c
    let lanes := k.entLanes c
    let va := (s.wgrid w).cbase + 64 * cpLine c
    let outside := e.past = true ∨ (s.wgrid w).clines ≤ cpLine c
    let fetches (t : State) : Prop := exec (.lineFetch w) s = .next t
    (k.choice = none → fetches s) ∧
    (k.choice = some c → (s.mayIssue w = false ∨ e.entered = true) → fetches s) ∧
    (k.choice = some c → s.mayIssue w = true → e.entered = false →
      (outside → fetches (s.raise w lanes (precise 0x04 c))) ∧
      (∀ page, ¬ outside → s.vread (.mapUnit (s.wcluster w)) (s.wctx w) va 64 = (.error page, s1) →
        fetches ((s1.request (s.wctx w) page false).modWarp w fun y =>
          (y.modThs lanes fun _ t => { t with check := e.check }).blockLanes lanes (.fetchPage (s.wctx w) (max page va))
            fun _ q => q)) ∧
      (∀ bytes a, ¬ outside → s.vread (.mapUnit (s.wcluster w)) (s.wctx w) va 64 = (.ok bytes, s1) →
        (s1.xlate (.mapUnit (s.wcluster w)) (s.wctx w) va false).1 = some a →
        let l : Line := .ofNat 512 (natOf bytes)
        (s1.poisoned a = true → fetches (s1.raise w lanes (precise 0x16 c 0 0 (.ofNat 48 va)))) ∧
        (∀ r, s1.poisoned a = false → lineFault l c e.check = some r → fetches (s1.raise w lanes r)) ∧
        (s1.poisoned a = false → lineFault l c e.check = none →
          ∃ t, fetches t ∧ t = { s1 with warps := t.warps } ∧ (∀ v, v ≠ w → t.warp v = s1.warp v) ∧
            t.warp w = { s1.warp w with entries := (t.warp w).entries, threads := (t.warp w).threads } ∧
            (∀ l, (t.warp w).th l =
              if l ∈ lanes then { (s1.warp w).th l with check := false } else (s1.warp w).th l) ∧
            (t.warp w).entry c =
              { (s1.warp w).entry c with entered := true, waited := false, line := l, check := false } ∧
            ∀ d, d ≠ c → (t.warp w).entry d = (s1.warp w).entry d)))) ∧
  (∀ (l : Line) (c : Word) (check : Bool),
    let ones (p : Nat → Bool) : Nat := ((List.range 512).filter fun i => p i && l.getLsbD i).length
    let bad0 := ones (fun i => decide (i < 31) || decide (32 ≤ i ∧ i < 224)) % 2 = 1
    let bad1 := ones (fun i => i == 31 || decide (224 ≤ i)) % 2 = 1
    let pairs := ∃ k, k < 3 ∧ l.getLsbD (21 + k) = true ∧ l.getLsbD (22 + k) = true
    let target := cpSlot c < 5 ∧ l.getLsbD (25 + cpSlot c) = true
    ((bad0 ∨ bad1) → ∃ p, lineFault l c check = some { precise 0x05 c with par := p } ∧
      (p.getLsbD 0 = true ↔ bad0) ∧ (p.getLsbD 1 = true ↔ bad1)) ∧
    (¬ bad0 → ¬ bad1 → pairs → lineFault l c check = some (precise 0x03 c)) ∧
    (¬ bad0 → ¬ bad1 → ¬ pairs → check = true → ¬ target → lineFault l c check = some (precise 0x04 c)) ∧
    (¬ bad0 → ¬ bad1 → ¬ pairs → (check = false ∨ target) → lineFault l c check = none)) ∧
  ∀ (w : Nat) (s : State),
    let q := s.quadOf w
    let since := (tget [] s.issues q).takeWhile (· != w)
    let spent := w ∉ tget [] s.issues q ∨ 8 ≤ since.length ∨
      ∀ v ∈ s.activeSet q, v ≠ w → s.readyWarp v = true → v ∈ since
    (spent → ∃ t, exec (.yieldExpiry w) s = .next t ∧ OnlyWarp s t w ∧ t.warp w = { s.warp w with yielding := false }) ∧
    (¬ spent → exec (.yieldExpiry w) s = .next s) ∧
    ∃ t, exec (.entryAged w) s = .next t ∧ OnlyWarp s t w ∧
      t.warp w = { s.warp w with entries := (t.warp w).entries } ∧
      ∀ c, (t.warp w).entry c =
        { (s.warp w).entry c with aged := ((s.warp w).entry c).aged || decide (64 ≤ ((s.warp w).entry c).age) }

/-! ### Launches -/

/-- R253, R311 to R313, R317, R378: the validation of a launch record.  The words that fail order 2 are exactly those that
R311 and R312 name, the orders are tried in turn, and the lowest failing word is reported; what acceptance and refusal
leave behind.  Which word some checks report, and what a request's own malformed words and a record beyond the address space
give, and that a parameter is aligned as the field it replaces, are log entry 57, the model's choices. -/
def Obligations.LaunchValidation : Prop :=
  (∀ (g : Grid) (desc : Option Nat) (s : State),
    let x := g.lr.toNat
    let f (lo n : Nat) : Nat := x / 2 ^ lo % 2 ^ n
    let threads := f 320 16 * f 336 16 * f 352 16
    let blocks := f 256 32 * f 288 16 * f 304 16
    let static := (threads + 31) / 32 * ((f 384 9 + 2 * f 393 7 + 2 * f 400 5 + 7) / 8)
    let handler := f 227 1 = 1
    let reserved (w : Nat) : Prop :=
      ∃ p ∈ [(112, 16), (176, 16), (231, 1), (244, 8), (368, 1), (382, 2), (409, 7), (435, 13), (472, 8), (507, 5), (906, 6), (920, 40),
        (978, 1070)],
        ∃ i, i < p.2 ∧ x.testBit (p.1 + i) = true ∧ w = (p.1 + i) / 32 * 4
    let bad (w : Nat) : Prop :=
      reserved w ∨ w = 16 ∧ g.pptr % 16 ≠ 0 ∨ w = 24 ∧ 65536 < f 192 32 ∨
      w = 28 ∧ (f 224 2 = 3 ∨ f 240 4 = 0 ∨ f 236 4 < f 240 4 ∨ 8 < f 236 4 ∨ ¬ handler ∧ f 768 128 ≠ 0 ∨
        f 230 1 = 1 ∧ ∀ y, desc = some y → descBad y = true) ∨
      w = 32 ∧ (f 256 32 = 0 ∨ 2 ^ 32 ≤ blocks) ∨ w = 36 ∧ (f 288 16 = 0 ∨ f 304 16 = 0) ∨
      w = 40 ∧ (f 320 16 = 0 ∨ f 336 16 = 0 ∨ 1024 < threads) ∨ w = 44 ∧ f 352 16 = 0 ∨
      w = 48 ∧ (256 < f 384 9 ∨ 64 < f 393 7 ∨ 16 < f 400 5 ∨ 8 < f 405 4 ∨ f 493 10 ≠ 0 ∧ f 493 10 < static ∨
        f 503 4 < f 405 4 ∨ static < f 493 10 ∧ 192 < f 384 9) ∨
      w = 52 ∧ 393216 < f 416 19 ∨ w = 56 ∧ (f 448 16 % 4 ≠ 0 ∨ f 480 8 < f 464 8) ∨
      w = 60 ∧ (512 < f 493 10 ∨ 16 < f 488 5 ∨ 8 < f 503 4) ∨
      (∃ k, k < 8 ∧ w = 64 + 4 * k ∧ slotBad (f (512 + 32 * k) 32) = true) ∨
      (∃ k, k < 128 ∧ w = (768 + k) / 32 * 4 ∧ handler ∧ f (768 + k) 1 = 1 ∧ k ∉ faultCodes) ∨
      w = 120 ∧ (f 960 18 = 0 ∨ 131072 < f 960 18)
    let points (c : Nat) : Prop := c % 8 < 5 ∧ c / 8 % 2 ^ 17 < f 960 18
    let late := (s.gangTest g ++ if f 224 2 = 1 ∧ s.wholeGrid g = false then [28] else []).min?
    (∀ w, w ∈ reservedWords g desc ↔ bad w) ∧
    (∀ w, bad w → (∀ v, bad v → w ≤ v) → s.judge g desc = .refuse 0x02 w) ∧
    ((∀ w, ¬ bad w) →
      (f 64 48 % 64 ≠ 0 → s.judge g desc = .refuse 0x11 8) ∧
      (f 64 48 % 64 = 0 → ¬ points (f 0 32) → s.judge g desc = .refuse 0x04 0) ∧
      (f 64 48 % 64 = 0 → points (f 0 32) → handler → ¬ points (f 32 32) → s.judge g desc = .refuse 0x04 4) ∧
      (f 64 48 % 64 = 0 → points (f 0 32) → (handler → points (f 32 32)) →
        (∀ w, late = some w → s.judge g desc = .refuse 0x25 w) ∧ (late = none → s.judge g desc = .accept g)))) ∧
  (∀ (q : LaunchReq) (r : List LaunchReq) (s t : State),
    (s.launchHeads = [] → exec .launchValidation s = .next s) ∧
    (s.launchHeads = q :: r →
      (∀ code d, s.validate q = (.refuse code d, t) → exec .launchValidation s = .next (t.refuseLaunch q code d)) ∧
      (∀ g, s.validate q = (.accept g, t) → exec .launchValidation s = .next (t.acceptLaunch q g)) ∧
      (∀ p d, s.validate q = (.wait p d, t) → r = [] → exec .launchValidation s = .next (t.request q.ctx p false))) ∧
    ((q.bad = true ∨ q.recVa % 64 ≠ 0) → s.validate q = (.refuse 0x02 0, s)) ∧
    (q.bad = false → q.recVa % 64 = 0 → 2 ^ 48 < q.recVa + 256 → s.validate q = (.refuse 0x13 0, s))) ∧
  ∀ (q : LaunchReq) (g : Grid) (code : BitVec 8) (d : Nat) (s : State),
    let n := tnext s.grids
    let t := s.acceptLaunch q g
    let u := s.refuseLaunch q code d
    t.grid n = g ∧ t.admitQ = s.admitQ ++ [(g.slice, g.f 228 2, n)] ∧ t.launchQ = s.launchQ.erase q ∧
      (∀ w flag, q.child = some (w, flag) → (t.warp w).flag flag = (s.warp w).flag flag - 1) ∧
      (q.child = none → u.grids = s.grids ∧ u.launchQ = s.launchQ.erase q ∧ u.admitQ = s.admitQ ∧
        (2 ^ 48 < q.recVa + 120 → u.mem = s.mem ∧ u.parked = s.parked) ∧
        ∀ fn k, q.host = some (fn, k) → (u.fn fn).completions = (s.fn fn).completions ++ [(q.recVa, code, 2, k, q.ctx + 1)])

/-- R30, R32, R34, R40, R41, R47, R62, R242, R254, R255, R317 to R319: the distributor works on the oldest grid of the highest
priority, with the parameter image as it stands when the first gang is admitted; a gang goes to the first cluster with room, and
waits behind what the arbiter of the first has queued; a gated cluster wakes when no other has room for a gang that waits; a
dispatched block is resident, its existing threads live at `ENTRY`, its presets `b0` to `b2` in place and no other bounded
register valid; gating commits unless a block was handed over; a note goes to its function's ring; the Sander overwrites with zeros.  The model's choices: the order
of the Sander's checks (log entry 16), a gang taken between a gating request and its commit (log entry 47), and that a
distributor passes over the grids of a context that is saved, being saved or being restored (log entry 60). -/
def Obligations.LaunchAndDispatch : Prop :=
  (∀ (sl gid : Nat) (s t u : State),
    let runs (g : Nat) : Prop := (s.ctx (s.grid g).ctx).saving = false
    (s.sliceHead sl = none → exec (.gangAdmission sl) s = .next s ∧ exec (.concurrentAdmission sl) s = .next s) ∧
    (s.sliceHead sl = some gid →
      (∃ p a b, s.admitQ = a ++ (sl, p, gid) :: b ∧ runs gid ∧ (∀ g, (sl, p, g) ∈ a → ¬ runs g) ∧
        ∀ p' g, (sl, p', g) ∈ s.admitQ → p' < 4 → runs g → p' ≤ p) ∧
      ((s.grid gid).cls = 1 → exec (.gangAdmission sl) s = .next s) ∧
      ((s.grid gid).cls ≠ 1 → exec (.concurrentAdmission sl) s = .next s) ∧
      let e : Instr := if (s.grid gid).cls = 1 then .concurrentAdmission sl else .gangAdmission sl
      let admits (t : State) : Option State :=
        if (s.grid gid).cls = 1 then t.admitAll gid (t.grid gid).nblocks else t.admitGang gid
      let held := (s.grid gid).admitted = false ∧ s.statusParked (s.grid gid).ctx (s.grid gid).recVa = true
      (held → exec e s = .next s) ∧
      (∀ v, ¬ held → s.loadImage gid = (none, v) → exec e s = .next v) ∧
      ∀ v, ¬ held → s.loadImage gid = (some t, v) →
        (admits t = none → exec e s = .next (t.modGrid gid fun y => { y with image := (s.grid gid).image })) ∧
        (admits t = some u → exec e s = .next (u.afterAdmission gid)))) ∧
  (∀ (place : Nat → Option State) (c : Nat) (r : List Nat) (s t : State),
    s.tryClusters place [] = none ∧
    ((s.cluster c).queue ≠ [] → s.tryClusters place (c :: r) = some none) ∧
    ((s.cluster c).queue = [] → place c = some t → s.tryClusters place (c :: r) = some (some t)) ∧
    ((s.cluster c).queue = [] → place c = none → s.tryClusters place (c :: r) = s.tryClusters place r)) ∧
  (∀ (cl n : Nat) (r : List Nat) (s : State),
    let b := s.blk n
    let g := s.grid b.grid
    ((s.cluster cl).dispatchQ = [] → exec (.blockDispatch cl) s = .next s) ∧
    ((s.cluster cl).dispatchQ = n :: r → b.warps.Nodup →
      ∃ t, exec (.blockDispatch cl) s = .next t ∧ (t.cluster cl).dispatchQ = r ∧ (t.blk n).st = .resident ∧
        (∀ w, w ∉ b.warps → t.warp w = s.warp w) ∧ t.mem = s.mem ∧ t.plinth = s.plinth ∧ t.shared = s.shared ∧
        ∀ w ∈ b.warps,
          (t.warp w).quadrant < 4 ∧
          (∀ l, l < 32 → (t.warp w).th l = if 32 * (s.warp w).idx + l < g.threads then
            { st := .live, cp := .ofNat 32 (g.f 0 32), rcp := .ofNat 32 (g.f 0 32) } else {}) ∧
          (t.warp w).rb 0 =
            { ptr := .ofNat 32 b.shBase, base := .ofNat 32 b.shBase, limit := .ofNat 32 (b.shBase + g.f 416 19), space := 1
              r := true, w := true, a := true } ∧
          (g.psize ≠ 0 → (t.warp w).rb 2 =
            { ptr := .ofNat 32 b.paramBase, base := .ofNat 32 b.paramBase, limit := .ofNat 32 (b.paramBase + g.psize)
              space := 2, r := true }) ∧
          (g.psize = 0 → ((t.warp w).rb 2).space = 0) ∧
          (let us := (s.gang b.gang).blocks.flatMap fun p => ((s.blk p).units.filter (·.2)).map (·.1)
           (us = [] → ((t.warp w).rb 1).space = 0) ∧
           ∀ k ∈ us, (∀ j ∈ us, k ≤ j) → (t.warp w).rb 1 =
            let a := s.unitOff (clusterOf b.core) k
            { ptr := .ofNat 32 a, base := .ofNat 32 a, limit := .ofNat 32 (a + us.length * Config.unitBytes), space := 2
              r := true, w := true, a := true }) ∧
          (∀ j, 3 ≤ j → j < 16 → ((t.warp w).rb j).space = 0) ∧
          (t.warp w).v = (s.warp w).v ∧ (t.warp w).s = (s.warp w).s)) ∧
  (∀ (cl : Nat) (s : State),
    let c := s.cluster cl
    let idle := (∀ p ∈ s.blocks, clusterOf p.2.core = cl → p.2.holds = true → p.2.st = .saved) ∧ c.deferred = [] ∧
      c.queue = []
    let wanted := ∃ sl, sl < 8 ∧ s.sliceF sl cl 1 = 1 ∧
      ((∃ gid, s.sliceHead sl = some gid ∧ ((s.grid gid).cls ≠ 1 ∧ s.admitTry gid = none ∨
          (s.grid gid).cls = 1 ∧ s.admitAllTry gid (s.grid gid).nblocks = none)) ∨
        ∃ p ∈ s.gangs, p.2.st = .saved ∧ (s.ctx (s.grid p.2.grid).ctx).restoring = true ∧
          s.ctxSlice (s.grid p.2.grid).ctx = sl ∧ s.readmitTry p.1 = none)
    let becomes (e : Instr) (k : Cluster) : Prop := ∃ t, exec e s = .next t ∧ t = { s with clusters := t.clusters } ∧
      t.cluster cl = k ∧ ∀ j, j ≠ cl → t.cluster j = s.cluster j
    (idle → c.gate = .open → becomes (.gatingRequest cl) { c with gate := .requested, handed := false }) ∧
    (¬ (idle ∧ c.gate = .open) → exec (.gatingRequest cl) s = .next s) ∧
    (c.gate = .requested → c.handed = true → becomes (.gatingCommit cl) { c with gate := .open }) ∧
    (c.gate = .requested → c.handed = false → becomes (.gatingCommit cl) { c with gate := .gated }) ∧
    (c.gate ≠ .requested → exec (.gatingCommit cl) s = .next s) ∧
    (c.gate = .gated → wanted → becomes (.clusterWake cl) { c with gate := .open }) ∧
    (¬ (c.gate = .gated ∧ wanted) → exec (.clusterWake cl) s = .next s)) ∧
  (∀ (cl : Nat) (n : Note) (a b : List Note) (s : State),
    let f := s.fn n.fn
    let room (m : Note) : Prop :=
      (s.fn m.fn).nrlog ≠ 0 ∧ ((s.fn m.fn).nrtail - (s.fn m.fn).nrhead).toNat < 2 ^ (s.fn m.fn).nrlog
    ((∀ m ∈ (s.cluster cl).notes, ¬ room m) → exec (.hostnoteWrite cl) s = .next s) ∧
    ((s.cluster cl).notes = a ++ n :: b → (∀ m ∈ a, ¬ room m) → room n → n.words.length = 16 →
      ∃ t, exec (.hostnoteWrite cl) s = .next t ∧ (t.cluster cl).notes = a ++ b ∧
        (t.fn n.fn).nrtail = f.nrtail + 1 ∧ (t.fn n.fn).msix = f.msix ++ [2] ∧
        (t.warp n.warp).flag n.flag = (s.warp n.warp).flag n.flag - 1 ∧
        ∀ i, i < 16 → rdNat t.mem (f.nrbase.toNat + 64 * (f.nrtail.toNat % 2 ^ f.nrlog) + 4 * i) 4 =
          (n.words.getD i 0).toNat)) ∧
  (∀ (c : EngineCmd) (r : List EngineCmd) (s u : State),
    let w (i : Nat) : Nat := (c.words.getD i 0).toNat
    let base := w 2 + w 3 * 2 ^ 32
    let len := w 4 + w 5 * 2 ^ 32
    let t : State := { s with sanderQ := r }
    let formed := w 0 = 1 ∧ w 1 = 0 ∧ (∀ i, i < 10 → w (6 + i) = 0) ∧ w 3 < 2 ^ 16 ∧ len ≠ 0 ∧ len % 4096 = 0
    let ends (v : State) : Prop := exec .sanderOverwrite s = .next (v.modWarp c.warp fun y => y.flagDown c.flag [])
    let fails (v : State) (code : BitVec 8) (a : Nat) : Prop := ends (v.ctxLog
      { v.recOf c.warp 0x05 with code := code.toNat, pc := c.pc.toNat, ctx := c.ctx, addr := a })
    (s.sanderQ = [] → exec .sanderOverwrite s = .next s) ∧
    (s.sanderQ = c :: r →
      (¬ formed → fails t 0x02 base) ∧ (formed → base % 4096 ≠ 0 → fails t 0x11 base) ∧
      (formed → base % 4096 = 0 → 2 ^ 48 < base + len → fails t 0x10 base) ∧
      (formed → base % 4096 = 0 → base + len ≤ 2 ^ 48 →
        (t.sandPages c.ctx base (len / 4096) = (none, u) → ends u) ∧
        ∀ a, t.sandPages c.ctx base (len / 4096) = (some a, u) → fails u 0x13 a))) ∧
  ∀ (c va n pa : Nat) (s t : State),
    (s.xlate .sander c va true = (none, t) → s.sandPages c va (n + 1) = (some va, t)) ∧
    (s.xlate .sander c va true = (some pa, t) →
      s.sandPages c va (n + 1) = (t.zeroPhys pa 4096).sandPages c (va + 4096) n) ∧
    ∀ a, rdByte (s.zeroPhys pa 4096).mem a = if pa ≤ a ∧ a < pa + 4096 then 0 else rdByte s.mem a

/-! ### Rings, registers and pages -/

/-- R313 to R317, R349, R354, R373, R377, R379, R380: the rings of a function and the device log's counts: what the
doorbell, the reading of a launch entry, a completion and the driver's counts do, and when a write is ignored and logged; a
register without an event of its own takes its value and no other changes.  The model's choices: a disabled ring's counts (log
entry 17), the refusal of an unbound ring's entry (log entry 31), one effect for all writes of a register (log entry 62), the
widths of the registers (log entry 70), and the order in which the rings of a slice take turns (log entry 79). -/
def Obligations.HostRings : Prop :=
  (∀ (fn : Nat) (val : Word) (s : State),
    let f := s.fn fn
    let taken := s.dev.stage = 3 ∧ s.dev.tripped = false
    let fits (tail head : Word) (k : Nat) : Prop := (tail - head).toNat ≤ if k = 0 then 0 else 2 ^ k
    let ignored (off : Nat) : State := s.devLog { kind := 0x0A, addr := off, vf := fn }
    let sets (e : Instr) (g : Fn) : Prop := ∃ t, exec e s = .next t ∧ t = { s with fns := t.fns } ∧ t.fn fn = g ∧
      ∀ k, k ≠ fn → t.fn k = s.fn k
    (s.dev.stage ≠ 3 → exec (.lrtailDoorbell fn val) s = .next s) ∧
    (s.dev.stage = 3 → (s.dev.tripped = true ∨ ¬ fits val f.lrhead f.lrlog) →
      exec (.lrtailDoorbell fn val) s = .next (ignored 0x10C)) ∧
    (taken → fits val f.lrhead f.lrlog → sets (.lrtailDoorbell fn val) { f with lrtail := val }) ∧
    (¬ taken → ∀ off, exec (.ringHeadWrite fn off val) s = .next s) ∧
    (taken →
      (fits f.crtail val f.lrlog → sets (.ringHeadWrite fn 0x124 val) { f with crhead := val }) ∧
      (fits f.prtail val f.prlog → sets (.ringHeadWrite fn 0x150 val) { f with prhead := val }) ∧
      (fits f.nrtail val f.nrlog → sets (.ringHeadWrite fn 0x170 val) { f with nrhead := val }) ∧
      (¬ fits f.crtail val f.lrlog → exec (.ringHeadWrite fn 0x124 val) s = .next (ignored 0x124)) ∧
      (¬ fits f.prtail val f.prlog → exec (.ringHeadWrite fn 0x150 val) s = .next (ignored 0x150)) ∧
      (¬ fits f.nrtail val f.nrlog → exec (.ringHeadWrite fn 0x170 val) s = .next (ignored 0x170)))) ∧
  (∀ (fn : Nat) (s : State),
    let f := s.fn fn
    let taken := s.dev.stage = 3 ∧ s.dev.tripped = false
    let x := s.phys (f.lrbase.toNat + 64 * (f.lrhead.toNat % 2 ^ f.lrlog)) 64
    let w (i : Nat) : Nat := x / 2 ^ (32 * i) % 2 ^ 32
    let rec_ := x / 2 ^ 64 % 2 ^ 48
    let bad := w 0 ≠ 1 ∨ w 1 ≠ 0 ∨ x / 2 ^ 192 % 2 ^ 320 ≠ 0 ∨ 2 ^ 16 ≤ w 3 ∨ 2 ^ 16 ≤ w 5 ∨ rec_ % 64 ≠ 0 ∨ f.ctx = 0
    let holds (k : Nat) : Prop := (s.fn k).lrlog ≠ 0 ∧ (s.fn k).lrhead ≠ (s.fn k).lrtail
    let group (k : Nat) : Nat := if (s.fn k).ctx = 0 then 8 else s.ctxSlice ((s.fn k).ctx - 1)
    let after (k : Nat) : Nat := (k + 64 - tget 0 s.ringLast (group fn) % 64) % 64
    let turn := fn < 64 ∧ ∀ k, k < 64 → holds k → group k = group fn → after fn ≤ after k
    (¬ (taken ∧ holds fn ∧ turn) → exec (.launchEntryRead fn) s = .next s) ∧
    (taken → holds fn → turn →
      ∃ t, exec (.launchEntryRead fn) s = .next t ∧ (t.fn fn).lrhead = f.lrhead + 1 ∧ t.warps = s.warps ∧
        tget 0 t.ringLast (group fn) = fn + 1 ∧
        (bad → t.launchQ = s.launchQ ∧
          (t.fn fn).completions = f.completions ++ [(rec_, 0x02, 2, f.lrhead.toNat, 0)]) ∧
        (¬ bad → (t.fn fn).completions = f.completions ∧ t.launchQ = s.launchQ ++
          [{ ctx := f.ctx - 1, recVa := rec_, param := x / 2 ^ 128 % 2 ^ 48, depth := 0, priv := fn == 0
             host := some (fn, f.lrhead.toNat) }]))) ∧
  (∀ (fn rec_ st n ctx : Nat) (code : BitVec 8) (r : List (Nat × BitVec 8 × Nat × Nat × Nat)) (s : State),
    let f := s.fn fn
    let unseen := ctx ≠ 0 ∧ ∃ p ∈ s.parked, p.ctx = ctx - 1 ∧ ∃ va bs, p.kind = .write va bs .status ∧ rec_ ≤ va ∧ va < rec_ + 256
    let room := f.lrlog ≠ 0 ∧ (f.crtail - f.crhead).toNat < 2 ^ f.lrlog ∧ ¬ unseen
    (f.completions = [] → exec (.completionEntryWrite fn) s = .next s) ∧
    (f.completions = (rec_, code, st, n, ctx) :: r → ¬ room → exec (.completionEntryWrite fn) s = .next s) ∧
    (f.completions = (rec_, code, st, n, ctx) :: r → room → st < 4 →
      ∃ t, exec (.completionEntryWrite fn) s = .next t ∧
        rdNat t.mem (f.crbase.toNat + 16 * (f.crtail.toNat % 2 ^ f.lrlog)) 16 =
          rec_ % 2 ^ 48 + code.toNat * 2 ^ 48 + st * 2 ^ 56 + n % 2 ^ 16 * 2 ^ 64 ∧
        t.fn fn = { f with completions := r, crtail := f.crtail + 1, msix := f.msix ++ [0] } ∧ t.warps = s.warps)) ∧
  (∀ (val : Word) (s : State),
    let d := s.dev
    let full := d.stage = 3
    (¬ full → exec (.dlrdWrite val) s = .next s ∧ exec (.dlovfWrite val) s = .next s) ∧
    (full → (d.dlwr - val).toNat ≤ 4096 → exec (.dlrdWrite val) s = .next { s with dev := { d with dlrd := val } }) ∧
    (full → 4096 < (d.dlwr - val).toNat →
      exec (.dlrdWrite val) s = .next { s with dev := { d with dlovf := d.dlovf ||| 0x80000000 } }) ∧
    (full → val = 0 → exec (.dlovfWrite val) s = .next { s with dev := { d with dlovf := 0 } }) ∧
    (full → val ≠ 0 → exec (.dlovfWrite val) s = .next (s.devLog { kind := 0x0A, addr := 0x310 }))) ∧
  ∀ (fn off bar : Nat) (val : BitVec 64) (s : State),
    let f := s.fn fn
    let v := val.toNat
    let low := v % 2 ^ 32
    let taken := s.dev.stage = 3 ∧ s.dev.tripped = false
    let writes : State → Prop := fun t => exec (.registerWrite fn bar off val) s = .next t
    let logged (k : Nat) : State := s.devLog { kind := 0x0A, addr := off, vf := k }
    let becomes (g : Fn) : Prop := ∃ t, writes t ∧ t = { s with fns := t.fns } ∧ t.fn fn = g
    let idle := f.lrhead = f.lrtail
    let base := v % 2 ^ 12 = 0 ∧ v < 2 ^ 48
    ((64 ≤ fn ∨ bar ≠ 0 ∧ bar ≠ 2 ∨ bar = 2 ∧ fn ≠ 0) → writes s) ∧
    (fn < 64 → bar = 0 → taken →
      (off = 0x100 → base → idle → becomes { f with lrbase := val }) ∧ (off = 0x100 → ¬ (base ∧ idle) → writes (logged fn)) ∧
      (off = 0x108 → (low = 0 ∨ 4 ≤ low ∧ low ≤ 16) → idle → becomes { f with lrlog := low }) ∧
      (off = 0x108 → ¬ ((low = 0 ∨ 4 ≤ low ∧ low ≤ 16) ∧ idle) → writes (logged fn)) ∧
      (off = 0x118 → base → becomes { f with crbase := val }) ∧ (off = 0x118 → ¬ base → writes (logged fn)) ∧
      (off = 0x140 → base → becomes { f with prbase := val }) ∧ (off = 0x140 → ¬ base → writes (logged fn)) ∧
      (off = 0x148 → (low = 0 ∨ 4 ≤ low ∧ low ≤ 12) → becomes { f with prlog := low }) ∧
      (off = 0x148 → ¬ (low = 0 ∨ 4 ≤ low ∧ low ≤ 12) → writes (logged fn)) ∧
      (off = 0x160 → base → becomes { f with nrbase := val }) ∧ (off = 0x160 → ¬ base → writes (logged fn)) ∧
      (off = 0x168 → (low = 0 ∨ 4 ≤ low ∧ low ≤ 12) → becomes { f with nrlog := low }) ∧
      (off = 0x168 → ¬ (low = 0 ∨ 4 ≤ low ∧ low ≤ 12) → writes (logged fn))) ∧
    (fn < 64 → bar = 0 → ∀ e, (off, e) ∈ [(0x10C, Instr.lrtailDoorbell fn (val.setWidth 32)),
        (0x124, .ringHeadWrite fn 0x124 (val.setWidth 32)), (0x150, .ringHeadWrite fn 0x150 (val.setWidth 32)),
        (0x170, .ringHeadWrite fn 0x170 (val.setWidth 32)), (0x158, .pageRequestReply fn (val.setWidth 32))] →
      exec (.registerWrite fn bar off val) s = exec e s) ∧
    (fn = 0 → bar = 0 → taken →
      (off = 0x200 → writes { s with dev := { s.dev with invva := val } }) ∧
      (off = 0x208 → writes { s with dev := { s.dev with invcnt := val.setWidth 32 } })) ∧
    (fn = 0 → bar = 2 → taken → ∀ d, (off, d) ∈ [(0x200, { s.dev with ksaddr := val }), (0x220, { s.dev with atnonce := val }),
        (0x240, { s.dev with tdlist := val }), (0x248, { s.dev with tdcnt := val.setWidth 32 })] →
      writes { s with dev := d })

/-- R324 to R332, R373: page requests, replies and replay.  The first request of a function that has no tag, or is to be
reported stalled, goes to its ring with the lowest free tag; a reply finds its request by tag, and is ignored for a context whose
teardown is pending; what waits on a page is replayed or ended, the table walked again, and each access counts its own re-faults; the host's invalidation marks, confirms and is done once no copy write to a peer made
under a marked translation is in flight.  The model's choices: the lowest free tag (log entry 15), when an invalidation is done
(log entry 39), what is counted without being parked and what asks again instead (log entry 61), what a stopped block still waits
for (log entry 12), and commands of one register (log entry 62). -/
def Obligations.PageRequests : Prop :=
  (∀ (fn : Nat) (q : PageReq) (s : State),
    let f := s.fn fn
    let room := f.prlog ≠ 0 ∧ (f.prtail - f.prhead).toNat < 2 ^ f.prlog
    let next := s.pageReqs.find? fun q => q.fn == fn && (q.tag.isNone && (s.freeTag fn).isSome || q.stalled)
    let ps := s.parked.filter fun p => p.ctx == q.ctx && p.page == q.page
    let wr : Bool := ps.any (fun p => match p.kind with | .copyRead _ _ _ => false | _ => true) ||
      (s.threadsFor q.ctx q.page).any (fun t => match t.st with | .blocked (.page _ _ w) => w | _ => false) ||
      (s.asksFor q.ctx q.page).any (·.wr) ||
      q.wr && (s.cycles.any (fun y => y.ctx == q.ctx) || s.jointerQ.any fun k => k.ctx == q.ctx)
    let entry (kind tag : Nat) : Nat :=
      q.page % 2 ^ 48 + wr.toNat * 2 ^ 48 + kind * 2 ^ 56 + tag * 2 ^ 64 + q.ctx * 2 ^ 96 + q.rcnt * 2 ^ 106
    let writes (kind tag : Nat) : Prop := ∃ t, exec (.pageRequestWrite fn) s = .next t ∧
      rdNat t.mem (f.prbase.toNat + 32 * (f.prtail.toNat % 2 ^ f.prlog)) 32 = entry kind tag % 2 ^ 256 ∧
      t.fn fn = { f with prtail := f.prtail + 1, msix := f.msix ++ [1] } ∧ t.warps = s.warps ∧
      t.pageReqs = s.pageReqs.map fun y => if y.ctx = q.ctx ∧ y.page = q.page then
        (if kind = 1 then { y with tag := some tag } else { y with stalled := false }) else y
    ((¬ room ∨ next = none) → exec (.pageRequestWrite fn) s = .next s) ∧
    (room → next = some q →
      (∀ k, q.tag = some k → writes 2 k) ∧
      (∀ k, q.tag = none → s.freeTag fn = some k → writes 1 k)) ∧
    (∀ k, s.freeTag fn = some k → (∀ y ∈ s.pageReqs, y.fn = fn → y.tag ≠ some k) ∧
      ∀ j, j < k → ∃ y ∈ s.pageReqs, y.fn = fn ∧ y.tag = some j)) ∧
  (∀ (fn : Nat) (val : Word) (q : PageReq) (s : State),
    let x := val.toNat
    let ignored : State := s.devLog { kind := 0x0A, addr := 0x158, vf := fn }
    let named := s.pageReqs.find? fun q => q.fn == fn && q.tag == some (x % 2 ^ 16)
    let held := s.stopped q.ctx = true ∨ s.pageHeld q.ctx q.page = true
    let replies (t : State) : Prop := exec (.pageRequestReply fn val) s = .next t
    (s.dev.stage ≠ 3 → replies s) ∧
    (s.dev.stage = 3 → (s.dev.tripped = true ∨ 2 ≤ x / 2 ^ 16 ∨ named = none) → replies ignored) ∧
    (s.dev.stage = 3 → s.dev.tripped = false → x / 2 ^ 16 < 2 → named = some q → (∃ k ∈ s.scrubs, k.ctx = q.ctx) →
      replies ignored) ∧
    (s.dev.stage = 3 → s.dev.tripped = false → named = some q → (∀ k ∈ s.scrubs, k.ctx ≠ q.ctx) →
      (x / 2 ^ 16 = 0 → ¬ held → replies (s.replayPage q.ctx q.page true).endAllStopped) ∧
      (x / 2 ^ 16 = 0 → held → replies (s.replayHeld q.ctx q.page true).endAllStopped) ∧
      (x / 2 ^ 16 = 1 → ¬ held → replies (s.dropPage q.ctx q.page).endAllStopped) ∧
      (x / 2 ^ 16 = 1 → held → replies ((s.dropAccepted q.ctx q.page).modReq q.ctx q.page fun y =>
        { y with replied := some false })))) ∧
  (∀ (ctx page : Nat) (q : PageReq) (s : State),
    let named := s.pageReqs.find? fun q => q.ctx == ctx && q.page == page
    let held := s.stopped ctx = true ∨ s.pageHeld ctx page = true
    let walks (t : State) : Prop := exec (.replayRewalk ctx page) s = .next t
    (named = none → walks s) ∧ (named = some q → q.rewalk = false → walks s) ∧
    (named = some q → q.rewalk = true → held → walks (s.replayHeld ctx page false).endAllStopped) ∧
    (named = some q → q.rewalk = true → ¬ held → walks (s.replayPage ctx page false).endAllStopped)) ∧
  (∀ (c page : Nat) (reply left later : Bool) (s t u : State),
    let due (r : Nat) : Bool := reply || r == 1 || r == 2
    let again (r : Nat) : Nat := if 3 ≤ r then 1 else r + 1
    let request (v : State) (y : PageReq) : Prop := y ∈ v.pageReqs ∧ y.ctx = c ∧ y.page = page
    let stands (l : List Nat) (y : PageReq) : Prop := (∀ r ∈ l, r ≤ y.rcnt) ∧ (l ≠ [] → y.rcnt ∈ l) ∧
      (y.rewalk = true ↔ 1 ∈ l ∨ 2 ∈ l) ∧ (reply = true → (∃ r ∈ l, 3 ≤ r) → y.stalled = true)
    (s.walkPage due c page = (left, t) → t.walkPage (· == 0) c page = (later, u) →
      let v := if left then t else u
      (v.waitCounts c page = [] → ∀ y, ¬ request (s.replayPage c page reply) y) ∧
      (v.waitCounts c page ≠ [] → ∀ y, request (s.replayPage c page reply) y → stands (v.waitCounts c page) y)) ∧
    ((s.forget c page).wakeOps due c page = (left, t) → t.walkAccepted due c page = (later, u) →
      ∀ y, request (s.replayHeld c page reply) y →
        stands (u.acceptedCounts c page) y ∧ (reply = true → y.replied = some true)) ∧
    (∀ p, (s.unpark p).replayOne p = (none, t) →
      s.replayAll [p] = (1, { t with parked := s.parked.replace p { p with rcnt := again p.rcnt } })) ∧
    (∀ p v, (s.unpark p).replayOne p = (some v, t) → s.replayAll [p] = (0, v)) ∧
    (∀ (w l va : Nat) (k : Cause), l < 32 → ((s.warp w).th l).waitsPage c page = some (va, k) →
      due ((s.warp w).th l).rcnt = true →
      let x := (s.wakePage due w c page).2.warp w
      (s.pageServes w c page k = false → x.th l = { (s.warp w).th l with rcnt := again ((s.warp w).th l).rcnt }) ∧
      (s.pageServes w c page k = true → (s.warp w).inHandler = false → x.th l = { (s.warp w).th l with st := .live, rcnt := 0 })) ∧
    ((∀ p ∈ s.blocks, p.2.stopped = false) → s.endAllStopped = s)) ∧
  (∀ (p : Parked) (va : Nat) (bytes : List (Nat × Byte)) (s t : State),
    (p.kind = .write va bytes .store ∨ p.kind = .write va bytes .heap ∨ p.kind = .write va bytes .unmap) →
      s.vwrite p.unit p.ctx p.page 4096 (bytes.map fun q => (va + q.1 - p.page, q.2)) = (.ok (), t) →
      s.replayOne p = (some t, t)) ∧
  (∀ (p : Parked) (i chunk key opc lane : Nat) (ty : Ty) (c : DWord) (cmp : Option DWord) (dst : Opd) (s : State),
    p.kind = .localAtomic i chunk key opc ty c cmp dst lane → tfind s.windows i ≠ none → chunk ∈ (s.window i).filled →
      let old := rdNat s.plinth key ty.bytes
      let new := atomStep opc ty (cmp.map (·.toNat)) c.toNat old
      ∃ t u, s.replayOne p = (some t, u) ∧ t.warp p.warp = (s.warp p.warp).wopd dst ty.regs lane old ∧ t.mem = s.mem ∧
        (∀ v, new = some v → rdNat t.plinth key ty.bytes = v % 256 ^ ty.bytes) ∧ (new = none → t.plinth = s.plinth)) ∧
  ∀ (val : Word) (confirm : Bool) (c : Nat) (s : State),
    let d := s.dev
    let x := val.toNat
    let taken := d.stage = 3 ∧ d.tripped = false
    let size : Nat := match d.invva.toNat / 2 ^ 48 % 4 with | 0 => 2 ^ 12 | 1 => 2 ^ 16 | 2 => 2 ^ 21 | _ => 2 ^ 30
    let base := d.invva.toNat % 2 ^ 48
    let n := d.invcnt.toNat
    let formed := x / 2 ^ 10 % 2 ^ 6 = 0 ∧ x / 2 ^ 18 = 0
    let range := base % size = 0 ∧ 1 ≤ n ∧ n ≤ 1048576 ∧ d.invva.toNat / 2 ^ 50 = 0 ∧ base + size * n ≤ 2 ^ 48
    let goes (i : Instr) (t : State) (confirm : Bool) : Prop := exec i s = .next
      { t with dev := { t.dev with invBusy := true, invErr := false, invCmd := some (confirm, x % 2 ^ 10) } }
    (∀ i ∈ [Instr.invMarkCommand val, .invConfirmCommand val],
      (¬ taken → exec i s = .next s) ∧
      (taken → d.invBusy = true → exec i s = .next (s.devLog { kind := 0x0A, addr := 0x20C })) ∧
      (taken → d.invBusy = false → (¬ formed ∨ x / 2 ^ 16 % 4 = 0 ∨ x / 2 ^ 16 % 4 = 3 ∨ x / 2 ^ 16 % 4 = 1 ∧ ¬ range) →
        exec i s = .next { s with dev := { d with invErr := true } }) ∧
      (taken → d.invBusy = false → formed → x / 2 ^ 16 % 4 = 1 → range →
        goes i (s.invMark (x % 2 ^ 10) base (size * n)) false) ∧
      (taken → d.invBusy = false → formed → x / 2 ^ 16 % 4 = 2 → goes i s true)) ∧
    let unseen (p : PeerReq) : Prop := p.write = true ∧ p.marked = true ∧ p.expired = false ∧ p.ctx = c
    let inFlight := (∃ h ∈ s.chans, ∃ k ∈ h.2.queue, ∃ p ∈ k.peers, unseen p) ∨ ∃ q ∈ s.peerLate, unseen q.2
    let waits := d.tripped = true ∨ confirm = true ∧ inFlight
    (d.invCmd = none → exec .invalidationDone s = .next s) ∧
    (d.invCmd = some (confirm, c) → waits → exec .invalidationDone s = .next s) ∧
    (d.invCmd = some (confirm, c) → ¬ waits →
      ∃ t, exec .invalidationDone s = .next t ∧ t.dev = { d with invBusy := false, invCmd := none } ∧
        (confirm = false → t.tlb = s.tlb) ∧ (confirm = true → ∀ e ∈ t.tlb, ¬ (e.ctx = c ∧ e.draining = true)))

/-! ### Pre-emption and tenants -/

/-- R57, R123, R334 to R340: saving and restoring a context.  A save stops its warps, changes no register of theirs, and is
complete only once its operations are; only the flags of a flush that is issued again fall; the image of a block holds its
shared memory; a gang returns to a cluster of its context's slice with room, with its registers as they were.  The model's
choices: the bytes of the image in the save area are free values and a flush whose lanes still start their region before it is
the one issued again (log entry 63), where a gang may return to and when replies are acted on (log entry 64), what a saved block
that was stopped waits for (log entry 12), what a record on a retired channel reads (log entry 80), and one effect for all writes of a command register (log entry 62). -/
def Obligations.Preemption : Prop :=
  let again (s : State) (n : Nat) (o : AsyncOp) : Prop :=
    (∃ rest, o.kind = .wflush rest ∧ (rest ≠ [] ∨ s.flushParked n = true)) ∧
      ∀ q ∈ o.starts, ((s.warp o.warp).th q.1).present = true ∧ ((s.warp o.warp).th q.1).rcp = q.2
  (∀ (val : Word) (s : State),
    let x := val.toNat
    let c := x % 2 ^ 10
    let d := s.dev
    let taken := d.stage = 3 ∧ d.tripped = false
    let formed := x / 2 ^ 10 % 2 ^ 6 = 0 ∧ x / 2 ^ 18 = 0
    let op := x / 2 ^ 16 % 4
    let refused : State := { s with dev := { d with ctxErr := true } }
    ∀ i ∈ [Instr.contextSave val, .contextRestore val],
      (¬ taken → exec i s = .next s) ∧
      (taken → d.ctxBusy = true → exec i s = .next (s.devLog { kind := 0x0A, addr := 0x300 })) ∧
      (taken → d.ctxBusy = false → (¬ formed ∨ op = 0 ∨ op = 3) → exec i s = .next refused) ∧
      (taken → d.ctxBusy = false → formed → op = 1 →
        ((s.ctxState c ≠ 1 ∨ s.ctxF c 160 32 * 4096 < s.imageBytes c) → exec i s = .next refused) ∧
        (s.ctxState c = 1 → s.imageBytes c ≤ s.ctxF c 160 32 * 4096 →
          ∃ t, exec i s = .next t ∧ ((∀ i, i < 256 → s.lostChan (s.ctxAddr c + i) = false) → t.ctxState c = 3) ∧ t.stopped c = true ∧ (∀ w, s.wctx w = c → t.mayIssue w = false) ∧
            t.dev = { d with ctxBusy := true, ctxErr := false, ctxAbandoned := false } ∧ t.blocks = s.blocks ∧
            t.shared = s.shared ∧ t.plinth = s.plinth ∧ t.tiles = s.tiles ∧
            (∀ w, (∀ o ∈ s.ops, o.2.warp = w → s.wctx w = c → ¬ again s o.1 o.2) → (t.warp w).flags = (s.warp w).flags) ∧
            ∀ w, (t.warp w).v = (s.warp w).v ∧ (t.warp w).s = (s.warp w).s ∧ (t.warp w).p = (s.warp w).p ∧
              (t.warp w).m = (s.warp w).m ∧ (t.warp w).h = (s.warp w).h ∧ (t.warp w).b = (s.warp w).b ∧
              (t.warp w).c = (s.warp w).c ∧ (t.warp w).frec = (s.warp w).frec ∧
              (t.warp w).mctl = (s.warp w).mctl ∧ (t.warp w).mstat = (s.warp w).mstat)) ∧
      (taken → d.ctxBusy = false → formed → op = 2 →
        (s.ctxState c ≠ 2 → exec i s = .next refused) ∧
        (s.ctxState c = 2 → exec i s = .next
          (((({ s.setCtxState c 3 with dev := { d with ctxBusy := true, ctxErr := false, ctxAbandoned := false } }.reslice
            c).modCtx c fun y => { y with saving := true, restoring := true }).replies c).restoreEnd c)))) ∧
  (∀ (c : Nat) (s : State),
    let y := s.ctx c
    let ready := s.dev.ctxBusy = true ∧ y.saving = true ∧ y.restoring = false ∧ s.ctxState c = 3 ∧ s.settled c = true
    let gs := s.ctxGangs c
    (¬ ready → exec (.contextSaveComplete c) s = .next s) ∧
    (ready → exec (.contextSaveComplete c) s = .next ((gs.foldl (fun t g => t.saveGang g) (s.writeImage c)).setCtxState c
      2).ctxDone) ∧
    (let lo := s.ctxF c 88 40 * 4096
     (∀ i, i < s.imageBytes c → rdByte (s.writeImage c).mem (lo + i) = Config.imageByte s.time i) ∧
      ∀ a, (a < lo ∨ lo + s.imageBytes c ≤ a) →
        (∀ i, i < s.imageBytes c → (lo + i) / 64 = a / 64 → s.readsPlain c (lo + i) = true) →
        rdByte (s.writeImage c).mem a = rdByte s.mem a)) ∧
  (∀ (g : Nat) (s : State),
    let k := s.gang g
    let t := s.saveGang g
    k.blocks.Nodup →
      t.gang g = { k with st := .saved } ∧ t.warps = s.warps ∧ t.mem = s.mem ∧
        (t.cluster k.cluster).queue = (s.cluster k.cluster).queue ++ [.release g k.alloc true] ∧
        (∀ b ∈ k.blocks, (s.blk b).holds = true → (t.blk b).st = .saved ∧ (t.blk b).warps = (s.blk b).warps ∧
          ∀ n ∈ (s.blk b).chans, t.chan n = {}) ∧
        ∀ b, b ∉ k.blocks → t.blk b = s.blk b) ∧
  (∀ (b : Nat) (s : State),
    let k := s.blk b
    let n := (s.grid k.grid).f 416 19
    ∀ i, i < n →
      rdByte (s.imageOf b).shared i = rdByte s.shared (k.core * 2 ^ 19 + k.shBase + i) ∧
        ∀ img m, k.img = some img → Memory.wf img.shared = true →
          rdByte (s.loadImg b m).shared (k.core * 2 ^ 19 + k.shBase + i) = rdByte img.shared i) ∧
  (∀ (c : Nat) (s : State) (p : Nat × Grid), p ∈ (s.reslice c).grids → p.2.ctx = c →
    p.2.slice = s.ctxSlice c ∧ p.2.vf = s.ctxVf c) ∧
  ∀ (g c : Nat) (s t : State),
    let x := s.grid (s.gang g).grid
    let returns := (s.gang g).st = .saved ∧ (s.ctx x.ctx).restoring = true ∧ (s.gang g).claim = []
    let room := (s.tryClusters (s.placeSaved g) (s.liveClusters (s.ctxSlice x.ctx))).join
    (¬ returns → exec (.gangReadmission g) s = .next s) ∧
    (returns → room = none → exec (.gangReadmission g) s = .next s) ∧
    (returns → room = some t → exec (.gangReadmission g) s = .next ((t.replies x.ctx).restoreEnd x.ctx).endAllStopped) ∧
    (s.placeSaved g c = some t → (t.gang g).st = .resident ∧ (t.gang g).cluster = c ∧
      ∀ w, (t.warp w).v = (s.warp w).v ∧ (t.warp w).s = (s.warp w).s ∧ (t.warp w).p = (s.warp w).p ∧
        (t.warp w).m = (s.warp w).m ∧ (t.warp w).h = (s.warp w).h ∧ (t.warp w).flags = (s.warp w).flags ∧
        (t.warp w).frec = (s.warp w).frec ∧ (t.warp w).mctl = (s.warp w).mctl)

/-- R341, R348, R359 to R369: slices, retirement, keys, attestation, teardown and resets.  An accepted descriptor meets the
conditions of R361, and lays its clusters' scratch pools apart; keys of a context are zeroised and quarantined at teardown and
gone after its scrub, which leaves zeros in the memories it used; every host launch the context takes with it completes, with its
grid's code or one of R184's; what lay
under a key that is gone, in a fundamental reset too, or on a retired channel, has free values.  The model's choices: the order of the descriptor's checks
(log entry 18), the layout of the pools and the completions' free code (log entries 11 and 12), what a function-level and a
fundamental reset leave (log entries 20 and 21), commands of one register (log entry 62), and the edges of retirement, keys and
scrubs (log entries 19, 65, 73 and 80). -/
def Obligations.Tenancy : Prop :=
  (∀ (n : Nat) (x : BitVec 256) (s : State),
    let d := s.dev
    let taken := d.stage = 3 ∧ d.tripped = false ∧ n < 8
    let y := x.toNat
    let f (lo w : Nat) : Nat := y / 2 ^ lo % 2 ^ w
    let valid := f 192 1 = 1
    (¬ taken → exec (.sliceDescriptorWrite n x) s = .next s) ∧
    (∀ e, taken → s.sliceFault n x = some e →
      exec (.sliceDescriptorWrite n x) s = .next { s with dev := { d with sliceErr := true, ecode := .ofNat 4 e } }) ∧
    (taken → s.sliceFault n x = none → ∃ t, exec (.sliceDescriptorWrite n x) s = .next t ∧
      t = { s with dev := t.dev, clusters := t.clusters } ∧
      (∀ c, t.cluster c = { s.cluster c with pool := (t.cluster c).pool }) ∧
      (∀ c, ¬ (valid ∧ c < 48 ∧ f c 1 = 1) →
        (t.cluster c).pool = if c ∈ s.sliceClusters n then some [] else (s.cluster c).pool) ∧
      (∀ c, c < 48 → valid → f c 1 = 1 → ∃ l, (t.cluster c).pool = some l ∧ l.length ≤ f 128 8) ∧
      (∀ a b l m, a < 48 → b < 48 → a ≠ b → valid → f a 1 = 1 → f b 1 = 1 → s.chipOf a = s.chipOf b →
        (t.cluster a).pool = some l → (t.cluster b).pool = some m → ∀ p ∈ l, p < 12 * d.scru ∧ p ∉ m) ∧
      tget 0 t.dev.slices n = .ofNat 256 (y - f 193 1 * 2 ^ 193) ∧ tget 0 t.dev.sliceNum n = f 0 48 ∧
      t.dev.sliceErr = false ∧ t.dev.ecode = 0 ∧ ∀ k, k ≠ n → tget 0 t.dev.slices k = tget 0 d.slices k) ∧
    (n < 8 → s.sliceFault n x = none →
      f 194 62 = 0 ∧ f 146 6 = 0 ∧ f 112 8 = 0 ∧ f 46 2 = 0 ∧ f 48 16 ≤ f 64 16 ∧ f 80 16 ≤ f 96 16 ∧ f 120 8 ≤ f 128 8 ∧
        f 136 5 ≤ f 141 5 ∧ f 160 16 ≤ f 176 16 ∧ (valid → 1 ≤ f 141 5 ∧ f 141 5 ≤ 16) ∧
        (∀ c, c < 48 → f c 1 = 1 → (s.cluster c).retired = false ∧
          ∀ k, k < 8 → k ≠ n → (tget 0 d.slices k).getLsbD 192 = true → (tget 0 d.slices k).getLsbD c = false) ∧
        ∀ c, c < 1024 → s.ctxSlice c = n → s.ctxState c = 0)) ∧
  (∀ (val : Word) (s : State),
    let x := val.toNat
    let d := s.dev
    let taken := d.stage = 3 ∧ d.tripped = false
    let kind := x % 2 ^ 8
    let i := x / 2 ^ 8 % 2 ^ 8
    let n := x / 2 ^ 16 % 8
    let refused : State := { s with dev := { d with retErr := true, retBelow := false } }
    let named := ((List.range 48).filter fun c => bits (tget 0 d.sliceNum n) c 1 == 1)[i]?
    let idle (c : Nat) : Prop := (tget 0 d.slices n).getLsbD 192 = true ∧ (s.cluster c).retired = false ∧ s.clusterBusy c = false
    ∀ e ∈ [Instr.retireCluster val, .retireMemoryChannel val],
      (¬ taken → exec e s = .next s) ∧
      (taken → (x / 2 ^ 19 ≠ 0 ∨ kind ≠ 1 ∧ kind ≠ 2) → exec e s = .next refused) ∧
      (taken → kind = 1 → (∀ c, named = some c → ¬ idle c) → exec e s = .next refused) ∧
      (∀ c, taken → x / 2 ^ 19 = 0 → kind = 1 → named = some c → idle c → ∃ t, exec e s = .next t ∧
        t.cluster c = { s.cluster c with retired := true } ∧ (tget 0 t.dev.slices n).getLsbD c = false ∧ t.dev.retErr = false) ∧
      (taken → kind = 2 → (128 ≤ i ∨ d.retiredChans.contains i = true) → exec e s = .next refused) ∧
      (taken → x / 2 ^ 19 = 0 → kind = 2 → i < 128 → d.retiredChans.contains i = false → ∃ t, exec e s = .next t ∧
        i ∈ t.dev.retiredChans ∧ t.dev.retErr = false ∧ t.clusters = s.clusters)) ∧
  (∀ (i : Nat) (s : State),
    let t := s.loseChannel i
    t = { s with mem := t.mem } ∧ ∀ a, rdByte t.mem a =
      if Config.memChannel a = some i ∧ ∃ x, (a, x) ∈ s.mem then Config.garbled s.time a else rdByte s.mem a) ∧
  (∀ (a : Nat) (s : State), s.byteAt a =
    if ∃ i ∈ s.dev.retiredChans, Config.memChannel a = some i then Config.garbled s.time a else rdByte s.mem a) ∧
  (∀ (c : Nat) (chips : Nat → Bool) (s : State),
    let t := s.garble c chips
    let saved (b : Nat) : Prop := b ∈ s.ctxBlocks c ∧ (s.blk b).st = .saved
    let lay (a : Nat) : Prop :=
      (∃ q ∈ s.memCtx, q.2 = c + 1 ∧ q.1 = a / 64) ∧ ∃ k, Config.memChannel a = some k ∧ chips (k / 32) = true
    let held (a : Nat) : Prop := ∃ q ∈ s.ownedSpans c, chips (q.1 / 2 ^ 31) = true ∧ q.1 ≤ a ∧ a < q.1 + q.2
    t = { s with mem := t.mem, plinth := t.plinth, blocks := t.blocks, warps := t.warps } ∧
      (∀ b m, saved b → (t.blk b).img = some m → ∀ i, i < (s.grid (s.blk b).grid).f 416 19 →
        rdByte m.shared i = Config.garbled s.time (2 ^ 61 + b * 2 ^ 40 + i)) ∧
      (∀ b, ¬ saved b → t.blk b = s.blk b) ∧
      (∀ b w r l, saved b → w ∈ (s.blk b).warps → r < 256 → l < 32 →
        (t.warp w).rv r l = .ofNat 32 (s.lost (2 ^ 62 + w * 2 ^ 32 + 4 * (32 * r + l)) 4)) ∧
      (∀ w, (∀ b, saved b → w ∉ (s.blk b).warps) → t.warp w = s.warp w) ∧
      (∀ a, lay a → rdByte t.mem a = Config.garbled s.time a) ∧ (∀ a, ¬ lay a → rdByte t.mem a = rdByte s.mem a) ∧
      (∀ a, held a → rdByte t.plinth a = Config.garbled s.time (2 ^ 60 + a)) ∧
      ∀ a, ¬ held a → rdByte t.plinth a = rdByte s.plinth a) ∧
  (∀ (val : Word) (s : State),
    let x := val.toNat
    let d := s.dev
    let taken := d.stage = 3 ∧ d.tripped = false
    let c := x % 2 ^ 10
    let slot := x / 2 ^ 10 % 2 ^ 6
    let chip := x / 2 ^ 16 % 4
    let ix := 64 * chip + slot
    let install := x / 2 ^ 30 % 2 = 1
    let load := x / 2 ^ 31 % 2 = 1
    let reserved := x / 2 ^ 18 % 2 ^ 12 ≠ 0
    let failed : State := { s with dev := { d with ksErr := true } }
    let mine := ∀ y, tfind s.keys ix = some y → y.ctx = c ∧ y.quarantined = false
    ∀ e ∈ [Instr.keySlotLoad val, .keySlotZeroise val, .transportKeyInstall val],
      (¬ taken → exec e s = .next s) ∧ (taken → reserved → exec e s = .next failed) ∧
      (taken → ¬ reserved → install →
        ((s.ctx c).decap = none → exec e s = .next failed) ∧
        (∀ id, (s.ctx c).decap = some id → Config.mlkemDecap id (s.phys d.ksaddr.toNat 1568) = none →
          exec e s = .next failed) ∧
        ∀ id k, (s.ctx c).decap = some id → Config.mlkemDecap id (s.phys d.ksaddr.toNat 1568) = some k →
          ∃ t, exec e s = .next t ∧ (t.ctx c).transport = some k ∧ (t.ctx c).decap = none ∧ t.dev.ksErr = false ∧
            t.keys = s.keys) ∧
      (taken → ¬ reserved → ¬ install → load →
        (((s.ctx c).transport = none ∨ ¬ mine) → exec e s = .next failed) ∧
        (∀ k, (s.ctx c).transport = some k → Config.keyUnwrap k (.ofNat 576 (s.phys d.ksaddr.toNat 72)) = none →
          exec e s = .next failed) ∧
        ∀ k key, (s.ctx c).transport = some k → mine →
          Config.keyUnwrap k (.ofNat 576 (s.phys d.ksaddr.toNat 72)) = some key →
          let old := (s.keySlot c chip).bind fun n => tfind s.keys (64 * chip + n)
          let u := if ∃ y, old = some y ∧ y.key ≠ key then s.garble c (· == chip) else s
          ∃ t, exec e s = .next t ∧ tfind t.keys ix = some { ctx := c, key := key } ∧ t.keySlot c chip = some slot ∧
            t.dev.ksErr = false ∧ t.mem = u.mem ∧ t.plinth = u.plinth ∧ t.blocks = u.blocks ∧ t.warps = u.warps) ∧
      (taken → ¬ reserved → ¬ install → ¬ load →
        (¬ mine → exec e s = .next failed) ∧
        (tfind s.keys ix = none → exec e s = .next { s with dev := { d with ksErr := false } }) ∧
        ∀ y, tfind s.keys ix = some y → mine → ∃ t, exec e s = .next t ∧ tfind t.keys ix = none ∧
          t.keySlot c chip = none ∧ t.dev.ksErr = false ∧
          let u := s.garble c (· == chip)
          t.mem = u.mem ∧ t.plinth = u.plinth ∧ t.blocks = u.blocks ∧ t.warps = u.warps)) ∧
  (∀ (val : Word) (s : State),
    let x := val.toNat
    let d := s.dev
    let taken := d.stage = 3 ∧ d.tripped = false
    let c := x % 2 ^ 10
    let reserved := x / 2 ^ 10 % 2 ^ 21 ≠ 0
    let go := x / 2 ^ 31 = 1
    let empty := s.ctxState c = 0 ∧ s.sliceF (s.ctxSlice c) 192 1 = 0
    let a := d.atout.toNat
    (¬ taken → exec (.attestationRequest val) s = .next s) ∧
    (taken → reserved → exec (.attestationRequest val) s = .next { s with dev := { d with atErr := true } }) ∧
    (taken → ¬ reserved → ¬ go → exec (.attestationRequest val) s = .next s) ∧
    (taken → ¬ reserved → go → empty → exec (.attestationRequest val) s = .next { s with dev := { d with atErr := true } }) ∧
    (taken → ¬ reserved → go → ¬ empty → ∃ t, exec (.attestationRequest val) s = .next t ∧
      (t.ctx c).decap = some s.freeCtr ∧ (t.ctx c).transport = (s.ctx c).transport ∧ t.dev.atErr = false ∧
      (∀ i, i < 64 → rdByte t.mem (a + i) = s.byteAt (d.atnonce.toNat + i)) ∧
      rdNat t.mem (a + 64) 64 = d.measure.toNat ∧
      (∀ n, n < 8 → rdNat t.mem (a + 160 + 32 * n) 32 = (tget 0 d.slices n).toNat) ∧ rdNat t.mem (a + 416) 2 = c ∧
      (∀ k, k < 4 → rdNat t.mem (a + 420 + k) 1 = (s.keySlot c k).getD 0 % 256) ∧
      ∀ b, (b < a ∨ a + 3328 ≤ b) → rdByte t.mem b = rdByte s.mem b)) ∧
  (∀ (val : Word) (s : State),
    let x := val.toNat
    let d := s.dev
    let taken := d.stage = 3 ∧ d.tripped = false
    let c := x % 2 ^ 10
    let pages := (List.range d.tdcnt.toNat).map fun i => s.phys (d.tdlist.toNat + 8 * i) 8
    let full := 8 ≤ s.scrubs.length ∨ ∃ k ∈ s.scrubs, k.ctx = c
    let listed := d.tdcnt.toNat ≤ 2 ^ 20 ∧ ∀ p ∈ pages, p % 2 ^ 12 = 0 ∧ p < 2 ^ 52
    let refused : State := { s with dev := { d with tdErr := true } }
    (¬ taken → exec (.teardown val) s = .next s) ∧
    (taken → (x / 2 ^ 10 % 2 ^ 21 ≠ 0 ∨ full) → exec (.teardown val) s = .next refused) ∧
    (taken → x / 2 ^ 10 % 2 ^ 21 = 0 → ¬ full → x / 2 ^ 31 = 0 → exec (.teardown val) s = .next s) ∧
    (taken → x / 2 ^ 10 % 2 ^ 21 = 0 → ¬ full → x / 2 ^ 31 = 1 → ¬ listed → exec (.teardown val) s = .next refused) ∧
    (taken → x / 2 ^ 10 % 2 ^ 21 = 0 → ¬ full → x / 2 ^ 31 = 1 → listed → ∃ t, exec (.teardown val) s = .next t ∧
      let q := (s.abandon c).quarantine c pages
      t.stopped c = true ∧ t.dev.tdErr = false ∧ (∀ q ∈ t.launchQ, q.ctx ≠ c) ∧ (∀ q ∈ t.pageReqs, q.ctx ≠ c) ∧
      (∀ q ∈ s.launchQ, q.ctx = c → ∀ fn n, q.host = some (fn, n) →
        ∃ code, code.toNat ∈ faultCodes ∧ (q.recVa, code, 2, n, 0) ∈ (t.fn fn).completions) ∧
      (∃ k, t.scrubs = s.scrubs ++ [k] ∧ k.ctx = c ∧ k.fn = s.ctxVf c ∧ k.pages = pages ∧ k.dark = q.settled c) ∧
      (q.settled c = true → t.keys = (q.darken c).keys ∧ t.mem = (q.darken c).mem ∧ t.plinth = (q.darken c).plinth) ∧
      (q.settled c = false → t.keys = s.keys ∧ t.mem = q.mem ∧ t.plinth = s.plinth))) ∧
  (∀ (c : Nat) (s : State),
    let t := s.darken c
    let u := s.garble c fun _ => true
    (t.ctx c).slots = [] ∧ (t.ctx c).transport = none ∧ (t.ctx c).decap = none ∧
      (∀ p ∈ t.keys, p.2.ctx = c → p.2.key = 0 ∧ p.2.quarantined = true) ∧ (∀ k ∈ t.scrubs, k.ctx = c → k.dark = true) ∧
      t.mem = u.mem ∧ t.plinth = u.plinth ∧ t.blocks = u.blocks ∧ t.warps = u.warps) ∧
  (∀ (k : Scrub) (r : List Scrub) (s : State),
    (s.scrubs = [] → exec .scrubComplete s = .next s) ∧
    let next := s.scrubs.find? fun y => !y.dark && s.stopDone y.ctx
    let free := k.dark = true ∧ ∀ n ∈ s.scrubCores k, ∀ b ∈ s.onCore n, (s.grid b.grid).ctx = k.ctx
    (s.dev.tripped = true → exec .scrubComplete s = .next s) ∧
    (∀ y, s.dev.tripped = false → next = some y → exec .scrubComplete s = .next (s.darken y.ctx)) ∧
    (s.scrubs = k :: r → s.dev.tripped = false → next = none → ¬ free → exec .scrubComplete s = .next s) ∧
    (s.scrubs = k :: r → s.dev.tripped = false → next = none → free → ∃ t, exec .scrubComplete s = .next t ∧ t.scrubs = r ∧
      t.dev.tdDone = true ∧ t.dev.tdDoneCtx = k.ctx ∧ t.stopped k.ctx = false ∧
      ((∀ i, i < 256 → s.lostChan (s.ctxAddr k.ctx + i) = false) → t.ctxState k.ctx = 0) ∧
      (∀ c, c < 48 → (∃ u, u < s.unitCount c ∧ s.unitQuar c u = true) →
        (t.cluster c).queue.getLast? = some .restock) ∧
      (∀ p ∈ t.keys, p.2.ctx = k.ctx → p.2.quarantined = false) ∧ (∀ q ∈ t.launchQ, q.ctx ≠ k.ctx) ∧
      (∀ g ∈ t.grids, g.2.ctx = k.ctx → g.2.st = .retired) ∧
      (∀ g ∈ s.grids, g.2.ctx = k.ctx → g.2.st ≠ .retired → ∀ fn n, g.2.host = some (fn, n) →
        ∃ code, (if g.2.code = 0 then code.toNat ∈ faultCodes else code = g.2.code) ∧ (g.2.recVa, code, (if g.2.admitted then 3 else 2), n, g.2.ctx + 1) ∈ (t.fn fn).completions) ∧
      (∀ n ∈ s.scrubCores k, ∀ a, n * 2 ^ 19 ≤ a → a < n * 2 ^ 19 + 393216 → rdByte t.shared a = 0) ∧
      ∀ p ∈ k.spans, ∀ a, p.1 ≤ a → a < p.1 + p.2 → rdByte t.plinth a = 0)) ∧
  (∀ (fn chip : Nat) (s : State),
    let note := s.devLog { kind := 0x0A, vf := fn }
    let may := s.dev.stage = 3 ∧ s.dev.tripped = false ∧ ∀ k ∈ s.scrubs, k.fn ≠ fn
    (¬ may → exec (.functionLevelReset fn) s = .next note) ∧
    (may → ∃ t, exec (.functionLevelReset fn) s = .next t ∧ t.fn fn = { ctx := (s.fn fn).ctx }) ∧
    exec (.chipletReset chip) s = .next
      { s with
        scrubs := s.scrubs.map fun k => { k with progress := 0 }
        coreReset := (s.coresOn chip).foldl (fun t n => tset t n s.time) s.coreReset } ∧
    ∃ t, exec .fundamentalReset s = .next t ∧
      (let lost (a : Nat) : Prop :=
        ∃ c k, (a / 64, c + 1) ∈ s.memCtx ∧ Config.memChannel a = some k ∧ (s.memKey c (k / 32)).isSome = true
      ∀ a, (lost a → rdByte t.mem a = Config.garbled s.time a) ∧ (¬ lost a → rdByte t.mem a = rdByte s.mem a)) ∧
      t.scrubs = s.scrubs.map (fun k => { k with progress := 0, dark := true }) ∧
      t.dev = { powered := s.dev.powered, flash := s.dev.flash, retiredChans := s.dev.retiredChans
                fuses := s.dev.fuses } ∧ t.memCtx = s.memCtx ∧
      ((s.clusters.map (·.1)).Nodup → ∀ c, (t.cluster c).retired = (s.cluster c).retired) ∧ t.warps = [] ∧ t.blocks = [] ∧ t.grids = [] ∧ t.fns = [] ∧
      t.keys = ((s.keys.filter fun p => p.2.quarantined || s.scrubs.any fun y => y.ctx == p.2.ctx).map fun p =>
        (p.1, { p.2 with key := 0, quarantined := true })) ∧ t.ctxs = [] ∧ t.plinth = [] ∧ t.shared = [] ∧ t.tiles = [] ∧
      ∀ n, n < 384 → tget 0 t.coreReset n = s.time)

/-! ### Start, power and errors -/

/-- R2, R348 to R351, R360: the staged start.  A stage is entered only from the one before it with its conditions met; a
failure stops the device in its stage with a code; a remap table that names a fused-off cluster is such a failure; the Plinth
record is taken when it is valid; the first slice owns every cluster that is not retired.  What makes a remap table consistent
is log entry 8 and which of several failures is reported log entry 70, the model's choices. -/
def Obligations.StagedStart : Prop :=
  (∀ (f : Option Nat) (img sig : Nat) (val : Word) (s : State),
    let d := s.dev
    let goes (i : Instr) (e : Dev) : Prop := exec i s = .next { s with dev := e }
    let still (i : Instr) : Prop := exec i s = .next s
    let valid (scru spillm : Nat) : Prop :=
      16 ≤ scru ∧ scru ≤ 112 ∧ 1 ≤ spillm ∧ spillm ≤ 16 ∧ 12 * scru + 16 * spillm ≤ 1408
    let scru := val.toNat % 2 ^ 8
    let spillm := val.toNat / 2 ^ 8 % 2 ^ 8
    let commit := val.toNat / 2 ^ 31 = 1
    let taken := d.stage = 3 ∧ d.tripped = false
    let kept : Dev := { d with pcfgNext := val &&& 0x7FFFFFFF }
    goes .powerGood { d with powered := true } ∧
    (¬ (d.powered = true ∧ d.stage = 0) → still (.enterSafe f)) ∧
    (d.powered = true → d.stage = 0 → f = none → goes (.enterSafe f) { d with stage := 1 }) ∧
    (∀ chip, d.powered = true → d.stage = 0 → f = some chip → goes (.enterSafe f)
      { d with stage := 1, fail := true, fcode := 1, fchip := .ofNat 4 chip, funit := 0 }) ∧
    (¬ (d.stage = 1 ∧ d.fail = false ∧ d.firmwareOk = false) → still (.firmwareAuthentication img sig)) ∧
    (d.stage = 1 → d.fail = false → d.firmwareOk = false →
      (Config.falconVerify img sig = true → goes (.firmwareAuthentication img sig)
        { d with measure := Config.measureExtend d.measure (Config.shake256 img), firmwareOk := true }) ∧
      (Config.falconVerify img sig = false → goes (.firmwareAuthentication img sig)
        { d with fail := true, fcode := 2, fchip := 0, funit := 0 })) ∧
    (¬ taken → still (.plinthConfigCommit val)) ∧
    (taken → ¬ commit → goes (.plinthConfigCommit val) kept) ∧
    (taken → commit → (val.toNat / 2 ^ 16 % 2 ^ 15 ≠ 0 ∨ ¬ valid scru spillm) →
      goes (.plinthConfigCommit val) { kept with pcfgErr := true }) ∧
    (taken → commit → val.toNat / 2 ^ 16 % 2 ^ 15 = 0 → valid scru spillm →
      goes (.plinthConfigCommit val) { kept with flash := some (scru, spillm), pcfgErr := false })) ∧
  (∀ (hbm pl : Option Nat) (remap : RemapTable) (cxl wale : Nat) (s : State),
    let d := s.dev
    let i : Instr := .enterTrained hbm pl remap cxl wale
    let may := d.stage = 1 ∧ d.fail = false ∧ d.firmwareOk = true
    let stops (e : Dev) (code chip stack : Nat) : Prop := exec i s = .next
      { s with dev := { e with fail := true, fcode := .ofNat 8 code, fchip := .ofNat 4 chip, funit := .ofNat 4 stack } }
    let renumbers (n : Nat) (f : Nat → Nat) : Prop :=
      (∀ k, k < n → f k < n) ∧ ∀ a b, a < n → b < n → f a = f b → a = b
    let chip (k : Nat) : Nat := (tfind remap.chips k).getD k
    let core (c k : Nat) : Nat := (tfind remap.cores (8 * c + k)).getD k
    let table := remap.clusters.length = 46 ∧ (∀ c, c < 46 → ∃ p, tfind remap.clusters c = some p ∧ p < 48 ∧ p ∉ d.fuses) ∧
      (∀ a b p, tfind remap.clusters a = some p → tfind remap.clusters b = some p → a = b) ∧
      renumbers 4 chip ∧ ∀ c, c < 46 → renumbers 8 (core c)
    let trained (e : Dev) : Prop := ∃ t, exec i s = .next t ∧ t = { s with dev := t.dev } ∧
      (∀ c p, tfind remap.clusters c = some p → t.physOfCluster c = p) ∧ (∀ k, t.physOfChip k = chip k) ∧
      (∀ c k, k < 8 → t.physInCluster (8 * c + k) = core c k) ∧
      t.dev = { e with stage := 2, remap := t.dev.remap, chipNums := t.dev.chipNums, coreNums := t.dev.coreNums,
                       cxlUp := .ofNat 8 cxl, wlink := .ofNat 12 wale }
    (¬ may → exec i s = .next s) ∧
    (∀ k, may → hbm = some k → stops d 3 0 k) ∧ (∀ k, may → hbm = none → pl = some k → stops d 6 k 0) ∧
    (may → hbm = none → pl = none → ¬ table → stops d 7 0 0) ∧
    (may → hbm = none → pl = none → table → d.flash = none → trained { d with scru := 64, spillm := 4 }) ∧
    (∀ scru spillm, may → hbm = none → pl = none → table → d.flash = some (scru, spillm) →
      let read : Dev :=
        { d with measure := Config.measureExtend d.measure (Config.shake256 (Config.plinthRecordImage scru spillm)) }
      let valid := 16 ≤ scru ∧ scru ≤ 112 ∧ 1 ≤ spillm ∧ spillm ≤ 16 ∧ 12 * scru + 16 * spillm ≤ 1408
      (valid → trained { read with scru := scru, spillm := spillm }) ∧ (¬ valid → stops read 9 0 0))) ∧
  ∀ s : State,
    let d := s.dev
    let may := d.stage = 2 ∧ d.fail = false
    (¬ may → exec .enterFull s = .next s) ∧
    (may → d.scru < 2 ^ 8 → ∃ t, exec .enterFull s = .next t ∧ t = { s with dev := t.dev } ∧
      t.dev.stage = 3 ∧ (∀ k, k ≠ 0 → tget 0 t.dev.slices k = tget 0 d.slices k) ∧
      let x := (tget 0 t.dev.slices 0).toNat
      let f (lo n : Nat) : Nat := x / 2 ^ lo % 2 ^ n
      f 192 1 = 1 ∧ (∀ c, c < 46 → (f c 1 = 1 ↔ (s.cluster c).retired = false)) ∧ f 48 16 = 0 ∧ f 80 16 = 0 ∧ f 120 8 = 0 ∧
        f 136 5 = 0 ∧ f 152 8 = 0 ∧ f 160 16 = 0 ∧ f 128 8 = d.scru ∧ f 141 5 = 16)

/-- R7, R370 to R374: pass counts, supply, cooling, timing errors and the thermal trip: every grid that was running or queued is
ended with `CODE` 0x26, the launches still queued are refused with it, each of a host ring with its completion; no context stays
resident; and the device is left stopped with its records.  That a trip in STANDBY and a coolant report before power is good have no effect, and that the
error vector is signalled even without a log, are log entry 68, the model's choice. -/
def Obligations.PowerAndCooling : Prop :=
  ∀ (k n inlet flow : Nat) (m : Coolant) (s : State),
    let d := s.dev
    let goes (i : Instr) (e : Dev) : Prop := exec i s = .next { s with dev := e }
    let table (t w : Nat) : Dev := { d with cooltab := t, limitW := w }
    (k < 46 → (n = 1 ∨ n = 2 ∨ n = 4) → ∃ t, exec (.passCountChange k n) s = .next t ∧ t = { s with clusters := t.clusters } ∧
      t.cluster k = { s.cluster k with passcnt := n } ∧ ∀ j, j ≠ k → t.cluster j = s.cluster j) ∧
    (¬ (k < 46 ∧ (n = 1 ∨ n = 2 ∨ n = 4)) → exec (.passCountChange k n) s = .next s) ∧
    (∃ t, exec (.supplySag k) s = .next t ∧ t = { s with dev := { d with sag := t.dev.sag } } ∧
      ∀ j, j ∈ t.dev.sag ↔ j = k ∨ j ∈ d.sag) ∧
    (∃ t, exec (.supplyRecovery k) s = .next t ∧ t = { s with dev := { d with sag := t.dev.sag } } ∧
      ∀ j, j ∈ t.dev.sag ↔ j ≠ k ∧ j ∈ d.sag) ∧
    (d.powered = false → exec (.coolantReport m inlet flow) s = .next s ∧ exec .coolantReportTimeout s = .next s) ∧
    (d.powered = true →
      (m = .immersion → inlet ≤ 450 → goes (.coolantReport m inlet flow) (table 2 3600)) ∧
      (m = .plate → inlet ≤ 400 → 15 ≤ flow → goes (.coolantReport m inlet flow) (table 1 3200)) ∧
      (¬ (m = .immersion ∧ inlet ≤ 450) → ¬ (m = .plate ∧ inlet ≤ 400 ∧ 15 ≤ flow) →
        goes (.coolantReport m inlet flow) (table 0 1200)) ∧
      goes .coolantReportTimeout (table 0 1200)) ∧
    goes (.timingErrorReplay k n) { d with replays := d.replays + 1 } ∧
    ((d.stage = 0 ∨ d.tripped = true ∨ d.fail = true) → exec (.thermalTrip k) s = .next s) ∧
    (d.stage ≠ 0 → d.stage ≠ 3 → d.tripped = false → d.fail = false →
      goes (.thermalTrip k) { d with fail := true, fcode := 8 }) ∧
    (d.stage = 3 → d.tripped = false → d.fail = false →
      ∃ t, exec (.thermalTrip k) s = .next t ∧ t.dev.tripped = true ∧ t.dev.fail = true ∧ t.dev.fcode = 8 ∧
        t.dev.stage = 3 ∧ t.plinth = [] ∧ t.shared = [] ∧ t.tiles = [] ∧ t.tlb = [] ∧ t.pageReqs = [] ∧ t.launchQ = [] ∧
        3 ∈ (t.fn 0).msix ∧ (d.dlbase ≠ 0 → (d.dlwr - d.dlrd).toNat < 4096 → t.dev.dlwr = d.dlwr + 1) ∧
        ((s.grids.map (·.1)).Nodup →
          (∀ j g, (j, g) ∈ s.grids →
            (t.grid j).st = .retired ∧ (t.grid j).code = if g.st = .retired then g.code else 0x26) ∧
          ∀ f, (t.fn f).completions = (s.fn f).completions ++
            (s.grids.filterMap fun (_, g) => if g.st = .retired then none else g.host.bind fun (k, i) =>
              if k = f then some (g.recVa, (0x26 : BitVec 8), if g.st = .queued then 2 else 3, i, g.ctx + 1) else none) ++
            s.launchQ.filterMap fun q => q.host.bind fun (k, i) =>
              if k = f then some (q.recVa, (0x26 : BitVec 8), 2, i, q.ctx + 1) else none) ∧
        ∀ c, c < 1024 → s.ctxState c ≠ 0 → (t.ctx c).slots = [] ∧
          (∀ y ∈ t.keys, y.2.ctx = c → y.2.quarantined = true) ∧
          ((s.warps.map (·.1)).Nodup → ∀ y ∈ t.warps, s.wctx y.1 = c → y.2.retired = true) ∧
          (d.dlbase = 0 → d.retiredChans = [] → t.ctxState c = 0))

/-- R127, R375 to R377: a correctable error is counted, and recorded when it is the first of its structure in its
millisecond; an uncorrectable error poisons its granule and nothing else of the machine's contents, or, in the control state
of a cluster, stops the cluster's grids with `CODE` POISON, and is recorded.  How a register is named, what a structure is, the records' codes and
which logs take them are log entries 58, 66 and 67, the model's choices. -/
def Obligations.SoftErrors : Prop :=
  (∀ (e : ErrSite) (s : State),
    let d := s.dev
    let key := (s.structOf e, (Config.cycleCount s.time).toNat / 1300000)
    let counted : Dev := { d with corrected := d.corrected + 1 }
    (key ∈ d.corrLogged → exec (.correctableError e) s = .next { s with dev := counted }) ∧
    (key ∉ d.corrLogged →
      let u : State := { s with dev := { counted with corrLogged := key :: d.corrLogged } }
      exec (.correctableError e) s = .next (u.devLog (u.siteRec 0x01 e)) ∧
        (u.devLog (u.siteRec 0x01 e)).warps = s.warps ∧ (u.devLog (u.siteRec 0x01 e)).plinth = s.plinth)) ∧
  (∀ (e : ErrSite) (s : State),
    let rc : LogRec := { s.siteRec 0x02 e with code := 0x16 }
    (∀ w r l, e = .register w r l → tfind s.warps w = none → exec (.uncorrectableError e) s = .next s) ∧
    ((∀ u, e ≠ .hbm u) → (∀ w r l, e = .register w r l → ∃ k, tfind s.warps w = some k) →
      exec (.uncorrectableError e) s = .next ((s.strike e).poisonLog (s.siteCtx e) rc)) ∧
    (∀ u, e = .hbm u → s.objectAt u = none → exec (.uncorrectableError e) s = .next ((s.strike e).poisonLog none rc)) ∧
    ∀ u c g a, e = .hbm u → s.objectAt u = some (c, g, a) →
      exec (.uncorrectableError e) s = .next ((s.strike e).poisonLog (some c) { rc with region := g, obj := a })) ∧
  (∀ (c : Option Nat) (r : LogRec) (s : State),
    (s.poisonLog c r).warps = s.warps ∧ (s.poisonLog c r).shared = s.shared ∧ (s.poisonLog c r).plinth = s.plinth ∧
      (s.poisonLog c r).poisonMem = s.poisonMem ∧ (s.poisonLog c r).grids = s.grids) ∧
  ∀ (s : State) (a b j : Nat),
    (∀ r l, r < 256 → l < 32 → s.strike (.register a r l) = s.modWarp a fun x =>
      { x with poison := (0, 32 * r + l) :: x.poison.filter fun q => q != (0, 32 * r + l) }) ∧
    (∀ r l, 256 ≤ r → r < 320 → l < 32 → s.strike (.register a r l) = s.modWarp a fun x =>
      { x with poison := (1, 32 * (r - 256) + l) :: x.poison.filter fun q => q != (1, 32 * (r - 256) + l) }) ∧
    (∀ r l, 320 ≤ r → l < 32 → s.strike (.register a r l) = s.modWarp a fun x =>
      { x with poison := (2, 32 * (r - 320) + l) :: x.poison.filter fun q => q != (2, 32 * (r - 320) + l) }) ∧
    (let t := s.strike (.control a)
     let hosted (n : Nat) : Prop := ∃ y ∈ s.gangs, y.2.cluster = a ∧ y.2.st = .resident ∧ y.2.grid = n
     (∀ n, ¬ (hosted n ∧ (s.grid n).st = .running) → (t.grid n).code = (s.grid n).code) ∧
     ((∀ n, ¬ (hosted n ∧ (s.grid n).st = .running)) → t = s) ∧
     ∀ n, hosted n → (s.grid n).st = .running → (s.blocks.map (·.1)).Nodup → ∀ y ∈ s.blocks, y.2.grid = n → y.2.holds = true →
       (t.grid n).code = (if (s.grid n).code = 0 then 0x16 else (s.grid n).code) ∧
         (t.grid n).nextBlock = (t.grid n).nblocks ∧ ∀ w ∈ y.2.warps, (t.warp w).retired = true) ∧
    (j ∈ (s.strike (.shared a b)).poisonShared ↔ j = a * 2 ^ 17 + b ∨ j ∈ s.poisonShared) ∧
    (j ∈ (s.strike (.plinth a b)).poisonPlinth ↔ j = a * 2 ^ 25 + b ∨ j ∈ s.poisonPlinth) ∧
    (j ∈ (s.strike (.metadata a b)).poisonMeta ↔ j = a * 2 ^ 27 + b ∨ j ∈ s.poisonMeta) ∧
    (j ∈ (s.strike (.hbm a)).poisonMem ↔ j = a ∨ j ∈ s.poisonMem) ∧
    (∀ k, j ∈ (s.strike (.tile a b k)).poisonTile ↔ j = (8 * a + b) * 12288 + k ∨ j ∈ s.poisonTile) ∧
    (∀ e, (∀ c, e ≠ .control c) → (s.strike e).mem = s.mem ∧ (s.strike e).shared = s.shared ∧
      (s.strike e).plinth = s.plinth ∧ (s.strike e).tiles = s.tiles ∧ (s.strike e).grids = s.grids)

/-! ### Whole machine -/

/-- R174 to R178, R244: the words the spec writes out for `NOP`, `BRA`, `ISETP`, `ATOM`, `DQSTEAL`, `ACQ`, `MADD` and `MMA`
decode to those instructions. -/
def Obligations.DecodeWords : Prop :=
  let c : Common := { grd := .always, fs := .none, u := false }
  decode 0x005C00000000005000000000 = .ok (.nop c { loff := 0, slot := 0, prio := 0, a := .zero, mod := 0 }) ∧
  decode 0x00883FFFFF5000D000000000 = .ok (.bra { c with grd := .pred false 2 }
    { loff := 0xFFFFFD, slot := 2, prio := 1, a := .zero, mod := 0 }) ∧
  decode 0x151C68000000000100408800 = .ok (.isetp c (.ri
    { d := .zero, a := .v 0, imm := 16, ty := .s32, mod := 2, pd := 1 })) ∧
  decode 0x509C00A80200000001040CC0 = .ok (.atom c
    { r := .v 5, bx := 4, idx := .v 2, off := 0, ty := .n32, mod := 0x41, c := .v 6, pd := 3 }) ∧
  decode 0x71DC01094000000008028040 = .ok (.dqsteal c
    { r := .v 8, bx := 4, idx := .zero, off := 0, ty := .n64, mod := 0, c := .zero, pd := 1 }) ∧
  decode 0x701C8114000000100E000000 = .ok (.acq { c with u := true }
    { d := .v 8, a := .zero, imm := 1, mod := 0, pd := 7 }) ∧
  decode 0x911C03001028080700000000 = .ok (.madd c
    { md := 3, ma := 0, mb := 1, mc := 0, v := .zero, cov := 1, mod := 0, pd := 7, off := 0 }) ∧
  decode 0x801D10080000000010014000 = .ok (.mma { c with fs := .setA }
    { zd := 2, zs := 0, a := .v 16, bx := 0, off := 0, fslot := 0, cv := 1, mod := 0, sa := .v 40 }) ∧
  decode 0 = .illegal 1

/-- R172 to R178: every well-formed instruction has a word that decodes to it, and a word that decodes to an instruction is
that instruction's word: no bit of an encoding is dropped.  Events have no word. -/
def Obligations.EncodeDecode : Prop :=
  (∀ (i : Instr) (w : IWord), WellFormed i → encode i = some w → decode w = .ok i) ∧
  (∀ (w : IWord) (i : Instr), decode w = .ok i → WellFormed i ∧ encode i = some w) ∧
  ∀ i : Instr, encode i = none ↔ i.view = none

/-- R25, R163, R167, R179: a step counts the time, and then does the first thing of the agenda; with an empty agenda, a device
event that is due, else the issue of the warp whose turn it is (the model's choice, log entry 2).  The issue of a warp whose chosen entry has entered its line performs the instruction that
the entry's slot decodes to, for that warp; an entry that has not entered it fetches it; a warp with no entry does nothing.  An issue that
the warp may make is counted in its quadrant (log entry 77, the model's choice). -/
def Obligations.StepRunsDecoded : Prop :=
  (∀ s : State,
    let t : State := { s with time := s.time + 1 }
    let issues (w : Nat) (r : State) : Prop :=
      let u : State := { r.attempt w with cur := w }
      let c? := (s.warp w).choice
      let e (c : Word) : Entry := (s.warp w).entry c
      (c? = none → step s = .next u) ∧
      ∀ c, c? = some c →
        let word := lineSlot (e c).line (cpSlot c)
        ((e c).entered = false → step s = exec (.lineFetch w) u) ∧
        ((e c).entered = true →
          (∀ i, decode word = .ok i → step s = exec i u) ∧
          (∀ k, decode word = .illegal k → step s = u.issueIllegal (word.toNat / 2 ^ 86) k) ∧
          (∀ i, decode word = .reserved i → step s = u.issue true i fun _ v => .keep v))
    (∀ w r, s.agenda = .issue w :: r → issues w { t with agenda := r }) ∧
    (∀ i r, s.agenda = .event i :: r → step s = exec i { t with agenda := r }) ∧
    (∀ a b r, s.agenda = .hostWrite a b :: r → step s = .next (State.hostWrite { t with agenda := r } a b)) ∧
    (∀ fn ctx r, s.agenda = .bindRing fn ctx :: r →
      step s = .next (State.modFn { t with agenda := r } fn fun f => { f with ctx := ctx + 1 })) ∧
    (s.agenda = [] →
      (∀ i, t.dueEvent = some i → step s = exec i t) ∧
      (t.dueEvent = none →
        (s.warps = [] → step s = .next t) ∧
        ∀ w, nextKey s.warps s.turn = some w → issues w { t with turn := w + 1 }))) ∧
  ∀ (s : State) (w : Nat),
    ((s.mayIssue w = false ∨ (s.warp w).choice = none) → s.attempt w = s) ∧
    (s.mayIssue w = true → (s.warp w).choice ≠ none →
      s.attempt w = { s with
        issues := tset s.issues (s.quadOf w) ((w :: tget [] s.issues (s.quadOf w)).take 9)
        active := tset s.active (s.quadOf w) ((w :: (tget [] s.active (s.quadOf w)).filter (· != w)).take 8) })

/-- R348, R349, R351, R316, R329, R356, R372, R377: the machine right after reset.  It stands in STANDBY without a failure,
with nothing resident, every ring count and base at 0, `WTMO` at 0xFA0, the air cooling table, no slice descriptor valid, and
the memories in their canonical form. -/
def Obligations.ResetState : Prop :=
  let s := State.reset
  s.dev.stage = 0 ∧ s.dev.fail = false ∧ s.dev.fcode = 0 ∧ s.dev.tripped = false ∧ s.dev.firmwareOk = false ∧
  s.dev.wtmo = 0xFA0 ∧ s.dev.wbind = 0 ∧ s.dev.ctxtab = 0 ∧ s.dev.dlbase = 0 ∧ s.dev.dlwr = 0 ∧ s.dev.dlrd = 0 ∧
  s.dev.dlovf = 0 ∧ s.dev.cooltab = 0 ∧ s.dev.limitW = 1200 ∧
  (∀ k, tget 0 s.dev.slices k = 0) ∧ (∀ n, s.fn n = {}) ∧
  s.warps = [] ∧ s.blocks = [] ∧ s.gangs = [] ∧ s.grids = [] ∧ s.ops = [] ∧ s.chans = [] ∧ s.pageReqs = [] ∧
  s.scrubs = [] ∧ s.agenda = [] ∧ s.memWf = true

/-- The memories keep their canonical form in every step: addresses rise strictly and no byte is listed that an unlisted
address reads as, whatever instruction or event the step performs. -/
def Obligations.MemoriesStayCanonical : Prop :=
  ∀ s t : State, s.memWf = true → step s = .next t → t.memWf = true
end

