-- ==== Sys2Proof/Laws/Tab.lean ====
section
/-! SUPPORT. Read after write for sparse tables and memories, and the canonical form that every write keeps. -/

namespace Sys2Proof.Machine

variable {α : Type}

/-! ### Reading -/

theorem tget_terase_self (d : α) (t : Tab α) (k : Nat) : tget d (terase t k) k = d := by
  induction t with
  | nil => rfl
  | cons p r ih =>
    obtain ⟨j, y⟩ := p
    by_cases h : j = k <;> simp [terase, tget, h, ih]

theorem tget_terase_ne (d : α) (t : Tab α) {j k : Nat} (h : j ≠ k) : tget d (terase t k) j = tget d t j := by
  induction t with
  | nil => rfl
  | cons p r ih =>
    obtain ⟨i, y⟩ := p
    by_cases hi : i = k
    · have : i ≠ j := fun e => h (e ▸ hi)
      simp [terase, tget, hi, ih]
      intro e
      exact absurd e.symm h
    · simp [terase, tget, hi, ih]

theorem tfind_terase_self (t : Tab α) (k : Nat) : tfind (terase t k) k = none := by
  induction t with
  | nil => rfl
  | cons p r ih =>
    obtain ⟨j, y⟩ := p
    by_cases h : j = k <;> simp [terase, tfind, h, ih]

theorem tget_tins_self (d : α) (t : Tab α) (k : Nat) (x : α) (h : tfind t k = none) : tget d (tins t k x) k = x := by
  induction t with
  | nil => simp [tins, tget]
  | cons p r ih =>
    obtain ⟨j, y⟩ := p
    have hj : j ≠ k := by
      intro e
      simp [tfind, e] at h
    have hr : tfind r k = none := by simpa [tfind, hj] using h
    by_cases hk : k < j <;> simp [tins, tget, hk, hj, ih hr]

theorem tget_tins_ne (d : α) (t : Tab α) {j k : Nat} (x : α) (h : j ≠ k) : tget d (tins t k x) j = tget d t j := by
  induction t with
  | nil => simp [tins, tget, Ne.symm h]
  | cons p r ih =>
    obtain ⟨i, y⟩ := p
    by_cases hk : k < i
    · simp [tins, tget, hk, Ne.symm h]
    · simp [tins, tget, hk, ih]

@[simp] theorem tget_tset_self (d : α) (t : Tab α) (k : Nat) (x : α) : tget d (tset t k x) k = x :=
  tget_tins_self d _ k x (tfind_terase_self t k)

@[simp] theorem tget_tset_ne (d : α) (t : Tab α) {j k : Nat} (x : α) (h : j ≠ k) : tget d (tset t k x) j = tget d t j := by
  rw [tset, tget_tins_ne d _ x h, tget_terase_ne d t h]

theorem tget_tset (d : α) (t : Tab α) (j k : Nat) (x : α) : tget d (tset t k x) j = if j = k then x else tget d t j := by
  by_cases h : j = k
  · simp [h]
  · simp [h, tget_tset_ne d t x h]

theorem tget_tput [DecidableEq α] (d : α) (t : Tab α) (j k : Nat) (x : α) :
    tget d (tput d t k x) j = if j = k then x else tget d t j := by
  unfold tput
  by_cases hx : x = d
  · by_cases h : j = k
    · simp [hx, h, tget_terase_self]
    · simp [hx, h, tget_terase_ne d t h]
  · simp [hx, tget_tset]

@[simp] theorem tget_tput_self [DecidableEq α] (d : α) (t : Tab α) (k : Nat) (x : α) : tget d (tput d t k x) k = x := by
  simp [tget_tput]

@[simp] theorem tget_tput_ne [DecidableEq α] (d : α) (t : Tab α) {j k : Nat} (x : α) (h : j ≠ k) :
    tget d (tput d t k x) j = tget d t j := by
  simp [tget_tput, h]

theorem tget_tmod (d : α) (t : Tab α) (j k : Nat) (f : α → α) :
    tget d (tmod d t k f) j = if j = k then f (tget d t k) else tget d t j := tget_tset d t j k _

theorem twfFrom_cons [DecidableEq α] (d : α) (lo : Option Nat) (j : Nat) (x : α) (r : Tab α) :
    twfFrom d lo ((j, x) :: r) = true ↔ (∀ l, lo = some l → l < j) ∧ x ≠ d ∧ twfFrom d (some j) r = true := by
  cases lo <;> simp [twfFrom, and_assoc]

theorem twfFrom_weaken [DecidableEq α] (d : α) {lo lo' : Option Nat} (t : Tab α)
    (h : ∀ l, lo' = some l → ∃ m, lo = some m ∧ l ≤ m) (w : twfFrom d lo t = true) : twfFrom d lo' t = true := by
  cases t with
  | nil => simp [twfFrom]
  | cons p r =>
    obtain ⟨j, x⟩ := p
    rw [twfFrom_cons] at w ⊢
    refine ⟨fun l hl => ?_, w.2⟩
    obtain ⟨m, hm, hle⟩ := h l hl
    exact lt_of_le_of_lt hle (w.1 m hm)

theorem twfFrom_filter [DecidableEq α] (d : α) (f : Nat × α → Bool) (t : Tab α) :
    ∀ lo, twfFrom d lo t = true → twfFrom d lo (t.filter f) = true := by
  induction t with
  | nil => intro lo h; exact h
  | cons p r ih =>
    obtain ⟨j, x⟩ := p
    intro lo h
    rw [twfFrom_cons] at h
    by_cases hf : f (j, x) = true
    · simp only [List.filter, hf]
      rw [twfFrom_cons]
      exact ⟨h.1, h.2.1, ih _ h.2.2⟩
    · simp only [List.filter, hf]
      refine ih _ (twfFrom_weaken d r ?_ h.2.2)
      intro l hl
      exact ⟨j, rfl, le_of_lt (h.1 l hl)⟩

theorem terase_eq_filter (t : Tab α) (k : Nat) : terase t k = t.filter fun p => p.1 != k := by
  induction t with
  | nil => rfl
  | cons p r ih =>
    obtain ⟨j, x⟩ := p
    by_cases h : j = k <;> simp [terase, h, ih]

theorem twfFrom_tins [DecidableEq α] (d : α) (t : Tab α) (k : Nat) (x : α) (hx : x ≠ d) :
    ∀ lo, twfFrom d lo t = true → tfind t k = none → (∀ l, lo = some l → l < k) → twfFrom d lo (tins t k x) = true := by
  induction t with
  | nil =>
    intro lo _ _ hk
    rw [tins, twfFrom_cons]
    exact ⟨hk, hx, rfl⟩
  | cons p r ih =>
    obtain ⟨j, y⟩ := p
    intro lo h hf hk
    rw [twfFrom_cons] at h
    by_cases hkj : k < j
    · simp only [tins, hkj, if_true]
      rw [twfFrom_cons, twfFrom_cons]
      refine ⟨hk, hx, ?_, h.2⟩
      intro l hl
      cases hl
      exact hkj
    · have hj : j ≠ k := by
        intro e
        simp [tfind, e] at hf
      have hr : tfind r k = none := by simpa [tfind, hj] using hf
      simp only [tins, hkj, if_false]
      rw [twfFrom_cons]
      refine ⟨h.1, h.2.1, ih _ h.2.2 hr ?_⟩
      intro l hl
      cases hl
      omega

theorem twf_terase [DecidableEq α] (d : α) (t : Tab α) (k : Nat) (h : twf d t = true) : twf d (terase t k) = true := by
  rw [terase_eq_filter]
  exact twfFrom_filter d _ t none h

/-- A canonical write keeps the canonical form. -/
theorem twf_tput [DecidableEq α] (d : α) (t : Tab α) (k : Nat) (x : α) (h : twf d t = true) : twf d (tput d t k x) = true := by
  unfold tput
  by_cases hx : x = d
  · simpa [hx] using twf_terase d t k h
  · simp only [hx, if_false]
    exact twfFrom_tins d _ k x hx none (twf_terase d t k h) (tfind_terase_self t k) (by intro l hl; cases hl)

theorem terase_tins_self (t : Tab α) (k : Nat) (x : α) : terase (tins t k x) k = terase t k := by
  induction t with
  | nil => simp [tins, terase]
  | cons p r ih =>
    obtain ⟨j, y⟩ := p
    by_cases hk : k < j
    · simp [tins, terase, hk]
    · by_cases hj : j = k <;> simp [tins, terase, hk, hj, ih]

/-- A later write of one key replaces an earlier one. -/
@[simp] theorem tset_tset (t : Tab α) (k : Nat) (x y : α) : tset (tset t k x) k y = tset t k y := by
  unfold tset
  rw [terase_tins_self, terase_eq_filter, terase_eq_filter, List.filter_filter]
  simp

/-! ### Memories -/

/-- Reading a byte after a write of one byte. -/
theorem rdByte_wrByte (m : List Host.Cell) (a b : Nat) (x : Byte) :
    rdByte (wrByte m a x) b = if b = a then x else rdByte m b := tget_tput 0 m b a x

/-- A write of one byte keeps the canonical form. -/
theorem wrByte_wf (m : List Host.Cell) (a : Nat) (x : Byte) (h : Memory.wf m = true) : Memory.wf (wrByte m a x) = true :=
  twf_tput 0 m a x h

/-- A write of a number keeps the canonical form. -/
theorem wrNat_wf (n : Nat) : ∀ (m : List Host.Cell) (a x : Nat), Memory.wf m = true → Memory.wf (wrNat m a n x) = true := by
  induction n with
  | zero => intro m a x h; exact h
  | succ n ih => intro m a x h; exact ih _ _ _ (wrByte_wf m a _ h)

/-- A write of listed bytes keeps the canonical form. -/
theorem wrList_wf (l : List (Nat × Byte)) : ∀ m : List Host.Cell, Memory.wf m = true → Memory.wf (wrList m l) = true := by
  induction l with
  | nil => intro m h; exact h
  | cons p r ih => intro m h; exact ih _ (wrByte_wf m p.1 p.2 h)

/-- Removing addresses, which then read 0, keeps the canonical form. -/
theorem filter_wf (f : Host.Cell → Bool) (m : List Host.Cell) (h : Memory.wf m = true) : Memory.wf (m.filter f) = true :=
  twfFrom_filter 0 f m none h

/-- A write of a number leaves every byte outside its range. -/
theorem rdByte_wrNat_out (n : Nat) : ∀ (m : List Host.Cell) (a x b : Nat), (b < a ∨ a + n ≤ b) →
    rdByte (wrNat m a n x) b = rdByte m b := by
  induction n with
  | zero => intro m a x b _; rfl
  | succ n ih =>
    intro m a x b h
    have hb : b ≠ a := by omega
    rw [wrNat, ih _ _ _ b (by omega), rdByte_wrByte]
    simp [hb]

/-- A write of a number gives its bytes, lowest first. -/
theorem rdByte_wrNat_in (n : Nat) : ∀ (m : List Host.Cell) (a x i : Nat), i < n →
    rdByte (wrNat m a n x) (a + i) = BitVec.ofNat 8 (x / 256 ^ i) := by
  induction n with
  | zero => intro m a x i h; omega
  | succ n ih =>
    intro m a x i h
    cases i with
    | zero =>
      rw [wrNat, rdByte_wrNat_out n _ _ _ _ (by omega), rdByte_wrByte]
      simp
    | succ i =>
      have := ih (wrByte m a (BitVec.ofNat 8 x)) (a + 1) (x / 256) i (by omega)
      rw [wrNat, show a + (i + 1) = a + 1 + i by omega, this, Nat.div_div_eq_div_mul, pow_succ, Nat.mul_comm]

/-- Reading back what was written. -/
theorem rdNat_wrNat (n : Nat) : ∀ (m : List Host.Cell) (a x : Nat), rdNat (wrNat m a n x) a n = x % 256 ^ n := by
  induction n with
  | zero => intro m a x; simp [rdNat, Nat.mod_one]
  | succ n ih =>
    intro m a x
    rw [rdNat, wrNat, ih, rdByte_wrNat_out n _ _ _ _ (by omega), rdByte_wrByte, pow_succ, Nat.mul_comm (256 ^ n) 256,
      Nat.mod_mul]
    simp

/-- Bytes no listed write names are unchanged. -/
theorem rdByte_wrList_out (l : List (Nat × Byte)) : ∀ (m : List Host.Cell) (b : Nat), (∀ p ∈ l, p.1 ≠ b) →
    rdByte (wrList m l) b = rdByte m b := by
  induction l with
  | nil => intro m b _; rfl
  | cons p r ih =>
    intro m b h
    have hp : b ≠ p.1 := fun e => h p (by simp) e.symm
    rw [wrList, ih _ b (fun q hq => h q (by simp [hq])), rdByte_wrByte]
    simp [hp]

end Sys2Proof.Machine
end

