-- ==== Sys2Proof/Laws/State.lean ====
section
/-! SUPPORT. What each update of the state and of a warp leaves, field by field. -/

namespace Sys2Proof.Machine

/-! ### `State.setWarp` -/

@[simp] theorem State.setWarp_mem (s : State) (w : Nat) (x : Warp) : (s.setWarp w x).mem = s.mem := rfl
@[simp] theorem State.setWarp_plinth (s : State) (w : Nat) (x : Warp) : (s.setWarp w x).plinth = s.plinth := rfl
@[simp] theorem State.setWarp_shared (s : State) (w : Nat) (x : Warp) : (s.setWarp w x).shared = s.shared := rfl
@[simp] theorem State.setWarp_tiles (s : State) (w : Nat) (x : Warp) : (s.setWarp w x).tiles = s.tiles := rfl
@[simp] theorem State.setWarp_poisonMem (s : State) (w : Nat) (x : Warp) : (s.setWarp w x).poisonMem = s.poisonMem := rfl
@[simp] theorem State.setWarp_memCtx (s : State) (w : Nat) (x : Warp) : (s.setWarp w x).memCtx = s.memCtx := rfl
@[simp] theorem State.setWarp_poisonShared (s : State) (w : Nat) (x : Warp) : (s.setWarp w x).poisonShared = s.poisonShared := rfl
@[simp] theorem State.setWarp_poisonTile (s : State) (w : Nat) (x : Warp) : (s.setWarp w x).poisonTile = s.poisonTile := rfl
@[simp] theorem State.setWarp_poisonPlinth (s : State) (w : Nat) (x : Warp) : (s.setWarp w x).poisonPlinth = s.poisonPlinth := rfl
@[simp] theorem State.setWarp_poisonMeta (s : State) (w : Nat) (x : Warp) : (s.setWarp w x).poisonMeta = s.poisonMeta := rfl
@[simp] theorem State.setWarp_blocks (s : State) (w : Nat) (x : Warp) : (s.setWarp w x).blocks = s.blocks := rfl
@[simp] theorem State.setWarp_gangs (s : State) (w : Nat) (x : Warp) : (s.setWarp w x).gangs = s.gangs := rfl
@[simp] theorem State.setWarp_grids (s : State) (w : Nat) (x : Warp) : (s.setWarp w x).grids = s.grids := rfl
@[simp] theorem State.setWarp_clusters (s : State) (w : Nat) (x : Warp) : (s.setWarp w x).clusters = s.clusters := rfl
@[simp] theorem State.setWarp_cores (s : State) (w : Nat) (x : Warp) : (s.setWarp w x).cores = s.cores := rfl
@[simp] theorem State.setWarp_unitCtx (s : State) (w : Nat) (x : Warp) : (s.setWarp w x).unitCtx = s.unitCtx := rfl
@[simp] theorem State.setWarp_chans (s : State) (w : Nat) (x : Warp) : (s.setWarp w x).chans = s.chans := rfl
@[simp] theorem State.setWarp_windows (s : State) (w : Nat) (x : Warp) : (s.setWarp w x).windows = s.windows := rfl
@[simp] theorem State.setWarp_ops (s : State) (w : Nat) (x : Warp) : (s.setWarp w x).ops = s.ops := rfl
@[simp] theorem State.setWarp_dqWaits (s : State) (w : Nat) (x : Warp) : (s.setWarp w x).dqWaits = s.dqWaits := rfl
@[simp] theorem State.setWarp_shadows (s : State) (w : Nat) (x : Warp) : (s.setWarp w x).shadows = s.shadows := rfl
@[simp] theorem State.setWarp_bndMsgs (s : State) (w : Nat) (x : Warp) : (s.setWarp w x).bndMsgs = s.bndMsgs := rfl
@[simp] theorem State.setWarp_parked (s : State) (w : Nat) (x : Warp) : (s.setWarp w x).parked = s.parked := rfl
@[simp] theorem State.setWarp_pageReqs (s : State) (w : Nat) (x : Warp) : (s.setWarp w x).pageReqs = s.pageReqs := rfl
@[simp] theorem State.setWarp_peerLate (s : State) (w : Nat) (x : Warp) : (s.setWarp w x).peerLate = s.peerLate := rfl
@[simp] theorem State.setWarp_tlb (s : State) (w : Nat) (x : Warp) : (s.setWarp w x).tlb = s.tlb := rfl
@[simp] theorem State.setWarp_raceShared (s : State) (w : Nat) (x : Warp) : (s.setWarp w x).raceShared = s.raceShared := rfl
@[simp] theorem State.setWarp_racePlinth (s : State) (w : Nat) (x : Warp) : (s.setWarp w x).racePlinth = s.racePlinth := rfl
@[simp] theorem State.setWarp_relShared (s : State) (w : Nat) (x : Warp) : (s.setWarp w x).relShared = s.relShared := rfl
@[simp] theorem State.setWarp_relPlinth (s : State) (w : Nat) (x : Warp) : (s.setWarp w x).relPlinth = s.relPlinth := rfl
@[simp] theorem State.setWarp_relMem (s : State) (w : Nat) (x : Warp) : (s.setWarp w x).relMem = s.relMem := rfl
@[simp] theorem State.setWarp_cycles (s : State) (w : Nat) (x : Warp) : (s.setWarp w x).cycles = s.cycles := rfl
@[simp] theorem State.setWarp_pageEnds (s : State) (w : Nat) (x : Warp) : (s.setWarp w x).pageEnds = s.pageEnds := rfl
@[simp] theorem State.setWarp_jointerQ (s : State) (w : Nat) (x : Warp) : (s.setWarp w x).jointerQ = s.jointerQ := rfl
@[simp] theorem State.setWarp_sanderQ (s : State) (w : Nat) (x : Warp) : (s.setWarp w x).sanderQ = s.sanderQ := rfl
@[simp] theorem State.setWarp_launchQ (s : State) (w : Nat) (x : Warp) : (s.setWarp w x).launchQ = s.launchQ := rfl
@[simp] theorem State.setWarp_admitQ (s : State) (w : Nat) (x : Warp) : (s.setWarp w x).admitQ = s.admitQ := rfl
@[simp] theorem State.setWarp_ctxs (s : State) (w : Nat) (x : Warp) : (s.setWarp w x).ctxs = s.ctxs := rfl
@[simp] theorem State.setWarp_fns (s : State) (w : Nat) (x : Warp) : (s.setWarp w x).fns = s.fns := rfl
@[simp] theorem State.setWarp_ringLast (s : State) (w : Nat) (x : Warp) : (s.setWarp w x).ringLast = s.ringLast := rfl
@[simp] theorem State.setWarp_keys (s : State) (w : Nat) (x : Warp) : (s.setWarp w x).keys = s.keys := rfl
@[simp] theorem State.setWarp_scrubs (s : State) (w : Nat) (x : Warp) : (s.setWarp w x).scrubs = s.scrubs := rfl
@[simp] theorem State.setWarp_dev (s : State) (w : Nat) (x : Warp) : (s.setWarp w x).dev = s.dev := rfl
@[simp] theorem State.setWarp_turn (s : State) (w : Nat) (x : Warp) : (s.setWarp w x).turn = s.turn := rfl
@[simp] theorem State.setWarp_cur (s : State) (w : Nat) (x : Warp) : (s.setWarp w x).cur = s.cur := rfl
@[simp] theorem State.setWarp_agenda (s : State) (w : Nat) (x : Warp) : (s.setWarp w x).agenda = s.agenda := rfl
@[simp] theorem State.setWarp_freeCtr (s : State) (w : Nat) (x : Warp) : (s.setWarp w x).freeCtr = s.freeCtr := rfl
@[simp] theorem State.setWarp_opCtr (s : State) (w : Nat) (x : Warp) : (s.setWarp w x).opCtr = s.opCtr := rfl
@[simp] theorem State.setWarp_time (s : State) (w : Nat) (x : Warp) : (s.setWarp w x).time = s.time := rfl
@[simp] theorem State.setWarp_coreReset (s : State) (w : Nat) (x : Warp) : (s.setWarp w x).coreReset = s.coreReset := rfl
@[simp] theorem State.setWarp_issues (s : State) (w : Nat) (x : Warp) : (s.setWarp w x).issues = s.issues := rfl
@[simp] theorem State.setWarp_active (s : State) (w : Nat) (x : Warp) : (s.setWarp w x).active = s.active := rfl

/-! ### `State.modWarp` -/

@[simp] theorem State.modWarp_mem (s : State) (w : Nat) (f : Warp → Warp) : (s.modWarp w f).mem = s.mem := rfl
@[simp] theorem State.modWarp_plinth (s : State) (w : Nat) (f : Warp → Warp) : (s.modWarp w f).plinth = s.plinth := rfl
@[simp] theorem State.modWarp_shared (s : State) (w : Nat) (f : Warp → Warp) : (s.modWarp w f).shared = s.shared := rfl
@[simp] theorem State.modWarp_tiles (s : State) (w : Nat) (f : Warp → Warp) : (s.modWarp w f).tiles = s.tiles := rfl
@[simp] theorem State.modWarp_poisonMem (s : State) (w : Nat) (f : Warp → Warp) : (s.modWarp w f).poisonMem = s.poisonMem := rfl
@[simp] theorem State.modWarp_memCtx (s : State) (w : Nat) (f : Warp → Warp) : (s.modWarp w f).memCtx = s.memCtx := rfl
@[simp] theorem State.modWarp_poisonShared (s : State) (w : Nat) (f : Warp → Warp) : (s.modWarp w f).poisonShared = s.poisonShared := rfl
@[simp] theorem State.modWarp_poisonTile (s : State) (w : Nat) (f : Warp → Warp) : (s.modWarp w f).poisonTile = s.poisonTile := rfl
@[simp] theorem State.modWarp_poisonPlinth (s : State) (w : Nat) (f : Warp → Warp) : (s.modWarp w f).poisonPlinth = s.poisonPlinth := rfl
@[simp] theorem State.modWarp_poisonMeta (s : State) (w : Nat) (f : Warp → Warp) : (s.modWarp w f).poisonMeta = s.poisonMeta := rfl
@[simp] theorem State.modWarp_blocks (s : State) (w : Nat) (f : Warp → Warp) : (s.modWarp w f).blocks = s.blocks := rfl
@[simp] theorem State.modWarp_gangs (s : State) (w : Nat) (f : Warp → Warp) : (s.modWarp w f).gangs = s.gangs := rfl
@[simp] theorem State.modWarp_grids (s : State) (w : Nat) (f : Warp → Warp) : (s.modWarp w f).grids = s.grids := rfl
@[simp] theorem State.modWarp_clusters (s : State) (w : Nat) (f : Warp → Warp) : (s.modWarp w f).clusters = s.clusters := rfl
@[simp] theorem State.modWarp_cores (s : State) (w : Nat) (f : Warp → Warp) : (s.modWarp w f).cores = s.cores := rfl
@[simp] theorem State.modWarp_unitCtx (s : State) (w : Nat) (f : Warp → Warp) : (s.modWarp w f).unitCtx = s.unitCtx := rfl
@[simp] theorem State.modWarp_chans (s : State) (w : Nat) (f : Warp → Warp) : (s.modWarp w f).chans = s.chans := rfl
@[simp] theorem State.modWarp_windows (s : State) (w : Nat) (f : Warp → Warp) : (s.modWarp w f).windows = s.windows := rfl
@[simp] theorem State.modWarp_ops (s : State) (w : Nat) (f : Warp → Warp) : (s.modWarp w f).ops = s.ops := rfl
@[simp] theorem State.modWarp_dqWaits (s : State) (w : Nat) (f : Warp → Warp) : (s.modWarp w f).dqWaits = s.dqWaits := rfl
@[simp] theorem State.modWarp_shadows (s : State) (w : Nat) (f : Warp → Warp) : (s.modWarp w f).shadows = s.shadows := rfl
@[simp] theorem State.modWarp_bndMsgs (s : State) (w : Nat) (f : Warp → Warp) : (s.modWarp w f).bndMsgs = s.bndMsgs := rfl
@[simp] theorem State.modWarp_parked (s : State) (w : Nat) (f : Warp → Warp) : (s.modWarp w f).parked = s.parked := rfl
@[simp] theorem State.modWarp_pageReqs (s : State) (w : Nat) (f : Warp → Warp) : (s.modWarp w f).pageReqs = s.pageReqs := rfl
@[simp] theorem State.modWarp_peerLate (s : State) (w : Nat) (f : Warp → Warp) : (s.modWarp w f).peerLate = s.peerLate := rfl
@[simp] theorem State.modWarp_tlb (s : State) (w : Nat) (f : Warp → Warp) : (s.modWarp w f).tlb = s.tlb := rfl
@[simp] theorem State.modWarp_raceShared (s : State) (w : Nat) (f : Warp → Warp) : (s.modWarp w f).raceShared = s.raceShared := rfl
@[simp] theorem State.modWarp_racePlinth (s : State) (w : Nat) (f : Warp → Warp) : (s.modWarp w f).racePlinth = s.racePlinth := rfl
@[simp] theorem State.modWarp_relShared (s : State) (w : Nat) (f : Warp → Warp) : (s.modWarp w f).relShared = s.relShared := rfl
@[simp] theorem State.modWarp_relPlinth (s : State) (w : Nat) (f : Warp → Warp) : (s.modWarp w f).relPlinth = s.relPlinth := rfl
@[simp] theorem State.modWarp_relMem (s : State) (w : Nat) (f : Warp → Warp) : (s.modWarp w f).relMem = s.relMem := rfl
@[simp] theorem State.modWarp_cycles (s : State) (w : Nat) (f : Warp → Warp) : (s.modWarp w f).cycles = s.cycles := rfl
@[simp] theorem State.modWarp_pageEnds (s : State) (w : Nat) (f : Warp → Warp) : (s.modWarp w f).pageEnds = s.pageEnds := rfl
@[simp] theorem State.modWarp_jointerQ (s : State) (w : Nat) (f : Warp → Warp) : (s.modWarp w f).jointerQ = s.jointerQ := rfl
@[simp] theorem State.modWarp_sanderQ (s : State) (w : Nat) (f : Warp → Warp) : (s.modWarp w f).sanderQ = s.sanderQ := rfl
@[simp] theorem State.modWarp_launchQ (s : State) (w : Nat) (f : Warp → Warp) : (s.modWarp w f).launchQ = s.launchQ := rfl
@[simp] theorem State.modWarp_admitQ (s : State) (w : Nat) (f : Warp → Warp) : (s.modWarp w f).admitQ = s.admitQ := rfl
@[simp] theorem State.modWarp_ctxs (s : State) (w : Nat) (f : Warp → Warp) : (s.modWarp w f).ctxs = s.ctxs := rfl
@[simp] theorem State.modWarp_fns (s : State) (w : Nat) (f : Warp → Warp) : (s.modWarp w f).fns = s.fns := rfl
@[simp] theorem State.modWarp_ringLast (s : State) (w : Nat) (f : Warp → Warp) : (s.modWarp w f).ringLast = s.ringLast := rfl
@[simp] theorem State.modWarp_keys (s : State) (w : Nat) (f : Warp → Warp) : (s.modWarp w f).keys = s.keys := rfl
@[simp] theorem State.modWarp_scrubs (s : State) (w : Nat) (f : Warp → Warp) : (s.modWarp w f).scrubs = s.scrubs := rfl
@[simp] theorem State.modWarp_dev (s : State) (w : Nat) (f : Warp → Warp) : (s.modWarp w f).dev = s.dev := rfl
@[simp] theorem State.modWarp_turn (s : State) (w : Nat) (f : Warp → Warp) : (s.modWarp w f).turn = s.turn := rfl
@[simp] theorem State.modWarp_cur (s : State) (w : Nat) (f : Warp → Warp) : (s.modWarp w f).cur = s.cur := rfl
@[simp] theorem State.modWarp_agenda (s : State) (w : Nat) (f : Warp → Warp) : (s.modWarp w f).agenda = s.agenda := rfl
@[simp] theorem State.modWarp_freeCtr (s : State) (w : Nat) (f : Warp → Warp) : (s.modWarp w f).freeCtr = s.freeCtr := rfl
@[simp] theorem State.modWarp_opCtr (s : State) (w : Nat) (f : Warp → Warp) : (s.modWarp w f).opCtr = s.opCtr := rfl
@[simp] theorem State.modWarp_time (s : State) (w : Nat) (f : Warp → Warp) : (s.modWarp w f).time = s.time := rfl
@[simp] theorem State.modWarp_coreReset (s : State) (w : Nat) (f : Warp → Warp) : (s.modWarp w f).coreReset = s.coreReset := rfl
@[simp] theorem State.modWarp_issues (s : State) (w : Nat) (f : Warp → Warp) : (s.modWarp w f).issues = s.issues := rfl
@[simp] theorem State.modWarp_active (s : State) (w : Nat) (f : Warp → Warp) : (s.modWarp w f).active = s.active := rfl

/-! ### `State.modBlk` -/

@[simp] theorem State.modBlk_mem (s : State) (b : Nat) (f : Block → Block) : (s.modBlk b f).mem = s.mem := rfl
@[simp] theorem State.modBlk_plinth (s : State) (b : Nat) (f : Block → Block) : (s.modBlk b f).plinth = s.plinth := rfl
@[simp] theorem State.modBlk_shared (s : State) (b : Nat) (f : Block → Block) : (s.modBlk b f).shared = s.shared := rfl
@[simp] theorem State.modBlk_tiles (s : State) (b : Nat) (f : Block → Block) : (s.modBlk b f).tiles = s.tiles := rfl
@[simp] theorem State.modBlk_poisonMem (s : State) (b : Nat) (f : Block → Block) : (s.modBlk b f).poisonMem = s.poisonMem := rfl
@[simp] theorem State.modBlk_memCtx (s : State) (b : Nat) (f : Block → Block) : (s.modBlk b f).memCtx = s.memCtx := rfl
@[simp] theorem State.modBlk_poisonShared (s : State) (b : Nat) (f : Block → Block) : (s.modBlk b f).poisonShared = s.poisonShared := rfl
@[simp] theorem State.modBlk_poisonTile (s : State) (b : Nat) (f : Block → Block) : (s.modBlk b f).poisonTile = s.poisonTile := rfl
@[simp] theorem State.modBlk_poisonPlinth (s : State) (b : Nat) (f : Block → Block) : (s.modBlk b f).poisonPlinth = s.poisonPlinth := rfl
@[simp] theorem State.modBlk_poisonMeta (s : State) (b : Nat) (f : Block → Block) : (s.modBlk b f).poisonMeta = s.poisonMeta := rfl
@[simp] theorem State.modBlk_warps (s : State) (b : Nat) (f : Block → Block) : (s.modBlk b f).warps = s.warps := rfl
@[simp] theorem State.modBlk_gangs (s : State) (b : Nat) (f : Block → Block) : (s.modBlk b f).gangs = s.gangs := rfl
@[simp] theorem State.modBlk_grids (s : State) (b : Nat) (f : Block → Block) : (s.modBlk b f).grids = s.grids := rfl
@[simp] theorem State.modBlk_clusters (s : State) (b : Nat) (f : Block → Block) : (s.modBlk b f).clusters = s.clusters := rfl
@[simp] theorem State.modBlk_cores (s : State) (b : Nat) (f : Block → Block) : (s.modBlk b f).cores = s.cores := rfl
@[simp] theorem State.modBlk_unitCtx (s : State) (b : Nat) (f : Block → Block) : (s.modBlk b f).unitCtx = s.unitCtx := rfl
@[simp] theorem State.modBlk_chans (s : State) (b : Nat) (f : Block → Block) : (s.modBlk b f).chans = s.chans := rfl
@[simp] theorem State.modBlk_windows (s : State) (b : Nat) (f : Block → Block) : (s.modBlk b f).windows = s.windows := rfl
@[simp] theorem State.modBlk_ops (s : State) (b : Nat) (f : Block → Block) : (s.modBlk b f).ops = s.ops := rfl
@[simp] theorem State.modBlk_dqWaits (s : State) (b : Nat) (f : Block → Block) : (s.modBlk b f).dqWaits = s.dqWaits := rfl
@[simp] theorem State.modBlk_shadows (s : State) (b : Nat) (f : Block → Block) : (s.modBlk b f).shadows = s.shadows := rfl
@[simp] theorem State.modBlk_bndMsgs (s : State) (b : Nat) (f : Block → Block) : (s.modBlk b f).bndMsgs = s.bndMsgs := rfl
@[simp] theorem State.modBlk_parked (s : State) (b : Nat) (f : Block → Block) : (s.modBlk b f).parked = s.parked := rfl
@[simp] theorem State.modBlk_pageReqs (s : State) (b : Nat) (f : Block → Block) : (s.modBlk b f).pageReqs = s.pageReqs := rfl
@[simp] theorem State.modBlk_peerLate (s : State) (b : Nat) (f : Block → Block) : (s.modBlk b f).peerLate = s.peerLate := rfl
@[simp] theorem State.modBlk_tlb (s : State) (b : Nat) (f : Block → Block) : (s.modBlk b f).tlb = s.tlb := rfl
@[simp] theorem State.modBlk_raceShared (s : State) (b : Nat) (f : Block → Block) : (s.modBlk b f).raceShared = s.raceShared := rfl
@[simp] theorem State.modBlk_racePlinth (s : State) (b : Nat) (f : Block → Block) : (s.modBlk b f).racePlinth = s.racePlinth := rfl
@[simp] theorem State.modBlk_relShared (s : State) (b : Nat) (f : Block → Block) : (s.modBlk b f).relShared = s.relShared := rfl
@[simp] theorem State.modBlk_relPlinth (s : State) (b : Nat) (f : Block → Block) : (s.modBlk b f).relPlinth = s.relPlinth := rfl
@[simp] theorem State.modBlk_relMem (s : State) (b : Nat) (f : Block → Block) : (s.modBlk b f).relMem = s.relMem := rfl
@[simp] theorem State.modBlk_cycles (s : State) (b : Nat) (f : Block → Block) : (s.modBlk b f).cycles = s.cycles := rfl
@[simp] theorem State.modBlk_pageEnds (s : State) (b : Nat) (f : Block → Block) : (s.modBlk b f).pageEnds = s.pageEnds := rfl
@[simp] theorem State.modBlk_jointerQ (s : State) (b : Nat) (f : Block → Block) : (s.modBlk b f).jointerQ = s.jointerQ := rfl
@[simp] theorem State.modBlk_sanderQ (s : State) (b : Nat) (f : Block → Block) : (s.modBlk b f).sanderQ = s.sanderQ := rfl
@[simp] theorem State.modBlk_launchQ (s : State) (b : Nat) (f : Block → Block) : (s.modBlk b f).launchQ = s.launchQ := rfl
@[simp] theorem State.modBlk_admitQ (s : State) (b : Nat) (f : Block → Block) : (s.modBlk b f).admitQ = s.admitQ := rfl
@[simp] theorem State.modBlk_ctxs (s : State) (b : Nat) (f : Block → Block) : (s.modBlk b f).ctxs = s.ctxs := rfl
@[simp] theorem State.modBlk_fns (s : State) (b : Nat) (f : Block → Block) : (s.modBlk b f).fns = s.fns := rfl
@[simp] theorem State.modBlk_ringLast (s : State) (b : Nat) (f : Block → Block) : (s.modBlk b f).ringLast = s.ringLast := rfl
@[simp] theorem State.modBlk_keys (s : State) (b : Nat) (f : Block → Block) : (s.modBlk b f).keys = s.keys := rfl
@[simp] theorem State.modBlk_scrubs (s : State) (b : Nat) (f : Block → Block) : (s.modBlk b f).scrubs = s.scrubs := rfl
@[simp] theorem State.modBlk_dev (s : State) (b : Nat) (f : Block → Block) : (s.modBlk b f).dev = s.dev := rfl
@[simp] theorem State.modBlk_turn (s : State) (b : Nat) (f : Block → Block) : (s.modBlk b f).turn = s.turn := rfl
@[simp] theorem State.modBlk_cur (s : State) (b : Nat) (f : Block → Block) : (s.modBlk b f).cur = s.cur := rfl
@[simp] theorem State.modBlk_agenda (s : State) (b : Nat) (f : Block → Block) : (s.modBlk b f).agenda = s.agenda := rfl
@[simp] theorem State.modBlk_freeCtr (s : State) (b : Nat) (f : Block → Block) : (s.modBlk b f).freeCtr = s.freeCtr := rfl
@[simp] theorem State.modBlk_opCtr (s : State) (b : Nat) (f : Block → Block) : (s.modBlk b f).opCtr = s.opCtr := rfl
@[simp] theorem State.modBlk_time (s : State) (b : Nat) (f : Block → Block) : (s.modBlk b f).time = s.time := rfl
@[simp] theorem State.modBlk_coreReset (s : State) (b : Nat) (f : Block → Block) : (s.modBlk b f).coreReset = s.coreReset := rfl
@[simp] theorem State.modBlk_issues (s : State) (b : Nat) (f : Block → Block) : (s.modBlk b f).issues = s.issues := rfl
@[simp] theorem State.modBlk_active (s : State) (b : Nat) (f : Block → Block) : (s.modBlk b f).active = s.active := rfl

/-! ### `State.modGang` -/

@[simp] theorem State.modGang_mem (s : State) (g : Nat) (f : Gang → Gang) : (s.modGang g f).mem = s.mem := rfl
@[simp] theorem State.modGang_plinth (s : State) (g : Nat) (f : Gang → Gang) : (s.modGang g f).plinth = s.plinth := rfl
@[simp] theorem State.modGang_shared (s : State) (g : Nat) (f : Gang → Gang) : (s.modGang g f).shared = s.shared := rfl
@[simp] theorem State.modGang_tiles (s : State) (g : Nat) (f : Gang → Gang) : (s.modGang g f).tiles = s.tiles := rfl
@[simp] theorem State.modGang_poisonMem (s : State) (g : Nat) (f : Gang → Gang) : (s.modGang g f).poisonMem = s.poisonMem := rfl
@[simp] theorem State.modGang_memCtx (s : State) (g : Nat) (f : Gang → Gang) : (s.modGang g f).memCtx = s.memCtx := rfl
@[simp] theorem State.modGang_poisonShared (s : State) (g : Nat) (f : Gang → Gang) : (s.modGang g f).poisonShared = s.poisonShared := rfl
@[simp] theorem State.modGang_poisonTile (s : State) (g : Nat) (f : Gang → Gang) : (s.modGang g f).poisonTile = s.poisonTile := rfl
@[simp] theorem State.modGang_poisonPlinth (s : State) (g : Nat) (f : Gang → Gang) : (s.modGang g f).poisonPlinth = s.poisonPlinth := rfl
@[simp] theorem State.modGang_poisonMeta (s : State) (g : Nat) (f : Gang → Gang) : (s.modGang g f).poisonMeta = s.poisonMeta := rfl
@[simp] theorem State.modGang_warps (s : State) (g : Nat) (f : Gang → Gang) : (s.modGang g f).warps = s.warps := rfl
@[simp] theorem State.modGang_blocks (s : State) (g : Nat) (f : Gang → Gang) : (s.modGang g f).blocks = s.blocks := rfl
@[simp] theorem State.modGang_grids (s : State) (g : Nat) (f : Gang → Gang) : (s.modGang g f).grids = s.grids := rfl
@[simp] theorem State.modGang_clusters (s : State) (g : Nat) (f : Gang → Gang) : (s.modGang g f).clusters = s.clusters := rfl
@[simp] theorem State.modGang_cores (s : State) (g : Nat) (f : Gang → Gang) : (s.modGang g f).cores = s.cores := rfl
@[simp] theorem State.modGang_unitCtx (s : State) (g : Nat) (f : Gang → Gang) : (s.modGang g f).unitCtx = s.unitCtx := rfl
@[simp] theorem State.modGang_chans (s : State) (g : Nat) (f : Gang → Gang) : (s.modGang g f).chans = s.chans := rfl
@[simp] theorem State.modGang_windows (s : State) (g : Nat) (f : Gang → Gang) : (s.modGang g f).windows = s.windows := rfl
@[simp] theorem State.modGang_ops (s : State) (g : Nat) (f : Gang → Gang) : (s.modGang g f).ops = s.ops := rfl
@[simp] theorem State.modGang_dqWaits (s : State) (g : Nat) (f : Gang → Gang) : (s.modGang g f).dqWaits = s.dqWaits := rfl
@[simp] theorem State.modGang_shadows (s : State) (g : Nat) (f : Gang → Gang) : (s.modGang g f).shadows = s.shadows := rfl
@[simp] theorem State.modGang_bndMsgs (s : State) (g : Nat) (f : Gang → Gang) : (s.modGang g f).bndMsgs = s.bndMsgs := rfl
@[simp] theorem State.modGang_parked (s : State) (g : Nat) (f : Gang → Gang) : (s.modGang g f).parked = s.parked := rfl
@[simp] theorem State.modGang_pageReqs (s : State) (g : Nat) (f : Gang → Gang) : (s.modGang g f).pageReqs = s.pageReqs := rfl
@[simp] theorem State.modGang_peerLate (s : State) (g : Nat) (f : Gang → Gang) : (s.modGang g f).peerLate = s.peerLate := rfl
@[simp] theorem State.modGang_tlb (s : State) (g : Nat) (f : Gang → Gang) : (s.modGang g f).tlb = s.tlb := rfl
@[simp] theorem State.modGang_raceShared (s : State) (g : Nat) (f : Gang → Gang) : (s.modGang g f).raceShared = s.raceShared := rfl
@[simp] theorem State.modGang_racePlinth (s : State) (g : Nat) (f : Gang → Gang) : (s.modGang g f).racePlinth = s.racePlinth := rfl
@[simp] theorem State.modGang_relShared (s : State) (g : Nat) (f : Gang → Gang) : (s.modGang g f).relShared = s.relShared := rfl
@[simp] theorem State.modGang_relPlinth (s : State) (g : Nat) (f : Gang → Gang) : (s.modGang g f).relPlinth = s.relPlinth := rfl
@[simp] theorem State.modGang_relMem (s : State) (g : Nat) (f : Gang → Gang) : (s.modGang g f).relMem = s.relMem := rfl
@[simp] theorem State.modGang_cycles (s : State) (g : Nat) (f : Gang → Gang) : (s.modGang g f).cycles = s.cycles := rfl
@[simp] theorem State.modGang_pageEnds (s : State) (g : Nat) (f : Gang → Gang) : (s.modGang g f).pageEnds = s.pageEnds := rfl
@[simp] theorem State.modGang_jointerQ (s : State) (g : Nat) (f : Gang → Gang) : (s.modGang g f).jointerQ = s.jointerQ := rfl
@[simp] theorem State.modGang_sanderQ (s : State) (g : Nat) (f : Gang → Gang) : (s.modGang g f).sanderQ = s.sanderQ := rfl
@[simp] theorem State.modGang_launchQ (s : State) (g : Nat) (f : Gang → Gang) : (s.modGang g f).launchQ = s.launchQ := rfl
@[simp] theorem State.modGang_admitQ (s : State) (g : Nat) (f : Gang → Gang) : (s.modGang g f).admitQ = s.admitQ := rfl
@[simp] theorem State.modGang_ctxs (s : State) (g : Nat) (f : Gang → Gang) : (s.modGang g f).ctxs = s.ctxs := rfl
@[simp] theorem State.modGang_fns (s : State) (g : Nat) (f : Gang → Gang) : (s.modGang g f).fns = s.fns := rfl
@[simp] theorem State.modGang_ringLast (s : State) (g : Nat) (f : Gang → Gang) : (s.modGang g f).ringLast = s.ringLast := rfl
@[simp] theorem State.modGang_keys (s : State) (g : Nat) (f : Gang → Gang) : (s.modGang g f).keys = s.keys := rfl
@[simp] theorem State.modGang_scrubs (s : State) (g : Nat) (f : Gang → Gang) : (s.modGang g f).scrubs = s.scrubs := rfl
@[simp] theorem State.modGang_dev (s : State) (g : Nat) (f : Gang → Gang) : (s.modGang g f).dev = s.dev := rfl
@[simp] theorem State.modGang_turn (s : State) (g : Nat) (f : Gang → Gang) : (s.modGang g f).turn = s.turn := rfl
@[simp] theorem State.modGang_cur (s : State) (g : Nat) (f : Gang → Gang) : (s.modGang g f).cur = s.cur := rfl
@[simp] theorem State.modGang_agenda (s : State) (g : Nat) (f : Gang → Gang) : (s.modGang g f).agenda = s.agenda := rfl
@[simp] theorem State.modGang_freeCtr (s : State) (g : Nat) (f : Gang → Gang) : (s.modGang g f).freeCtr = s.freeCtr := rfl
@[simp] theorem State.modGang_opCtr (s : State) (g : Nat) (f : Gang → Gang) : (s.modGang g f).opCtr = s.opCtr := rfl
@[simp] theorem State.modGang_time (s : State) (g : Nat) (f : Gang → Gang) : (s.modGang g f).time = s.time := rfl
@[simp] theorem State.modGang_coreReset (s : State) (g : Nat) (f : Gang → Gang) : (s.modGang g f).coreReset = s.coreReset := rfl
@[simp] theorem State.modGang_issues (s : State) (g : Nat) (f : Gang → Gang) : (s.modGang g f).issues = s.issues := rfl
@[simp] theorem State.modGang_active (s : State) (g : Nat) (f : Gang → Gang) : (s.modGang g f).active = s.active := rfl

/-! ### `State.modGrid` -/

@[simp] theorem State.modGrid_mem (s : State) (g : Nat) (f : Grid → Grid) : (s.modGrid g f).mem = s.mem := rfl
@[simp] theorem State.modGrid_plinth (s : State) (g : Nat) (f : Grid → Grid) : (s.modGrid g f).plinth = s.plinth := rfl
@[simp] theorem State.modGrid_shared (s : State) (g : Nat) (f : Grid → Grid) : (s.modGrid g f).shared = s.shared := rfl
@[simp] theorem State.modGrid_tiles (s : State) (g : Nat) (f : Grid → Grid) : (s.modGrid g f).tiles = s.tiles := rfl
@[simp] theorem State.modGrid_poisonMem (s : State) (g : Nat) (f : Grid → Grid) : (s.modGrid g f).poisonMem = s.poisonMem := rfl
@[simp] theorem State.modGrid_memCtx (s : State) (g : Nat) (f : Grid → Grid) : (s.modGrid g f).memCtx = s.memCtx := rfl
@[simp] theorem State.modGrid_poisonShared (s : State) (g : Nat) (f : Grid → Grid) : (s.modGrid g f).poisonShared = s.poisonShared := rfl
@[simp] theorem State.modGrid_poisonTile (s : State) (g : Nat) (f : Grid → Grid) : (s.modGrid g f).poisonTile = s.poisonTile := rfl
@[simp] theorem State.modGrid_poisonPlinth (s : State) (g : Nat) (f : Grid → Grid) : (s.modGrid g f).poisonPlinth = s.poisonPlinth := rfl
@[simp] theorem State.modGrid_poisonMeta (s : State) (g : Nat) (f : Grid → Grid) : (s.modGrid g f).poisonMeta = s.poisonMeta := rfl
@[simp] theorem State.modGrid_warps (s : State) (g : Nat) (f : Grid → Grid) : (s.modGrid g f).warps = s.warps := rfl
@[simp] theorem State.modGrid_blocks (s : State) (g : Nat) (f : Grid → Grid) : (s.modGrid g f).blocks = s.blocks := rfl
@[simp] theorem State.modGrid_gangs (s : State) (g : Nat) (f : Grid → Grid) : (s.modGrid g f).gangs = s.gangs := rfl
@[simp] theorem State.modGrid_clusters (s : State) (g : Nat) (f : Grid → Grid) : (s.modGrid g f).clusters = s.clusters := rfl
@[simp] theorem State.modGrid_cores (s : State) (g : Nat) (f : Grid → Grid) : (s.modGrid g f).cores = s.cores := rfl
@[simp] theorem State.modGrid_unitCtx (s : State) (g : Nat) (f : Grid → Grid) : (s.modGrid g f).unitCtx = s.unitCtx := rfl
@[simp] theorem State.modGrid_chans (s : State) (g : Nat) (f : Grid → Grid) : (s.modGrid g f).chans = s.chans := rfl
@[simp] theorem State.modGrid_windows (s : State) (g : Nat) (f : Grid → Grid) : (s.modGrid g f).windows = s.windows := rfl
@[simp] theorem State.modGrid_ops (s : State) (g : Nat) (f : Grid → Grid) : (s.modGrid g f).ops = s.ops := rfl
@[simp] theorem State.modGrid_dqWaits (s : State) (g : Nat) (f : Grid → Grid) : (s.modGrid g f).dqWaits = s.dqWaits := rfl
@[simp] theorem State.modGrid_shadows (s : State) (g : Nat) (f : Grid → Grid) : (s.modGrid g f).shadows = s.shadows := rfl
@[simp] theorem State.modGrid_bndMsgs (s : State) (g : Nat) (f : Grid → Grid) : (s.modGrid g f).bndMsgs = s.bndMsgs := rfl
@[simp] theorem State.modGrid_parked (s : State) (g : Nat) (f : Grid → Grid) : (s.modGrid g f).parked = s.parked := rfl
@[simp] theorem State.modGrid_pageReqs (s : State) (g : Nat) (f : Grid → Grid) : (s.modGrid g f).pageReqs = s.pageReqs := rfl
@[simp] theorem State.modGrid_peerLate (s : State) (g : Nat) (f : Grid → Grid) : (s.modGrid g f).peerLate = s.peerLate := rfl
@[simp] theorem State.modGrid_tlb (s : State) (g : Nat) (f : Grid → Grid) : (s.modGrid g f).tlb = s.tlb := rfl
@[simp] theorem State.modGrid_raceShared (s : State) (g : Nat) (f : Grid → Grid) : (s.modGrid g f).raceShared = s.raceShared := rfl
@[simp] theorem State.modGrid_racePlinth (s : State) (g : Nat) (f : Grid → Grid) : (s.modGrid g f).racePlinth = s.racePlinth := rfl
@[simp] theorem State.modGrid_relShared (s : State) (g : Nat) (f : Grid → Grid) : (s.modGrid g f).relShared = s.relShared := rfl
@[simp] theorem State.modGrid_relPlinth (s : State) (g : Nat) (f : Grid → Grid) : (s.modGrid g f).relPlinth = s.relPlinth := rfl
@[simp] theorem State.modGrid_relMem (s : State) (g : Nat) (f : Grid → Grid) : (s.modGrid g f).relMem = s.relMem := rfl
@[simp] theorem State.modGrid_cycles (s : State) (g : Nat) (f : Grid → Grid) : (s.modGrid g f).cycles = s.cycles := rfl
@[simp] theorem State.modGrid_pageEnds (s : State) (g : Nat) (f : Grid → Grid) : (s.modGrid g f).pageEnds = s.pageEnds := rfl
@[simp] theorem State.modGrid_jointerQ (s : State) (g : Nat) (f : Grid → Grid) : (s.modGrid g f).jointerQ = s.jointerQ := rfl
@[simp] theorem State.modGrid_sanderQ (s : State) (g : Nat) (f : Grid → Grid) : (s.modGrid g f).sanderQ = s.sanderQ := rfl
@[simp] theorem State.modGrid_launchQ (s : State) (g : Nat) (f : Grid → Grid) : (s.modGrid g f).launchQ = s.launchQ := rfl
@[simp] theorem State.modGrid_admitQ (s : State) (g : Nat) (f : Grid → Grid) : (s.modGrid g f).admitQ = s.admitQ := rfl
@[simp] theorem State.modGrid_ctxs (s : State) (g : Nat) (f : Grid → Grid) : (s.modGrid g f).ctxs = s.ctxs := rfl
@[simp] theorem State.modGrid_fns (s : State) (g : Nat) (f : Grid → Grid) : (s.modGrid g f).fns = s.fns := rfl
@[simp] theorem State.modGrid_ringLast (s : State) (g : Nat) (f : Grid → Grid) : (s.modGrid g f).ringLast = s.ringLast := rfl
@[simp] theorem State.modGrid_keys (s : State) (g : Nat) (f : Grid → Grid) : (s.modGrid g f).keys = s.keys := rfl
@[simp] theorem State.modGrid_scrubs (s : State) (g : Nat) (f : Grid → Grid) : (s.modGrid g f).scrubs = s.scrubs := rfl
@[simp] theorem State.modGrid_dev (s : State) (g : Nat) (f : Grid → Grid) : (s.modGrid g f).dev = s.dev := rfl
@[simp] theorem State.modGrid_turn (s : State) (g : Nat) (f : Grid → Grid) : (s.modGrid g f).turn = s.turn := rfl
@[simp] theorem State.modGrid_cur (s : State) (g : Nat) (f : Grid → Grid) : (s.modGrid g f).cur = s.cur := rfl
@[simp] theorem State.modGrid_agenda (s : State) (g : Nat) (f : Grid → Grid) : (s.modGrid g f).agenda = s.agenda := rfl
@[simp] theorem State.modGrid_freeCtr (s : State) (g : Nat) (f : Grid → Grid) : (s.modGrid g f).freeCtr = s.freeCtr := rfl
@[simp] theorem State.modGrid_opCtr (s : State) (g : Nat) (f : Grid → Grid) : (s.modGrid g f).opCtr = s.opCtr := rfl
@[simp] theorem State.modGrid_time (s : State) (g : Nat) (f : Grid → Grid) : (s.modGrid g f).time = s.time := rfl
@[simp] theorem State.modGrid_coreReset (s : State) (g : Nat) (f : Grid → Grid) : (s.modGrid g f).coreReset = s.coreReset := rfl
@[simp] theorem State.modGrid_issues (s : State) (g : Nat) (f : Grid → Grid) : (s.modGrid g f).issues = s.issues := rfl
@[simp] theorem State.modGrid_active (s : State) (g : Nat) (f : Grid → Grid) : (s.modGrid g f).active = s.active := rfl

/-! ### `State.modCluster` -/

@[simp] theorem State.modCluster_mem (s : State) (c : Nat) (f : Cluster → Cluster) : (s.modCluster c f).mem = s.mem := rfl
@[simp] theorem State.modCluster_plinth (s : State) (c : Nat) (f : Cluster → Cluster) : (s.modCluster c f).plinth = s.plinth := rfl
@[simp] theorem State.modCluster_shared (s : State) (c : Nat) (f : Cluster → Cluster) : (s.modCluster c f).shared = s.shared := rfl
@[simp] theorem State.modCluster_tiles (s : State) (c : Nat) (f : Cluster → Cluster) : (s.modCluster c f).tiles = s.tiles := rfl
@[simp] theorem State.modCluster_poisonMem (s : State) (c : Nat) (f : Cluster → Cluster) : (s.modCluster c f).poisonMem = s.poisonMem := rfl
@[simp] theorem State.modCluster_memCtx (s : State) (c : Nat) (f : Cluster → Cluster) : (s.modCluster c f).memCtx = s.memCtx := rfl
@[simp] theorem State.modCluster_poisonShared (s : State) (c : Nat) (f : Cluster → Cluster) : (s.modCluster c f).poisonShared = s.poisonShared := rfl
@[simp] theorem State.modCluster_poisonTile (s : State) (c : Nat) (f : Cluster → Cluster) : (s.modCluster c f).poisonTile = s.poisonTile := rfl
@[simp] theorem State.modCluster_poisonPlinth (s : State) (c : Nat) (f : Cluster → Cluster) : (s.modCluster c f).poisonPlinth = s.poisonPlinth := rfl
@[simp] theorem State.modCluster_poisonMeta (s : State) (c : Nat) (f : Cluster → Cluster) : (s.modCluster c f).poisonMeta = s.poisonMeta := rfl
@[simp] theorem State.modCluster_warps (s : State) (c : Nat) (f : Cluster → Cluster) : (s.modCluster c f).warps = s.warps := rfl
@[simp] theorem State.modCluster_blocks (s : State) (c : Nat) (f : Cluster → Cluster) : (s.modCluster c f).blocks = s.blocks := rfl
@[simp] theorem State.modCluster_gangs (s : State) (c : Nat) (f : Cluster → Cluster) : (s.modCluster c f).gangs = s.gangs := rfl
@[simp] theorem State.modCluster_grids (s : State) (c : Nat) (f : Cluster → Cluster) : (s.modCluster c f).grids = s.grids := rfl
@[simp] theorem State.modCluster_cores (s : State) (c : Nat) (f : Cluster → Cluster) : (s.modCluster c f).cores = s.cores := rfl
@[simp] theorem State.modCluster_unitCtx (s : State) (c : Nat) (f : Cluster → Cluster) : (s.modCluster c f).unitCtx = s.unitCtx := rfl
@[simp] theorem State.modCluster_chans (s : State) (c : Nat) (f : Cluster → Cluster) : (s.modCluster c f).chans = s.chans := rfl
@[simp] theorem State.modCluster_windows (s : State) (c : Nat) (f : Cluster → Cluster) : (s.modCluster c f).windows = s.windows := rfl
@[simp] theorem State.modCluster_ops (s : State) (c : Nat) (f : Cluster → Cluster) : (s.modCluster c f).ops = s.ops := rfl
@[simp] theorem State.modCluster_dqWaits (s : State) (c : Nat) (f : Cluster → Cluster) : (s.modCluster c f).dqWaits = s.dqWaits := rfl
@[simp] theorem State.modCluster_shadows (s : State) (c : Nat) (f : Cluster → Cluster) : (s.modCluster c f).shadows = s.shadows := rfl
@[simp] theorem State.modCluster_bndMsgs (s : State) (c : Nat) (f : Cluster → Cluster) : (s.modCluster c f).bndMsgs = s.bndMsgs := rfl
@[simp] theorem State.modCluster_parked (s : State) (c : Nat) (f : Cluster → Cluster) : (s.modCluster c f).parked = s.parked := rfl
@[simp] theorem State.modCluster_pageReqs (s : State) (c : Nat) (f : Cluster → Cluster) : (s.modCluster c f).pageReqs = s.pageReqs := rfl
@[simp] theorem State.modCluster_peerLate (s : State) (c : Nat) (f : Cluster → Cluster) : (s.modCluster c f).peerLate = s.peerLate := rfl
@[simp] theorem State.modCluster_tlb (s : State) (c : Nat) (f : Cluster → Cluster) : (s.modCluster c f).tlb = s.tlb := rfl
@[simp] theorem State.modCluster_raceShared (s : State) (c : Nat) (f : Cluster → Cluster) : (s.modCluster c f).raceShared = s.raceShared := rfl
@[simp] theorem State.modCluster_racePlinth (s : State) (c : Nat) (f : Cluster → Cluster) : (s.modCluster c f).racePlinth = s.racePlinth := rfl
@[simp] theorem State.modCluster_relShared (s : State) (c : Nat) (f : Cluster → Cluster) : (s.modCluster c f).relShared = s.relShared := rfl
@[simp] theorem State.modCluster_relPlinth (s : State) (c : Nat) (f : Cluster → Cluster) : (s.modCluster c f).relPlinth = s.relPlinth := rfl
@[simp] theorem State.modCluster_relMem (s : State) (c : Nat) (f : Cluster → Cluster) : (s.modCluster c f).relMem = s.relMem := rfl
@[simp] theorem State.modCluster_cycles (s : State) (c : Nat) (f : Cluster → Cluster) : (s.modCluster c f).cycles = s.cycles := rfl
@[simp] theorem State.modCluster_pageEnds (s : State) (c : Nat) (f : Cluster → Cluster) : (s.modCluster c f).pageEnds = s.pageEnds := rfl
@[simp] theorem State.modCluster_jointerQ (s : State) (c : Nat) (f : Cluster → Cluster) : (s.modCluster c f).jointerQ = s.jointerQ := rfl
@[simp] theorem State.modCluster_sanderQ (s : State) (c : Nat) (f : Cluster → Cluster) : (s.modCluster c f).sanderQ = s.sanderQ := rfl
@[simp] theorem State.modCluster_launchQ (s : State) (c : Nat) (f : Cluster → Cluster) : (s.modCluster c f).launchQ = s.launchQ := rfl
@[simp] theorem State.modCluster_admitQ (s : State) (c : Nat) (f : Cluster → Cluster) : (s.modCluster c f).admitQ = s.admitQ := rfl
@[simp] theorem State.modCluster_ctxs (s : State) (c : Nat) (f : Cluster → Cluster) : (s.modCluster c f).ctxs = s.ctxs := rfl
@[simp] theorem State.modCluster_fns (s : State) (c : Nat) (f : Cluster → Cluster) : (s.modCluster c f).fns = s.fns := rfl
@[simp] theorem State.modCluster_ringLast (s : State) (c : Nat) (f : Cluster → Cluster) : (s.modCluster c f).ringLast = s.ringLast := rfl
@[simp] theorem State.modCluster_keys (s : State) (c : Nat) (f : Cluster → Cluster) : (s.modCluster c f).keys = s.keys := rfl
@[simp] theorem State.modCluster_scrubs (s : State) (c : Nat) (f : Cluster → Cluster) : (s.modCluster c f).scrubs = s.scrubs := rfl
@[simp] theorem State.modCluster_dev (s : State) (c : Nat) (f : Cluster → Cluster) : (s.modCluster c f).dev = s.dev := rfl
@[simp] theorem State.modCluster_turn (s : State) (c : Nat) (f : Cluster → Cluster) : (s.modCluster c f).turn = s.turn := rfl
@[simp] theorem State.modCluster_cur (s : State) (c : Nat) (f : Cluster → Cluster) : (s.modCluster c f).cur = s.cur := rfl
@[simp] theorem State.modCluster_agenda (s : State) (c : Nat) (f : Cluster → Cluster) : (s.modCluster c f).agenda = s.agenda := rfl
@[simp] theorem State.modCluster_freeCtr (s : State) (c : Nat) (f : Cluster → Cluster) : (s.modCluster c f).freeCtr = s.freeCtr := rfl
@[simp] theorem State.modCluster_opCtr (s : State) (c : Nat) (f : Cluster → Cluster) : (s.modCluster c f).opCtr = s.opCtr := rfl
@[simp] theorem State.modCluster_time (s : State) (c : Nat) (f : Cluster → Cluster) : (s.modCluster c f).time = s.time := rfl
@[simp] theorem State.modCluster_coreReset (s : State) (c : Nat) (f : Cluster → Cluster) : (s.modCluster c f).coreReset = s.coreReset := rfl
@[simp] theorem State.modCluster_issues (s : State) (c : Nat) (f : Cluster → Cluster) : (s.modCluster c f).issues = s.issues := rfl
@[simp] theorem State.modCluster_active (s : State) (c : Nat) (f : Cluster → Cluster) : (s.modCluster c f).active = s.active := rfl

/-! ### `State.modChan` -/

@[simp] theorem State.modChan_mem (s : State) (n : Nat) (f : Chan → Chan) : (s.modChan n f).mem = s.mem := rfl
@[simp] theorem State.modChan_plinth (s : State) (n : Nat) (f : Chan → Chan) : (s.modChan n f).plinth = s.plinth := rfl
@[simp] theorem State.modChan_shared (s : State) (n : Nat) (f : Chan → Chan) : (s.modChan n f).shared = s.shared := rfl
@[simp] theorem State.modChan_tiles (s : State) (n : Nat) (f : Chan → Chan) : (s.modChan n f).tiles = s.tiles := rfl
@[simp] theorem State.modChan_poisonMem (s : State) (n : Nat) (f : Chan → Chan) : (s.modChan n f).poisonMem = s.poisonMem := rfl
@[simp] theorem State.modChan_memCtx (s : State) (n : Nat) (f : Chan → Chan) : (s.modChan n f).memCtx = s.memCtx := rfl
@[simp] theorem State.modChan_poisonShared (s : State) (n : Nat) (f : Chan → Chan) : (s.modChan n f).poisonShared = s.poisonShared := rfl
@[simp] theorem State.modChan_poisonTile (s : State) (n : Nat) (f : Chan → Chan) : (s.modChan n f).poisonTile = s.poisonTile := rfl
@[simp] theorem State.modChan_poisonPlinth (s : State) (n : Nat) (f : Chan → Chan) : (s.modChan n f).poisonPlinth = s.poisonPlinth := rfl
@[simp] theorem State.modChan_poisonMeta (s : State) (n : Nat) (f : Chan → Chan) : (s.modChan n f).poisonMeta = s.poisonMeta := rfl
@[simp] theorem State.modChan_warps (s : State) (n : Nat) (f : Chan → Chan) : (s.modChan n f).warps = s.warps := rfl
@[simp] theorem State.modChan_blocks (s : State) (n : Nat) (f : Chan → Chan) : (s.modChan n f).blocks = s.blocks := rfl
@[simp] theorem State.modChan_gangs (s : State) (n : Nat) (f : Chan → Chan) : (s.modChan n f).gangs = s.gangs := rfl
@[simp] theorem State.modChan_grids (s : State) (n : Nat) (f : Chan → Chan) : (s.modChan n f).grids = s.grids := rfl
@[simp] theorem State.modChan_clusters (s : State) (n : Nat) (f : Chan → Chan) : (s.modChan n f).clusters = s.clusters := rfl
@[simp] theorem State.modChan_cores (s : State) (n : Nat) (f : Chan → Chan) : (s.modChan n f).cores = s.cores := rfl
@[simp] theorem State.modChan_unitCtx (s : State) (n : Nat) (f : Chan → Chan) : (s.modChan n f).unitCtx = s.unitCtx := rfl
@[simp] theorem State.modChan_windows (s : State) (n : Nat) (f : Chan → Chan) : (s.modChan n f).windows = s.windows := rfl
@[simp] theorem State.modChan_ops (s : State) (n : Nat) (f : Chan → Chan) : (s.modChan n f).ops = s.ops := rfl
@[simp] theorem State.modChan_dqWaits (s : State) (n : Nat) (f : Chan → Chan) : (s.modChan n f).dqWaits = s.dqWaits := rfl
@[simp] theorem State.modChan_shadows (s : State) (n : Nat) (f : Chan → Chan) : (s.modChan n f).shadows = s.shadows := rfl
@[simp] theorem State.modChan_bndMsgs (s : State) (n : Nat) (f : Chan → Chan) : (s.modChan n f).bndMsgs = s.bndMsgs := rfl
@[simp] theorem State.modChan_parked (s : State) (n : Nat) (f : Chan → Chan) : (s.modChan n f).parked = s.parked := rfl
@[simp] theorem State.modChan_pageReqs (s : State) (n : Nat) (f : Chan → Chan) : (s.modChan n f).pageReqs = s.pageReqs := rfl
@[simp] theorem State.modChan_peerLate (s : State) (n : Nat) (f : Chan → Chan) : (s.modChan n f).peerLate = s.peerLate := rfl
@[simp] theorem State.modChan_tlb (s : State) (n : Nat) (f : Chan → Chan) : (s.modChan n f).tlb = s.tlb := rfl
@[simp] theorem State.modChan_raceShared (s : State) (n : Nat) (f : Chan → Chan) : (s.modChan n f).raceShared = s.raceShared := rfl
@[simp] theorem State.modChan_racePlinth (s : State) (n : Nat) (f : Chan → Chan) : (s.modChan n f).racePlinth = s.racePlinth := rfl
@[simp] theorem State.modChan_relShared (s : State) (n : Nat) (f : Chan → Chan) : (s.modChan n f).relShared = s.relShared := rfl
@[simp] theorem State.modChan_relPlinth (s : State) (n : Nat) (f : Chan → Chan) : (s.modChan n f).relPlinth = s.relPlinth := rfl
@[simp] theorem State.modChan_relMem (s : State) (n : Nat) (f : Chan → Chan) : (s.modChan n f).relMem = s.relMem := rfl
@[simp] theorem State.modChan_cycles (s : State) (n : Nat) (f : Chan → Chan) : (s.modChan n f).cycles = s.cycles := rfl
@[simp] theorem State.modChan_pageEnds (s : State) (n : Nat) (f : Chan → Chan) : (s.modChan n f).pageEnds = s.pageEnds := rfl
@[simp] theorem State.modChan_jointerQ (s : State) (n : Nat) (f : Chan → Chan) : (s.modChan n f).jointerQ = s.jointerQ := rfl
@[simp] theorem State.modChan_sanderQ (s : State) (n : Nat) (f : Chan → Chan) : (s.modChan n f).sanderQ = s.sanderQ := rfl
@[simp] theorem State.modChan_launchQ (s : State) (n : Nat) (f : Chan → Chan) : (s.modChan n f).launchQ = s.launchQ := rfl
@[simp] theorem State.modChan_admitQ (s : State) (n : Nat) (f : Chan → Chan) : (s.modChan n f).admitQ = s.admitQ := rfl
@[simp] theorem State.modChan_ctxs (s : State) (n : Nat) (f : Chan → Chan) : (s.modChan n f).ctxs = s.ctxs := rfl
@[simp] theorem State.modChan_fns (s : State) (n : Nat) (f : Chan → Chan) : (s.modChan n f).fns = s.fns := rfl
@[simp] theorem State.modChan_ringLast (s : State) (n : Nat) (f : Chan → Chan) : (s.modChan n f).ringLast = s.ringLast := rfl
@[simp] theorem State.modChan_keys (s : State) (n : Nat) (f : Chan → Chan) : (s.modChan n f).keys = s.keys := rfl
@[simp] theorem State.modChan_scrubs (s : State) (n : Nat) (f : Chan → Chan) : (s.modChan n f).scrubs = s.scrubs := rfl
@[simp] theorem State.modChan_dev (s : State) (n : Nat) (f : Chan → Chan) : (s.modChan n f).dev = s.dev := rfl
@[simp] theorem State.modChan_turn (s : State) (n : Nat) (f : Chan → Chan) : (s.modChan n f).turn = s.turn := rfl
@[simp] theorem State.modChan_cur (s : State) (n : Nat) (f : Chan → Chan) : (s.modChan n f).cur = s.cur := rfl
@[simp] theorem State.modChan_agenda (s : State) (n : Nat) (f : Chan → Chan) : (s.modChan n f).agenda = s.agenda := rfl
@[simp] theorem State.modChan_freeCtr (s : State) (n : Nat) (f : Chan → Chan) : (s.modChan n f).freeCtr = s.freeCtr := rfl
@[simp] theorem State.modChan_opCtr (s : State) (n : Nat) (f : Chan → Chan) : (s.modChan n f).opCtr = s.opCtr := rfl
@[simp] theorem State.modChan_time (s : State) (n : Nat) (f : Chan → Chan) : (s.modChan n f).time = s.time := rfl
@[simp] theorem State.modChan_coreReset (s : State) (n : Nat) (f : Chan → Chan) : (s.modChan n f).coreReset = s.coreReset := rfl
@[simp] theorem State.modChan_issues (s : State) (n : Nat) (f : Chan → Chan) : (s.modChan n f).issues = s.issues := rfl
@[simp] theorem State.modChan_active (s : State) (n : Nat) (f : Chan → Chan) : (s.modChan n f).active = s.active := rfl

/-! ### `State.modCtx` -/

@[simp] theorem State.modCtx_mem (s : State) (n : Nat) (f : Ctx → Ctx) : (s.modCtx n f).mem = s.mem := rfl
@[simp] theorem State.modCtx_plinth (s : State) (n : Nat) (f : Ctx → Ctx) : (s.modCtx n f).plinth = s.plinth := rfl
@[simp] theorem State.modCtx_shared (s : State) (n : Nat) (f : Ctx → Ctx) : (s.modCtx n f).shared = s.shared := rfl
@[simp] theorem State.modCtx_tiles (s : State) (n : Nat) (f : Ctx → Ctx) : (s.modCtx n f).tiles = s.tiles := rfl
@[simp] theorem State.modCtx_poisonMem (s : State) (n : Nat) (f : Ctx → Ctx) : (s.modCtx n f).poisonMem = s.poisonMem := rfl
@[simp] theorem State.modCtx_memCtx (s : State) (n : Nat) (f : Ctx → Ctx) : (s.modCtx n f).memCtx = s.memCtx := rfl
@[simp] theorem State.modCtx_poisonShared (s : State) (n : Nat) (f : Ctx → Ctx) : (s.modCtx n f).poisonShared = s.poisonShared := rfl
@[simp] theorem State.modCtx_poisonTile (s : State) (n : Nat) (f : Ctx → Ctx) : (s.modCtx n f).poisonTile = s.poisonTile := rfl
@[simp] theorem State.modCtx_poisonPlinth (s : State) (n : Nat) (f : Ctx → Ctx) : (s.modCtx n f).poisonPlinth = s.poisonPlinth := rfl
@[simp] theorem State.modCtx_poisonMeta (s : State) (n : Nat) (f : Ctx → Ctx) : (s.modCtx n f).poisonMeta = s.poisonMeta := rfl
@[simp] theorem State.modCtx_warps (s : State) (n : Nat) (f : Ctx → Ctx) : (s.modCtx n f).warps = s.warps := rfl
@[simp] theorem State.modCtx_blocks (s : State) (n : Nat) (f : Ctx → Ctx) : (s.modCtx n f).blocks = s.blocks := rfl
@[simp] theorem State.modCtx_gangs (s : State) (n : Nat) (f : Ctx → Ctx) : (s.modCtx n f).gangs = s.gangs := rfl
@[simp] theorem State.modCtx_grids (s : State) (n : Nat) (f : Ctx → Ctx) : (s.modCtx n f).grids = s.grids := rfl
@[simp] theorem State.modCtx_clusters (s : State) (n : Nat) (f : Ctx → Ctx) : (s.modCtx n f).clusters = s.clusters := rfl
@[simp] theorem State.modCtx_cores (s : State) (n : Nat) (f : Ctx → Ctx) : (s.modCtx n f).cores = s.cores := rfl
@[simp] theorem State.modCtx_unitCtx (s : State) (n : Nat) (f : Ctx → Ctx) : (s.modCtx n f).unitCtx = s.unitCtx := rfl
@[simp] theorem State.modCtx_chans (s : State) (n : Nat) (f : Ctx → Ctx) : (s.modCtx n f).chans = s.chans := rfl
@[simp] theorem State.modCtx_windows (s : State) (n : Nat) (f : Ctx → Ctx) : (s.modCtx n f).windows = s.windows := rfl
@[simp] theorem State.modCtx_ops (s : State) (n : Nat) (f : Ctx → Ctx) : (s.modCtx n f).ops = s.ops := rfl
@[simp] theorem State.modCtx_dqWaits (s : State) (n : Nat) (f : Ctx → Ctx) : (s.modCtx n f).dqWaits = s.dqWaits := rfl
@[simp] theorem State.modCtx_shadows (s : State) (n : Nat) (f : Ctx → Ctx) : (s.modCtx n f).shadows = s.shadows := rfl
@[simp] theorem State.modCtx_bndMsgs (s : State) (n : Nat) (f : Ctx → Ctx) : (s.modCtx n f).bndMsgs = s.bndMsgs := rfl
@[simp] theorem State.modCtx_parked (s : State) (n : Nat) (f : Ctx → Ctx) : (s.modCtx n f).parked = s.parked := rfl
@[simp] theorem State.modCtx_pageReqs (s : State) (n : Nat) (f : Ctx → Ctx) : (s.modCtx n f).pageReqs = s.pageReqs := rfl
@[simp] theorem State.modCtx_peerLate (s : State) (n : Nat) (f : Ctx → Ctx) : (s.modCtx n f).peerLate = s.peerLate := rfl
@[simp] theorem State.modCtx_tlb (s : State) (n : Nat) (f : Ctx → Ctx) : (s.modCtx n f).tlb = s.tlb := rfl
@[simp] theorem State.modCtx_raceShared (s : State) (n : Nat) (f : Ctx → Ctx) : (s.modCtx n f).raceShared = s.raceShared := rfl
@[simp] theorem State.modCtx_racePlinth (s : State) (n : Nat) (f : Ctx → Ctx) : (s.modCtx n f).racePlinth = s.racePlinth := rfl
@[simp] theorem State.modCtx_relShared (s : State) (n : Nat) (f : Ctx → Ctx) : (s.modCtx n f).relShared = s.relShared := rfl
@[simp] theorem State.modCtx_relPlinth (s : State) (n : Nat) (f : Ctx → Ctx) : (s.modCtx n f).relPlinth = s.relPlinth := rfl
@[simp] theorem State.modCtx_relMem (s : State) (n : Nat) (f : Ctx → Ctx) : (s.modCtx n f).relMem = s.relMem := rfl
@[simp] theorem State.modCtx_cycles (s : State) (n : Nat) (f : Ctx → Ctx) : (s.modCtx n f).cycles = s.cycles := rfl
@[simp] theorem State.modCtx_pageEnds (s : State) (n : Nat) (f : Ctx → Ctx) : (s.modCtx n f).pageEnds = s.pageEnds := rfl
@[simp] theorem State.modCtx_jointerQ (s : State) (n : Nat) (f : Ctx → Ctx) : (s.modCtx n f).jointerQ = s.jointerQ := rfl
@[simp] theorem State.modCtx_sanderQ (s : State) (n : Nat) (f : Ctx → Ctx) : (s.modCtx n f).sanderQ = s.sanderQ := rfl
@[simp] theorem State.modCtx_launchQ (s : State) (n : Nat) (f : Ctx → Ctx) : (s.modCtx n f).launchQ = s.launchQ := rfl
@[simp] theorem State.modCtx_admitQ (s : State) (n : Nat) (f : Ctx → Ctx) : (s.modCtx n f).admitQ = s.admitQ := rfl
@[simp] theorem State.modCtx_fns (s : State) (n : Nat) (f : Ctx → Ctx) : (s.modCtx n f).fns = s.fns := rfl
@[simp] theorem State.modCtx_ringLast (s : State) (n : Nat) (f : Ctx → Ctx) : (s.modCtx n f).ringLast = s.ringLast := rfl
@[simp] theorem State.modCtx_keys (s : State) (n : Nat) (f : Ctx → Ctx) : (s.modCtx n f).keys = s.keys := rfl
@[simp] theorem State.modCtx_scrubs (s : State) (n : Nat) (f : Ctx → Ctx) : (s.modCtx n f).scrubs = s.scrubs := rfl
@[simp] theorem State.modCtx_dev (s : State) (n : Nat) (f : Ctx → Ctx) : (s.modCtx n f).dev = s.dev := rfl
@[simp] theorem State.modCtx_turn (s : State) (n : Nat) (f : Ctx → Ctx) : (s.modCtx n f).turn = s.turn := rfl
@[simp] theorem State.modCtx_cur (s : State) (n : Nat) (f : Ctx → Ctx) : (s.modCtx n f).cur = s.cur := rfl
@[simp] theorem State.modCtx_agenda (s : State) (n : Nat) (f : Ctx → Ctx) : (s.modCtx n f).agenda = s.agenda := rfl
@[simp] theorem State.modCtx_freeCtr (s : State) (n : Nat) (f : Ctx → Ctx) : (s.modCtx n f).freeCtr = s.freeCtr := rfl
@[simp] theorem State.modCtx_opCtr (s : State) (n : Nat) (f : Ctx → Ctx) : (s.modCtx n f).opCtr = s.opCtr := rfl
@[simp] theorem State.modCtx_time (s : State) (n : Nat) (f : Ctx → Ctx) : (s.modCtx n f).time = s.time := rfl
@[simp] theorem State.modCtx_coreReset (s : State) (n : Nat) (f : Ctx → Ctx) : (s.modCtx n f).coreReset = s.coreReset := rfl
@[simp] theorem State.modCtx_issues (s : State) (n : Nat) (f : Ctx → Ctx) : (s.modCtx n f).issues = s.issues := rfl
@[simp] theorem State.modCtx_active (s : State) (n : Nat) (f : Ctx → Ctx) : (s.modCtx n f).active = s.active := rfl

/-! ### `State.modFn` -/

@[simp] theorem State.modFn_mem (s : State) (n : Nat) (f : Fn → Fn) : (s.modFn n f).mem = s.mem := rfl
@[simp] theorem State.modFn_plinth (s : State) (n : Nat) (f : Fn → Fn) : (s.modFn n f).plinth = s.plinth := rfl
@[simp] theorem State.modFn_shared (s : State) (n : Nat) (f : Fn → Fn) : (s.modFn n f).shared = s.shared := rfl
@[simp] theorem State.modFn_tiles (s : State) (n : Nat) (f : Fn → Fn) : (s.modFn n f).tiles = s.tiles := rfl
@[simp] theorem State.modFn_poisonMem (s : State) (n : Nat) (f : Fn → Fn) : (s.modFn n f).poisonMem = s.poisonMem := rfl
@[simp] theorem State.modFn_memCtx (s : State) (n : Nat) (f : Fn → Fn) : (s.modFn n f).memCtx = s.memCtx := rfl
@[simp] theorem State.modFn_poisonShared (s : State) (n : Nat) (f : Fn → Fn) : (s.modFn n f).poisonShared = s.poisonShared := rfl
@[simp] theorem State.modFn_poisonTile (s : State) (n : Nat) (f : Fn → Fn) : (s.modFn n f).poisonTile = s.poisonTile := rfl
@[simp] theorem State.modFn_poisonPlinth (s : State) (n : Nat) (f : Fn → Fn) : (s.modFn n f).poisonPlinth = s.poisonPlinth := rfl
@[simp] theorem State.modFn_poisonMeta (s : State) (n : Nat) (f : Fn → Fn) : (s.modFn n f).poisonMeta = s.poisonMeta := rfl
@[simp] theorem State.modFn_warps (s : State) (n : Nat) (f : Fn → Fn) : (s.modFn n f).warps = s.warps := rfl
@[simp] theorem State.modFn_blocks (s : State) (n : Nat) (f : Fn → Fn) : (s.modFn n f).blocks = s.blocks := rfl
@[simp] theorem State.modFn_gangs (s : State) (n : Nat) (f : Fn → Fn) : (s.modFn n f).gangs = s.gangs := rfl
@[simp] theorem State.modFn_grids (s : State) (n : Nat) (f : Fn → Fn) : (s.modFn n f).grids = s.grids := rfl
@[simp] theorem State.modFn_clusters (s : State) (n : Nat) (f : Fn → Fn) : (s.modFn n f).clusters = s.clusters := rfl
@[simp] theorem State.modFn_cores (s : State) (n : Nat) (f : Fn → Fn) : (s.modFn n f).cores = s.cores := rfl
@[simp] theorem State.modFn_unitCtx (s : State) (n : Nat) (f : Fn → Fn) : (s.modFn n f).unitCtx = s.unitCtx := rfl
@[simp] theorem State.modFn_chans (s : State) (n : Nat) (f : Fn → Fn) : (s.modFn n f).chans = s.chans := rfl
@[simp] theorem State.modFn_windows (s : State) (n : Nat) (f : Fn → Fn) : (s.modFn n f).windows = s.windows := rfl
@[simp] theorem State.modFn_ops (s : State) (n : Nat) (f : Fn → Fn) : (s.modFn n f).ops = s.ops := rfl
@[simp] theorem State.modFn_dqWaits (s : State) (n : Nat) (f : Fn → Fn) : (s.modFn n f).dqWaits = s.dqWaits := rfl
@[simp] theorem State.modFn_shadows (s : State) (n : Nat) (f : Fn → Fn) : (s.modFn n f).shadows = s.shadows := rfl
@[simp] theorem State.modFn_bndMsgs (s : State) (n : Nat) (f : Fn → Fn) : (s.modFn n f).bndMsgs = s.bndMsgs := rfl
@[simp] theorem State.modFn_parked (s : State) (n : Nat) (f : Fn → Fn) : (s.modFn n f).parked = s.parked := rfl
@[simp] theorem State.modFn_pageReqs (s : State) (n : Nat) (f : Fn → Fn) : (s.modFn n f).pageReqs = s.pageReqs := rfl
@[simp] theorem State.modFn_peerLate (s : State) (n : Nat) (f : Fn → Fn) : (s.modFn n f).peerLate = s.peerLate := rfl
@[simp] theorem State.modFn_tlb (s : State) (n : Nat) (f : Fn → Fn) : (s.modFn n f).tlb = s.tlb := rfl
@[simp] theorem State.modFn_raceShared (s : State) (n : Nat) (f : Fn → Fn) : (s.modFn n f).raceShared = s.raceShared := rfl
@[simp] theorem State.modFn_racePlinth (s : State) (n : Nat) (f : Fn → Fn) : (s.modFn n f).racePlinth = s.racePlinth := rfl
@[simp] theorem State.modFn_relShared (s : State) (n : Nat) (f : Fn → Fn) : (s.modFn n f).relShared = s.relShared := rfl
@[simp] theorem State.modFn_relPlinth (s : State) (n : Nat) (f : Fn → Fn) : (s.modFn n f).relPlinth = s.relPlinth := rfl
@[simp] theorem State.modFn_relMem (s : State) (n : Nat) (f : Fn → Fn) : (s.modFn n f).relMem = s.relMem := rfl
@[simp] theorem State.modFn_cycles (s : State) (n : Nat) (f : Fn → Fn) : (s.modFn n f).cycles = s.cycles := rfl
@[simp] theorem State.modFn_pageEnds (s : State) (n : Nat) (f : Fn → Fn) : (s.modFn n f).pageEnds = s.pageEnds := rfl
@[simp] theorem State.modFn_jointerQ (s : State) (n : Nat) (f : Fn → Fn) : (s.modFn n f).jointerQ = s.jointerQ := rfl
@[simp] theorem State.modFn_sanderQ (s : State) (n : Nat) (f : Fn → Fn) : (s.modFn n f).sanderQ = s.sanderQ := rfl
@[simp] theorem State.modFn_launchQ (s : State) (n : Nat) (f : Fn → Fn) : (s.modFn n f).launchQ = s.launchQ := rfl
@[simp] theorem State.modFn_admitQ (s : State) (n : Nat) (f : Fn → Fn) : (s.modFn n f).admitQ = s.admitQ := rfl
@[simp] theorem State.modFn_ctxs (s : State) (n : Nat) (f : Fn → Fn) : (s.modFn n f).ctxs = s.ctxs := rfl
@[simp] theorem State.modFn_ringLast (s : State) (n : Nat) (f : Fn → Fn) : (s.modFn n f).ringLast = s.ringLast := rfl
@[simp] theorem State.modFn_keys (s : State) (n : Nat) (f : Fn → Fn) : (s.modFn n f).keys = s.keys := rfl
@[simp] theorem State.modFn_scrubs (s : State) (n : Nat) (f : Fn → Fn) : (s.modFn n f).scrubs = s.scrubs := rfl
@[simp] theorem State.modFn_dev (s : State) (n : Nat) (f : Fn → Fn) : (s.modFn n f).dev = s.dev := rfl
@[simp] theorem State.modFn_turn (s : State) (n : Nat) (f : Fn → Fn) : (s.modFn n f).turn = s.turn := rfl
@[simp] theorem State.modFn_cur (s : State) (n : Nat) (f : Fn → Fn) : (s.modFn n f).cur = s.cur := rfl
@[simp] theorem State.modFn_agenda (s : State) (n : Nat) (f : Fn → Fn) : (s.modFn n f).agenda = s.agenda := rfl
@[simp] theorem State.modFn_freeCtr (s : State) (n : Nat) (f : Fn → Fn) : (s.modFn n f).freeCtr = s.freeCtr := rfl
@[simp] theorem State.modFn_opCtr (s : State) (n : Nat) (f : Fn → Fn) : (s.modFn n f).opCtr = s.opCtr := rfl
@[simp] theorem State.modFn_time (s : State) (n : Nat) (f : Fn → Fn) : (s.modFn n f).time = s.time := rfl
@[simp] theorem State.modFn_coreReset (s : State) (n : Nat) (f : Fn → Fn) : (s.modFn n f).coreReset = s.coreReset := rfl
@[simp] theorem State.modFn_issues (s : State) (n : Nat) (f : Fn → Fn) : (s.modFn n f).issues = s.issues := rfl
@[simp] theorem State.modFn_active (s : State) (n : Nat) (f : Fn → Fn) : (s.modFn n f).active = s.active := rfl

/-! ### `State.modDev` -/

@[simp] theorem State.modDev_mem (s : State) (f : Dev → Dev) : (s.modDev f).mem = s.mem := rfl
@[simp] theorem State.modDev_plinth (s : State) (f : Dev → Dev) : (s.modDev f).plinth = s.plinth := rfl
@[simp] theorem State.modDev_shared (s : State) (f : Dev → Dev) : (s.modDev f).shared = s.shared := rfl
@[simp] theorem State.modDev_tiles (s : State) (f : Dev → Dev) : (s.modDev f).tiles = s.tiles := rfl
@[simp] theorem State.modDev_poisonMem (s : State) (f : Dev → Dev) : (s.modDev f).poisonMem = s.poisonMem := rfl
@[simp] theorem State.modDev_memCtx (s : State) (f : Dev → Dev) : (s.modDev f).memCtx = s.memCtx := rfl
@[simp] theorem State.modDev_poisonShared (s : State) (f : Dev → Dev) : (s.modDev f).poisonShared = s.poisonShared := rfl
@[simp] theorem State.modDev_poisonTile (s : State) (f : Dev → Dev) : (s.modDev f).poisonTile = s.poisonTile := rfl
@[simp] theorem State.modDev_poisonPlinth (s : State) (f : Dev → Dev) : (s.modDev f).poisonPlinth = s.poisonPlinth := rfl
@[simp] theorem State.modDev_poisonMeta (s : State) (f : Dev → Dev) : (s.modDev f).poisonMeta = s.poisonMeta := rfl
@[simp] theorem State.modDev_warps (s : State) (f : Dev → Dev) : (s.modDev f).warps = s.warps := rfl
@[simp] theorem State.modDev_blocks (s : State) (f : Dev → Dev) : (s.modDev f).blocks = s.blocks := rfl
@[simp] theorem State.modDev_gangs (s : State) (f : Dev → Dev) : (s.modDev f).gangs = s.gangs := rfl
@[simp] theorem State.modDev_grids (s : State) (f : Dev → Dev) : (s.modDev f).grids = s.grids := rfl
@[simp] theorem State.modDev_clusters (s : State) (f : Dev → Dev) : (s.modDev f).clusters = s.clusters := rfl
@[simp] theorem State.modDev_cores (s : State) (f : Dev → Dev) : (s.modDev f).cores = s.cores := rfl
@[simp] theorem State.modDev_unitCtx (s : State) (f : Dev → Dev) : (s.modDev f).unitCtx = s.unitCtx := rfl
@[simp] theorem State.modDev_chans (s : State) (f : Dev → Dev) : (s.modDev f).chans = s.chans := rfl
@[simp] theorem State.modDev_windows (s : State) (f : Dev → Dev) : (s.modDev f).windows = s.windows := rfl
@[simp] theorem State.modDev_ops (s : State) (f : Dev → Dev) : (s.modDev f).ops = s.ops := rfl
@[simp] theorem State.modDev_dqWaits (s : State) (f : Dev → Dev) : (s.modDev f).dqWaits = s.dqWaits := rfl
@[simp] theorem State.modDev_shadows (s : State) (f : Dev → Dev) : (s.modDev f).shadows = s.shadows := rfl
@[simp] theorem State.modDev_bndMsgs (s : State) (f : Dev → Dev) : (s.modDev f).bndMsgs = s.bndMsgs := rfl
@[simp] theorem State.modDev_parked (s : State) (f : Dev → Dev) : (s.modDev f).parked = s.parked := rfl
@[simp] theorem State.modDev_pageReqs (s : State) (f : Dev → Dev) : (s.modDev f).pageReqs = s.pageReqs := rfl
@[simp] theorem State.modDev_peerLate (s : State) (f : Dev → Dev) : (s.modDev f).peerLate = s.peerLate := rfl
@[simp] theorem State.modDev_tlb (s : State) (f : Dev → Dev) : (s.modDev f).tlb = s.tlb := rfl
@[simp] theorem State.modDev_raceShared (s : State) (f : Dev → Dev) : (s.modDev f).raceShared = s.raceShared := rfl
@[simp] theorem State.modDev_racePlinth (s : State) (f : Dev → Dev) : (s.modDev f).racePlinth = s.racePlinth := rfl
@[simp] theorem State.modDev_relShared (s : State) (f : Dev → Dev) : (s.modDev f).relShared = s.relShared := rfl
@[simp] theorem State.modDev_relPlinth (s : State) (f : Dev → Dev) : (s.modDev f).relPlinth = s.relPlinth := rfl
@[simp] theorem State.modDev_relMem (s : State) (f : Dev → Dev) : (s.modDev f).relMem = s.relMem := rfl
@[simp] theorem State.modDev_cycles (s : State) (f : Dev → Dev) : (s.modDev f).cycles = s.cycles := rfl
@[simp] theorem State.modDev_pageEnds (s : State) (f : Dev → Dev) : (s.modDev f).pageEnds = s.pageEnds := rfl
@[simp] theorem State.modDev_jointerQ (s : State) (f : Dev → Dev) : (s.modDev f).jointerQ = s.jointerQ := rfl
@[simp] theorem State.modDev_sanderQ (s : State) (f : Dev → Dev) : (s.modDev f).sanderQ = s.sanderQ := rfl
@[simp] theorem State.modDev_launchQ (s : State) (f : Dev → Dev) : (s.modDev f).launchQ = s.launchQ := rfl
@[simp] theorem State.modDev_admitQ (s : State) (f : Dev → Dev) : (s.modDev f).admitQ = s.admitQ := rfl
@[simp] theorem State.modDev_ctxs (s : State) (f : Dev → Dev) : (s.modDev f).ctxs = s.ctxs := rfl
@[simp] theorem State.modDev_fns (s : State) (f : Dev → Dev) : (s.modDev f).fns = s.fns := rfl
@[simp] theorem State.modDev_ringLast (s : State) (f : Dev → Dev) : (s.modDev f).ringLast = s.ringLast := rfl
@[simp] theorem State.modDev_keys (s : State) (f : Dev → Dev) : (s.modDev f).keys = s.keys := rfl
@[simp] theorem State.modDev_scrubs (s : State) (f : Dev → Dev) : (s.modDev f).scrubs = s.scrubs := rfl
@[simp] theorem State.modDev_turn (s : State) (f : Dev → Dev) : (s.modDev f).turn = s.turn := rfl
@[simp] theorem State.modDev_cur (s : State) (f : Dev → Dev) : (s.modDev f).cur = s.cur := rfl
@[simp] theorem State.modDev_agenda (s : State) (f : Dev → Dev) : (s.modDev f).agenda = s.agenda := rfl
@[simp] theorem State.modDev_freeCtr (s : State) (f : Dev → Dev) : (s.modDev f).freeCtr = s.freeCtr := rfl
@[simp] theorem State.modDev_opCtr (s : State) (f : Dev → Dev) : (s.modDev f).opCtr = s.opCtr := rfl
@[simp] theorem State.modDev_time (s : State) (f : Dev → Dev) : (s.modDev f).time = s.time := rfl
@[simp] theorem State.modDev_coreReset (s : State) (f : Dev → Dev) : (s.modDev f).coreReset = s.coreReset := rfl
@[simp] theorem State.modDev_issues (s : State) (f : Dev → Dev) : (s.modDev f).issues = s.issues := rfl
@[simp] theorem State.modDev_active (s : State) (f : Dev → Dev) : (s.modDev f).active = s.active := rfl

/-! ### `State.setPhys` -/

@[simp] theorem State.setPhys_plinth (s : State) (a n x : Nat) : (s.setPhys a n x).plinth = s.plinth := rfl
@[simp] theorem State.setPhys_shared (s : State) (a n x : Nat) : (s.setPhys a n x).shared = s.shared := rfl
@[simp] theorem State.setPhys_tiles (s : State) (a n x : Nat) : (s.setPhys a n x).tiles = s.tiles := rfl
@[simp] theorem State.setPhys_poisonMem (s : State) (a n x : Nat) : (s.setPhys a n x).poisonMem = s.poisonMem := rfl
@[simp] theorem State.setPhys_memCtx (s : State) (a n x : Nat) : (s.setPhys a n x).memCtx = s.memCtx := rfl
@[simp] theorem State.setPhys_poisonShared (s : State) (a n x : Nat) : (s.setPhys a n x).poisonShared = s.poisonShared := rfl
@[simp] theorem State.setPhys_poisonTile (s : State) (a n x : Nat) : (s.setPhys a n x).poisonTile = s.poisonTile := rfl
@[simp] theorem State.setPhys_poisonPlinth (s : State) (a n x : Nat) : (s.setPhys a n x).poisonPlinth = s.poisonPlinth := rfl
@[simp] theorem State.setPhys_poisonMeta (s : State) (a n x : Nat) : (s.setPhys a n x).poisonMeta = s.poisonMeta := rfl
@[simp] theorem State.setPhys_warps (s : State) (a n x : Nat) : (s.setPhys a n x).warps = s.warps := rfl
@[simp] theorem State.setPhys_blocks (s : State) (a n x : Nat) : (s.setPhys a n x).blocks = s.blocks := rfl
@[simp] theorem State.setPhys_gangs (s : State) (a n x : Nat) : (s.setPhys a n x).gangs = s.gangs := rfl
@[simp] theorem State.setPhys_grids (s : State) (a n x : Nat) : (s.setPhys a n x).grids = s.grids := rfl
@[simp] theorem State.setPhys_clusters (s : State) (a n x : Nat) : (s.setPhys a n x).clusters = s.clusters := rfl
@[simp] theorem State.setPhys_cores (s : State) (a n x : Nat) : (s.setPhys a n x).cores = s.cores := rfl
@[simp] theorem State.setPhys_unitCtx (s : State) (a n x : Nat) : (s.setPhys a n x).unitCtx = s.unitCtx := rfl
@[simp] theorem State.setPhys_chans (s : State) (a n x : Nat) : (s.setPhys a n x).chans = s.chans := rfl
@[simp] theorem State.setPhys_windows (s : State) (a n x : Nat) : (s.setPhys a n x).windows = s.windows := rfl
@[simp] theorem State.setPhys_ops (s : State) (a n x : Nat) : (s.setPhys a n x).ops = s.ops := rfl
@[simp] theorem State.setPhys_dqWaits (s : State) (a n x : Nat) : (s.setPhys a n x).dqWaits = s.dqWaits := rfl
@[simp] theorem State.setPhys_shadows (s : State) (a n x : Nat) : (s.setPhys a n x).shadows = s.shadows := rfl
@[simp] theorem State.setPhys_bndMsgs (s : State) (a n x : Nat) : (s.setPhys a n x).bndMsgs = s.bndMsgs := rfl
@[simp] theorem State.setPhys_parked (s : State) (a n x : Nat) : (s.setPhys a n x).parked = s.parked := rfl
@[simp] theorem State.setPhys_pageReqs (s : State) (a n x : Nat) : (s.setPhys a n x).pageReqs = s.pageReqs := rfl
@[simp] theorem State.setPhys_peerLate (s : State) (a n x : Nat) : (s.setPhys a n x).peerLate = s.peerLate := rfl
@[simp] theorem State.setPhys_tlb (s : State) (a n x : Nat) : (s.setPhys a n x).tlb = s.tlb := rfl
@[simp] theorem State.setPhys_raceShared (s : State) (a n x : Nat) : (s.setPhys a n x).raceShared = s.raceShared := rfl
@[simp] theorem State.setPhys_racePlinth (s : State) (a n x : Nat) : (s.setPhys a n x).racePlinth = s.racePlinth := rfl
@[simp] theorem State.setPhys_relShared (s : State) (a n x : Nat) : (s.setPhys a n x).relShared = s.relShared := rfl
@[simp] theorem State.setPhys_relPlinth (s : State) (a n x : Nat) : (s.setPhys a n x).relPlinth = s.relPlinth := rfl
@[simp] theorem State.setPhys_relMem (s : State) (a n x : Nat) : (s.setPhys a n x).relMem = s.relMem := rfl
@[simp] theorem State.setPhys_cycles (s : State) (a n x : Nat) : (s.setPhys a n x).cycles = s.cycles := rfl
@[simp] theorem State.setPhys_pageEnds (s : State) (a n x : Nat) : (s.setPhys a n x).pageEnds = s.pageEnds := rfl
@[simp] theorem State.setPhys_jointerQ (s : State) (a n x : Nat) : (s.setPhys a n x).jointerQ = s.jointerQ := rfl
@[simp] theorem State.setPhys_sanderQ (s : State) (a n x : Nat) : (s.setPhys a n x).sanderQ = s.sanderQ := rfl
@[simp] theorem State.setPhys_launchQ (s : State) (a n x : Nat) : (s.setPhys a n x).launchQ = s.launchQ := rfl
@[simp] theorem State.setPhys_admitQ (s : State) (a n x : Nat) : (s.setPhys a n x).admitQ = s.admitQ := rfl
@[simp] theorem State.setPhys_ctxs (s : State) (a n x : Nat) : (s.setPhys a n x).ctxs = s.ctxs := rfl
@[simp] theorem State.setPhys_fns (s : State) (a n x : Nat) : (s.setPhys a n x).fns = s.fns := rfl
@[simp] theorem State.setPhys_ringLast (s : State) (a n x : Nat) : (s.setPhys a n x).ringLast = s.ringLast := rfl
@[simp] theorem State.setPhys_keys (s : State) (a n x : Nat) : (s.setPhys a n x).keys = s.keys := rfl
@[simp] theorem State.setPhys_scrubs (s : State) (a n x : Nat) : (s.setPhys a n x).scrubs = s.scrubs := rfl
@[simp] theorem State.setPhys_dev (s : State) (a n x : Nat) : (s.setPhys a n x).dev = s.dev := rfl
@[simp] theorem State.setPhys_turn (s : State) (a n x : Nat) : (s.setPhys a n x).turn = s.turn := rfl
@[simp] theorem State.setPhys_cur (s : State) (a n x : Nat) : (s.setPhys a n x).cur = s.cur := rfl
@[simp] theorem State.setPhys_agenda (s : State) (a n x : Nat) : (s.setPhys a n x).agenda = s.agenda := rfl
@[simp] theorem State.setPhys_freeCtr (s : State) (a n x : Nat) : (s.setPhys a n x).freeCtr = s.freeCtr := rfl
@[simp] theorem State.setPhys_opCtr (s : State) (a n x : Nat) : (s.setPhys a n x).opCtr = s.opCtr := rfl
@[simp] theorem State.setPhys_time (s : State) (a n x : Nat) : (s.setPhys a n x).time = s.time := rfl
@[simp] theorem State.setPhys_coreReset (s : State) (a n x : Nat) : (s.setPhys a n x).coreReset = s.coreReset := rfl
@[simp] theorem State.setPhys_issues (s : State) (a n x : Nat) : (s.setPhys a n x).issues = s.issues := rfl
@[simp] theorem State.setPhys_active (s : State) (a n x : Nat) : (s.setPhys a n x).active = s.active := rfl

/-! ### `Warp.wv` -/

@[simp] theorem Warp.wv_block (w : Warp) (r l : Nat) (x : Word) : (w.wv r l x).block = w.block := rfl
@[simp] theorem Warp.wv_idx (w : Warp) (r l : Nat) (x : Word) : (w.wv r l x).idx = w.idx := rfl
@[simp] theorem Warp.wv_quadrant (w : Warp) (r l : Nat) (x : Word) : (w.wv r l x).quadrant = w.quadrant := rfl
@[simp] theorem Warp.wv_tag (w : Warp) (r l : Nat) (x : Word) : (w.wv r l x).tag = w.tag := rfl
@[simp] theorem Warp.wv_threads (w : Warp) (r l : Nat) (x : Word) : (w.wv r l x).threads = w.threads := rfl
@[simp] theorem Warp.wv_entries (w : Warp) (r l : Nat) (x : Word) : (w.wv r l x).entries = w.entries := rfl
@[simp] theorem Warp.wv_m (w : Warp) (r l : Nat) (x : Word) : (w.wv r l x).m = w.m := rfl
@[simp] theorem Warp.wv_h (w : Warp) (r l : Nat) (x : Word) : (w.wv r l x).h = w.h := rfl
@[simp] theorem Warp.wv_p (w : Warp) (r l : Nat) (x : Word) : (w.wv r l x).p = w.p := rfl
@[simp] theorem Warp.wv_s (w : Warp) (r l : Nat) (x : Word) : (w.wv r l x).s = w.s := rfl
@[simp] theorem Warp.wv_b (w : Warp) (r l : Nat) (x : Word) : (w.wv r l x).b = w.b := rfl
@[simp] theorem Warp.wv_c (w : Warp) (r l : Nat) (x : Word) : (w.wv r l x).c = w.c := rfl
@[simp] theorem Warp.wv_latch (w : Warp) (r l : Nat) (x : Word) : (w.wv r l x).latch = w.latch := rfl
@[simp] theorem Warp.wv_flags (w : Warp) (r l : Nat) (x : Word) : (w.wv r l x).flags = w.flags := rfl
@[simp] theorem Warp.wv_faults (w : Warp) (r l : Nat) (x : Word) : (w.wv r l x).faults = w.faults := rfl
@[simp] theorem Warp.wv_mctl (w : Warp) (r l : Nat) (x : Word) : (w.wv r l x).mctl = w.mctl := rfl
@[simp] theorem Warp.wv_mstat (w : Warp) (r l : Nat) (x : Word) : (w.wv r l x).mstat = w.mstat := rfl
@[simp] theorem Warp.wv_wissue (w : Warp) (r l : Nat) (x : Word) : (w.wv r l x).wissue = w.wissue := rfl
@[simp] theorem Warp.wv_wdrain (w : Warp) (r l : Nat) (x : Word) : (w.wv r l x).wdrain = w.wdrain := rfl
@[simp] theorem Warp.wv_rsn (w : Warp) (r l : Nat) (x : Word) : (w.wv r l x).rsn = w.rsn := rfl
@[simp] theorem Warp.wv_frec (w : Warp) (r l : Nat) (x : Word) : (w.wv r l x).frec = w.frec := rfl
@[simp] theorem Warp.wv_granules (w : Warp) (r l : Nat) (x : Word) : (w.wv r l x).granules = w.granules := rfl
@[simp] theorem Warp.wv_spillBase (w : Warp) (r l : Nat) (x : Word) : (w.wv r l x).spillBase = w.spillBase := rfl
@[simp] theorem Warp.wv_yielding (w : Warp) (r l : Nat) (x : Word) : (w.wv r l x).yielding = w.yielding := rfl
@[simp] theorem Warp.wv_acqWait (w : Warp) (r l : Nat) (x : Word) : (w.wv r l x).acqWait = w.acqWait := rfl
@[simp] theorem Warp.wv_acqRefused (w : Warp) (r l : Nat) (x : Word) : (w.wv r l x).acqRefused = w.acqRefused := rfl
@[simp] theorem Warp.wv_wpWait (w : Warp) (r l : Nat) (x : Word) : (w.wv r l x).wpWait = w.wpWait := rfl
@[simp] theorem Warp.wv_bar (w : Warp) (r l : Nat) (x : Word) : (w.wv r l x).bar = w.bar := rfl
@[simp] theorem Warp.wv_gbar (w : Warp) (r l : Nat) (x : Word) : (w.wv r l x).gbar = w.gbar := rfl
@[simp] theorem Warp.wv_drainTo (w : Warp) (r l : Nat) (x : Word) : (w.wv r l x).drainTo = w.drainTo := rfl
@[simp] theorem Warp.wv_hold (w : Warp) (r l : Nat) (x : Word) : (w.wv r l x).hold = w.hold := rfl
@[simp] theorem Warp.wv_ep (w : Warp) (r l : Nat) (x : Word) : (w.wv r l x).ep = w.ep := rfl
@[simp] theorem Warp.wv_vc (w : Warp) (r l : Nat) (x : Word) : (w.wv r l x).vc = w.vc := rfl
@[simp] theorem Warp.wv_flagVc (w : Warp) (r l : Nat) (x : Word) : (w.wv r l x).flagVc = w.flagVc := rfl
@[simp] theorem Warp.wv_readVc (w : Warp) (r l : Nat) (x : Word) : (w.wv r l x).readVc = w.readVc := rfl
@[simp] theorem Warp.wv_fenceVc (w : Warp) (r l : Nat) (x : Word) : (w.wv r l x).fenceVc = w.fenceVc := rfl
@[simp] theorem Warp.wv_drainFaults (w : Warp) (r l : Nat) (x : Word) : (w.wv r l x).drainFaults = w.drainFaults := rfl
@[simp] theorem Warp.wv_heapWaits (w : Warp) (r l : Nat) (x : Word) : (w.wv r l x).heapWaits = w.heapWaits := rfl
@[simp] theorem Warp.wv_asks (w : Warp) (r l : Nat) (x : Word) : (w.wv r l x).asks = w.asks := rfl
@[simp] theorem Warp.wv_newAt (w : Warp) (r l : Nat) (x : Word) : (w.wv r l x).newAt = w.newAt := rfl
@[simp] theorem Warp.wv_unmapFault (w : Warp) (r l : Nat) (x : Word) : (w.wv r l x).unmapFault = w.unmapFault := rfl
@[simp] theorem Warp.wv_retired (w : Warp) (r l : Nat) (x : Word) : (w.wv r l x).retired = w.retired := rfl

/-! ### `Warp.ws` -/

@[simp] theorem Warp.ws_block (w : Warp) (r : Nat) (x : Word) : (w.ws r x).block = w.block := rfl
@[simp] theorem Warp.ws_idx (w : Warp) (r : Nat) (x : Word) : (w.ws r x).idx = w.idx := rfl
@[simp] theorem Warp.ws_quadrant (w : Warp) (r : Nat) (x : Word) : (w.ws r x).quadrant = w.quadrant := rfl
@[simp] theorem Warp.ws_tag (w : Warp) (r : Nat) (x : Word) : (w.ws r x).tag = w.tag := rfl
@[simp] theorem Warp.ws_threads (w : Warp) (r : Nat) (x : Word) : (w.ws r x).threads = w.threads := rfl
@[simp] theorem Warp.ws_entries (w : Warp) (r : Nat) (x : Word) : (w.ws r x).entries = w.entries := rfl
@[simp] theorem Warp.ws_v (w : Warp) (r : Nat) (x : Word) : (w.ws r x).v = w.v := rfl
@[simp] theorem Warp.ws_m (w : Warp) (r : Nat) (x : Word) : (w.ws r x).m = w.m := rfl
@[simp] theorem Warp.ws_h (w : Warp) (r : Nat) (x : Word) : (w.ws r x).h = w.h := rfl
@[simp] theorem Warp.ws_p (w : Warp) (r : Nat) (x : Word) : (w.ws r x).p = w.p := rfl
@[simp] theorem Warp.ws_b (w : Warp) (r : Nat) (x : Word) : (w.ws r x).b = w.b := rfl
@[simp] theorem Warp.ws_c (w : Warp) (r : Nat) (x : Word) : (w.ws r x).c = w.c := rfl
@[simp] theorem Warp.ws_latch (w : Warp) (r : Nat) (x : Word) : (w.ws r x).latch = w.latch := rfl
@[simp] theorem Warp.ws_flags (w : Warp) (r : Nat) (x : Word) : (w.ws r x).flags = w.flags := rfl
@[simp] theorem Warp.ws_faults (w : Warp) (r : Nat) (x : Word) : (w.ws r x).faults = w.faults := rfl
@[simp] theorem Warp.ws_mctl (w : Warp) (r : Nat) (x : Word) : (w.ws r x).mctl = w.mctl := rfl
@[simp] theorem Warp.ws_mstat (w : Warp) (r : Nat) (x : Word) : (w.ws r x).mstat = w.mstat := rfl
@[simp] theorem Warp.ws_wissue (w : Warp) (r : Nat) (x : Word) : (w.ws r x).wissue = w.wissue := rfl
@[simp] theorem Warp.ws_wdrain (w : Warp) (r : Nat) (x : Word) : (w.ws r x).wdrain = w.wdrain := rfl
@[simp] theorem Warp.ws_rsn (w : Warp) (r : Nat) (x : Word) : (w.ws r x).rsn = w.rsn := rfl
@[simp] theorem Warp.ws_frec (w : Warp) (r : Nat) (x : Word) : (w.ws r x).frec = w.frec := rfl
@[simp] theorem Warp.ws_granules (w : Warp) (r : Nat) (x : Word) : (w.ws r x).granules = w.granules := rfl
@[simp] theorem Warp.ws_spillBase (w : Warp) (r : Nat) (x : Word) : (w.ws r x).spillBase = w.spillBase := rfl
@[simp] theorem Warp.ws_yielding (w : Warp) (r : Nat) (x : Word) : (w.ws r x).yielding = w.yielding := rfl
@[simp] theorem Warp.ws_acqWait (w : Warp) (r : Nat) (x : Word) : (w.ws r x).acqWait = w.acqWait := rfl
@[simp] theorem Warp.ws_acqRefused (w : Warp) (r : Nat) (x : Word) : (w.ws r x).acqRefused = w.acqRefused := rfl
@[simp] theorem Warp.ws_wpWait (w : Warp) (r : Nat) (x : Word) : (w.ws r x).wpWait = w.wpWait := rfl
@[simp] theorem Warp.ws_bar (w : Warp) (r : Nat) (x : Word) : (w.ws r x).bar = w.bar := rfl
@[simp] theorem Warp.ws_gbar (w : Warp) (r : Nat) (x : Word) : (w.ws r x).gbar = w.gbar := rfl
@[simp] theorem Warp.ws_drainTo (w : Warp) (r : Nat) (x : Word) : (w.ws r x).drainTo = w.drainTo := rfl
@[simp] theorem Warp.ws_hold (w : Warp) (r : Nat) (x : Word) : (w.ws r x).hold = w.hold := rfl
@[simp] theorem Warp.ws_ep (w : Warp) (r : Nat) (x : Word) : (w.ws r x).ep = w.ep := rfl
@[simp] theorem Warp.ws_vc (w : Warp) (r : Nat) (x : Word) : (w.ws r x).vc = w.vc := rfl
@[simp] theorem Warp.ws_flagVc (w : Warp) (r : Nat) (x : Word) : (w.ws r x).flagVc = w.flagVc := rfl
@[simp] theorem Warp.ws_readVc (w : Warp) (r : Nat) (x : Word) : (w.ws r x).readVc = w.readVc := rfl
@[simp] theorem Warp.ws_fenceVc (w : Warp) (r : Nat) (x : Word) : (w.ws r x).fenceVc = w.fenceVc := rfl
@[simp] theorem Warp.ws_poison (w : Warp) (r : Nat) (x : Word) : (w.ws r x).poison = w.poison := rfl
@[simp] theorem Warp.ws_drainFaults (w : Warp) (r : Nat) (x : Word) : (w.ws r x).drainFaults = w.drainFaults := rfl
@[simp] theorem Warp.ws_heapWaits (w : Warp) (r : Nat) (x : Word) : (w.ws r x).heapWaits = w.heapWaits := rfl
@[simp] theorem Warp.ws_asks (w : Warp) (r : Nat) (x : Word) : (w.ws r x).asks = w.asks := rfl
@[simp] theorem Warp.ws_newAt (w : Warp) (r : Nat) (x : Word) : (w.ws r x).newAt = w.newAt := rfl
@[simp] theorem Warp.ws_unmapFault (w : Warp) (r : Nat) (x : Word) : (w.ws r x).unmapFault = w.unmapFault := rfl
@[simp] theorem Warp.ws_retired (w : Warp) (r : Nat) (x : Word) : (w.ws r x).retired = w.retired := rfl

/-! ### `Warp.wm` -/

@[simp] theorem Warp.wm_block (w : Warp) (r l : Nat) (x : DWord) : (w.wm r l x).block = w.block := rfl
@[simp] theorem Warp.wm_idx (w : Warp) (r l : Nat) (x : DWord) : (w.wm r l x).idx = w.idx := rfl
@[simp] theorem Warp.wm_quadrant (w : Warp) (r l : Nat) (x : DWord) : (w.wm r l x).quadrant = w.quadrant := rfl
@[simp] theorem Warp.wm_tag (w : Warp) (r l : Nat) (x : DWord) : (w.wm r l x).tag = w.tag := rfl
@[simp] theorem Warp.wm_threads (w : Warp) (r l : Nat) (x : DWord) : (w.wm r l x).threads = w.threads := rfl
@[simp] theorem Warp.wm_entries (w : Warp) (r l : Nat) (x : DWord) : (w.wm r l x).entries = w.entries := rfl
@[simp] theorem Warp.wm_v (w : Warp) (r l : Nat) (x : DWord) : (w.wm r l x).v = w.v := rfl
@[simp] theorem Warp.wm_h (w : Warp) (r l : Nat) (x : DWord) : (w.wm r l x).h = w.h := rfl
@[simp] theorem Warp.wm_p (w : Warp) (r l : Nat) (x : DWord) : (w.wm r l x).p = w.p := rfl
@[simp] theorem Warp.wm_s (w : Warp) (r l : Nat) (x : DWord) : (w.wm r l x).s = w.s := rfl
@[simp] theorem Warp.wm_b (w : Warp) (r l : Nat) (x : DWord) : (w.wm r l x).b = w.b := rfl
@[simp] theorem Warp.wm_c (w : Warp) (r l : Nat) (x : DWord) : (w.wm r l x).c = w.c := rfl
@[simp] theorem Warp.wm_latch (w : Warp) (r l : Nat) (x : DWord) : (w.wm r l x).latch = w.latch := rfl
@[simp] theorem Warp.wm_flags (w : Warp) (r l : Nat) (x : DWord) : (w.wm r l x).flags = w.flags := rfl
@[simp] theorem Warp.wm_faults (w : Warp) (r l : Nat) (x : DWord) : (w.wm r l x).faults = w.faults := rfl
@[simp] theorem Warp.wm_mctl (w : Warp) (r l : Nat) (x : DWord) : (w.wm r l x).mctl = w.mctl := rfl
@[simp] theorem Warp.wm_mstat (w : Warp) (r l : Nat) (x : DWord) : (w.wm r l x).mstat = w.mstat := rfl
@[simp] theorem Warp.wm_wissue (w : Warp) (r l : Nat) (x : DWord) : (w.wm r l x).wissue = w.wissue := rfl
@[simp] theorem Warp.wm_wdrain (w : Warp) (r l : Nat) (x : DWord) : (w.wm r l x).wdrain = w.wdrain := rfl
@[simp] theorem Warp.wm_rsn (w : Warp) (r l : Nat) (x : DWord) : (w.wm r l x).rsn = w.rsn := rfl
@[simp] theorem Warp.wm_frec (w : Warp) (r l : Nat) (x : DWord) : (w.wm r l x).frec = w.frec := rfl
@[simp] theorem Warp.wm_granules (w : Warp) (r l : Nat) (x : DWord) : (w.wm r l x).granules = w.granules := rfl
@[simp] theorem Warp.wm_spillBase (w : Warp) (r l : Nat) (x : DWord) : (w.wm r l x).spillBase = w.spillBase := rfl
@[simp] theorem Warp.wm_yielding (w : Warp) (r l : Nat) (x : DWord) : (w.wm r l x).yielding = w.yielding := rfl
@[simp] theorem Warp.wm_acqWait (w : Warp) (r l : Nat) (x : DWord) : (w.wm r l x).acqWait = w.acqWait := rfl
@[simp] theorem Warp.wm_acqRefused (w : Warp) (r l : Nat) (x : DWord) : (w.wm r l x).acqRefused = w.acqRefused := rfl
@[simp] theorem Warp.wm_wpWait (w : Warp) (r l : Nat) (x : DWord) : (w.wm r l x).wpWait = w.wpWait := rfl
@[simp] theorem Warp.wm_bar (w : Warp) (r l : Nat) (x : DWord) : (w.wm r l x).bar = w.bar := rfl
@[simp] theorem Warp.wm_gbar (w : Warp) (r l : Nat) (x : DWord) : (w.wm r l x).gbar = w.gbar := rfl
@[simp] theorem Warp.wm_drainTo (w : Warp) (r l : Nat) (x : DWord) : (w.wm r l x).drainTo = w.drainTo := rfl
@[simp] theorem Warp.wm_hold (w : Warp) (r l : Nat) (x : DWord) : (w.wm r l x).hold = w.hold := rfl
@[simp] theorem Warp.wm_ep (w : Warp) (r l : Nat) (x : DWord) : (w.wm r l x).ep = w.ep := rfl
@[simp] theorem Warp.wm_vc (w : Warp) (r l : Nat) (x : DWord) : (w.wm r l x).vc = w.vc := rfl
@[simp] theorem Warp.wm_flagVc (w : Warp) (r l : Nat) (x : DWord) : (w.wm r l x).flagVc = w.flagVc := rfl
@[simp] theorem Warp.wm_readVc (w : Warp) (r l : Nat) (x : DWord) : (w.wm r l x).readVc = w.readVc := rfl
@[simp] theorem Warp.wm_fenceVc (w : Warp) (r l : Nat) (x : DWord) : (w.wm r l x).fenceVc = w.fenceVc := rfl
@[simp] theorem Warp.wm_drainFaults (w : Warp) (r l : Nat) (x : DWord) : (w.wm r l x).drainFaults = w.drainFaults := rfl
@[simp] theorem Warp.wm_heapWaits (w : Warp) (r l : Nat) (x : DWord) : (w.wm r l x).heapWaits = w.heapWaits := rfl
@[simp] theorem Warp.wm_asks (w : Warp) (r l : Nat) (x : DWord) : (w.wm r l x).asks = w.asks := rfl
@[simp] theorem Warp.wm_newAt (w : Warp) (r l : Nat) (x : DWord) : (w.wm r l x).newAt = w.newAt := rfl
@[simp] theorem Warp.wm_unmapFault (w : Warp) (r l : Nat) (x : DWord) : (w.wm r l x).unmapFault = w.unmapFault := rfl
@[simp] theorem Warp.wm_retired (w : Warp) (r l : Nat) (x : DWord) : (w.wm r l x).retired = w.retired := rfl

/-! ### `Warp.wh` -/

@[simp] theorem Warp.wh_block (w : Warp) (r l : Nat) (x : DWord) : (w.wh r l x).block = w.block := rfl
@[simp] theorem Warp.wh_idx (w : Warp) (r l : Nat) (x : DWord) : (w.wh r l x).idx = w.idx := rfl
@[simp] theorem Warp.wh_quadrant (w : Warp) (r l : Nat) (x : DWord) : (w.wh r l x).quadrant = w.quadrant := rfl
@[simp] theorem Warp.wh_tag (w : Warp) (r l : Nat) (x : DWord) : (w.wh r l x).tag = w.tag := rfl
@[simp] theorem Warp.wh_threads (w : Warp) (r l : Nat) (x : DWord) : (w.wh r l x).threads = w.threads := rfl
@[simp] theorem Warp.wh_entries (w : Warp) (r l : Nat) (x : DWord) : (w.wh r l x).entries = w.entries := rfl
@[simp] theorem Warp.wh_v (w : Warp) (r l : Nat) (x : DWord) : (w.wh r l x).v = w.v := rfl
@[simp] theorem Warp.wh_m (w : Warp) (r l : Nat) (x : DWord) : (w.wh r l x).m = w.m := rfl
@[simp] theorem Warp.wh_p (w : Warp) (r l : Nat) (x : DWord) : (w.wh r l x).p = w.p := rfl
@[simp] theorem Warp.wh_s (w : Warp) (r l : Nat) (x : DWord) : (w.wh r l x).s = w.s := rfl
@[simp] theorem Warp.wh_b (w : Warp) (r l : Nat) (x : DWord) : (w.wh r l x).b = w.b := rfl
@[simp] theorem Warp.wh_c (w : Warp) (r l : Nat) (x : DWord) : (w.wh r l x).c = w.c := rfl
@[simp] theorem Warp.wh_latch (w : Warp) (r l : Nat) (x : DWord) : (w.wh r l x).latch = w.latch := rfl
@[simp] theorem Warp.wh_flags (w : Warp) (r l : Nat) (x : DWord) : (w.wh r l x).flags = w.flags := rfl
@[simp] theorem Warp.wh_faults (w : Warp) (r l : Nat) (x : DWord) : (w.wh r l x).faults = w.faults := rfl
@[simp] theorem Warp.wh_mctl (w : Warp) (r l : Nat) (x : DWord) : (w.wh r l x).mctl = w.mctl := rfl
@[simp] theorem Warp.wh_mstat (w : Warp) (r l : Nat) (x : DWord) : (w.wh r l x).mstat = w.mstat := rfl
@[simp] theorem Warp.wh_wissue (w : Warp) (r l : Nat) (x : DWord) : (w.wh r l x).wissue = w.wissue := rfl
@[simp] theorem Warp.wh_wdrain (w : Warp) (r l : Nat) (x : DWord) : (w.wh r l x).wdrain = w.wdrain := rfl
@[simp] theorem Warp.wh_rsn (w : Warp) (r l : Nat) (x : DWord) : (w.wh r l x).rsn = w.rsn := rfl
@[simp] theorem Warp.wh_frec (w : Warp) (r l : Nat) (x : DWord) : (w.wh r l x).frec = w.frec := rfl
@[simp] theorem Warp.wh_granules (w : Warp) (r l : Nat) (x : DWord) : (w.wh r l x).granules = w.granules := rfl
@[simp] theorem Warp.wh_spillBase (w : Warp) (r l : Nat) (x : DWord) : (w.wh r l x).spillBase = w.spillBase := rfl
@[simp] theorem Warp.wh_yielding (w : Warp) (r l : Nat) (x : DWord) : (w.wh r l x).yielding = w.yielding := rfl
@[simp] theorem Warp.wh_acqWait (w : Warp) (r l : Nat) (x : DWord) : (w.wh r l x).acqWait = w.acqWait := rfl
@[simp] theorem Warp.wh_acqRefused (w : Warp) (r l : Nat) (x : DWord) : (w.wh r l x).acqRefused = w.acqRefused := rfl
@[simp] theorem Warp.wh_wpWait (w : Warp) (r l : Nat) (x : DWord) : (w.wh r l x).wpWait = w.wpWait := rfl
@[simp] theorem Warp.wh_bar (w : Warp) (r l : Nat) (x : DWord) : (w.wh r l x).bar = w.bar := rfl
@[simp] theorem Warp.wh_gbar (w : Warp) (r l : Nat) (x : DWord) : (w.wh r l x).gbar = w.gbar := rfl
@[simp] theorem Warp.wh_drainTo (w : Warp) (r l : Nat) (x : DWord) : (w.wh r l x).drainTo = w.drainTo := rfl
@[simp] theorem Warp.wh_hold (w : Warp) (r l : Nat) (x : DWord) : (w.wh r l x).hold = w.hold := rfl
@[simp] theorem Warp.wh_ep (w : Warp) (r l : Nat) (x : DWord) : (w.wh r l x).ep = w.ep := rfl
@[simp] theorem Warp.wh_vc (w : Warp) (r l : Nat) (x : DWord) : (w.wh r l x).vc = w.vc := rfl
@[simp] theorem Warp.wh_flagVc (w : Warp) (r l : Nat) (x : DWord) : (w.wh r l x).flagVc = w.flagVc := rfl
@[simp] theorem Warp.wh_readVc (w : Warp) (r l : Nat) (x : DWord) : (w.wh r l x).readVc = w.readVc := rfl
@[simp] theorem Warp.wh_fenceVc (w : Warp) (r l : Nat) (x : DWord) : (w.wh r l x).fenceVc = w.fenceVc := rfl
@[simp] theorem Warp.wh_drainFaults (w : Warp) (r l : Nat) (x : DWord) : (w.wh r l x).drainFaults = w.drainFaults := rfl
@[simp] theorem Warp.wh_heapWaits (w : Warp) (r l : Nat) (x : DWord) : (w.wh r l x).heapWaits = w.heapWaits := rfl
@[simp] theorem Warp.wh_asks (w : Warp) (r l : Nat) (x : DWord) : (w.wh r l x).asks = w.asks := rfl
@[simp] theorem Warp.wh_newAt (w : Warp) (r l : Nat) (x : DWord) : (w.wh r l x).newAt = w.newAt := rfl
@[simp] theorem Warp.wh_unmapFault (w : Warp) (r l : Nat) (x : DWord) : (w.wh r l x).unmapFault = w.unmapFault := rfl
@[simp] theorem Warp.wh_retired (w : Warp) (r l : Nat) (x : DWord) : (w.wh r l x).retired = w.retired := rfl

/-! ### `Warp.wb` -/

@[simp] theorem Warp.wb_block (w : Warp) (r : Nat) (x : Bounded) : (w.wb r x).block = w.block := rfl
@[simp] theorem Warp.wb_idx (w : Warp) (r : Nat) (x : Bounded) : (w.wb r x).idx = w.idx := rfl
@[simp] theorem Warp.wb_quadrant (w : Warp) (r : Nat) (x : Bounded) : (w.wb r x).quadrant = w.quadrant := rfl
@[simp] theorem Warp.wb_tag (w : Warp) (r : Nat) (x : Bounded) : (w.wb r x).tag = w.tag := rfl
@[simp] theorem Warp.wb_threads (w : Warp) (r : Nat) (x : Bounded) : (w.wb r x).threads = w.threads := rfl
@[simp] theorem Warp.wb_entries (w : Warp) (r : Nat) (x : Bounded) : (w.wb r x).entries = w.entries := rfl
@[simp] theorem Warp.wb_v (w : Warp) (r : Nat) (x : Bounded) : (w.wb r x).v = w.v := rfl
@[simp] theorem Warp.wb_m (w : Warp) (r : Nat) (x : Bounded) : (w.wb r x).m = w.m := rfl
@[simp] theorem Warp.wb_h (w : Warp) (r : Nat) (x : Bounded) : (w.wb r x).h = w.h := rfl
@[simp] theorem Warp.wb_p (w : Warp) (r : Nat) (x : Bounded) : (w.wb r x).p = w.p := rfl
@[simp] theorem Warp.wb_s (w : Warp) (r : Nat) (x : Bounded) : (w.wb r x).s = w.s := rfl
@[simp] theorem Warp.wb_c (w : Warp) (r : Nat) (x : Bounded) : (w.wb r x).c = w.c := rfl
@[simp] theorem Warp.wb_latch (w : Warp) (r : Nat) (x : Bounded) : (w.wb r x).latch = w.latch := rfl
@[simp] theorem Warp.wb_flags (w : Warp) (r : Nat) (x : Bounded) : (w.wb r x).flags = w.flags := rfl
@[simp] theorem Warp.wb_faults (w : Warp) (r : Nat) (x : Bounded) : (w.wb r x).faults = w.faults := rfl
@[simp] theorem Warp.wb_mctl (w : Warp) (r : Nat) (x : Bounded) : (w.wb r x).mctl = w.mctl := rfl
@[simp] theorem Warp.wb_mstat (w : Warp) (r : Nat) (x : Bounded) : (w.wb r x).mstat = w.mstat := rfl
@[simp] theorem Warp.wb_wissue (w : Warp) (r : Nat) (x : Bounded) : (w.wb r x).wissue = w.wissue := rfl
@[simp] theorem Warp.wb_wdrain (w : Warp) (r : Nat) (x : Bounded) : (w.wb r x).wdrain = w.wdrain := rfl
@[simp] theorem Warp.wb_rsn (w : Warp) (r : Nat) (x : Bounded) : (w.wb r x).rsn = w.rsn := rfl
@[simp] theorem Warp.wb_frec (w : Warp) (r : Nat) (x : Bounded) : (w.wb r x).frec = w.frec := rfl
@[simp] theorem Warp.wb_granules (w : Warp) (r : Nat) (x : Bounded) : (w.wb r x).granules = w.granules := rfl
@[simp] theorem Warp.wb_spillBase (w : Warp) (r : Nat) (x : Bounded) : (w.wb r x).spillBase = w.spillBase := rfl
@[simp] theorem Warp.wb_yielding (w : Warp) (r : Nat) (x : Bounded) : (w.wb r x).yielding = w.yielding := rfl
@[simp] theorem Warp.wb_acqWait (w : Warp) (r : Nat) (x : Bounded) : (w.wb r x).acqWait = w.acqWait := rfl
@[simp] theorem Warp.wb_acqRefused (w : Warp) (r : Nat) (x : Bounded) : (w.wb r x).acqRefused = w.acqRefused := rfl
@[simp] theorem Warp.wb_wpWait (w : Warp) (r : Nat) (x : Bounded) : (w.wb r x).wpWait = w.wpWait := rfl
@[simp] theorem Warp.wb_bar (w : Warp) (r : Nat) (x : Bounded) : (w.wb r x).bar = w.bar := rfl
@[simp] theorem Warp.wb_gbar (w : Warp) (r : Nat) (x : Bounded) : (w.wb r x).gbar = w.gbar := rfl
@[simp] theorem Warp.wb_drainTo (w : Warp) (r : Nat) (x : Bounded) : (w.wb r x).drainTo = w.drainTo := rfl
@[simp] theorem Warp.wb_hold (w : Warp) (r : Nat) (x : Bounded) : (w.wb r x).hold = w.hold := rfl
@[simp] theorem Warp.wb_ep (w : Warp) (r : Nat) (x : Bounded) : (w.wb r x).ep = w.ep := rfl
@[simp] theorem Warp.wb_vc (w : Warp) (r : Nat) (x : Bounded) : (w.wb r x).vc = w.vc := rfl
@[simp] theorem Warp.wb_flagVc (w : Warp) (r : Nat) (x : Bounded) : (w.wb r x).flagVc = w.flagVc := rfl
@[simp] theorem Warp.wb_readVc (w : Warp) (r : Nat) (x : Bounded) : (w.wb r x).readVc = w.readVc := rfl
@[simp] theorem Warp.wb_fenceVc (w : Warp) (r : Nat) (x : Bounded) : (w.wb r x).fenceVc = w.fenceVc := rfl
@[simp] theorem Warp.wb_poison (w : Warp) (r : Nat) (x : Bounded) : (w.wb r x).poison = w.poison := rfl
@[simp] theorem Warp.wb_drainFaults (w : Warp) (r : Nat) (x : Bounded) : (w.wb r x).drainFaults = w.drainFaults := rfl
@[simp] theorem Warp.wb_heapWaits (w : Warp) (r : Nat) (x : Bounded) : (w.wb r x).heapWaits = w.heapWaits := rfl
@[simp] theorem Warp.wb_asks (w : Warp) (r : Nat) (x : Bounded) : (w.wb r x).asks = w.asks := rfl
@[simp] theorem Warp.wb_newAt (w : Warp) (r : Nat) (x : Bounded) : (w.wb r x).newAt = w.newAt := rfl
@[simp] theorem Warp.wb_unmapFault (w : Warp) (r : Nat) (x : Bounded) : (w.wb r x).unmapFault = w.unmapFault := rfl
@[simp] theorem Warp.wb_retired (w : Warp) (r : Nat) (x : Bounded) : (w.wb r x).retired = w.retired := rfl

/-! ### `Warp.wc` -/

@[simp] theorem Warp.wc_block (w : Warp) (r : Nat) (x : Conv) : (w.wc r x).block = w.block := rfl
@[simp] theorem Warp.wc_idx (w : Warp) (r : Nat) (x : Conv) : (w.wc r x).idx = w.idx := rfl
@[simp] theorem Warp.wc_quadrant (w : Warp) (r : Nat) (x : Conv) : (w.wc r x).quadrant = w.quadrant := rfl
@[simp] theorem Warp.wc_tag (w : Warp) (r : Nat) (x : Conv) : (w.wc r x).tag = w.tag := rfl
@[simp] theorem Warp.wc_threads (w : Warp) (r : Nat) (x : Conv) : (w.wc r x).threads = w.threads := rfl
@[simp] theorem Warp.wc_entries (w : Warp) (r : Nat) (x : Conv) : (w.wc r x).entries = w.entries := rfl
@[simp] theorem Warp.wc_v (w : Warp) (r : Nat) (x : Conv) : (w.wc r x).v = w.v := rfl
@[simp] theorem Warp.wc_m (w : Warp) (r : Nat) (x : Conv) : (w.wc r x).m = w.m := rfl
@[simp] theorem Warp.wc_h (w : Warp) (r : Nat) (x : Conv) : (w.wc r x).h = w.h := rfl
@[simp] theorem Warp.wc_p (w : Warp) (r : Nat) (x : Conv) : (w.wc r x).p = w.p := rfl
@[simp] theorem Warp.wc_s (w : Warp) (r : Nat) (x : Conv) : (w.wc r x).s = w.s := rfl
@[simp] theorem Warp.wc_b (w : Warp) (r : Nat) (x : Conv) : (w.wc r x).b = w.b := rfl
@[simp] theorem Warp.wc_latch (w : Warp) (r : Nat) (x : Conv) : (w.wc r x).latch = w.latch := rfl
@[simp] theorem Warp.wc_flags (w : Warp) (r : Nat) (x : Conv) : (w.wc r x).flags = w.flags := rfl
@[simp] theorem Warp.wc_faults (w : Warp) (r : Nat) (x : Conv) : (w.wc r x).faults = w.faults := rfl
@[simp] theorem Warp.wc_mctl (w : Warp) (r : Nat) (x : Conv) : (w.wc r x).mctl = w.mctl := rfl
@[simp] theorem Warp.wc_mstat (w : Warp) (r : Nat) (x : Conv) : (w.wc r x).mstat = w.mstat := rfl
@[simp] theorem Warp.wc_wissue (w : Warp) (r : Nat) (x : Conv) : (w.wc r x).wissue = w.wissue := rfl
@[simp] theorem Warp.wc_wdrain (w : Warp) (r : Nat) (x : Conv) : (w.wc r x).wdrain = w.wdrain := rfl
@[simp] theorem Warp.wc_rsn (w : Warp) (r : Nat) (x : Conv) : (w.wc r x).rsn = w.rsn := rfl
@[simp] theorem Warp.wc_frec (w : Warp) (r : Nat) (x : Conv) : (w.wc r x).frec = w.frec := rfl
@[simp] theorem Warp.wc_granules (w : Warp) (r : Nat) (x : Conv) : (w.wc r x).granules = w.granules := rfl
@[simp] theorem Warp.wc_spillBase (w : Warp) (r : Nat) (x : Conv) : (w.wc r x).spillBase = w.spillBase := rfl
@[simp] theorem Warp.wc_yielding (w : Warp) (r : Nat) (x : Conv) : (w.wc r x).yielding = w.yielding := rfl
@[simp] theorem Warp.wc_acqWait (w : Warp) (r : Nat) (x : Conv) : (w.wc r x).acqWait = w.acqWait := rfl
@[simp] theorem Warp.wc_acqRefused (w : Warp) (r : Nat) (x : Conv) : (w.wc r x).acqRefused = w.acqRefused := rfl
@[simp] theorem Warp.wc_wpWait (w : Warp) (r : Nat) (x : Conv) : (w.wc r x).wpWait = w.wpWait := rfl
@[simp] theorem Warp.wc_bar (w : Warp) (r : Nat) (x : Conv) : (w.wc r x).bar = w.bar := rfl
@[simp] theorem Warp.wc_gbar (w : Warp) (r : Nat) (x : Conv) : (w.wc r x).gbar = w.gbar := rfl
@[simp] theorem Warp.wc_drainTo (w : Warp) (r : Nat) (x : Conv) : (w.wc r x).drainTo = w.drainTo := rfl
@[simp] theorem Warp.wc_hold (w : Warp) (r : Nat) (x : Conv) : (w.wc r x).hold = w.hold := rfl
@[simp] theorem Warp.wc_ep (w : Warp) (r : Nat) (x : Conv) : (w.wc r x).ep = w.ep := rfl
@[simp] theorem Warp.wc_vc (w : Warp) (r : Nat) (x : Conv) : (w.wc r x).vc = w.vc := rfl
@[simp] theorem Warp.wc_flagVc (w : Warp) (r : Nat) (x : Conv) : (w.wc r x).flagVc = w.flagVc := rfl
@[simp] theorem Warp.wc_readVc (w : Warp) (r : Nat) (x : Conv) : (w.wc r x).readVc = w.readVc := rfl
@[simp] theorem Warp.wc_fenceVc (w : Warp) (r : Nat) (x : Conv) : (w.wc r x).fenceVc = w.fenceVc := rfl
@[simp] theorem Warp.wc_poison (w : Warp) (r : Nat) (x : Conv) : (w.wc r x).poison = w.poison := rfl
@[simp] theorem Warp.wc_drainFaults (w : Warp) (r : Nat) (x : Conv) : (w.wc r x).drainFaults = w.drainFaults := rfl
@[simp] theorem Warp.wc_heapWaits (w : Warp) (r : Nat) (x : Conv) : (w.wc r x).heapWaits = w.heapWaits := rfl
@[simp] theorem Warp.wc_asks (w : Warp) (r : Nat) (x : Conv) : (w.wc r x).asks = w.asks := rfl
@[simp] theorem Warp.wc_newAt (w : Warp) (r : Nat) (x : Conv) : (w.wc r x).newAt = w.newAt := rfl
@[simp] theorem Warp.wc_unmapFault (w : Warp) (r : Nat) (x : Conv) : (w.wc r x).unmapFault = w.unmapFault := rfl
@[simp] theorem Warp.wc_retired (w : Warp) (r : Nat) (x : Conv) : (w.wc r x).retired = w.retired := rfl

/-! ### `Warp.modTh` -/

@[simp] theorem Warp.modTh_block (w : Warp) (l : Nat) (f : Thread → Thread) : (w.modTh l f).block = w.block := rfl
@[simp] theorem Warp.modTh_idx (w : Warp) (l : Nat) (f : Thread → Thread) : (w.modTh l f).idx = w.idx := rfl
@[simp] theorem Warp.modTh_quadrant (w : Warp) (l : Nat) (f : Thread → Thread) : (w.modTh l f).quadrant = w.quadrant := rfl
@[simp] theorem Warp.modTh_tag (w : Warp) (l : Nat) (f : Thread → Thread) : (w.modTh l f).tag = w.tag := rfl
@[simp] theorem Warp.modTh_entries (w : Warp) (l : Nat) (f : Thread → Thread) : (w.modTh l f).entries = w.entries := rfl
@[simp] theorem Warp.modTh_v (w : Warp) (l : Nat) (f : Thread → Thread) : (w.modTh l f).v = w.v := rfl
@[simp] theorem Warp.modTh_m (w : Warp) (l : Nat) (f : Thread → Thread) : (w.modTh l f).m = w.m := rfl
@[simp] theorem Warp.modTh_h (w : Warp) (l : Nat) (f : Thread → Thread) : (w.modTh l f).h = w.h := rfl
@[simp] theorem Warp.modTh_p (w : Warp) (l : Nat) (f : Thread → Thread) : (w.modTh l f).p = w.p := rfl
@[simp] theorem Warp.modTh_s (w : Warp) (l : Nat) (f : Thread → Thread) : (w.modTh l f).s = w.s := rfl
@[simp] theorem Warp.modTh_b (w : Warp) (l : Nat) (f : Thread → Thread) : (w.modTh l f).b = w.b := rfl
@[simp] theorem Warp.modTh_c (w : Warp) (l : Nat) (f : Thread → Thread) : (w.modTh l f).c = w.c := rfl
@[simp] theorem Warp.modTh_latch (w : Warp) (l : Nat) (f : Thread → Thread) : (w.modTh l f).latch = w.latch := rfl
@[simp] theorem Warp.modTh_flags (w : Warp) (l : Nat) (f : Thread → Thread) : (w.modTh l f).flags = w.flags := rfl
@[simp] theorem Warp.modTh_faults (w : Warp) (l : Nat) (f : Thread → Thread) : (w.modTh l f).faults = w.faults := rfl
@[simp] theorem Warp.modTh_mctl (w : Warp) (l : Nat) (f : Thread → Thread) : (w.modTh l f).mctl = w.mctl := rfl
@[simp] theorem Warp.modTh_mstat (w : Warp) (l : Nat) (f : Thread → Thread) : (w.modTh l f).mstat = w.mstat := rfl
@[simp] theorem Warp.modTh_wissue (w : Warp) (l : Nat) (f : Thread → Thread) : (w.modTh l f).wissue = w.wissue := rfl
@[simp] theorem Warp.modTh_wdrain (w : Warp) (l : Nat) (f : Thread → Thread) : (w.modTh l f).wdrain = w.wdrain := rfl
@[simp] theorem Warp.modTh_rsn (w : Warp) (l : Nat) (f : Thread → Thread) : (w.modTh l f).rsn = w.rsn := rfl
@[simp] theorem Warp.modTh_frec (w : Warp) (l : Nat) (f : Thread → Thread) : (w.modTh l f).frec = w.frec := rfl
@[simp] theorem Warp.modTh_granules (w : Warp) (l : Nat) (f : Thread → Thread) : (w.modTh l f).granules = w.granules := rfl
@[simp] theorem Warp.modTh_spillBase (w : Warp) (l : Nat) (f : Thread → Thread) : (w.modTh l f).spillBase = w.spillBase := rfl
@[simp] theorem Warp.modTh_yielding (w : Warp) (l : Nat) (f : Thread → Thread) : (w.modTh l f).yielding = w.yielding := rfl
@[simp] theorem Warp.modTh_acqWait (w : Warp) (l : Nat) (f : Thread → Thread) : (w.modTh l f).acqWait = w.acqWait := rfl
@[simp] theorem Warp.modTh_acqRefused (w : Warp) (l : Nat) (f : Thread → Thread) : (w.modTh l f).acqRefused = w.acqRefused := rfl
@[simp] theorem Warp.modTh_wpWait (w : Warp) (l : Nat) (f : Thread → Thread) : (w.modTh l f).wpWait = w.wpWait := rfl
@[simp] theorem Warp.modTh_bar (w : Warp) (l : Nat) (f : Thread → Thread) : (w.modTh l f).bar = w.bar := rfl
@[simp] theorem Warp.modTh_gbar (w : Warp) (l : Nat) (f : Thread → Thread) : (w.modTh l f).gbar = w.gbar := rfl
@[simp] theorem Warp.modTh_drainTo (w : Warp) (l : Nat) (f : Thread → Thread) : (w.modTh l f).drainTo = w.drainTo := rfl
@[simp] theorem Warp.modTh_hold (w : Warp) (l : Nat) (f : Thread → Thread) : (w.modTh l f).hold = w.hold := rfl
@[simp] theorem Warp.modTh_ep (w : Warp) (l : Nat) (f : Thread → Thread) : (w.modTh l f).ep = w.ep := rfl
@[simp] theorem Warp.modTh_vc (w : Warp) (l : Nat) (f : Thread → Thread) : (w.modTh l f).vc = w.vc := rfl
@[simp] theorem Warp.modTh_flagVc (w : Warp) (l : Nat) (f : Thread → Thread) : (w.modTh l f).flagVc = w.flagVc := rfl
@[simp] theorem Warp.modTh_readVc (w : Warp) (l : Nat) (f : Thread → Thread) : (w.modTh l f).readVc = w.readVc := rfl
@[simp] theorem Warp.modTh_fenceVc (w : Warp) (l : Nat) (f : Thread → Thread) : (w.modTh l f).fenceVc = w.fenceVc := rfl
@[simp] theorem Warp.modTh_poison (w : Warp) (l : Nat) (f : Thread → Thread) : (w.modTh l f).poison = w.poison := rfl
@[simp] theorem Warp.modTh_drainFaults (w : Warp) (l : Nat) (f : Thread → Thread) : (w.modTh l f).drainFaults = w.drainFaults := rfl
@[simp] theorem Warp.modTh_heapWaits (w : Warp) (l : Nat) (f : Thread → Thread) : (w.modTh l f).heapWaits = w.heapWaits := rfl
@[simp] theorem Warp.modTh_asks (w : Warp) (l : Nat) (f : Thread → Thread) : (w.modTh l f).asks = w.asks := rfl
@[simp] theorem Warp.modTh_newAt (w : Warp) (l : Nat) (f : Thread → Thread) : (w.modTh l f).newAt = w.newAt := rfl
@[simp] theorem Warp.modTh_unmapFault (w : Warp) (l : Nat) (f : Thread → Thread) : (w.modTh l f).unmapFault = w.unmapFault := rfl
@[simp] theorem Warp.modTh_retired (w : Warp) (l : Nat) (f : Thread → Thread) : (w.modTh l f).retired = w.retired := rfl

/-! ### `Warp.wp` -/

@[simp] theorem Warp.wp_block (w : Warp) (r : Nat) (m x : Word) : (w.wp r m x).block = w.block := by
  unfold Warp.wp
  split <;> rfl
@[simp] theorem Warp.wp_idx (w : Warp) (r : Nat) (m x : Word) : (w.wp r m x).idx = w.idx := by
  unfold Warp.wp
  split <;> rfl
@[simp] theorem Warp.wp_quadrant (w : Warp) (r : Nat) (m x : Word) : (w.wp r m x).quadrant = w.quadrant := by
  unfold Warp.wp
  split <;> rfl
@[simp] theorem Warp.wp_tag (w : Warp) (r : Nat) (m x : Word) : (w.wp r m x).tag = w.tag := by
  unfold Warp.wp
  split <;> rfl
@[simp] theorem Warp.wp_threads (w : Warp) (r : Nat) (m x : Word) : (w.wp r m x).threads = w.threads := by
  unfold Warp.wp
  split <;> rfl
@[simp] theorem Warp.wp_entries (w : Warp) (r : Nat) (m x : Word) : (w.wp r m x).entries = w.entries := by
  unfold Warp.wp
  split <;> rfl
@[simp] theorem Warp.wp_v (w : Warp) (r : Nat) (m x : Word) : (w.wp r m x).v = w.v := by
  unfold Warp.wp
  split <;> rfl
@[simp] theorem Warp.wp_m (w : Warp) (r : Nat) (m x : Word) : (w.wp r m x).m = w.m := by
  unfold Warp.wp
  split <;> rfl
@[simp] theorem Warp.wp_h (w : Warp) (r : Nat) (m x : Word) : (w.wp r m x).h = w.h := by
  unfold Warp.wp
  split <;> rfl
@[simp] theorem Warp.wp_s (w : Warp) (r : Nat) (m x : Word) : (w.wp r m x).s = w.s := by
  unfold Warp.wp
  split <;> rfl
@[simp] theorem Warp.wp_b (w : Warp) (r : Nat) (m x : Word) : (w.wp r m x).b = w.b := by
  unfold Warp.wp
  split <;> rfl
@[simp] theorem Warp.wp_c (w : Warp) (r : Nat) (m x : Word) : (w.wp r m x).c = w.c := by
  unfold Warp.wp
  split <;> rfl
@[simp] theorem Warp.wp_latch (w : Warp) (r : Nat) (m x : Word) : (w.wp r m x).latch = w.latch := by
  unfold Warp.wp
  split <;> rfl
@[simp] theorem Warp.wp_flags (w : Warp) (r : Nat) (m x : Word) : (w.wp r m x).flags = w.flags := by
  unfold Warp.wp
  split <;> rfl
@[simp] theorem Warp.wp_faults (w : Warp) (r : Nat) (m x : Word) : (w.wp r m x).faults = w.faults := by
  unfold Warp.wp
  split <;> rfl
@[simp] theorem Warp.wp_mctl (w : Warp) (r : Nat) (m x : Word) : (w.wp r m x).mctl = w.mctl := by
  unfold Warp.wp
  split <;> rfl
@[simp] theorem Warp.wp_mstat (w : Warp) (r : Nat) (m x : Word) : (w.wp r m x).mstat = w.mstat := by
  unfold Warp.wp
  split <;> rfl
@[simp] theorem Warp.wp_wissue (w : Warp) (r : Nat) (m x : Word) : (w.wp r m x).wissue = w.wissue := by
  unfold Warp.wp
  split <;> rfl
@[simp] theorem Warp.wp_wdrain (w : Warp) (r : Nat) (m x : Word) : (w.wp r m x).wdrain = w.wdrain := by
  unfold Warp.wp
  split <;> rfl
@[simp] theorem Warp.wp_rsn (w : Warp) (r : Nat) (m x : Word) : (w.wp r m x).rsn = w.rsn := by
  unfold Warp.wp
  split <;> rfl
@[simp] theorem Warp.wp_frec (w : Warp) (r : Nat) (m x : Word) : (w.wp r m x).frec = w.frec := by
  unfold Warp.wp
  split <;> rfl
@[simp] theorem Warp.wp_granules (w : Warp) (r : Nat) (m x : Word) : (w.wp r m x).granules = w.granules := by
  unfold Warp.wp
  split <;> rfl
@[simp] theorem Warp.wp_spillBase (w : Warp) (r : Nat) (m x : Word) : (w.wp r m x).spillBase = w.spillBase := by
  unfold Warp.wp
  split <;> rfl
@[simp] theorem Warp.wp_yielding (w : Warp) (r : Nat) (m x : Word) : (w.wp r m x).yielding = w.yielding := by
  unfold Warp.wp
  split <;> rfl
@[simp] theorem Warp.wp_acqWait (w : Warp) (r : Nat) (m x : Word) : (w.wp r m x).acqWait = w.acqWait := by
  unfold Warp.wp
  split <;> rfl
@[simp] theorem Warp.wp_acqRefused (w : Warp) (r : Nat) (m x : Word) : (w.wp r m x).acqRefused = w.acqRefused := by
  unfold Warp.wp
  split <;> rfl
@[simp] theorem Warp.wp_wpWait (w : Warp) (r : Nat) (m x : Word) : (w.wp r m x).wpWait = w.wpWait := by
  unfold Warp.wp
  split <;> rfl
@[simp] theorem Warp.wp_bar (w : Warp) (r : Nat) (m x : Word) : (w.wp r m x).bar = w.bar := by
  unfold Warp.wp
  split <;> rfl
@[simp] theorem Warp.wp_gbar (w : Warp) (r : Nat) (m x : Word) : (w.wp r m x).gbar = w.gbar := by
  unfold Warp.wp
  split <;> rfl
@[simp] theorem Warp.wp_drainTo (w : Warp) (r : Nat) (m x : Word) : (w.wp r m x).drainTo = w.drainTo := by
  unfold Warp.wp
  split <;> rfl
@[simp] theorem Warp.wp_hold (w : Warp) (r : Nat) (m x : Word) : (w.wp r m x).hold = w.hold := by
  unfold Warp.wp
  split <;> rfl
@[simp] theorem Warp.wp_ep (w : Warp) (r : Nat) (m x : Word) : (w.wp r m x).ep = w.ep := by
  unfold Warp.wp
  split <;> rfl
@[simp] theorem Warp.wp_vc (w : Warp) (r : Nat) (m x : Word) : (w.wp r m x).vc = w.vc := by
  unfold Warp.wp
  split <;> rfl
@[simp] theorem Warp.wp_flagVc (w : Warp) (r : Nat) (m x : Word) : (w.wp r m x).flagVc = w.flagVc := by
  unfold Warp.wp
  split <;> rfl
@[simp] theorem Warp.wp_readVc (w : Warp) (r : Nat) (m x : Word) : (w.wp r m x).readVc = w.readVc := by
  unfold Warp.wp
  split <;> rfl
@[simp] theorem Warp.wp_fenceVc (w : Warp) (r : Nat) (m x : Word) : (w.wp r m x).fenceVc = w.fenceVc := by
  unfold Warp.wp
  split <;> rfl
@[simp] theorem Warp.wp_poison (w : Warp) (r : Nat) (m x : Word) : (w.wp r m x).poison = w.poison := by
  unfold Warp.wp
  split <;> rfl
@[simp] theorem Warp.wp_drainFaults (w : Warp) (r : Nat) (m x : Word) : (w.wp r m x).drainFaults = w.drainFaults := by
  unfold Warp.wp
  split <;> rfl
@[simp] theorem Warp.wp_heapWaits (w : Warp) (r : Nat) (m x : Word) : (w.wp r m x).heapWaits = w.heapWaits := by
  unfold Warp.wp
  split <;> rfl
@[simp] theorem Warp.wp_asks (w : Warp) (r : Nat) (m x : Word) : (w.wp r m x).asks = w.asks := by
  unfold Warp.wp
  split <;> rfl
@[simp] theorem Warp.wp_newAt (w : Warp) (r : Nat) (m x : Word) : (w.wp r m x).newAt = w.newAt := by
  unfold Warp.wp
  split <;> rfl
@[simp] theorem Warp.wp_unmapFault (w : Warp) (r : Nat) (m x : Word) : (w.wp r m x).unmapFault = w.unmapFault := by
  unfold Warp.wp
  split <;> rfl
@[simp] theorem Warp.wp_retired (w : Warp) (r : Nat) (m x : Word) : (w.wp r m x).retired = w.retired := by
  unfold Warp.wp
  split <;> rfl

/-! ### Reading what an update wrote -/

theorem State.setWarp_warp (s : State) (w : Nat) (x : Warp) (k : Nat) :
    (s.setWarp w x).warp k = if k = w then x else s.warp k := by
  simp only [State.warp, State.setWarp, tget_tset]

@[simp] theorem State.setWarp_warp_self (s : State) (w : Nat) (x : Warp) : (s.setWarp w x).warp w = x := by
  simp [State.setWarp_warp]

theorem State.modWarp_warp (s : State) (w : Nat) (f : Warp → Warp) (k : Nat) :
    (s.modWarp w f).warp k = if k = w then f (s.warp w) else s.warp k := by
  simp only [State.warp, State.modWarp, tget_tmod]

@[simp] theorem State.modWarp_warp_self (s : State) (w : Nat) (f : Warp → Warp) : (s.modWarp w f).warp w = f (s.warp w) := by
  simp [State.modWarp_warp]

theorem State.modBlk_blk (s : State) (b : Nat) (f : Block → Block) (k : Nat) :
    (s.modBlk b f).blk k = if k = b then f (s.blk b) else s.blk k := by
  simp only [State.blk, State.modBlk, tget_tmod]

theorem State.modGang_gang (s : State) (g : Nat) (f : Gang → Gang) (k : Nat) :
    (s.modGang g f).gang k = if k = g then f (s.gang g) else s.gang k := by
  simp only [State.gang, State.modGang, tget_tmod]

theorem State.modGrid_grid (s : State) (g : Nat) (f : Grid → Grid) (k : Nat) :
    (s.modGrid g f).grid k = if k = g then f (s.grid g) else s.grid k := by
  simp only [State.grid, State.modGrid, tget_tmod]

theorem State.modCluster_cluster (s : State) (c : Nat) (f : Cluster → Cluster) (k : Nat) :
    (s.modCluster c f).cluster k = if k = c then f (s.cluster c) else s.cluster k := by
  simp only [State.cluster, State.modCluster, tget_tmod]

theorem State.modChan_chan (s : State) (n : Nat) (f : Chan → Chan) (k : Nat) :
    (s.modChan n f).chan k = if k = n then f (s.chan n) else s.chan k := by
  simp only [State.chan, State.modChan, tget_tmod]

theorem State.modCtx_ctx (s : State) (n : Nat) (f : Ctx → Ctx) (k : Nat) :
    (s.modCtx n f).ctx k = if k = n then f (s.ctx n) else s.ctx k := by
  simp only [State.ctx, State.modCtx, tget_tmod]

theorem State.modFn_fn (s : State) (n : Nat) (f : Fn → Fn) (k : Nat) :
    (s.modFn n f).fn k = if k = n then f (s.fn n) else s.fn k := by
  simp only [State.fn, State.modFn, tget_tmod]

theorem Warp.modTh_th (w : Warp) (l : Nat) (f : Thread → Thread) (k : Nat) :
    (w.modTh l f).th k = if k = l then f (w.th l) else w.th k := by
  simp only [Warp.th, Warp.modTh, tget_tmod]

theorem Warp.rv_wv (w : Warp) (r l : Nat) (x : Word) (r' l' : Nat) (h : l < 32) (h' : l' < 32) :
    (w.wv r l x).rv r' l' = if r' = r ∧ l' = l then x else w.rv r' l' := by
  have e : (32 * r' + l' = 32 * r + l) ↔ (r' = r ∧ l' = l) := by omega
  simp [Warp.rv, Warp.wv, tget_tput, e]

theorem Warp.rm_wm (w : Warp) (r l : Nat) (x : DWord) (r' l' : Nat) (h : l < 32) (h' : l' < 32) :
    (w.wm r l x).rm r' l' = if r' = r ∧ l' = l then x else w.rm r' l' := by
  have e : (32 * r' + l' = 32 * r + l) ↔ (r' = r ∧ l' = l) := by omega
  simp [Warp.rm, Warp.wm, tget_tput, e]

theorem Warp.rh_wh (w : Warp) (r l : Nat) (x : DWord) (r' l' : Nat) (h : l < 32) (h' : l' < 32) :
    (w.wh r l x).rh r' l' = if r' = r ∧ l' = l then x else w.rh r' l' := by
  have e : (32 * r' + l' = 32 * r + l) ↔ (r' = r ∧ l' = l) := by omega
  simp [Warp.rh, Warp.wh, tget_tput, e]

theorem Warp.rs_ws (w : Warp) (r : Nat) (x : Word) (k : Nat) : (w.ws r x).rs k = if k = r then x else w.rs k := by
  simp [Warp.rs, Warp.ws, tget_tput]

theorem Warp.rb_wb (w : Warp) (r : Nat) (x : Bounded) (k : Nat) : (w.wb r x).rb k = if k = r then x else w.rb k := by
  simp [Warp.rb, Warp.wb, tget_tput]

theorem Warp.rc_wc (w : Warp) (r : Nat) (x : Conv) (k : Nat) : (w.wc r x).rc k = if k = r then x else w.rc k := by
  simp [Warp.rc, Warp.wc, tget_tput]

/-- A predicate after a write of another or of itself in the lanes of a mask; `p7` stays true (R173). -/
theorem Warp.rp_wp (w : Warp) (r : Nat) (m x : Word) (k l : Nat) (h : l < 32) :
    (w.wp r m x).rp k l = if k = r ∧ r ≠ 7 ∧ m.getLsbD l = true then x.getLsbD l else w.rp k l := by
  unfold Warp.wp Warp.rp
  by_cases h7 : r = 7
  · simp [h7]
  · by_cases hk : k = r
    · subst hk
      rw [BitVec.getLsbD_eq_getElem h, BitVec.getLsbD_eq_getElem h]
      cases hm : m[l] <;> simp [h7, h, hm]
    · simp [h7, hk]

end Sys2Proof.Machine
end

