-- ==== Sys2Proof/Laws/Warp.lean ====
section
/-! SUPPORT. What writing registers and moving threads does, said once: lists of lanes, register operands, predicates and
code pointers. -/

namespace Sys2Proof.Machine

/-! ### Lanes and masks -/

theorem maskOf_getLsbD (ls : List Nat) (l : Nat) (h : l < 32) : (maskOf ls).getLsbD l = decide (l ∈ ls) := by
  induction ls with
  | nil => simp [maskOf]
  | cons a r ih =>
    rw [maskOf, BitVec.getLsbD_or, ih, BitVec.getLsbD_shiftLeft]
    by_cases e : l = a
    · subst e
      simp [h]
    · have : ¬ (l - a = 0 ∧ a ≤ l) := by omega
      by_cases hl : l < a
      · simp [h, hl, e]
      · have h2 : l - a ≠ 0 := by omega
        simp [h, hl, e]
        omega

/-- The lanes of an entry are lanes of the warp, each once. -/
theorem Warp.entLanes_lt (w : Warp) (c : Word) (l : Nat) (h : l ∈ w.entLanes c) : l < 32 := by
  simp [Warp.entLanes, allLanes] at h
  exact h.1

theorem Warp.entLanes_nodup (w : Warp) (c : Word) : (w.entLanes c).Nodup := (List.nodup_range).filter _

/-! ### Threads -/

theorem Warp.modThs_th (ls : List Nat) : ∀ (w : Warp) (f : Nat → Thread → Thread) (k : Nat), ls.Nodup →
    (w.modThs ls f).th k = if k ∈ ls then f k (w.th k) else w.th k := by
  induction ls with
  | nil => intro w f k _; simp [Warp.modThs]
  | cons a r ih =>
    intro w f k h
    rw [List.nodup_cons] at h
    rw [Warp.modThs, ih _ _ _ h.2]
    by_cases hk : k = a
    · subst hk
      simp [h.1, Warp.modTh_th]
    · simp [hk, Warp.modTh_th]

/-- Changing threads leaves everything else of the warp. -/
theorem Warp.modThs_rest (ls : List Nat) : ∀ (w : Warp) (f : Nat → Thread → Thread),
    w.modThs ls f = { w with threads := (w.modThs ls f).threads } := by
  induction ls with
  | nil => intro w f; rfl
  | cons a r ih =>
    intro w f
    rw [Warp.modThs, ih]
    rfl

/-- What moving threads leaves of a warp: all but threads, entries and the yield. -/
theorem Warp.moveOnly_rest (w : Warp) (c : Word) (lanes taken : List Nat) (tgt : Nat → Word) :
    w.moveOnly c lanes taken tgt =
      { w with threads := (w.moveOnly c lanes taken tgt).threads, entries := (w.moveOnly c lanes taken tgt).entries
               yielding := (w.moveOnly c lanes taken tgt).yielding } := by
  unfold Warp.moveOnly
  simp only
  rw [Warp.modThs_rest]
  rfl

/-- Where moving threads puts them (R26). -/
theorem Warp.moveOnly_th (w : Warp) (c : Word) (lanes taken : List Nat) (tgt : Nat → Word) (h : lanes.Nodup) (l : Nat) :
    (w.moveOnly c lanes taken tgt).th l =
      if l ∈ lanes then { w.th l with cp := if taken.contains l then tgt l else nextCp c } else w.th l := by
  have e : (w.moveOnly c lanes taken tgt).th l =
      ((w.aging c).modThs lanes fun l t => { t with cp := if taken.contains l then tgt l else nextCp c }).th l := rfl
  rw [e, Warp.modThs_th _ _ _ _ h]
  rfl

/-! ### Register operands -/

@[simp] theorem Warp.wword_threads (w : Warp) (d : Opd) (i l : Nat) (x : Word) : (w.wword d i l x).threads = w.threads := by
  cases d <;> rfl

/-- Writing a word of a destination touches the general registers and their poison marks only. -/
theorem Warp.wword_rest (w : Warp) (d : Opd) (i l : Nat) (x : Word) :
    w.wword d i l x =
      { w with v := (w.wword d i l x).v, s := (w.wword d i l x).s, poison := (w.wword d i l x).poison } := by
  cases d <;> rfl

theorem Warp.wopd_rest (n : Nat) (w : Warp) (d : Opd) (l x : Nat) :
    w.wopd d n l x = { w with v := (w.wopd d n l x).v, s := (w.wopd d n l x).s, poison := (w.wopd d n l x).poison } := by
  induction n with
  | zero => rfl
  | succ n ih =>
    rw [Warp.wopd, Warp.wword_rest, ih]

theorem Warp.wlanes_rest (ls : List Nat) : ∀ (w : Warp) (d : Opd) (n : Nat) (val : Nat → Nat),
    w.wlanes d n val ls =
      { w with v := (w.wlanes d n val ls).v, s := (w.wlanes d n val ls).s, poison := (w.wlanes d n val ls).poison } := by
  induction ls with
  | nil => intro w d n val; rfl
  | cons a r ih =>
    intro w d n val
    rw [Warp.wlanes, ih, Warp.wopd_rest]

/-- A destination that holds nothing: `ZERO` and the reserved codes. -/
theorem Warp.wopd_none (n : Nat) (w : Warp) (d : Opd) (l x : Nat) (h : d = .zero ∨ d = .bad) : w.wopd d n l x = w := by
  induction n with
  | zero => rfl
  | succ n ih => rw [Warp.wopd, ih]; rcases h with rfl | rfl <;> rfl

theorem mem_unpoison (p : List (Nat × Nat)) (c k : Nat) (q : Nat × Nat) : q ∈ unpoison p c k ↔ q ∈ p ∧ q ≠ (c, k) := by
  simp [unpoison]

/-- Writing n registers of one lane. -/
theorem Warp.wopd_v (n : Nat) (w : Warp) (k : BitVec 8) (l x : Nat) (hl : l < 32) (r l' : Nat) (hl' : l' < 32) :
    (w.wopd (.v k) n l x).rv r l' =
      if k.toNat ≤ r ∧ r < k.toNat + n ∧ l' = l then .ofNat 32 (x / 2 ^ (32 * (r - k.toNat))) else w.rv r l' := by
  induction n with
  | zero =>
    have : ¬ (k.toNat ≤ r ∧ r < k.toNat + 0 ∧ l' = l) := by omega
    simp only [this, if_false]
    rfl
  | succ n ih =>
    rw [Warp.wopd, Warp.wword, Warp.rv_wv _ _ _ _ _ _ hl hl', ih]
    by_cases e : r = k.toNat + n ∧ l' = l
    · obtain ⟨rfl, rfl⟩ := e
      simp
    · by_cases e2 : k.toNat ≤ r ∧ r < k.toNat + n ∧ l' = l
      · have : k.toNat ≤ r ∧ r < k.toNat + (n + 1) ∧ l' = l := by omega
        rw [if_neg e, if_pos e2, if_pos this]
      · have : ¬ (k.toNat ≤ r ∧ r < k.toNat + (n + 1) ∧ l' = l) := by omega
        rw [if_neg e, if_neg e2, if_neg this]

theorem Warp.wopd_v_s (n : Nat) (w : Warp) (k : BitVec 8) (l x r : Nat) : (w.wopd (.v k) n l x).rs r = w.rs r := by
  induction n with
  | zero => rfl
  | succ n ih =>
    rw [Warp.wopd]
    exact ih

theorem Warp.wopd_s_v (n : Nat) (w : Warp) (k : BitVec 6) (l x r l' : Nat) : (w.wopd (.s k) n l x).rv r l' = w.rv r l' := by
  induction n with
  | zero => rfl
  | succ n ih =>
    rw [Warp.wopd]
    exact ih

theorem Warp.wopd_s (n : Nat) (w : Warp) (k : BitVec 6) (l x r : Nat) :
    (w.wopd (.s k) n l x).rs r =
      if k.toNat ≤ r ∧ r < k.toNat + n then .ofNat 32 (x / 2 ^ (32 * (r - k.toNat))) else w.rs r := by
  induction n with
  | zero =>
    have : ¬ (k.toNat ≤ r ∧ r < k.toNat + 0) := by omega
    simp only [this, if_false]
    rfl
  | succ n ih =>
    rw [Warp.wopd, Warp.wword, Warp.rs_ws, ih]
    by_cases e : r = k.toNat + n
    · subst e
      simp
    · by_cases e2 : k.toNat ≤ r ∧ r < k.toNat + n
      · have : k.toNat ≤ r ∧ r < k.toNat + (n + 1) := by omega
        simp only [e, e2, this, if_false, if_true, and_self]
      · have : ¬ (k.toNat ≤ r ∧ r < k.toNat + (n + 1)) := by omega
        simp only [e, e2, this, if_false]

theorem Warp.wopd_poison (n : Nat) (w : Warp) (d : Opd) (l x : Nat) (q : Nat × Nat) :
    q ∈ (w.wopd d n l x).poison ↔ q ∈ w.poison ∧ ¬ ∃ r, q = (0, 32 * r + l) ∧ d.coversV n [l] r l := by
  induction n with
  | zero =>
    cases d <;> simp [Warp.wopd, Opd.coversV]
    try omega
  | succ n ih =>
    rw [Warp.wopd]
    cases d with
    | v k =>
      have e : q ∈ ((w.wopd (.v k) n l x).wword (.v k) n l (.ofNat 32 (x / 2 ^ (32 * n)))).poison ↔
          q ∈ (w.wopd (.v k) n l x).poison ∧ q ≠ (0, 32 * (k.toNat + n) + l) := mem_unpoison _ _ _ _
      rw [e, ih]
      simp only [Opd.coversV, List.mem_singleton, and_true]
      constructor
      · rintro ⟨⟨h1, h2⟩, h3⟩
        refine ⟨h1, ?_⟩
        rintro ⟨r, hq, ha, hb⟩
        by_cases hr : r = k.toNat + n
        · exact h3 (hr ▸ hq)
        · exact h2 ⟨r, hq, ha, by omega⟩
      · rintro ⟨h1, h2⟩
        refine ⟨⟨h1, ?_⟩, ?_⟩
        · rintro ⟨r, hq, ha, hb⟩
          exact h2 ⟨r, hq, ha, by omega⟩
        · intro hq
          exact h2 ⟨_, hq, by omega, by omega⟩
    | s k => simpa [Opd.coversV, Warp.wword] using ih
    | zero => simpa [Opd.coversV, Warp.wword] using ih
    | bad => simpa [Opd.coversV, Warp.wword] using ih

/-- Writing a destination in each of a list of lanes, said once. -/
theorem Warp.wlanes_writes (d : Opd) (n : Nat) (val : Nat → Nat) (ls : List Nat) : ∀ (w : Warp), (∀ l ∈ ls, l < 32) →
    ls.Nodup → Writes w (w.wlanes d n val ls) ls d n val := by
  induction ls with
  | nil =>
    intro w _ _
    refine ⟨?_, fun _ _ _ _ => rfl, fun _ _ => rfl, ?_⟩
    · intro l h
      cases d <;> simp [Opd.holdsOf] at h
    · intro q
      cases d <;> simp [Warp.wlanes, Opd.coversV]
  | cons a r ih =>
    intro w hlt hnd
    have ha : a < 32 := hlt a (by simp)
    have hr : ∀ l ∈ r, l < 32 := fun l hl => hlt l (by simp [hl])
    rw [List.nodup_cons] at hnd
    have I := ih (w.wopd d n a (val a)) hr hnd.2
    rw [Warp.wlanes]
    refine ⟨?_, ?_, ?_, ?_⟩
    · intro l hl k hk
      cases d with
      | v k' =>
        simp only [Opd.holdsOf, List.mem_cons] at hl
        by_cases hlr : l ∈ r
        · exact I.value l hlr k hk
        · have hla : l = a := by tauto
          subst hla
          have h1 := I.keepV (k'.toNat + k) l ha (by simp [Opd.coversV, hlr])
          show (Warp.wlanes _ _ _ _ r).rv (k'.toNat + k) l = _
          rw [h1, Warp.wopd_v _ _ _ _ _ ha _ _ ha]
          simp [hk]
      | s k' =>
        cases r with
        | nil =>
          simp only [Opd.holdsOf, List.getLast?_singleton, Option.some.injEq] at hl
          subst hl
          show (Warp.wopd _ _ _ _ _).rs (k'.toNat + k) = _
          rw [Warp.wopd_s]
          simp [hk]
        | cons b r' =>
          refine I.value l ?_ k hk
          simpa [Opd.holdsOf, List.getLast?_cons_cons] using hl
      | zero => simp [Opd.holdsOf] at hl
      | bad => simp [Opd.holdsOf] at hl
    · intro q l hl hc
      rw [I.keepV q l hl (by
        cases d <;> simp [Opd.coversV] at hc ⊢
        intro h1 h2
        exact (hc h1 h2).2)]
      cases d with
      | v k' =>
        rw [Warp.wopd_v _ _ _ _ _ ha _ _ hl]
        simp only [Opd.coversV, List.mem_cons] at hc
        have : ¬ (k'.toNat ≤ q ∧ q < k'.toNat + n ∧ l = a) := by tauto
        simp [this]
      | s k' => exact Warp.wopd_s_v ..
      | zero => rw [Warp.wopd_none _ _ _ _ _ (Or.inl rfl)]
      | bad => rw [Warp.wopd_none _ _ _ _ _ (Or.inr rfl)]
    · intro q hc
      rw [I.keepS q (by
        cases d <;> simp [Opd.coversS] at hc ⊢
        intro h1 h2
        omega)]
      cases d with
      | v k' => exact Warp.wopd_v_s ..
      | s k' =>
        rw [Warp.wopd_s]
        simp [Opd.coversS] at hc
        have : ¬ (k'.toNat ≤ q ∧ q < k'.toNat + n) := by omega
        simp [this]
      | zero => rw [Warp.wopd_none _ _ _ _ _ (Or.inl rfl)]
      | bad => rw [Warp.wopd_none _ _ _ _ _ (Or.inr rfl)]
    · intro q
      rw [I.marks, Warp.wopd_poison]
      cases d with
      | v k' =>
        simp only [Opd.coversV, List.mem_cons, List.not_mem_nil, or_false, and_true]
        constructor
        · rintro ⟨⟨h1, h2⟩, h3⟩
          refine ⟨h1, ?_⟩
          rintro ⟨p, l, hq, ha', hb, hl⟩
          rcases hl with rfl | hl
          · exact h2 ⟨p, hq, ha', hb⟩
          · exact h3 ⟨p, l, hq, ha', hb, hl⟩
        · rintro ⟨h1, h2⟩
          refine ⟨⟨h1, ?_⟩, ?_⟩
          · rintro ⟨p, hq, ha', hb⟩
            exact h2 ⟨p, a, hq, ha', hb, Or.inl rfl⟩
          · rintro ⟨p, l, hq, ha', hb, hl⟩
            exact h2 ⟨p, l, hq, ha', hb, Or.inr hl⟩
      | s k' => simp [Opd.coversV]
      | zero => simp [Opd.coversV]
      | bad => simp [Opd.coversV]

end Sys2Proof.Machine
end

