-- ==== Sys2Proof/Laws/Issue.lean ====
section
/-! SUPPORT. The issue of an instruction, said once: what an entry is, what `issue` answers when nothing stands in the way,
and what an instruction that only computes leaves. -/

namespace Sys2Proof.Machine

/-! ### The entry -/

/-- What R25's choice fixes of an entry. -/
structure IxOf (s : State) (g : Guard) (x : Ix) : Prop where
  w : x.w = s.cur
  ent : x.ent = (s.warp x.w).entLanes x.cp
  lanes : x.lanes = x.ent.filter fun l => (s.warp x.w).guard g l

theorem ixOf_of_pick {s : State} {g : Guard} {x : Ix} (h : s.pick s.cur g = some x) : IxOf s g x := by
  unfold State.pick at h
  simp only [Option.map_eq_some_iff] at h
  obtain ⟨c, _, rfl⟩ := h
  exact ⟨rfl, rfl, rfl⟩

theorem Ready.ix {s : State} {i : Instr} {x : Ix} (h : Ready s i x) : IxOf s i.common.grd x := ixOf_of_pick h.pick

theorem IxOf.ent_nodup {s : State} {g : Guard} {x : Ix} (h : IxOf s g x) : x.ent.Nodup := by
  rw [h.ent]
  exact Warp.entLanes_nodup _ _

theorem IxOf.lanes_nodup {s : State} {g : Guard} {x : Ix} (h : IxOf s g x) : x.lanes.Nodup := by
  rw [h.lanes]
  exact h.ent_nodup.filter _

theorem IxOf.lanes_ent {s : State} {g : Guard} {x : Ix} (h : IxOf s g x) {l : Nat} (hl : l ∈ x.lanes) : l ∈ x.ent := by
  rw [h.lanes] at hl
  exact (List.mem_filter.mp hl).1

theorem IxOf.ent_lt {s : State} {g : Guard} {x : Ix} (h : IxOf s g x) {l : Nat} (hl : l ∈ x.ent) : l < 32 := by
  rw [h.ent] at hl
  exact Warp.entLanes_lt _ _ _ hl

theorem IxOf.lanes_lt {s : State} {g : Guard} {x : Ix} (h : IxOf s g x) {l : Nat} (hl : l ∈ x.lanes) : l < 32 :=
  h.ent_lt (h.lanes_ent hl)

theorem Ix.targets_sub (x : Ix) (u : Bool) {l : Nat} (h : l ∈ x.targets u) : l ∈ x.lanes := by
  cases u
  · exact h
  · exact List.mem_of_mem_take h

theorem IxOf.targets_nodup {s : State} {g : Guard} {x : Ix} (h : IxOf s g x) (u : Bool) : (x.targets u).Nodup := by
  cases u
  · exact h.lanes_nodup
  · exact h.lanes_nodup.sublist (List.take_sublist _ _)

/-! ### Issue -/

theorem State.waitCheck_done {s : State} {x : Ix}
    (h : ((s.warp x.w).entry x.cp).waited = true ∨ lwWait (lineWord ((s.warp x.w).entry x.cp).line) = 0) :
    s.waitCheck x = none ∧ s.waitDone x = s := by
  unfold State.waitCheck State.waitDone
  rcases h with h | h <;> simp [h]

/-- What an issue at an entry comes to once its `WAIT` check is done and no atomic holds a register it names. -/
theorem State.issueAt_waited {s : State} {i : Instr} {x : Ix}
    (hw : ((s.warp x.w).entry x.cp).waited = true ∨ lwWait (lineWord ((s.warp x.w).entry x.cp).line) = 0)
    (ha : s.awaits x i = false) (act : Ix → State → Res) :
    s.issueAt false x i act = match s.genericFault false x i with
      | some r => .raise s r
      | none => act x s := by
  obtain ⟨hc, hd⟩ := State.waitCheck_done hw
  cases h : s.genericFault false x i <;> simp [State.issueAt, hc, hd, ha, h]

/-- What `issue` answers when nothing stands in the way. -/
theorem State.issue_ready {s : State} {i : Instr} {x : Ix} (h : Ready s i x) (act : Ix → State → Res) :
    s.issue false i act = .next (State.settle x (act x s)) := by
  unfold State.issue
  rw [h.pick]
  simp only [h.may, Bool.not_true, Bool.false_eq_true, if_false, State.issueAt_waited h.waited h.free, h.clean]

/-- What `issue` answers when a check of R179 fails. -/
theorem State.issue_faulty {s : State} {i : Instr} {x : Ix} {r : FaultRec} (hp : s.pick s.cur i.common.grd = some x)
    (hm : s.mayIssue s.cur = true)
    (hw : ((s.warp x.w).entry x.cp).waited = true ∨ lwWait (lineWord ((s.warp x.w).entry x.cp).line) = 0)
    (ha : s.awaits x i = false) (hf : s.genericFault false x i = some r) (act : Ix → State → Res) :
    s.issue false i act = .next (s.raise x.w x.ent r) := by
  unfold State.issue
  rw [hp]
  simp only [hm, Bool.not_true, Bool.false_eq_true, if_false, State.issueAt_waited hw ha, hf, State.settle]

/-! ### Completion -/

/-- A completed instruction: what its own state holds, with its entry moved on. -/
theorem State.settle_adv_warp (x : Ix) (t : State) :
    (State.settle x (.adv t)).warp x.w = { (t.warp x.w).move x.cp [] (fun _ => 0) with hold := none } := by
  simp [State.settle]

/-- The completion of an instruction whose own effect touched only its warp touches only its warp. -/
theorem onlyWarp_settle {s t : State} {x : Ix} (h : OnlyWarp s t x.w) : OnlyWarp s (State.settle x (.adv t)) x.w := by
  constructor
  · conv_lhs => rw [State.settle, State.setWarp]
    rw [h.rest]
    rfl
  · intro k hk
    show (t.setWarp x.w _).warp k = _
    rw [State.setWarp_warp, if_neg hk, h.others k hk]

theorem onlyWarp_setWarp (s : State) (w : Nat) (y : Warp) : OnlyWarp s (s.setWarp w y) w :=
  ⟨rfl, fun k hk => by rw [State.setWarp_warp, if_neg hk]⟩

theorem onlyWarp_refl (s : State) (w : Nat) : OnlyWarp s s w := ⟨rfl, fun _ _ => rfl⟩

theorem OnlyWarp.trans {s t u : State} {w : Nat} (a : OnlyWarp s t w) (b : OnlyWarp t u w) : OnlyWarp s u w := by
  constructor
  · rw [b.rest, a.rest]
  · intro k hk
    rw [b.others k hk, a.others k hk]

/-- The entry falls through when the instruction has left the threads alone. -/
theorem falls_settle {s t : State} {x : Ix} {g : Guard} (hx : IxOf s g x)
    (ht : (t.warp x.w).threads = (s.warp x.w).threads) : FallsThrough s (State.settle x (.adv t)) x := by
  intro l
  have hth : ∀ k, (t.warp x.w).th k = (s.warp x.w).th k := fun k => by simp [Warp.th, ht]
  have hent : (t.warp x.w).entLanes x.cp = x.ent := by rw [hx.ent]; simp [Warp.entLanes, hth]
  rw [State.settle_adv_warp]
  show ((t.warp x.w).moveOnly x.cp ((t.warp x.w).entLanes x.cp) [] fun _ => 0).th l = _
  rw [hent, Warp.moveOnly_th _ _ _ _ _ hx.ent_nodup, hth]
  simp

theorem Warp.wp_rest (w : Warp) (r : Nat) (m x : Word) : w.wp r m x = { w with p := (w.wp r m x).p } := by
  unfold Warp.wp
  split <;> rfl

/-- Writing a destination and then a predicate, said of the warp. -/
theorem State.writeDP_warp (s : State) (x : Ix) (u : Bool) (d : Opd) (n : Nat) (val : Nat → Nat) (pd : BitVec 3)
    (pval : Nat → Bool) :
    ((s.writeD x u d n val).writeP x u pd pval) = s.setWarp x.w
      (((s.warp x.w).wlanes d n val (x.targets u)).wp pd.toNat (maskOf x.lanes) (x.predMask u pval)) := by
  unfold State.writeP State.writeD
  rw [State.setWarp_warp_self]
  unfold State.setWarp
  rw [tset_tset]

/-- A meaning that only writes a destination and a predicate only computes. -/
theorem computes_settle {s : State} {x : Ix} {g : Guard} (hx : IxOf s g x) (u : Bool) (d : Opd) (n : Nat) (val : Nat → Nat)
    (pd : BitVec 3) (pval : Nat → Bool) :
    Computes s (State.settle x (.adv ((s.writeD x u d n val).writeP x u pd pval))) x u d n val pd pval := by
  have ht : ∀ l ∈ x.targets u, l < 32 := fun l hl => hx.lanes_lt (Ix.targets_sub x u hl)
  have W := Warp.wlanes_writes d n val (x.targets u) (s.warp x.w) ht (hx.targets_nodup u)
  have R := Warp.wlanes_rest (x.targets u) (s.warp x.w) d n val
  rw [State.writeDP_warp]
  generalize (s.warp x.w).wlanes d n val (x.targets u) = a at W R
  have P := Warp.wp_rest a pd.toNat (maskOf x.lanes) (x.predMask u pval)
  have Pr := Warp.rp_wp a pd.toNat (maskOf x.lanes) (x.predMask u pval)
  generalize a.wp pd.toNat (maskOf x.lanes) (x.predMask u pval) = b at P Pr
  have M := Warp.moveOnly_rest b x.cp (b.entLanes x.cp) [] (fun _ => 0)
  have hb : (State.settle x (.adv (s.setWarp x.w b))).warp x.w =
      { b.move x.cp [] (fun _ => 0) with hold := none } := by
    rw [State.settle_adv_warp, State.setWarp_warp_self]
  have E : (State.settle x (.adv (s.setWarp x.w b))).warp x.w =
      { b with threads := (b.move x.cp [] fun _ => 0).threads, entries := (b.move x.cp [] fun _ => 0).entries
               yielding := (b.move x.cp [] fun _ => 0).yielding, hold := none } := by
    rw [hb]
    conv_lhs => rw [Warp.move, M]
    rfl
  refine ⟨onlyWarp_settle (onlyWarp_setWarp s x.w b), ?_, falls_settle hx ?_, ?_, ?_⟩
  · rw [E, KeptButRegs]
    rw [P, R]
  · rw [State.setWarp_warp_self, P, R]
  · rw [E]
    refine ⟨fun l hl k hk => ?_, fun r l hl hc => ?_, fun r hc => ?_, fun q => ?_⟩
    · rw [← W.value l hl k hk]
      conv_lhs => rw [P]
      cases d <;> rfl
    · rw [← W.keepV r l hl hc, P]
      rfl
    · rw [← W.keepS r hc, P]
      rfl
    · rw [← W.marks q, P]
  · intro k l hl
    rw [E]
    show b.rp k l = _
    rw [Pr k l hl, maskOf_getLsbD _ _ hl]
    have ha : a.rp k l = (s.warp x.w).rp k l := by rw [R]; rfl
    have h7 : (pd.toNat ≠ 7) ↔ pd ≠ 7 := by
      rw [ne_eq, ne_eq, ← BitVec.toNat_inj]
      rfl
    rw [ha]
    by_cases hk : k = pd.toNat ∧ pd ≠ 7 ∧ l ∈ x.lanes
    · have : k = pd.toNat ∧ pd.toNat ≠ 7 ∧ decide (l ∈ x.lanes) = true := ⟨hk.1, h7.mpr hk.2.1, by simp [hk.2.2]⟩
      rw [if_pos hk, if_pos this, Ix.predMask]
      cases u
      · simp only [Bool.false_eq_true, if_false]
        rw [maskOf_getLsbD _ _ hl]
        simp [hk.2.2]
      · simp only [if_true]
        cases pval x.first
        · simp
        · simp only [if_true]
          rw [maskOf_getLsbD _ _ hl]
          simp [hk.2.2]
    · have : ¬ (k = pd.toNat ∧ pd.toNat ≠ 7 ∧ decide (l ∈ x.lanes) = true) := by
        rw [h7]
        simpa using hk
      rw [if_neg hk, if_neg this]

theorem Warp.wp_seven (w : Warp) (m x : Word) : w.wp 7 m x = w := rfl

/-- A write of a destination alone. -/
theorem State.writeD_eq (s : State) (x : Ix) (u : Bool) (d : Opd) (n : Nat) (val : Nat → Nat) :
    s.writeD x u d n val = (s.writeD x u d n val).writeP x u 7 fun _ => false := by
  rw [State.writeDP_warp, show (7 : BitVec 3).toNat = 7 from rfl, Warp.wp_seven]
  rfl

/-- A write of a predicate alone. -/
theorem State.writeP_eq (s : State) (x : Ix) (u : Bool) (pd : BitVec 3) (pval : Nat → Bool) :
    s.writeP x u pd pval = (s.writeD x u .zero 0 fun _ => 0).writeP x u pd pval := by
  rw [State.writeDP_warp]
  have : (s.warp x.w).wlanes .zero 0 (fun _ => 0) (x.targets u) = s.warp x.w := by
    generalize x.targets u = ls
    induction ls with
    | nil => rfl
    | cons a r ih => rw [Warp.wlanes]; exact ih
  rw [this]
  rfl

theorem computes_writeD {s : State} {x : Ix} {g : Guard} (hx : IxOf s g x) (u : Bool) (d : Opd) (n : Nat)
    (val : Nat → Nat) : Computes s (State.settle x (.adv (s.writeD x u d n val))) x u d n val 7 fun _ => false := by
  rw [State.writeD_eq]
  exact computes_settle hx u d n val 7 _

theorem computes_writeP {s : State} {x : Ix} {g : Guard} (hx : IxOf s g x) (u : Bool) (pd : BitVec 3)
    (pval : Nat → Bool) : Computes s (State.settle x (.adv (s.writeP x u pd pval))) x u .zero 0 (fun _ => 0) pd pval := by
  rw [State.writeP_eq]
  exact computes_settle hx u .zero 0 _ pd pval

/-- A meaning that only computes answers so. -/
theorem answers_of {i : Instr} {s : State} {x : Ix} {u : Bool} {d : Opd} {n : Nat} {val : Nat → Nat} {pd : BitVec 3}
    {pval : Nat → Bool} {act : Ix → State → Res} (h : Ready s i x) (e : exec i s = s.issue false i act)
    (hc : Computes s (State.settle x (act x s)) x u d n val pd pval) : Answers i s x u d n val pd pval :=
  ⟨_, e.trans (State.issue_ready h act), hc⟩

end Sys2Proof.Machine
end

