-- ==== Sys2Proof/Laws/Xlate.lean ====
section
/-! SUPPORT. Translating and reading virtual memory changes nothing but the cached translations; what writes and side logs
may change. -/

namespace Sys2Proof.Machine

/-- The two states differ in their cached translations at most. -/
def SameButTlb (s t : State) : Prop := t = { s with tlb := t.tlb }

theorem SameButTlb.refl (s : State) : SameButTlb s s := rfl

theorem SameButTlb.trans {s t u : State} (a : SameButTlb s t) (b : SameButTlb t u) : SameButTlb s u := by
  unfold SameButTlb at *
  rw [b, a]

theorem SameButTlb.warp {s t : State} (h : SameButTlb s t) (w : Nat) : t.warp w = s.warp w := by rw [h]; rfl

theorem State.xlate_same (s : State) (u : XUnit) (c va : Nat) (write peer : Bool) :
    SameButTlb s (s.xlate u c va write peer).2 := by
  unfold State.xlate
  simp only
  split
  · exact .refl s
  · split
    · rfl
    · split
      · exact .refl s
      · rfl

theorem State.xlPages_same (u : XUnit) (c : Nat) (write peer : Bool) (l : List Nat) : ∀ s : State,
    SameButTlb s (s.xlPages u c write peer l).2 := by
  induction l with
  | nil => intro s; exact .refl s
  | cons p r ih =>
    intro s
    have h := s.xlate_same u c p write peer
    unfold State.xlPages
    cases hx : s.xlate u c p write peer with
    | mk o s1 =>
      rw [hx] at h
      cases o with
      | none => exact h
      | some pa =>
        have h2 := ih s1
        simp only
        cases hy : s1.xlPages u c write peer r with
        | mk o2 s2 =>
          rw [hy] at h2
          cases o2 <;> exact h.trans h2

theorem State.xlRange_same (s : State) (u : XUnit) (c va n : Nat) (write peer : Bool) :
    SameButTlb s (s.xlRange u c va n write peer).2 := by
  have h := State.xlPages_same u c write peer (pagesOf va n) s
  unfold State.xlRange
  cases hx : s.xlPages u c write peer (pagesOf va n) with
  | mk o s1 =>
    rw [hx] at h
    cases o <;> exact h

/-- A virtual read changes nothing but cached translations. -/
theorem State.vread_same (s : State) (u : XUnit) (c va n : Nat) : SameButTlb s (s.vread u c va n).2 := by
  have h := s.xlRange_same u c va n false false
  unfold State.vread
  cases hx : s.xlRange u c va n false with
  | mk o s1 =>
    rw [hx] at h
    cases o <;> exact h

theorem State.vreadNat_same (s : State) (u : XUnit) (c va n : Nat) : SameButTlb s (s.vreadNat u c va n).2 := by
  have h := s.vread_same u c va n
  unfold State.vreadNat
  cases hx : s.vread u c va n with
  | mk o s1 =>
    rw [hx] at h
    cases o <;> exact h

/-- A transfer's check changes nothing but cached translations. -/
theorem State.checkTarget_same (s : State) (w : Nat) (line : Int) (slot : Nat) :
    SameButTlb s (s.checkTarget w line slot).2 := by
  unfold State.checkTarget
  split
  · exact .refl s
  · have h := s.vreadNat_same (.mapUnit (s.wcluster w)) (s.wctx w) (s.lineVa w line.toNat) 4
    simp only
    cases hx : s.vreadNat (.mapUnit (s.wcluster w)) (s.wctx w) (s.lineVa w line.toNat) 4 with
    | mk o s1 =>
      rw [hx] at h
      cases o <;> exact h

theorem State.checkTargets_same (w : Nat) (tgt : Nat → Int × Nat) (ls : List Nat) : ∀ s : State,
    SameButTlb s (s.checkTargets w tgt ls).2 := by
  induction ls with
  | nil => intro s; exact .refl s
  | cons l r ih =>
    intro s
    have h := s.checkTarget_same w (tgt l).1 (tgt l).2
    unfold State.checkTargets
    cases hx : s.checkTarget w (tgt l).1 (tgt l).2 with
    | mk v s1 =>
      rw [hx] at h
      have h2 := ih s1
      simp only
      cases hy : s1.checkTargets w tgt r with
      | mk vs s2 =>
        rw [hy] at h2
        exact h.trans h2

end Sys2Proof.Machine
end

