-- ==== Sys2Proof/Laws/Control.lean ====
section
/-! SUPPORT. A checked transfer and what its completion leaves, said once. -/

namespace Sys2Proof.Machine

/-- A transfer whose targets all pass: the effect and the move, in a state with other cached translations at most. -/
theorem State.transfer_good {s : State} {x : Ix} {tgt : Nat → Int × Nat} (h : TargetsGood s x tgt) (cp : Nat → Word)
    (eff : State → State) :
    s.transfer x tgt cp eff = .go (eff (s.checkTargets x.w tgt x.lanes).2) cp := by
  unfold TargetsGood at h
  unfold State.transfer
  cases hc : s.checkTargets x.w tgt x.lanes with
  | mk vs s1 =>
    rw [hc] at h
    dsimp only
    split
    · rename_i va hva
      obtain ⟨p, hp, e⟩ := List.exists_of_findSome?_eq_some hva
      rw [h p hp] at e
      cases e
    · have h2 : (vs.find? fun (p : Nat × Target) => p.2 == .bad) = none := by
        rw [List.find?_eq_none]
        intro p hp
        rw [h p hp]
        decide
      rw [h2]

/-- A transfer with a refused target and no missing page raises CONTROL-FLOW for the first failing lane (R192). -/
theorem State.transfer_bad {s : State} {x : Ix} {tgt : Nat → Int × Nat} {l : Nat}
    (ha : ∀ p ∈ (s.checkTargets x.w tgt x.lanes).1, ∀ va, p.2 ≠ .absent va)
    (hb : ((s.checkTargets x.w tgt x.lanes).1.find? fun p => p.2 == .bad) = some (l, .bad)) (cp : Nat → Word)
    (eff : State → State) :
    s.transfer x tgt cp eff = .raise (s.checkTargets x.w tgt x.lanes).2 (precise cControl x.cp l) := by
  unfold State.transfer
  cases hc : s.checkTargets x.w tgt x.lanes with
  | mk vs s1 =>
    rw [hc] at ha hb
    dsimp only at ha hb ⊢
    split
    · rename_i va hva
      obtain ⟨p, hp, e⟩ := List.exists_of_findSome?_eq_some hva
      have := ha p hp
      cases hp2 : p.2 with
      | absent va => exact absurd hp2 (this va)
      | good => rw [hp2] at e; cases e
      | bad => rw [hp2] at e; cases e
    · rw [hb]

theorem State.settle_go_warp (x : Ix) (t : State) (tgt : Nat → Word) :
    (State.settle x (.go t tgt)).warp x.w = { (t.warp x.w).move x.cp x.lanes tgt with hold := none } := by
  simp [State.settle]

/-- Where a taken transfer leaves the threads, when the instruction's own effect has left them alone. -/
theorem transfers_settle {s t : State} {x : Ix} {g : Guard} (hx : IxOf s g x)
    (ht : (t.warp x.w).threads = (s.warp x.w).threads) (tgt : Nat → Word) :
    Transfers s (State.settle x (.go t tgt)) x tgt := by
  intro l
  have hth : ∀ k, (t.warp x.w).th k = (s.warp x.w).th k := fun k => by simp [Warp.th, ht]
  have hent : (t.warp x.w).entLanes x.cp = x.ent := by rw [hx.ent]; simp [Warp.entLanes, hth]
  rw [State.settle_go_warp]
  show ((t.warp x.w).moveOnly x.cp ((t.warp x.w).entLanes x.cp) x.lanes tgt).th l = _
  rw [hent, Warp.moveOnly_th _ _ _ _ _ hx.ent_nodup, hth]
  by_cases hl : l ∈ x.lanes
  · simp [hl, hx.lanes_ent hl]
  · by_cases he : l ∈ x.ent <;> simp [hl, he]

/-- What a settled instruction leaves of its warp: all but threads, entries, the yield and the held entry. -/
theorem settle_adv_rest (x : Ix) (t : State) :
    (State.settle x (.adv t)).warp x.w =
      { t.warp x.w with threads := ((State.settle x (.adv t)).warp x.w).threads
                        entries := ((State.settle x (.adv t)).warp x.w).entries
                        yielding := ((State.settle x (.adv t)).warp x.w).yielding, hold := none } := by
  rw [State.settle_adv_warp]
  conv_lhs => rw [Warp.move, Warp.moveOnly_rest]
  rfl

theorem settle_go_rest (x : Ix) (t : State) (tgt : Nat → Word) :
    (State.settle x (.go t tgt)).warp x.w =
      { t.warp x.w with threads := ((State.settle x (.go t tgt)).warp x.w).threads
                        entries := ((State.settle x (.go t tgt)).warp x.w).entries
                        yielding := ((State.settle x (.go t tgt)).warp x.w).yielding, hold := none } := by
  rw [State.settle_go_warp]
  conv_lhs => rw [Warp.move, Warp.moveOnly_rest]
  rfl

/-- A settled instruction leaves every other warp and every table but the warps as its own effect left them. -/
theorem settle_adv_frame (x : Ix) (t : State) :
    State.settle x (.adv t) = { t with warps := (State.settle x (.adv t)).warps } ∧
      ∀ k, k ≠ x.w → (State.settle x (.adv t)).warp k = t.warp k :=
  ⟨rfl, fun k hk => by show (t.setWarp x.w _).warp k = _; rw [State.setWarp_warp, if_neg hk]⟩

theorem settle_go_frame (x : Ix) (t : State) (tgt : Nat → Word) :
    State.settle x (.go t tgt) = { t with warps := (State.settle x (.go t tgt)).warps } ∧
      ∀ k, k ≠ x.w → (State.settle x (.go t tgt)).warp k = t.warp k :=
  ⟨rfl, fun k hk => by show (t.setWarp x.w _).warp k = _; rw [State.setWarp_warp, if_neg hk]⟩

/-- A completed instruction whose effect has left the places of the entry's threads moves its entry on. -/
theorem moved_settle {a : State} {x : Ix} (h : (a.warp x.w).entLanes x.cp = x.ent) (hn : x.ent.Nodup) :
    Moved a (State.settle x (.adv a)) x := by
  refine ⟨(settle_adv_frame x a).1, (settle_adv_frame x a).2, settle_adv_rest x a, ?_⟩
  intro l
  rw [State.settle_adv_warp]
  show ((a.warp x.w).moveOnly x.cp ((a.warp x.w).entLanes x.cp) [] fun _ => 0).th l = _
  rw [h, Warp.moveOnly_th _ _ _ _ _ hn]
  simp

/-- An instruction whose effect has left the threads alone performs it. -/
theorem performs_of {i : Instr} {s a : State} {x : Ix} {act : Ix → State → Res} (h : Ready s i x)
    (e : exec i s = s.issue false i act) (ha : act x s = .adv a) (ht : (a.warp x.w).threads = (s.warp x.w).threads) :
    Performs i s x a := by
  refine ⟨_, e.trans ((State.issue_ready h act).trans (by rw [ha])), moved_settle ?_ h.ix.ent_nodup⟩
  rw [h.ix.ent]
  simp [Warp.entLanes, Warp.th, ht]

end Sys2Proof.Machine
end

