-- ==== Sys2Proof/Laws/Exec.lean ====
section
/-! SUPPORT. `exec` at each constructor is its meaning. -/

namespace Sys2Proof.Machine

theorem exec_nop (c : Common) (f : BR) (s : State) : exec (.nop c f) s = execNop c f s := rfl
theorem exec_bra (c : Common) (f : BR) (s : State) : exec (.bra c f) s = execBra c f s := rfl
theorem exec_brx (c : Common) (f : BR) (s : State) : exec (.brx c f) s = execBrx c f s := rfl
theorem exec_call (c : Common) (f : BR) (s : State) : exec (.call c f) s = execCall c f s := rfl
theorem exec_ret (c : Common) (f : BR) (s : State) : exec (.ret c f) s = execRet c f s := rfl
theorem exec_exit (c : Common) (f : BR) (s : State) : exec (.exit c f) s = execExit c f s := rfl
theorem exec_yield (c : Common) (f : BR) (s : State) : exec (.yield c f) s = execYield c f s := rfl
theorem exec_wsync (c : Common) (f : BR) (s : State) : exec (.wsync c f) s = execWsync c f s := rfl
theorem exec_rgn (c : Common) (f : BR) (s : State) : exec (.rgn c f) s = execRgn c f s := rfl
theorem exec_vote (c : Common) (f : RRR) (s : State) : exec (.vote c f) s = execVote c f s := rfl
theorem exec_shfl (c : Common) (f : RRR) (s : State) : exec (.shfl c f) s = execShfl c f s := rfl
theorem exec_rdlane (c : Common) (f : RRR) (s : State) : exec (.rdlane c f) s = execRdlane c f s := rfl
theorem exec_brk (c : Common) (f : FS) (s : State) : exec (.brk c f) s = execBrk c f s := rfl
theorem exec_trap (c : Common) (f : FS) (s : State) : exec (.trap c f) s = execTrap c f s := rfl
theorem exec_iadd (c : Common) (f : Arith) (s : State) : exec (.iadd c f) s = execIadd c f s := rfl
theorem exec_isub (c : Common) (f : Arith) (s : State) : exec (.isub c f) s = execIsub c f s := rfl
theorem exec_imul (c : Common) (f : Arith) (s : State) : exec (.imul c f) s = execImul c f s := rfl
theorem exec_imulh (c : Common) (f : Arith) (s : State) : exec (.imulh c f) s = execImulh c f s := rfl
theorem exec_imad (c : Common) (f : RRR) (s : State) : exec (.imad c f) s = execImad c f s := rfl
theorem exec_imadw (c : Common) (f : RRR) (s : State) : exec (.imadw c f) s = execImadw c f s := rfl
theorem exec_idiv (c : Common) (f : Arith) (s : State) : exec (.idiv c f) s = execIdiv c f s := rfl
theorem exec_irem (c : Common) (f : Arith) (s : State) : exec (.irem c f) s = execIrem c f s := rfl
theorem exec_imin (c : Common) (f : Arith) (s : State) : exec (.imin c f) s = execImin c f s := rfl
theorem exec_imax (c : Common) (f : Arith) (s : State) : exec (.imax c f) s = execImax c f s := rfl
theorem exec_iabs (c : Common) (f : RRR) (s : State) : exec (.iabs c f) s = execIabs c f s := rfl
theorem exec_logt (c : Common) (f : RRR) (s : State) : exec (.logt c f) s = execLogt c f s := rfl
theorem exec_shl (c : Common) (f : Arith) (s : State) : exec (.shl c f) s = execShl c f s := rfl
theorem exec_shr (c : Common) (f : Arith) (s : State) : exec (.shr c f) s = execShr c f s := rfl
theorem exec_shp (c : Common) (f : RRR) (s : State) : exec (.shp c f) s = execShp c f s := rfl
theorem exec_popc (c : Common) (f : RRR) (s : State) : exec (.popc c f) s = execPopc c f s := rfl
theorem exec_clz (c : Common) (f : RRR) (s : State) : exec (.clz c f) s = execClz c f s := rfl
theorem exec_brev (c : Common) (f : RRR) (s : State) : exec (.brev c f) s = execBrev c f s := rfl
theorem exec_bfe (c : Common) (f : RRR) (s : State) : exec (.bfe c f) s = execBfe c f s := rfl
theorem exec_bfi (c : Common) (f : RRR) (s : State) : exec (.bfi c f) s = execBfi c f s := rfl
theorem exec_isetp (c : Common) (f : Arith) (s : State) : exec (.isetp c f) s = execIsetp c f s := rfl
theorem exec_sel (c : Common) (f : RRR) (s : State) : exec (.sel c f) s = execSel c f s := rfl
theorem exec_lea (c : Common) (f : RRR) (s : State) : exec (.lea c f) s = execLea c f s := rfl
theorem exec_plogt (c : Common) (f : RRR) (s : State) : exec (.plogt c f) s = execPlogt c f s := rfl
theorem exec_fadd (c : Common) (f : Arith) (s : State) : exec (.fadd c f) s = execFadd c f s := rfl
theorem exec_fmul (c : Common) (f : Arith) (s : State) : exec (.fmul c f) s = execFmul c f s := rfl
theorem exec_ffma (c : Common) (f : RRR) (s : State) : exec (.ffma c f) s = execFfma c f s := rfl
theorem exec_fmin (c : Common) (f : Arith) (s : State) : exec (.fmin c f) s = execFmin c f s := rfl
theorem exec_fmax (c : Common) (f : Arith) (s : State) : exec (.fmax c f) s = execFmax c f s := rfl
theorem exec_fsetp (c : Common) (f : Arith) (s : State) : exec (.fsetp c f) s = execFsetp c f s := rfl
theorem exec_fdiv (c : Common) (f : RRR) (s : State) : exec (.fdiv c f) s = execFdiv c f s := rfl
theorem exec_fsqrt (c : Common) (f : RRR) (s : State) : exec (.fsqrt c f) s = execFsqrt c f s := rfl
theorem exec_frcp (c : Common) (f : RRR) (s : State) : exec (.frcp c f) s = execFrcp c f s := rfl
theorem exec_frsq (c : Common) (f : RRR) (s : State) : exec (.frsq c f) s = execFrsq c f s := rfl
theorem exec_fex2 (c : Common) (f : RRR) (s : State) : exec (.fex2 c f) s = execFex2 c f s := rfl
theorem exec_flg2 (c : Common) (f : RRR) (s : State) : exec (.flg2 c f) s = execFlg2 c f s := rfl
theorem exec_fsin (c : Common) (f : RRR) (s : State) : exec (.fsin c f) s = execFsin c f s := rfl
theorem exec_fcos (c : Common) (f : RRR) (s : State) : exec (.fcos c f) s = execFcos c f s := rfl
theorem exec_ftanh (c : Common) (f : RRR) (s : State) : exec (.ftanh c f) s = execFtanh c f s := rfl
theorem exec_ferf (c : Common) (f : RRR) (s : State) : exec (.ferf c f) s = execFerf c f s := rfl
theorem exec_fclass (c : Common) (f : RRR) (s : State) : exec (.fclass c f) s = execFclass c f s := rfl
theorem exec_fscale (c : Common) (f : RRR) (s : State) : exec (.fscale c f) s = execFscale c f s := rfl
theorem exec_cvt (c : Common) (f : RRR) (s : State) : exec (.cvt c f) s = execCvt c f s := rfl
theorem exec_qnt (c : Common) (f : RRR) (s : State) : exec (.qnt c f) s = execQnt c f s := rfl
theorem exec_dqt (c : Common) (f : RRR) (s : State) : exec (.dqt c f) s = execDqt c f s := rfl
theorem exec_bsel (c : Common) (f : RRR) (s : State) : exec (.bsel c f) s = execBsel c f s := rfl
theorem exec_pack (c : Common) (f : RRR) (s : State) : exec (.pack c f) s = execPack c f s := rfl
theorem exec_fdp4 (c : Common) (f : RRR) (s : State) : exec (.fdp4 c f) s = execFdp4 c f s := rfl
theorem exec_fdp8 (c : Common) (f : RRR) (s : State) : exec (.fdp8 c f) s = execFdp8 c f s := rfl
theorem exec_idp4 (c : Common) (f : RRR) (s : State) : exec (.idp4 c f) s = execIdp4 c f s := rfl
theorem exec_idp8 (c : Common) (f : RRR) (s : State) : exec (.idp8 c f) s = execIdp8 c f s := rfl
theorem exec_mov (c : Common) (f : RRR) (s : State) : exec (.mov c f) s = execMov c f s := rfl
theorem exec_movi (c : Common) (f : RI) (s : State) : exec (.movi c f) s = execMovi c f s := rfl
theorem exec_rdsr (c : Common) (f : FS) (s : State) : exec (.rdsr c f) s = execRdsr c f s := rfl
theorem exec_wrsr (c : Common) (f : FS) (s : State) : exec (.wrsr c f) s = execWrsr c f s := rfl
theorem exec_ld (c : Common) (f : FM) (s : State) : exec (.ld c f) s = execLd c f s := rfl
theorem exec_st (c : Common) (f : FM) (s : State) : exec (.st c f) s = execSt c f s := rfl
theorem exec_atom (c : Common) (f : FM) (s : State) : exec (.atom c f) s = execAtom c f s := rfl
theorem exec_atomcas (c : Common) (f : FM) (s : State) : exec (.atomcas c f) s = execAtomcas c f s := rfl
theorem exec_red (c : Common) (f : FM) (s : State) : exec (.red c f) s = execRed c f s := rfl
theorem exec_ldk (c : Common) (f : FM) (s : State) : exec (.ldk c f) s = execLdk c f s := rfl
theorem exec_stk (c : Common) (f : FM) (s : State) : exec (.stk c f) s = execStk c f s := rfl
theorem exec_bnarrow (c : Common) (f : FM) (s : State) : exec (.bnarrow c f) s = execBnarrow c f s := rfl
theorem exec_badv (c : Common) (f : FM) (s : State) : exec (.badv c f) s = execBadv c f s := rfl
theorem exec_bget (c : Common) (f : FM) (s : State) : exec (.bget c f) s = execBget c f s := rfl
theorem exec_wmap (c : Common) (f : FM) (s : State) : exec (.wmap c f) s = execWmap c f s := rfl
theorem exec_wunmap (c : Common) (f : FM) (s : State) : exec (.wunmap c f) s = execWunmap c f s := rfl
theorem exec_wflush (c : Common) (f : FM) (s : State) : exec (.wflush c f) s = execWflush c f s := rfl
theorem exec_fence (c : Common) (f : FS) (s : State) : exec (.fence c f) s = execFence c f s := rfl
theorem exec_bar (c : Common) (f : FM) (s : State) : exec (.bar c f) s = execBar c f s := rfl
theorem exec_gbar (c : Common) (f : FM) (s : State) : exec (.gbar c f) s = execGbar c f s := rfl
theorem exec_cinit (c : Common) (f : FS) (s : State) : exec (.cinit c f) s = execCinit c f s := rfl
theorem exec_waitf (c : Common) (f : FS) (s : State) : exec (.waitf c f) s = execWaitf c f s := rfl
theorem exec_wprd (c : Common) (f : FM) (s : State) : exec (.wprd c f) s = execWprd c f s := rfl
theorem exec_wpwait (c : Common) (f : FM) (s : State) : exec (.wpwait c f) s = execWpwait c f s := rfl
theorem exec_drain (c : Common) (f : FS) (s : State) : exec (.drain c f) s = execDrain c f s := rfl
theorem exec_acq (c : Common) (f : FS) (s : State) : exec (.acq c f) s = execAcq c f s := rfl
theorem exec_acqTry (c : Common) (f : FS) (s : State) : exec (.acqTry c f) s = execAcqTry c f s := rfl
theorem exec_rel (c : Common) (f : FS) (s : State) : exec (.rel c f) s = execRel c f s := rfl
theorem exec_claimrd (c : Common) (f : FS) (s : State) : exec (.claimrd c f) s = execClaimrd c f s := rfl
theorem exec_push (c : Common) (f : FS) (s : State) : exec (.push c f) s = execPush c f s := rfl
theorem exec_cpst (c : Common) (f : FS) (s : State) : exec (.cpst c f) s = execCpst c f s := rfl
theorem exec_bndmin (c : Common) (f : FS) (s : State) : exec (.bndmin c f) s = execBndmin c f s := rfl
theorem exec_bndrd (c : Common) (f : FS) (s : State) : exec (.bndrd c f) s = execBndrd c f s := rfl
theorem exec_dqpush (c : Common) (f : FM) (s : State) : exec (.dqpush c f) s = execDqpush c f s := rfl
theorem exec_dqpop (c : Common) (f : FM) (s : State) : exec (.dqpop c f) s = execDqpop c f s := rfl
theorem exec_dqsteal (c : Common) (f : FM) (s : State) : exec (.dqsteal c f) s = execDqsteal c f s := rfl
theorem exec_dqinit (c : Common) (f : FM) (s : State) : exec (.dqinit c f) s = execDqinit c f s := rfl
theorem exec_mma (c : Common) (f : FX) (s : State) : exec (.mma c f) s = execMma c f s := rfl
theorem exec_zclr (c : Common) (f : FX) (s : State) : exec (.zclr c f) s = execZclr c f s := rfl
theorem exec_zmov (c : Common) (f : FX) (s : State) : exec (.zmov c f) s = execZmov c f s := rfl
theorem exec_zst (c : Common) (f : FX) (s : State) : exec (.zst c f) s = execZst c f s := rfl
theorem exec_zld (c : Common) (f : FX) (s : State) : exec (.zld c f) s = execZld c f s := rfl
theorem exec_att (c : Common) (f : FX) (s : State) : exec (.att c f) s = execAtt c f s := rfl
theorem exec_attfin (c : Common) (f : FX) (s : State) : exec (.attfin c f) s = execAttfin c f s := rfl
theorem exec_mset (c : Common) (f : FK) (s : State) : exec (.mset c f) s = execMset c f s := rfl
theorem exec_mld (c : Common) (f : FK) (s : State) : exec (.mld c f) s = execMld c f s := rfl
theorem exec_mst (c : Common) (f : FK) (s : State) : exec (.mst c f) s = execMst c f s := rfl
theorem exec_mmov (c : Common) (f : FK) (s : State) : exec (.mmov c f) s = execMmov c f s := rfl
theorem exec_madd (c : Common) (f : FK) (s : State) : exec (.madd c f) s = execMadd c f s := rfl
theorem exec_msub (c : Common) (f : FK) (s : State) : exec (.msub c f) s = execMsub c f s := rfl
theorem exec_mmul (c : Common) (f : FK) (s : State) : exec (.mmul c f) s = execMmul c f s := rfl
theorem exec_mscl (c : Common) (f : FK) (s : State) : exec (.mscl c f) s = execMscl c f s := rfl
theorem exec_mfma (c : Common) (f : FK) (s : State) : exec (.mfma c f) s = execMfma c f s := rfl
theorem exec_mrelu (c : Common) (f : FK) (s : State) : exec (.mrelu c f) s = execMrelu c f s := rfl
theorem exec_msigm (c : Common) (f : FK) (s : State) : exec (.msigm c f) s = execMsigm c f s := rfl
theorem exec_mexp (c : Common) (f : FK) (s : State) : exec (.mexp c f) s = execMexp c f s := rfl
theorem exec_mmax (c : Common) (f : FK) (s : State) : exec (.mmax c f) s = execMmax c f s := rfl
theorem exec_mmin (c : Common) (f : FK) (s : State) : exec (.mmin c f) s = execMmin c f s := rfl
theorem exec_mplt (c : Common) (f : FK) (s : State) : exec (.mplt c f) s = execMplt c f s := rfl
theorem exec_mcol (c : Common) (f : FK) (s : State) : exec (.mcol c f) s = execMcol c f s := rfl
theorem exec_mred (c : Common) (f : FK) (s : State) : exec (.mred c f) s = execMred c f s := rfl
theorem exec_mshfl (c : Common) (f : FK) (s : State) : exec (.mshfl c f) s = execMshfl c f s := rfl
theorem exec_mmom (c : Common) (f : FX) (s : State) : exec (.mmom c f) s = execMmom c f s := rfl
theorem exec_hnew (c : Common) (f : FH) (s : State) : exec (.hnew c f) s = execHnew c f s := rfl
theorem exec_hld (c : Common) (f : FH) (s : State) : exec (.hld c f) s = execHld c f s := rfl
theorem exec_hst (c : Common) (f : FH) (s : State) : exec (.hst c f) s = execHst c f s := rfl
theorem exec_hatom (c : Common) (f : FH) (s : State) : exec (.hatom c f) s = execHatom c f s := rfl
theorem exec_hldr (c : Common) (f : FH) (s : State) : exec (.hldr c f) s = execHldr c f s := rfl
theorem exec_hstr (c : Common) (f : FH) (s : State) : exec (.hstr c f) s = execHstr c f s := rfl
theorem exec_hmov (c : Common) (f : FH) (s : State) : exec (.hmov c f) s = execHmov c f s := rfl
theorem exec_hcmp (c : Common) (f : FH) (s : State) : exec (.hcmp c f) s = execHcmp c f s := rfl
theorem exec_hhdr (c : Common) (f : FH) (s : State) : exec (.hhdr c f) s = execHhdr c f s := rfl
theorem exec_hpin (c : Common) (f : FH) (s : State) : exec (.hpin c f) s = execHpin c f s := rfl
theorem exec_hunpin (c : Common) (f : FH) (s : State) : exec (.hunpin c f) s = execHunpin c f s := rfl
theorem exec_hflipMark (c : Common) (f : FH) (s : State) : exec (.hflipMark c f) s = execHflipMark c f s := rfl
theorem exec_hflipConf (c : Common) (f : FH) (s : State) : exec (.hflipConf c f) s = execHflipConf c f s := rfl
theorem exec_hcas (c : Common) (f : FH) (s : State) : exec (.hcas c f) s = execHcas c f s := rfl
theorem exec_rte (c : Common) (f : FS) (s : State) : exec (.rte c f) s = execRte c f s := rfl
theorem exec_prd (c : Common) (f : FS) (s : State) : exec (.prd c f) s = execPrd c f s := rfl
theorem exec_pwr (c : Common) (f : FS) (s : State) : exec (.pwr c f) s = execPwr c f s := rfl
theorem exec_invmark (c : Common) (f : FS) (s : State) : exec (.invmark c f) s = execInvmark c f s := rfl
theorem exec_invconf (c : Common) (f : FS) (s : State) : exec (.invconf c f) s = execInvconf c f s := rfl
theorem exec_errrd (c : Common) (f : FS) (s : State) : exec (.errrd c f) s = execErrrd c f s := rfl
theorem exec_lineFetch (warp : Nat) (s : State) : exec (.lineFetch warp) s = execLineFetch warp s := rfl
theorem exec_entryAged (warp : Nat) (s : State) : exec (.entryAged warp) s = execEntryAged warp s := rfl
theorem exec_yieldExpiry (warp : Nat) (s : State) : exec (.yieldExpiry warp) s = execYieldExpiry warp s := rfl
theorem exec_arbiterRequestTest (cluster : Nat) (s : State) : exec (.arbiterRequestTest cluster) s = execArbiterRequestTest cluster s := rfl
theorem exec_arbiterRelease (cluster : Nat) (s : State) : exec (.arbiterRelease cluster) s = execArbiterRelease cluster s := rfl
theorem exec_gangAdmission (slice : Nat) (s : State) : exec (.gangAdmission slice) s = execGangAdmission slice s := rfl
theorem exec_concurrentAdmission (slice : Nat) (s : State) : exec (.concurrentAdmission slice) s = execConcurrentAdmission slice s := rfl
theorem exec_blockDispatch (cluster : Nat) (s : State) : exec (.blockDispatch cluster) s = execBlockDispatch cluster s := rfl
theorem exec_windowFill (cluster : Nat) (s : State) : exec (.windowFill cluster) s = execWindowFill cluster s := rfl
theorem exec_wflushCompletion (op : Nat) (s : State) : exec (.wflushCompletion op) s = execWflushCompletion op s := rfl
theorem exec_copyBeatDelivery (chan : Nat) (s : State) : exec (.copyBeatDelivery chan) s = execCopyBeatDelivery chan s := rfl
theorem exec_copyCommandCompletion (chan : Nat) (s : State) : exec (.copyCommandCompletion chan) s = execCopyCommandCompletion chan s := rfl
theorem exec_mmaCompletion (op : Nat) (s : State) : exec (.mmaCompletion op) s = execMmaCompletion op s := rfl
theorem exec_mmomCompletion (op : Nat) (s : State) : exec (.mmomCompletion op) s = execMmomCompletion op s := rfl
theorem exec_zldCompletion (op : Nat) (s : State) : exec (.zldCompletion op) s = execZldCompletion op s := rfl
theorem exec_zstCompletion (op : Nat) (s : State) : exec (.zstCompletion op) s = execZstCompletion op s := rfl
theorem exec_attCompletion (op : Nat) (s : State) : exec (.attCompletion op) s = execAttCompletion op s := rfl
theorem exec_attfinCompletion (op : Nat) (s : State) : exec (.attfinCompletion op) s = execAttfinCompletion op s := rfl
theorem exec_writeDrained (warp : Nat) (s : State) : exec (.writeDrained warp) s = execWriteDrained warp s := rfl
theorem exec_dequeStampMet (warp : Nat) (s : State) : exec (.dequeStampMet warp) s = execDequeStampMet warp s := rfl
theorem exec_boundShadowUpdate (gang core n : Nat) (s : State) : exec (.boundShadowUpdate gang core n) s = execBoundShadowUpdate gang core n s := rfl
theorem exec_jointerObjectCopy (ctx region : Nat) (s : State) : exec (.jointerObjectCopy ctx region) s = execJointerObjectCopy ctx region s := rfl
theorem exec_healSweep (ctx region : Nat) (s : State) : exec (.healSweep ctx region) s = execHealSweep ctx region s := rfl
theorem exec_jointerFree (s : State) : exec (.jointerFree) s = execJointerFree s := rfl
theorem exec_sanderOverwrite (s : State) : exec (.sanderOverwrite) s = execSanderOverwrite s := rfl
theorem exec_launchValidation (s : State) : exec (.launchValidation) s = execLaunchValidation s := rfl
theorem exec_hostnoteWrite (cluster : Nat) (s : State) : exec (.hostnoteWrite cluster) s = execHostnoteWrite cluster s := rfl
theorem exec_lrtailDoorbell (fn : Nat) (val : BitVec 32) (s : State) : exec (.lrtailDoorbell fn val) s = execLrtailDoorbell fn val s := rfl
theorem exec_launchEntryRead (fn : Nat) (s : State) : exec (.launchEntryRead fn) s = execLaunchEntryRead fn s := rfl
theorem exec_completionEntryWrite (fn : Nat) (s : State) : exec (.completionEntryWrite fn) s = execCompletionEntryWrite fn s := rfl
theorem exec_ringHeadWrite (fn off : Nat) (val : BitVec 32) (s : State) : exec (.ringHeadWrite fn off val) s = execRingHeadWrite fn off val s := rfl
theorem exec_registerWrite (fn bar off : Nat) (val : BitVec 64) (s : State) : exec (.registerWrite fn bar off val) s = execRegisterWrite fn bar off val s := rfl
theorem exec_pageRequestWrite (fn : Nat) (s : State) : exec (.pageRequestWrite fn) s = execPageRequestWrite fn s := rfl
theorem exec_pageRequestReply (fn : Nat) (val : BitVec 32) (s : State) : exec (.pageRequestReply fn val) s = execPageRequestReply fn val s := rfl
theorem exec_replayRewalk (ctx page : Nat) (s : State) : exec (.replayRewalk ctx page) s = execReplayRewalk ctx page s := rfl
theorem exec_invMarkCommand (val : BitVec 32) (s : State) : exec (.invMarkCommand val) s = execInvMarkCommand val s := rfl
theorem exec_invConfirmCommand (val : BitVec 32) (s : State) : exec (.invConfirmCommand val) s = execInvConfirmCommand val s := rfl
theorem exec_invalidationDone (s : State) : exec (.invalidationDone) s = execInvalidationDone s := rfl
theorem exec_contextSave (val : BitVec 32) (s : State) : exec (.contextSave val) s = execContextSave val s := rfl
theorem exec_contextSaveComplete (ctx : Nat) (s : State) : exec (.contextSaveComplete ctx) s = execContextSaveComplete ctx s := rfl
theorem exec_contextRestore (val : BitVec 32) (s : State) : exec (.contextRestore val) s = execContextRestore val s := rfl
theorem exec_gangReadmission (gang : Nat) (s : State) : exec (.gangReadmission gang) s = execGangReadmission gang s := rfl
theorem exec_functionLevelReset (fn : Nat) (s : State) : exec (.functionLevelReset fn) s = execFunctionLevelReset fn s := rfl
theorem exec_fundamentalReset (s : State) : exec (.fundamentalReset) s = execFundamentalReset s := rfl
theorem exec_powerGood (s : State) : exec (.powerGood) s = execPowerGood s := rfl
theorem exec_enterSafe (selfTestFail : Option Nat) (s : State) : exec (.enterSafe selfTestFail) s = execEnterSafe selfTestFail s := rfl
theorem exec_firmwareAuthentication (image : Nat) (signature : Nat) (s : State) : exec (.firmwareAuthentication image signature) s = execFirmwareAuthentication image signature s := rfl
theorem exec_enterTrained (hbmFail plinthFail : Option Nat) (remap : RemapTable) (cxlUp waleUp : Nat) (s : State) : exec (.enterTrained hbmFail plinthFail remap cxlUp waleUp) s = execEnterTrained hbmFail plinthFail remap cxlUp waleUp s := rfl
theorem exec_enterFull (s : State) : exec (.enterFull) s = execEnterFull s := rfl
theorem exec_plinthConfigCommit (val : BitVec 32) (s : State) : exec (.plinthConfigCommit val) s = execPlinthConfigCommit val s := rfl
theorem exec_sliceDescriptorWrite (slice : Nat) (val : BitVec 256) (s : State) : exec (.sliceDescriptorWrite slice val) s = execSliceDescriptorWrite slice val s := rfl
theorem exec_retireCluster (val : BitVec 32) (s : State) : exec (.retireCluster val) s = execRetireCluster val s := rfl
theorem exec_retireMemoryChannel (val : BitVec 32) (s : State) : exec (.retireMemoryChannel val) s = execRetireMemoryChannel val s := rfl
theorem exec_keySlotLoad (val : BitVec 32) (s : State) : exec (.keySlotLoad val) s = execKeySlotLoad val s := rfl
theorem exec_keySlotZeroise (val : BitVec 32) (s : State) : exec (.keySlotZeroise val) s = execKeySlotZeroise val s := rfl
theorem exec_transportKeyInstall (val : BitVec 32) (s : State) : exec (.transportKeyInstall val) s = execTransportKeyInstall val s := rfl
theorem exec_attestationRequest (val : BitVec 32) (s : State) : exec (.attestationRequest val) s = execAttestationRequest val s := rfl
theorem exec_teardown (val : BitVec 32) (s : State) : exec (.teardown val) s = execTeardown val s := rfl
theorem exec_scrubComplete (s : State) : exec (.scrubComplete) s = execScrubComplete s := rfl
theorem exec_dlrdWrite (val : BitVec 32) (s : State) : exec (.dlrdWrite val) s = execDlrdWrite val s := rfl
theorem exec_dlovfWrite (val : BitVec 32) (s : State) : exec (.dlovfWrite val) s = execDlovfWrite val s := rfl
theorem exec_passCountChange (cluster count : Nat) (s : State) : exec (.passCountChange cluster count) s = execPassCountChange cluster count s := rfl
theorem exec_supplySag (chiplet : Nat) (s : State) : exec (.supplySag chiplet) s = execSupplySag chiplet s := rfl
theorem exec_supplyRecovery (chiplet : Nat) (s : State) : exec (.supplyRecovery chiplet) s = execSupplyRecovery chiplet s := rfl
theorem exec_coolantReport (medium : Coolant) (inletTenths flowTenths : Nat) (s : State) : exec (.coolantReport medium inletTenths flowTenths) s = execCoolantReport medium inletTenths flowTenths s := rfl
theorem exec_coolantReportTimeout (s : State) : exec (.coolantReportTimeout) s = execCoolantReportTimeout s := rfl
theorem exec_thermalTrip (chiplet : Nat) (s : State) : exec (.thermalTrip chiplet) s = execThermalTrip chiplet s := rfl
theorem exec_timingErrorReplay (core quadrant : Nat) (s : State) : exec (.timingErrorReplay core quadrant) s = execTimingErrorReplay core quadrant s := rfl
theorem exec_correctableError (site : ErrSite) (s : State) : exec (.correctableError site) s = execCorrectableError site s := rfl
theorem exec_uncorrectableError (site : ErrSite) (s : State) : exec (.uncorrectableError site) s = execUncorrectableError site s := rfl
theorem exec_gatingRequest (cluster : Nat) (s : State) : exec (.gatingRequest cluster) s = execGatingRequest cluster s := rfl
theorem exec_gatingCommit (cluster : Nat) (s : State) : exec (.gatingCommit cluster) s = execGatingCommit cluster s := rfl
theorem exec_clusterWake (cluster : Nat) (s : State) : exec (.clusterWake cluster) s = execClusterWake cluster s := rfl
theorem exec_peerAccess (link ctx addr len : Nat) (write : Option (List (BitVec 8))) (s : State) : exec (.peerAccess link ctx addr len write) s = execPeerAccess link ctx addr len write s := rfl
theorem exec_peerResponse (chan : Nat) (elem : PeerKey) (answer : PeerAnswer) (s : State) : exec (.peerResponse chan elem answer) s = execPeerResponse chan elem answer s := rfl
theorem exec_peerTimeout (chan : Nat) (elem : PeerKey) (s : State) : exec (.peerTimeout chan elem) s = execPeerTimeout chan elem s := rfl
theorem exec_chipletReset (chiplet : Nat) (s : State) : exec (.chipletReset chiplet) s = execChipletReset chiplet s := rfl

end Sys2Proof.Machine
end

