-- ==== Sys2Proof/Laws/Frames.lean ====
section
/-! SUPPORT. What memory accesses, side logs and error logs leave alone: every warp, block, gang, grid, cluster, channel,
tile and queue. -/

namespace Sys2Proof.Machine

/-- The two states differ in memories, the marks and records kept beside them, windows, side logs, page requests, cached
translations and error logs at most. -/
def SameFronts (s t : State) : Prop :=
  t = { s with
    mem := t.mem, plinth := t.plinth, shared := t.shared, poisonMem := t.poisonMem, poisonShared := t.poisonShared
    poisonPlinth := t.poisonPlinth, windows := t.windows, parked := t.parked, pageReqs := t.pageReqs, tlb := t.tlb
    raceShared := t.raceShared, racePlinth := t.racePlinth, relShared := t.relShared, relPlinth := t.relPlinth
    relMem := t.relMem, memCtx := t.memCtx, ctxs := t.ctxs, fns := t.fns, dev := t.dev }

theorem SameFronts.refl (s : State) : SameFronts s s := rfl

theorem SameFronts.trans {s t u : State} (a : SameFronts s t) (b : SameFronts t u) : SameFronts s u := by
  unfold SameFronts at *
  rw [b, a]

theorem SameFronts.warps {s t : State} (h : SameFronts s t) : t.warps = s.warps := by rw [h]
theorem SameFronts.warp {s t : State} (h : SameFronts s t) (w : Nat) : t.warp w = s.warp w := by rw [State.warp, h.warps]; rfl
theorem SameFronts.ops {s t : State} (h : SameFronts s t) : t.ops = s.ops := by rw [h]
theorem SameFronts.blocks {s t : State} (h : SameFronts s t) : t.blocks = s.blocks := by rw [h]
theorem SameFronts.opCtr {s t : State} (h : SameFronts s t) : t.opCtr = s.opCtr := by rw [h]

theorem SameFronts.of_tlb {s t : State} (h : SameButTlb s t) : SameFronts s t := by
  unfold SameButTlb at h
  rw [h]
  rfl

theorem State.request_fronts (s : State) (c page : Nat) (wr : Bool) : SameFronts s (s.request c page wr) := by
  unfold State.request
  split <;> rfl

theorem State.park_fronts (s : State) (p : Parked) : SameFronts s (s.park p) :=
  SameFronts.trans (t := { s with parked := s.parked ++ [p] }) rfl (State.request_fronts ..)

theorem State.parkAll_fronts (l : List Parked) : ∀ s : State, SameFronts s (s.parkAll l) := by
  induction l with
  | nil => intro s; exact .refl s
  | cons p r ih => intro s; exact (s.park_fronts p).trans (ih _)

theorem State.putPhys_fronts (s : State) (l : List (Nat × Byte)) : SameFronts s (s.putPhys l) := rfl

theorem State.putFor_fronts (s : State) (c : Nat) (l : List (Nat × Byte)) : SameFronts s (s.putFor c l) := rfl

theorem State.vwrite_fronts (s : State) (u : XUnit) (c va n : Nat) (bytes : List (Nat × Byte)) :
    SameFronts s (s.vwrite u c va n bytes).2 := by
  have h := SameFronts.of_tlb (State.xlPages_same u c true false (pagesOf va n) s)
  unfold State.vwrite
  cases hx : s.xlPages u c true false (pagesOf va n) with
  | mk o s1 =>
    rw [hx] at h
    cases o with
    | error p => exact h
    | ok ps => exact h.trans (s1.putFor_fronts _ _)

theorem State.writeOrPark_fronts (c : Nat) (u : XUnit) (va : Nat) (mk : Parked → Parked) (org : Origin)
    (l : List (List (Nat × Byte))) : ∀ s : State, SameFronts s (s.writeOrPark c u va mk org l).2 := by
  induction l with
  | nil => intro s; exact .refl s
  | cons sec r ih =>
    intro s
    cases sec with
    | nil => rw [State.writeOrPark]; exact ih s
    | cons p q =>
      rw [State.writeOrPark]
      split
      · exact .refl s
      · split
        · exact (s.park_fronts _).trans (ih _)
        · have h := s.vwrite_fronts u c ((va + p.1) / 4096 * 4096) 4096
            ((p :: q).map fun (j, b) => (va + j - (va + p.1) / 4096 * 4096, b))
          revert h
          cases s.vwrite u c ((va + p.1) / 4096 * 4096) 4096
            ((p :: q).map fun (j, b) => (va + j - (va + p.1) / 4096 * 4096, b)) with
          | mk o s1 =>
            intro h
            cases o with
            | ok _ => exact h.trans (ih s1)
            | error _ => exact (h.trans (s1.park_fronts _)).trans (ih _)

theorem State.writeBackAt_fronts (s : State) (i : Nat) (offs : List Nat) (mk : Parked → Parked) (org : Origin) :
    SameFronts s (s.writeBackAt i offs mk org).2 := by
  have h := State.writeOrPark_fronts (s.window i).ctx (s.windowUnit (s.window i)) (s.window i).va mk org
    (sectors (s.window i).va (offs.map fun o => (o, rdByte s.plinth ((s.window i).base + o)))) s
  unfold State.writeBackAt
  revert h
  simp only
  cases State.writeOrPark s (s.window i).ctx (s.windowUnit (s.window i)) (s.window i).va mk org
    (sectors (s.window i).va (offs.map fun o => (o, rdByte s.plinth ((s.window i).base + o)))) with
  | mk rest s1 =>
    intro h
    exact h.trans rfl

theorem State.writeBacks_fronts (mk : Parked → Parked) (org : Origin) (l : List (Nat × List Nat)) : ∀ s : State,
    SameFronts s (s.writeBacks mk org l).2 := by
  induction l with
  | nil => intro s; exact .refl s
  | cons p r ih =>
    intro s
    have h := s.writeBackAt_fronts p.1 p.2 mk org
    rw [State.writeBacks]
    revert h
    cases s.writeBackAt p.1 p.2 mk org with
    | mk left s1 =>
      intro h
      have h2 := ih s1
      revert h2
      simp only
      cases s1.writeBacks mk org r with
      | mk rest s2 =>
        intro h2
        exact h.trans h2

theorem State.modCtx_fronts (s : State) (c : Nat) (f : Ctx → Ctx) : SameFronts s (s.modCtx c f) := rfl

theorem State.setPhys_fronts (s : State) (a n x : Nat) : SameFronts s (s.setPhys a n x) := rfl

theorem State.ctxLog_fronts (s : State) (r : LogRec) : SameFronts s (s.ctxLog r) := by
  unfold State.ctxLog
  simp only
  split
  · exact s.modCtx_fronts _ _
  · exact (s.setPhys_fronts _ _ _).trans (State.modCtx_fronts _ _ _)

theorem State.logRace_fronts (s : State) (r : LogRec) (a : Acc) (off : Nat) : SameFronts s (s.logRace r a off) :=
  s.ctxLog_fronts _

theorem State.logRaces_fronts (x : Ix) (sp : Space) (l : List (Nat × Nat × Acc)) : ∀ s : State,
    SameFronts s (s.logRaces x sp l) := by
  induction l with
  | nil => intro s; exact .refl s
  | cons p r ih => intro s; exact (s.logRace_fronts _ _ _).trans (ih _)

theorem State.recordAcc_fronts (s : State) (sp : Space) (k n : Nat) (a : Acc) : SameFronts s (s.recordAcc sp k n a) := by
  unfold State.recordAcc State.setRaces State.setRels
  simp only
  split <;> cases sp <;> rfl

theorem State.recordAll_fronts (sp : Space) (n : Nat) (acc : Nat → Acc) (l : List (Nat × Nat)) : ∀ s : State,
    SameFronts s (s.recordAll sp n acc l) := by
  induction l with
  | nil => intro s; exact .refl s
  | cons p r ih => intro s; exact (s.recordAcc_fronts _ _ _ _).trans (ih _)

theorem State.raceCheck_fronts {s t : State} {x : Ix} {sp : Space} {n : Nat} {keys : List (Nat × Nat)} {wr : Nat → Bool}
    {atomic : Bool} (h : s.raceCheck x sp n keys wr atomic = .ok t) : SameFronts s t := by
  unfold State.raceCheck at h
  simp only at h
  split at h
  · split at h
    · cases h
    · cases h
      exact .refl s
  · split at h
    · split at h
      · cases h
      · cases h
        exact State.logRaces_fronts x sp _ s
    · cases h

theorem State.unmapReads_fronts {s t : State} {x : Ix} {d : List (Nat × List Nat)} (h : s.unmapReads x d = .ok t) :
    SameFronts s t := by
  unfold State.unmapReads at h
  simp only at h
  split at h
  · cases h
  · rename_i s1 h1
    cases h
    exact (State.raceCheck_fronts h1).trans (State.recordAll_fronts ..)

theorem State.foldl_fronts {α : Type} (f : State → α → State) (h : ∀ s a, SameFronts s (f s a)) (l : List α) :
    ∀ s : State, SameFronts s (l.foldl f s) := by
  induction l with
  | nil => intro s; exact .refl s
  | cons a r ih => intro s; exact (h s a).trans (ih _)

theorem State.opAccess_fronts {s t : State} {n : Nat} {o : AsyncOp} {acc : Acc} {sp : Space} {len : Nat} {keys : List Nat}
    (h : s.opAccess n o acc sp len keys = .ok t) : SameFronts s t := by
  unfold State.opAccess at h
  simp only at h
  split at h
  · cases h
    exact State.recordAll_fronts ..
  · split at h
    · cases h
      exact (State.foldl_fronts _ (fun s p => s.logRace_fronts _ _ _) _ _).trans (State.recordAll_fronts ..)
    · cases h

/-- A flush's write-back leaves its warp as it is. -/
theorem State.flushMore_warps (s : State) (n : Nat) (o : AsyncOp) (rest : List (Nat × List Nat)) :
    (s.flushMore n o rest).warps = s.warps := by
  have h := State.writeBacks_fronts (fun p => { p with warp := o.warp, pc := o.pc }) (.flush n) rest s
  unfold State.flushMore
  revert h
  cases s.writeBacks (fun p => { p with warp := o.warp, pc := o.pc }) (.flush n) rest with
  | mk left s1 =>
    intro h
    exact h.warps

end Sys2Proof.Machine
end

