-- ==== Sys2Proof/Laws/Issued.lean ====
section
/-! SUPPORT. Every instruction that has a word is issued: its meaning is one act under the shared issue. -/

namespace Sys2Proof.Machine

/-- The meaning of an instruction is `State.issue` of an act that depends on the instruction alone. -/
theorem exec_is_issue (i : Instr) (h : i.view.isSome = true) :
    ∃ act : Ix → State → Res, ∀ s, exec i s = s.issue false i act := by
  cases i with
  | nop c f => exact ⟨_, fun s => exec_nop c f s⟩
  | bra c f => exact ⟨_, fun s => exec_bra c f s⟩
  | brx c f => exact ⟨_, fun s => exec_brx c f s⟩
  | call c f => exact ⟨_, fun s => exec_call c f s⟩
  | ret c f => exact ⟨_, fun s => exec_ret c f s⟩
  | exit c f => exact ⟨_, fun s => exec_exit c f s⟩
  | yield c f => exact ⟨_, fun s => exec_yield c f s⟩
  | wsync c f => exact ⟨_, fun s => exec_wsync c f s⟩
  | rgn c f => exact ⟨_, fun s => exec_rgn c f s⟩
  | vote c f => exact ⟨_, fun s => exec_vote c f s⟩
  | shfl c f => exact ⟨_, fun s => exec_shfl c f s⟩
  | rdlane c f => exact ⟨_, fun s => exec_rdlane c f s⟩
  | brk c f => exact ⟨_, fun s => exec_brk c f s⟩
  | trap c f => exact ⟨_, fun s => exec_trap c f s⟩
  | iadd c f => exact ⟨_, fun s => exec_iadd c f s⟩
  | isub c f => exact ⟨_, fun s => exec_isub c f s⟩
  | imul c f => exact ⟨_, fun s => exec_imul c f s⟩
  | imulh c f => exact ⟨_, fun s => exec_imulh c f s⟩
  | imad c f => exact ⟨_, fun s => exec_imad c f s⟩
  | imadw c f => exact ⟨_, fun s => exec_imadw c f s⟩
  | idiv c f => exact ⟨_, fun s => exec_idiv c f s⟩
  | irem c f => exact ⟨_, fun s => exec_irem c f s⟩
  | imin c f => exact ⟨_, fun s => exec_imin c f s⟩
  | imax c f => exact ⟨_, fun s => exec_imax c f s⟩
  | iabs c f => exact ⟨_, fun s => exec_iabs c f s⟩
  | logt c f => exact ⟨_, fun s => exec_logt c f s⟩
  | shl c f => exact ⟨_, fun s => exec_shl c f s⟩
  | shr c f => exact ⟨_, fun s => exec_shr c f s⟩
  | shp c f => exact ⟨_, fun s => exec_shp c f s⟩
  | popc c f => exact ⟨_, fun s => exec_popc c f s⟩
  | clz c f => exact ⟨_, fun s => exec_clz c f s⟩
  | brev c f => exact ⟨_, fun s => exec_brev c f s⟩
  | bfe c f => exact ⟨_, fun s => exec_bfe c f s⟩
  | bfi c f => exact ⟨_, fun s => exec_bfi c f s⟩
  | isetp c f => exact ⟨_, fun s => exec_isetp c f s⟩
  | sel c f => exact ⟨_, fun s => exec_sel c f s⟩
  | lea c f => exact ⟨_, fun s => exec_lea c f s⟩
  | plogt c f => exact ⟨_, fun s => exec_plogt c f s⟩
  | fadd c f => exact ⟨_, fun s => exec_fadd c f s⟩
  | fmul c f => exact ⟨_, fun s => exec_fmul c f s⟩
  | ffma c f => exact ⟨_, fun s => exec_ffma c f s⟩
  | fmin c f => exact ⟨_, fun s => exec_fmin c f s⟩
  | fmax c f => exact ⟨_, fun s => exec_fmax c f s⟩
  | fsetp c f => exact ⟨_, fun s => exec_fsetp c f s⟩
  | fdiv c f => exact ⟨_, fun s => exec_fdiv c f s⟩
  | fsqrt c f => exact ⟨_, fun s => exec_fsqrt c f s⟩
  | frcp c f => exact ⟨_, fun s => exec_frcp c f s⟩
  | frsq c f => exact ⟨_, fun s => exec_frsq c f s⟩
  | fex2 c f => exact ⟨_, fun s => exec_fex2 c f s⟩
  | flg2 c f => exact ⟨_, fun s => exec_flg2 c f s⟩
  | fsin c f => exact ⟨_, fun s => exec_fsin c f s⟩
  | fcos c f => exact ⟨_, fun s => exec_fcos c f s⟩
  | ftanh c f => exact ⟨_, fun s => exec_ftanh c f s⟩
  | ferf c f => exact ⟨_, fun s => exec_ferf c f s⟩
  | fclass c f => exact ⟨_, fun s => exec_fclass c f s⟩
  | fscale c f => exact ⟨_, fun s => exec_fscale c f s⟩
  | cvt c f => exact ⟨_, fun s => exec_cvt c f s⟩
  | qnt c f => exact ⟨_, fun s => exec_qnt c f s⟩
  | dqt c f => exact ⟨_, fun s => exec_dqt c f s⟩
  | bsel c f => exact ⟨_, fun s => exec_bsel c f s⟩
  | pack c f => exact ⟨_, fun s => exec_pack c f s⟩
  | fdp4 c f => exact ⟨_, fun s => exec_fdp4 c f s⟩
  | fdp8 c f => exact ⟨_, fun s => exec_fdp8 c f s⟩
  | idp4 c f => exact ⟨_, fun s => exec_idp4 c f s⟩
  | idp8 c f => exact ⟨_, fun s => exec_idp8 c f s⟩
  | mov c f => exact ⟨_, fun s => exec_mov c f s⟩
  | movi c f => exact ⟨_, fun s => exec_movi c f s⟩
  | rdsr c f => exact ⟨_, fun s => exec_rdsr c f s⟩
  | wrsr c f => exact ⟨_, fun s => exec_wrsr c f s⟩
  | ld c f => exact ⟨_, fun s => exec_ld c f s⟩
  | st c f => exact ⟨_, fun s => exec_st c f s⟩
  | atom c f => exact ⟨_, fun s => exec_atom c f s⟩
  | atomcas c f => exact ⟨_, fun s => exec_atomcas c f s⟩
  | red c f => exact ⟨_, fun s => exec_red c f s⟩
  | ldk c f => exact ⟨_, fun s => exec_ldk c f s⟩
  | stk c f => exact ⟨_, fun s => exec_stk c f s⟩
  | bnarrow c f => exact ⟨_, fun s => exec_bnarrow c f s⟩
  | badv c f => exact ⟨_, fun s => exec_badv c f s⟩
  | bget c f => exact ⟨_, fun s => exec_bget c f s⟩
  | wmap c f => exact ⟨_, fun s => exec_wmap c f s⟩
  | wunmap c f => exact ⟨_, fun s => exec_wunmap c f s⟩
  | wflush c f => exact ⟨_, fun s => exec_wflush c f s⟩
  | fence c f => exact ⟨_, fun s => exec_fence c f s⟩
  | bar c f => exact ⟨_, fun s => exec_bar c f s⟩
  | gbar c f => exact ⟨_, fun s => exec_gbar c f s⟩
  | cinit c f => exact ⟨_, fun s => exec_cinit c f s⟩
  | waitf c f => exact ⟨_, fun s => exec_waitf c f s⟩
  | wprd c f => exact ⟨_, fun s => exec_wprd c f s⟩
  | wpwait c f => exact ⟨_, fun s => exec_wpwait c f s⟩
  | drain c f => exact ⟨_, fun s => exec_drain c f s⟩
  | acq c f => exact ⟨_, fun s => exec_acq c f s⟩
  | acqTry c f => exact ⟨_, fun s => exec_acqTry c f s⟩
  | rel c f => exact ⟨_, fun s => exec_rel c f s⟩
  | claimrd c f => exact ⟨_, fun s => exec_claimrd c f s⟩
  | push c f => exact ⟨_, fun s => exec_push c f s⟩
  | cpst c f => exact ⟨_, fun s => exec_cpst c f s⟩
  | bndmin c f => exact ⟨_, fun s => exec_bndmin c f s⟩
  | bndrd c f => exact ⟨_, fun s => exec_bndrd c f s⟩
  | dqpush c f => exact ⟨_, fun s => exec_dqpush c f s⟩
  | dqpop c f => exact ⟨_, fun s => exec_dqpop c f s⟩
  | dqsteal c f => exact ⟨_, fun s => exec_dqsteal c f s⟩
  | dqinit c f => exact ⟨_, fun s => exec_dqinit c f s⟩
  | mma c f => exact ⟨_, fun s => exec_mma c f s⟩
  | zclr c f => exact ⟨_, fun s => exec_zclr c f s⟩
  | zmov c f => exact ⟨_, fun s => exec_zmov c f s⟩
  | zst c f => exact ⟨_, fun s => exec_zst c f s⟩
  | zld c f => exact ⟨_, fun s => exec_zld c f s⟩
  | att c f => exact ⟨_, fun s => exec_att c f s⟩
  | attfin c f => exact ⟨_, fun s => exec_attfin c f s⟩
  | mset c f => exact ⟨_, fun s => exec_mset c f s⟩
  | mld c f => exact ⟨_, fun s => exec_mld c f s⟩
  | mst c f => exact ⟨_, fun s => exec_mst c f s⟩
  | mmov c f => exact ⟨_, fun s => exec_mmov c f s⟩
  | madd c f => exact ⟨_, fun s => exec_madd c f s⟩
  | msub c f => exact ⟨_, fun s => exec_msub c f s⟩
  | mmul c f => exact ⟨_, fun s => exec_mmul c f s⟩
  | mscl c f => exact ⟨_, fun s => exec_mscl c f s⟩
  | mfma c f => exact ⟨_, fun s => exec_mfma c f s⟩
  | mrelu c f => exact ⟨_, fun s => exec_mrelu c f s⟩
  | msigm c f => exact ⟨_, fun s => exec_msigm c f s⟩
  | mexp c f => exact ⟨_, fun s => exec_mexp c f s⟩
  | mmax c f => exact ⟨_, fun s => exec_mmax c f s⟩
  | mmin c f => exact ⟨_, fun s => exec_mmin c f s⟩
  | mplt c f => exact ⟨_, fun s => exec_mplt c f s⟩
  | mcol c f => exact ⟨_, fun s => exec_mcol c f s⟩
  | mred c f => exact ⟨_, fun s => exec_mred c f s⟩
  | mshfl c f => exact ⟨_, fun s => exec_mshfl c f s⟩
  | mmom c f => exact ⟨_, fun s => exec_mmom c f s⟩
  | hnew c f => exact ⟨_, fun s => exec_hnew c f s⟩
  | hld c f => exact ⟨_, fun s => exec_hld c f s⟩
  | hst c f => exact ⟨_, fun s => exec_hst c f s⟩
  | hatom c f => exact ⟨_, fun s => exec_hatom c f s⟩
  | hldr c f => exact ⟨_, fun s => exec_hldr c f s⟩
  | hstr c f => exact ⟨_, fun s => exec_hstr c f s⟩
  | hmov c f => exact ⟨_, fun s => exec_hmov c f s⟩
  | hcmp c f => exact ⟨_, fun s => exec_hcmp c f s⟩
  | hhdr c f => exact ⟨_, fun s => exec_hhdr c f s⟩
  | hpin c f => exact ⟨_, fun s => exec_hpin c f s⟩
  | hunpin c f => exact ⟨_, fun s => exec_hunpin c f s⟩
  | hflipMark c f => exact ⟨_, fun s => exec_hflipMark c f s⟩
  | hflipConf c f => exact ⟨_, fun s => exec_hflipConf c f s⟩
  | hcas c f => exact ⟨_, fun s => exec_hcas c f s⟩
  | rte c f => exact ⟨_, fun s => exec_rte c f s⟩
  | prd c f => exact ⟨_, fun s => exec_prd c f s⟩
  | pwr c f => exact ⟨_, fun s => exec_pwr c f s⟩
  | invmark c f => exact ⟨_, fun s => exec_invmark c f s⟩
  | invconf c f => exact ⟨_, fun s => exec_invconf c f s⟩
  | errrd c f => exact ⟨_, fun s => exec_errrd c f s⟩
  | _ => exact absurd h Bool.false_ne_true

end Sys2Proof.Machine
end

