-- ==== Sys2Proof/Laws/Memory.lean ====
section
/-! SUPPORT. The memories keep their canonical form under every operation that writes one. -/

namespace Sys2Proof.Machine

theorem memWf_iff (s : State) :
    s.memWf = true ↔ Memory.wf s.mem = true ∧ Memory.wf s.plinth = true ∧ Memory.wf s.shared = true := by
  simp [State.memWf, Bool.and_eq_true, and_assoc]

theorem reset_memWf : State.reset.memWf = true := rfl

/-- What leaves the three memories as they were keeps their form. -/
theorem memWf_of_eq {s t : State} (hm : t.mem = s.mem) (hp : t.plinth = s.plinth) (hs : t.shared = s.shared)
    (h : s.memWf = true) : t.memWf = true := by
  rw [memWf_iff] at *
  rwa [hm, hp, hs]

theorem setPhys_memWf (s : State) (a n x : Nat) (h : s.memWf = true) : (s.setPhys a n x).memWf = true := by
  rw [memWf_iff] at *
  exact ⟨wrNat_wf _ _ _ _ h.1, h.2⟩

theorem putPhys_memWf (s : State) (l : List (Nat × Byte)) (h : s.memWf = true) : (s.putPhys l).memWf = true := by
  rw [memWf_iff] at *
  exact ⟨wrList_wf _ _ h.1, h.2⟩

theorem dirty_mems (s : State) (l : List (Nat × Byte)) :
    (s.dirty l).mem = s.mem ∧ (s.dirty l).plinth = s.plinth ∧ (s.dirty l).shared = s.shared := by
  unfold State.dirty
  induction l generalizing s with
  | nil => exact ⟨rfl, rfl, rfl⟩
  | cons p r ih =>
    rw [List.foldl_cons]
    cases hw : s.windowAt p.1 with
    | none => simpa only [hw] using ih s
    | some q => simpa only [hw] using ih { s with windows := tset s.windows q.1 { q.2 with dirty := nins q.2.dirty (p.1 - q.2.base) } }

theorem putLocal_memWf (s : State) (sp : Space) (l : List (Nat × Byte)) (h : s.memWf = true) :
    (s.putLocal sp l).memWf = true := by
  rw [memWf_iff] at *
  cases sp with
  | shared => exact ⟨h.1, h.2.1, wrList_wf _ _ h.2.2⟩
  | plinth =>
    by_cases hw : s.windows.isEmpty
    · simp only [State.putLocal, hw, if_true]
      exact ⟨h.1, wrList_wf _ _ h.2.1, h.2.2⟩
    · simp only [State.putLocal, hw, Bool.false_eq_true, if_false]
      exact ⟨(dirty_mems s l).1 ▸ h.1, wrList_wf _ _ h.2.1, (dirty_mems s l).2.2 ▸ h.2.2⟩

theorem zeroPlinth_memWf (s : State) (k n : Nat) (h : s.memWf = true) : (s.zeroPlinth k n).memWf = true := by
  rw [memWf_iff] at *
  exact ⟨h.1, filter_wf _ _ h.2.1, h.2.2⟩

theorem zeroPhys_memWf (s : State) (a n : Nat) (h : s.memWf = true) : (s.zeroPhys a n).memWf = true := by
  rw [memWf_iff] at *
  exact ⟨filter_wf _ _ h.1, h.2⟩

theorem clearRaces_mems (s : State) (sp : Space) (a n : Nat) :
    (s.clearRaces sp a n).mem = s.mem ∧ (s.clearRaces sp a n).plinth = s.plinth ∧
      (s.clearRaces sp a n).shared = s.shared := by
  cases sp <;> exact ⟨rfl, rfl, rfl⟩

theorem scrubCore_memWf (s : State) (n : Nat) (h : s.memWf = true) : (s.scrubCore n).memWf = true := by
  rw [memWf_iff] at *
  exact ⟨h.1, h.2.1, filter_wf _ _ h.2.2⟩

theorem powerDown_memWf (s : State) (h : s.memWf = true) : s.powerDown.memWf = true := by
  rw [memWf_iff] at *
  exact ⟨h.1, rfl, rfl⟩

theorem garbleMem_memWf (s : State) (l : List Nat) (h : s.memWf = true) : (s.garbleMem l).memWf = true := by
  rw [memWf_iff] at *
  exact ⟨wrList_wf _ _ h.1, h.2⟩

/-- Folding an operation that keeps the form keeps it. -/
theorem foldl_memWf {α : Type} (f : State → α → State) (hf : ∀ s x, s.memWf = true → (f s x).memWf = true) :
    ∀ (l : List α) (s : State), s.memWf = true → (l.foldl f s).memWf = true := by
  intro l
  induction l with
  | nil => exact fun _ h => h
  | cons x r ih => exact fun s h => ih _ (hf s x h)

theorem loseKeys_memWf (s : State) (h : s.memWf = true) : s.loseKeys.memWf = true :=
  foldl_memWf _ (fun _ _ ht => garbleMem_memWf _ _ ht) _ _ h

theorem fundamentalReset_memWf (s t : State) (h : s.memWf = true) (e : execFundamentalReset s = .next t) :
    t.memWf = true := by
  have hk := loseKeys_memWf s h
  rw [memWf_iff] at *
  simp only [execFundamentalReset, Host.Outcome.next.injEq] at e
  subst e
  exact ⟨hk.1, rfl, rfl⟩

/-- Folding an operation that keeps the form of one memory keeps it. -/
theorem foldl_wf {α : Type} (f : List Host.Cell → α → List Host.Cell)
    (hf : ∀ m x, Memory.wf m = true → Memory.wf (f m x) = true) :
    ∀ (l : List α) (m : List Host.Cell), Memory.wf m = true → Memory.wf (l.foldl f m) = true := by
  intro l
  induction l with
  | nil => exact fun _ h => h
  | cons x r ih => exact fun m h => ih _ (hf m x h)

theorem loadImg_memWf (s : State) (b : Nat) (m : List (Nat × Nat)) (h : s.memWf = true) :
    (s.loadImg b m).memWf = true := by
  rw [memWf_iff] at *
  refine ⟨h.1, ?_, wrList_wf _ _ (filter_wf _ _ h.2.2)⟩
  exact foldl_wf _ (fun _ _ hm => wrList_wf _ _ (filter_wf _ _ hm)) _ _
    (foldl_wf _ (fun _ _ hm => wrList_wf _ _ (filter_wf _ _ hm)) _ _ h.2.1)

theorem fillChunk_memWf (s : State) (i c : Nat) (t : State)
    (e : (s.fillChunk i c).1 = some t) (hx : (s.fillChunk i c).2.memWf = true) : t.memWf = true := by
  simp only [State.fillChunk] at e hx
  split at e
  · cases e
  · rename_i hv
    rw [hv] at hx
    cases e
    rw [memWf_iff] at *
    exact ⟨hx.1, wrList_wf _ _ hx.2.1, hx.2.2⟩

end Sys2Proof.Machine
end

