-- ==== Sys2Proof/Laws/PerInstr.lean ====
section
/-! SUPPORT. Facts of every instruction as syntax, one lemma for each constructor. -/

namespace Sys2Proof.Laws.View

/-- What the encoding tables say of one instruction: an event has no word; an instruction's view names an opcode of ten bits
whose layout is the one its fields have, and from which, when it is well-formed, the decoder's table builds the instruction
back. -/
def Statement (i : Instr) : Prop :=
  match i.view with
  | none => encode i = none
  | some (op, c, b) =>
    i.common = c ∧ op < 1024 ∧ (i.wf = true → Instr.ofView op c b = some i) ∧
      opInfo op (b.fmt == .ri) = some { fmt := b.fmt }

theorem nop (c : Common) (f : BR) : Statement (.nop c f) :=
  ⟨rfl, by decide, fun _ => rfl, rfl⟩
theorem bra (c : Common) (f : BR) : Statement (.bra c f) :=
  ⟨rfl, by decide, fun _ => rfl, rfl⟩
theorem brx (c : Common) (f : BR) : Statement (.brx c f) :=
  ⟨rfl, by decide, fun _ => rfl, rfl⟩
theorem call (c : Common) (f : BR) : Statement (.call c f) :=
  ⟨rfl, by decide, fun _ => rfl, rfl⟩
theorem ret (c : Common) (f : BR) : Statement (.ret c f) :=
  ⟨rfl, by decide, fun _ => rfl, rfl⟩
theorem exit (c : Common) (f : BR) : Statement (.exit c f) :=
  ⟨rfl, by decide, fun _ => rfl, rfl⟩
theorem yield (c : Common) (f : BR) : Statement (.yield c f) :=
  ⟨rfl, by decide, fun _ => rfl, rfl⟩
theorem wsync (c : Common) (f : BR) : Statement (.wsync c f) :=
  ⟨rfl, by decide, fun _ => rfl, rfl⟩
theorem rgn (c : Common) (f : BR) : Statement (.rgn c f) :=
  ⟨rfl, by decide, fun _ => rfl, rfl⟩
theorem vote (c : Common) (f : RRR) : Statement (.vote c f) :=
  ⟨rfl, by decide, fun _ => rfl, rfl⟩
theorem shfl (c : Common) (f : RRR) : Statement (.shfl c f) :=
  ⟨rfl, by decide, fun _ => rfl, rfl⟩
theorem rdlane (c : Common) (f : RRR) : Statement (.rdlane c f) :=
  ⟨rfl, by decide, fun _ => rfl, rfl⟩
theorem brk (c : Common) (f : FS) : Statement (.brk c f) :=
  ⟨rfl, by decide, fun _ => rfl, rfl⟩
theorem trap (c : Common) (f : FS) : Statement (.trap c f) :=
  ⟨rfl, by decide, fun _ => rfl, rfl⟩
theorem iadd (c : Common) (f : Arith) : Statement (.iadd c f) := by
  cases f <;> exact ⟨rfl, by decide, fun _ => rfl, rfl⟩
theorem isub (c : Common) (f : Arith) : Statement (.isub c f) := by
  cases f <;> exact ⟨rfl, by decide, fun _ => rfl, rfl⟩
theorem imul (c : Common) (f : Arith) : Statement (.imul c f) := by
  cases f <;> exact ⟨rfl, by decide, fun _ => rfl, rfl⟩
theorem imulh (c : Common) (f : Arith) : Statement (.imulh c f) := by
  cases f <;> exact ⟨rfl, by decide, fun _ => rfl, rfl⟩
theorem imad (c : Common) (f : RRR) : Statement (.imad c f) :=
  ⟨rfl, by decide, fun _ => rfl, rfl⟩
theorem imadw (c : Common) (f : RRR) : Statement (.imadw c f) :=
  ⟨rfl, by decide, fun _ => rfl, rfl⟩
theorem idiv (c : Common) (f : Arith) : Statement (.idiv c f) := by
  cases f <;> exact ⟨rfl, by decide, fun _ => rfl, rfl⟩
theorem irem (c : Common) (f : Arith) : Statement (.irem c f) := by
  cases f <;> exact ⟨rfl, by decide, fun _ => rfl, rfl⟩
theorem imin (c : Common) (f : Arith) : Statement (.imin c f) := by
  cases f <;> exact ⟨rfl, by decide, fun _ => rfl, rfl⟩
theorem imax (c : Common) (f : Arith) : Statement (.imax c f) := by
  cases f <;> exact ⟨rfl, by decide, fun _ => rfl, rfl⟩
theorem iabs (c : Common) (f : RRR) : Statement (.iabs c f) :=
  ⟨rfl, by decide, fun _ => rfl, rfl⟩
theorem logt (c : Common) (f : RRR) : Statement (.logt c f) :=
  ⟨rfl, by decide, fun _ => rfl, rfl⟩
theorem shl (c : Common) (f : Arith) : Statement (.shl c f) := by
  cases f <;> exact ⟨rfl, by decide, fun _ => rfl, rfl⟩
theorem shr (c : Common) (f : Arith) : Statement (.shr c f) := by
  cases f <;> exact ⟨rfl, by decide, fun _ => rfl, rfl⟩
theorem shp (c : Common) (f : RRR) : Statement (.shp c f) :=
  ⟨rfl, by decide, fun _ => rfl, rfl⟩
theorem popc (c : Common) (f : RRR) : Statement (.popc c f) :=
  ⟨rfl, by decide, fun _ => rfl, rfl⟩
theorem clz (c : Common) (f : RRR) : Statement (.clz c f) :=
  ⟨rfl, by decide, fun _ => rfl, rfl⟩
theorem brev (c : Common) (f : RRR) : Statement (.brev c f) :=
  ⟨rfl, by decide, fun _ => rfl, rfl⟩
theorem bfe (c : Common) (f : RRR) : Statement (.bfe c f) :=
  ⟨rfl, by decide, fun _ => rfl, rfl⟩
theorem bfi (c : Common) (f : RRR) : Statement (.bfi c f) :=
  ⟨rfl, by decide, fun _ => rfl, rfl⟩
theorem isetp (c : Common) (f : Arith) : Statement (.isetp c f) := by
  cases f <;> exact ⟨rfl, by decide, fun _ => rfl, rfl⟩
theorem sel (c : Common) (f : RRR) : Statement (.sel c f) :=
  ⟨rfl, by decide, fun _ => rfl, rfl⟩
theorem lea (c : Common) (f : RRR) : Statement (.lea c f) :=
  ⟨rfl, by decide, fun _ => rfl, rfl⟩
theorem plogt (c : Common) (f : RRR) : Statement (.plogt c f) :=
  ⟨rfl, by decide, fun _ => rfl, rfl⟩
theorem fadd (c : Common) (f : Arith) : Statement (.fadd c f) := by
  cases f <;> exact ⟨rfl, by decide, fun _ => rfl, rfl⟩
theorem fmul (c : Common) (f : Arith) : Statement (.fmul c f) := by
  cases f <;> exact ⟨rfl, by decide, fun _ => rfl, rfl⟩
theorem ffma (c : Common) (f : RRR) : Statement (.ffma c f) :=
  ⟨rfl, by decide, fun _ => rfl, rfl⟩
theorem fmin (c : Common) (f : Arith) : Statement (.fmin c f) := by
  cases f <;> exact ⟨rfl, by decide, fun _ => rfl, rfl⟩
theorem fmax (c : Common) (f : Arith) : Statement (.fmax c f) := by
  cases f <;> exact ⟨rfl, by decide, fun _ => rfl, rfl⟩
theorem fsetp (c : Common) (f : Arith) : Statement (.fsetp c f) := by
  cases f <;> exact ⟨rfl, by decide, fun _ => rfl, rfl⟩
theorem fdiv (c : Common) (f : RRR) : Statement (.fdiv c f) :=
  ⟨rfl, by decide, fun _ => rfl, rfl⟩
theorem fsqrt (c : Common) (f : RRR) : Statement (.fsqrt c f) :=
  ⟨rfl, by decide, fun _ => rfl, rfl⟩
theorem frcp (c : Common) (f : RRR) : Statement (.frcp c f) :=
  ⟨rfl, by decide, fun _ => rfl, rfl⟩
theorem frsq (c : Common) (f : RRR) : Statement (.frsq c f) :=
  ⟨rfl, by decide, fun _ => rfl, rfl⟩
theorem fex2 (c : Common) (f : RRR) : Statement (.fex2 c f) :=
  ⟨rfl, by decide, fun _ => rfl, rfl⟩
theorem flg2 (c : Common) (f : RRR) : Statement (.flg2 c f) :=
  ⟨rfl, by decide, fun _ => rfl, rfl⟩
theorem fsin (c : Common) (f : RRR) : Statement (.fsin c f) :=
  ⟨rfl, by decide, fun _ => rfl, rfl⟩
theorem fcos (c : Common) (f : RRR) : Statement (.fcos c f) :=
  ⟨rfl, by decide, fun _ => rfl, rfl⟩
theorem ftanh (c : Common) (f : RRR) : Statement (.ftanh c f) :=
  ⟨rfl, by decide, fun _ => rfl, rfl⟩
theorem ferf (c : Common) (f : RRR) : Statement (.ferf c f) :=
  ⟨rfl, by decide, fun _ => rfl, rfl⟩
theorem fclass (c : Common) (f : RRR) : Statement (.fclass c f) :=
  ⟨rfl, by decide, fun _ => rfl, rfl⟩
theorem fscale (c : Common) (f : RRR) : Statement (.fscale c f) :=
  ⟨rfl, by decide, fun _ => rfl, rfl⟩
theorem cvt (c : Common) (f : RRR) : Statement (.cvt c f) :=
  ⟨rfl, by decide, fun _ => rfl, rfl⟩
theorem qnt (c : Common) (f : RRR) : Statement (.qnt c f) :=
  ⟨rfl, by decide, fun _ => rfl, rfl⟩
theorem dqt (c : Common) (f : RRR) : Statement (.dqt c f) :=
  ⟨rfl, by decide, fun _ => rfl, rfl⟩
theorem bsel (c : Common) (f : RRR) : Statement (.bsel c f) :=
  ⟨rfl, by decide, fun _ => rfl, rfl⟩
theorem pack (c : Common) (f : RRR) : Statement (.pack c f) :=
  ⟨rfl, by decide, fun _ => rfl, rfl⟩
theorem fdp4 (c : Common) (f : RRR) : Statement (.fdp4 c f) :=
  ⟨rfl, by decide, fun _ => rfl, rfl⟩
theorem fdp8 (c : Common) (f : RRR) : Statement (.fdp8 c f) :=
  ⟨rfl, by decide, fun _ => rfl, rfl⟩
theorem idp4 (c : Common) (f : RRR) : Statement (.idp4 c f) :=
  ⟨rfl, by decide, fun _ => rfl, rfl⟩
theorem idp8 (c : Common) (f : RRR) : Statement (.idp8 c f) :=
  ⟨rfl, by decide, fun _ => rfl, rfl⟩
theorem mov (c : Common) (f : RRR) : Statement (.mov c f) :=
  ⟨rfl, by decide, fun _ => rfl, rfl⟩
theorem movi (c : Common) (f : RI) : Statement (.movi c f) :=
  ⟨rfl, by decide, fun _ => rfl, rfl⟩
theorem rdsr (c : Common) (f : FS) : Statement (.rdsr c f) :=
  ⟨rfl, by decide, fun _ => rfl, rfl⟩
theorem wrsr (c : Common) (f : FS) : Statement (.wrsr c f) :=
  ⟨rfl, by decide, fun _ => rfl, rfl⟩
theorem ld (c : Common) (f : FM) : Statement (.ld c f) :=
  ⟨rfl, by decide, fun _ => rfl, rfl⟩
theorem st (c : Common) (f : FM) : Statement (.st c f) :=
  ⟨rfl, by decide, fun _ => rfl, rfl⟩
theorem atom (c : Common) (f : FM) : Statement (.atom c f) :=
  ⟨rfl, by decide, fun _ => rfl, rfl⟩
theorem atomcas (c : Common) (f : FM) : Statement (.atomcas c f) :=
  ⟨rfl, by decide, fun _ => rfl, rfl⟩
theorem red (c : Common) (f : FM) : Statement (.red c f) :=
  ⟨rfl, by decide, fun _ => rfl, rfl⟩
theorem ldk (c : Common) (f : FM) : Statement (.ldk c f) :=
  ⟨rfl, by decide, fun _ => rfl, rfl⟩
theorem stk (c : Common) (f : FM) : Statement (.stk c f) :=
  ⟨rfl, by decide, fun _ => rfl, rfl⟩
theorem bnarrow (c : Common) (f : FM) : Statement (.bnarrow c f) :=
  ⟨rfl, by decide, fun _ => rfl, rfl⟩
theorem badv (c : Common) (f : FM) : Statement (.badv c f) :=
  ⟨rfl, by decide, fun _ => rfl, rfl⟩
theorem bget (c : Common) (f : FM) : Statement (.bget c f) :=
  ⟨rfl, by decide, fun _ => rfl, rfl⟩
theorem wmap (c : Common) (f : FM) : Statement (.wmap c f) :=
  ⟨rfl, by decide, fun _ => rfl, rfl⟩
theorem wunmap (c : Common) (f : FM) : Statement (.wunmap c f) :=
  ⟨rfl, by decide, fun _ => rfl, rfl⟩
theorem wflush (c : Common) (f : FM) : Statement (.wflush c f) :=
  ⟨rfl, by decide, fun _ => rfl, rfl⟩
theorem fence (c : Common) (f : FS) : Statement (.fence c f) :=
  ⟨rfl, by decide, fun _ => rfl, rfl⟩
theorem bar (c : Common) (f : FM) : Statement (.bar c f) :=
  ⟨rfl, by decide, fun _ => rfl, rfl⟩
theorem gbar (c : Common) (f : FM) : Statement (.gbar c f) :=
  ⟨rfl, by decide, fun _ => rfl, rfl⟩
theorem cinit (c : Common) (f : FS) : Statement (.cinit c f) :=
  ⟨rfl, by decide, fun _ => rfl, rfl⟩
theorem waitf (c : Common) (f : FS) : Statement (.waitf c f) :=
  ⟨rfl, by decide, fun _ => rfl, rfl⟩
theorem wprd (c : Common) (f : FM) : Statement (.wprd c f) :=
  ⟨rfl, by decide, fun _ => rfl, rfl⟩
theorem wpwait (c : Common) (f : FM) : Statement (.wpwait c f) :=
  ⟨rfl, by decide, fun _ => rfl, rfl⟩
theorem drain (c : Common) (f : FS) : Statement (.drain c f) :=
  ⟨rfl, by decide, fun _ => rfl, rfl⟩
theorem acq (c : Common) (f : FS) : Statement (.acq c f) := by
  refine ⟨rfl, by decide, fun h => ?_, rfl⟩
  simp only [Instr.wf, Bool.and_eq_true] at h
  simp_all [Instr.ofView]
theorem acqTry (c : Common) (f : FS) : Statement (.acqTry c f) := by
  refine ⟨rfl, by decide, fun h => ?_, rfl⟩
  simp only [Instr.wf, Bool.and_eq_true] at h
  simp_all [Instr.ofView]
theorem rel (c : Common) (f : FS) : Statement (.rel c f) :=
  ⟨rfl, by decide, fun _ => rfl, rfl⟩
theorem claimrd (c : Common) (f : FS) : Statement (.claimrd c f) :=
  ⟨rfl, by decide, fun _ => rfl, rfl⟩
theorem push (c : Common) (f : FS) : Statement (.push c f) :=
  ⟨rfl, by decide, fun _ => rfl, rfl⟩
theorem cpst (c : Common) (f : FS) : Statement (.cpst c f) :=
  ⟨rfl, by decide, fun _ => rfl, rfl⟩
theorem bndmin (c : Common) (f : FS) : Statement (.bndmin c f) :=
  ⟨rfl, by decide, fun _ => rfl, rfl⟩
theorem bndrd (c : Common) (f : FS) : Statement (.bndrd c f) :=
  ⟨rfl, by decide, fun _ => rfl, rfl⟩
theorem dqpush (c : Common) (f : FM) : Statement (.dqpush c f) :=
  ⟨rfl, by decide, fun _ => rfl, rfl⟩
theorem dqpop (c : Common) (f : FM) : Statement (.dqpop c f) :=
  ⟨rfl, by decide, fun _ => rfl, rfl⟩
theorem dqsteal (c : Common) (f : FM) : Statement (.dqsteal c f) :=
  ⟨rfl, by decide, fun _ => rfl, rfl⟩
theorem dqinit (c : Common) (f : FM) : Statement (.dqinit c f) :=
  ⟨rfl, by decide, fun _ => rfl, rfl⟩
theorem mma (c : Common) (f : FX) : Statement (.mma c f) :=
  ⟨rfl, by decide, fun _ => rfl, rfl⟩
theorem zclr (c : Common) (f : FX) : Statement (.zclr c f) :=
  ⟨rfl, by decide, fun _ => rfl, rfl⟩
theorem zmov (c : Common) (f : FX) : Statement (.zmov c f) :=
  ⟨rfl, by decide, fun _ => rfl, rfl⟩
theorem zst (c : Common) (f : FX) : Statement (.zst c f) :=
  ⟨rfl, by decide, fun _ => rfl, rfl⟩
theorem zld (c : Common) (f : FX) : Statement (.zld c f) :=
  ⟨rfl, by decide, fun _ => rfl, rfl⟩
theorem att (c : Common) (f : FX) : Statement (.att c f) :=
  ⟨rfl, by decide, fun _ => rfl, rfl⟩
theorem attfin (c : Common) (f : FX) : Statement (.attfin c f) :=
  ⟨rfl, by decide, fun _ => rfl, rfl⟩
theorem mset (c : Common) (f : FK) : Statement (.mset c f) :=
  ⟨rfl, by decide, fun _ => rfl, rfl⟩
theorem mld (c : Common) (f : FK) : Statement (.mld c f) :=
  ⟨rfl, by decide, fun _ => rfl, rfl⟩
theorem mst (c : Common) (f : FK) : Statement (.mst c f) :=
  ⟨rfl, by decide, fun _ => rfl, rfl⟩
theorem mmov (c : Common) (f : FK) : Statement (.mmov c f) :=
  ⟨rfl, by decide, fun _ => rfl, rfl⟩
theorem madd (c : Common) (f : FK) : Statement (.madd c f) :=
  ⟨rfl, by decide, fun _ => rfl, rfl⟩
theorem msub (c : Common) (f : FK) : Statement (.msub c f) :=
  ⟨rfl, by decide, fun _ => rfl, rfl⟩
theorem mmul (c : Common) (f : FK) : Statement (.mmul c f) :=
  ⟨rfl, by decide, fun _ => rfl, rfl⟩
theorem mscl (c : Common) (f : FK) : Statement (.mscl c f) :=
  ⟨rfl, by decide, fun _ => rfl, rfl⟩
theorem mfma (c : Common) (f : FK) : Statement (.mfma c f) :=
  ⟨rfl, by decide, fun _ => rfl, rfl⟩
theorem mrelu (c : Common) (f : FK) : Statement (.mrelu c f) :=
  ⟨rfl, by decide, fun _ => rfl, rfl⟩
theorem msigm (c : Common) (f : FK) : Statement (.msigm c f) :=
  ⟨rfl, by decide, fun _ => rfl, rfl⟩
theorem mexp (c : Common) (f : FK) : Statement (.mexp c f) :=
  ⟨rfl, by decide, fun _ => rfl, rfl⟩
theorem mmax (c : Common) (f : FK) : Statement (.mmax c f) :=
  ⟨rfl, by decide, fun _ => rfl, rfl⟩
theorem mmin (c : Common) (f : FK) : Statement (.mmin c f) :=
  ⟨rfl, by decide, fun _ => rfl, rfl⟩
theorem mplt (c : Common) (f : FK) : Statement (.mplt c f) :=
  ⟨rfl, by decide, fun _ => rfl, rfl⟩
theorem mcol (c : Common) (f : FK) : Statement (.mcol c f) :=
  ⟨rfl, by decide, fun _ => rfl, rfl⟩
theorem mred (c : Common) (f : FK) : Statement (.mred c f) :=
  ⟨rfl, by decide, fun _ => rfl, rfl⟩
theorem mshfl (c : Common) (f : FK) : Statement (.mshfl c f) :=
  ⟨rfl, by decide, fun _ => rfl, rfl⟩
theorem mmom (c : Common) (f : FX) : Statement (.mmom c f) :=
  ⟨rfl, by decide, fun _ => rfl, rfl⟩
theorem hnew (c : Common) (f : FH) : Statement (.hnew c f) :=
  ⟨rfl, by decide, fun _ => rfl, rfl⟩
theorem hld (c : Common) (f : FH) : Statement (.hld c f) :=
  ⟨rfl, by decide, fun _ => rfl, rfl⟩
theorem hst (c : Common) (f : FH) : Statement (.hst c f) :=
  ⟨rfl, by decide, fun _ => rfl, rfl⟩
theorem hatom (c : Common) (f : FH) : Statement (.hatom c f) :=
  ⟨rfl, by decide, fun _ => rfl, rfl⟩
theorem hldr (c : Common) (f : FH) : Statement (.hldr c f) :=
  ⟨rfl, by decide, fun _ => rfl, rfl⟩
theorem hstr (c : Common) (f : FH) : Statement (.hstr c f) :=
  ⟨rfl, by decide, fun _ => rfl, rfl⟩
theorem hmov (c : Common) (f : FH) : Statement (.hmov c f) :=
  ⟨rfl, by decide, fun _ => rfl, rfl⟩
theorem hcmp (c : Common) (f : FH) : Statement (.hcmp c f) :=
  ⟨rfl, by decide, fun _ => rfl, rfl⟩
theorem hhdr (c : Common) (f : FH) : Statement (.hhdr c f) :=
  ⟨rfl, by decide, fun _ => rfl, rfl⟩
theorem hpin (c : Common) (f : FH) : Statement (.hpin c f) :=
  ⟨rfl, by decide, fun _ => rfl, rfl⟩
theorem hunpin (c : Common) (f : FH) : Statement (.hunpin c f) :=
  ⟨rfl, by decide, fun _ => rfl, rfl⟩
theorem hflipMark (c : Common) (f : FH) : Statement (.hflipMark c f) := by
  refine ⟨rfl, by decide, fun h => ?_, rfl⟩
  simp only [Instr.wf, Bool.and_eq_true] at h
  simp_all [Instr.ofView]
theorem hflipConf (c : Common) (f : FH) : Statement (.hflipConf c f) := by
  refine ⟨rfl, by decide, fun h => ?_, rfl⟩
  simp only [Instr.wf, Bool.and_eq_true] at h
  simp_all [Instr.ofView]
theorem hcas (c : Common) (f : FH) : Statement (.hcas c f) :=
  ⟨rfl, by decide, fun _ => rfl, rfl⟩
theorem rte (c : Common) (f : FS) : Statement (.rte c f) :=
  ⟨rfl, by decide, fun _ => rfl, rfl⟩
theorem prd (c : Common) (f : FS) : Statement (.prd c f) :=
  ⟨rfl, by decide, fun _ => rfl, rfl⟩
theorem pwr (c : Common) (f : FS) : Statement (.pwr c f) :=
  ⟨rfl, by decide, fun _ => rfl, rfl⟩
theorem invmark (c : Common) (f : FS) : Statement (.invmark c f) :=
  ⟨rfl, by decide, fun _ => rfl, rfl⟩
theorem invconf (c : Common) (f : FS) : Statement (.invconf c f) :=
  ⟨rfl, by decide, fun _ => rfl, rfl⟩
theorem errrd (c : Common) (f : FS) : Statement (.errrd c f) :=
  ⟨rfl, by decide, fun _ => rfl, rfl⟩
theorem lineFetch (warp : Nat) : Statement (.lineFetch warp) := rfl
theorem entryAged (warp : Nat) : Statement (.entryAged warp) := rfl
theorem yieldExpiry (warp : Nat) : Statement (.yieldExpiry warp) := rfl
theorem arbiterRequestTest (cluster : Nat) : Statement (.arbiterRequestTest cluster) := rfl
theorem arbiterRelease (cluster : Nat) : Statement (.arbiterRelease cluster) := rfl
theorem gangAdmission (slice : Nat) : Statement (.gangAdmission slice) := rfl
theorem concurrentAdmission (slice : Nat) : Statement (.concurrentAdmission slice) := rfl
theorem blockDispatch (cluster : Nat) : Statement (.blockDispatch cluster) := rfl
theorem windowFill (cluster : Nat) : Statement (.windowFill cluster) := rfl
theorem wflushCompletion (op : Nat) : Statement (.wflushCompletion op) := rfl
theorem copyBeatDelivery (chan : Nat) : Statement (.copyBeatDelivery chan) := rfl
theorem copyCommandCompletion (chan : Nat) : Statement (.copyCommandCompletion chan) := rfl
theorem mmaCompletion (op : Nat) : Statement (.mmaCompletion op) := rfl
theorem mmomCompletion (op : Nat) : Statement (.mmomCompletion op) := rfl
theorem zldCompletion (op : Nat) : Statement (.zldCompletion op) := rfl
theorem zstCompletion (op : Nat) : Statement (.zstCompletion op) := rfl
theorem attCompletion (op : Nat) : Statement (.attCompletion op) := rfl
theorem attfinCompletion (op : Nat) : Statement (.attfinCompletion op) := rfl
theorem writeDrained (warp : Nat) : Statement (.writeDrained warp) := rfl
theorem dequeStampMet (warp : Nat) : Statement (.dequeStampMet warp) := rfl
theorem boundShadowUpdate (gang core n : Nat) : Statement (.boundShadowUpdate gang core n) := rfl
theorem jointerObjectCopy (ctx region : Nat) : Statement (.jointerObjectCopy ctx region) := rfl
theorem healSweep (ctx region : Nat) : Statement (.healSweep ctx region) := rfl
theorem jointerFree : Statement (.jointerFree) := rfl
theorem sanderOverwrite : Statement (.sanderOverwrite) := rfl
theorem launchValidation : Statement (.launchValidation) := rfl
theorem hostnoteWrite (cluster : Nat) : Statement (.hostnoteWrite cluster) := rfl
theorem lrtailDoorbell (fn : Nat) (val : BitVec 32) : Statement (.lrtailDoorbell fn val) := rfl
theorem launchEntryRead (fn : Nat) : Statement (.launchEntryRead fn) := rfl
theorem completionEntryWrite (fn : Nat) : Statement (.completionEntryWrite fn) := rfl
theorem ringHeadWrite (fn off : Nat) (val : BitVec 32) : Statement (.ringHeadWrite fn off val) := rfl
theorem registerWrite (fn bar off : Nat) (val : BitVec 64) : Statement (.registerWrite fn bar off val) := rfl
theorem pageRequestWrite (fn : Nat) : Statement (.pageRequestWrite fn) := rfl
theorem pageRequestReply (fn : Nat) (val : BitVec 32) : Statement (.pageRequestReply fn val) := rfl
theorem replayRewalk (ctx page : Nat) : Statement (.replayRewalk ctx page) := rfl
theorem invMarkCommand (val : BitVec 32) : Statement (.invMarkCommand val) := rfl
theorem invConfirmCommand (val : BitVec 32) : Statement (.invConfirmCommand val) := rfl
theorem invalidationDone : Statement (.invalidationDone) := rfl
theorem contextSave (val : BitVec 32) : Statement (.contextSave val) := rfl
theorem contextSaveComplete (ctx : Nat) : Statement (.contextSaveComplete ctx) := rfl
theorem contextRestore (val : BitVec 32) : Statement (.contextRestore val) := rfl
theorem gangReadmission (gang : Nat) : Statement (.gangReadmission gang) := rfl
theorem functionLevelReset (fn : Nat) : Statement (.functionLevelReset fn) := rfl
theorem fundamentalReset : Statement (.fundamentalReset) := rfl
theorem powerGood : Statement (.powerGood) := rfl
theorem enterSafe (selfTestFail : Option Nat) : Statement (.enterSafe selfTestFail) := rfl
theorem firmwareAuthentication (image : Nat) (signature : Nat) : Statement (.firmwareAuthentication image signature) := rfl
theorem enterTrained (hbmFail plinthFail : Option Nat) (remap : RemapTable) (cxlUp waleUp : Nat) : Statement (.enterTrained hbmFail plinthFail remap cxlUp waleUp) := rfl
theorem enterFull : Statement (.enterFull) := rfl
theorem plinthConfigCommit (val : BitVec 32) : Statement (.plinthConfigCommit val) := rfl
theorem sliceDescriptorWrite (slice : Nat) (val : BitVec 256) : Statement (.sliceDescriptorWrite slice val) := rfl
theorem retireCluster (val : BitVec 32) : Statement (.retireCluster val) := rfl
theorem retireMemoryChannel (val : BitVec 32) : Statement (.retireMemoryChannel val) := rfl
theorem keySlotLoad (val : BitVec 32) : Statement (.keySlotLoad val) := rfl
theorem keySlotZeroise (val : BitVec 32) : Statement (.keySlotZeroise val) := rfl
theorem transportKeyInstall (val : BitVec 32) : Statement (.transportKeyInstall val) := rfl
theorem attestationRequest (val : BitVec 32) : Statement (.attestationRequest val) := rfl
theorem teardown (val : BitVec 32) : Statement (.teardown val) := rfl
theorem scrubComplete : Statement (.scrubComplete) := rfl
theorem dlrdWrite (val : BitVec 32) : Statement (.dlrdWrite val) := rfl
theorem dlovfWrite (val : BitVec 32) : Statement (.dlovfWrite val) := rfl
theorem passCountChange (cluster count : Nat) : Statement (.passCountChange cluster count) := rfl
theorem supplySag (chiplet : Nat) : Statement (.supplySag chiplet) := rfl
theorem supplyRecovery (chiplet : Nat) : Statement (.supplyRecovery chiplet) := rfl
theorem coolantReport (medium : Coolant) (inletTenths flowTenths : Nat) : Statement (.coolantReport medium inletTenths flowTenths) := rfl
theorem coolantReportTimeout : Statement (.coolantReportTimeout) := rfl
theorem thermalTrip (chiplet : Nat) : Statement (.thermalTrip chiplet) := rfl
theorem timingErrorReplay (core quadrant : Nat) : Statement (.timingErrorReplay core quadrant) := rfl
theorem correctableError (site : ErrSite) : Statement (.correctableError site) := rfl
theorem uncorrectableError (site : ErrSite) : Statement (.uncorrectableError site) := rfl
theorem gatingRequest (cluster : Nat) : Statement (.gatingRequest cluster) := rfl
theorem gatingCommit (cluster : Nat) : Statement (.gatingCommit cluster) := rfl
theorem clusterWake (cluster : Nat) : Statement (.clusterWake cluster) := rfl
theorem peerAccess (link ctx addr len : Nat) (write : Option (List (BitVec 8))) : Statement (.peerAccess link ctx addr len write) := rfl
theorem peerResponse (chan : Nat) (elem : PeerKey) (answer : PeerAnswer) : Statement (.peerResponse chan elem answer) := rfl
theorem peerTimeout (chan : Nat) (elem : PeerKey) : Statement (.peerTimeout chan elem) := rfl
theorem chipletReset (chiplet : Nat) : Statement (.chipletReset chiplet) := rfl

end Sys2Proof.Laws.View
end

