-- ==== Sys2Proof/Machine/HostView.lean ====
section
/-! DEFINITION. What the host reads: the register spaces of BAR 0 and BAR 2 and the capability list (R314, R325, R329, R335,
R349, R351, R352, R354, R356, R360, R364 to R368, R377).  A read changes nothing. -/

namespace Sys2Proof.Machine

/-- A bit of a status register. -/
def flagBit (b : Bool) (n : Nat) : Nat := if b then 2 ^ n else 0

/-- The stage register (R349), of which each virtual function reads a copy. -/
def Dev.stageWord (d : Dev) : Nat :=
  d.stage + flagBit d.fail 3 + d.fcode.toNat * 2 ^ 8 + d.funit.toNat * 2 ^ 16 + d.fchip.toNat * 2 ^ 20

/-- A register of the 0x0100 block (R314, R329, R354); an offset not listed reads 0, and a register that is only written has
no value that the spec states (log entry 72). -/
def Fn.read (f : Fn) (off : Nat) : Option Nat :=
  match off with
  | 0x100 => some f.lrbase.toNat
  | 0x108 => some f.lrlog
  | 0x10C => some f.lrtail.toNat
  | 0x110 => some f.lrhead.toNat
  | 0x118 => some f.crbase.toNat
  | 0x120 => some f.crtail.toNat
  | 0x124 => some f.crhead.toNat
  | 0x140 => some f.prbase.toNat
  | 0x148 => some f.prlog
  | 0x14C => some f.prtail.toNat
  | 0x150 => some f.prhead.toNat
  | 0x158 => none
  | 0x160 => some f.nrbase.toNat
  | 0x168 => some f.nrlog
  | 0x16C => some f.nrtail.toNat
  | 0x170 => some f.nrhead.toNat
  | _ => some 0

/-- A register of the invalidation, pre-emption and Wale blocks (R325, R335, R356). -/
def Dev.read0 (d : Dev) (off : Nat) : Option Nat :=
  match off with
  | 0x200 => some d.invva.toNat
  | 0x208 => some d.invcnt.toNat
  | 0x20C => none
  | 0x210 => some (flagBit d.invBusy 0 + flagBit d.invErr 1)
  | 0x300 => none
  | 0x304 => some (flagBit d.ctxBusy 0 + flagBit d.ctxErr 1 + flagBit d.ctxAbandoned 2)
  | 0x308 => some d.ctxtab.toNat
  | 0x400 => some d.wbind.toNat
  | 0x408 => some d.wtmo.toNat
  | 0x40C => some d.wlink.toNat
  | _ => some 0

/-- A register of BAR 2 (R351, R360, R364 to R368, R377): a command that ends within its step is never seen busy. -/
def State.read2 (s : State) (off : Nat) : Option Nat :=
  let d := s.dev
  let k := s.scrubs.headD { ctx := 0, fn := 0, cores := [], pages := [], spans := [] }
  if off < 0x100 then
    some (if off % 8 == 0 then bits (tget 0 d.slices (off / 32)).toNat (64 * (off / 8 % 4)) 64 else 0)
  else
    match off with
    | 0x100 => some (flagBit d.sliceErr 0 + d.ecode.toNat * 2 ^ 4)
    | 0x120 => none
    | 0x124 => some (flagBit d.retErr 1 + flagBit d.retBelow 2)
    | 0x200 => some d.ksaddr.toNat
    | 0x208 => none
    | 0x20C => some (flagBit d.ksErr 1)
    | 0x220 => some d.atnonce.toNat
    | 0x228 => some d.atout.toNat
    | 0x230 => none
    | 0x234 => some (flagBit d.atErr 1)
    | 0x240 => some d.tdlist.toNat
    | 0x248 => some d.tdcnt.toNat
    | 0x24C => none
    | 0x250 => some k.progress.toNat
    | 0x258 => some k.total.toNat
    | 0x260 => some (flagBit (!s.scrubs.isEmpty) 0 + flagBit d.tdDone 1 + flagBit d.tdErr 2 + d.tdDoneCtx * 2 ^ 16)
    | 0x280 => some (d.scru + d.spillm * 2 ^ 8)
    | 0x284 => some d.pcfgNext.toNat
    | 0x288 => some (flagBit d.pcfgErr 1)
    | 0x300 => some d.dlbase.toNat
    | 0x308 => some d.dlwr.toNat
    | 0x30C => some d.dlrd.toNat
    | 0x310 => some d.dlovf.toNat
    | _ => some 0

/-- What the host reads at an offset of a function's BAR (R349, R354): before FULL every register but the stage register
reads 0; after a trip registers read as they stood (R373). -/
def State.hostRead (s : State) (fn bar off : Nat) : Option Nat :=
  if bar == 0 && off == 0 then some (if fn < 64 then s.dev.stageWord else 0)
  else if s.dev.stage != 3 || 64 ≤ fn then some 0
  else if bar == 0 then
    if off / 256 == 1 then (s.fn fn).read off else if fn == 0 then s.dev.read0 off else some 0
  else if bar == 2 && fn == 0 then s.read2 off
  else some 0

/-! ### The capability list (R352) -/

/-- Words of a capability entry, its header included. -/
def capLen (id : Nat) : Nat := if id == 9 then 3 else 2

/-- The configuration-space offset of an entry; they follow one another in ID order from 0x400. -/
def capAt (id : Nat) : Nat := 0x400 + 16 * (id - 1) + (if 9 < id then 8 else 0)

/-- The header of an entry. -/
def capHeader (id : Nat) : Nat :=
  id + 2 ^ 16 + capLen id * 2 ^ 24 + (if id == 14 then 0 else capAt (id + 1)) * 2 ^ 32

/-- A body word of an entry; HBM is reported without its retired channels (R364; log entry 72). -/
def State.capBody (s : State) (id word : Nat) : Nat :=
  let d := s.dev
  match id, word with
  | 1, 1 => 368 + 46 * 2 ^ 16 + 4 * 2 ^ 24 + 1300 * 2 ^ 32 + 2 ^ 48
  | 2, 1 => 128 + 128 * 2 ^ 8 + 130 * 2 ^ 16
  | 3, 1 => 64
  | 4, 1 => 16 + 255 * 2 ^ 8
  | 5, 1 => 0xFF
  | 6, 1 => 128
  | 7, 1 => 15
  | 8, 1 => 3
  | 9, 1 => (512 - 4 * d.retiredChans.length) + 1536 * 2 ^ 16 + s.tier2 * 2 ^ 32
  | 9, 2 => d.cxlUp.toNat + d.scru * 2 ^ 8 + d.spillm * 2 ^ 16
  | 10, 1 =>
    let l := s.validSlices 8 0
    l.length + (l.foldl (fun t (_, y) => t + (maskClusters (bits y 0 48)).length) 0) * 2 ^ 8
  | 11, 1 => 63
  | 12, 1 => d.wlink.toNat + 200 * 2 ^ 16
  | 13, 1 => d.cooltab
  | 14, 1 => 64 + 2 ^ 8
  | _, _ => 0

/-- The 8-byte word of configuration space at an offset of the capability list: headers from SAFE onwards, bodies from
TRAINED onwards. -/
def State.capWord (s : State) (off : Nat) : Nat :=
  match (List.range 15).find? fun id => 1 ≤ id && capAt id ≤ off && off < capAt id + 8 * capLen id with
  | none => 0
  | some id =>
    if off == capAt id then (if s.dev.stage == 0 then 0 else capHeader id)
    else if s.dev.stage < 2 then 0
    else s.capBody id ((off - capAt id) / 8)

end Sys2Proof.Machine
end

