-- ==== Sys2Proof/Tests/Slice0.lean ====
section
/-! SUPPORT. The model's own tests: ill-formed instructions that the checks refuse, words written out from the spec's
encodings (files 11 to 14), small steps with the results the spec works out, and for each obligation states and operands
that meet its hypotheses. -/

open Sys2Proof Sys2Proof.Machine

namespace Sys2Proof.Tests

set_option Elab.async false

/-- Common fields. -/
def cc (g : Guard) (fs : FlagSel) (u : Bool) : Common := { grd := g, fs := fs, u := u }
/-- Per thread, for every lane. -/
def ct : Common := cc .always .none false
/-- Uniform, for every lane. -/
def cu : Common := cc .always .none true
/-- Guarded by `p0`, which is false in every lane of the states below. -/
def cn : Common := cc (.pred false 0) .none false
/-- Uniform, with no participating lane. -/
def cnu : Common := cc (.pred false 0) .none true
/-- Uniform, under the flag that `SETA` names (f0 below). -/
def ca : Common := cc .always .setA true
/-- Per thread, under that flag. -/
def cat : Common := cc .always .setA false

/-- One warp of 32 live threads in the one block of a running grid, at slot 0 of an entered line. -/
def base : State := { State.reset.withWord 96 0 with agenda := [] }
/-- The entry that warp issues for, with every lane participating. -/
def x0 : Ix := { w := 0, cp := 0, ent := allLanes, lanes := allLanes }
/-- The same with no lane participating. -/
def xn : Ix := { x0 with lanes := [] }
/-- A state made from `base` by changing its warp. -/
def withW (f : Warp → Warp) : State := base.modWarp 0 f
/-- A grid with bits of its launch record set (R311). -/
def recBits (g : Grid) (l : List (Nat × Nat)) : Grid :=
  { g with lr := l.foldl (fun r (lo, v) => r ||| (BitVec.ofNat 2048 v <<< lo)) g.lr }
/-- Every virtual address of context 0 stands for the same physical address, on every chiplet. -/
def mapped (s : State) : State :=
  { s with tlb := (List.range 4).map fun k => { chip := k, ctx := 0, va := 0, size := 2 ^ 48, pa := 0, w := true } }
/-- The physical bytes `l` beside what a state holds. -/
def withMem (s : State) (l : List (Nat × Byte)) : State := { s with mem := wrList s.mem l }

/-- `Ready`, decided. -/
def readyB (s : State) (i : Instr) (x : Ix) : Bool :=
  decide (s.pick s.cur i.common.grd = some x) && s.mayIssue s.cur &&
    (((s.warp x.w).entry x.cp).waited || lwWait (lineWord ((s.warp x.w).entry x.cp).line) == 0) &&
    !s.awaits x i && (s.genericFault false x i).isNone

theorem ready {s : State} {i : Instr} {x : Ix} (h : readyB s i x = true) : Ready s i x := by
  simp only [readyB, Bool.and_eq_true, Bool.or_eq_true, beq_iff_eq, decide_eq_true_eq, Option.isNone_iff_eq_none,
    Bool.not_eq_true'] at h
  exact ⟨h.1.1.1.1, h.1.1.1.2, h.1.1.2, h.1.2, h.2⟩

theorem allReady {s : State} {l : List Instr} {x : Ix} (h : (l.all fun i => readyB s i x) = true) :
    ∀ i ∈ l, Ready s i x := fun i hi => ready (List.all_eq_true.mp h i hi)

/-- Fields of format RRR on `v1` to `v4`. -/
def rr (ty : Ty) (mod : BitVec 8 := 0) (c : Opd := .zero) (pd : BitVec 3 := 7) : RRR :=
  { d := .v 2, a := .v 4, b := .v 6, c := c, ty := ty, mod := mod, pd := pd }
/-- Fields of format RI. -/
def ri (ty : Ty) (imm : BitVec 32) (mod : BitVec 8 := 0) (pd : BitVec 3 := 7) : RI :=
  { d := .v 2, a := .v 4, imm := imm, ty := ty, mod := mod, pd := pd }
/-- Fields of format S. -/
def fs (d a : Opd) (imm : BitVec 24 := 0) (mod : BitVec 8 := 0) (pd : BitVec 3 := 7) : FS :=
  { d := d, a := a, imm := imm, mod := mod, pd := pd }
/-- Fields of format BR. -/
def fb (a : Opd := .zero) (slot : BitVec 3 := 0) (loff : BitVec 24 := 0) : BR :=
  { loff := loff, slot := slot, prio := 0, a := a, mod := 0 }
/-- Fields of format M. -/
def fm (r : Opd) (bx : BitVec 4) (ty : Ty) (mod : BitVec 8 := 0) (idx c : Opd := .zero) (off : BitVec 24 := 0)
    (pd : BitVec 3 := 7) : FM :=
  { r := r, bx := bx, idx := idx, off := off, ty := ty, mod := mod, c := c, pd := pd }


theorem test_words_control :
  decode 0x004C00000000005000000000 =
    .ok (.nop (cc (.pred false 3) .none false) { loff := 0, slot := 0, prio := 0, a := .zero, mod := 0 }) ∧
  decode 0x00B02000006400D000000000 =
    .ok (.bra (cc (.pred true 4) .none false) { loff := 8388609, slot := 4, prio := 2049, a := .zero, mod := 0 }) ∧
  decode 0x00DC00000000003200000000 =
    .ok (.brx (cc .always .none false) { loff := 0, slot := 0, prio := 0, a := .v 200, mod := 0 }) ∧
  decode 0x011C00000148014FC0000000 =
    .ok (.call (cc .always .none false) { loff := 5, slot := 1, prio := 2, a := .s 63, mod := 0 }) ∧
  decode 0x015C00000000004240000000 =
    .ok (.ret (cc .always .none false) { loff := 0, slot := 0, prio := 0, a := .s 9, mod := 0 }) ∧
  decode 0x019C00000000005000000000 =
    .ok (.exit (cc .always .none false) { loff := 0, slot := 0, prio := 0, a := .zero, mod := 0 }) ∧
  decode 0x01E000000000005000000000 =
    .ok (.yield (cc (.pred true 0) .none false) { loff := 0, slot := 0, prio := 0, a := .zero, mod := 0 }) ∧
  decode 0x021C000000000000C0000000 =
    .ok (.wsync (cc .always .none false) { loff := 0, slot := 0, prio := 0, a := .v 3, mod := 0 }) ∧
  decode 0x031C00000000005000000000 =
    .ok (.rgn (cc .always .none false) { loff := 0, slot := 0, prio := 0, a := .zero, mod := 0 }) ∧
  decode 0x025C20940A050002FE000000 =
    .ok (.vote (cc .always .none false) { d := .s 4, a := .zero, b := .zero, c := .zero, ty := .n32, mod := 47, pd := 7 }) ∧
  decode 0x029C004048350020B6000000 =
    .ok (.shfl (cc .always .none false) { d := .v 2, a := .v 4, b := .s 6, c := .zero, ty := .n64, mod := 11, pd := 3 }) ∧
  decode 0x02DC2100680D00200E000000 =
    .ok (.rdlane (cc .always .none false) { d := .s 8, a := .v 6, b := .s 1, c := .zero, ty := .n64, mod := 0, pd := 7 }) ∧
  decode 0x035C2814080000300E000000 =
    .ok (.brk (cc .always .none false) { d := .zero, a := .zero, imm := 8388611, mod := 0, pd := 7 }) ∧
  decode 0x03942814000000700E000000 =
    .ok (.trap (cc (.pred false 5) .none false) { d := .zero, a := .zero, imm := 7, mod := 0, pd := 7 }) := by decide

theorem test_words_integer_1 :
  decode 0x101C0020281D001014000000 =
    .ok (.iadd (cc .always .none false) (.rrr { d := .v 1, a := .v 2, b := .s 3, c := .zero, ty := .s32, mod := 1, pd := 2 })) ∧
  decode 0x105CE0504800000010802000 =
    .ok (.isub (cc .always .none true) (.ri { d := .s 2, a := .s 4, imm := 2147483649, ty := .n64, mod := 0, pd := 4 })) ∧
  decode 0x109C0080604500300E000000 =
    .ok (.imul (cc .always .none false) (.rrr { d := .v 4, a := .v 6, b := .v 8, c := .zero, ty := .s64, mod := 0, pd := 7 })) ∧
  decode 0x10DC402FF000000090003800 =
    .ok (.imulh (cc .always .none false) (.ri { d := .v 1, a := .v 255, imm := 9, ty := .n32, mod := 0, pd := 7 })) ∧
  decode 0x111C0020201810000E000000 =
    .ok (.imad (cc .always .none false) { d := .v 1, a := .v 2, b := .v 3, c := .v 4, ty := .n32, mod := 0, pd := 7 }) ∧
  decode 0x115C0040302018100E000000 =
    .ok (.imadw (cc .always .none false) { d := .v 2, a := .v 3, b := .v 4, c := .v 6, ty := .s32, mod := 0, pd := 7 }) ∧
  decode 0x119C0020201D00100E000000 =
    .ok (.idiv (cc .always .none false) (.rrr { d := .v 1, a := .v 2, b := .v 3, c := .zero, ty := .s32, mod := 0, pd := 7 })) ∧
  decode 0x11DC402020000000A0403800 =
    .ok (.irem (cc .always .none false) (.ri { d := .v 1, a := .v 2, imm := 10, ty := .s32, mod := 0, pd := 7 })) ∧
  decode 0x121C0020201D00000E000000 =
    .ok (.imin (cc .always .none false) (.rrr { d := .v 1, a := .v 2, b := .v 3, c := .zero, ty := .n32, mod := 0, pd := 7 })) ∧
  decode 0x125C0040403500300E000000 =
    .ok (.imax (cc .always .none false) (.rrr { d := .v 2, a := .v 4, b := .v 6, c := .zero, ty := .s64, mod := 0, pd := 7 })) ∧
  decode 0x129C00202A0500101E000000 =
    .ok (.iabs (cc .always .none false) { d := .v 1, a := .v 2, b := .zero, c := .zero, ty := .s32, mod := 1, pd := 7 }) ∧
  decode 0x12DC00202018100CAE000000 =
    .ok (.logt (cc .always .none false) { d := .v 1, a := .v 2, b := .v 3, c := .v 4, ty := .n32, mod := 202, pd := 7 }) ∧
  decode 0x131C40202000000210007800 =
    .ok (.shl (cc .always .none false) (.ri { d := .v 1, a := .v 2, imm := 33, ty := .n32, mod := 1, pd := 7 })) ∧
  decode 0x135C0040402D00300E000000 =
    .ok (.shr (cc .always .none false) (.rrr { d := .v 2, a := .v 4, b := .v 5, c := .zero, ty := .s64, mod := 0, pd := 7 })) := by decide

theorem test_words_integer_2 :
  decode 0x139C0020201810006E000000 =
    .ok (.shp (cc .always .none false) { d := .v 1, a := .v 2, b := .v 3, c := .v 4, ty := .n32, mod := 6, pd := 7 }) ∧
  decode 0x13DC00202A0500200E000000 =
    .ok (.popc (cc .always .none false) { d := .v 1, a := .v 2, b := .zero, c := .zero, ty := .n64, mod := 0, pd := 7 }) ∧
  decode 0x141C00203A0500000E000000 =
    .ok (.clz (cc .always .none false) { d := .v 1, a := .v 3, b := .zero, c := .zero, ty := .n32, mod := 0, pd := 7 }) ∧
  decode 0x145CA0303A0500000E000000 =
    .ok (.brev (cc .always .none true) { d := .s 1, a := .s 3, b := .zero, c := .zero, ty := .n32, mod := 0, pd := 7 }) ∧
  decode 0x149C0020201810100E000000 =
    .ok (.bfe (cc .always .none false) { d := .v 1, a := .v 2, b := .v 3, c := .v 4, ty := .s32, mod := 0, pd := 7 }) ∧
  decode 0x14DC0020201810000E000000 =
    .ok (.bfi (cc .always .none false) { d := .v 1, a := .v 2, b := .v 3, c := .v 4, ty := .n32, mod := 0, pd := 7 }) ∧
  decode 0x151C2800101500005C000000 =
    .ok (.isetp (cc .always .none false) (.rrr { d := .zero, a := .v 1, b := .v 2, c := .zero, ty := .n32, mod := 5, pd := 6 })) ∧
  decode 0x155C0020201D0000BE000000 =
    .ok (.sel (cc .always .none false) { d := .v 1, a := .v 2, b := .v 3, c := .zero, ty := .n32, mod := 11, pd := 7 }) ∧
  decode 0x159C0040403500203E000000 =
    .ok (.lea (cc .always .none false) { d := .v 2, a := .v 4, b := .v 6, c := .zero, ty := .n64, mod := 3, pd := 7 }) ∧
  decode 0x15DC280090103C0802000000 =
    .ok (.plogt (cc .always .none false) { d := .zero, a := .v 9, b := .v 2, c := .v 15, ty := .n32, mod := 128, pd := 1 }) := by decide

theorem test_words_floating_1 :
  decode 0x201C402023F800000408F800 =
    .ok (.fadd (cc .always .none false) (.ri { d := .v 1, a := .v 2, imm := 1065353216, ty := .f32, mod := 35, pd := 7 })) ∧
  decode 0x205C0040403501110E000000 =
    .ok (.fmul (cc .always .none false) (.rrr { d := .v 2, a := .v 4, b := .v 6, c := .zero, ty := .f64, mod := 16, pd := 7 })) ∧
  decode 0x209C0020201811231E000000 =
    .ok (.ffma (cc .always .none false) { d := .v 1, a := .v 2, b := .v 3, c := .v 4, ty := .f16x2, mod := 49, pd := 7 }) ∧
  decode 0x20DC0020201D01304E000000 =
    .ok (.fmin (cc .always .none false) (.rrr { d := .v 1, a := .v 2, b := .v 3, c := .zero, ty := .bf16x2, mod := 4, pd := 7 })) ∧
  decode 0x211C0020201D01000E000000 =
    .ok (.fmax (cc .always .none false) (.rrr { d := .v 1, a := .v 2, b := .v 3, c := .zero, ty := .f32, mod := 0, pd := 7 })) ∧
  decode 0x215C28002025011746000000 =
    .ok (.fsetp (cc .always .none false) (.rrr { d := .zero, a := .v 2, b := .v 4, c := .zero, ty := .f64, mod := 116, pd := 3 })) ∧
  decode 0x21DC00404A0501101E000000 =
    .ok (.fsqrt (cc .always .none false) { d := .v 2, a := .v 4, b := .zero, c := .zero, ty := .f64, mod := 1, pd := 7 }) ∧
  decode 0x221C00404A0501102E000000 =
    .ok (.frcp (cc .always .none false) { d := .v 2, a := .v 4, b := .zero, c := .zero, ty := .f64, mod := 2, pd := 7 }) ∧
  decode 0x225C00404A0501103E000000 =
    .ok (.frsq (cc .always .none false) { d := .v 2, a := .v 4, b := .zero, c := .zero, ty := .f64, mod := 3, pd := 7 }) ∧
  decode 0x219C0020201D01008E000000 =
    .ok (.fdiv (cc .always .none false) { d := .v 1, a := .v 2, b := .v 3, c := .zero, ty := .f32, mod := 8, pd := 7 }) ∧
  decode 0x229C00209A0501000E000000 =
    .ok (.fex2 (cc .always .none false) { d := .v 1, a := .v 9, b := .zero, c := .zero, ty := .f32, mod := 0, pd := 7 }) ∧
  decode 0x22DC00409A0501001E000000 =
    .ok (.flg2 (cc .always .none false) { d := .v 2, a := .v 9, b := .zero, c := .zero, ty := .f32, mod := 1, pd := 7 }) ∧
  decode 0x231C00609A0501002E000000 =
    .ok (.fsin (cc .always .none false) { d := .v 3, a := .v 9, b := .zero, c := .zero, ty := .f32, mod := 2, pd := 7 }) ∧
  decode 0x235C00809A0501003E000000 =
    .ok (.fcos (cc .always .none false) { d := .v 4, a := .v 9, b := .zero, c := .zero, ty := .f32, mod := 3, pd := 7 }) := by decide

theorem test_words_floating_2 :
  decode 0x239C00A09A0501004E000000 =
    .ok (.ftanh (cc .always .none false) { d := .v 5, a := .v 9, b := .zero, c := .zero, ty := .f32, mod := 4, pd := 7 }) ∧
  decode 0x23DC00C09A0501005E000000 =
    .ok (.ferf (cc .always .none false) { d := .v 6, a := .v 9, b := .zero, c := .zero, ty := .f32, mod := 5, pd := 7 }) ∧
  decode 0x241C00202A0501100E000000 =
    .ok (.fclass (cc .always .none false) { d := .v 1, a := .v 2, b := .zero, c := .zero, ty := .f64, mod := 0, pd := 7 }) ∧
  decode 0x245C0020201D01004E000000 =
    .ok (.fscale (cc .always .none false) { d := .v 1, a := .v 2, b := .v 3, c := .zero, ty := .f32, mod := 4, pd := 7 }) := by decide

theorem test_words_conversion :
  decode 0x301C00202A0044101E000000 =
    .ok (.cvt (cc .always .none false) { d := .v 1, a := .v 2, b := .zero, c := .v 17, ty := .s32, mod := 1, pd := 7 }) ∧
  decode 0x305C00202A0415808E000000 =
    .ok (.qnt (cc .always .none false) { d := .v 1, a := .v 2, b := .zero, c := .s 5, ty := .e4m3x4, mod := 8, pd := 7 }) ∧
  decode 0x309C0020283D01A04E000000 =
    .ok (.dqt (cc .always .none false) { d := .v 1, a := .v 2, b := .s 7, c := .zero, ty := .e2m1x8, mod := 4, pd := 7 }) ∧
  decode 0x30DC0020201810000E000000 =
    .ok (.bsel (cc .always .none false) { d := .v 1, a := .v 2, b := .v 3, c := .v 4, ty := .n32, mod := 0, pd := 7 }) ∧
  decode 0x311C00202A000DB38E000000 =
    .ok (.pack (cc .always .none false) { d := .v 1, a := .v 2, b := .zero, c := .v 3, ty := .s8x4, mod := 56, pd := 7 }) ∧
  decode 0x315C0020201811902E000000 =
    .ok (.fdp4 (cc .always .none false) { d := .v 1, a := .v 2, b := .v 3, c := .v 4, ty := .e5m2x4, mod := 2, pd := 7 }) ∧
  decode 0x319C0020201811A00E000000 =
    .ok (.fdp8 (cc .always .none false) { d := .v 1, a := .v 2, b := .v 3, c := .v 4, ty := .e2m1x8, mod := 0, pd := 7 }) ∧
  decode 0x31DC0020201811D08E000000 =
    .ok (.idp4 (cc .always .none false) { d := .v 1, a := .v 2, b := .v 3, c := .v 4, ty := .n8x4, mod := 8, pd := 7 }) ∧
  decode 0x321C0020201811C00E000000 =
    .ok (.idp8 (cc .always .none false) { d := .v 1, a := .v 2, b := .v 3, c := .v 4, ty := .s4x8, mod := 0, pd := 7 }) := by decide

theorem test_words_move :
  decode 0x401C00808A0500800E000000 =
    .ok (.mov (cc .always .none false) { d := .v 4, a := .v 8, b := .zero, c := .zero, ty := .b128, mod := 0, pd := 7 }) ∧
  decode 0x405CE0540DEADBEEF0C03800 =
    .ok (.movi (cc .always .none true) { d := .s 2, a := .zero, imm := 3735928559, ty := .s64, mod := 0, pd := 7 }) ∧
  decode 0x409C0034000000000E000000 =
    .ok (.rdsr (cc .always .none false) { d := .v 1, a := .zero, imm := 0, mod := 0, pd := 7 }) ∧
  decode 0x40DCA810300002100E000000 =
    .ok (.wrsr (cc .always .none true) { d := .zero, a := .s 3, imm := 33, mod := 0, pd := 7 }) := by decide

theorem test_words_memory :
  decode 0x501C009E02FFFFFC200681C0 =
    .ok (.ld (cc .always .none false) { r := .v 4, bx := 15, idx := .v 2, off := 16777212, ty := .b128, mod := 1, c := .zero, pd := 7 }) ∧
  decode 0x505C002302000008100281C0 =
    .ok (.st (cc .always .none false) { r := .v 1, bx := 1, idx := .s 2, off := 8, ty := .n8, mod := 0, c := .zero, pd := 7 }) ∧
  decode 0x509C00A80200000001040CC0 =
    .ok (.atom (cc .always .none false) { r := .v 5, bx := 4, idx := .v 2, off := 0, ty := .n32, mod := 65, c := .v 6, pd := 3 }) ∧
  decode 0x50DC00460100000000180840 =
    .ok (.atomcas (cc .always .none false) { r := .v 2, bx := 3, idx := .v 1, off := 0, ty := .n32, mod := 6, c := .v 4, pd := 1 }) ∧
  decode 0x511C00454000000440C28140 =
    .ok (.red (cc .always .none false) { r := .v 2, bx := 2, idx := .zero, off := 4, ty := .f32, mod := 48, c := .zero, pd := 5 }) ∧
  decode 0x515C004101000010080681C0 =
    .ok (.ldk (cc .always .none false) { r := .v 2, bx := 0, idx := .s 1, off := 16, ty := .n64, mod := 1, c := .zero, pd := 7 }) ∧
  decode 0x519C006140000004000281C0 =
    .ok (.stk (cc .always .none false) { r := .v 3, bx := 0, idx := .zero, off := 4, ty := .n32, mod := 0, c := .zero, pd := 7 }) ∧
  decode 0x51DC80A901000000001A05C0 =
    .ok (.bnarrow (cc .always .none true) { r := .v 5, bx := 4, idx := .s 1, off := 0, ty := .n32, mod := 6, c := .s 2, pd := 7 }) ∧
  decode 0x521CA80F03FFFFFF040281C0 =
    .ok (.badv (cc .always .none true) { r := .zero, bx := 7, idx := .s 3, off := 16777215, ty := .s32, mod := 0, c := .zero, pd := 7 }) ∧
  decode 0x525CA09140000000000281C0 =
    .ok (.bget (cc .always .none true) { r := .s 4, bx := 8, idx := .zero, off := 0, ty := .n32, mod := 0, c := .zero, pd := 7 }) ∧
  decode 0x529CA0D34000000008028080 =
    .ok (.wmap (cc .always .none true) { r := .s 6, bx := 9, idx := .zero, off := 0, ty := .n64, mod := 0, c := .zero, pd := 2 }) ∧
  decode 0x52DCA81540000000000281C0 =
    .ok (.wunmap (cc .always .none true) { r := .zero, bx := 10, idx := .zero, off := 0, ty := .n32, mod := 0, c := .zero, pd := 7 }) ∧
  decode 0x531EA81740000000000281C0 =
    .ok (.wflush (cc .always .setB true) { r := .zero, bx := 11, idx := .zero, off := 0, ty := .n32, mod := 0, c := .zero, pd := 7 }) := by decide

theorem test_words_synchronisation :
  decode 0x601CA81400000001AE000000 =
    .ok (.fence (cc .always .none true) { d := .zero, a := .zero, imm := 0, mod := 26, pd := 7 }) ∧
  decode 0x605CA80140000000000281C0 =
    .ok (.bar (cc .always .none true) { r := .zero, bx := 0, idx := .zero, off := 0, ty := .n32, mod := 0, c := .zero, pd := 7 }) ∧
  decode 0x609CA80140000000000281C0 =
    .ok (.gbar (cc .always .none true) { r := .zero, bx := 0, idx := .zero, off := 0, ty := .n32, mod := 0, c := .zero, pd := 7 }) ∧
  decode 0x60DCA81400000030EE000000 =
    .ok (.cinit (cc .always .none true) { d := .zero, a := .zero, imm := 3, mod := 14, pd := 7 }) ∧
  decode 0x611CA814000080500E000000 =
    .ok (.waitf (cc .always .none true) { d := .zero, a := .zero, imm := 2053, mod := 0, pd := 7 }) ∧
  decode 0x615CA08101000002080281C0 =
    .ok (.wprd (cc .always .none true) { r := .s 4, bx := 0, idx := .s 1, off := 2, ty := .n64, mod := 0, c := .zero, pd := 7 }) ∧
  decode 0x619CA0C10100000008028040 =
    .ok (.wpwait (cc .always .none true) { r := .s 6, bx := 0, idx := .s 1, off := 0, ty := .n64, mod := 0, c := .zero, pd := 1 }) ∧
  decode 0x61DCA814000000000E000000 =
    .ok (.drain (cc .always .none true) { d := .zero, a := .zero, imm := 0, mod := 0, pd := 7 }) := by decide

theorem test_words_claims :
  decode 0x701C8114000000100E000000 =
    .ok (.acq (cc .always .none true) { d := .v 8, a := .zero, imm := 1, mod := 0, pd := 7 }) ∧
  decode 0x701CA07400000020B8000000 =
    .ok (.acqTry (cc .always .none true) { d := .s 3, a := .zero, imm := 2, mod := 11, pd := 4 }) ∧
  decode 0x705CA810300000101E000000 =
    .ok (.rel (cc .always .none true) { d := .zero, a := .s 3, imm := 1, mod := 1, pd := 7 }) ∧
  decode 0x709CA154000000002E000000 =
    .ok (.claimrd (cc .always .none true) { d := .s 10, a := .zero, imm := 0, mod := 2, pd := 7 }) ∧
  decode 0x70DDA8110800000004000000 =
    .ok (.push (cc .always .setA true) { d := .zero, a := .s 16, imm := 8388608, mod := 0, pd := 2 }) ∧
  decode 0x711CA090100000601E000000 =
    .ok (.cpst (cc .always .none true) { d := .s 4, a := .s 1, imm := 6, mod := 1, pd := 7 }) ∧
  decode 0x725C28002000000062000000 =
    .ok (.bndmin (cc .always .none false) { d := .zero, a := .v 2, imm := 0, mod := 6, pd := 1 }) ∧
  decode 0x729C0094000000003E000000 =
    .ok (.bndrd (cc .always .none false) { d := .v 4, a := .zero, imm := 0, mod := 3, pd := 7 }) ∧
  decode 0x715C00430200004008028000 =
    .ok (.dqpush (cc .always .none false) { r := .v 2, bx := 1, idx := .s 2, off := 64, ty := .n64, mod := 0, c := .zero, pd := 0 }) ∧
  decode 0x719C008540000000080280C0 =
    .ok (.dqpop (cc .always .none false) { r := .v 4, bx := 2, idx := .zero, off := 0, ty := .n64, mod := 0, c := .zero, pd := 3 }) ∧
  decode 0x71DC01094000000008028040 =
    .ok (.dqsteal (cc .always .none false) { r := .v 8, bx := 4, idx := .zero, off := 0, ty := .n64, mod := 0, c := .zero, pd := 1 }) ∧
  decode 0x721CA02B40000080080281C0 =
    .ok (.dqinit (cc .always .none true) { r := .s 1, bx := 5, idx := .zero, off := 128, ty := .n64, mod := 0, c := .zero, pd := 7 }) := by decide

theorem test_words_matrix :
  decode 0x801D10082800008310014000 =
    .ok (.mma (cc .always .setA false) { zd := 2, zs := 0, a := .v 16, bx := 5, off := 16, fslot := 3, cv := 1, mod := 0, sa := .v 40 }) ∧
  decode 0x805CB8A000000000000A0000 =
    .ok (.zclr (cc .always .none true) { zd := 7, zs := 0, a := .zero, bx := 0, off := 0, fslot := 0, cv := 0, mod := 0, sa := .zero }) ∧
  decode 0x809C1878000000B8001A0000 =
    .ok (.zmov (cc .always .none false) { zd := 3, zs := 0, a := .v 240, bx := 0, off := 23, fslot := 0, cv := 0, mod := 1, sa := .zero }) ∧
  decode 0x80DD88A01000010100083800 =
    .ok (.zst (cc .always .setA true) { zd := 1, zs := 0, a := .zero, bx := 2, off := 32, fslot := 1, cv := 0, mod := 0, sa := .s 7 }) ∧
  decode 0x811EA0A01FFFFF82000A0000 =
    .ok (.zld (cc .always .setB true) { zd := 4, zs := 0, a := .zero, bx := 3, off := 16777200, fslot := 2, cv := 0, mod := 0, sa := .zero }) ∧
  decode 0x815D8AA03000020000085000 =
    .ok (.att (cc .always .setA true) { zd := 1, zs := 2, a := .zero, bx := 6, off := 64, fslot := 0, cv := 0, mod := 0, sa := .s 10 }) ∧
  decode 0x819EA8A000000000000A0000 =
    .ok (.attfin (cc .always .setB true) { zd := 5, zs := 0, a := .zero, bx := 0, off := 0, fslot := 0, cv := 0, mod := 0, sa := .zero }) ∧
  decode 0x949D200408000087F00A0000 =
    .ok (.mmom (cc .always .setA false) { zd := 4, zs := 0, a := .v 8, bx := 1, off := 16, fslot := 7, cv := 15, mod := 0, sa := .zero }) := by decide

theorem test_words_moment_1 :
  decode 0x901C3F000000400700000000 =
    .ok (.mset (cc .always .none false) { md := 63, ma := 0, mb := 0, mc := 0, v := .v 2, cov := 0, mod := 0, pd := 7, off := 0 }) ∧
  decode 0x905C010003C0600F80000400 =
    .ok (.mld (cc .always .none false) { md := 1, ma := 0, mb := 0, mc := 15, v := .v 3, cov := 0, mod := 1, pd := 7, off := 8388612 }) ∧
  decode 0x909C00080260A00700000800 =
    .ok (.mst (cc .always .none false) { md := 0, ma := 2, mb := 0, mc := 9, v := .s 5, cov := 0, mod := 0, pd := 7, off := 8 }) ∧
  decode 0x90DC04140028000700000000 =
    .ok (.mmov (cc .always .none false) { md := 4, ma := 5, mb := 0, mc := 0, v := .zero, cov := 0, mod := 0, pd := 7, off := 0 }) ∧
  decode 0x911C03001028080700000000 =
    .ok (.madd (cc .always .none false) { md := 3, ma := 0, mb := 1, mc := 0, v := .zero, cov := 1, mod := 0, pd := 7, off := 0 }) ∧
  decode 0x915C03801000F80700000000 =
    .ok (.msub (cc .always .none false) { md := 3, ma := 32, mb := 1, mc := 0, v := .v 7, cov := 3, mod := 0, pd := 7, off := 0 }) ∧
  decode 0x919C09207028100700000000 =
    .ok (.mmul (cc .always .none false) { md := 9, ma := 8, mb := 7, mc := 0, v := .zero, cov := 2, mod := 0, pd := 7, off := 0 }) ∧
  decode 0x91DC01080020600700000000 =
    .ok (.mscl (cc .always .none false) { md := 1, ma := 2, mb := 0, mc := 0, v := .s 3, cov := 0, mod := 0, pd := 7, off := 0 }) ∧
  decode 0x921C01083101380700000000 =
    .ok (.mfma (cc .always .none false) { md := 1, ma := 2, mb := 3, mc := 4, v := .v 9, cov := 3, mod := 0, pd := 7, off := 0 }) ∧
  decode 0x925C00240028000700000000 =
    .ok (.mrelu (cc .always .none false) { md := 0, ma := 9, mb := 0, mc := 0, v := .zero, cov := 0, mod := 0, pd := 7, off := 0 }) ∧
  decode 0x929C01280028000700000000 =
    .ok (.msigm (cc .always .none false) { md := 1, ma := 10, mb := 0, mc := 0, v := .zero, cov := 0, mod := 0, pd := 7, off := 0 }) ∧
  decode 0x92DC022C0028000700000000 =
    .ok (.mexp (cc .always .none false) { md := 2, ma := 11, mb := 0, mc := 0, v := .zero, cov := 0, mod := 0, pd := 7, off := 0 }) ∧
  decode 0x931C01083028000700000000 =
    .ok (.mmax (cc .always .none false) { md := 1, ma := 2, mb := 3, mc := 0, v := .zero, cov := 0, mod := 0, pd := 7, off := 0 }) ∧
  decode 0x935C04146028080700000000 =
    .ok (.mmin (cc .always .none false) { md := 4, ma := 5, mb := 6, mc := 0, v := .zero, cov := 1, mod := 0, pd := 7, off := 0 }) := by decide

theorem test_words_moment_2 :
  decode 0x939C00146000200700000000 =
    .ok (.mplt (cc .always .none false) { md := 0, ma := 5, mb := 6, mc := 0, v := .v 1, cov := 0, mod := 0, pd := 7, off := 0 }) ∧
  decode 0x93DC000C0000402700000000 =
    .ok (.mcol (cc .always .none false) { md := 0, ma := 3, mb := 0, mc := 0, v := .v 2, cov := 0, mod := 4, pd := 7, off := 0 }) ∧
  decode 0x941C01080028080700000000 =
    .ok (.mred (cc .always .none false) { md := 1, ma := 2, mb := 0, mc := 0, v := .zero, cov := 1, mod := 0, pd := 7, off := 0 }) ∧
  decode 0x945C01080020407D00000000 =
    .ok (.mshfl (cc .always .none false) { md := 1, ma := 2, mb := 0, mc := 0, v := .s 2, cov := 0, mod := 15, pd := 5, off := 0 }) := by decide

theorem test_words_heap :
  decode 0xA01C04006001FFE00070A000 =
    .ok (.hnew (cc .always .none false) { hd := 1, ha := 0, v := .v 3, off := 4095, ty := .n32, mod := 0, pd := 7, hb := 0, ix := .zero }) ∧
  decode 0xA05C00809000000100708080 =
    .ok (.hld (cc .always .none false) { hd := 0, ha := 2, v := .v 4, off := 8388608, ty := .n64, mod := 0, pd := 7, hb := 0, ix := .s 1 }) ∧
  decode 0xA09C03E08000006800700480 =
    .ok (.hst (cc .always .none false) { hd := 0, ha := 15, v := .s 4, off := 3, ty := .f32, mod := 0, pd := 7, hb := 0, ix := .v 9 }) ∧
  decode 0xA0DC00C0A00000001B200300 =
    .ok (.hatom (cc .always .none false) { hd := 0, ha := 3, v := .v 5, off := 0, ty := .n32, mod := 54, pd := 2, hb := 0, ix := .v 6 }) ∧
  decode 0xA11C04A8000000A10070A000 =
    .ok (.hldr (cc .always .none false) { hd := 1, ha := 2, v := .zero, off := 5, ty := .n64, mod := 0, pd := 7, hb := 0, ix := .zero }) ∧
  decode 0xA15C00E8000000C10074A000 =
    .ok (.hstr (cc .always .none false) { hd := 0, ha := 3, v := .zero, off := 6, ty := .n64, mod := 0, pd := 7, hb := 4, ix := .zero }) ∧
  decode 0xA19C15A80000000100F0A000 =
    .ok (.hmov (cc .always .none false) { hd := 5, ha := 6, v := .zero, off := 0, ty := .n64, mod := 1, pd := 7, hb := 0, ix := .zero }) ∧
  decode 0xA1DC01E8000000000028A000 =
    .ok (.hcmp (cc .always .none false) { hd := 0, ha := 7, v := .zero, off := 0, ty := .n32, mod := 0, pd := 2, hb := 8, ix := .zero }) ∧
  decode 0xA21C0241000000040070A000 =
    .ok (.hhdr (cc .always .none false) { hd := 0, ha := 9, v := .v 8, off := 0, ty := .b128, mod := 0, pd := 7, hb := 0, ix := .zero }) ∧
  decode 0xA25C0280C00000010070A000 =
    .ok (.hpin (cc .always .none false) { hd := 0, ha := 10, v := .v 6, off := 0, ty := .n64, mod := 0, pd := 7, hb := 0, ix := .zero }) ∧
  decode 0xA29C02E8000000000070A000 =
    .ok (.hunpin (cc .always .none false) { hd := 0, ha := 11, v := .zero, off := 0, ty := .n32, mod := 0, pd := 7, hb := 0, ix := .zero }) ∧
  decode 0xA2DC8020800000000030A000 =
    .ok (.hflipMark (cc .always .none true) { hd := 0, ha := 0, v := .s 4, off := 0, ty := .n32, mod := 0, pd := 3, hb := 0, ix := .zero }) ∧
  decode 0xA2DC8020A000000000F0A000 =
    .ok (.hflipConf (cc .always .none true) { hd := 0, ha := 0, v := .s 5, off := 0, ty := .n32, mod := 1, pd := 7, hb := 0, ix := .zero }) ∧
  decode 0xA31C03004000000001100200 =
    .ok (.hcas (cc .always .none false) { hd := 0, ha := 12, v := .v 2, off := 0, ty := .n32, mod := 2, pd := 1, hb := 0, ix := .v 4 }) := by decide

theorem test_words_system :
  decode 0xB01CA810500000001E000000 =
    .ok (.rte (cc .always .none true) { d := .zero, a := .s 5, imm := 0, mod := 1, pd := 7 }) ∧
  decode 0xB05CA0D4000001000E000000 =
    .ok (.prd (cc .always .none true) { d := .s 6, a := .zero, imm := 16, mod := 0, pd := 7 }) ∧
  decode 0xB09CA810700002200E000000 =
    .ok (.pwr (cc .always .none true) { d := .zero, a := .s 7, imm := 34, mod := 0, pd := 7 }) ∧
  decode 0xB0DCA810800000002E000000 =
    .ok (.invmark (cc .always .none true) { d := .zero, a := .s 8, imm := 0, mod := 2, pd := 7 }) ∧
  decode 0xB11CA814000000000E000000 =
    .ok (.invconf (cc .always .none true) { d := .zero, a := .zero, imm := 0, mod := 0, pd := 7 }) ∧
  decode 0xB15CA2140000000002000000 =
    .ok (.errrd (cc .always .none true) { d := .s 16, a := .zero, imm := 0, mod := 0, pd := 1 }) := by decide
/-! ### Witnesses: the hypotheses of the statements can be met -/

theorem witness_IntegerArithmetic : ∀ i ∈ ([.iadd ct (.rrr (rr .s32)), .isub ct (.ri (ri .n64 1)), .imul ct (.rrr (rr .s64)),
    .imulh ct (.rrr (rr .n32)), .idiv ct (.rrr (rr .s32)), .irem ct (.ri (ri .s32 0xFFFFFFFF)), .imin ct (.rrr (rr .n64)),
    .imax ct (.rrr (rr .s32)), .imad ct (rr .n32 0 (.v 8)), .imadw ct (rr .s32 0 (.v 8)),
    .iabs ct { rr .s64 with b := .zero }] : List Instr), Ready base i x0 := allReady (by decide +kernel)

theorem witness_IntegerNumbers : Ty.s32 ∈ [Ty.n32, .s32, .n64, .s64] ∧ tySigned .s32 = true ∧ (7 : Int) ≠ 0 ∧
    -(2 ^ 31 : Int) ≤ -(2 ^ 31 : Int) ∧ (7 : Int) ≤ 2 ^ 31 - 1 ∧ ¬ (-(2 ^ 31 : Int) = -(2 ^ 31 : Int) ∧ (7 : Int) = -1) := by
  decide

theorem witness_IntegerBits : ∀ i ∈ ([.logt ct (rr .n64 0xCA (.v 8)), .shl ct (.ri (ri .n32 32)), .shr ct (.ri (ri .s64 64)),
    .shp ct (rr .n32 6 (.v 8)), .popc ct { rr .n64 with b := .zero }, .clz ct { rr .n32 with b := .zero },
    .brev ct { rr .n32 with b := .zero }, .bfe ct (rr .s32 0 (.v 8)), .bfi ct (rr .n64 0 (.v 8))] : List Instr),
    Ready base i x0 := allReady (by decide +kernel)

theorem witness_IntegerCompareSelect : (∀ i ∈ ([.isetp ct (.rrr { rr .s32 5 with d := .zero, pd := 1 }),
    .sel ct (rr .n64 0x0F), .lea ct (rr .n64 7),
    .plogt ct { rr .n32 0x80 (.v 15) with d := .zero, a := .v 0, b := .v 9, pd := 1 }] : List Instr), Ready base i x0) ∧
    (6 ≤ modBits 7 0 3 ∧
      (Instr.isetp ct (.rrr { rr .s32 (7 &&& 0xF8) with d := .zero, pd := 1 })).illegal = none ∧
      (Instr.isetp ct (.ri { ri .n64 5 (7 &&& 0xF8) with d := .zero, pd := 1 })).illegal = none) ∧
    16 ≤ (Opd.v 16).code := ⟨allReady (by decide +kernel), by decide, by decide⟩

theorem witness_FloatArithmetic : (∀ i ∈ ([.fadd ct (.rrr (rr .f32 0x23)), .fmul ct (.rrr (rr .f64 0x10)),
    .ffma ct (rr .f16x2 0x30 (.v 8)), .fmin ct (.rrr (rr .bf16x2 4)), .fmax ct (.rrr (rr .f32))] : List Instr),
    Ready base i x0) ∧
    (fp32.decode 0x7FC00000).isNan = true ∧ (fp32.decode 0xFF800000).isNan = false ∧
    (fp32.decode 0xFF800000).lt (fp32.decode 0) = true ∧
    ((fp32.decode 0x80000000).eq (fp32.decode 0) = true ∧ fp32.isNeg 0x80000000 = true ∧ fp32.isNeg 0 = false) :=
  ⟨allReady (by decide +kernel), by decide +kernel⟩

/-- NaN, infinities, 9/4, its negative, 1 and zeros of either sign. -/
theorem witness_FloatExact : (FV.nan = .nan ∨ FV.inf true = .nan) ∧ (FV.fin false 9 (-2)).Is (9 / 4) ∧ (9 / 4 : Real) ≠ 0 ∧
    (FV.fin true 9 (-2)).Is (-(9 / 4)) ∧ (9 / 4 + -(9 / 4) : Real) = 0 ∧ (FV.fin false 1 0).Is 1 ∧ (FV.fin true 0 5).Is 0 ∧
    (FV.fin false 0 0).Is 0 ∧ (0 + 0 : Real) = 0 :=
  ⟨.inl rfl, ⟨false, 9, -2, rfl, by norm_num⟩, by norm_num, ⟨true, 9, -2, rfl, by norm_num⟩, by norm_num,
    ⟨false, 1, 0, rfl, by norm_num⟩, ⟨true, 0, 5, rfl, by norm_num⟩, ⟨false, 0, 0, rfl, by norm_num⟩, by norm_num⟩

theorem witness_FloatCompareClass : (∀ i ∈ ([.fsetp ct (.rrr { rr .f64 0x74 with d := .zero, pd := 2 }),
    .fclass ct { rr .f64 with b := .zero }] : List Instr), Ready base i x0) ∧ (FV.nan).isNan = true ∧
    (FV.inf true).isNan = false ∧ 0xFFFFFFFF < 2 ^ fpWidth fp32 := ⟨allReady (by decide +kernel), by decide⟩

theorem witness_FloatFunctions : ∀ i ∈ ([.fdiv ct (rr .f32 3), .fsqrt ct { rr .f64 with b := .zero },
    .frcp ct { rr .f32 with b := .zero }, .frsq ct { rr .f64 with b := .zero }, .fex2 ct { rr .f32 with b := .zero },
    .flg2 ct { rr .f32 with b := .zero }, .fsin ct { rr .f32 with b := .zero }, .fcos ct { rr .f32 with b := .zero },
    .ftanh ct { rr .f32 with b := .zero }, .ferf ct { rr .f32 with b := .zero }, .fscale ct (rr .f64)] : List Instr),
    Ready base i x0 := allReady (by decide +kernel)

theorem witness_Conversions : (∀ i ∈ ([.cvt ct { rr .s32 1 (.v 0x11) with b := .zero }, .pack ct { rr .s8x4 0x38 (.v 8) with b := .zero },
    .bsel ct (rr .n32 0 (.v 8)), .dqt ct { rr .e2m1x8 with b := .s 6 }, .fdp4 ct (rr .e5m2x4 0 (.v 8)),
    .fdp8 ct (rr .e2m1x8 0 (.v 8)), .idp4 ct (rr .n8x4 8 (.v 8)), .idp8 ct (rr .s4x8 0 (.v 8)),
    .mov ct { rr .b128 with d := .v 188, b := .zero }, .movi ct { ri .s64 0x80000000 with a := .zero }] : List Instr),
    Ready base i x0) ∧ (Ty.s4x8, true, 4, 8) ∈ [(Ty.s8x4, true, 8, 4), (.n8x4, false, 8, 4), (.s4x8, true, 4, 8),
      (.n4x8, false, 4, 8)] := ⟨allReady (by decide +kernel), by decide⟩

/-- Exact values: 9/4, −1, 8 and 0, the numbers that stand for them, and single precision among the formats. -/
theorem witness_ExactValues : (∃ p ∈ fpRows, p.fmt = fp32 ∧ (5 : Nat) < 2 ^ fpWidth p.fmt) ∧ (FV.fin false 9 (-2)).Is (9 / 4) ∧
    (0 : Real) < 9 / 4 ∧ (FV.fin true 1 0).Is (-1) ∧ (-1 : Real) < 0 ∧ (FV.fin false 1 3).Is ((2 : Real) ^ (3 : Int)) ∧
    ((3 : Int) ≤ 400 ∧ (-400 : Int) ≤ 3) ∧ (FV.fin true 0 5).Is 0 :=
  ⟨⟨_, .tail _ (.head _), rfl, by decide⟩, ⟨false, 9, -2, rfl, by norm_num⟩, by norm_num, ⟨true, 1, 0, rfl, by norm_num⟩, by norm_num,
    ⟨false, 1, 3, rfl, by norm_num⟩, by decide, ⟨true, 0, 5, rfl, by norm_num⟩⟩

/-- Four products of ones of E4M3 and no addend: a sum of 4. -/
theorem witness_ConversionValues : Ty.s8 ∈ [Ty.n8, .s8, .n16, .s16, .n32, .s32, .n64, .s64, .f16, .bf16, .f32, .f64] ∧
    ((255 : Nat) < 2 ^ 8 ∧ 8 ∈ [4, 8, 16, 32, 64]) ∧ (∃ p ∈ fpRows, p.fmt = fp32) ∧
    (8 * 3 + (elemOf .e4m3x4).width ≤ 32 ∧ (elemOf .e4m3x4).width = 8 ∧ (elemOf .s4x8).width * 7 + (elemOf .s4x8).width ≤ 32) ∧
    (0x1FF % 256 = 255 ∧ 0x80 % 256 ≠ 255) ∧ (∃ q ∈ fpRows, q.fmt = e4m3) ∧
    (∀ i < 4, (e4m3.decode (0x38383838 / 2 ^ (8 * i) % 2 ^ 8)).Is 1 ∧ (e4m3.decode (0x38383838 / 2 ^ (8 * i) % 2 ^ 8)).sign = false) ∧
    (fp32.decode (0 % 2 ^ 32)).Is 0 ∧ ((List.range 4).map fun _ => (1 : Real) * 1).sum + 0 = 4 := by
  refine ⟨by decide, by decide, ⟨_, .tail _ (.head _), rfl⟩, by decide, by decide, ⟨_, .tail _ (.tail _ (.tail _ (.tail _ (.tail _ (.head _))))), rfl⟩, fun i h => ?_,
    ⟨false, 0, -149, by decide, by norm_num⟩, by norm_num [List.range, List.range.loop]⟩
  have e : e4m3.decode (0x38383838 / 2 ^ (8 * i) % 2 ^ 8) = .fin false 8 (-3) := by
    revert i
    decide
  exact ⟨⟨false, 8, -3, e, by norm_num⟩, by rw [e]; rfl⟩

/-- A block of 3 and 0: its largest magnitude lies between 2 and 4. -/
theorem witness_BlockScale : (Elem.fp e4m3, (8 : Int)) ∈
      [(Elem.fp e4m3, (8 : Int)), (.fp e5m2, 15), (.fp e2m1, 2), (.int true 8, 6), (.int false 8, 7), (.int true 4, 2)] ∧
    (∀ v ∈ [FV.fin false 3 0, .fin false 0 0], ∃ x, v.Is x ∧ |x| ≤ 3) ∧ (FV.fin false 3 0).Is 3 ∧
    ((2 : Real) ^ (1 : Int) ≤ |3| ∧ |(3 : Real)| < 2 ^ ((1 : Int) + 1)) ∧ ¬ ∃ x, FV.nan.Is x := by
  refine ⟨by decide, ?_, ⟨false, 3, 0, rfl, by norm_num⟩, by norm_num, fun ⟨_, _, _, _, h, _⟩ => nomatch h⟩
  simp only [List.mem_cons, List.not_mem_nil, or_false, forall_eq_or_imp, forall_eq]
  exact ⟨⟨3, ⟨false, 3, 0, rfl, by norm_num⟩, by norm_num⟩, ⟨0, ⟨false, 0, 0, rfl, by norm_num⟩, by norm_num⟩⟩

theorem witness_Quantise : Ready base (.qnt ct { rr .n8x4 8 (.s 63) with b := .zero }) x0 := ready (by decide +kernel)

/-- A line word with slot 0 a legal target, at the module's first line. -/
def targets : State := withMem (mapped base) [(3, 0x02)]

theorem witness_IssueChoice : ((base.warp 0).hold = none ∧ (base.warp 0).choice = some 0 ∧
    ((withW fun w => { w with threads := tset w.threads 5 { st := .live, cp := 8 }, entries := tset w.entries 8 { age := 64 } }).warp
      0).choice = some 8) ∧
    (5 ≤ (5 : Nat) ∧ ((base.wgrid 0).clines : Int) ≤ 1 ∧ (0 : Int) < (base.wgrid 0).clines) ∧
    (targets.vreadNat (.mapUnit (targets.wcluster 0)) (targets.wctx 0) (targets.lineVa 0 0) 4).1.toBool = true ∧
    (base.vreadNat (.mapUnit (base.wcluster 0)) (base.wctx 0) (base.lineVa 0 0) 4).1.toBool = false := by decide +kernel

theorem witness_ControlTransfers : (∀ i ∈ ([.bra ct (fb), .call ct (fb (.s 3)), .brx ct (fb (.v 3)), .ret ct (fb (.s 3))] : List Instr),
    Ready targets i x0) ∧
    (∀ p ∈ (targets.checkTargets 0 (fun _ => (0, 0)) allLanes).1, p.2 = .good) ∧
    ((targets.checkTargets 0 (fun l => (0, if l = 3 then 1 else 0)) allLanes).1.find? fun p => p.2 == .bad) = some (3, .bad) ∧
    ((targets.checkTargets 0 (fun _ => (0, 7)) allLanes).1.find? fun p => p.2 == .bad) = some (0, .bad) :=
  ⟨allReady (by decide +kernel), by decide +kernel⟩

/-- Lane 5 waits at slot 0 for lane 0, with priority 1; every thread in handler mode. -/
def awaited : State := withW fun w => { w with threads := tset w.threads 5 { st := .blocked (.wsync 1), cp := 0x100000 } }
def grouped : State := withW fun w => { w with threads := allLanes.map fun l => (l, { st := .live, hmode := true }) }

theorem witness_WarpControl : (∀ i ∈ ([.nop ct (fb), .yield ct (fb), .rgn ct (fb), .wsync ct (fb (.v 3))] : List Instr), Ready base i x0) ∧
    Ready base (.wsync cn (fb (.v 3))) xn ∧ (base.warp 0).inHandler = false ∧
    (base.warp 0).maskMet 0 0 0 = true ∧ (base.warp 0).maskMet 0 0 2 = false ∧
    (readyB awaited (.wsync ct (fb (.v 3))) { x0 with ent := allLanes.erase 5, lanes := allLanes.erase 5 } = true ∧
      (awaited.warp 0).th 5 = { st := .blocked (.wsync 1), cp := 0x100000 } ∧ cpPos 0x100000 = cpPos 0 ∧
      (awaited.warp 0).maskMet 0 5 1 = false ∧ lanesOf 1 = [0]) ∧
    (readyB grouped (.wsync ct (fb (.v 3))) x0 = true ∧ (grouped.warp 0).inHandler = true ∧ ((grouped.warp 0).th 31).hmode = true ∧
      ((withW fun w => { w with threads := tset w.threads 9 { st := .blocked (.wsync 0), hmode := true } }).warp 0).inHandler = true) :=
  ⟨allReady (by decide +kernel), ready (by decide +kernel), by decide +kernel⟩

/-- Lane 31 alone, the others having exited; the block has a second warp. -/
def lastLane : State :=
  let s := withW fun w => { w with threads := allLanes.map fun l => (l, { st := if l = 31 then .live else .exited }) }
  { s with warps := tset s.warps 1 { block := 0, idx := 1 }, blocks := tmod {} s.blocks 0 fun b => { b with warps := [0, 1] } }

theorem witness_Exit : (Ready base (.exit cn (fb)) xn ∧ base.releaseCheck xn = none) ∧
    (Ready (withW fun w => { w with p := [(0, 1)] }) (.exit cn (fb)) { x0 with lanes := [0] } ∧
      ((withW fun w => { w with p := [(0, 1)] }).warp 0).lastOf [0] = false) ∧
    Ready lastLane (.exit ct (fb)) { x0 with ent := [31], lanes := [31] } ∧
      lastLane.releaseCheck { x0 with ent := [31], lanes := [31] } = none ∧ (lastLane.warp 0).lastOf [31] = true ∧
      (lastLane.warp 0).flagsClear 0xFFF = true ∧ (lastLane.warp 0).flagFault 0xFFF = none ∧ lastLane.lastWarp 0 = false :=
  ⟨⟨ready (by decide +kernel), rfl⟩, ⟨ready (by decide +kernel), by decide +kernel⟩, ready (by decide +kernel),
    by decide +kernel⟩

/-- The same lane in a block of one warp, whose end is the grid's. -/
def lastWarp : State := withW fun w => { w with threads := allLanes.map fun l => (l, { st := if l = 31 then .live else .exited }) }
/-- A grid whose blocks are finished, which a launch ring's entry 5 launched. -/
def over_ (parent : Option Nat) : State :=
  let s := (base.modBlk 0 fun b => { b with st := .finished }).modGrid 0 fun g =>
    { g with nextBlock := g.nblocks, host := some (0, 5), parent := parent }
  { s with blocks := tset s.blocks 3 { grid := 1, st := .held } }

theorem witness_BlockEnd : (let x := { x0 with ent := [31], lanes := [31] }
      Ready lastWarp (.exit ct (fb)) x ∧ lastWarp.releaseCheck x = none ∧ (lastWarp.warp 0).lastOf [31] = true ∧
      (lastWarp.warp 0).flagsClear 0xFFF = true ∧ (lastWarp.warp 0).flagFault 0xFFF = none ∧
      (∀ v ∈ (lastWarp.wblk 0).warps, v ≠ 0 → (lastWarp.warp v).retired = true) ∧
      (∃ v ∈ (lastLane.wblk 0).warps, v ≠ 0 ∧ (lastLane.warp v).retired = false) ∧
      (lastWarp.writeBacks id .exitWriteBack (lastWarp.dirtyOf (lastWarp.endWindows 0))).1 = [] ∧
      (lastWarp.writeBacks id .exitWriteBack (lastWarp.dirtyOf (lastWarp.endWindows 0))).2.exitParked 0 = false ∧
      ({ lastWarp with parked := [{ ctx := 0, page := 0, unit := .mapUnit 0, kind := .write 0 [] .exitWriteBack }] } : State).exitParked
        0 = true) ∧
    (base.childLive 0 = false ∧ ({ base with grids := tset base.grids 1 { parent := some 0 } } : State).childLive 0 = true) ∧
    ((base.gang (base.blk 0).gang).blocks.all fun p => p == 0 || !(base.blk p).holds) = true ∧
    ((base.grid 0).nextBlock = (base.grid 0).nblocks → ¬ ∀ p ∈ base.blocks, p.2.grid = 0 → p.2.st = .finished) ∧
    (((over_ none).grid 0).st = .running ∧ ((over_ none).grid 0).nextBlock = ((over_ none).grid 0).nblocks ∧
      (∀ p ∈ (over_ none).blocks, p.2.grid = 0 → p.2.st = .finished) ∧ ((over_ none).grid 0).host = some (0, 5)) ∧
    ((over_ (some 3)).grid 0).parent = some 3 ∧ ((over_ (some 3)).blk 3).st = .held ∧
      (∀ p ∈ (over_ (some 3)).grids, p.1 ≠ 0 → p.2.parent = some 3 → p.2.st = .retired) ∧ (over_ (some 3)).launchQ = [] :=
  ⟨⟨ready (by decide +kernel), by decide +kernel⟩, by decide +kernel, by decide +kernel, by decide +kernel, by decide +kernel,
    by decide +kernel⟩

/-- A block that was stopped while it held a window with one dirty byte, its page mapped or not, and the same with a store set aside. -/
def stoppedBlock (ok logged : Bool) : State :=
  let s := (if ok then mapped base else base).modBlk 0 fun b => { b with stopped := true }
  { s with
    windows := [(0, { limit := 0x1000, va := 0x4000, filled := [0], dirty := [1] })]
    parked := if logged then [{ ctx := 0, page := 0x4000, unit := .mapUnit 0, kind := .local 0 0 0 [(0, 1)] }] else [] }

theorem witness_Exit_stopped :
    (∀ a ∈ [true, false], ∀ b ∈ [true, false],
      ((stoppedBlock a b).blk 0).stopped = true ∧ ((stoppedBlock a b).blk 0).st = .resident ∧ (base.blk 0).stopped = false ∧
        (stoppedBlock a b).endWindows 0 = [0] ∧ (stoppedBlock a b).windowLogged [0] = b) ∧
    (∀ ok ∈ [true, false],
      let s := stoppedBlock ok false
      let back := s.writeBacks (fun p => { p with warp := (s.blk 0).warps.headD 0 }) (.stopWriteBack 0) (s.dirtyOf [0])
      back.1 = [] ∧ back.2.stopParked 0 = !ok) ∧
    (let s : State := { lastWarp with
       windows := [(0, { limit := 0x1000, va := 0x4000 })]
       parked := [{ ctx := 0, page := 0x4000, unit := .mapUnit 0, kind := .local 0 0 0 [(0, 1)] }] }
     s.endWindows 0 = [0] ∧ s.windowLogged [0] = true) := by decide +kernel

theorem witness_LaneExchange : (∀ i ∈ ([.vote ct { rr .n32 0 with d := .zero, a := .zero, b := .zero, pd := 1 },
    .vote ct { rr .n32 1 with d := .zero, a := .zero, b := .zero, pd := 6 },
    .vote ct { rr .n32 2 with d := .zero, a := .zero, b := .zero, pd := 0 },
    .vote ct { rr .n32 0x3F with d := .s 63, a := .zero, b := .zero }, .shfl ct (rr .n64 0x17),
    .rdlane ct { rr .n32 with d := .s 1, b := .s 2 }] : List Instr), Ready base i x0) ∧
    (base.warp 0).poisonedOpd (.v 4) 1 0 = false := ⟨allReady (by decide +kernel), by decide +kernel⟩

theorem witness_SoftwareTraps : (∀ i ∈ ([.brk ct (fs .zero .zero 0xFFFFFF), .trap ct (fs .zero .zero 0)] : List Instr), Ready base i x0) ∧
    ∀ i ∈ ([.brk cn (fs .zero .zero 1), .trap cn (fs .zero .zero 1)] : List Instr), Ready base i xn :=
  ⟨allReady (by decide +kernel), allReady (by decide +kernel)⟩

/-- A handler at line 0, slot 0, that takes BREAKPOINT. -/
def handled : State := targets.modGrid 0 fun g => recBits g [(227, 1), (768 + 0x40, 1)]
/-- The warp in handler mode. -/
def inside (s : State) : State :=
  s.modWarp 0 fun w => { w with threads := allLanes.map fun l => (l, { st := .live, hmode := true }) }

theorem witness_ExceptionEntry : (handled.pick handled.cur .always = some x0 ∧ (handled.wgrid 0).hvalid = true ∧
    (handled.wgrid 0).hmask 0x40 = true ∧ (handled.warp 0).inHandler = false) ∧
    ((base.wgrid 0).hvalid = false ∧ (handled.wgrid 0).hmask 0x41 = false ∧ ((inside handled).warp 0).inHandler = true) ∧
    (base.grid 0).st = .running ∧ (base.grid 1).st ≠ .running ∧ (0, base.blk 0) ∈ base.blocks ∧
      (base.blk 0).holds = true ∧ 0 ∈ (base.blk 0).warps := by decide +kernel

theorem witness_ExceptionReturn : (∀ i ∈ ([.rte cu (fs .zero .zero), .rte cu (fs .zero (.s 3) 0 1)] : List Instr),
    Ready (inside handled) i x0) ∧ ((inside handled).checkTarget 0 0 0).1 = .good ∧ ((inside handled).checkTarget 0 0 1).1 = .bad ∧
    Ready ((inside handled).modWarp 0 fun w => { w with s := [(3, 1)] }) (.rte cu (fs .zero (.s 3) 0 1)) x0 ∧
    (((inside handled).modWarp 0 fun w => { w with s := [(3, 1)] }).warp 0).word (.s 3) 0 0 = 1 :=
  ⟨allReady (by decide +kernel), by decide +kernel, by decide +kernel, ready (by decide +kernel), by decide +kernel⟩

/-- A line whose `WAIT` names f1, on which two operations are pending, and no other flag. -/
def waiting (n : Nat) : State := withW fun w =>
  { w with flags := [(1, n)], entries := [(0, { entered := true, line := 0x3E000201 })] }

theorem witness_FaultsInsteadOfIssuing : (∃ r, (Instr.rte cu (fs .zero .zero)).view.isSome = true ∧ base.pick base.cur .always = some x0 ∧
    base.mayIssue 0 = true ∧
    (((withW fun w => { w with entries := [(0, { entered := true, waited := true })] }).warp 0).entry 0).waited = true ∧
    (withW fun w => { w with entries := [(0, { entered := true, waited := true })] }).awaits x0 (.rte cu (fs .zero .zero)) = false ∧
    (withW fun w => { w with entries := [(0, { entered := true, waited := true })] }).genericFault false x0
      (.rte cu (fs .zero .zero)) = some r) ∧
    (Instr.privileged (.prd cu (fs (.s 1) .zero)) = true ∧ (base.wgrid 0).priv = false ∧
      (Instr.prd cu (fs (.s 1) .zero)).illegal = none ∧ (Instr.prd cu (fs (.s 1) .zero)).reserved = false ∧
      flagBad (lineWord ((base.warp 0).entry 0).line) .none = false ∧
      base.illegalNow 0 (.prd cu (fs (.s 1) .zero)) = none) ∧
    ((Instr.hpin ct ⟨0, 1, .zero, 0, .n32, 0, 7, 0, .zero⟩).view.isSome = true ∧ (base.wgrid 0).heapen = false) :=
  ⟨⟨precise 0x01 0 0 0x07, by decide +kernel⟩, by decide +kernel, by decide +kernel⟩

theorem witness_LineWait : ((waiting 2).pick 0 .always = some x0 ∧ (((waiting 2).warp 0).entry 0).waited = false ∧
    ((waiting 2).warp 0).flagsClear (lwWait (lineWord (((waiting 2).warp 0).entry 0).line)) = false) ∧
    (waiting 0).pick 0 .always = some x0 ∧ (waiting 0).mayIssue 0 = true ∧ ((waiting 0).waitCheck x0).isNone = true ∧
    lwWait (lineWord (((waiting 0).warp 0).entry 0).line) ≠ 0 ∧
    (let s : State := { waiting 0 with parked := [{ ctx := 0, page := 0, unit := .mapUnit 0
                                                    kind := .localAtomic 0 0 0 0 .n32 0 none (.v 4) 3 }] }
     (s.waitCheck x0).isNone = true ∧ (s.waitDone x0).awaits x0 (.mov ct { rr .n32 with b := .zero }) = true ∧
      (s.waitDone x0).awaits x0 (.mov ct { rr .n32 with a := .v 5, b := .zero }) = false) := by decide +kernel

/-- A grid of the physical function with a heap region. -/
def trusted (s : State) : State := s.modGrid 0 fun g => { recBits g [(230, 1)] with priv := true }

theorem witness_SpecialRegisters : (∀ n ∈ [0x000, 0x001, 0x002, 0x003, 0x004, 0x005, 0x006, 0x007, 0x008, 0x009, 0x00A, 0x00B,
    0x00C, 0x010, 0x011, 0x012, 0x013, 0x014, 0x015, 0x016, 0x017, 0x018, 0x020, 0x021, 0x030, 0x031, 0x032, 0x040, 0x043],
    Ready (inside base) (.rdsr ct (fs (.v 2) .zero (.ofNat 24 n))) x0) ∧
    (Ready (trusted targets) (.rdsr ct (fs (.v 2) .zero 0x22)) x0 ∧
      ((trusted targets).epoch (.heapPort ((trusted targets).wblk 0).core) 0 ((trusted targets).wgrid 0).heap).1.toBool = true ∧
      Ready (trusted base) (.rdsr ct (fs (.v 2) .zero 0x22)) x0 ∧
      ((trusted base).epoch (.heapPort ((trusted base).wblk 0).core) 0 ((trusted base).wgrid 0).heap).1.toBool = false) ∧
    Ready base (.wrsr cu (fs .zero (.s 1) 0x20)) x0 ∧ Ready base (.wrsr cu (fs .zero (.s 1) 0x21)) x0 ∧
    Ready (withW fun w => { w with s := [(1, 8)] }) (.wrsr cu (fs .zero (.s 1) 0x21)) x0 ∧
    ((withW fun w => { w with s := [(1, 8)] }).warp 0).word (.s 1) 0 0 &&& 0xFFFFFFF8 ≠ 0 ∧
    Ready (withW fun w => { w with s := [(1, 2)] }) (.wrsr cu (fs .zero (.s 1) 0x20)) x0 ∧
    Ready base (.wrsr cnu (fs .zero (.s 1) 0x20)) xn :=
  ⟨fun n hn => ready (List.all_eq_true.mp (by decide +kernel :
      ([0x000, 0x001, 0x002, 0x003, 0x004, 0x005, 0x006, 0x007, 0x008, 0x009, 0x00A, 0x00B, 0x00C, 0x010, 0x011, 0x012, 0x013,
        0x014, 0x015, 0x016, 0x017, 0x018, 0x020, 0x021, 0x030, 0x031, 0x032, 0x040, 0x043].all fun n =>
        readyB (inside base) (.rdsr ct (fs (.v 2) .zero (.ofNat 24 n))) x0) = true) n hn),
    ⟨ready (by decide +kernel), by decide +kernel, ready (by decide +kernel), by decide +kernel⟩, ready (by decide +kernel),
    ready (by decide +kernel), ready (by decide +kernel), by decide +kernel, ready (by decide +kernel), ready (by decide +kernel)⟩

/-- Two records in the context's error log, a key slot, and operands for `PWR` and `INVMARK` in `s4` to `s15`. -/
def privileged : State :=
  (trusted (mapped (withW fun w => { w with s := [(4, 1), (6, 1), (8, 0x1000), (10, 1048576), (12, 0xFFFFF000), (13, 0xFFFF), (14, 2)] }))).modCtx 0
    fun y => { y with elogwr := 2, slots := [(0, 6)] }

theorem witness_PrivilegedRegisters : (∀ n ∈ [0x000, 0x001, 0x002, 0x003, 0x010, 0x011, 0x020, 0x021, 0x022],
    Ready privileged (.prd cu (fs (.s 1) .zero (.ofNat 24 n))) x0) ∧
    privileged.keySlot (privileged.wctx 0) (privileged.wchip 0) = some 5 ∧
    (∀ i ∈ ([.pwr cu (fs .zero (.s 4) 0x20), .pwr cu (fs .zero (.s 5) 0x22), .pwr cu (fs .zero (.s 4) 0x22),
      .errrd cu (fs (.s 16) .zero 0 0 1), .invmark cu (fs .zero (.s 4)), .invmark cu (fs .zero (.s 8)),
      .invmark cu (fs .zero (.s 16)), .invmark cu (fs .zero (.s 12)), .invconf cu (fs .zero .zero)] : List Instr),
      Ready privileged i x0) ∧
    (∀ i ∈ ([.pwr cnu (fs .zero (.s 4) 0x20), .invmark cnu (fs .zero (.s 8)),
      .invconf cnu (fs .zero .zero), .errrd cnu (fs (.s 16) .zero 0 0 1)] : List Instr),
      Ready privileged i xn) ∧
    ((privileged.ctx 0).elogwr - 1).toNat ≤ 256 ∧ 256 < ((privileged.ctx 0).elogwr - 3).toNat ∧
    privileged.markedWrites 0 = false ∧
    ({ privileged with chans := [(0, { queue := [{ peers := [
      { unit := 0, write := true, link := 0, ctx := 0, va := 64, len := 64, marked := true }] }] })] } : State).markedWrites 0 = true ∧
    (privileged.ctx 0).elogrd ≠ (privileged.ctx 0).elogwr ∧ (base.ctx 0).elogrd = (base.ctx 0).elogwr ∧
    Ready (trusted base) (.errrd cu (fs (.s 16) .zero 0 0 1)) x0 ∧
    ((privileged.warp 0).opd (.s 4) 2 0 % 4096 ≠ 0 ∧ (privileged.warp 0).opd (.s 8) 2 0 = 4096 ∧
      (privileged.warp 0).word (.s 8) 2 0 = 1048576 ∧ (privileged.warp 0).opd (.s 12) 2 0 = 2 ^ 48 - 4096 ∧
      (privileged.warp 0).word (.s 12) 2 0 = 2 ∧ (privileged.warp 0).word (.s 12) 3 0 = 0 ∧
      (privileged.warp 0).word (.s 16) 2 0 = 0) :=
  ⟨fun n hn => ready (List.all_eq_true.mp (by decide +kernel :
      ([0x000, 0x001, 0x002, 0x003, 0x010, 0x011, 0x020, 0x021, 0x022].all fun n =>
        readyB privileged (.prd cu (fs (.s 1) .zero (.ofNat 24 n))) x0) = true) n hn),
    by decide +kernel, allReady (by decide +kernel), allReady (by decide +kernel), by decide +kernel, by decide +kernel,
    by decide +kernel, by decide +kernel, by decide +kernel, by decide +kernel, ready (by decide +kernel), by decide +kernel⟩

/-- `b1` over 4 KiB of shared memory, `b2` over 4 KiB of the Plinth, `b3` read-only, `b4` over scratch units the block does
not hold; lane L has 4·L in `v1` and in the pair `v6`, `v7`. -/
def spaces : State := withW fun w => { w with
  b := [(1, { space := 1, r := true, w := true, a := true, limit := 0x1000 }),
    (2, { space := 2, r := true, w := true, a := true, limit := 0x1000 }), (3, { space := 1, r := true, limit := 0x1000 }),
    (4, { space := 2, r := true, w := true, g := true, limit := 0x1000 })]
  v := (allLanes.map fun l => (32 + l, .ofNat 32 (4 * l))) ++ allLanes.map fun l => (192 + l, .ofNat 32 (4 * l)) }

theorem witness_AddressChecks : (∀ i ∈ ([.ld ct (fm (.v 3) 0 .n32), .st ct (fm (.v 3) 3 .n32), .ld ct (fm (.v 3) 4 .n32),
    .st ct (fm (.v 3) 1 .n32 0 (.v 1) .zero 2), .ld ct (fm (.v 3) 1 .n32 0 (.v 1) .zero 0xF84)] : List Instr), Ready spaces i x0) ∧
    ((spaces.warp 0).rb 0).space = 0 ∧ ((spaces.warp 0).rb 3).w = false ∧
    spaces.unitBarred (spaces.wblk 0) true 0 = true ∧ spaces.unitBarred (spaces.wblk 0) false 0 = false ∧
    ¬ (4 : Int) ∣ (spaces.warp 0).ea (fm (.v 3) 1 .n32 0 (.v 1) .zero 2) 4 0 ∧
    (spaces.warp 0).ea (fm (.v 3) 1 .n32 0 (.v 1) .zero 0xF84) 4 30 + 4 = 0x1000 ∧
    (spaces.warp 0).ea (fm (.v 3) 1 .n32 0 (.v 1) .zero 0xF84) 4 31 + 4 = 0x1004 :=
  ⟨allReady (by decide +kernel), by decide +kernel⟩

theorem witness_LoadAndStore :
    (Ready spaces (.ld ct (fm (.v 3) 1 .s8 0 (.v 1))) x0 ∧
      Passes spaces spaces x0 (fm (.v 3) 1 .s8 0 (.v 1)) false .load 1 .shared (fun _ => false) false ∧
      spaces.poisonFault x0 .shared 1 (spaces.keysAt x0 (fm (.v 3) 1 .s8 0 (.v 1)) false 1 .shared) = none) ∧
    (Ready spaces (.st ct (fm (.v 3) 2 .n32 0 (.v 1))) x0 ∧
      Passes spaces spaces x0 (fm (.v 3) 2 .n32 0 (.v 1)) false .store 4 .plinth (fun _ => true) false ∧
      spaces.flushHolds 0 (x0.lanes.flatMap fun l => addrs (4 * l) (bytesOf 4 0)) = false) :=
  ⟨⟨ready (by decide +kernel), ⟨by decide +kernel, by decide +kernel, by decide +kernel, by decide +kernel, by decide +kernel⟩,
      by decide +kernel⟩,
    ready (by decide +kernel), ⟨by decide +kernel, by decide +kernel, by decide +kernel, by decide +kernel, by decide +kernel⟩,
    by decide +kernel⟩

theorem witness_Atomics :
    (∀ i ∈ ([.atom ct (fm .zero 1 .n32 0x14 .zero (.v 6) 0 0), .atom ct (fm (.v 3) 1 .n32 0x00 .zero .zero 0 5),
      .atom ct (fm (.v 3) 1 .n32 0x38 .zero (.v 6) 0 1), .red ct (fm (.v 6) 1 .f16x2 0x30 .zero .zero 0 2),
      .atomcas ct (fm (.v 3) 1 .n32 0x06 .zero (.v 6) 0 3)] : List Instr), Ready spaces i x0) ∧
    Passes spaces spaces x0 (fm (.v 6) 1 .f16x2 0x30 .zero .zero 0 2) false .atomic 4 .shared (fun _ => true) true ∧
    Passes spaces (spaces.readMsgs 0 1 4 []) x0 (fm (.v 3) 1 .n32 0x38 .zero (.v 6) 0 1) false .atomic 4 .shared
      (fun _ => true) true ∧
    (ordRel 4 = true ∧ spaces.releaseCheck x0 = none) ∧
    spaces.poisonFault x0 .shared 4 (spaces.keysAt x0 (fm (.v 3) 1 .n32) false 4 .shared) = none ∧
    spaces.flushHolds 0 (x0.lanes.map fun _ => (0, 0)) = false :=
  ⟨allReady (by decide +kernel),
    ⟨by decide +kernel, by decide +kernel, by decide +kernel, by decide +kernel, by decide +kernel⟩,
    ⟨by decide +kernel, by decide +kernel, by decide +kernel, by decide +kernel, by decide +kernel⟩,
    ⟨by decide, rfl⟩, by decide +kernel, by decide +kernel⟩

/-- A spill stack of 16 bytes for each thread. -/
def spilling : State := spaces.modGrid 0 fun g => recBits g [(448, 16)]

theorem witness_SpillStack : (∀ i ∈ ([.ldk ct (fm (.v 4) 0 .n64 0 .zero .zero 8), .stk ct (fm (.v 4) 0 .b128),
    .ldk ct (fm (.v 4) 0 .n32 0 .zero .zero 6), .stk ct (fm (.v 4) 0 .n32 0 .zero .zero 16),
    .ldk ct (fm (.v 4) 0 .n32 0 .zero .zero 0xFFFFFC)] : List Instr), Ready spilling i x0) ∧
    (spilling.wgrid 0).spill = 16 ∧ spilling.localPoison .plinth 0 4 = false := ⟨allReady (by decide +kernel), by decide +kernel⟩

/-- Index operands 4096 and 4097 in `s1` and `s2`. -/
def indexed : State := spaces.modWarp 0 fun w => { w with s := [(1, 0x1000), (2, 0x1001)] }

theorem witness_BoundedRegisters : (∀ i ∈ ([.badv cu (fm .zero 1 .s32 0 (.s 1)), .badv cu (fm .zero 1 .s32 0 (.s 2)),
    .badv cu (fm .zero 1 .s32 0 .zero .zero 0xFFFFFF), .bnarrow cu (fm (.v 15) 1 .n32 7 .zero (.s 1)),
    .bnarrow cu (fm (.v 0) 1 .n32 3 .zero (.s 2)), .bnarrow cu (fm (.v 0) 1 .n32 3 (.s 2) (.s 1)),
    .bget cu (fm (.s 4) 1 .n32)] : List Instr), Ready indexed i x0) ∧
    (∀ i ∈ ([.badv cnu (fm .zero 1 .s32), .bnarrow cnu (fm (.v 1) 1 .n32)] : List Instr), Ready indexed i xn) ∧
    (indexed.warp 0).opdS (.s 1) 0 = 0x1000 ∧ ((indexed.warp 0).rb 1).limit = 0x1000 ∧ (indexed.warp 0).opd (.s 2) 1 0 = 0x1001 :=
  ⟨allReady (by decide +kernel), allReady (by decide +kernel), by decide +kernel⟩

/-- A window over `b2`, its chunk to be filled. -/
def windowed : State := { mapped spaces with
  windows := [(0, { limit := 0x1000, va := 0x4000 })], clusters := [(0, { fills := [(0, 0, 0)] })] }
/-- The same with the chunk filled and one byte dirty. -/
def dirtied : State := { mapped spaces with windows := [(0, { limit := 0x1000, va := 0x4000, filled := [0], dirty := [4095] })] }

/-- A store for the window's chunk set aside. -/
def logged : State := { dirtied with
  parked := [{ ctx := 0, page := 0x4000, unit := .mapUnit 0, kind := .local 0 0 0 [(0, 1)], wno := 1 }] }
/-- A cluster whose 64 windows stand elsewhere. -/
def full64 : State := { spaces with
  windows := (List.range 64).map fun k => (k, { base := 0x2000 + 0x1000 * k, limit := 0x3000 + 0x1000 * k, va := 0x4000 + 0x1000 * k }) }

theorem witness_WindowCases : (Ready full64 (.wmap cu (fm (.s 4) 2 .n64 0 .zero .zero 0 1)) x0 ∧ ¬ full64.windowCount 0 < 64 ∧
      ∀ p ∈ full64.windows, 0x2000 ≤ p.2.base ∧ 0x4000 ≤ p.2.va) ∧
    (Ready logged (.wunmap cu (fm .zero 2 .n32)) x0 ∧ Ready logged (.wflush ca (fm .zero 2 .n32)) x0 ∧
      logged.windowsIn 0 ((logged.warp 0).rb 2) = [0] ∧ logged.windowLogged [0] = true ∧ dirtied.windowLogged [0] = false) ∧
    (windowed.fillHeld 0 0 0 = false ∧ (windowed.modCluster 0 fun c => { c with fills := [] }).vread (.mapUnit 0) 0 0x4000 4096 ≠ (.error 0, windowed)) ∧
    (([4095] : List Nat).Nodup ∧ (∀ o ∈ [4095], ((dirtied.window 0).va + o) / 64 = 0x13F) ∧
      dirtied.logRoom (.mapUnit 0) 1 = true ∧ dirtied.sectorLogged (.mapUnit 0) 0 0x13F = false ∧
      (dirtied.xlate (.mapUnit 0) 0 (0x13F * 64 / 4096 * 4096) true).1 = some 0x4000 ∧ dirtied.readsPlain 0 0x4FFF = true) ∧
    ((base.wblk 0).st ≠ .saved ∧ ((base.modBlk 0 fun b => { b with st := .saved }).wblk 0).st = .saved) :=
  ⟨⟨ready (by decide +kernel), by decide +kernel⟩, ⟨ready (by decide +kernel), ready (by decide +kernel), by decide +kernel⟩,
    by decide +kernel, by decide +kernel, by decide +kernel⟩

theorem witness_Windows : (∀ i ∈ ([.wmap cu (fm (.s 4) 1 .n64 0 .zero .zero 0 1), .wmap cu (fm (.s 4) 2 .n64 0 .zero .zero 0 1),
    .wmap cu (fm (.s 4) 5 .n64 0 .zero .zero 0 1), .wunmap cu (fm .zero 2 .n32)] : List Instr), Ready spaces i x0) ∧
    (((spaces.warp 0).rb 1).space ≠ 2 ∧ ((spaces.warp 0).rb 2).space = 2 ∧ ((spaces.warp 0).rb 2).r = true ∧
      ((spaces.warp 0).rb 2).base.toNat % 4096 = 0 ∧ ((spaces.warp 0).rb 2).limit.toNat = 4096 ∧ spaces.windows = [] ∧
      spaces.windowCount 0 < 64 ∧ spaces.windowsIn 0 ((spaces.warp 0).rb 2) = [] ∧
      (spaces.warp 0).opd (.s 4) 2 0 % 2 ^ 48 = 0) ∧
    (Ready dirtied (.wunmap cu (fm .zero 2 .n32)) x0 ∧ dirtied.windowsIn 0 ((dirtied.warp 0).rb 2) = [0] ∧
      (dirtied.unmapReads x0 (dirtied.dirtyOf [0])).toBool = true ∧
      (dirtied.writeBacks id .unmap (dirtied.dirtyOf [0])).1 = [] ∧
      (dirtied.writeBacks id .unmap (dirtied.dirtyOf [0])).2.unmapParked 0 = false ∧ (dirtied.warp 0).unmapFault = none) ∧
    (Ready dirtied (.wflush ca (fm .zero 2 .n32)) x0 ∧ dirtied.flagFull 0 0 = false ∧
      ((dirtied.acceptOp x0 (.wflush (dirtied.dirtyOf [0])) 0).dirtyWords (dirtied.dirtyOf [0])).length = 1) ∧
    (Ready spaces (.wflush ca (fm .zero 2 .n32)) x0 ∧
      Ready (dirtied.modWarp 0 fun w => { w with flags := [(0, 255)] }) (.wflush ca (fm .zero 2 .n32)) x0 ∧
      (dirtied.modWarp 0 fun w => { w with flags := [(0, 255)] }).flagFull 0 0 = true) ∧
    ((windowed.cluster 0).fills = [(0, 0, 0)] ∧ (tfind windowed.windows 0).isSome = true ∧ 0 ∉ (windowed.window 0).filled ∧
      (windowed.vread (.mapUnit 0) 0 0x4000 4096).1.toBool = true) ∧
    (({ base with ops := [(3, { warp := 0, kind := .wflush [], flags := [0], pc := 0 })] } : State).flushParked 3 = false ∧
      tfind [(3, ({ warp := 0, kind := .wflush [(0, [1])], flags := [0], pc := 0 } : AsyncOp))] 3 ≠ none ∧
      ({ base with parked := [{ ctx := 0, page := 0, unit := .mapUnit 0, kind := .write 0 [] (.flush 3) }] } : State).flushParked 3
        = true) :=
  ⟨allReady (by decide +kernel), by decide +kernel, ⟨ready (by decide +kernel), by decide +kernel⟩,
    ⟨ready (by decide +kernel), by decide +kernel⟩, ⟨ready (by decide +kernel), ready (by decide +kernel), by decide +kernel⟩,
    by decide +kernel, by decide +kernel⟩

/-- f3 pending on one operation; a fault pending on f4; one write issued and not drained; a fault taken at a drain. -/
def pending : State := withW fun w => { w with
  flags := [(3, 1)], faults := [{ flags := [4], acc := 0, fr := precise 0x12 0 }], wissue := 1 }
/-- A warp that has something to report at its next release. -/
def faulted : State := withW fun w => { w with drainFaults := [precise 0x10 0] }
/-- A warp with a store set aside. -/
def setAside : State := { base with
  parked := [{ ctx := 0, page := 0, unit := .mapUnit 0, kind := .write 0 [(0, 1)] .heap, wno := 1 }] }

theorem witness_FencesAndWaits : (∀ i ∈ ([.fence cu (fs .zero .zero 0 0x2C), .fence cu (fs .zero .zero 0 0x01),
    .waitf cu (fs .zero .zero 0), .drain cu (fs .zero .zero)] : List Instr), Ready base i x0) ∧
    (base.storeParked 0 = false ∧ (base.warp 0).drainFaults = [] ∧ (base.warp 0).flagsClear 0 = true ∧ (base.warp 0).flagFault 0 = none) ∧
    (Ready setAside (.fence cu (fs .zero .zero 0 0x02)) x0 ∧ setAside.storeParked 0 = true) ∧
    (Ready pending (.waitf cu (fs .zero .zero 8)) x0 ∧ (pending.warp 0).flagsClear 8 = false ∧
      Ready pending (.waitf cu (fs .zero .zero 16)) x0 ∧ (pending.warp 0).flagsClear 16 = true ∧
      ((pending.warp 0).flagFault 16).isSome = true) ∧
    (Ready base (.drain cnu (fs .zero .zero)) xn ∧ Ready pending (.drain cu (fs .zero .zero)) x0 ∧
      (pending.warp 0).wdrain < (pending.warp 0).wissue ∧ Ready faulted (.drain cu (fs .zero .zero)) x0 ∧
      (faulted.warp 0).drainFaults ≠ []) ∧ pending.writeParked 0 1 = false ∧ (base.warp 0).wissue ≤ (base.warp 0).wdrain :=
  ⟨allReady (by decide +kernel), by decide +kernel, ⟨ready (by decide +kernel), by decide +kernel⟩,
    ⟨ready (by decide +kernel), by decide +kernel, ready (by decide +kernel), by decide +kernel⟩,
    ⟨ready (by decide +kernel), ready (by decide +kernel), by decide +kernel, ready (by decide +kernel), by decide +kernel⟩,
    by decide +kernel⟩

/-- A block of two warps. -/
def pairWarps : State :=
  { base with warps := tset base.warps 1 { block := 0, idx := 1 }, blocks := tmod {} base.blocks 0 fun b => { b with warps := [0, 1] } }

theorem witness_Barriers : (∀ i ∈ ([.bar cu (fm .zero 0 .n32), .gbar cu (fm .zero 0 .n32)] : List Instr), Ready base i x0) ∧
    (∀ i ∈ ([.bar cu (fm .zero 0 .n32), .gbar cu (fm .zero 0 .n32)] : List Instr), Ready pairWarps i x0) ∧
    (base.warp 0).bar = none ∧ base.storeParked 0 = false ∧ (pairWarps.warp 1).bar ≠ some 0 ∧ (pairWarps.warp 1).retired = false ∧
    (let s := (withW fun w => { w with bar := some 0 }).modBlk 0 fun b => { b with barGen := 1 }
     readyB s (.bar cu (fm .zero 0 .n32)) x0 = true ∧ (s.warp 0).bar = some 0 ∧ 0 < (s.blk 0).barGen) :=
  ⟨allReady (by decide +kernel), allReady (by decide +kernel), by decide +kernel⟩

/-! #### The matrix unit and claims -/

/-- Two tiles named z0 and z1, format slot 1 for moments, `b1` over 128 KiB of shared memory, and the convergence registers
c0 (uninitialised), c1 (expecting 32), c2 (expecting 32, lane 5 signed for another tile), c3 (expecting 31). -/
def tiled : State :=
  let s := withW fun w => { w with
    b := [(1, { space := 1, r := true, w := true, a := true, limit := 0x20000 })]
    c := [(1, { init := true, expect := 32 }), (2, { init := true, expect := 32, mask := 32, zd := 5 }),
      (3, { init := true, expect := 31 })] }
  (s.modBlk 0 fun b => { b with tiles := [(0, 0, false), (1, 1, false)] }).modGrid 0 fun g => recBits g [(544, 0x400)]

/-- Fields of format X. -/
def fx (zd : BitVec 3) (a : Opd := .zero) (cv : BitVec 4 := 0) (slot : BitVec 3 := 0) (sa : Opd := .zero) (mod : BitVec 8 := 0)
    (zs : BitVec 3 := 0) (off : BitVec 24 := 0) (bx : BitVec 4 := 1) : FX :=
  { zd := zd, zs := zs, a := a, bx := bx, off := off, fslot := slot, cv := cv, mod := mod, sa := sa }

/-- Flag f0 full. -/
def flagFull (s : State) : State := s.modWarp 0 fun w => { w with flags := [(0, 15)] }

theorem witness_Convergence :
    (∀ i ∈ ([.cinit cu (fs .zero .zero 1), .cinit cu (fs .zero .zero 32 15), .cinit cu (fs .zero .zero 0),
      .cinit cu (fs .zero .zero 33), .cinit cu (fs .zero .zero 8 2), .mma cat (fx 0 (.v 8) 0), .mma cat (fx 0 (.v 8) 1),
      .mma cat (fx 0 (.v 8) 2), .mmom cat (fx 0 (.v 8) 1 1)] : List Instr), Ready tiled i x0) ∧
    Ready tiled (.cinit cnu (fs .zero .zero 1)) xn ∧
    (Ready (flagFull tiled) (.mma cat (fx 0 (.v 8) 1)) x0 ∧ 15 ≤ ((flagFull tiled).warp 0).flag 0) ∧
    (Ready (tiled.modWarp 0 fun w => { w with p := [(0, 1)] }) (.mma (cc (.pred false 0) .setA false) (fx 0 (.v 8) 1))
      { x0 with lanes := [0] }) ∧
    ((tiled.warp 0).rc 0).init = false ∧ ((tiled.warp 0).rc 1).expect = 32 ∧ ((tiled.warp 0).rc 1).mask = 0 ∧
    ((tiled.warp 0).rc 2).mask &&& maskOf x0.lanes ≠ 0 ∧ (tiled.warp 0).latch = none :=
  ⟨allReady (by decide +kernel), ready (by decide +kernel), ⟨ready (by decide +kernel), by decide +kernel⟩,
    ready (by decide +kernel), by decide +kernel⟩

/-- An accepted operation on z0. -/
def withOp (k : AsyncKind) : State := { tiled with ops := [(0, { warp := 0, kind := k, flags := [0], pc := 0 })] }

theorem witness_TileMoves : (∀ i ∈ ([.zclr cu (fx 0 .zero 0 0 .zero 1 0 0 0), .zclr cu (fx 1 .zero 0 0 .zero 0 0 0 0),
    .zmov ct (fx 0 (.v 176) 0 0 .zero 1 0 23 0), .zmov ct (fx 1 (.v 0) 0 0 .zero 0 0 0 0)] : List Instr), Ready tiled i x0) ∧
    tiled.tilesBusy 0 [0] = false ∧ (tiled.zmovPoison x0 (fx 1 (.v 0) 0 0 .zero 0 0 0 0)).isNone = true ∧
    (Ready (withOp (.attfin 0)) (.zclr cu (fx 0 .zero 0 0 .zero 0 0 0 0)) x0 ∧
      Ready (withOp (.attfin 0)) (.zmov ct (fx 0 (.v 8) 0 0 .zero 0 0 0 0)) x0 ∧ (withOp (.attfin 0)).tilesBusy 0 [0] = true) ∧
    Ready tiled (.zclr cnu (fx 0 .zero 0 0 .zero 0 0 0 0)) xn ∧ Ready tiled (.zmov cn (fx 0 (.v 8) 0 0 .zero 0 0 0 0)) xn :=
  ⟨allReady (by decide +kernel), by decide +kernel, by decide +kernel,
    ⟨ready (by decide +kernel), ready (by decide +kernel), by decide +kernel⟩, ready (by decide +kernel), ready (by decide +kernel)⟩

/-- Guarded off, under f0. -/
def cna : Common := cc (.pred false 0) .setA true

theorem witness_MatrixAcceptance :
    (∀ i ∈ ([.zld ca (fx 0), .zst ca (fx 1), .att ca (fx 0 .zero 0 0 (.s 8) 0 1), .attfin ca (fx 0 .zero 0 0 .zero 0 0 0 0)] :
      List Instr), Ready tiled i x0 ∧ Ready (flagFull tiled) i x0) ∧
    (∀ i ∈ ([.zld cna (fx 0), .zst cna (fx 1), .att cna (fx 0 .zero 0 0 (.s 8) 0 1), .attfin cna (fx 0 .zero 0 0 .zero 0 0 0 0)] :
      List Instr), Ready tiled i xn) ∧ (tiled.warp 0).flag 0 = 0 ∧ ((flagFull tiled).warp 0).flag 0 = 15 :=
  ⟨fun i hi => ⟨allReady (by decide +kernel) i hi, allReady (by decide +kernel) i hi⟩, allReady (by decide +kernel),
    by decide +kernel⟩

/-- An access of an operation reaches its bytes. -/
def reaches (r : Reach) : Bool := match r with | .ok _ _ _ => true | _ => false
/-- `b1` of the state above. -/
def b1 : Bounded := { space := 1, r := true, w := true, a := true, limit := 0x20000 }

theorem witness_MatrixCompletions :
    (∀ k ∈ ([.mma false 0 0 0 {} 0 0 b1 0, .mma true 0 0x400 0 {} 0 0 b1 0, .zld 0 0 0 b1 0, .zst 0 0 0 b1 0,
      .att 0 1 b1 0 0 128 0 0x4000 0xC000, .attfin 0] : List AsyncKind),
      tfind (withOp k).ops 0 = some { warp := 0, kind := k, flags := [0], pc := 0 } ∧
      (withOp k).opFirst 0 { warp := 0, kind := k, flags := [0], pc := 0 } = true ∧ (withOp k).tilePoison 0 0 anyCol = false ∧
      (withOp k).tilePoison 0 1 anyCol = false) ∧
    reaches (tiled.reach 0 { warp := 0, kind := .attfin 0, flags := [0], pc := 0 } b1 false .load [0] 6144) = true ∧
    reaches (tiled.reach 0 { warp := 0, kind := .attfin 0, flags := [0], pc := 0 } b1 false .store (rowAddrs (slotElem 0) 0 0)
      (rowLen (slotElem 0) 0)) = true ∧ bNegative tiled.shared 0 = false ∧ tiled.tileKey 0 0 ≠ tiled.tileKey 0 1 := by
  decide +kernel

theorem witness_ClaimSafety : (List.replicate 18 (1 : Int)).length = 18 ∧
    (∀ p ∈ [(List.replicate 18 (1 : Int), List.replicate 18 (2 : Int))], p.1.length = 18 ∧ p.2.length = 18 ∧ ∀ a ∈ p.2, 0 ≤ a) := by
  decide

/-- A block that may claim two scratch units, two channels, sixteen granules and two tiles. -/
def claiming : State := base.modGrid 0 fun g => recBits g [(480, 2), (488, 2), (493, 60), (503, 2)]
/-- The same in a CONCURRENT grid. -/
def concurrent : State := claiming.modGrid 0 fun g => recBits g [(224, 1)]

theorem witness_ClaimRequests :
    (∀ i ∈ ([.acq cu (fs (.v 14) .zero 2), .acqTry cu (fs (.s 62) .zero 2 9 1), .acq cu (fs .zero .zero 8 2),
      .acqTry cu (fs (.s 63) .zero 2 0x0B 2), .acq cu (fs (.v 15) .zero 2), .acq cu (fs .zero .zero 1 7),
      .acq cu (fs (.v 0) .zero 0), .acq cu (fs (.v 0) .zero 3), .acqTry cu (fs .zero .zero 0 10 1)] : List Instr),
      Ready claiming i x0 ∧ Ready concurrent i x0) ∧
    (∀ i ∈ ([.acq cnu (fs (.v 14) .zero 2), .acqTry cnu (fs (.s 62) .zero 2 9 1)] : List Instr), Ready claiming i xn) ∧
    ((claiming.wgrid 0).maxClaim = [2, 2, 60, 2] ∧ (concurrent.wgrid 0).cls = 1 ∧ (claiming.wgrid 0).cls = 0 ∧
      (claiming.wgrid 0).warpsPer * (claiming.wgrid 0).warpReg + 8 ≤ 60 ∧ (claiming.warp 0).acqRefused = []) ∧
    (let s := claiming.modWarp 0 fun w => { w with acqRefused := [0] }
     readyB s (.acq cu (fs (.v 14) .zero 2)) x0 = true ∧ (s.cluster 0).deferred.length < 128 ∧
      128 ≤ ((s.modCluster 0 fun c => { c with deferred := List.replicate 128 (.release 0 [] false) }).cluster 0).deferred.length) ∧
    (((List.range (claiming.unitCount 0)).filter (claiming.unitFree 0)).take 4).length = 4 ∧
    (((List.range 16).filter fun i => (claiming.chan (16 * 0 + i)).owner.isNone).take 4).length = 4 :=
  ⟨fun i hi => ⟨allReady (by decide +kernel) i hi, allReady (by decide +kernel) i hi⟩, allReady (by decide +kernel),
    by decide +kernel, by decide +kernel, by decide +kernel, by decide +kernel⟩

/-! #### Releases, deques, bounds, moments -/

/-- A block that holds, beyond its static resources, a scratch unit named by `b1`, a channel numbered in `s1`, four granules
and the tile z5 in the mask of `v8`; `s2` names a channel it does not hold. -/
def holding : State :=
  let s := claiming.modWarp 0 fun w => { w with
    b := [(1, { g := true, space := 2, r := true, w := true, base := .ofNat 32 (2 * Config.unitBytes)
                limit := .ofNat 32 (3 * Config.unitBytes) })]
    s := [(1, 3), (2, 4)], v := [(32 * 8, 32), (32 * 9, 1)], granules := 4 }
  s.modBlk 0 fun b => { b with units := [(0, true), (2, false)], chans := [3], dynReg := 4, tiles := [(0, 0, true), (5, 1, false)] }

/-- A claimant's request at the head of a cluster's queue. -/
def asking (n : Nat) (t : Option (BitVec 3)) : State :=
  let s := (holding.modGang 0 fun g => { g with claim := 2 :: List.replicate 17 0, alloc := List.replicate 18 0 })
  { s with dev := { s.dev with slices := [(0, 64 <<< 128 ||| 16 <<< 141)] } }.modCluster 0 fun c => { c with queue := [.request 0 0 0xFFFFFFFF 0xFFFFFFFF 0 n (.v 15) t] }

theorem witness_ClaimReleases :
    (Ready holding (.rel cnu (fs .zero (.v 1) 1 0)) xn) ∧
    (∀ i ∈ ([.rel cu (fs .zero (.v 2) 1 0), .rel cu (fs .zero (.v 1) 1 0), .rel cu (fs .zero (.s 1) 1 1),
      .rel cu (fs .zero (.s 2) 1 1), .rel cu (fs .zero .zero 4 2), .rel cu (fs .zero .zero 5 2), .claimrd cu (fs (.s 4) .zero 0 0),
      .claimrd cu (fs (.s 4) .zero 0 3), .claimrd cu (fs (.s 4) .zero 0 4), .claimrd cu (fs (.s 63) .zero 0 0)] : List Instr),
      Ready holding i x0) ∧ Ready holding (.claimrd cnu (fs (.s 4) .zero 0 0)) xn ∧
    (holding.unitAt 0 (2 * Config.unitBytes) = some 2 ∧ (holding.cluster 0).pool = none ∧
      (({ holding.cluster 0 with pool := some [2, 0] } : Cluster).pool = some [2, 0] ∧ ([2, 0] : List Nat).Nodup)) ∧
    (holding.relNames x0 (fs .zero (.v 2) 1 0) = none ∧ holding.relNames x0 (fs .zero (.s 2) 1 1) = none ∧
      holding.relNames x0 (fs .zero .zero 5 2) = none) ∧
    (holding.relNames x0 (fs .zero (.v 1) 1 0) = some [2] ∧ holding.unitBusy 0 0 2 = false ∧
      (holding.writeBacks (fun p => { p with warp := 0, pc := 0 }) .exitWriteBack
        (holding.dirtyOf ([2].flatMap (holding.unitWindows 0 0)))).1 = [] ∧
      (holding.writeBacks (fun p => { p with warp := 0, pc := 0 }) .exitWriteBack
        (holding.dirtyOf ([2].flatMap (holding.unitWindows 0 0)))).2.exitParked 0 = false) ∧
    (holding.relNames x0 (fs .zero (.s 1) 1 1) = some [3] ∧ (holding.chan 3).queue = []) ∧
    (let s := holding.modChan 3 fun h => { h with queue := [{}] }
     readyB s (.rel cu (fs .zero (.s 1) 1 1)) x0 = true ∧ s.relNames x0 (fs .zero (.s 1) 1 1) = some [3] ∧
      [3].any (fun n => !(s.chan n).queue.isEmpty) = true) ∧
    (holding.warp 0).granules = 4 ∧
    (let s := holding.modWarp 0 fun w => { w with s := [(1, 32)] }
     readyB s (.rel cu (fs .zero (.s 1) 0 3)) x0 = true ∧ s.relNames x0 (fs .zero (.s 1) 0 3) = some [5] ∧
      s.tilesBusy 0 [5] = false) ∧
    (((asking 1 none).modCluster 0 fun q => { q with queue := [] }).testRequest 0 (columnsOf 0 (amounts 0 1)) = true ∧
      ((asking 500 (some 1)).modCluster 0 fun q => { q with queue := [] }).testRequest 0 (columnsOf 0 (amounts 0 500)) = false ∧
      ((asking 1 none).cluster 0).deferred.length < 128) ∧
    (List.replicate 128 (ArbOp.release 0 [] false)).length = 128 :=
  ⟨ready (by decide +kernel), allReady (by decide +kernel), ready (by decide +kernel), by decide +kernel, by decide +kernel,
    by decide +kernel, by decide +kernel, by decide +kernel, by decide +kernel, by decide +kernel, by decide +kernel,
    by decide +kernel⟩

/-- A deque of 16 slots at the start of `b2`, owned by the warp, with two entries of the stamp n. -/
def dequed (n : Nat) : State :=
  { spaces with plinth := wrList [] (addrs 0 (bytesOf 64 ({ top := 0, bottom := 2, owner := (spaces.warp 0).tag, logcap := 4
                                                            valid := true, junk := false } : Deque).code) ++
      addrs 72 (bytesOf 8 n) ++ addrs 88 (bytesOf 8 n)) }

/-- The operation waits at code pointer 0 for the deque of `dequed`, in the entry that `e` makes of its line, entered. -/
def stamped (i : Instr) (e : Entry → Entry) : State :=
  { (dequed 0).modWarp 0 fun w => { w with entries := [(0, e { entered := true, waited := true
                                                               line := (((encode i).getD 0).setWidth 512) <<< 32 })] } with
    dqWaits := [{ key := 0, warp := 0, instr := i, cp := 0 }] }
/-- A deque whose descriptor ends at a scratch unit that a finished block of the gang held. -/
def split : State :=
  let s : State := { spaces with
    dev := { spaces.dev with scru := 64 }
    blocks := tset spaces.blocks 1 { grid := 0, gang := 0, st := .finished, units := [(1, true)] } }
  (s.modGang 0 fun g => { g with blocks := [0, 1] }).modWarp 0 fun w => { w with
    b := [(2, { space := 2, r := true, w := true, a := true, limit := 0x200000 })] }

theorem witness_Deques :
    (∀ i ∈ ([.dqinit cu (fm (.s 6) 2 .n64), .dqpush ct (fm (.v 6) 2 .n64 0 .zero .zero 0 1),
      .dqpop ct (fm (.v 8) 2 .n64 0 .zero .zero 0 1), .dqsteal ct (fm (.v 8) 2 .n64 0 .zero .zero 0 1)] : List Instr),
      Ready ((dequed 0).modWarp 0 fun w => { w with s := [(6, 4)] }) i x0) ∧
    Ready (dequed 1) (.dqpop ct (fm (.v 8) 2 .n64 0 .zero .zero 0 1)) x0 ∧ Ready (dequed 1) (.dqpush cn (fm (.v 6) 2 .n64)) xn ∧
    (let d := dequeOf (rdNat (dequed 1).plinth 0 64)
     d.bottom - d.top = 2 ∧ d.logcap = 4 ∧ d.owner = (spaces.warp 0).tag ∧
      (∀ op ∈ [DqOp.push, .pop, .steal],
        (dequed 1).dqEarly x0 op (fm (.v 6) 2 .n64) = none ∧ (dequed 1).dqLate x0 op (fm (.v 6) 2 .n64) d = none) ∧
      ((dequed 0).modWarp 0 fun w => { w with s := [(6, 4)] }).dqEarly x0 .init (fm (.s 6) 2 .n64) = none ∧
      ((dequed 0).modWarp 0 fun w => { w with s := [(6, 4)] }).dqLate x0 .init (fm (.s 6) 2 .n64) d = none ∧
      ((dequed 0).dqEarly x0 .pop (fm (.v 8) 3 .n64)).isSome = true ∧
      (spaces.dqLate x0 .pop (fm (.v 8) 2 .n64) (dequeOf 0)).isSome = true ∧
      (dequed 1).poisonFault x0 .plinth 64 [(0, 0)] = none ∧
      (dequed 1).poisonFault x0 .plinth 16 (d.serves .pop 0 allLanes) = none ∧ ((dequed 1).warp 0).drainFaults = [] ∧
      (dequed 1).dqBehind 0 x0 = false ∧
      (dequed 0).stampMet 0 d.owner (rdNat (dequed 0).plinth 72 8) = true ∧
      (dequed 0).stampMet 0 d.owner (rdNat (dequed 0).plinth 88 8) = true ∧
      (dequed 1).stampMet 0 d.owner (rdNat (dequed 1).plinth 88 8) = false) ∧
    (dequed 1).fillNeed 0 [0, 64, 80] 16 = .filled ∧
    ((dequed 1).raceCheck x0 .plinth 64 [(0, 0)] (fun _ => true) true = .ok (dequed 1) ∧
      (dequed 1).raceCheck x0 .plinth 16 [(0, 80), (1, 64)] (fun _ => false) true = .ok (dequed 1)) ∧
    (split.dqEarly x0 .push (fm (.v 6) 2 .n64 0 .zero .zero 0xFFFC0) = none ∧
      split.dqLate x0 .push (fm (.v 6) 2 .n64 0 .zero .zero 0xFFFC0) { dequeOf 0 with logcap := 4, valid := true, junk := false } = none ∧
      (split.dqBarred x0 (fm (.v 6) 2 .n64 0 .zero .zero 0xFFFC0) 0xFFFC0 [(0, 0x100000)]).isSome = true) :=
  ⟨allReady (by decide +kernel), ready (by decide +kernel), ready (by decide +kernel), by decide +kernel, rfl,
    ⟨rfl, rfl⟩, by decide +kernel⟩

/-- What the statement on DEQUE_STAMP_MET needs of the entry at code pointer 0, for the operation that waits there. -/
def stampB (i : Instr) (s : State) : Bool :=
  let q : DqWait := { key := 0, warp := 0, instr := i, cp := 0 }
  (s.dqWaits.find? fun q => q.warp == 0 && (s.warp 0).choice == some q.cp) == some q && (dqParts i).isSome &&
    s.pick 0 i.common.grd == some x0 && s.mayIssue 0
/-- Its checks pass up to the generic faults. -/
def heldB (i : Instr) (s : State) : Bool :=
  let e := (s.warp 0).entry 0
  stampB i s && e.entered && decode (lineSlot e.line (cpSlot 0)) == .ok i && e.waited && !s.awaits x0 i

theorem witness_StampMet :
    let i : Instr := .dqpop ct (fm (.v 8) 2 .n64)
    let p : Instr := .dqpush ct (fm (.v 6) 2 .n64)
    let f := fm (.v 8) 2 .n64
    (stampB i (stamped i fun e => { e with entered := false }) = true ∧
      (((stamped i fun e => { e with entered := false }).warp 0).entry 0).entered = false) ∧
    (stampB i (stamped i fun e => { e with line := 0 }) = true ∧
      decode (lineSlot (((stamped i fun e => { e with line := 0 }).warp 0).entry 0).line (cpSlot 0)) ≠ .ok i) ∧
    (let s := (stamped p id).modWarp 0 fun w => { w with poison := [(0, 32 * 6)] }
     heldB p s = true ∧ (s.genericFault false x0 p).isSome = true) ∧
    (let s := stamped i id
     heldB i s = true ∧ s.genericFault false x0 i = none ∧ (match s.dqAct x0 i .pop f with | .adv _ => true | _ => false) = true) ∧
    (let i : Instr := .dqpop ct (fm (.v 8) 3 .n64)
     let s := stamped i id
     heldB i s = true ∧ s.genericFault false x0 i = none ∧
      (match s.dqAct x0 i .pop (fm (.v 8) 3 .n64) with | .raise _ _ => true | _ => false) = true) ∧
    (let s : State := { stamped i id with windows := [(0, { limit := 0x1000, va := 0x4000, faulted := [0] })] }
     heldB i s = true ∧ s.genericFault false x0 i = none ∧ (match s.dqAct x0 i .pop f with | .set _ => true | _ => false) = true) ∧
    (let s : State := { stamped i id with plinth := (dequed 1).plinth }
     heldB i s = true ∧ s.genericFault false x0 i = none ∧
      (match s.dqAct x0 i .pop f with | .keep _ => true | _ => false) = true) := by decide +kernel

/-- NaN in the pair `v8`, `v9`; ascending values in `v6`, `v7`. -/
def bounds : State := spaces.modWarp 0 fun w => { w with v := w.v ++ allLanes.map fun l => (32 * 9 + l, 0x7FF80000) }

theorem witness_GangBounds :
    (∀ i ∈ ([.bndmin ct (fs .zero (.v 6) 0 0x00 1), .bndmin ct (fs .zero (.v 6) 0 0x05 1), .bndmin ct (fs .zero (.v 6) 0 0x0A 1),
      .bndmin ct (fs .zero (.v 8) 0 0x0B 1), .bndrd ct (fs (.v 2) .zero 0 3), .bndrd cu (fs (.s 2) .zero 0 2)] : List Instr),
      Ready bounds i x0) ∧ Ready bounds (.bndmin cn (fs .zero (.v 6) 0 0 1)) xn ∧
    (∀ k ∈ allLanes, 0x7FF0000000000000 < (bounds.warp 0).opd (.v 8) 2 k % 2 ^ 63) ∧
    (∀ k ∈ allLanes, 0 < k → (bounds.warp 0).opd (.v 6) 2 0 < (bounds.warp 0).opd (.v 6) 2 k) ∧
    (bounds.gang 0).bnd.getD 0 0 = 0x7FF0000000000000 ∧ (bounds.gang 0).bnd.length = 4 ∧
    (({ bounds with bndMsgs := [(0, 1, 2, 5)] } : State).bndMsgs.find? fun (g, c, m, _) => g == 0 && c == 1 && m == 2) =
      some (0, 1, 2, 5) :=
  ⟨allReady (by decide +kernel), ready (by decide +kernel), by decide +kernel, by decide +kernel, by decide +kernel⟩

/-- Fields of format K. -/
def fk (v : Opd := .zero) (mod : BitVec 8 := 0) (mb : BitVec 6 := 0) (mc : BitVec 6 := 0) (md : BitVec 6 := 2)
    (ma : BitVec 6 := 1) (cov : BitVec 2 := 0) (pd : BitVec 3 := 7) : FK :=
  { md := md, ma := ma, mb := mb, mc := mc, v := v, cov := cov, mod := mod, pd := pd, off := 0 }

/-- Every lane has the moment (2, 1) in `m1` and (1, 1) in `m3`; `m4` has variance −1, and so has the pair `v10`, `v11`. -/
def moments : State := spaces.modWarp 0 fun w => { w with
  m := allLanes.flatMap fun l => [(32 + l, 0x3F80000040000000), (96 + l, 0x3F8000003F800000), (128 + l, 0xBF80000000000000)]
  v := w.v ++ allLanes.map fun l => (32 * 11 + l, 0xBF800000) }

theorem witness_Moments : (List.replicate 32 ({ mean := .fin false 1 0, var := .fin false 1 0 } : Mom)).length = 32 ∧
    (∀ i ∈ ([.mset ct (fk (.v 12) 0 0 0 2 0), .mset ct (fk (.v 10) 0 0 0 2 0), .mmov ct (fk .zero), .madd ct (fk .zero 0 3),
      .msub ct (fk .zero 0 3 0 2 1 1), .mmul ct (fk .zero 0 3 0 2 1 2), .mmax ct (fk .zero 0 3), .mmin ct (fk .zero 0 3),
      .mfma ct (fk (.v 6) 0 3 1 2 1 3), .mscl ct (fk (.v 1)), .mrelu ct (fk .zero), .mrelu ct (fk .zero 0 0 0 2 4),
      .msigm ct (fk .zero), .mexp ct (fk .zero), .mred ct (fk .zero), .mplt ct (fk (.v 2) 0 3 0 0),
      .mcol ct (fk (.v 2) 4 0 0 0), .mshfl ct (fk (.v 1) 0x13 0 0 2 1 0 1), .mld ct (fk (.v 6) 0 0 1 2 0),
      .mst ct (fk (.v 6) 0 0 1 0)] : List Instr), Ready (moments.modWarp 0 fun w => { w with v := w.v.map fun (k, x) =>
        if 192 ≤ k ∧ k < 224 then (k, x + x) else (k, x) }) i x0) ∧
    (∀ l ∈ allLanes, fv32 ((moments.warp 0).rm 1 l).toNat = .fin false 2 0 → False) ∧
    (∀ l ∈ allLanes, (fv32 (((moments.warp 0).rm 4 l).toNat / 2 ^ 32)).isNeg = true ∧
      (fv32 ((moments.warp 0).opd (.v 10) 2 l / 2 ^ 32)).isNeg = true) ∧ (moments.warp 0).mctl.getLsbD 0 = false ∧
    (let a : Mom := { mean := fv32 0x40000000, var := fv32 0x3F800000 }
     (runMom (mSum false .ind a a .nan)).1.neg = false ∧ (runMom (mProd .pos a a .nan)).1.neg = false ∧
      (runMom (mFma .neg a a a .nan)).1.neg = false ∧ (runMom (mScl (fv32 0x40000000) a)).1.neg = false) ∧
    (Passes moments moments x0 (mAddress (fk (.v 12) 0 0 1 2 0)) false .load 8 .shared (fun _ => false) false ∧
      moments.poisonFault x0 .shared 8 (moments.keysAt x0 (mAddress (fk (.v 12) 0 0 1 2 0)) false 8 .shared) = none) ∧
    Passes moments moments x0 (mAddress (fk (.v 12) 0 0 1 0)) false .store 8 .shared (fun _ => true) false ∧
    moments.flushHolds 0 (x0.lanes.flatMap fun l => addrs l (bytesOf 8 0)) = false :=
  ⟨by decide, allReady (by decide +kernel), by decide +kernel, by decide +kernel, by decide +kernel, by decide +kernel,
    ⟨⟨by decide +kernel, by decide +kernel, by decide +kernel, by decide +kernel, by decide +kernel⟩, by decide +kernel⟩,
    ⟨by decide +kernel, by decide +kernel, by decide +kernel, by decide +kernel, by decide +kernel⟩, by decide +kernel⟩

/-! #### The managed heap -/

/-- Lane 0 alone. -/
def c1 : Common := cc (.pred false 0) .none false
/-- The entry with lane 0 alone participating. -/
def x1 : Ix := { x0 with lanes := [0] }
/-- Fields of format H. -/
def fh (hd ha : BitVec 4) (v : Opd) (off : BitVec 24) (ty : Ty) (mod : BitVec 8 := 0) (hb : BitVec 4 := 0) (ix : Opd := .zero)
    (pd : BitVec 3 := 7) : FH :=
  { hd := hd, ha := ha, v := v, off := off, ty := ty, mod := mod, pd := pd, hb := hb, ix := ix }

/-- Context 0 has a region of four pages at 2 MiB with the epoch 1, two types of two words, the first a reference, and in its
first page one object of 48 bytes, the only one placed there, that refers to itself; `h1` and `h2` hold the reference, `v4` the size 32. -/
def heaped : State :=
  let s := trusted (mapped (withW fun w => { w with
    p := [(0, 1)], h := [(32, 0x200009), (64, 0x200009)], v := [(128, 32), (192, 0x200009)]
    s := [(5, 0x50000), (7, 1), (8, 16)] }))
  withMem { s with pageEnds := [(0, 0, 0, 48)] } [(34, 1), (39, 0x80), (0x10002, 0x20), (0x10008, 4), (0x1000A, 1), (0x10012, 2), (0x10016, 2), (0x1001A, 3),
    (0x1001E, 1), (0x10022, 4), (0x20000, 2), (0x20002, 1), (0x20040, 2), (0x20042, 1), (0x30000, 14), (0x200000, 3),
    (0x200010, 9), (0x200012, 0x20), (0x200018, 5)]
/-- Its first page is armed, with one entry of a given word 0. -/
def armed (w : Nat) : State :=
  withMem heaped ([(0x40001, 1), (0x40001, 0x11), (0x41014, 1)] ++ addrs 0x42000 (bytesOf 8 w))

/-- The port of the warp's core. -/
def port : Port := { unit := .heapPort 0, ctx := 0 }
/-- The region. -/
def region : Region :=
  { num := 0, desc := 0x10000, base := 0x200000, pages := 4, epoch := 1, cycle := false, types := 0x20000, ntypes := 2
    freeMap := 0x30000, fwdLen := 1, fwd := 0x40000 }
/-- What a computation of the port answers, if it does. -/
def ans {α : Type} (m : HeapM α) (s : State) : Option α := match runHeap m s with | (.ok a, _) => some a | _ => none
/-- It answers. -/
def does {α : Type} (m : HeapM α) (s : State) : Bool := (ans m s).isSome
/-- The code of the fault that ends it. -/
def failsBy {α : Type} (m : HeapM α) (s : State) : BitVec 8 := match runHeap m s with | (.error (.fault c _ _), _) => c | _ => 0

theorem witness_HeapBarrier :
    (∀ v ∈ [0x200009, 0x200008], v ≠ 0 ∧ v / 8 % 2 = 1 ∧ region.base ≤ v / 16 % 2 ^ 44 * 16 ∧
      v / 16 % 2 ^ 44 * 16 < region.base + region.pages * 2 ^ 21) ∧
    ¬ (region.base ≤ 0x1FFFF9 / 16 % 2 ^ 44 * 16) ∧ 0x200009 % 4 = region.epoch ∧ (0x20000A + 1) % 4 ≠ region.epoch ∧
    (0x200008 + 1) % 4 = region.epoch ∧
    (∀ w ∈ [0, 1, 0x400002, 3], does (hRead port 0x40000 8) (armed w) = true ∧ does (hRead port 0x42000 8) (armed w) = true ∧
      ans (hLookup port region 0x1100 0x200000) (armed w) = some (some 0x42000) ∧ ans (hRead port 0x42000 8) (armed w) = some w) ∧
    ans (hRead port 0x40000 8) (armed 0) = some 0x1100 ∧ ans (hRead port 0x40000 8) heaped = some 0 ∧ 0x1100 / 2 ^ 8 % 2 = 1 ∧
    ans (hLookup port region 0x1100 0x200010) (armed 0) = some none := by decide +kernel

theorem witness_HeapInstructions :
    (∀ i ∈ ([.hld c1 (fh 0 1 (.v 2) 24 .n64), .hst c1 (fh 0 1 (.v 2) 24 .n64), .hatom c1 (fh 0 1 (.v 2) 24 .n64 0x20 0 (.v 6) 0),
      .hatom c1 (fh 0 1 (.v 2) 24 .n64 0 0 .zero 5), .hcas c1 (fh 0 1 (.v 2) 24 .n32 4 0 (.v 8) 0), .hldr c1 (fh 3 1 .zero 16 .n64),
      .hstr c1 (fh 0 1 .zero 16 .n64 0 2), .hcmp c1 (fh 0 1 .zero 0 .n32 0 2 .zero 1), .hhdr c1 (fh 0 1 (.v 8) 0 .b128)] :
      List Instr), Ready heaped i x1) ∧
    (∀ i ∈ ([.hld c1 (fh 0 1 (.v 2) 24 .n64), .hatom c1 (fh 0 1 (.v 2) 24 .n64 0x20 0 (.v 6) 0), .hpin c1 (fh 0 1 (.v 2) 0 .n64),
      .hunpin c1 (fh 0 1 .zero 0 .n32), .hnew c1 (fh 4 0 (.v 4) 1 .n32)] : List Instr),
      Ready (heaped.modWarp 0 fun w => { w with p := [] }) i xn) ∧
    ans (hMine x1) heaped = some (port, region) ∧
    (let o : HObj := { lane := 0, addr := 0x200000, hdr := 3, type := 0x10002 }
     ans (hOpen port region x1 1) heaped = some [o] ∧
      does (hField false 8 (fun _ => 24) [o]) heaped = true ∧ does (hField true 8 (fun _ => 16) [o]) heaped = true ∧
      ans (hFieldPhys port 8 true (fun _ => 24) [o]) heaped = some [(o, (List.range 8).map (0x200018 + ·))] ∧
      does (hPoison (fun _ => 24) [(o, (List.range 8).map (0x200018 + ·))]) heaped = true ∧
      ans (hBarriers port region 0 [{ lane := 0, reg := none, val := 0x200009 }]) heaped = some [0x200009] ∧
      does (hHeal port 0 0 0x200010 0x200009 0x200009) heaped = true ∧
      (heaped.writeOrPark 0 port.unit 0 id .heap (sectors 0 (addrs 0x200018 (bytesOf 8 7)))).1 = [] ∧
      ∀ b ∈ (List.range 8).map (0x200018 + ·), heaped.readsPlain 0 b = true) ∧
    heaped.logRoom port.unit 1 = true ∧ heaped.releaseCheck x1 = none ∧ ordRel 2 = true ∧
    (hcasOp (fh 0 1 (.v 2) 24 .n32 4 0 (.v 8) 0) (heaped.warp 0)).op 0 0 = some 0 :=
  ⟨allReady (by decide +kernel), allReady (by decide +kernel), by decide +kernel, by decide +kernel, by decide +kernel,
    rfl, by decide, by decide +kernel⟩

/-- The side log of the core's heap port is full. -/
def loggedPort : State :=
  { heaped with parked := List.replicate 64 { ctx := 0, page := 0, unit := port.unit, kind := .write 0 [] .heap } }

theorem witness_HeapReferences :
    (∀ i ∈ ([.hmov c1 (fh 3 1 .zero 0 .n64 1), .hmov c1 (fh 3 0 (.v 6) 0 .n64), .hmov c1 (fh 3 0 (.v 4) 0 .n64),
      .hpin c1 (fh 0 1 (.v 2) 0 .n64), .hnew c1 (fh 4 0 (.v 4) 1 .n32), .hnew c1 (fh 4 0 (.v 4) 2 .n32)] : List Instr),
      Ready heaped i x1) ∧
    (0x200009 / 8 % 2 = 1 ∧ 0x200009 / 4 % 2 = 0 ∧ 0x200009 / 2 ^ 48 % 2 ^ 16 = 0) ∧
    ((heaped.warp 0).opd (.v 6) 2 0 = 0x200009 ∧ (heaped.warp 0).opd (.v 4) 2 0 = 32 ∧ 32 / 8 % 2 = 0) ∧
    (let s := withMem heaped [(0x40000, 1)]
     readyB s (.hunpin c1 (fh 0 1 .zero 0 .n32)) x1 = true ∧
      does (hPins port region false [{ lane := 0, addr := 0x200000, hdr := 3, type := 0x10002 }]) s = true) ∧
    does (hPins port region true [{ lane := 0, addr := 0x200000, hdr := 3, type := 0x10002 }]) heaped = true ∧
    (region.ntypes ≤ 2 ∧ ¬ region.ntypes ≤ 1 ∧ ¬ 2 ^ 30 - 16 < 32) ∧
    (does (hType port region 1) heaped = true ∧ ans (hAlloc port region 0 0 48) heaped = some 0x400000 ∧
      (heaped.writeOrPark 0 port.unit 0 id .heap (sectors 0 (newBytes 0x400000 32 1))).1 = [] ∧
      (loggedPort.writeOrPark 0 port.unit 0 id .heap (sectors 0 (newBytes 0x400000 32 1))).1 ≠ [] ∧ (heaped.warp 0).newAt = none) ∧
    (let y : NewObjects := { cp := 0, ent := allLanes, refs := [(0, 0x400009)], done := 0 }
     let s := heaped.modWarp 0 fun w => { w with newAt := some y }
     let l := sectors 0 (newBytes (0x400009 / 16 % 2 ^ 44 * 16) 32 1)
     readyB s (.hnew c1 (fh 4 0 (.v 4) 1 .n32)) x1 = true ∧ (s.warp 0).newAt = some y ∧ y.cp = x1.cp ∧ (y.refs.map (·.1)).Nodup ∧
      (s.writeOrPark 0 port.unit 0 id .heap (l.drop y.done)).1 = [] ∧
      ({ s with parked := loggedPort.parked }.writeOrPark 0 port.unit 0 id .heap (l.drop y.done)).1 ≠ []) :=
  ⟨allReady (by decide +kernel), by decide, by decide +kernel, by decide +kernel, by decide +kernel, by decide, by decide +kernel,
    by decide +kernel⟩

/-- A cycle of the region with one page of one entry. -/
def cycling (conf : Bool) (dest : Option (Nat × Nat)) : Cycle := { ctx := 0, region := 0, pages := [(0, 1)], conf := conf, dest := dest }
/-- The state of that cycle. -/
def inCycle (w : Nat) (c : Cycle) : State := { withMem (armed w) [(0x1000A, 5)] with cycles := [c] }
/-- A FREE command. -/
def freeCmd (w0 : Word) : EngineCmd := { words := [w0, 0, 0x200009], warp := 0, flag := 0, ctx := 0, pc := 0 }

theorem witness_Relocation :
    (∀ i ∈ ([.hflipMark cu (fh 0 0 (.s 4) 0 .n32 0 0 .zero 1), .hflipMark cu (fh 0 0 (.s 8) 0 .n32 0 0 .zero 1),
      .hflipConf cu (fh 0 0 (.s 4) 0 .n32 1), .hflipConf cu (fh 0 0 (.s 8) 0 .n32 1)] : List Instr),
      Ready heaped i x0 ∧ Ready (inCycle 0 (cycling false none)) i x0) ∧
    (∀ i ∈ ([.hflipMark cnu (fh 0 0 (.s 4) 0 .n32 0 0 .zero 1), .hflipConf cnu (fh 0 0 (.s 4) 0 .n32 1)] : List Instr),
      Ready (heaped.modWarp 0 fun w => { w with p := [] }) i xn) ∧
    (heaped.heapDesc 0 0 ≠ none ∧ (heaped.warp 0).word (.s 4) 3 0 = 1 ∧ (heaped.warp 0).word (.s 8) 0 0 = 16 ∧
      ans (hRegion port 0) heaped = some region ∧
      (ans (hRegion port 0) (inCycle 0 (cycling false none))).map (·.cycle) = some true) ∧
    does (hMark port region 0x50000 1) heaped = true ∧ (inCycle 0 (cycling false none)).armedParked region (cycling false none) = false ∧
    ({ inCycle 0 (cycling false none) with parked := [{ ctx := 0, page := 0x200000, unit := .heapPort 0
                                                        kind := .write 0x200018 [(0, 1)] .heap }] } : State).armedParked region
      (cycling false none) = true ∧
    (∃ q e, ans (hJoint (jointerPort 0) (cycling true none)) (inCycle 0 (cycling true none)) = some (some (q, e, true))) ∧
    (∃ q e, ans (hJoint (jointerPort 0) (cycling true none)) (withMem (inCycle 0 (cycling true none)) [(0x30000, 0)]) =
      some (some (q, e, false))) ∧
    ans (hJoint (jointerPort 0) (cycling true none)) (inCycle 3 (cycling true none)) = some none ∧
    (ans (hSweep (jointerPort 0) (cycling true none)) (inCycle 0 (cycling true none)) = some false ∧
      ans (hSweep (jointerPort 0) (cycling true none)) (inCycle 3 (cycling true none)) = some true) ∧
    ans (hCopy (jointerPort 0) region (cycling true none) 0 0x42000) (inCycle 0 (cycling true none)) = some true ∧
    ((freeCmd 0x10).freeOk = true ∧ (freeCmd 0x11).word 0 = 0x11 ∧ (heaped.wgrid 0).heapen = true ∧ (base.wgrid 0).heapen = false ∧
      does (hFree (jointerPort 0) 0 0 0x200009) heaped = true ∧
      failsBy (hFree (jointerPort 0) 0 0 0x20000B) heaped = 0x3A ∧
      ans (hBarriers (jointerPort 0) region 0 [{ lane := 0, reg := none, val := 0x200009 }]) heaped = some [0x200009] ∧
      ans (hRead (jointerPort 0) 0x200000 8) heaped = some 3 ∧
      does (hWrite (jointerPort 0) 0x200000 8 (3 / 2 ^ 49 * 2 ^ 49 + 2 ^ 48 + 3 % 2 ^ 48)) heaped = true) :=
  ⟨fun i hi => ⟨allReady (by decide +kernel) i hi, allReady (by decide +kernel) i hi⟩, allReady (by decide +kernel), by decide +kernel,
    by decide +kernel, by decide +kernel, by decide +kernel, ⟨0, 0x42000, by decide +kernel⟩, ⟨0, 0x42000, by decide +kernel⟩,
    by decide +kernel, by decide +kernel, by decide +kernel, by decide +kernel⟩

/-- A list entry of a `MARK` that names no page in use, a pinned page, a page with a `LARGE` object, a table without room, and a page
that is armed; the entries of a cycle to be copied and copied; and the pages of a list. -/
theorem witness_Relocation_cycle :
    (region.pages ≤ 5 % 2 ^ 16 ∧ ¬ (0 / 2 ^ 16 % 2 ^ 47 ≠ 0 ∨ region.pages ≤ 0 % 2 ^ 16 ∨ 0 ∈ ([] : List Nat) ∨ 14 / 2 ^ 0 % 2 = 1 ∨
      0 ∉ [0])) ∧
    (ans (hRead port (region.dirVa 0) 8) heaped = some 0 ∧ ans (hRead port (region.dirVa 0) 8) (withMem heaped [(0x40000, 1)]) = some 1) ∧
    (ans (hObjs port region 0) heaped = some [(0, 3)] ∧ hdrLarge 3 = false ∧
      (ans (hObjs port region 0) (withMem heaped [(0x200006, 2)])).any (·.any fun y => hdrLarge y.2) = true) ∧
    (region.fwdLen * 65536 < 65536 + tableLen 1 ∧ region.dirLen + tableLen 1 ≤ region.fwdLen * 65536 ∧
      does (hWriteBytes port (region.fwd + region.dirLen) (tableBytes 0 [(0, 3)])) heaped = true) ∧
    (ans (hRead port 0x50000 8) heaped = some 0 ∧ ans (hRead port 0x50000 8) (withMem heaped [(0x50000, 5)]) = some 5 ∧
      (ans (hMarkOne port region 14 [0] [] 0 region.dirLen) heaped).any (·.isSome) = true ∧
      (ans (hMarkOne port region 14 [0] [] 5 region.dirLen) heaped).any (·.isNone) = true ∧
      (ans (hMarkList port region 14 [0] 0x50008 0 [0] 0) heaped).isSome = true ∧
      does (hWrite port 0x50000 8 (5 + 2 ^ 63)) heaped = true) ∧
    (does (hRegion (jointerPort 0) 0) (inCycle 3 (cycling true none)) = true ∧
      ans (hEntries (jointerPort 0) region (cycling true none)) (inCycle 3 (cycling true none)) = some [(0, 0x42000)] ∧
      ans ([(0, 0x42000)].mapM fun y : Nat × Nat => hRead (jointerPort 0) y.2 8) (inCycle 3 (cycling true none)) = some [3] ∧
      ans ([(0, 0x42000)].mapM fun y : Nat × Nat => hRead (jointerPort 0) y.2 8) (inCycle 0 (cycling true none)) = some [0]) := by
  decide +kernel

/-! #### Copy channels -/

/-- A block that holds channel 3, with a word 0 in `s16` and channel numbers in `s4` and `s5`. -/
def pushing (w0 : Word) : State := trusted ((spaces.modWarp 0 fun w => { w with s := [(16, w0), (4, 3), (5, 4), (6, 1)] }).modBlk 0 fun b =>
  { b with chans := [3] })
/-- A FILL of 64 bytes of shared memory, 60 bytes into a beat; its beats are those of [60, 64) and [64, 124). -/
def fillCmd (started : Bool) : Cmd :=
  { words := [7, 64, 0, 0, 0x0100003C, 0x80000000, 0x04030201], regs := [(1, (spaces.warp 0).rb 1)], flag := 3, started := started }
/-- The same in the queue of channel 3. -/
def copying (c : Cmd) : State := (pushing 0).modChan 3 fun h => { h with owner := some 0, queue := [c] }
/-- What a computation of a channel answers, if it does. -/
def ansC {α : Type} (m : CopyM α) (s : State) : Option α := match runCopy m s with | (.ok a, _) => some a | _ => none
/-- The code of the failure that ends it. -/
def failsC {α : Type} (m : CopyM α) (s : State) : BitVec 8 := match runCopy m s with | (.error (.fail c _), _) => c | _ => 0

theorem witness_CopyInstructions :
    (([0x100, 0x101, 0x200, 0x300, 0x301, 0x400] : List (BitVec 24)).all fun n =>
      readyB (pushing 1) (.push ca (fs .zero (.s 16) n)) x0 && readyB (pushing 0x10008) (.push ca (fs .zero (.s 16) n)) x0) = true ∧
    readyB (pushing 1) (.push cna (fs .zero (.s 16) 0x100)) xn = true ∧
    ((pushing 1).queueOf 0 0x100 = some (.chan 3) ∧ (pushing 1).queueOf 0 0x101 = none ∧ (pushing 1).queueOf 0 0x301 = some .sander ∧
      ((pushing 1).wgrid 0).priv = true ∧ ((base.modGrid 0 fun g => { g with depth := 9 }).wgrid 0).depth = 9 ∧
      (base.wgrid 0).priv = false ∧ (base.wgrid 0).depth = 0 ∧ (pushing 1).releaseCheck x0 = none ∧
      (pushing 1).queueRoom 0 (.chan 3) = true ∧ ((pushing 1).warp 0).flag ((pushing 1).fsFlag x0 ca) < 15 ∧
      ((pushing 1).modChan 3 fun h => { h with queue := List.replicate 8 {} }).queueRoom 0 (.chan 3) = false ∧
      15 ≤ ((flagFull (pushing 1)).warp 0).flag 0) ∧
    (∀ i ∈ ([.cpst cu (fs (.s 8) (.s 4)), .cpst cu (fs (.s 8) (.s 5)), .cpst cu (fs (.s 8) .zero 3 1), .wprd cu (fm (.s 8) 0 .n64 0 (.s 4)),
      .wprd cu (fm (.s 8) 0 .n64 0 (.s 5)), .wpwait cu (fm (.s 10) 0 .n64 0 (.s 4) .zero 0 1),
      .wpwait cu (fm (.s 6) 0 .n64 0 (.s 4) .zero 0 1), .wpwait cu (fm (.s 6) 0 .n64 0 (.s 5))] : List Instr),
      readyB (pushing 1) i x0 = true ∧ readyB (copying (fillCmd true)) i x0 = true) ∧
    (∀ i ∈ ([.cpst cnu (fs (.s 8) (.s 4)), .wprd cnu (fm (.s 8) 0 .n64 0 (.s 4)), .wpwait cnu (fm (.s 6) 0 .n64 0 (.s 4))] : List Instr),
      readyB (pushing 1) i xn = true) ∧ readyB (pushing 1) (.wpwait cnu (fm (.s 6) 0 .n64 0 (.s 5))) xn = true ∧
    (4 ∉ ((pushing 1).wblk 0).chans ∧ 3 ∈ ((pushing 1).wblk 0).chans ∧ ((pushing 1).warp 0).opd (.s 6) 2 0 = 1 ∧ ((pushing 1).chan 3).wptr = 0 ∧
      ((copying (fillCmd true)).chan 3).queue ≠ [] ∧ ((pushing 1).warp 0).opd (.s 10) 2 0 = 0) ∧
    (let s := (pushing 1).modWarp 0 fun w => { w with wpWait := some (0, 3, true) }
     readyB s (.wpwait cu (fm (.s 6) 0 .n64 0 (.s 4))) x0 = true) := by decide +kernel

theorem witness_CopyProgress :
    (∀ b ∈ [true, false], ((copying (fillCmd b)).chan 3).queue = [fillCmd b] ∧ (copying (fillCmd b)).chanRuns (fillCmd b) = true) ∧
    (base.chan 3).queue = [] ∧ ((copying (fillCmd true)).modBlk 0 fun b => { b with st := .saved }).chanRuns (fillCmd true) = false ∧
    ansC (cStart (fillCmd false)) (copying (fillCmd false)) = some 0 ∧
    failsC (cStart { fillCmd false with words := [7, 64, 1] }) (copying (fillCmd false)) = 0x02 ∧
    (fillCmd true).units = 2 ∧ (copying (fillCmd true)).nextUnit 3 (fillCmd true) = some 0 ∧
    (copying { fillCmd true with done := 2 }).nextUnit 3 { fillCmd true with done := 2 } = none ∧
    ansC (cSource 3 (fillCmd true) 0) (copying (fillCmd true)) = some [1, 2, 3, 4] ∧
    (ansC (cWrite 3 (fillCmd true) 0 [1, 2, 3, 4]) (copying (fillCmd true))).isSome = true ∧
    failsC (cWrite 3 { fillCmd true with regs := [] } 0 [1]) (copying (fillCmd true)) = 0x10 ∧
    (let c : Cmd := { fillCmd true with done := 2 }
     let f : Cmd := { fillCmd true with fail := some (0x10, 4) }
     c.units ≤ c.done ∧ (copying c).parkedUnits 3 = [] ∧ c.peers = [] ∧ c.fail = none ∧ ((copying f).chan 3).queue = [f] ∧
      (copying f).parkedUnits 3 = [] ∧ (fillCmd true).done < (fillCmd true).units) ∧
    (fillCmd true).byElem = false ∧ (fillCmd true).kind = 7 ∧ opLocal ((fillCmd true).opd 4) = true ∧
    (ansC (cLocalKey (fillCmd true) ((fillCmd true).opd 4) 0 4 .store) (copying (fillCmd true)) = some (.shared, 60) ∧
      (ansC (cAccess (fillCmd true) 0 true .shared 60 4) (copying (fillCmd true))).isSome = true) ∧
    (let c : Cmd := { fillCmd true with words := [1, 4, 0x4000, 0, 0x01000000, 0x80000000] }
     c.kind = 1 ∧ opLocal (c.opd 2) = false ∧ ansC (cPhys 3 c 0x4000 4) (mapped (copying c)) = some [0x4000, 0x4001, 0x4002, 0x4003] ∧
      failsC (cSource 3 c 0) { mapped (copying c) with poisonMem := [0x100] } = 0x16) ∧
    (let p : PeerReq := { unit := 0, write := false, link := 0, ctx := 0, va := 0x4000, len := 4 }
     let q : PeerReq := { p with unit := 1, write := true, va := 0x4040 }
     let c : Cmd := { fillCmd true with peers := [p, q] }
     (copying c).peerAsked 3 0 0 0x4000 = some (c, p) ∧ (copying c).peerAsked 3 0 1 0x4040 = some (c, q) ∧
       (copying c).peerAsked 3 0 2 0x4000 = none ∧ (copying c).peerAsked 3 1 0 0x4000 = none) ∧
    (let c : Cmd := { fillCmd true with words := [1, 4, 0x4000, 0, 0x01000000, 0x80000000] }
     let s : State := { copying c with tlb := [{ chip := 0, ctx := 0, va := 0x4000, size := 4096, pa := 15 <<< 48, w := true }] }
     ansC (cPhys 3 c 0x4000 4) s = some ((List.range 4).map (15 * 2 ^ 48 + ·)) ∧ isPeer (15 * 2 ^ 48) = true ∧
       c.gotByte 0 0x4000 = none ∧ ({ c with got := [(0, 0x4000, 7)] } : Cmd).gotByte 0 0x4000 = some 7) ∧
    (let p : Parked := { ctx := 0, page := 0, unit := .chan 3, kind := .copyRead 3 0 0 }
     ((List.replicate 256 p).filter fun p => match p.kind with | .copyRead m _ _ => m == 3 | _ => false).length = 256) := by
  decide +kernel

/-- A command of a kind: LEN 1, `SRC` and `DST` in `b1`, `SRC` at 0 and `DST` at 0x200, words 6 and 7, and a list or a layout record at
0x100 of `b1`. -/
def kindCmd (kind w6 w7 : Word) (len : Word := 1) : Cmd :=
  { fillCmd true with
    words := [kind, len, 0x01000000, 0x80000000, if kind = 6 then 0x200 else 0x01000200, 0x80000000, w6, w7, 0x01000100, 0x80000000,
      0x01000100, 0x80000000] }
/-- The same with its destination in global memory at 0x4000, or its source there. -/
def globalCmd (src : Bool) (rest : List CopyRest) : Cmd :=
  let l : List Word := if src then [1, 4, 0x4000, 0, 0x01000200, 0x80000000] else [1, 4, 0x01000000, 0x80000000, 0x4000, 0]
  { fillCmd true with words := l, rest := rest }
/-- The context's page at 0x4000 is a peer's. -/
def peered (s : State) : State := { s with tlb := [{ chip := 0, ctx := 0, va := 0x4000, size := 4096, pa := 15 <<< 48, w := true }] }
/-- A layout record of one row of four words, of which three lie within the source. -/
def layout1 : Nat := 3 + 4 * 2 ^ 160 + 4 * 2 ^ 360 + 2 ^ 440 + 0x10 * 2 ^ 448
/-- One of two rows of eight words, interleaved. -/
def layout2 : Nat := 8 + 2 * 2 ^ 32 + 4 * 2 ^ 160 + 32 * 2 ^ 200 + 8 * 2 ^ 360 + 2 * 2 ^ 376 + 2 * 2 ^ 440 + 0x10 * 2 ^ 448 + 2 ^ 456

/-- The elements of a window, taken in turn. -/
def takeAll (source : Nat → Option Int) (read : Int → State → Except CStop (List Byte) × State) (fill : List Byte) :
    List Nat → State → Option (Tab (List Byte) × State)
  | [], s => some ([], s)
  | k :: r, s =>
    match source k with
    | none => (takeAll source read fill r s).map fun (l, t) => ((k, fill) :: l, t)
    | some o =>
      match read o s with
      | (.ok b, u) => (takeAll source read fill r u).map fun (l, t) => ((k, b) :: l, t)
      | (.error _, _) => none

theorem takes {source : Nat → Option Int} {read : Int → State → Except CStop (List Byte) × State} {fill : List Byte} :
    ∀ {r : List Nat} {s t : State} {e : Tab (List Byte)}, takeAll source read fill r s = some (e, t) →
      TakesElems source read fill r e s t
  | [], s, t, e, h => by
    simp only [takeAll, Option.some.injEq, Prod.mk.injEq] at h
    exact ⟨h.1.symm, h.2⟩
  | k :: r, s, t, e, h => by
    unfold takeAll at h
    split at h
    · rename_i hk
      obtain ⟨⟨l, u⟩, hl, he⟩ := Option.map_eq_some_iff.mp h
      cases he
      exact ⟨fill, s, l, rfl, takes hl, fun _ => ⟨rfl, rfl⟩, fun o ho => nomatch hk.symm.trans ho⟩
    · rename_i o hk
      split at h
      · rename_i b u hr
        obtain ⟨⟨l, v⟩, hl, he⟩ := Option.map_eq_some_iff.mp h
        cases he
        refine ⟨b, u, l, rfl, takes hl, fun hn => (nomatch hk.symm.trans hn), fun o' ho => ?_⟩
        cases hk.symm.trans ho
        exact hr
      · cases h

/-- What the units of the kinds of commands read. -/
theorem witness_CopySources :
    (let c := kindCmd 1 0 0
     let s := copying c
     ansC (cLocalKey c (c.opd 2) 0 4 .load) s = some (.shared, 0) ∧ (ansC (cAccess c 0 false .shared 0 4) s).isSome = true ∧
      s.localPoison .shared 0 4 = false ∧
      ∀ a ∈ [0x4000, 0x4001, 0x4002, 0x4003], isPeer a = false ∧ (mapped s).poisoned a = false) ∧
    ((kindCmd 1 0 0).kind = 1 ∧ (kindCmd 6 0 0).kind = 6 ∧ (kindCmd 3 2 0).kind = 3 ∧ (kindCmd 5 2 0).kind = 5 ∧
      (kindCmd 4 8 16).kind = 4) ∧
    (let c := kindCmd 3 2 0
     ansC (cReadLocal c 0 (c.opd 8) (0 : Nat) 4) (copying c) = some [0, 0, 0, 0]) ∧
    (let c := kindCmd 4 8 16
     let s := { heaped with shared := wrList [] (addrs 0x100 (bytesOf 8 0x200009)), chans := (copying c).chans }
     ansC (cReadLocal c 0 (c.opd 8) (0 : Nat) 8) s = some (bytesOf 8 0x200009) ∧
      ansC (cRefAddr 3 c 0 (natOf (bytesOf 8 0x200009))) s = some 0x200010) ∧
    ((kindCmd 2 0 0).kind = 2 ∧ ∃ e t, TakesElems (lySource layout1)
      (fun o => if opLocal ((kindCmd 2 0 0).opd 2) = true then runCopy (cReadLocal (kindCmd 2 0 0) 0 ((kindCmd 2 0 0).opd 2) o 4)
        else runCopy (cBytes 3 (kindCmd 2 0 0) 0 (((kindCmd 2 0 0).opd 2 % 2 ^ 48 : Nat) + o) 4))
      (bytesOf 4 (lyFillVal layout1)) [0, 1, 2, 3] e (copying (kindCmd 2 0 0)) t) ∧
    (lyOk layout1 = true ∧ 3 < lyElems layout1 ∧ lySize layout1 0 ≤ lyIndex layout1 3 0 ∧ lyIndex layout1 2 0 < lySize layout1 0 ∧
      lyBytes layout1 = 4 ∧ lyBank layout1 = 0 ∧ lyOk layout2 = true ∧ 15 < lyElems layout2 ∧ lyBank layout2 = 1 ∧
      1 < lyRow layout2 / 16 ∧
      (let z (ty : Nat) : Nat := 3 + 8 * 2 ^ 160 + 4 * 2 ^ 360 + 2 ^ 440 + ty * 2 ^ 448
       lyOk (z 2) = true ∧ 0 < lyElems (z 2) ∧ lyType (z 2) = some .n64 ∧ lyOk (z 3) = true ∧ 0 < lyElems (z 3) ∧
        lyType (z 3) = some .s64)) := by
  refine ⟨by decide +kernel, by decide +kernel, by decide +kernel, by decide +kernel, ⟨by decide, ?_⟩, by decide +kernel⟩
  have h : (takeAll (lySource layout1)
      (fun o => if opLocal ((kindCmd 2 0 0).opd 2) = true then runCopy (cReadLocal (kindCmd 2 0 0) 0 ((kindCmd 2 0 0).opd 2) o 4)
        else runCopy (cBytes 3 (kindCmd 2 0 0) 0 (((kindCmd 2 0 0).opd 2 % 2 ^ 48 : Nat) + o) 4))
      (bytesOf 4 (lyFillVal layout1)) [0, 1, 2, 3] (copying (kindCmd 2 0 0))).isSome = true := by decide +kernel
  obtain ⟨⟨e, t⟩, he⟩ := Option.isSome_iff_exists.mp h
  exact ⟨e, t, takes he⟩

/-- Where the units write. -/
theorem witness_CopyTargets :
    (let c := kindCmd 5 2 0
     let s := copying c
     (ansC (cDest 3 c 0 [1, 2, 3, 4]) s = some [1, 2, 3, 4]) ∧ (ansC (cWriteAt 3 c 0 (0 : Nat) [1, 2, 3, 4]) s).isSome = true ∧
      (∀ i, i < 4 → ¬ ∃ q ∈ c.spots, 0 < q.1 ∧ q.2 ≤ 0 + i ∧ 0 + i < q.2 + 4) ∧
      (∀ i, i < 4 → ∃ q ∈ ({ c with spots := [(1, 0)] } : Cmd).spots, 0 < q.1 ∧ q.2 ≤ 0 + i ∧ 0 + i < q.2 + 4)) ∧
    (let c := kindCmd 1 0 0 4
     let s := copying c
     (ansC (cDest 3 c 0 [1, 2, 3, 4]) s = some [1, 2, 3, 4]) ∧ (ansC (cWriteAt 3 c 0 (0 : Nat) [1, 2, 3, 4]) s).isSome = true ∧
      (ansC (cWrite 3 c 0 [1, 2, 3, 4]) s).isSome = true ∧
      ∀ i, i < 4 → ∀ p ∈ s.placesOf 3 c (c.opd 4) (0 + i : Nat), ∀ q ∈ s.sources 3 c,
        ¬ (q.1.1 = p.1 ∧ q.1.2 ≤ p.2 ∧ p.2 < q.1.2 + q.2)) := by decide +kernel

/-- In global memory, sector by sector. -/
theorem witness_CopyTargets_global :
    ((globalCmd false []).kind ≠ 6 ∧ opLocal ((globalCmd false []).opd 4) = false ∧
      (((globalCmd false []).opd 4 % 2 ^ 48 : Nat) + (-0x5000) : Int) < 0 ∧
      (0 : Int) ≤ ((globalCmd false []).opd 4 % 2 ^ 48 : Nat) + 0 ∧ ((copying (globalCmd false [])).chan 3).queue.headD {} = globalCmd false []) ∧
    (let p : CopyRest := { unit := 0, va := 0x4000, bytes := [(0, 1), (1, 2)] }
     let c := globalCmd false [p]
     let s := copying c
     c.rest ≠ [] ∧ c.started = true ∧ ((s.chan 3).queue.headD {}).rest ≠ [] ∧
      { s with parked := List.replicate 64 { ctx := 0, page := 0, unit := .chan 3, kind := .write 0 [] .heap } }.logRoom (.chan 3) 1 =
        false ∧
      s.logRoom (.chan 3) 1 = true ∧ (∀ y ∈ [((1 : Nat), (2 : Byte))], (p.va + y.1) / 64 = (p.va + 0) / 64) ∧
      { s with parked := [{ ctx := 0, page := 0x4000, unit := .chan 3, kind := .write 0x4000 [(5, 1)] .heap }] }.sectorLogged (.chan 3) 0
        ((p.va + 0) / 64) = true ∧
      s.sectorLogged (.chan 3) 0 ((p.va + 0) / 64) = false ∧ ((peered s).xlate (.chan 3) 0 0x4000 true true).1 = some (15 * 2 ^ 48) ∧
      isPeer (15 * 2 ^ 48) = true ∧ ((mapped s).xlate (.chan 3) 0 0x4000 true true).1 = some 0x4000 ∧ isPeer 0x4000 = false ∧
      ((mapped s).xlPages (.chan 3) 0 true false [0x4000]).1.toBool = true ∧ (s.xlPages (.chan 3) 0 true false [0x4000]).1.toBool = false ∧
      (s.putSector 3 c p).isSome = true ∧
      ({ s with parked := List.replicate 64 { ctx := 0, page := 0, unit := .chan 3, kind := .write 0 [] .heap } }.putSector 3 c p).isNone =
        true ∧ ([(0x4000, 1), (0x4001, 2)].map fun y : Nat × Nat => y.1).Nodup) := by decide +kernel

/-- In the shared memory of the receivers. -/
theorem witness_CopyTargets_multicast :
    (let c := kindCmd 6 0 0 4
     let s := (copying c).modGrid 0 fun g => recBits g [(416, 0x400)]
     c.kind = 6 ∧ s.receivers c = [0] ∧ ((s.blk 0).holds = true ∧ (0 : Int) ≤ opOff (c.opd 4) + 0 ∧
      opOff (c.opd 4) + 0 + (4 : Nat) ≤ ((s.grid (s.blk 0).grid).f 416 19 : Nat)) ∧
      ¬ opOff (c.opd 4) + 0x400 + (4 : Nat) ≤ ((s.grid (s.blk 0).grid).f 416 19 : Nat) ∧
      (ansC (cAccess c 0 true .shared 0x200 4) s).isSome = true ∧
      ∀ i, i < 4 → ∀ q ∈ s.sources 3 c, ¬ (q.1.1 = 1 ∧ q.1.2 ≤ 0x200 + i ∧ 0x200 + i < q.1.2 + q.2)) := by decide +kernel

/-- After the start, with a Wale link whose initiator's context 5 is bound to context 0. -/
def linked (valid : Nat) : State :=
  let s := withMem (mapped base) (addrs (0x8000 + 20) (bytesOf 4 valid))
  { s with dev := { s.dev with stage := 3, wlink := 1, wbind := 0x8000, powered := true } }

theorem witness_CopyProgress_peers :
    ((linked 0x8000).dev.stage = 3 ∧ (linked 0x8000).dev.tripped = false) ∧ (linked 0x8000).phys ((linked 0x8000).dev.wbind.toNat + 4 * (1024 * 0 + 5 % 1024)) 4 = 0x8000 ∧
    (linked 0).phys ((linked 0).dev.wbind.toNat + 4 * (1024 * 0 + 5 % 1024)) 4 = 0 ∧ ¬ (0 / 2 ^ 15 % 2 = 1) ∧
    ((linked 0x8000).vread .link 0 0x4000 4).1.toBool = true ∧
    ((linked 0x8000).vwrite .link 0 0x4000 4 (addrs 0 [1, 2, 3, 4])).1.toBool = true ∧
    (({ linked 0x8000 with tlb := [] } : State).vread .link 0 0x4000 4).1.toBool = false ∧
    (({ linked 0x8000 with tlb := [] } : State).vwrite .link 0 0x4000 4 (addrs 0 [1, 2, 3, 4])).1.toBool = false ∧
    (base.dev.stage = 0 ∧ (linked 0).dev.wlink.getLsbD 0 = true ∧ (linked 0).dev.wlink.getLsbD 1 = false) ∧
    (let p : PeerReq := { unit := 0, write := false, link := 0, ctx := 0, va := 0x4000, len := 4 }
     [(5, p)].find? (fun q => q.1 == 5 && (q.2.unit == 0 && q.2.va == 0x4000)) = some (5, p)) ∧
    (0 ∈ ({ fillCmd true with bad := [0] } : Cmd).bad ∧ 1 ∉ ({ fillCmd true with bad := [0] } : Cmd).bad) := by decide +kernel

/-! #### Fetch and launches -/

/-- The line of a word of slot 0, as the fetch left it; a warp that stands at an unfetched line. -/
def unfetched (c : Word) (past check : Bool) : State := withW fun w => { w with
  threads := allLanes.map fun l => (l, { st := .live, cp := c }), entries := [(c.toNat, { past := past, check := check })] }

theorem witness_Fetch :
    ((unfetched 0 false true).warp 0).choice = some 0 ∧ ((unfetched 0 false true).warp 0).entry 0 = { check := true } ∧
    (unfetched 0 false true).mayIssue 0 = true ∧ (base.warp 0).choice = some 0 ∧ ((base.warp 0).entry 0).entered = true ∧
    (withW fun w => { w with threads := [] }).pick 0 .always = none ∧ ((withW fun w => { w with threads := [] }).warp 0).choice = none ∧
    ((unfetched 8 false false).wgrid 0).clines ≤ cpLine 8 ∧ ((unfetched 0 true false).warp 0).choice = some 0 ∧
    (((unfetched 0 false true).vread (.mapUnit 0) 0 0 64).1.toBool = false ∧
      ((mapped (unfetched 0 false true)).vread (.mapUnit 0) 0 0 64).1.toBool = true ∧
      ((mapped (unfetched 0 false true)).xlate (.mapUnit 0) 0 0 false).1 = some 0 ∧ (unfetched 0 false true).poisoned 0 = false ∧
      ({ unfetched 0 false true with poisonMem := [0] } : State).poisoned 0 = true) ∧
    (lineFault 0 0 false).isNone = true ∧ (lineFault 1 0 false).isSome = true ∧ (lineFault 0 0 true).isSome = true ∧
    (lineFault (1 <<< 25 ||| 1 <<< 26) 0 true).isNone = true ∧
    (lineFault (1 <<< 21 ||| 1 <<< 22) 0 false).map (·.code) = some 0x03 ∧ 0 ∉ tget [] base.issues (base.quadOf 0) ∧
    (let s : State := { base with issues := [(base.quadOf 0, [0])], warps := tset base.warps 1 (base.warp 0) }
     0 ∈ tget [] s.issues (s.quadOf 0) ∧ s.readyWarp 1 = true ∧ s.yieldOver 0 = false) := by decide +kernel

/-- A launch record whose only faults are those a test adds: one block of one thread. -/
def rec_ : Grid := recBits {} [(240, 1), (236, 1), (256, 1), (288, 1), (304, 1), (320, 1), (336, 1), (352, 1), (384, 8), (960, 1),
  (493, 1)]

theorem witness_LaunchValidation :
    (reservedWords rec_ none = [] ∧ (112 / 32 * 4 = 12 ∧ 12 ∈ reservedWords (recBits rec_ [(112, 1)]) none) ∧
      48 ∈ reservedWords (recBits rec_ [(384, 257)]) none ∧ (∀ w ∈ reservedWords (recBits rec_ [(384, 257)]) none, 48 ≤ w) ∧
      28 ∈ reservedWords (recBits rec_ [(224, 3)]) none ∧ 96 ∈ reservedWords (recBits rec_ [(227, 1), (768, 1)]) none ∧
      120 ∈ reservedWords (recBits rec_ [(960, 0x20000)]) none) ∧
    (rec_.lr.toNat / 2 ^ 64 % 2 ^ 48 % 64 = 0 ∧ (recBits rec_ [(64, 1)]).lr.toNat / 2 ^ 64 % 2 ^ 48 % 64 = 1 ∧
      (rec_.lr.toNat % 2 ^ 32) % 8 < 5 ∧ (recBits rec_ [(0, 5)]).lr.toNat % 8 = 5 ∧
      reservedWords (recBits rec_ [(64, 1)]) none = [] ∧ reservedWords (recBits rec_ [(0, 5)]) none = [] ∧
      reservedWords (recBits rec_ [(227, 1), (32, 5)]) none = []) ∧
    (base.launchHeads = [] ∧
      (let q : LaunchReq := { ctx := 0, recVa := 0x1000, param := 0, depth := 0, priv := false }
       (({ base with launchQ := [q] } : State).launchHeads = [q]) ∧
        (match (({ base with launchQ := [q] } : State).validate q).1 with | .wait _ _ => true | _ => false) = true ∧
        (match ((mapped { base with launchQ := [q] }).validate q).1 with | .refuse _ _ => true | _ => false) = true) ∧
      (2 ^ 48 < 2 ^ 48 - 64 + 120 ∧ ¬ 2 ^ 48 < 2 ^ 48 - 128 + 120 ∧ 2 ^ 48 < 2 ^ 48 - 128 + 256)) ∧
    (base.gangTest rec_ ++ if rec_.lr.toNat / 2 ^ 224 % 2 ^ 2 = 1 ∧ base.wholeGrid rec_ = false then [28] else []).min?.isSome = true := by
  decide +kernel

/-! #### Distribution, rings, pages -/

/-- The device in FULL with one slice that owns every cluster and everything it may hold. -/
def full (s : State) : State := { s with dev := { s.dev with
  powered := true, stage := 3
  slices := [(0, (2 ^ 46 - 1) ||| 46 <<< 64 ||| 64 <<< 96 ||| 64 <<< 128 ||| 16 <<< 141 ||| 0xFFFF <<< 176 ||| 1 <<< 192)]
  sliceNum := [(0, 2 ^ 46 - 1)] } }
/-- A grid of one block in the queue of slice 0. -/
def queued (g : Grid) : State := { full (mapped base) with grids := tset base.grids 1 g, admitQ := [(0, 0, 1)] }
/-- A CONCURRENT grid. -/
def conc (g : Grid) : Grid := recBits g [(224, 1)]
/-- A grid with a parameter image. -/
def withImage (g : Grid) : Grid := recBits g [(192, 64)]
/-- A block of one warp that waits for its dispatcher. -/
def handed : State :=
  { base with
    grids := tset base.grids 0 rec_, blocks := [(0, { warps := [0] })], warps := [(0, { block := 0 })]
    clusters := [(0, { dispatchQ := [0] })] }
/-- A note of 16 words, from warp 0 to function 0. -/
def note : Note := { words := List.replicate 16 7, warp := 0, flag := 0, fn := 0 }
/-- A Sander command. -/
def sand (w0 lo len : Word) : EngineCmd := { words := [w0, 0, lo, 0, len], warp := 0, flag := 0, ctx := 0, pc := 0 }

theorem witness_LaunchAndDispatch :
    (base.sliceHead 0 = none ∧ (queued rec_).sliceHead 0 = some 1 ∧ ((queued rec_).grid 1).cls = 0 ∧
      ((queued (conc rec_)).grid 1).cls = 1 ∧ ((queued rec_).ctx ((queued rec_).grid 1).ctx).saving = false) ∧
    (((queued (withImage rec_)).loadImage 1).1.isSome = true ∧
      (({ queued (withImage rec_) with tlb := [] } : State).loadImage 1).1.isNone = true ∧
      (({ queued (conc (withImage rec_)) with tlb := [] } : State).loadImage 1).1.isNone = true) ∧
    (((queued rec_).admitGang 1).isSome = true ∧ ({ queued rec_ with dev := {} }.admitGang 1).isNone = true ∧
      ((queued (conc rec_)).admitAll 1 1).isSome = true ∧ ({ queued (conc rec_) with dev := {} }.admitAll 1 1).isNone = true) ∧
    ((handed.cluster 0).dispatchQ = [0] ∧ (handed.blk 0).warps.Nodup ∧ (base.cluster 0).dispatchQ = []) ∧
    (let us (s : State) : List Nat := (s.gang (s.blk 0).gang).blocks.flatMap fun p => ((s.blk p).units.filter (·.2)).map (·.1)
     us (handed.modBlk 0 fun b => { b with units := [] }) = [] ∧
      us (handed.modBlk 0 fun b => { b with units := [(3, true), (2, true), (9, false)] }) = [3, 2]) ∧
    ((∀ p ∈ State.reset.blocks, clusterOf p.2.core = 0 → p.2.holds = true → p.2.st = .saved) ∧
      (State.reset.cluster 0).deferred = [] ∧ (State.reset.cluster 0).queue = [] ∧ (State.reset.cluster 0).gate = .open ∧
      (({ gate := .requested, handed := true } : Cluster).gate = .requested ∧ ({ gate := .gated } : Cluster).gate ≠ .requested)) ∧
    (let s := { queued rec_ with clusters := (List.range 46).map fun c => (c, { gate := .gated }) }
     (s.cluster 0).gate = .gated ∧ s.sliceF 0 0 1 = 1 ∧ s.sliceHead 0 = some 1 ∧ (s.admitGang 1).isNone = true) ∧
    ((base.cluster 0).notes = [] ∧
      (let s := { base with clusters := [(0, { notes := [note] })], fns := [(0, { nrlog := 4, nrbase := 0x10000 })] }
       (s.cluster 0).notes = [] ++ note :: [] ∧ (s.fn 0).nrlog ≠ 0 ∧ ((s.fn 0).nrtail - (s.fn 0).nrhead).toNat < 2 ^ (s.fn 0).nrlog) ∧
      note.words.length = 16) ∧
    (base.sanderQ = [] ∧ EngineCmd.sandFault (sand 2 0 4096).words = some 0x02 ∧ EngineCmd.sandFault (sand 1 64 4096).words = some 0x11 ∧
      EngineCmd.sandFault (sand 1 4096 4096).words = none ∧
      EngineCmd.sandFault [1, 0, 0xFFFFF000, 0xFFFF, 8192] = some 0x10 ∧
      ((mapped base).sandPages 0 0 1).1 = none ∧ (base.sandPages 0 0 1).1 = some 0 ∧
      ((mapped base).xlate .sander 0 0 true).1 = some 0 ∧ (base.xlate .sander 0 0 true).1 = none) := by decide +kernel

/-- A function whose launch ring holds one entry. -/
def ringed (w0 : Nat) : State :=
  { full (withMem base (addrs 0x10000 (bytesOf 64 (w0 ||| 0x1000 <<< 64)))) with
    fns := [(0, { lrbase := 0x10000, lrlog := 4, lrtail := 1, ctx := 1, crbase := 0x20000, completions := [(0x1000, 2, 2, 0, 1)] })] }

theorem witness_HostRings :
    ((ringed 1).dev.stage = 3 ∧ (ringed 1).dev.tripped = false ∧ base.dev.stage ≠ 3 ∧
      ((1 : Word) - ((ringed 1).fn 0).lrhead).toNat ≤ 2 ^ 4 ∧ ¬ ((17 : Word) - ((ringed 1).fn 0).lrhead).toNat ≤ 2 ^ 4 ∧
      (((ringed 1).fn 0).crtail - 0xFFFFFFF0).toNat ≤ 2 ^ 4 ∧ ¬ (((ringed 1).fn 0).crtail - 1).toNat ≤ 2 ^ 4 ∧
      ¬ (((ringed 1).fn 0).prtail - 1).toNat ≤ 0 ∧ (((ringed 1).fn 0).prtail - 0).toNat ≤ 0) ∧
    (((ringed 1).fn 0).lrlog ≠ 0 ∧ ((ringed 1).fn 0).lrhead ≠ ((ringed 1).fn 0).lrtail ∧
      (ringed 1).phys 0x10000 64 = 1 + 0x1000 * 2 ^ 64 ∧ (ringed 2).phys 0x10000 64 % 2 ^ 32 = 2) ∧
    (((ringed 1).fn 0).completions = [(0x1000, 2, 2, 0, 1)] ∧ (((ringed 1).fn 0).crtail - ((ringed 1).fn 0).crhead).toNat < 2 ^ 4 ∧
      (({} : Fn).lrlog = 0) ∧ (base.fn 0).completions = []) ∧
    ((∀ k < 64, ((ringed 1).fn k).lrlog ≠ 0 → k = 0) ∧ tget 0 (ringed 1).ringLast ((ringed 1).ctxSlice 0) = 0 ∧
      (ringed 1).parked = []) ∧
    ((base.dev.dlwr - 0).toNat ≤ 4096 ∧ 4096 < (base.dev.dlwr - 1).toNat) ∧
    (0x1000 % 2 ^ 12 = 0 ∧ (base.fn 0).lrhead = (base.fn 0).lrtail ∧ (4 ≤ 16 ∧ ¬ (4 ≤ 3)) ∧ 0x1001 % 2 ^ 12 ≠ 0) := by decide +kernel

/-- A page request of context 0, with or without a tag, and a ring for it. -/
def requested (tag : Option Nat) (stalled : Bool) : State :=
  { full base with
    pageReqs := [{ ctx := 0, page := 0x4000, fn := 0, tag := tag, stalled := stalled, rewalk := true }]
    fns := [(0, { prlog := 4, prbase := 0x10000 })] }

theorem witness_PageRequests :
    (((requested none false).fn 0).prlog ≠ 0 ∧
      (((requested none false).fn 0).prtail - ((requested none false).fn 0).prhead).toNat < 2 ^ 4 ∧
      (requested none false).freeTag 0 = some 0 ∧
      ((requested none false).pageReqs.find? fun q => q.fn == 0 && (q.tag.isNone && ((requested none false).freeTag 0).isSome ||
        q.stalled)).isSome = true ∧
      ((requested (some 7) true).pageReqs.find? fun q => q.fn == 0 && (q.tag.isNone && ((requested none false).freeTag 0).isSome ||
        q.stalled)).map (·.tag) = some (some 7)) ∧
    (((requested (some 7) true).pageReqs.find? fun q => q.fn == 0 && q.tag == some (0x10007 % 2 ^ 16)).isSome = true ∧
      ((requested (some 7) true).pageReqs.find? fun q => q.fn == 0 && q.tag == some 8) = none ∧ 0x10007 / 2 ^ 16 = 1 ∧
      (requested (some 7) true).stopped 0 = false ∧ (requested (some 7) true).pageHeld 0 0x4000 = false ∧
      ((requested (some 7) true).modCtx 0 fun y => { y with saving := true }).stopped 0 = true) ∧
    ((requested none false).pageReqs.find? fun q => q.ctx == 0 && q.page == 0x4000).map (·.rewalk) = some true ∧
    (let s : State := { spaces with
       windows := [(0, { limit := 0x1000, va := 0x4000, filled := [0] })]
       parked := [{ ctx := 0, page := 0x4000, unit := .mapUnit 0, kind := .localAtomic 0 0 8 3 .n32 5 none (.v 3) 2 }] }
     tfind s.windows 0 ≠ none ∧ 0 ∈ (s.window 0).filled ∧ atomStep 3 .n32 none 5 0 = some 5 ∧ atomStep 2 .n32 (some 1) 5 0 = none) ∧
    (∀ p ∈ base.blocks, p.2.stopped = false) ∧
    (let p : PeerReq := { unit := 0, write := true, link := 0, ctx := 0, va := 64, len := 64, marked := true }
     p.expired = false ∧ (0, p) ∈ ({ base with peerLate := [(0, p)] } : State).peerLate) ∧
    ((full base).dev.invBusy = false ∧ 0x10000 / 2 ^ 16 % 4 = 1 ∧ 0x20000 / 2 ^ 16 % 4 = 2 ∧
      ((0x1000000004000 : Nat) / 2 ^ 48 % 4 = 1 ∧ (0x1000000004000 : Nat) % 2 ^ 48 % 2 ^ 16 ≠ 0 ∧ 0x4000 % 2 ^ 12 = 0) ∧
      base.dev.invCmd = none ∧ ({ invCmd := some (true, 0) } : Dev).invCmd = some (true, 0)) := by decide +kernel

/-- Context 0 with a table whose one leaf of 1 GiB maps its first addresses to themselves. -/
def tabled (s : State) : State :=
  withMem s (addrs 0 (bytesOf 8 0x20000) ++ addrs 0x20000 (bytesOf 8 0x21003) ++ addrs 0x21000 (bytesOf 8 0x7))

/-- Walks that find a page, and walks that do not, for each thing that can wait on it. -/
theorem witness_PageRequests_walks :
    (let p : Parked := { ctx := 0, page := 0x4000, unit := .mapUnit 0, kind := .write 0x4000 [(0, 1)] .store }
     let n := { base with parked := [p] }
     let s := tabled n
     let due (reply : Bool) (r : Nat) : Bool := reply || r == 1 || r == 2
     let later := (n.walkPage (due true) 0 0x4000).2
     (s.walkPage (due true) 0 0x4000).1 = false ∧ (s.walkPage (due true) 0 0x4000).2.waitCounts 0 0x4000 = [] ∧
      (n.walkPage (due true) 0 0x4000).1 = true ∧ later.waitCounts 0 0x4000 = [1] ∧
      (later.walkPage (due false) 0 0x4000).2.waitCounts 0 0x4000 = [2] ∧
      ({ n with parked := [{ p with rcnt := 2 }] }.walkPage (due false) 0 0x4000).2.waitCounts 0 0x4000 = [3] ∧
      ((s.unpark p).replayOne p).1.isSome = true ∧ ((n.unpark p).replayOne p).1 = none ∧
      (s.vwrite (.mapUnit 0) 0 0x4000 4096 [(0, 1)]).1.toBool = true) ∧
    (let o : AsyncOp := { warp := 0, kind := .attfin 0, flags := [0], pc := 0, waits := some (0, 0x4000), rcnt := 1 }
     let s : State := { base with
       ops := [(0, o)], pageReqs := [{ ctx := 0, page := 0x4000, fn := 0, tag := some 7, rewalk := true }] }
     let due (r : Nat) : Bool := r == 1 || r == 2
     ((s.forget 0 0x4000).wakeOps due 0 0x4000).1 = true ∧ ((tabled s).wakeOps due 0 0x4000).1 = false ∧
      (s.wakeOps due 0 0x4000).2.acceptedCounts 0 0x4000 = [2] ∧ ((tabled s).wakeOps due 0 0x4000).2.acceptedCounts 0 0x4000 = []) ∧
    (let s : State := base.stallOn x0 0 0x4000 false
     (s.asksFor 0 0x4000).map (·.wr) = [false] ∧ s.waitCounts 0 0x4000 = [0] ∧
      ((tabled s).walkPage (fun _ => true) 0 0x4000).2.waitCounts 0 0x4000 = []) ∧
    (let s : State := withW fun w => w.modThs [5] fun _ t => { t with st := .blocked (.page 0 0x4010 false), rcnt := 1 }
     (((s.warp 0).th 5).waitsPage 0 0x4000).isSome = true ∧ ((s.warp 0).th 5).rcnt = 1 ∧ (s.warp 0).inHandler = false ∧
      s.pageServes 0 0 0x4000 (.page 0 0x4010 false) = false ∧ (tabled s).pageServes 0 0 0x4000 (.page 0 0x4010 false) = true) ∧
    (let s : State := { requested (some 7) true with scrubs := [{ ctx := 0, fn := 0, cores := [], pages := [], spans := [] }] }
     (∃ k ∈ s.scrubs, k.ctx = 0) ∧ ∀ k ∈ (requested (some 7) true).scrubs, k.ctx ≠ 0) := by
  decide +kernel

/-! #### Contexts, tenants, start, power, errors -/

/-- Context 0 in a given STATE with room for its image, in FULL; its record is at address 0. -/
def context (st : Nat) : State := full (withMem base [(1, .ofNat 8 (4 * st)), (22, 1)])
/-- Context 0 being saved. -/
def savingCtx : State :=
  let s := (context 3).modCtx 0 fun y => { y with saving := true }
  { s with dev := { s.dev with ctxBusy := true } }
/-- Its one block saved and its context being restored. -/
def savedCtx : State :=
  (savingCtx.saveGang 0).modCtx 0 fun y => { y with restoring := true }

theorem witness_Preemption :
    ((context 1).ctxState 0 = 1 ∧ (context 1).imageBytes 0 ≤ (context 1).ctxF 0 160 32 * 4096 ∧ (context 1).dev.ctxBusy = false ∧
      (context 2).ctxState 0 = 2 ∧ (context 0).ctxState 0 ≠ 1 ∧ (full base).ctxF 0 160 32 * 4096 < (full base).imageBytes 0 ∧
      0x10000 / 2 ^ 16 % 4 = 1 ∧ 0x20000 / 2 ^ 16 % 4 = 2 ∧ (0x10000 / 2 ^ 10 % 2 ^ 6 = 0 ∧ 0x10000 / 2 ^ 18 = 0)) ∧
    (savingCtx.dev.ctxBusy = true ∧ (savingCtx.ctx 0).saving = true ∧ (savingCtx.ctx 0).restoring = false ∧ savingCtx.ctxState 0 = 3 ∧
      savingCtx.settled 0 = true ∧ (0, base.blk 0) ∈ base.blocks ∧ savingCtx.ctxGangs 0 = [0] ∧ (savingCtx.gang 0).blocks.Nodup) ∧
    (0 ∈ (savingCtx.gang 0).blocks ∧ (savingCtx.blk 0).holds = true) ∧
    (let s := (savingCtx.modGrid 0 fun g => recBits g [(416, 64)])
     0 < (s.grid (s.blk 0).grid).f 416 19 ∧ (s.imageOf 0).shared = [] ∧ Memory.wf (s.imageOf 0).shared = true) ∧
    ((savedCtx.gang 0).st = .saved ∧ (savedCtx.ctx 0).restoring = true ∧ (savedCtx.placeSaved 0 0).isSome = true ∧
      ((savedCtx.liveClusters 0).findSome? fun c => savedCtx.placeSaved 0 c).isSome = true ∧ (savingCtx.gang 0).st ≠ .saved ∧
      (savedCtx.gang 0).claim = [] ∧ (({ savedCtx with dev := {} } : State).liveClusters 0 = []) ∧
      ∀ i, i < 256 → savedCtx.lostChan (savedCtx.ctxAddr 0 + i) = false) := by decide +kernel

/-- The device in FULL with no slice. -/
def bare : State := { State.reset with dev := { stage := 3, powered := true } }
/-- A slice descriptor that is accepted. -/
def desc : BitVec 256 := 1 ||| 1 <<< 64 ||| 1 <<< 96 ||| 1 <<< 128 ||| 1 <<< 141 ||| 1 <<< 176 ||| 1 <<< 192

/-- With nothing listed, every context is empty. -/
theorem ctxF_nil (s : State) (h : s.mem = []) (hr : s.dev.retiredChans = []) (c lo n : Nat) : s.ctxF c lo n = 0 := by
  have z : ∀ n a, rdNat [] a n = 0 := fun n => by
    induction n with
    | zero => intro a; rfl
    | succ n ih => intro a; simp [rdNat, ih, rdByte, tget]
  simp [State.ctxF, State.phys, h, hr, z, bits]

theorem bare_sliceFault : bare.sliceFault 0 desc = none := by
  have h : ((List.range 1024).any fun c => bare.ctxSlice c == 0 && bare.ctxState c != 0) = false := by
    simp [State.ctxState, ctxF_nil bare rfl rfl]
  simp only [State.sliceFault, h]
  decide +kernel

theorem witness_Tenancy :
    (bare.dev.tripped = false ∧ bare.sliceFault 0 (desc ||| 1 <<< 200) = some 1 ∧
      desc.toNat / 2 ^ 192 % 2 ^ 1 = 1 ∧ (State.reset).dev.stage ≠ 3) ∧
    ((0x00000001 / 2 ^ 19 = 0 ∧ 0x00000001 % 2 ^ 8 = 1) ∧ (let s : State := { bare with dev := { bare.dev with sliceNum := [(0, 1)] } }
      ((List.range 48).filter fun c => bits (tget 0 s.dev.sliceNum 0) c 1 == 1)[0]? = some 0 ∧ (s.cluster 0).retired = false ∧
        s.clusterBusy 0 = false ∧ base.clusterBusy 0 = true ∧
        ((List.range 48).filter fun c => bits (tget 0 s.dev.sliceNum 0) c 1 == 1)[1]? = none) ∧
      bare.dev.retiredChans.contains 5 = false) ∧
    (let s := bare.modCtx 3 fun y => { y with transport := some 7, decap := some 0 }
     (s.ctx 3).transport = some 7 ∧ (s.ctx 3).decap = some 0 ∧ tfind s.keys 64 = none ∧ (bare.ctx 3).transport = none ∧
      (∀ y, tfind s.keys 64 = some y → y.ctx = 3 ∧ y.quarantined = false)) ∧
    (let s : State := { bare with keys := [(64, { ctx := 3, key := 1 })] }
     tfind s.keys 64 = some { ctx := 3, key := 1 } ∧ ∀ y, tfind s.keys 64 = some y → y.ctx = 3 ∧ y.quarantined = false) ∧
    ((context 1).ctxState 0 ≠ 0 ∧ bare.ctxState 3 = 0 ∧ bare.sliceF (bare.ctxSlice 3) 192 1 = 0) ∧
    (bare.scrubs = [] ∧ bare.dev.tdcnt.toNat ≤ 2 ^ 20 ∧ (0x80000003 : Nat) / 2 ^ 31 = 1 ∧ (0x80000003 : Nat) / 2 ^ 10 % 2 ^ 21 = 0) ∧
    (let k : Scrub := { ctx := 3, fn := 1, cores := [0], pages := [], spans := [(0, 4096)] }
     let d : Scrub := { k with dark := true }
     let next (s : State) : Option Scrub := s.scrubs.find? fun y => !y.dark && s.stopDone y.ctx
     next { bare with scrubs := [k] } = some k ∧ next { bare with scrubs := [d] } = none ∧ d.dark = true ∧
      (∀ n ∈ bare.scrubCores d, ∀ b ∈ bare.onCore n, (bare.grid b.grid).ctx = d.ctx) ∧
      ¬ (∀ n ∈ base.scrubCores d, ∀ b ∈ base.onCore n, (base.grid b.grid).ctx = d.ctx) ∧ next { base with scrubs := [d] } = none ∧
      (let s : State := { bare with ops := [(0, { warp := 0, kind := .attfin 0, flags := [0], pc := 0 })] }
       s.settled 0 = false ∧ bare.settled 0 = true)) ∧
    (0 ∈ savedCtx.ctxBlocks 0 ∧ (savedCtx.blk 0).st = .saved ∧ ((savedCtx.blk 0).img).isSome = true ∧ 0 ∈ (savedCtx.blk 0).warps ∧
      1 ∉ savedCtx.ctxBlocks 0) ∧
    (∀ k ∈ bare.scrubs, bare.ctxVf k.ctx ≠ 1) ∧
    (∃ a x, (a, x) ∈ (withMem bare [(64, 5)]).mem ∧ a = 64) ∧ (∃ q ∈ [((1 : Nat), (4 : Nat))], q.2 = 3 + 1 ∧ q.1 = 64 / 64) := by
  refine ⟨by decide +kernel, by decide +kernel, ⟨by decide +kernel, by decide +kernel, by decide +kernel, by decide +kernel, ?_⟩,
    ⟨by decide +kernel, ?_⟩, by decide +kernel, by decide +kernel, by decide +kernel, by decide +kernel, by decide, ⟨64, 5, by decide, rfl⟩, by decide⟩
  · intro y h
    exact nomatch h
  · intro y h
    have : tfind ({ bare with keys := [(64, { ctx := 3, key := 1 })] } : State).keys 64 = some { ctx := 3, key := 1 } := by
      decide +kernel
    simp only [this, Option.some.injEq] at h
    subst h
    decide

/-- The remap table that keeps every number. -/
def straight : RemapTable := { clusters := (List.range 46).map fun c => (c, c) }
/-- The one that changes the numbers of two chiplets, and one that gives two of them the same number. -/
def crossed (n : Nat) : RemapTable := { straight with chips := [(0, 1), (1, n)] }

theorem witness_StagedStart :
    (let d : Dev := { powered := true }
     d.stage = 0 ∧ d.powered = true ∧ ({ stage := 1 } : Dev).firmwareOk = false ∧ ({ stage := 1 } : Dev).fail = false) ∧
    (16 ≤ 64 ∧ 64 ≤ 112 ∧ 1 ≤ 4 ∧ 4 ≤ 16 ∧ 12 * 64 + 16 * 4 ≤ 1408 ∧ 1408 < 12 * 112 + 16 * 16) ∧
    (0x80000440 / 2 ^ 31 = 1 ∧ 0x80000440 / 2 ^ 16 % 2 ^ 15 = 0 ∧ 0x80000440 % 2 ^ 8 = 64 ∧ 0x80000440 / 2 ^ 8 % 2 ^ 8 = 4) ∧
    (straight.clusters.length = 46 ∧ (∀ c, c < 46 → (tfind straight.clusters c).any (· < 48) = true) ∧
      (straight.clusters.map (·.1)).Nodup ∧ (straight.clusters.map (·.2)).Nodup ∧ ({ fuses := [0] } : Dev).fuses = [0] ∧
      (tfind (straight.clusters.drop 1) 0).isNone = true ∧ (∀ k, k < 4 → (tfind (crossed 0).chips k).getD k < 4) ∧
      (∀ a, a < 4 → ∀ b, b < 4 → (tfind (crossed 0).chips a).getD a = (tfind (crossed 0).chips b).getD b → a = b) ∧
      (tfind (crossed 1).chips 0).getD 0 = (tfind (crossed 1).chips 1).getD 1) ∧
    (({ stage := 2, scru := 64 } : Dev).stage = 2 ∧ ({ stage := 2, scru := 64 } : Dev).scru < 2 ^ 8) := by decide +kernel

theorem witness_PowerAndCooling :
    (0 < 46 ∧ (2 = 1 ∨ 2 = 2 ∨ 2 = 4) ∧ ¬ (0 < 46 ∧ (3 = 1 ∨ 3 = 2 ∨ 3 = 4))) ∧ (full base).dev.powered = true ∧
    (full base).dev.stage = 3 ∧ (full base).dev.tripped = false ∧ (full base).dev.fail = false ∧ base.dev.powered = false ∧
    ({ dlbase := 4096 } : Dev).dlbase ≠ 0 ∧ (({ dlbase := 4096 } : Dev).dlwr - ({ dlbase := 4096 } : Dev).dlrd).toNat < 4096 ∧
    ((context 1).grids.map (·.1)).Nodup ∧ (0, (context 1).grid 0) ∈ (context 1).grids ∧ ((context 1).warps.map (·.1)).Nodup ∧
    ((context 1).ctxState 0 ≠ 0 ∧ (context 1).dev.dlbase = 0 ∧ (context 1).dev.retiredChans = [] ∧ (context 1).dev.stage = 3) := by
  decide +kernel

theorem witness_SoftErrors :
    (base.structOf (.plinth 0 0), (0 : Nat)) ∉ base.dev.corrLogged ∧
    (base.structOf (.plinth 0 0), (0 : Nat)) ∈ [(base.structOf (.plinth 0 5), (0 : Nat))] ∧ tfind base.warps 7 = none ∧
    (base.grid 0).st = .running ∧ (∃ y ∈ base.gangs, y.2.cluster = 0 ∧ y.2.st = .resident ∧ y.2.grid = 0) ∧
    (base.blocks.map (·.1)).Nodup ∧ (∃ y ∈ base.blocks, y.2.grid = 0 ∧ y.2.holds = true) ∧
    (∀ y ∈ base.gangs, ¬ (y.2.cluster = 7 ∧ y.2.st = .resident)) ∧
    (∃ k, tfind base.warps 0 = some k) ∧ base.objectAt 3 = none ∧ (withMem heaped [(1, 4)]).objectAt 0x8000 = some (0, 0, 0x200000) :=
  ⟨by decide +kernel, by decide +kernel, by decide +kernel, by decide +kernel, by decide +kernel, by decide +kernel, by decide +kernel,
    by decide +kernel, ⟨_, rfl⟩, by simp [State.objectAt, State.heapDesc, ctxF_nil base rfl rfl], by
      have r : List.range 1024 = 0 :: List.range' 1 1023 := List.range_eq_range'.trans List.range'_succ
      simp only [State.objectAt, r, List.findSome?_cons]
      split
      · rename_i h
        rw [← h]
        decide +kernel
      · exact absurd ‹_› (by decide +kernel)⟩

/-! #### Whole machine -/

theorem witness_EncodeDecode :
    let c : Common := { grd := .always, fs := .none, u := false }
    let i : Instr := .nop c { loff := 0, slot := 0, prio := 0, a := .zero, mod := 0 }
    WellFormed i ∧ encode i = some 0x005C00000000005000000000 ∧ decode 0x005C00000000005000000000 = .ok i ∧
      encode (.scrubComplete) = none ∧ (Instr.scrubComplete).view = none := by decide

theorem witness_StepRunsDecoded :
    (let s := State.reset.withFetchWord 96 0x005C00000000005000000000
     s.agenda.length = 1 ∧ (s.warp 0).choice = some 0 ∧ ((s.warp 0).entry 0).entered = true ∧
      decode (lineSlot ((s.warp 0).entry 0).line (cpSlot 0)) =
        .ok (.nop ct { loff := 0, slot := 0, prio := 0, a := .zero, mod := 0 })) ∧
    ((base.warp 0).choice = some 0 ∧ base.agenda = [] ∧ base.dueEvent = none ∧ nextKey base.warps base.turn = some 0 ∧
      decode (lineSlot ((base.warp 0).entry 0).line (cpSlot 0)) = .illegal 1 ∧
      (match decode 0x005C00000000005000000001 with | .reserved _ => true | _ => false) = true) ∧
    ((base.warp 0).choice ≠ none ∧ base.mayIssue 0 = true ∧ (withW fun w => { w with yielding := true }).mayIssue 0 = false) ∧
    (({ base with agenda := [.bindRing 1 2] } : State).agenda = .bindRing 1 2 :: []) ∧
    (({ State.reset with clusters := [(0, { queue := [.release 0 [] false] })] } : State).dueEvent).isSome = true ∧
    State.reset.warps = [] ∧ State.reset.dueEvent = none := by decide +kernel

theorem witness_MemoriesStayCanonical : State.reset.memWf = true ∧ ∃ t, step State.reset = .next t :=
  ⟨by decide +kernel, _, rfl⟩

/-! #### Ill-formed instructions, one for each check -/

theorem test_unassigned_opcode : decode 0 = .illegal 0x01 ∧ decode (0x3FF <<< 86) = .illegal 0x01 := by decide
theorem test_wrong_layout : decode (0x044 <<< 86 ||| 1 <<< 78) = .illegal 0x06 := by decide
theorem test_illegal_type : (Instr.fadd ct (.rrr (rr .n32))).illegal = some 0x02 ∧ ¬ WellFormed (.fadd ct (.rrr (rr .n32))) := by
  decide
theorem test_illegal_mod : (Instr.iadd ct (.rrr (rr .n32 0x80))).illegal = some 0x03 ∧ ¬ WellFormed (.iadd ct (.rrr (rr .n32 0x80))) := by
  decide
theorem test_illegal_operand : (Instr.iadd ct (.rrr { rr .n64 with d := .v 3 })).illegal = some 0x04 ∧
    (Instr.iadd ct (.rrr { rr .n32 with d := .s 3 })).illegal = some 0x04 ∧ (Instr.drain ct (fs .zero .zero)).illegal = some 0x04 ∧
    ¬ WellFormed (.iadd ct (.rrr { rr .n64 with d := .v 3 })) := by decide
theorem test_illegal_flag : (Instr.push cu (fs .zero (.s 16) 0x100)).illegal = some 0x05 ∧
    (Instr.fence ca (fs .zero .zero 0 1)).illegal = some 0x05 ∧ ¬ WellFormed (.push cu (fs .zero (.s 16) 0x100)) := by decide
theorem test_illegal_special : (Instr.rdsr ct (fs (.v 2) .zero 0x0FF)).illegal = some 0x08 ∧
    (Instr.wrsr cu (fs .zero (.s 1) 0x001)).illegal = some 0x08 ∧ ¬ WellFormed (.rdsr ct (fs (.v 2) .zero 0x0FF)) := by decide
theorem test_reserved : (Instr.iadd ct (.rrr { rr .n32 with a := .bad })).reserved = true ∧
    (Instr.exit { ct with grd := .bad } (fb)).reserved = true ∧ (Instr.drain cu (fs .zero .zero 1)).reserved = true ∧
    (Instr.drain { cu with fs := .bad } (fs .zero .zero)).reserved = true ∧ ¬ WellFormed (.drain cu (fs .zero .zero 1)) := by decide
theorem test_constructor_bits : ¬ WellFormed (.acq cu (fs (.v 8) .zero 1 8 1)) ∧ ¬ WellFormed (.acqTry cu (fs (.v 8) .zero 1 0)) ∧
    ¬ WellFormed (.hflipMark cu (fh 0 0 (.s 4) 0 .n32 1)) ∧ ¬ WellFormed (.hflipConf cu (fh 0 0 (.s 4) 0 .n32)) := by decide

/-! #### Small steps -/

/-- The state after an instruction of warp 0. -/
def after (i : Instr) (s : State) : State := match exec i s with | .next t => t | _ => s
/-- Registers `v4`, `v6` and `v8` of every lane. -/
def vals (a b c : Word) : State :=
  let l := allLanes.map (fun l => (128 + l, a)) ++ allLanes.map (fun l => (192 + l, b)) ++ allLanes.map (fun l => (256 + l, c))
  withW fun w => { w with v := l }
/-- `v2` of lane 31 after an instruction on them. -/
def res (i : Instr) (a b : Word) (c : Word := 0) : Word := ((after i (vals a b c)).warp 0).rv 2 31

theorem test_iadd_wraps : res (.iadd ct (.rrr (rr .n32))) 0xFFFFFFFF 2 = 1 := by decide +kernel
theorem test_iadd_saturates : res (.iadd ct (.rrr (rr .s32 1))) 0x7FFFFFFF 2 = 0x7FFFFFFF := by decide +kernel
theorem test_isub_order : res (.isub ct (.rrr (rr .n32))) 5 7 = 0xFFFFFFFE := by decide +kernel
theorem test_imulh_sign : res (.imulh ct (.rrr (rr .s32))) 0xFFFFFFFF 2 = 0xFFFFFFFF := by decide +kernel
theorem test_imad : res (.imad ct (rr .n32 0 (.v 8))) 3 5 7 = 22 := by decide +kernel
theorem test_idiv_truncates : res (.idiv ct (.rrr (rr .s32))) (-7) 2 = -3 := by decide +kernel
theorem test_irem_sign : res (.irem ct (.rrr (rr .s32))) (-7) 2 = -1 := by decide +kernel
theorem test_imin_signed : res (.imin ct (.rrr (rr .s32))) 0x80000000 1 = 0x80000000 ∧
    res (.imin ct (.rrr (rr .n32))) 0x80000000 1 = 1 := by decide +kernel
theorem test_shr_arithmetic : res (.shr ct (.rrr (rr .s32))) 0x80000000 4 = 0xF8000000 ∧
    res (.shr ct (.rrr (rr .n32))) 0x80000000 4 = 0x08000000 := by decide +kernel
theorem test_clz : res (.clz ct { rr .n32 with b := .zero }) 1 0 = 31 := by decide +kernel
theorem test_brev : res (.brev ct { rr .n32 with b := .zero }) 1 0 = 0x80000000 := by decide +kernel
theorem test_popc : res (.popc ct { rr .n32 with b := .zero }) 0xF00F 0 = 8 := by decide +kernel
theorem test_fadd : res (.fadd ct (.rrr (rr .f32))) 0x3F800000 0x3F800000 = 0x40000000 := by decide +kernel
theorem test_fmul_negative_zero : res (.fmul ct (.rrr (rr .f32))) 0x80000000 0x3F800000 = 0x80000000 := by decide +kernel
theorem test_fdiv_rounds : res (.fdiv ct (rr .f32)) 0x3F800000 0x40400000 = 0x3EAAAAAB := by decide +kernel
theorem test_fsqrt : res (.fsqrt ct { rr .f32 with b := .zero }) 0x40000000 0 = 0x3FB504F3 := by decide +kernel
theorem test_movi : res (.movi ct { ri .n32 0x12345678 with a := .zero }) 0 0 = 0x12345678 := by decide +kernel
theorem test_guarded_off : res (.iadd cn (.rrr (rr .n32))) 1 2 = 0 := by decide +kernel

/-- Bytes 0 to 3 of shared memory. -/
def stored : State := { spaces with shared := [(0, 0xFE), (1, 0x01)] }

theorem test_ld_sign : ((after (.ld ct (fm (.v 3) 1 .s8)) stored).warp 0).rv 3 5 = 0xFFFFFFFE := by decide +kernel
theorem test_ld_unsigned_half : ((after (.ld ct (fm (.v 3) 1 .n16)) stored).warp 0).rv 3 5 = 0x01FE := by decide +kernel
theorem test_st_little_endian :
    (after (.st ct (fm (.v 3) 1 .n32 0 (.v 1))) (stored.modWarp 0 fun w => { w with v := w.v ++ [(96 + 3, 0x11223344)] })).shared =
      [(12, 0x44), (13, 0x33), (14, 0x22), (15, 0x11)] := by decide +kernel
theorem test_st_misaligned :
    ((after (.st ct (fm (.v 3) 1 .n32 0 (.v 1) .zero 2)) stored).warp 0).frec.code = 0 ∧
      ((after (.st ct (fm (.v 3) 1 .n32 0 (.v 1) .zero 2)) stored).grid 0).code = 0x11 := by decide +kernel
theorem test_atom_adds : (after (.red ct (fm (.v 6) 1 .n32 0x30 .zero .zero 0 0)) (stored.modWarp 0 fun w => { w with
    v := allLanes.map fun l => (192 + l, 1) })).shared = [(0, 0x1E), (1, 0x02)] := by decide +kernel
theorem test_exit_retires : ((after (.exit ct (fb)) base).warp 0).retired = true := by decide +kernel
theorem test_brk_stops_grid : ((after (.brk ct (fs .zero .zero 9)) base).grid 0).code = 0x40 := by decide +kernel
theorem test_illegal_stops_grid : (match step base with | .next t => (t.grid 0).code | _ => 0) = 0x01 := by decide +kernel
theorem test_zmov : (after (.zmov c1 (fx 0 (.v 0) 0 0 .zero 1 0 0 0)) (tiled.modWarp 0 fun w => { w with
    p := [(0, 1)], v := [(32, 7)] })).tiles = [(1, 7)] := by decide +kernel
theorem test_madd : ((after (.madd ct (fk .zero 0 3)) moments).warp 0).rm 2 9 = 0x4000000040400000 := by decide +kernel
theorem test_hhdr : ((after (.hhdr c1 (fh 0 1 (.v 8) 0 .b128)) heaped).warp 0).rv 8 0 = 48 := by decide +kernel
theorem test_hnew : ((after (.hnew c1 (fh 4 0 (.v 4) 1 .n32)) heaped).warp 0).rh 4 0 = 0x400009 := by decide +kernel
theorem test_copy_fill : (after (.copyBeatDelivery 3) (copying (fillCmd true))).shared = [(60, 1), (61, 2), (62, 3), (63, 4)] := by
  decide +kernel
theorem test_bound_lowers : ((after (.bndmin ct (fs .zero (.v 6) 0 0 1)) bounds).gang 0).bnd.headD 7 = 0 := by decide +kernel
theorem test_reset : State.reset.memWf = true ∧ State.reset.dev.stage = 0 := by decide
theorem test_withFetchWord : (match step (State.reset.withFetchWord 96 0x005C00000000005000000000) with
    | .next t => (t.warp 0).choice | _ => none) = some 1 := by decide +kernel
/-- The header of `CORE` as R352 writes it out. -/
theorem test_cap_core : capHeader 1 = 0x0000041002010001 := by decide
/-- Before FULL every register but the stage register reads 0 (R349); `PCFGCUR` would read 64 and 4 (R351). -/
theorem test_reads_before_full : State.reset.hostRead 0 2 0x280 = some 0 ∧ State.reset.read2 0x280 = some 0x440 := by decide
/-- A driver's write of the record of a running context is ignored, one of an idle context's is not (R336). -/
theorem test_record_locked : (({ State.reset with mem := [(1, 4)] } : State).hostWrite 0 [7]).mem = [(1, 4)] ∧
    (State.reset.hostWrite 0 [7]).mem = [(0, 7)] := by decide +kernel

end Sys2Proof.Tests
end

section
/-! PROOFS. What an `HNEW` does that has its objects on record, and what follows for R113's sizes and types. -/

namespace Sys2Proof.Machine

/-! ### An `HNEW` that resumes (R271, R327; log entry 85) -/

/-- An `HNEW` whose entry has its objects on record goes on with their writes: no size and no type is looked at. -/
theorem hnewAct_resumes {c : Common} {f : FH} {x : Ix} {s : State} {y : NewObjects} (hy : (s.warp x.w).newAt = some y)
    (hcp : y.cp = x.cp) : hnewAct c f x s = s.newWrite f x y := by
  have hrec : (s.warp x.w).newAt.filter (·.cp == x.cp) = some y := by simp [hy, hcp]
  simp only [hnewAct, hrec]
  rw [hy]

/-- The issue of such an `HNEW`. -/
theorem exec_hnew_resumes {c : Common} {f : FH} {x : Ix} {s : State} {y : NewObjects} (h : Ready s (.hnew c f) x)
    (hl : x.lanes ≠ []) (hy : (s.warp x.w).newAt = some y) (hcp : y.cp = x.cp) :
    exec (.hnew c f) s = .next (State.settle x (s.newWrite f x y)) := by
  have hne : x.lanes.isEmpty = false := List.isEmpty_eq_false_iff.mpr hl
  rw [exec_hnew, execHnew, State.issue_ready h, hne, if_neg Bool.false_ne_true, hnewAct_resumes hy hcp]

/-- The writes of an `HNEW` leave every grid as it was, whether they all go through or the side log is full: they stop none. -/
theorem settle_newWrite_grids (s : State) (f : FH) (x : Ix) (y : NewObjects) :
    (State.settle x (s.newWrite f x y)).grids = s.grids := by
  unfold State.newWrite
  extract_lets p l mk
  have hg : (s.writeOrPark p.ctx p.unit 0 mk .heap (l.drop y.done)).2.grids = s.grids := by
    rw [State.writeOrPark_fronts]
  generalize s.writeOrPark p.ctx p.unit 0 mk .heap (l.drop y.done) = written at hg ⊢
  obtain ⟨left, t⟩ := written
  cases left with
  | nil => exact hg
  | cons sec r => exact hg

/-- A computation that answers does so in the state it leaves. -/
theorem runHeap_eq_of_answer {α : Type} {m : HeapM α} {s : State} {a : α} (h : (runHeap m s).1.toOption = some a) :
    runHeap m s = (.ok a, (runHeap m s).2) := by
  rcases hr : runHeap m s with ⟨_ | b, t⟩
  · simp [hr, Except.toOption] at h
  · simpa [hr, Except.toOption] using h

/-! ### A type out of range at an `HNEW` that resumes -/

/-- The region of `resumingNew`: a page at 2 MiB, with `TYPE_COUNT` 0. -/
def untypedRegion : Region :=
  { num := 0, desc := 0x10000, base := 0x200000, pages := 1, epoch := 0, cycle := false, types := 0, ntypes := 0
    freeMap := 0, fwdLen := 0, fwd := 0 }

/-- Lane 0 takes part, by `p0`. -/
def resumingCommon : Common := { grd := .pred false 0, fs := .none, u := false }

/-- `HNEW` of type 0 with an empty payload. -/
def resumingFields : FH :=
  { hd := 4, ha := 0, v := .zero, off := 0, ty := .n32, mod := 0, pd := 7, hb := 0, ix := .zero }

/-- The entry it issues for. -/
def resumingEntry : Ix := { w := 0, cp := 0, ent := allLanes, lanes := [0] }

/-- What the `HNEW` has placed: one object at the start of the page. -/
def placedObject : NewObjects := { cp := 0, ent := allLanes, refs := [(0, 0x200008)], done := 0 }

/-- A warp at an `HNEW` that has placed its object and waits for room in the side log, held to its entry, while `TYPE_COUNT`
of its region's descriptor, at 64 KiB, has become 0. -/
def resumingNew : State :=
  let s := { State.reset.withWord 96 0 with
    agenda := [], mem := [(34, 1), (39, 0x80), (0x10002, 0x20), (0x10008, 1)]
    tlb := [{ chip := 0, ctx := 0, va := 0, size := 2 ^ 48, pa := 0, w := true }] }
  (s.modGrid 0 fun g => { g with lr := g.lr ||| 1 <<< 230 }).modWarp 0 fun w =>
    { w with p := [(0, 1)], newAt := some placedObject, hold := some 0 }

/-- The same when the descriptor is read. -/
def resumingRead : State := (runHeap (hMine resumingEntry) resumingNew).2

theorem resumingNew_ready : Ready resumingNew (.hnew resumingCommon resumingFields) resumingEntry where
  pick := by decide +kernel
  may := by decide +kernel
  waited := .inr (by decide +kernel)
  free := by decide +kernel
  clean := Option.isNone_iff_eq_none.mp (by decide +kernel)

theorem resumingNew_region :
    runHeap (hMine resumingEntry) resumingNew = (.ok (resumingNew.heapPort 0, untypedRegion), resumingRead) :=
  runHeap_eq_of_answer (by decide +kernel)

theorem resumingNew_newAt : (resumingNew.warp 0).newAt = some placedObject := by decide +kernel

/-- HEAP-BOUND would stop the grid, which is running without a code. -/
theorem resumingNew_codes : (resumingNew.grid 0).code = 0 ∧
    ((resumingRead.raise 0 allLanes (precise 0x39 0 0)).grid 0).code = 0x39 := by
  decide +kernel

/-- Refutes O42: the clause of HEAP-BOUND leaves out the premise of the clause after it, that the `HNEW` has no objects on
record at its entry (log entry 85).  In `resumingNew` it has, and the type is out of range since: the `HNEW` goes on with its
writes, which stop no grid, where the clause wants the fault, which stops the grid with 0x39. -/
theorem not_heapReferences : ¬ Obligations.HeapReferences := by
  unfold Obligations.HeapReferences
  rintro ⟨-, h⟩
  obtain ⟨-, -, hbound, -⟩ := h resumingCommon resumingFields resumingNew resumingRead resumingRead resumingRead resumingEntry
    (resumingNew.heapPort 0) untypedRegion []
  have hraise := hbound 0 (List.mem_singleton.mpr rfl) resumingNew_ready ⟨List.cons_ne_nil _ _, resumingNew_region⟩
    (.inr (Nat.zero_le _)) (fun _ _ hj => absurd hj (Nat.not_lt_zero _))
  rw [exec_hnew_resumes resumingNew_ready (List.cons_ne_nil _ _) resumingNew_newAt rfl] at hraise
  injection hraise with hstate
  have hgrids := settle_newWrite_grids resumingNew resumingFields resumingEntry placedObject
  rw [hstate] at hgrids
  have hcode : ((resumingRead.raise 0 allLanes (precise 0x39 0 0)).grid 0).code =
      (resumingNew.grid 0).code := congrArg (fun t => (tget {} t 0).code) hgrids
  rw [resumingNew_codes.1, resumingNew_codes.2] at hcode
  exact absurd hcode (by decide)

end Sys2Proof.Machine
end

section
/-! PROOFS. A step (O58), the choice of issue and the check of a target (O10), and the fetch that finds no page (O46). -/

namespace Sys2Proof.Machine

/-! ### A step -/

/-- An agenda's first thing is performed, one step later on the clock. -/
theorem step_of_agenda {s : State} {a : Act} {r : List Act} (h : s.agenda = a :: r) :
    step s = perform a { s with time := s.time + 1, agenda := r } := by
  have ht : s.tick.agenda = a :: r := h
  simp only [step, ht]
  rfl

/-- With nothing on the agenda, a device event that is due is performed. -/
theorem step_of_dueEvent {s : State} {i : Instr} (h : s.agenda = []) (hd : s.tick.dueEvent = some i) :
    step s = exec i s.tick := by
  have ht : s.tick.agenda = [] := h
  simp only [step, ht, hd]

/-- With nothing on the agenda and no event due, the warp whose turn it is issues. -/
theorem step_of_turn {s : State} {w : Nat} (h : s.agenda = []) (hd : s.tick.dueEvent = none)
    (hw : nextKey s.warps s.turn = some w) : step s = issueWarp w { s.tick with turn := w + 1 } := by
  have ht : s.tick.agenda = [] := h
  have hk : nextKey s.tick.warps s.tick.turn = some w := hw
  simp only [step, ht, hd, State.turnWarp, hk]

/-- Without a warp only the clock goes on. -/
theorem step_of_no_warp {s : State} (h : s.agenda = []) (hd : s.tick.dueEvent = none) (hw : s.warps = []) :
    step s = .next s.tick := by
  have ht : s.tick.agenda = [] := h
  have hk : nextKey s.tick.warps s.tick.turn = none := by
    rw [show s.tick.warps = [] from hw]
    rfl
  simp only [step, ht, hd, State.turnWarp, hk]

/-! ### The issue of a warp, by what its chosen entry holds -/

section
variable {w : Nat} {r : State} {c : Word}

theorem issueWarp_of_no_choice (hc : (r.warp w).choice = none) : issueWarp w r = .next { r.attempt w with cur := w } := by
  simp [issueWarp, hc]

variable (hc : (r.warp w).choice = some c)
include hc

theorem issueWarp_of_not_entered (he : ((r.warp w).entry c).entered = false) :
    issueWarp w r = exec (.lineFetch w) { r.attempt w with cur := w } := by
  simp [issueWarp, hc, he]

variable (he : ((r.warp w).entry c).entered = true)
include he

theorem issueWarp_of_decoded {i : Instr} (hd : decode (lineSlot ((r.warp w).entry c).line (cpSlot c)) = .ok i) :
    issueWarp w r = exec i { r.attempt w with cur := w } := by
  simp [issueWarp, hc, he, hd]

theorem issueWarp_of_illegal {k : Nat} (hd : decode (lineSlot ((r.warp w).entry c).line (cpSlot c)) = .illegal k) :
    issueWarp w r = State.issueIllegal { r.attempt w with cur := w }
      ((lineSlot ((r.warp w).entry c).line (cpSlot c)).toNat / 2 ^ 86) k := by
  simp [issueWarp, hc, he, hd]

theorem issueWarp_of_reserved {i : Instr} (hd : decode (lineSlot ((r.warp w).entry c).line (cpSlot c)) = .reserved i) :
    issueWarp w r = State.issue { r.attempt w with cur := w } true i fun _ v => .keep v := by
  simp [issueWarp, hc, he, hd]

end

/-- An issue that its warp cannot make is not counted. -/
theorem State.attempt_of_idle {s : State} {w : Nat} (h : s.mayIssue w = false ∨ (s.warp w).choice = none) :
    s.attempt w = s := by
  rcases h with h | h <;> simp [State.attempt, h]

/-- An issue that its warp may make is counted in its quadrant (log entry 77). -/
theorem State.attempt_of_mayIssue {s : State} {w : Nat} (hm : s.mayIssue w = true) (hc : (s.warp w).choice ≠ none) :
    s.attempt w = { s with
      issues := tset s.issues (s.quadOf w) ((w :: tget [] s.issues (s.quadOf w)).take 9)
      active := tset s.active (s.quadOf w) ((w :: (tget [] s.active (s.quadOf w)).filter (· != w)).take 8) } := by
  have hs : (s.warp w).choice.isSome = true := Option.isSome_iff_ne_none.mpr hc
  simp [State.attempt, hm, hs]

/-- Settles O58: the agenda, the due events and the turn each have their equation of `step`, and the issue of a warp is read
off its chosen entry. -/
theorem stepRunsDecoded : Obligations.StepRunsDecoded := by
  unfold Obligations.StepRunsDecoded
  refine ⟨?_, fun s w => ⟨State.attempt_of_idle, State.attempt_of_mayIssue⟩⟩
  intro s t issues
  have hissues : ∀ (w : Nat) (r : State), r.warp w = s.warp w → step s = issueWarp w r → issues w r := by
    intro w r hr hstep
    refine ⟨fun hc => hstep.trans (issueWarp_of_no_choice (hr ▸ hc)), fun c hc => ?_⟩
    rw [← hr] at hc ⊢
    exact ⟨fun he => hstep.trans (issueWarp_of_not_entered hc he), fun he =>
      ⟨fun i hd => hstep.trans (issueWarp_of_decoded hc he hd), fun k hd => hstep.trans (issueWarp_of_illegal hc he hd),
        fun i hd => hstep.trans (issueWarp_of_reserved hc he hd)⟩⟩
  refine ⟨fun w r ha => hissues w _ rfl (step_of_agenda ha), fun i r ha => step_of_agenda ha,
    fun a b r ha => step_of_agenda ha, fun fn ctx r ha => step_of_agenda ha, fun ha => ?_⟩
  exact ⟨fun i hd => step_of_dueEvent ha hd, fun hd => ⟨step_of_no_warp ha hd, fun w hw =>
    hissues w _ rfl (step_of_turn ha hd hw)⟩⟩

/-! ### The choice of issue -/

/-- Of two entries, the first is chosen before the second (R25, R28). -/
theorem Warp.before_iff (w : Warp) (a b : Word) :
    w.before a b = true ↔
      if (w.entry a).isAged = true then
        (w.entry b).isAged = true → (w.entry b).age < (w.entry a).age ∨ (w.entry a).age = (w.entry b).age ∧ a < b
      else (w.entry b).isAged = false ∧ a < b := by
  unfold Warp.before
  dsimp only
  by_cases ha : (w.entry a).isAged = true
  · rw [if_pos ha, if_pos ha]
    cases hb : (w.entry b).isAged <;> simp
  · rw [if_neg ha, if_neg ha]
    simp

/-- Not to be chosen before, spelled out: an aged entry gives way to an aged one only, of a larger age or of the same age and
not above it, and an entry that is not aged is not below. -/
theorem Warp.not_before_iff (w : Warp) (d c : Word) :
    ¬ w.before d c = true ↔
      ((w.entry d).isAged = true → (w.entry c).isAged = true ∧
        ((w.entry d).age < (w.entry c).age ∨ (w.entry d).age = (w.entry c).age ∧ c ≤ d)) ∧
      ((w.entry c).isAged = false → c ≤ d) := by
  rw [Warp.before_iff]
  by_cases hd : (w.entry d).isAged = true <;> by_cases hc : (w.entry c).isAged = true <;> simp [hd, hc]
  rw [BitVec.le_def]
  omega

theorem Warp.not_before_self (w : Warp) (c : Word) : ¬ w.before c c = true :=
  (w.not_before_iff c c).mpr ⟨fun h => ⟨h, .inr ⟨rfl, BitVec.le_refl c⟩⟩, fun _ => BitVec.le_refl c⟩

/-- What is not chosen before an entry is not chosen before one that precedes it. -/
theorem Warp.not_before_trans (w : Warp) {d c a : Word} (hdc : ¬ w.before d c = true) (hac : w.before a c = true) :
    ¬ w.before d a = true := by
  rw [Warp.not_before_iff] at hdc ⊢
  rw [Warp.before_iff] at hac
  obtain ⟨haged, hplain⟩ := hdc
  simp only [BitVec.le_def, BitVec.lt_def] at *
  by_cases ha : (w.entry a).isAged = true
  · refine ⟨fun hd => ⟨ha, ?_⟩, fun h => absurd ha (by simp [h])⟩
    obtain ⟨hc, hage⟩ := haged hd
    rw [if_pos ha] at hac
    have := hac hc
    omega
  · rw [if_neg ha] at hac
    obtain ⟨hc, hlt⟩ := hac
    have := hplain hc
    refine ⟨fun hd => ?_, fun _ => by omega⟩
    rw [(haged hd).1] at hc
    cases hc

/-- The choice among lanes is the code pointer of one of them, and none of theirs is chosen before it. -/
theorem Warp.best_some (w : Warp) (ls : List Nat) (c : Word) (h : w.best ls = some c) :
    (∃ l ∈ ls, (w.th l).cp = c) ∧ ∀ l ∈ ls, ¬ w.before (w.th l).cp c = true := by
  induction ls generalizing c with
  | nil => simp [Warp.best] at h
  | cons l r ih =>
    rw [Warp.best] at h
    cases hr : w.best r with
    | none =>
      have hnil : r = [] := by
        cases r with
        | nil => rfl
        | cons k r =>
          rw [Warp.best] at hr
          split at hr <;> (try split at hr) <;> cases hr
      simp only [hr, Option.some.injEq] at h
      subst h hnil
      simp [w.not_before_self]
    | some b =>
      obtain ⟨⟨k, hk, hkb⟩, hmax⟩ := ih b hr
      simp only [hr] at h
      split at h
      · rename_i hbefore
        cases h
        refine ⟨⟨l, List.mem_cons_self, rfl⟩, fun j hj => ?_⟩
        rcases List.mem_cons.mp hj with rfl | hj
        · exact w.not_before_self _
        · exact w.not_before_trans (hmax j hj) hbefore
      · rename_i hbefore
        cases h
        refine ⟨⟨k, List.mem_cons_of_mem l hk, hkb⟩, fun j hj => ?_⟩
        rcases List.mem_cons.mp hj with rfl | hj
        · exact hbefore
        · exact hmax j hj

/-! ### The check of a target -/

section
variable {s : State} {w : Nat} {line : Int} {slot : Nat}

theorem State.checkTarget_outside (h : 5 ≤ slot ∨ line < 0 ∨ ((s.wgrid w).clines : Int) ≤ line) :
    s.checkTarget w line slot = (.bad, s) := by
  rw [State.checkTarget, if_pos (by simpa [or_assoc] using h)]

/-- A target whose slot and line exist is judged by the line word that is read (R22, R165). -/
theorem State.checkTarget_inside (hs : slot < 5) (h0 : 0 ≤ line) (hl : line < (s.wgrid w).clines) :
    (s.checkTarget w line slot).1 =
      match (s.vreadNat (.mapUnit (s.wcluster w)) (s.wctx w) (s.lineVa w line.toNat) 4).1 with
      | .ok lw => if lwTgt lw slot then .good else .bad
      | .error _ => .absent (s.lineVa w line.toNat) := by
  have hin : (decide (5 ≤ slot) || decide (line < 0) || decide (((s.wgrid w).clines : Int) ≤ line)) = false := by
    simp only [Bool.or_eq_false_iff, decide_eq_false_iff_not]
    omega
  rw [State.checkTarget, if_neg (by simp [hin])]
  dsimp only
  rcases s.vreadNat (.mapUnit (s.wcluster w)) (s.wctx w) (s.lineVa w line.toNat) 4 with ⟨_ | _, _⟩ <;> rfl

end

/-- Settles O10: the choice is the maximum of a total preorder on entries, and a target is judged by its place, then by its
line word. -/
theorem issueChoice : Obligations.IssueChoice := by
  unfold Obligations.IssueChoice
  constructor
  · intro w c hhold hchoice
    simp only [Warp.choice, hhold] at hchoice
    obtain ⟨⟨l, hl, hcp⟩, hmax⟩ := w.best_some _ c hchoice
    have hlive : ∀ k, k ∈ w.lanesWhere Thread.live ↔ k < 32 ∧ (w.th k).live = true := by
      simp [Warp.lanesWhere, allLanes]
    exact ⟨⟨l, ((hlive l).mp hl).1, ((hlive l).mp hl).2, hcp⟩, fun k hk hkl =>
      (w.not_before_iff _ c).mp (hmax k ((hlive k).mpr ⟨hk, hkl⟩))⟩
  · intro s w line slot va r
    refine ⟨State.checkTarget_outside, fun hs h0 hl => ⟨fun lw hr => ?_, fun p hr => ?_⟩⟩
    · rw [State.checkTarget_inside hs h0 hl, hr]
    · rw [State.checkTarget_inside hs h0 hl, hr]

/-! ### A fetch without its page -/

/-- Which deque operations are withdrawn depends on the waits and on the warps. -/
theorem SameFronts.dqLeave_dqWaits {s t : State} (h : SameFronts s t) (w : Nat) (lanes : List Nat) :
    (t.dqLeave w lanes).dqWaits = (s.dqLeave w lanes).dqWaits := by
  rw [h]
  rfl

/-- A read that finds no page, and the request for it, leave the warps and the queues alone. -/
theorem State.vread_request_fronts {s s1 : State} {u : XUnit} {c va n page : Nat}
    (h : s.vread u c va n = (.error page, s1)) : SameFronts s (s1.request c page false) := by
  have hread := s.vread_same u c va n
  rw [h] at hread
  exact (SameFronts.of_tlb hread).trans (State.request_fronts ..)

section
variable {s s1 : State} {w page : Nat} {c : Word} (hc : (s.warp w).choice = some c) (hm : s.mayIssue w = true)
  (he : ((s.warp w).entry c).entered = false) (hp : ((s.warp w).entry c).past = false)
  (hl : cpLine c < (s.wgrid w).clines)
  (hv : s.vread (.mapUnit (s.wcluster w)) (s.wctx w) (s.lineVa w (cpLine c)) 64 = (.error page, s1))
include hc hm he hp hl hv

/-- A fetch whose page is absent asks for it, and the threads of its entry block; the deque operation at which they waited is
withdrawn (R144, R326). -/
theorem exec_lineFetch_absent :
    exec (.lineFetch w) s =
      .next (((s1.request (s.wctx w) page false).dqLeave w ((s.warp w).entLanes c)).modWarp w fun y =>
        (y.modThs ((s.warp w).entLanes c) fun _ t => { t with check := ((s.warp w).entry c).check }).blockLanes
          ((s.warp w).entLanes c) (.fetchPage (s.wctx w) (max page (s.lineVa w (cpLine c)))) fun _ k => k) := by
  have hin : (((s.warp w).entry c).past || decide ((s.wgrid w).clines ≤ cpLine c)) = false := by
    simp [hp, hl]
  rw [exec_lineFetch]
  simp only [execLineFetch, hc, hm, he, State.fetchLine, hin, hv, Bool.not_true, Bool.or_false, Bool.false_eq_true, if_false]

/-- Nothing but the entry's own deque operations leaves the deques' queues in such a fetch. -/
theorem exec_lineFetch_absent_dqWaits {t : State} (ht : exec (.lineFetch w) s = .next t) :
    t.dqWaits = (s.dqLeave w ((s.warp w).entLanes c)).dqWaits := by
  rw [exec_lineFetch_absent hc hm he hp hl hv] at ht
  injection ht with ht
  rw [← ht, ← (State.vread_request_fronts hv).dqLeave_dqWaits]
  rfl

/-- The clause of an absent page keeps every deque operation in its queue. -/
theorem fetch_dqWaits (h : Obligations.Fetch) {t : State} (ht : exec (.lineFetch w) s = .next t) :
    t.dqWaits = s.dqWaits := by
  unfold Obligations.Fetch at h
  obtain ⟨-, -, hfetch⟩ := h.1 w c s s1
  obtain ⟨-, habsent, -⟩ := hfetch hc hm he
  have hkept := habsent page (by rw [hp]; simpa using hl) hv
  rw [ht] at hkept
  injection hkept with hkept
  rw [hkept, State.modWarp_dqWaits, State.vread_request_fronts hv]

end

/-- `DQSTEAL`, guarded by nothing. -/
def waitingSteal : Instr :=
  .dqsteal { grd := .always, fs := .none, u := false }
    { r := .v 8, bx := 4, idx := .zero, off := 0, ty := .n64, mod := 0, c := .zero, pd := 1 }

/-- A warp whose entry at code pointer 0 waits for a deque and has to enter its line again, as after threads have joined it
(R168), while its context's table maps no page. -/
def refetching : State :=
  let s := State.reset.withWord 96 0
  { s.modWarp 0 fun w => { w with entries := [] } with
    agenda := [], dqWaits := [{ key := 0, warp := 0, instr := waitingSteal, cp := 0 }] }

theorem refetching_choice : (refetching.warp 0).choice = some 0 := by decide +kernel

theorem refetching_mayIssue : refetching.mayIssue 0 = true := by decide +kernel

theorem refetching_entry : ((refetching.warp 0).entry 0).entered = false ∧ ((refetching.warp 0).entry 0).past = false := by
  decide +kernel

theorem refetching_inside : cpLine 0 < (refetching.wgrid 0).clines := by decide +kernel

theorem refetching_absent :
    (refetching.vread (.mapUnit (refetching.wcluster 0)) (refetching.wctx 0) (refetching.lineVa 0 (cpLine 0)) 64).1 =
      .error 0 := by
  decide +kernel

theorem refetching_waits :
    refetching.dqWaits ≠ (refetching.dqLeave 0 ((refetching.warp 0).entLanes 0)).dqWaits := by
  decide +kernel

/-- Refutes O46: its clause of an absent page leaves out that the deque operation at which the entry's threads waited is
withdrawn (R144).  In `refetching` one is listed; the fetch takes it off the list, where the clause keeps it. -/
theorem not_fetch : ¬ Obligations.Fetch := by
  intro h
  obtain ⟨s, hs⟩ : ∃ s, s = refetching := ⟨_, rfl⟩
  have hc := refetching_choice
  have hm := refetching_mayIssue
  obtain ⟨he, hp⟩ := refetching_entry
  have hl := refetching_inside
  have hv := refetching_absent
  have hne := refetching_waits
  rw [← hs] at hc hm he hp hl hv hne
  obtain ⟨s1, hread⟩ : ∃ s1, s.vread (.mapUnit (s.wcluster 0)) (s.wctx 0) (s.lineVa 0 (cpLine 0)) 64 = (.error 0, s1) :=
    ⟨_, Prod.ext hv rfl⟩
  have ht := exec_lineFetch_absent hc hm he hp hl hread
  exact hne ((fetch_dqWaits hc hm he hp hl hread h ht).symm.trans (exec_lineFetch_absent_dqWaits hc hm he hp hl hread ht))

end Sys2Proof.Machine
end

section
/-! PROOFS. The end of threads, of a block and of a grid (O13). -/

namespace Sys2Proof.Machine

/-! ### Tables -/

theorem mem_tins {α : Type} (t : Tab α) (k : Nat) (x : α) (p : Nat × α) : p ∈ tins t k x ↔ p = (k, x) ∨ p ∈ t := by
  induction t with
  | nil => simp [tins]
  | cons q r ih =>
    rw [tins]
    split <;> simp [ih, or_left_comm]

theorem mem_tset {α : Type} (t : Tab α) (k : Nat) (x : α) (p : Nat × α) :
    p ∈ tset t k x ↔ p = (k, x) ∨ p ∈ t ∧ p.1 ≠ k := by
  rw [tset, mem_tins, terase_eq_filter, List.mem_filter, bne_iff_ne]

/-! ### Threads that end -/

theorem Warp.allLanes_filter_nodup (f : Nat → Bool) : (allLanes.filter f).Nodup := List.nodup_range.filter f

/-- Waking threads changes threads and entries alone. -/
theorem Warp.wake_rest (w : Warp) (lanes : List Nat) (cp : Nat → Word → Word) :
    w.wake lanes cp = { w with threads := (w.wake lanes cp).threads, entries := (w.wake lanes cp).entries } := by
  unfold Warp.wake Warp.place
  dsimp only
  rw [Warp.modThs_rest]

/-- A thread that is not woken stays as it is. -/
theorem Warp.wake_th_of_not_mem (w : Warp) {lanes : List Nat} (cp : Nat → Word → Word) {l : Nat} (hn : lanes.Nodup)
    (hl : l ∉ lanes) : (w.wake lanes cp).th l = w.th l := by
  show (w.modThs lanes _).th l = _
  rw [Warp.modThs_th _ _ _ _ hn, if_neg hl]

/-- A release at a `WSYNC` is a waking of threads that wait there, or nothing. -/
theorem Warp.wsyncAt_eq (w : Warp) (pos : Nat) :
    w.wsyncAt pos = w ∨ ∃ out cp, w.wsyncAt pos = w.wake out cp ∧ out.Nodup ∧ ∀ l ∈ out, ((w.th l).arrived pos).isSome = true := by
  unfold Warp.wsyncAt
  dsimp only
  split
  · exact .inl rfl
  · rename_i l r hout
    refine .inr ⟨_, _, rfl, hout ▸ allLanes_filter_nodup _, fun k hk => ?_⟩
    rw [List.mem_filter] at hk
    cases ha : (w.th k).arrived pos with
    | none => simp [ha] at hk
    | some m => rfl

theorem Warp.wsyncAt_rest (w : Warp) (pos : Nat) :
    w.wsyncAt pos = { w with threads := (w.wsyncAt pos).threads, entries := (w.wsyncAt pos).entries } := by
  rcases w.wsyncAt_eq pos with h | ⟨out, cp, h, -, -⟩
  · rw [h]
  · rw [h]
    exact w.wake_rest out cp

theorem Warp.wsyncAt_th_exited (w : Warp) (pos : Nat) {l : Nat} (h : (w.th l).st = .exited) :
    ((w.wsyncAt pos).th l).st = .exited := by
  rcases w.wsyncAt_eq pos with he | ⟨out, cp, he, hn, hout⟩
  · rw [he, h]
  · have hl : l ∉ out := fun hl => by
      have := hout l hl
      simp [Thread.arrived, h] at this
    rw [he, w.wake_th_of_not_mem cp hn hl, h]

theorem Warp.wsyncAll_rest (w : Warp) :
    w.wsyncAll = { w with threads := w.wsyncAll.threads, entries := w.wsyncAll.entries } := by
  unfold Warp.wsyncAll
  dsimp only
  refine List.foldlRecOn (motive := fun y : Warp => y = { w with threads := y.threads, entries := y.entries }) _ _ rfl ?_
  intro y hy pos _
  rw [y.wsyncAt_rest pos, hy]

theorem Warp.wsyncAll_th_exited (w : Warp) {l : Nat} (h : (w.th l).st = .exited) : (w.wsyncAll.th l).st = .exited := by
  unfold Warp.wsyncAll
  exact List.foldlRecOn (motive := fun y : Warp => (y.th l).st = .exited) _ _ h fun y hy pos _ => y.wsyncAt_th_exited pos hy

/-- The end of threads changes threads, entries and the yield alone. -/
theorem Warp.endLanes_rest (w : Warp) (cp : Word) (lanes : List Nat) :
    w.endLanes cp lanes = { w with threads := (w.endLanes cp lanes).threads, entries := (w.endLanes cp lanes).entries
                                   yielding := (w.endLanes cp lanes).yielding } := by
  unfold Warp.endLanes
  dsimp only
  rw [Warp.wsyncAll_rest, Warp.move, Warp.moveOnly_rest, Warp.modThs_rest]

theorem Warp.endLanes_exited (w : Warp) (cp : Word) {lanes : List Nat} (hn : lanes.Nodup) {l : Nat} (hl : l ∈ lanes) :
    ((w.endLanes cp lanes).th l).st = .exited := by
  unfold Warp.endLanes
  apply Warp.wsyncAll_th_exited
  rw [Warp.move, Warp.moveOnly_th _ _ _ _ _ (Warp.entLanes_nodup _ _), Warp.modThs_th _ _ _ _ hn, if_pos hl]
  split <;> rfl

/-- The participating threads of an `EXIT` end, and so does their warp when they are its last (R193). -/
def State.exitThreads (s : State) (x : Ix) (last : Bool) : State :=
  s.modWarp x.w fun y => { y.boundary.endLanes x.cp x.lanes with hold := none, retired := last }

theorem State.exitThreads_onlyWarp (s : State) (x : Ix) (last : Bool) : OnlyWarp s (s.exitThreads x last) x.w :=
  ⟨rfl, fun k hk => by rw [State.exitThreads, State.modWarp_warp, if_neg hk]⟩

/-- What the end of threads leaves of their warp: all but threads, entries, the yield, the held entry and the region. -/
theorem State.exitThreads_warp (s : State) (x : Ix) (last : Bool) :
    (s.exitThreads x last).warp x.w =
      { s.warp x.w with
        threads := ((s.exitThreads x last).warp x.w).threads, entries := ((s.exitThreads x last).warp x.w).entries
        yielding := ((s.exitThreads x last).warp x.w).yielding, hold := none, retired := last
        rsn := (s.warp x.w).rsn + 1, ep := (s.warp x.w).ep + 1 } := by
  rw [State.exitThreads, State.modWarp_warp_self, Warp.endLanes_rest]
  rfl

theorem State.exitThreads_exited (s : State) (x : Ix) (last : Bool) (hn : x.lanes.Nodup) {l : Nat} (hl : l ∈ x.lanes) :
    (((s.exitThreads x last).warp x.w).th l).st = .exited := by
  rw [State.exitThreads, State.modWarp_warp_self]
  exact Warp.endLanes_exited _ _ hn hl

/-! ### `EXIT` -/

section
variable {c : Common} {f : BR} {s : State} {x : Ix} (h : Ready s (.exit c f) x) (hr : s.releaseCheck x = none)
include h hr

/-- Some thread of the warp remains. -/
theorem exec_exit_partly (hl : x.lanes = [] ∨ (s.warp x.w).lastOf x.lanes = false) :
    exec (.exit c f) s = .next (s.exitThreads x false) := by
  have hcond : (x.lanes.isEmpty || !(s.warp x.w).lastOf x.lanes) = true := by
    rcases hl with hl | hl <;> simp [hl]
  rw [exec_exit, execExit, State.issue_ready h, hr]
  dsimp only
  rw [if_pos hcond]
  rfl

variable (hne : x.lanes ≠ []) (hlast : (s.warp x.w).lastOf x.lanes = true)
  (hclear : (s.warp x.w).flagsClear 0xFFF = true) (hfault : (s.warp x.w).flagFault 0xFFF = none)
include hne hlast hclear hfault

/-- The warp's last threads exit: the warp retires, and the block ends with its last warp. -/
theorem exec_exit_last :
    exec (.exit c f) s = .next (State.settle x
      (if s.lastWarp x.w then s.exitBlock x (fun u => u.exitThreads x true) else .set (s.exitThreads x true))) := by
  have hcond : (x.lanes.isEmpty || !(s.warp x.w).lastOf x.lanes) = false := by simp [hne, hlast]
  rw [exec_exit, execExit, State.issue_ready h, hr]
  simp only [hcond, hclear, hfault, Bool.false_eq_true, if_false, Bool.not_true]
  rfl

end

/-! ### The last warp of a block -/

section
variable {s : State} {x : Ix} (done : State → State)

/-- The write-backs that the end of the warp's block makes first (R69). -/
def State.exitWrites (s : State) (x : Ix) : List (Nat × List Nat) × State :=
  s.writeBacks (fun p => { p with warp := x.w, pc := x.cp }) .exitWriteBack (s.dirtyOf (s.endWindows (s.warp x.w).block))

theorem State.exitBlock_of_logged (hl : s.windowLogged (s.endWindows (s.warp x.w).block) = true) :
    s.exitBlock x done = .keep s := by
  rw [State.exitBlock]
  exact if_pos hl

variable (hl : s.windowLogged (s.endWindows (s.warp x.w).block) = false)
include hl

theorem State.exitBlock_of_writing (hw : (s.exitWrites x).1 ≠ [] ∨ (s.exitWrites x).2.exitParked x.w = true) :
    s.exitBlock x done = .keep (s.exitWrites x).2 := by
  have hcond : (!(s.exitWrites x).1.isEmpty || (s.exitWrites x).2.exitParked x.w) = true := by
    rcases hw with hw | hw <;> simp [hw]
  rw [State.exitBlock]
  dsimp only
  rw [hl, if_neg Bool.false_ne_true]
  exact if_pos hcond

theorem State.exitBlock_of_written (hw : (s.exitWrites x).1 = []) (hp : (s.exitWrites x).2.exitParked x.w = false) :
    s.exitBlock x done =
      .set ((done ((s.exitWrites x).2.unbind (s.endWindows (s.warp x.w).block))).endBlock (s.warp x.w).block) := by
  have hcond : (!(s.exitWrites x).1.isEmpty || (s.exitWrites x).2.exitParked x.w) = false := by simp [hw, hp]
  rw [State.exitBlock]
  dsimp only
  rw [hl, if_neg Bool.false_ne_true]
  exact if_neg (by rw [← State.exitWrites, hcond]; exact Bool.false_ne_true)

end

/-- What is unbound has nothing left to write back. -/
theorem State.unbind_dirty (s : State) (l : List Nat) {i : Nat} {y : Window} (hi : i ∈ l)
    (h : (i, y) ∈ (s.unbind l).windows) : y.dirty ≠ [] := by
  have := (List.mem_filter.mp h).2
  intro hy
  simp [hi, hy] at this

/-- The windows that a block's end concerns, as R69 and log entry 38 name them. -/
theorem State.mem_endWindows (s : State) (b i : Nat) :
    i ∈ s.endWindows b ↔ ∃ y, (i, y) ∈ s.windows ∧ (y.block = b ∨
      ((s.blk b).holds = true ∧ (s.blk b).st ≠ .saved ∧ (s.blk y.block).st ≠ .saved ∧
        ∃ u ∈ (s.blk b).units,
          let lo := s.chipOf ((s.blk b).core / 8) * 2 ^ 31 + s.unitOff ((s.blk b).core / 8) u.1
          y.base < lo + 2 ^ 20 ∧ lo < y.limit)) := by
  unfold State.endWindows
  dsimp only
  rw [List.mem_map]
  constructor
  · rintro ⟨⟨j, y⟩, hmem, rfl⟩
    obtain ⟨hy, hc⟩ := List.mem_filter.mp hmem
    rw [Bool.or_eq_true, Bool.and_eq_true, Bool.and_eq_true, Bool.and_eq_true, List.any_eq_true, beq_iff_eq, bne_iff_ne,
      bne_iff_ne] at hc
    refine ⟨y, hy, hc.imp_right ?_⟩
    rintro ⟨⟨⟨hh, hs⟩, u, hu, hin⟩, hv⟩
    rw [Bool.and_eq_true, decide_eq_true_eq, decide_eq_true_eq] at hin
    exact ⟨hh, hs, hv, u, hu, hin⟩
  · rintro ⟨y, hy, hc⟩
    refine ⟨(i, y), List.mem_filter.mpr ⟨hy, ?_⟩, rfl⟩
    rw [Bool.or_eq_true, Bool.and_eq_true, Bool.and_eq_true, Bool.and_eq_true, List.any_eq_true, beq_iff_eq, bne_iff_ne,
      bne_iff_ne]
    refine hc.imp_right ?_
    rintro ⟨hh, hs, hv, u, hu, hin⟩
    refine ⟨⟨⟨hh, hs⟩, u, hu, ?_⟩, hv⟩
    rw [Bool.and_eq_true, decide_eq_true_eq, decide_eq_true_eq]
    exact hin

/-! ### What the end of a grid may change -/

/-- The two states differ in physical memory with its marks, the side logs, the page requests, the cached translations, the
functions, the grids and the blocks at most. -/
def SameButGrids (s t : State) : Prop :=
  t = { s with
    mem := t.mem, poisonMem := t.poisonMem, memCtx := t.memCtx, relMem := t.relMem, parked := t.parked
    pageReqs := t.pageReqs, tlb := t.tlb, fns := t.fns, grids := t.grids, blocks := t.blocks }

/-- The same, with functions, grids and blocks as they were. -/
def SameButPhys (s t : State) : Prop :=
  t = { s with
    mem := t.mem, poisonMem := t.poisonMem, memCtx := t.memCtx, relMem := t.relMem, parked := t.parked
    pageReqs := t.pageReqs, tlb := t.tlb }

theorem SameButPhys.refl (s : State) : SameButPhys s s := rfl

theorem SameButPhys.trans {s t u : State} (a : SameButPhys s t) (b : SameButPhys t u) : SameButPhys s u := by
  unfold SameButPhys at *
  rw [b, a]

theorem SameButPhys.of_tlb {s t : State} (h : SameButTlb s t) : SameButPhys s t := by
  unfold SameButTlb at h
  rw [h]
  rfl

theorem SameButGrids.refl (s : State) : SameButGrids s s := rfl

theorem SameButGrids.trans {s t u : State} (a : SameButGrids s t) (b : SameButGrids t u) : SameButGrids s u := by
  unfold SameButGrids at *
  rw [b, a]

theorem SameButPhys.sameButGrids {s t : State} (h : SameButPhys s t) : SameButGrids s t := by
  unfold SameButPhys at h
  rw [h]
  rfl

theorem SameButPhys.blk {s t : State} (h : SameButPhys s t) (b : Nat) : t.blk b = s.blk b := by rw [h]; rfl
theorem SameButPhys.grid {s t : State} (h : SameButPhys s t) (g : Nat) : t.grid g = s.grid g := by rw [h]; rfl
theorem SameButPhys.fn {s t : State} (h : SameButPhys s t) (n : Nat) : t.fn n = s.fn n := by rw [h]; rfl
theorem SameButPhys.childLive {s t : State} (h : SameButPhys s t) (b : Nat) : t.childLive b = s.childLive b := by
  rw [h]
  rfl

theorem State.park_phys (s : State) (p : Parked) : SameButPhys s (s.park p) := by
  unfold State.park State.request
  split <;> rfl

theorem State.vwrite_phys (s : State) (u : XUnit) (c va n : Nat) (bytes : List (Nat × Byte)) :
    SameButPhys s (s.vwrite u c va n bytes).2 := by
  have h := SameButPhys.of_tlb (State.xlPages_same u c true false (pagesOf va n) s)
  unfold State.vwrite
  rcases hx : s.xlPages u c true false (pagesOf va n) with ⟨_ | ps, s1⟩
  · rw [hx] at h
    exact h
  · rw [hx] at h
    exact h.trans rfl

/-- What a write through a translating unit changes, whether it goes through or is set aside (R326). -/
theorem State.writeOrPark_phys (c : Nat) (u : XUnit) (va : Nat) (mk : Parked → Parked) (org : Origin)
    (l : List (List (Nat × Byte))) : ∀ s : State, SameButPhys s (s.writeOrPark c u va mk org l).2 := by
  induction l with
  | nil => exact fun s => .refl s
  | cons sec r ih =>
    intro s
    cases sec with
    | nil => exact ih s
    | cons p q =>
      rw [State.writeOrPark]
      split
      · exact .refl s
      · split
        · exact (s.park_phys _).trans (ih _)
        · have h := s.vwrite_phys u c ((va + p.1) / 4096 * 4096) 4096
            ((p :: q).map fun (j, b) => (va + j - (va + p.1) / 4096 * 4096, b))
          split
          · rename_i hw
            rw [hw] at h
            exact h.trans (ih _)
          · rename_i hw
            rw [hw] at h
            exact (h.trans (State.park_phys _ _)).trans (ih _)

theorem State.setStatus_phys (s : State) (c va : Nat) (code : BitVec 8) (st detail : Nat) :
    SameButPhys s (s.setStatus c va code st detail) := State.writeOrPark_phys ..

theorem State.idle_phys (s : State) (c : Nat) : SameButPhys s (s.idle c) := by
  unfold State.idle
  split <;> rfl

theorem State.complete_grids (s : State) (g : Grid) (code : BitVec 8) (st : Nat) : SameButGrids s (s.complete g code st) := by
  unfold State.complete
  split <;> rfl

/-! ### The end of a grid -/

/-- A grid's blocks have all been admitted and are finished (R313). -/
def State.gridDone (s : State) (g : Nat) : Prop :=
  (s.grid g).st = .running ∧ (s.grid g).nextBlock = (s.grid g).nblocks ∧ ∀ p ∈ s.blocks, p.2.grid = g → p.2.st = .finished

/-- A grid retires, with its status and its completion (R313). -/
def State.retireOne (s : State) (g : Nat) : State :=
  let x := s.grid g
  ((((s.modGrid g fun y => { y with st := .retired }).setStatus x.ctx x.recVa x.code 3 0).complete x x.code 3).idle x.ctx)

/-- A held block waits for no other child: it is finished (R37). -/
def State.finishBlk (s : State) (b : Nat) : State := s.modBlk b fun k => { k with st := .finished }

/-- The grid's parent is a held block that waits for no other child once the grid is retired. -/
def State.endsParent (s : State) (g b : Nat) : Prop :=
  (s.grid g).parent = some b ∧ ((s.retireOne g).blk b).st = .held ∧ (s.retireOne g).childLive b = false

theorem State.retire_of_not_done {s : State} {g : Nat} (n : Nat) (h : ¬ s.gridDone g) : s.retire g (n + 1) = s := by
  rw [State.retire]
  dsimp only
  refine if_pos ?_
  rw [Bool.not_eq_true', Bool.eq_false_iff]
  intro hd
  simp only [Bool.and_eq_true, beq_iff_eq, List.all_eq_true, Bool.or_eq_true, bne_iff_ne] at hd
  exact h ⟨hd.1.1, hd.1.2, fun p hp hg => (hd.2 p hp).resolve_left (fun hn => hn hg)⟩

section
variable {s : State} {g : Nat} (n : Nat) (h : s.gridDone g)
include h

/-- The retirement of a finished grid: it retires, and its parent's block may end in turn. -/
theorem State.retire_of_done :
    (∀ b, s.endsParent g b →
      s.retire g (n + 1) = ((s.retireOne g).finishBlk b).retire ((s.retireOne g).blk b).grid n) ∧
    ((∀ b, ¬ s.endsParent g b) → s.retire g (n + 1) = s.retireOne g) := by
  obtain ⟨hrun, hnext, hfin⟩ := h
  have hdone : (!((s.grid g).st == .running && (s.grid g).nextBlock == (s.grid g).nblocks &&
      s.blocks.all fun (_, k) => k.grid != g || k.st == .finished)) = false := by
    rw [Bool.not_eq_false']
    simp only [Bool.and_eq_true, beq_iff_eq, List.all_eq_true, Bool.or_eq_true, bne_iff_ne]
    exact ⟨⟨hrun, hnext⟩, fun p hp => or_iff_not_imp_left.mpr fun hg => hfin p hp (not_not.mp hg)⟩
  rw [State.retire]
  dsimp only
  rw [if_neg (by rw [hdone]; exact Bool.false_ne_true)]
  constructor
  · rintro b ⟨hp, hheld, hlive⟩
    rw [hp]
    refine if_pos ?_
    rw [← State.retireOne, hheld, hlive]
    rfl
  · intro hnone
    split
    · rfl
    · rename_i b hp
      refine if_neg fun hc => hnone b ?_
      rw [← State.retireOne, Bool.and_eq_true, beq_iff_eq, Bool.not_eq_true'] at hc
      exact ⟨hp, hc.1, hc.2⟩

end

/-- What holds of every retirement of one grid and of every held block that is finished holds of the whole chain that the end
of a grid sets off. -/
theorem State.retire_rel {R : State → State → Prop} (hrefl : ∀ s, R s s) (htrans : ∀ s t u, R s t → R t u → R s u)
    (hone : ∀ s g, R s (s.retireOne g)) (hblk : ∀ s b, (s.blk b).st = .held → R s (s.finishBlk b)) (n : Nat) :
    ∀ (s : State) (g : Nat), R s (s.retire g n) := by
  induction n with
  | zero => exact fun s g => hrefl s
  | succ n ih =>
    intro s g
    by_cases hd : s.gridDone g
    · by_cases hp : ∃ b, s.endsParent g b
      · obtain ⟨b, hp⟩ := hp
        rw [(State.retire_of_done n hd).1 b hp]
        exact htrans _ _ _ (hone s g) (htrans _ _ _ (hblk _ b hp.2.1) (ih _ _))
      · rw [(State.retire_of_done n hd).2 (not_exists.mp hp)]
        exact hone s g
    · rw [State.retire_of_not_done n hd]
      exact hrefl s

/-- The state in which a retiring grid is marked, before what it writes. -/
theorem State.retireOne_eq (s : State) (g : Nat) : ∃ u, SameButPhys (s.modGrid g fun y => { y with st := .retired }) u ∧
    SameButPhys (u.complete (s.grid g) (s.grid g).code 3) (s.retireOne g) :=
  ⟨_, State.setStatus_phys .., State.idle_phys ..⟩

theorem State.retireOne_grids (s : State) (g : Nat) : SameButGrids s (s.retireOne g) := by
  obtain ⟨u, hu, ht⟩ := s.retireOne_eq g
  have hmark : SameButGrids s (s.modGrid g fun y => { y with st := .retired }) := rfl
  exact ((hmark.trans hu.sameButGrids).trans (u.complete_grids _ _ _)).trans ht.sameButGrids

theorem State.retire_grids (n : Nat) (s : State) (g : Nat) : SameButGrids s (s.retire g n) :=
  State.retire_rel .refl (fun _ _ _ => .trans) State.retireOne_grids (fun _ _ _ => rfl) n s g

theorem State.complete_blk (s : State) (g : Grid) (code : BitVec 8) (st b : Nat) : (s.complete g code st).blk b = s.blk b := by
  unfold State.complete
  split <;> rfl

theorem State.complete_grid (s : State) (g : Grid) (code : BitVec 8) (st n : Nat) : (s.complete g code st).grid n = s.grid n := by
  unfold State.complete
  split <;> rfl

theorem State.complete_childLive (s : State) (g : Grid) (code : BitVec 8) (st b : Nat) :
    (s.complete g code st).childLive b = s.childLive b := by
  unfold State.complete
  split <;> rfl

theorem State.retireOne_blk (s : State) (g b : Nat) : (s.retireOne g).blk b = s.blk b := by
  obtain ⟨u, hu, ht⟩ := s.retireOne_eq g
  rw [ht.blk, State.complete_blk, hu.blk]
  rfl

theorem State.retireOne_grid (s : State) (g k : Nat) :
    (s.retireOne g).grid k = if k = g then { s.grid g with st := .retired } else s.grid k := by
  obtain ⟨u, hu, ht⟩ := s.retireOne_eq g
  rw [ht.grid, State.complete_grid, hu.grid, State.modGrid_grid]

/-- A block that is not held keeps its state. -/
theorem State.retire_blk {s : State} (g n : Nat) {b : Nat} (h : (s.blk b).st ≠ .held) : (s.retire g n).blk b = s.blk b := by
  refine State.retire_rel (R := fun s t => (s.blk b).st ≠ .held → t.blk b = s.blk b) (fun _ _ => rfl) ?_
    (fun s g _ => s.retireOne_blk g b) ?_ n s g h
  · intro s t u hst htu h
    rw [htu (by rwa [hst h]), hst h]
  · intro s k hk h
    rw [State.finishBlk, State.modBlk_blk, if_neg]
    rintro rfl
    exact h hk

/-- A retired grid stays retired. -/
theorem State.retire_grid_retired {s : State} (g n : Nat) {k : Nat} (h : (s.grid k).st = .retired) :
    ((s.retire g n).grid k).st = .retired := by
  refine State.retire_rel (R := fun s t => (s.grid k).st = .retired → (t.grid k).st = .retired) (fun _ h => h)
    (fun _ _ _ hst htu h => htu (hst h)) ?_ (fun _ _ _ h => h) n s g h
  intro s g h
  rw [State.retireOne_grid]
  split
  · rfl
  · exact h

/-- A completion is listed after those that are. -/
theorem State.complete_completions (s : State) (g : Grid) (code : BitVec 8) (st fn : Nat) :
    (s.fn fn).completions ⊆ ((s.complete g code st).fn fn).completions := by
  unfold State.complete
  split
  · rw [State.modFn_fn]
    split
    · rename_i h
      rw [h]
      exact List.subset_append_left _ _
    · exact List.Subset.refl _
  · exact List.Subset.refl _

theorem State.complete_host (s : State) (g : Grid) (code : BitVec 8) (st : Nat) {fn n : Nat} (h : g.host = some (fn, n)) :
    (g.recVa, code, st, n, g.ctx + 1) ∈ ((s.complete g code st).fn fn).completions := by
  unfold State.complete
  rw [h]
  dsimp only
  rw [State.modFn_fn, if_pos rfl]
  exact List.mem_append_right _ List.mem_cons_self

theorem State.retireOne_completions (s : State) (g fn : Nat) :
    (s.fn fn).completions ⊆ ((s.retireOne g).fn fn).completions := by
  obtain ⟨u, hu, ht⟩ := s.retireOne_eq g
  have hsub := u.complete_completions (s.grid g) (s.grid g).code 3 fn
  rw [hu.fn, ← ht.fn] at hsub
  exact hsub

theorem State.retireOne_host (s : State) (g : Nat) {fn n : Nat} (h : (s.grid g).host = some (fn, n)) :
    ((s.grid g).recVa, (s.grid g).code, 3, n, (s.grid g).ctx + 1) ∈ ((s.retireOne g).fn fn).completions := by
  obtain ⟨u, -, ht⟩ := s.retireOne_eq g
  rw [ht.fn]
  exact u.complete_host _ _ _ h

/-- A completion that is listed stays listed. -/
theorem State.retire_completions (n : Nat) (s : State) (g fn : Nat) :
    (s.fn fn).completions ⊆ ((s.retire g n).fn fn).completions := by
  refine State.retire_rel (R := fun s t => (s.fn fn).completions ⊆ (t.fn fn).completions) (fun _ => List.Subset.refl _)
    (fun _ _ _ => List.Subset.trans) (fun s g => s.retireOne_completions g fn) (fun _ _ _ => List.Subset.refl _) n s g

theorem State.childLive_iff (s : State) (b : Nat) : s.childLive b = true ↔
    (∃ p ∈ s.grids, p.2.parent = some b ∧ p.2.st ≠ .retired) ∨
      ∃ q ∈ s.launchQ, ∃ w flag, q.child = some (w, flag) ∧ (s.warp w).block = b := by
  simp only [State.childLive, Bool.or_eq_true, List.any_eq_true, Bool.and_eq_true, beq_iff_eq, bne_iff_ne]
  refine or_congr Iff.rfl (exists_congr fun q => and_congr Iff.rfl ?_)
  cases hq : q.child with
  | none => simp
  | some p => simp [Prod.ext_iff]

/-- With a grid retired, the block that launched it waits for its other child grids and for launches that are still to be
decided. -/
theorem State.retireOne_childLive (s : State) (g b : Nat)
    (hgrids : ∀ p ∈ s.grids, p.1 ≠ g → p.2.parent = some b → p.2.st = .retired)
    (hlaunch : ∀ q ∈ s.launchQ, ∀ w flag, q.child = some (w, flag) → (s.warp w).block ≠ b) :
    (s.retireOne g).childLive b = false := by
  obtain ⟨u, hu, ht⟩ := s.retireOne_eq g
  rw [ht.childLive, State.complete_childLive, hu.childLive, Bool.eq_false_iff]
  intro hlive
  rcases (State.childLive_iff _ _).mp hlive with ⟨p, hp, hpar, hst⟩ | ⟨q, hq, w, flag, hc, hw⟩
  · rcases (mem_tset _ _ _ _).mp hp with rfl | ⟨hp, hne⟩
    · exact hst rfl
    · exact hst (hgrids p hp hne hpar)
  · exact hlaunch q hq w flag hc hw

/-- A finished grid retires whatever that ends in turn. -/
theorem State.retire_of_done_retired {s : State} {g : Nat} (n : Nat) (h : s.gridDone g) :
    ((s.retire g (n + 1)).grid g).st = .retired := by
  have hone : ((s.retireOne g).grid g).st = .retired := by rw [State.retireOne_grid, if_pos rfl]
  by_cases hp : ∃ b, s.endsParent g b
  · obtain ⟨b, hp⟩ := hp
    rw [(State.retire_of_done n h).1 b hp]
    exact State.retire_grid_retired _ _ hone
  · rw [(State.retire_of_done n h).2 (not_exists.mp hp)]
    exact hone

theorem State.retire_of_done_host {s : State} {g : Nat} (n : Nat) (h : s.gridDone g) {fn k : Nat}
    (hh : (s.grid g).host = some (fn, k)) :
    ((s.grid g).recVa, (s.grid g).code, 3, k, (s.grid g).ctx + 1) ∈ ((s.retire g (n + 1)).fn fn).completions := by
  have hone := s.retireOne_host g hh
  by_cases hp : ∃ b, s.endsParent g b
  · obtain ⟨b, hp⟩ := hp
    rw [(State.retire_of_done n h).1 b hp]
    exact State.retire_completions n ((s.retireOne g).finishBlk b) _ fn hone
  · rw [(State.retire_of_done n h).2 (not_exists.mp hp)]
    exact hone

/-- The parent's block that waits for no other child is finished, and what that ends in turn leaves it so. -/
theorem State.retire_of_done_parent {s : State} {g b : Nat} (n : Nat) (h : s.gridDone g) (hp : s.endsParent g b) :
    ((s.retire g (n + 1)).blk b).st = .finished := by
  have hfin : (((s.retireOne g).finishBlk b).blk b).st = .finished := by
    rw [State.finishBlk, State.modBlk_blk, if_pos rfl]
  rw [(State.retire_of_done n h).1 b hp, State.retire_blk _ _ (by rw [hfin]; decide), hfin]

/-! ### The end of a block -/

/-- The two states differ in the copy channels, what is set aside and what peers still answer at most. -/
def SameButChans (s t : State) : Prop := t = { s with chans := t.chans, parked := t.parked, peerLate := t.peerLate }

/-- The two states differ in what race detection keeps at most. -/
def SameButRaces (s t : State) : Prop :=
  t = { s with
    raceShared := t.raceShared, racePlinth := t.racePlinth, relShared := t.relShared, relPlinth := t.relPlinth
    poisonMeta := t.poisonMeta }

theorem SameButChans.trans {s t u : State} (a : SameButChans s t) (b : SameButChans t u) : SameButChans s u := by
  unfold SameButChans at *
  rw [b, a]

theorem SameButRaces.trans {s t u : State} (a : SameButRaces s t) (b : SameButRaces t u) : SameButRaces s u := by
  unfold SameButRaces at *
  rw [b, a]

theorem State.clearRaces_races (s : State) (sp : Space) (k n : Nat) : SameButRaces s (s.clearRaces sp k n) := by
  cases sp <;> rfl

theorem State.foldl_clearRaces_races {α : Type} (sp : Space) (k : α → Nat) (n : Nat) (l : List α) (s : State) :
    SameButRaces s (l.foldl (fun t a => t.clearRaces sp (k a) n) s) :=
  List.foldlRecOn l _ (motive := SameButRaces s) rfl fun _ h _ _ => h.trans (State.clearRaces_races ..)

theorem State.foldl_resetChan_chans (l : List Nat) (s : State) : SameButChans s (l.foldl State.resetChan s) :=
  List.foldlRecOn l _ (motive := SameButChans s) rfl fun _ h _ _ => h.trans rfl

/-- The channels of the list are reset, and no other. -/
theorem State.foldl_resetChan_chan (l : List Nat) (s : State) (n : Nat) :
    (l.foldl State.resetChan s).chan n = if n ∈ l then {} else s.chan n := by
  induction l generalizing s with
  | nil => rfl
  | cons m r ih =>
    have hm : (s.resetChan m).chan n = if n = m then {} else s.chan n := by
      show (s.modChan m fun _ => {}).chan n = _
      rw [State.modChan_chan]
    rw [List.foldl_cons, ih, hm]
    by_cases hr : n ∈ r <;> by_cases he : n = m <;> simp [hr, he]

/-- The block as its end leaves it (R37, R57). -/
def Block.ended (k : Block) (st : BlockSt) : Block :=
  { k with st := st, chans := [], tiles := [], dynReg := 0, units := k.units.filter (·.2) }

/-- No block of the gang but `b` holds anything. -/
def State.lastOfGang (s : State) (b : Nat) : Bool :=
  (s.gang (s.blk b).gang).blocks.all fun p => p == b || !(s.blk p).holds

/-- The release that returns what a block holds (R57, R303). -/
def State.endRelease (s : State) (b : Nat) : ArbOp :=
  .release (s.blk b).gang (columnsOf (s.blk b).core (s.allocOf b)) (s.lastOfGang b)

/-- The end of a block in its own tables: the block, its cluster's queue and its gang. -/
def State.endTables (s : State) (b : Nat) : State :=
  let k := s.blk b
  let s1 := s.modBlk b fun x => x.ended (if s.childLive b then .held else .finished)
  let s2 := s1.modCluster (s.gang k.gang).cluster fun c => { c with queue := c.queue ++ [s.endRelease b] }
  if s.lastOfGang b then s2.modGang k.gang fun x => { x with st := .done } else s2

/-- The end of a block, by its stages: its tables, its channels, the races of what it held, its core's allocation pages, and its
grid. -/
theorem State.endBlock_stages (s : State) (b : Nat) : ∃ u,
    SameButRaces ((s.blk b).chans.foldl State.resetChan (s.endTables b)) u ∧
      s.endBlock b = (u.dropAlloc (s.blk b).core).retire (s.blk b).grid 16 := by
  have hlast : ((s.gang (s.blk b).gang).blocks.all fun p =>
      !((s.modBlk b fun x => x.ended (if s.childLive b then .held else .finished)).blk p).holds) = s.lastOfGang b := by
    unfold State.lastOfGang
    congr 1
    funext p
    rw [State.modBlk_blk]
    by_cases hp : p = b
    · subst hp
      cases s.childLive p <;> simp [Block.ended, Block.holds]
    · simp [hp]
  refine ⟨_, (State.foldl_clearRaces_races .plinth
    (fun p : Nat × Bool => s.chipOf (s.gang (s.blk b).gang).cluster * 2 ^ 31 + s.unitOff (s.gang (s.blk b).gang).cluster p.1)
    Config.unitBytes (s.blk b).units _).trans
      (State.clearRaces_races _ .shared ((s.blk b).core * 2 ^ 19 + (s.blk b).shBase) ((s.grid (s.blk b).grid).f 416 19)), ?_⟩
  unfold State.endTables State.endRelease
  rw [← hlast]
  rfl

section
variable (s : State) (b : Nat)

theorem State.endTables_blk :
    (s.endTables b).blk b = (s.blk b).ended (if s.childLive b then .held else .finished) := by
  have hblk : (s.endTables b).blk b =
      (s.modBlk b fun x => x.ended (if s.childLive b then .held else .finished)).blk b := by
    unfold State.endTables
    dsimp only
    split <;> rfl
  rw [hblk, State.modBlk_blk, if_pos rfl]

theorem State.mem_endTables_blocks : (b, (s.endTables b).blk b) ∈ (s.endTables b).blocks := by
  have hblocks : (s.endTables b).blocks = tset s.blocks b ((s.endTables b).blk b) := by
    rw [State.endTables_blk]
    unfold State.endTables
    dsimp only
    split <;> rfl
  rw [hblocks, mem_tset]
  exact .inl rfl

theorem State.endTables_queue : ((s.endTables b).cluster (s.gang (s.blk b).gang).cluster).queue =
    (s.cluster (s.gang (s.blk b).gang).cluster).queue ++ [s.endRelease b] := by
  have hcluster : ∀ c, (s.endTables b).cluster c =
      (s.modCluster (s.gang (s.blk b).gang).cluster fun c => { c with queue := c.queue ++ [s.endRelease b] }).cluster c := by
    intro c
    unfold State.endTables
    dsimp only
    split <;> rfl
  rw [hcluster, State.modCluster_cluster, if_pos rfl]

theorem State.endTables_gang (h : s.lastOfGang b = true) : ((s.endTables b).gang (s.blk b).gang).st = .done := by
  unfold State.endTables
  dsimp only
  rw [if_pos h, State.modGang_gang, if_pos rfl]

/-- The tables that the end of a block keeps, beside those that it changes. -/
theorem State.endTables_rest :
    s.endTables b = { s with
      blocks := (s.endTables b).blocks, clusters := (s.endTables b).clusters, gangs := (s.endTables b).gangs } := by
  unfold State.endTables
  dsimp only
  split <;> rfl

/-- What the end of a block leaves of the machine once its own tables are set: all but channels, races, allocation pages and
what its grid's end changes. -/
theorem State.endBlock_rest : ∃ u : State,
    u = { s.endTables b with
      chans := ((s.blk b).chans.foldl State.resetChan (s.endTables b)).chans, parked := u.parked, peerLate := u.peerLate
      raceShared := u.raceShared, racePlinth := u.racePlinth, relShared := u.relShared, relPlinth := u.relPlinth
      poisonMeta := u.poisonMeta, cores := u.cores } ∧
    s.endBlock b = u.retire (s.blk b).grid 16 := by
  obtain ⟨u, hu, ht⟩ := s.endBlock_stages b
  have hchans := State.foldl_resetChan_chans (s.blk b).chans (s.endTables b)
  refine ⟨_, ?_, ht⟩
  unfold SameButRaces at hu
  unfold SameButChans at hchans
  rw [State.dropAlloc, hu, hchans]

theorem State.endBlock_blk : (s.endBlock b).blk b = (s.blk b).ended (if s.childLive b then .held else .finished) := by
  obtain ⟨u, hu, ht⟩ := s.endBlock_rest b
  have hblk : u.blk b = (s.blk b).ended (if s.childLive b then .held else .finished) := by
    rw [← s.endTables_blk b, hu]
    rfl
  rw [ht, ← hblk]
  cases hlive : s.childLive b with
  | false =>
    refine State.retire_blk _ _ ?_
    rw [hblk, hlive]
    simp [Block.ended]
  | true =>
    have hmem : (b, u.blk b) ∈ u.blocks := by
      rw [hu]
      exact s.mem_endTables_blocks b
    rw [State.retire_of_not_done]
    rintro ⟨-, -, hfin⟩
    have := hfin _ hmem (by rw [hblk]; rfl)
    rw [hblk, hlive] at this
    cases this

theorem State.endBlock_chan {n : Nat} (h : n ∈ (s.blk b).chans) : (s.endBlock b).chan n = {} := by
  obtain ⟨u, hu, ht⟩ := s.endBlock_rest b
  have hchan : (s.endBlock b).chan n = u.chan n := by
    rw [ht, State.chan, u.retire_grids 16]
    rfl
  have hreset : u.chan n = ((s.blk b).chans.foldl State.resetChan (s.endTables b)).chan n := by
    rw [hu]
    rfl
  rw [hchan, hreset, State.foldl_resetChan_chan, if_pos h]

theorem State.endBlock_queue : ((s.endBlock b).cluster (s.gang (s.blk b).gang).cluster).queue =
    (s.cluster (s.gang (s.blk b).gang).cluster).queue ++ [s.endRelease b] := by
  obtain ⟨u, hu, ht⟩ := s.endBlock_rest b
  rw [← s.endTables_queue b, ht, u.retire_grids 16, hu]
  rfl

theorem State.endBlock_gang (h : s.lastOfGang b = true) : ((s.endBlock b).gang (s.blk b).gang).st = .done := by
  obtain ⟨u, hu, ht⟩ := s.endBlock_rest b
  rw [← s.endTables_gang b h, ht, u.retire_grids 16, hu]
  rfl

/-- No byte of a local space, no tile, no window and no warp changes. -/
theorem State.endBlock_kept : (s.endBlock b).warps = s.warps ∧ (s.endBlock b).windows = s.windows ∧
    (s.endBlock b).shared = s.shared ∧ (s.endBlock b).plinth = s.plinth ∧ (s.endBlock b).tiles = s.tiles := by
  obtain ⟨u, hu, ht⟩ := s.endBlock_rest b
  rw [ht, u.retire_grids 16, hu, s.endTables_rest b]
  exact ⟨rfl, rfl, rfl, rfl, rfl⟩

end

/-! ### The end of a block that was stopped -/

/-- The write-backs that the end of a stopped block makes first (R69). -/
def State.stopWrites (s : State) (b : Nat) : List (Nat × List Nat) × State :=
  s.writeBacks (fun p => { p with warp := (s.blk b).warps.headD 0 }) (.stopWriteBack b) (s.dirtyOf (s.endWindows b))

section
variable {s : State} {b : Nat}

theorem State.endStopped_of_not_due
    (h : ¬ ((s.blk b).stopped = true ∧ ((s.blk b).st = .admitted ∨ (s.blk b).st = .resident)) ∨
      s.windowLogged (s.endWindows b) = true) : s.endStopped b = s := by
  rw [State.endStopped]
  dsimp only
  refine if_pos ?_
  simp only [Bool.or_eq_true, Bool.not_eq_true', Bool.and_eq_true, bne_iff_ne]
  rcases h with h | h
  · left
    cases hs : (s.blk b).stopped with
    | false => exact .inl rfl
    | true => exact .inr ⟨fun ha => h ⟨hs, .inl ha⟩, fun hr => h ⟨hs, .inr hr⟩⟩
  · exact .inr h

variable (hs : (s.blk b).stopped = true) (hst : (s.blk b).st = .admitted ∨ (s.blk b).st = .resident)
  (hl : s.windowLogged (s.endWindows b) = false)
include hs hst hl

theorem State.endStopped_of_due :
    s.endStopped b = if !(s.stopWrites b).1.isEmpty || (s.stopWrites b).2.stopParked b then (s.stopWrites b).2
      else (((s.stopWrites b).2.unbind (s.endWindows b)).modBlk b fun y => { y with stopped := false }).endBlock b := by
  have hcond : (!(s.blk b).stopped || (s.blk b).st != .admitted && (s.blk b).st != .resident ||
      s.windowLogged (s.endWindows b)) = false := by
    rcases hst with h | h <;> simp [hs, h, hl]
  rw [State.endStopped]
  dsimp only
  exact if_neg (by rw [hcond]; exact Bool.false_ne_true)

theorem State.endStopped_of_writing (hw : (s.stopWrites b).1 ≠ [] ∨ (s.stopWrites b).2.stopParked b = true) :
    s.endStopped b = (s.stopWrites b).2 := by
  rw [State.endStopped_of_due hs hst hl]
  refine if_pos ?_
  rcases hw with hw | hw <;> simp [hw]

theorem State.endStopped_of_written (hw : (s.stopWrites b).1 = []) (hp : (s.stopWrites b).2.stopParked b = false) :
    s.endStopped b =
      (((s.stopWrites b).2.unbind (s.endWindows b)).modBlk b fun y => { y with stopped := false }).endBlock b := by
  rw [State.endStopped_of_due hs hst hl]
  exact if_neg (by simp [hw, hp])

end

theorem State.lastWarp_iff (s : State) (w : Nat) :
    s.lastWarp w = true ↔ ∀ v ∈ (s.wblk w).warps, v ≠ w → (s.warp v).retired = true := by
  simp only [State.lastWarp, List.all_eq_true, Bool.or_eq_true, beq_iff_eq]
  exact forall_congr' fun v => imp_congr_right fun _ => or_iff_not_imp_left

/-- Settles O13: `EXIT` by what remains of its warp and of its block, then the end of a block and of a grid, each from its
stages. -/
theorem exit : Obligations.Exit := by
  unfold Obligations.Exit
  refine ⟨?_, ?_, ?_, ?_, fun b s => s.childLive_iff b, ?_⟩
  · intro c f s x h hr hl
    have hw := s.exitThreads_warp x false
    refine ⟨_, exec_exit_partly h hr hl, s.exitThreads_onlyWarp x false, fun l hl =>
      s.exitThreads_exited x false h.ix.lanes_nodup hl, ?_⟩
    rw [hw]
    exact ⟨rfl, rfl, rfl, rfl, rfl, rfl⟩
  · intro c f s x h hr hne hlast hclear hfault b wins back ended
    have hexec := exec_exit_last h hr hne hlast hclear hfault
    refine ⟨?_, ?_, fun i => s.mem_endWindows b i⟩
    · rintro ⟨v, hv, hvw, hvr⟩
      have hmore : s.lastWarp x.w = false := by
        rw [Bool.eq_false_iff, ne_eq, State.lastWarp_iff]
        intro hall
        rw [hall v hv hvw] at hvr
        cases hvr
      rw [hmore] at hexec
      have hw := s.exitThreads_warp x true
      refine ⟨_, hexec, s.exitThreads_onlyWarp x true, ?_, fun l hl => s.exitThreads_exited x true h.ix.lanes_nodup hl⟩
      show ((s.exitThreads x true).warp x.w).retired = true
      rw [hw]
    · intro hall
      rw [(s.lastWarp_iff x.w).mpr hall, if_pos rfl] at hexec
      refine ⟨fun hl => ?_, fun hl hw => ?_, fun hl hw hp => ⟨?_, ?_, fun i hi y hy => State.unbind_dirty _ _ hi hy⟩⟩
      · rw [hexec, State.exitBlock_of_logged _ hl]
        rfl
      · rw [hexec, State.exitBlock_of_writing _ hl hw]
        rfl
      · rw [hexec, State.exitBlock_of_written _ hl hw hp]
        rfl
      · show (((back.2.unbind wins).exitThreads x true).warp x.w).retired = true
        rw [State.exitThreads_warp]
  · intro b s k g t final k1
    have hblk := s.endBlock_blk b
    obtain ⟨hwarps, hwindows, hshared, hplinth, htiles⟩ := s.endBlock_kept b
    refine ⟨fun hlive => ?_, fun hlive => ?_, s.endBlock_queue b, s.endBlock_gang b, fun n hn => s.endBlock_chan b hn,
      hwarps, hwindows, hshared, hplinth, htiles⟩
    · rw [hlive] at hblk
      exact hblk
    · rw [hlive] at hblk
      exact hblk
  · intro b s k wins back due
    exact ⟨State.endStopped_of_not_due, fun hd hl hw => State.endStopped_of_writing hd.1 hd.2 hl hw,
      fun hd hl hw hp => State.endStopped_of_written hd.1 hd.2 hl hw hp⟩
  · intro g n s x t due
    refine ⟨fun hd => State.retire_of_not_done n hd, fun hd => ⟨State.retire_of_done_retired n hd, ?_,
      fun fn k hh => State.retire_of_done_host n hd hh, fun b hp hheld hgrids hlaunch => ?_⟩⟩
    · show (s.retire g (n + 1)).warps = s.warps
      rw [s.retire_grids (n + 1) g]
    · refine State.retire_of_done_parent n hd ⟨hp, ?_, s.retireOne_childLive g b hgrids hlaunch⟩
      rw [State.retireOne_blk, hheld]

end Sys2Proof.Machine
end

section
/-! PROOFS. Admission, dispatch, power gating, notes and the Sander (O48). -/

namespace Sys2Proof.Machine

/-! ### The grid a distributor works on -/

/-- The oldest grid of the highest priority whose context runs (R317; log entry 60). -/
theorem State.sliceHead_spec {s : State} {sl gid : Nat} (h : s.sliceHead sl = some gid) :
    ∃ p a b, s.admitQ = a ++ (sl, p, gid) :: b ∧ (s.ctx (s.grid gid).ctx).saving = false ∧
      (∀ g, (sl, p, g) ∈ a → ¬ (s.ctx (s.grid g).ctx).saving = false) ∧
      ∀ p' g, (sl, p', g) ∈ s.admitQ → p' < 4 → (s.ctx (s.grid g).ctx).saving = false → p' ≤ p := by
  simp only [State.sliceHead, List.find?_filter] at h
  obtain ⟨above, p, below, hprios, hfound, habove⟩ := List.findSome?_eq_some_iff.mp h
  obtain ⟨⟨k, q, g⟩, hfind, hg⟩ := Option.map_eq_some_iff.mp hfound
  obtain ⟨hmatch, a, b, hsplit, ha⟩ := List.find?_eq_some_iff_append.mp hfind
  simp only [Bool.and_eq_true, beq_iff_eq, Bool.not_eq_true', decide_eq_true_eq] at hmatch
  obtain ⟨⟨rfl, hruns⟩, rfl⟩ := hmatch
  obtain rfl : g = gid := hg
  refine ⟨q, a, b, hsplit, hruns, fun g' hg' hr => ?_, fun p' g' hmem hlt hr => ?_⟩
  · have := ha _ hg'
    simp [hr] at this
  · by_contra hgt
    have hsorted : (above ++ q :: below).Pairwise (· > ·) := hprios ▸ by decide
    have hp' : p' ∈ above ++ q :: below := by
      rw [← hprios]
      simp
      omega
    have hin : p' ∈ above := by
      rcases List.mem_append.mp hp' with hp' | hp'
      · exact hp'
      · rcases List.mem_cons.mp hp' with rfl | hp'
        · omega
        · have := (List.pairwise_cons.mp (List.pairwise_append.mp hsorted).2.1).1 p' hp'
          omega
    have hnone := habove p' hin
    rw [Option.map_eq_none_iff, List.find?_eq_none] at hnone
    exact hnone _ hmem (by simp [hr])

/-! ### Admission -/

section
variable {s : State} {gid : Nat} (place : State → Option State)

theorem State.admission_of_held (h : (s.grid gid).admitted = false ∧ s.statusParked (s.grid gid).ctx (s.grid gid).recVa = true) :
    s.admission gid place = .next s := by
  rw [State.admission]
  exact if_pos (by simp [h.1, h.2])

variable (h : ¬ ((s.grid gid).admitted = false ∧ s.statusParked (s.grid gid).ctx (s.grid gid).recVa = true))
include h

/-- The grid's status allows its admission, which reads the parameter image first (R313, R318). -/
theorem State.admission_of_not_held : s.admission gid place =
    match s.loadImage gid with
    | (none, t) => .next t
    | (some t, _) =>
      match place t with
      | none => .next (t.modGrid gid fun y => { y with image := (s.grid gid).image })
      | some u => .next (u.afterAdmission gid) := by
  rw [State.admission]
  refine (if_neg fun hc => h ?_).trans rfl
  simpa using hc

theorem State.admission_without_image {v : State} (hv : s.loadImage gid = (none, v)) : s.admission gid place = .next v := by
  rw [State.admission_of_not_held place h, hv]

variable {t v : State} (hv : s.loadImage gid = (some t, v))
include hv

theorem State.admission_without_room (hp : place t = none) :
    s.admission gid place = .next (t.modGrid gid fun y => { y with image := (s.grid gid).image }) := by
  rw [State.admission_of_not_held place h, hv]
  dsimp only
  rw [hp]

theorem State.admission_with_room {u : State} (hp : place t = some u) :
    s.admission gid place = .next (u.afterAdmission gid) := by
  rw [State.admission_of_not_held place h, hv]
  dsimp only
  rw [hp]

end

section
variable {s : State} {sl : Nat}

theorem exec_admission_idle (h : s.sliceHead sl = none) :
    exec (.gangAdmission sl) s = .next s ∧ exec (.concurrentAdmission sl) s = .next s := by
  simp [exec_gangAdmission, execGangAdmission, exec_concurrentAdmission, execConcurrentAdmission, h]

variable {gid : Nat} (h : s.sliceHead sl = some gid)
include h

/-- A CONCURRENT grid is admitted as a whole, and not gang by gang (R41). -/
theorem exec_admission_concurrent (hc : (s.grid gid).cls = 1) :
    exec (.gangAdmission sl) s = .next s ∧
      exec (.concurrentAdmission sl) s = s.admission gid fun t => t.admitAll gid (t.grid gid).nblocks := by
  simp [exec_gangAdmission, execGangAdmission, exec_concurrentAdmission, execConcurrentAdmission, h, hc]

/-- Any other grid is admitted gang by gang (R34, R40). -/
theorem exec_admission_gang (hc : (s.grid gid).cls ≠ 1) :
    exec (.concurrentAdmission sl) s = .next s ∧
      exec (.gangAdmission sl) s = s.admission gid fun t => t.admitGang gid := by
  simp [exec_gangAdmission, execGangAdmission, exec_concurrentAdmission, execConcurrentAdmission, h, hc]

end

section
variable {place : Nat → Option State} {c : Nat} {r : List Nat} {s : State}

theorem State.tryClusters_of_queued (h : (s.cluster c).queue ≠ []) : s.tryClusters place (c :: r) = some none := by
  rw [State.tryClusters, if_pos (by simp [h])]

theorem State.tryClusters_of_room {t : State} (h : (s.cluster c).queue = []) (hp : place c = some t) :
    s.tryClusters place (c :: r) = some (some t) := by
  rw [State.tryClusters, if_neg (by simp [h]), hp]

theorem State.tryClusters_of_no_room (h : (s.cluster c).queue = []) (hp : place c = none) :
    s.tryClusters place (c :: r) = s.tryClusters place r := by
  rw [State.tryClusters, if_neg (by simp [h]), hp]

end

/-! ### Dispatch -/

/-- A table that lists a value for each of the keys. -/
theorem tget_map_key {α : Type} (d : α) (f : Nat → α) (ls : List Nat) (k : Nat) :
    tget d (ls.map fun l => (l, f l)) k = if k ∈ ls then f k else d := by
  induction ls with
  | nil => rfl
  | cons a r ih =>
    rw [List.map_cons, tget, ih]
    by_cases h : a = k
    · simp [h]
    · simp [h, Ne.symm h]

/-- A change of each of the listed warps, once: it takes what the list names with the warp, and no other warp changes. -/
theorem State.foldl_modWarp (f : Nat → Warp → Warp) (l : List (Nat × Nat)) (s : State) (hn : (l.map Prod.fst).Nodup) :
    let t := l.foldl (fun t p => t.modWarp p.1 (f p.2)) s
    t = { s with warps := t.warps } ∧ (∀ p ∈ l, t.warp p.1 = f p.2 (s.warp p.1)) ∧
      ∀ w, w ∉ l.map Prod.fst → t.warp w = s.warp w := by
  induction l generalizing s with
  | nil => exact ⟨rfl, fun _ h => absurd h List.not_mem_nil, fun _ _ => rfl⟩
  | cons a r ih =>
    rw [List.map_cons, List.nodup_cons] at hn
    obtain ⟨hrest, hin, hout⟩ := ih (s.modWarp a.1 (f a.2)) hn.2
    refine ⟨hrest, fun p hp => ?_, fun w hw => ?_⟩
    · rcases List.mem_cons.mp hp with rfl | hp
      · rw [List.foldl_cons, hout _ hn.1, State.modWarp_warp_self]
      · have hne : p.1 ≠ a.1 := fun he => hn.1 (he ▸ List.mem_map_of_mem hp)
        rw [List.foldl_cons, hin p hp, State.modWarp_warp, if_neg hne]
    · rw [List.map_cons, List.mem_cons, not_or] at hw
      rw [List.foldl_cons, hout w hw.2, State.modWarp_warp, if_neg hw.1]

theorem State.nextQuadrant_lt (s : State) (core : Nat) (placed : List Nat) : s.nextQuadrant core placed < 4 := by
  unfold State.nextQuadrant
  refine List.foldlRecOn (motive := (· < 4)) _ _ (by decide) fun q hq k hk => ?_
  dsimp only
  split
  · simp at hk
    omega
  · exact hq

theorem State.quadrants_length (s : State) (core n : Nat) (placed : List Nat) :
    (s.quadrants core n placed).length = placed.length + n := by
  induction n generalizing placed with
  | zero => rfl
  | succ n ih =>
    rw [State.quadrants, ih, List.length_append, List.length_singleton]
    omega

theorem State.quadrants_lt (s : State) (core n : Nat) (placed : List Nat) (h : ∀ q ∈ placed, q < 4) :
    ∀ q ∈ s.quadrants core n placed, q < 4 := by
  induction n generalizing placed with
  | zero => exact h
  | succ n ih =>
    refine ih _ fun q hq => ?_
    rcases List.mem_append.mp hq with hq | hq
    · exact h q hq
    · rw [List.mem_singleton.mp hq]
      exact s.nextQuadrant_lt core placed

/-- The threads that exist are live at `ENTRY` (R32, R334). -/
theorem Warp.start_th (w : Warp) (g : Grid) (q : Nat) (b : Tab Bounded) {l : Nat} (hl : l < 32) :
    (w.start g q b).th l =
      if 32 * w.idx + l < g.threads then { st := .live, cp := g.entry, rcp := g.entry } else {} := by
  show tget ({} : Thread) (allLanes.map fun l => (l, _)) l = _
  rw [tget_map_key, if_pos (by simpa [allLanes] using hl)]

/-- The static scratch units of a gang, in the order of its blocks (R62). -/
def State.gangUnits (s : State) (b : Block) : List Nat :=
  (s.gang b.gang).blocks.flatMap fun p => ((s.blk p).units.filter (·.2)).map (·.1)

/-- The preset of `b0` (R62). -/
def State.sharedPreset (s : State) (b : Block) : Bounded :=
  { ptr := .ofNat 32 b.shBase, base := .ofNat 32 b.shBase, limit := .ofNat 32 (b.shBase + (s.grid b.grid).f 416 19), space := 1
    r := true, w := true, a := true }

/-- The preset of `b1` for a gang whose lowest static unit is k. -/
def State.scratchPreset (s : State) (b : Block) (k : Nat) : Bounded :=
  let a := s.unitOff (clusterOf b.core) k
  { ptr := .ofNat 32 a, base := .ofNat 32 a, limit := .ofNat 32 (a + (s.gangUnits b).length * Config.unitBytes), space := 2
    r := true, w := true, a := true }

/-- The preset of `b2`. -/
def State.paramPreset (s : State) (b : Block) : Bounded :=
  { ptr := .ofNat 32 b.paramBase, base := .ofNat 32 b.paramBase, limit := .ofNat 32 (b.paramBase + (s.grid b.grid).psize)
    space := 2, r := true }

/-- The presets as a table: `b0` always, `b1` with a static unit, `b2` with parameters (R62). -/
theorem State.presets_eq (s : State) (b : Block) :
    s.presets b = [(0, s.sharedPreset b)] ++
      (match (s.gangUnits b).min? with
       | some k => [(1, s.scratchPreset b k)]
       | none => []) ++
      (if (s.grid b.grid).psize == 0 then [] else [(2, s.paramPreset b)]) := rfl

theorem State.presets_shared (s : State) (b : Block) : tget {} (s.presets b) 0 = s.sharedPreset b := rfl

theorem State.presets_scratch (s : State) (b : Block) {k : Nat} (hk : k ∈ s.gangUnits b)
    (hmin : ∀ j ∈ s.gangUnits b, k ≤ j) : tget {} (s.presets b) 1 = s.scratchPreset b k := by
  rw [State.presets_eq, List.min?_eq_some_iff.mpr ⟨hk, hmin⟩]
  rfl

theorem State.presets_no_scratch (s : State) (b : Block) (h : s.gangUnits b = []) : (tget {} (s.presets b) 1).space = 0 := by
  rw [State.presets_eq, h]
  by_cases hp : (s.grid b.grid).psize = 0 <;> simp [hp, tget]

theorem State.presets_param (s : State) (b : Block) (h : (s.grid b.grid).psize ≠ 0) :
    tget {} (s.presets b) 2 = s.paramPreset b := by
  rw [State.presets_eq]
  cases (s.gangUnits b).min? <;> simp [h, tget]

theorem State.presets_no_param (s : State) (b : Block) (h : (s.grid b.grid).psize = 0) :
    (tget {} (s.presets b) 2).space = 0 := by
  rw [State.presets_eq]
  cases (s.gangUnits b).min? <;> simp [h, tget]

theorem State.presets_other (s : State) (b : Block) {j : Nat} (h : 3 ≤ j) : (tget {} (s.presets b) j).space = 0 := by
  have h0 : 0 ≠ j := by omega
  have h1 : 1 ≠ j := by omega
  have h2 : 2 ≠ j := by omega
  rw [State.presets_eq]
  cases (s.gangUnits b).min? <;> by_cases hp : (s.grid b.grid).psize = 0 <;> simp [hp, tget, h0, h1, h2]

/-- The presets do not depend on what waits at a dispatcher. -/
theorem State.modCluster_dispatchQ_presets (s : State) (c : Nat) (r : List Nat) (b : Block) :
    (s.modCluster c fun k => { k with dispatchQ := r }).presets b = s.presets b := by
  have hpool : ∀ d, ((s.modCluster c fun k => { k with dispatchQ := r }).cluster d).pool = (s.cluster d).pool := by
    intro d
    rw [State.modCluster_cluster]
    split
    · rename_i h
      rw [h]
    · rfl
  have hoff : ∀ u, (s.modCluster c fun k => { k with dispatchQ := r }).unitOff (clusterOf b.core) u =
      s.unitOff (clusterOf b.core) u := by
    intro u
    unfold State.unitOff State.unitSlot
    rw [hpool]
    rfl
  rw [State.presets_eq, State.presets_eq]
  unfold State.scratchPreset
  simp only [hoff]
  rfl

/-- The warps of a block start, one at a time (R318). -/
def State.startWarps (s : State) (b : Block) : State :=
  (b.warps.zip (s.quadrants b.core b.warps.length [])).foldl
    (fun t p => t.modWarp p.1 fun y => y.start (s.grid b.grid) p.2 (s.presets b)) s

/-- Each warp of the block starts once, in a quadrant of the core, and nothing else changes. -/
theorem State.startWarps_spec (s : State) (b : Block) (hn : b.warps.Nodup) :
    s.startWarps b = { s with warps := (s.startWarps b).warps } ∧
      (∀ w ∈ b.warps, ∃ q, q < 4 ∧ (s.startWarps b).warp w = (s.warp w).start (s.grid b.grid) q (s.presets b)) ∧
      ∀ w, w ∉ b.warps → (s.startWarps b).warp w = s.warp w := by
  have hfst : (b.warps.zip (s.quadrants b.core b.warps.length [])).map Prod.fst = b.warps :=
    List.map_fst_zip (by simp [State.quadrants_length])
  obtain ⟨hrest, hin, hout⟩ := s.foldl_modWarp (fun q y => y.start (s.grid b.grid) q (s.presets b))
    (b.warps.zip (s.quadrants b.core b.warps.length [])) (hfst.symm ▸ hn)
  rw [hfst] at hout
  refine ⟨hrest, fun w hw => ?_, hout⟩
  rw [← hfst] at hw
  obtain ⟨⟨w, q⟩, hp, rfl⟩ := List.mem_map.mp hw
  exact ⟨q, s.quadrants_lt _ _ _ (fun _ h => absurd h List.not_mem_nil) q (List.of_mem_zip hp).2, hin _ hp⟩

/-- The block at the head of a dispatcher's queue starts, and r is left of the queue (R318). -/
def State.dispatched (s : State) (cl n : Nat) (r : List Nat) : State :=
  let t := ((s.modCluster cl fun k => { k with dispatchQ := r }).startWarps (s.blk n)).modBlk n fun y => { y with st := .resident }
  { t with cores := tmod {} t.cores (s.blk n).core fun k => { k with ranCtx := nins k.ranCtx (s.grid (s.blk n).grid).ctx } }

theorem exec_blockDispatch_empty {s : State} {cl : Nat} (h : (s.cluster cl).dispatchQ = []) :
    exec (.blockDispatch cl) s = .next s := by
  rw [exec_blockDispatch, execBlockDispatch, h]

theorem exec_blockDispatch_head {s : State} {cl n : Nat} {r : List Nat} (h : (s.cluster cl).dispatchQ = n :: r) :
    exec (.blockDispatch cl) s = .next (s.dispatched cl n r) := by
  rw [exec_blockDispatch, execBlockDispatch, h]
  rfl

section
variable (s : State) (cl n : Nat) (r : List Nat)

theorem State.dispatched_blk : ((s.dispatched cl n r).blk n).st = .resident := by
  have h := State.modBlk_blk ((s.modCluster cl fun k => { k with dispatchQ := r }).startWarps (s.blk n)) n
    (fun y => { y with st := .resident }) n
  rw [if_pos rfl] at h
  exact congrArg Block.st h

variable (hn : (s.blk n).warps.Nodup)
include hn

theorem State.dispatched_rest : s.dispatched cl n r =
    { s.modCluster cl fun k => { k with dispatchQ := r } with
      warps := (s.dispatched cl n r).warps, blocks := (s.dispatched cl n r).blocks, cores := (s.dispatched cl n r).cores } := by
  have hrest := ((s.modCluster cl fun k => { k with dispatchQ := r }).startWarps_spec (s.blk n) hn).1
  unfold State.dispatched
  dsimp only
  rw [hrest]
  rfl

theorem State.dispatched_queue : ((s.dispatched cl n r).cluster cl).dispatchQ = r := by
  have h := State.modCluster_cluster s cl (fun k => { k with dispatchQ := r }) cl
  rw [if_pos rfl] at h
  rw [s.dispatched_rest cl n r hn]
  exact congrArg Cluster.dispatchQ h

theorem State.dispatched_warp_other {w : Nat} (hw : w ∉ (s.blk n).warps) : (s.dispatched cl n r).warp w = s.warp w :=
  ((s.modCluster cl fun k => { k with dispatchQ := r }).startWarps_spec (s.blk n) hn).2.2 w hw

theorem State.dispatched_warp {w : Nat} (hw : w ∈ (s.blk n).warps) : ∃ q, q < 4 ∧
    (s.dispatched cl n r).warp w = (s.warp w).start (s.grid (s.blk n).grid) q (s.presets (s.blk n)) := by
  rw [← s.modCluster_dispatchQ_presets cl r]
  exact ((s.modCluster cl fun k => { k with dispatchQ := r }).startWarps_spec (s.blk n) hn).2.1 w hw

end

/-! ### Power gating -/

/-- A change of one cluster. -/
theorem State.modCluster_becomes (s : State) (cl : Nat) (f : Cluster → Cluster) :
    s.modCluster cl f = { s with clusters := (s.modCluster cl f).clusters } ∧
      (s.modCluster cl f).cluster cl = f (s.cluster cl) ∧ ∀ j, j ≠ cl → (s.modCluster cl f).cluster j = s.cluster j :=
  ⟨rfl, by rw [State.modCluster_cluster, if_pos rfl], fun j hj => by rw [State.modCluster_cluster, if_neg hj]⟩

theorem State.clusterIdle_iff (s : State) (cl : Nat) : s.clusterIdle cl = true ↔
    (∀ p ∈ s.blocks, clusterOf p.2.core = cl → p.2.holds = true → p.2.st = .saved) ∧ (s.cluster cl).deferred = [] ∧
      (s.cluster cl).queue = [] := by
  simp only [State.clusterIdle, State.holders, Bool.and_eq_true, List.isEmpty_iff, List.map_eq_nil_iff, List.filter_eq_nil_iff,
    beq_iff_eq, bne_iff_ne, and_assoc]
  refine and_congr (forall₂_congr fun p _ => ?_) Iff.rfl
  tauto

/-- The slice has a gang for which no ungated cluster has room (R41, R319, R339). -/
theorem State.wakeWanted_iff (s : State) (sl : Nat) : s.wakeWanted sl = true ↔
    (∃ gid, s.sliceHead sl = some gid ∧ ((s.grid gid).cls ≠ 1 ∧ s.admitTry gid = none ∨
        (s.grid gid).cls = 1 ∧ s.admitAllTry gid (s.grid gid).nblocks = none)) ∨
      ∃ p ∈ s.gangs, p.2.st = .saved ∧ (s.ctx (s.grid p.2.grid).ctx).restoring = true ∧
        s.ctxSlice (s.grid p.2.grid).ctx = sl ∧ s.readmitTry p.1 = none := by
  rw [State.wakeWanted, Bool.or_eq_true]
  refine or_congr ?_ ?_
  · cases hs : s.sliceHead sl with
    | none => simp
    | some gid => by_cases hc : (s.grid gid).cls = 1 <;> simp [hc]
  · simp [and_assoc]

section
variable {s : State} {cl : Nat}

theorem exec_gatingRequest_idle (hi : s.clusterIdle cl = true) (hg : (s.cluster cl).gate = .open) :
    exec (.gatingRequest cl) s = .next (s.modCluster cl fun c => { c with gate := .requested, handed := false }) := by
  rw [exec_gatingRequest, execGatingRequest, if_pos (by simp [hi, hg])]

theorem exec_gatingRequest_void (h : ¬ (s.clusterIdle cl = true ∧ (s.cluster cl).gate = .open)) :
    exec (.gatingRequest cl) s = .next s := by
  rw [exec_gatingRequest, execGatingRequest, if_neg (by simpa using h)]

theorem exec_gatingCommit_requested (hg : (s.cluster cl).gate = .requested) :
    exec (.gatingCommit cl) s =
      .next (s.modCluster cl fun y => { y with gate := if (s.cluster cl).handed then .open else .gated }) := by
  rw [exec_gatingCommit, execGatingCommit]
  exact if_pos (by simp [hg])

theorem exec_gatingCommit_void (hg : (s.cluster cl).gate ≠ .requested) : exec (.gatingCommit cl) s = .next s := by
  rw [exec_gatingCommit, execGatingCommit]
  exact if_neg (by simpa using hg)

theorem exec_clusterWake_wanted (hg : (s.cluster cl).gate = .gated)
    (hw : ∃ sl, sl < 8 ∧ s.sliceF sl cl 1 = 1 ∧ s.wakeWanted sl = true) :
    exec (.clusterWake cl) s = .next (s.modCluster cl fun c => { c with gate := .open }) := by
  rw [exec_clusterWake, execClusterWake, if_pos (by simpa [hg] using hw)]

theorem exec_clusterWake_void
    (h : ¬ ((s.cluster cl).gate = .gated ∧ ∃ sl, sl < 8 ∧ s.sliceF sl cl 1 = 1 ∧ s.wakeWanted sl = true)) :
    exec (.clusterWake cl) s = .next s := by
  rw [exec_clusterWake, execClusterWake, if_neg (by simpa using h)]

end

/-! ### Notes -/

theorem State.modWarp_cluster (s : State) (w : Nat) (f : Warp → Warp) (c : Nat) : (s.modWarp w f).cluster c = s.cluster c := rfl

theorem State.modWarp_fn (s : State) (w : Nat) (f : Warp → Warp) (n : Nat) : (s.modWarp w f).fn n = s.fn n := rfl

theorem State.modCluster_fn (s : State) (c : Nat) (f : Cluster → Cluster) (n : Nat) : (s.modCluster c f).fn n = s.fn n := rfl

theorem Fn.noteRoom_iff (f : Fn) : f.noteRoom = true ↔ f.nrlog ≠ 0 ∧ (f.nrtail - f.nrhead).toNat < 2 ^ f.nrlog := by
  simp [Fn.noteRoom]

/-- The bytes of a value written in turn are the value written whole. -/
theorem wrList_addrs_bytesOf (n : Nat) (m : List Host.Cell) (a x : Nat) :
    wrList m (addrs a (bytesOf n x)) = wrNat m a n x := by
  induction n generalizing m a x with
  | zero => rfl
  | succ n ih => exact ih _ _ _

/-- Bytes that hold a value's digits read as its low part. -/
theorem rdNat_of_rdByte {m : List Host.Cell} (n a x : Nat) (h : ∀ j, j < n → rdByte m (a + j) = .ofNat 8 (x / 256 ^ j)) :
    rdNat m a n = x % 256 ^ n := by
  induction n generalizing a x with
  | zero => simp [rdNat, Nat.mod_one]
  | succ n ih =>
    have h0 := h 0 (Nat.succ_pos n)
    have hr := ih (a + 1) (x / 256) fun j hj => by
      rw [Nat.add_assoc, Nat.add_comm 1 j, h (j + 1) (by omega), Nat.div_div_eq_div_mul, pow_succ, Nat.mul_comm]
    rw [rdNat, hr, ← Nat.add_zero a, h0, pow_succ, Nat.mul_comm (256 ^ n) 256, Nat.mod_mul]
    simp

/-- Reading part of what was written. -/
theorem rdNat_wrNat_part (m : List Host.Cell) (a x : Nat) {n k j : Nat} (h : k + j ≤ n) :
    rdNat (wrNat m a n x) (a + k) j = x / 256 ^ k % 256 ^ j :=
  rdNat_of_rdByte j (a + k) (x / 256 ^ k) fun i hi => by
    rw [Nat.add_assoc, rdByte_wrNat_in n m a x (k + i) (by omega), Nat.div_div_eq_div_mul, pow_add]

/-- The words of a note are the digits of its value. -/
theorem Note.val_word (ws : List Word) (i : Nat) :
    ws.foldr (fun x t => x.toNat + 2 ^ 32 * t) 0 / 2 ^ (32 * i) % 2 ^ 32 = (ws.getD i 0).toNat := by
  induction ws generalizing i with
  | nil => simp
  | cons x r ih =>
    cases i with
    | zero =>
      rw [List.foldr_cons, Nat.mul_zero, pow_zero, Nat.div_one, Nat.add_mul_mod_self_left]
      exact Nat.mod_eq_of_lt x.isLt
    | succ i =>
      rw [List.foldr_cons, Nat.mul_succ, Nat.add_comm (32 * i) 32, pow_add, ← Nat.div_div_eq_div_mul,
        Nat.add_mul_div_left _ _ (by decide), Nat.div_eq_of_lt x.isLt, Nat.zero_add, ih]
      rfl

section
variable {s : State} {cl : Nat}

theorem exec_hostnoteWrite_full (h : ∀ m ∈ (s.cluster cl).notes, ¬ (s.fn m.fn).noteRoom = true) :
    exec (.hostnoteWrite cl) s = .next s := by
  rw [exec_hostnoteWrite, execHostnoteWrite, List.find?_eq_none.mpr h]

/-- The first note whose ring has room is written there, and leaves the queue (R254). -/
theorem exec_hostnoteWrite_room {n : Note} {a b : List Note} (hq : (s.cluster cl).notes = a ++ n :: b)
    (ha : ∀ m ∈ a, ¬ (s.fn m.fn).noteRoom = true) (hn : (s.fn n.fn).noteRoom = true) :
    ∃ t, exec (.hostnoteWrite cl) s = .next t ∧ (t.cluster cl).notes = a ++ b ∧
      t.fn n.fn = { s.fn n.fn with nrtail := (s.fn n.fn).nrtail + 1, msix := (s.fn n.fn).msix ++ [2] } ∧
      t.warp n.warp = (s.warp n.warp).flagDown n.flag [] ∧
      t.mem = wrNat s.mem ((s.fn n.fn).nrbase.toNat + 64 * ((s.fn n.fn).nrtail.toNat % 2 ^ (s.fn n.fn).nrlog)) 64 n.val := by
  have hfind : ((s.cluster cl).notes.find? fun n => (s.fn n.fn).noteRoom) = some n :=
    List.find?_eq_some_iff_append.mpr ⟨hn, a, b, hq, fun m hm => by simpa using ha m hm⟩
  have hna : n ∉ a := fun h => ha n h hn
  refine ⟨_, by rw [exec_hostnoteWrite, execHostnoteWrite, hfind], ?_, ?_, ?_, wrList_addrs_bytesOf _ _ _ _⟩
  · rw [State.modWarp_cluster, State.modCluster_cluster, if_pos rfl]
    show (s.cluster cl).notes.erase n = _
    rw [hq, List.erase_append_right _ hna, List.erase_cons_head]
  · rw [State.modWarp_fn, State.modCluster_fn, State.signal, State.modFn_fn, if_pos rfl, State.modFn_fn, if_pos rfl]
    rfl
  · rw [State.modWarp_warp_self]
    rfl

end

/-! ### The Sander -/

/-- Overwriting with zeros, byte by byte (R255). -/
theorem State.rdByte_zeroPhys (s : State) (pa n a : Nat) :
    rdByte (s.zeroPhys pa n).mem a = if pa ≤ a ∧ a < pa + n then 0 else rdByte s.mem a := by
  show tget 0 (s.mem.filter _) a = _
  unfold rdByte
  induction s.mem with
  | nil => simp [tget]
  | cons p m ih =>
    obtain ⟨k, y⟩ := p
    by_cases hk : pa ≤ k ∧ k < pa + n
    · rw [List.filter_cons_of_neg (by simp [hk]), ih, tget]
      by_cases ha : k = a
      · subst ha
        simp [hk]
      · simp [ha]
    · rw [List.filter_cons_of_pos (by simp; omega), tget, tget, ih]
      by_cases ha : k = a
      · subst ha
        simp [hk]
      · simp [ha]

/-- Where a Sander command begins. -/
def EngineCmd.sandBase (words : List Word) : Nat := (words.getD 2 0).toNat + (words.getD 3 0).toNat * 2 ^ 32

/-- How many bytes a Sander command overwrites. -/
def EngineCmd.sandLen (words : List Word) : Nat := (words.getD 4 0).toNat + (words.getD 5 0).toNat * 2 ^ 32

/-- The words of a Sander command are those that R255 gives. -/
def EngineCmd.sandFormed (words : List Word) : Prop :=
  let w (i : Nat) : Nat := (words.getD i 0).toNat
  w 0 = 1 ∧ w 1 = 0 ∧ (∀ i, i < 10 → w (6 + i) = 0) ∧ w 3 < 2 ^ 16 ∧ EngineCmd.sandLen words ≠ 0 ∧
    EngineCmd.sandLen words % 4096 = 0

/-- The check for it that the Sander makes. -/
def EngineCmd.sandMalformed (words : List Word) : Bool :=
  let w (i : Nat) : Nat := (words.getD i 0).toNat
  w 0 != 1 || w 1 != 0 || (List.range 10).any (fun i => w (6 + i) != 0) || 2 ^ 16 ≤ w 3 ||
    EngineCmd.sandLen words == 0 || EngineCmd.sandLen words % 4096 != 0

theorem EngineCmd.sandMalformed_eq_false_iff (words : List Word) :
    EngineCmd.sandMalformed words = false ↔ EngineCmd.sandFormed words := by
  simp only [EngineCmd.sandMalformed, EngineCmd.sandFormed, Bool.or_eq_false_iff, bne_eq_false_iff_eq, beq_eq_false_iff_ne,
    List.any_eq_false, List.mem_range, decide_eq_false_iff_not, not_le, and_assoc, bne_iff_ne, not_not]

/-- The checks of a Sander command in their order (R255; log entry 16). -/
theorem EngineCmd.sandFault_eq (words : List Word) : EngineCmd.sandFault words =
    if EngineCmd.sandMalformed words then some 0x02
    else if EngineCmd.sandBase words % 4096 != 0 then some 0x11
    else if 2 ^ 48 < EngineCmd.sandBase words + EngineCmd.sandLen words then some 0x10 else none := rfl

theorem EngineCmd.sandFault_malformed {words : List Word} (h : ¬ EngineCmd.sandFormed words) :
    EngineCmd.sandFault words = some 0x02 := by
  rw [← EngineCmd.sandMalformed_eq_false_iff, Bool.not_eq_false] at h
  rw [EngineCmd.sandFault_eq, if_pos h]

section
variable {words : List Word} (h : EngineCmd.sandFormed words)
include h

theorem EngineCmd.sandFault_misaligned (hb : EngineCmd.sandBase words % 4096 ≠ 0) :
    EngineCmd.sandFault words = some 0x11 := by
  rw [EngineCmd.sandFault_eq, (EngineCmd.sandMalformed_eq_false_iff words).mpr h, if_neg Bool.false_ne_true,
    if_pos (bne_iff_ne.mpr hb)]

variable (hb : EngineCmd.sandBase words % 4096 = 0)
include hb

theorem EngineCmd.sandFault_beyond (hl : 2 ^ 48 < EngineCmd.sandBase words + EngineCmd.sandLen words) :
    EngineCmd.sandFault words = some 0x10 := by
  rw [EngineCmd.sandFault_eq, (EngineCmd.sandMalformed_eq_false_iff words).mpr h, if_neg Bool.false_ne_true,
    if_neg (by simp [hb]), if_pos hl]

theorem EngineCmd.sandFault_none (hl : EngineCmd.sandBase words + EngineCmd.sandLen words ≤ 2 ^ 48) :
    EngineCmd.sandFault words = none := by
  rw [EngineCmd.sandFault_eq, (EngineCmd.sandMalformed_eq_false_iff words).mpr h, if_neg Bool.false_ne_true,
    if_neg (by simp [hb]), if_neg (Nat.not_lt.mpr hl)]

end

/-- A Sander command ends in a state, and its flag is released (R242). -/
def EngineCmd.sandDone (c : EngineCmd) (u : State) : State := u.modWarp c.warp fun y => y.flagDown c.flag []

/-- A Sander command fails with a code at an address: its record (R255, R377). -/
def EngineCmd.sandFail (c : EngineCmd) (u : State) (code : BitVec 8) (a : Nat) : State :=
  u.ctxLog { u.recOf c.warp 0x05 with code := code.toNat, pc := c.pc.toNat, ctx := c.ctx, addr := a }

theorem exec_sanderOverwrite_empty {s : State} (h : s.sanderQ = []) : exec .sanderOverwrite s = .next s := by
  rw [exec_sanderOverwrite, execSanderOverwrite, h]

/-! In the proofs below the numbers of the command stay named: unfolded, the kernel would count down from `2 ^ 32`. -/

section
variable {c : EngineCmd} {r : List EngineCmd} {s : State} (h : s.sanderQ = c :: r)
include h

theorem exec_sanderOverwrite_refused {code : BitVec 8} (hf : EngineCmd.sandFault c.words = some code) :
    exec .sanderOverwrite s =
      .next (c.sandDone (c.sandFail { s with sanderQ := r } code (EngineCmd.sandBase c.words))) := by
  rw [exec_sanderOverwrite, execSanderOverwrite, h]
  dsimp -zeta -zetaUnused only
  rw [hf]
  rfl

variable (hf : EngineCmd.sandFault c.words = none) {u : State}
include hf

theorem exec_sanderOverwrite_through
    (hp : State.sandPages { s with sanderQ := r } c.ctx (EngineCmd.sandBase c.words) (EngineCmd.sandLen c.words / 4096) =
      (none, u)) : exec .sanderOverwrite s = .next (c.sandDone u) := by
  rw [exec_sanderOverwrite, execSanderOverwrite, h]
  dsimp -zeta -zetaUnused only
  rw [hf]
  extract_lets w base t fail v
  have hpages : t.sandPages c.ctx base ((w 4 + w 5 * 2 ^ 32) / 4096) = (none, u) := hp
  have hv : v = u := by
    unfold v
    rw [hpages]
  rw [hv]
  rfl

theorem exec_sanderOverwrite_stopped {a : Nat}
    (hp : State.sandPages { s with sanderQ := r } c.ctx (EngineCmd.sandBase c.words) (EngineCmd.sandLen c.words / 4096) =
      (some a, u)) : exec .sanderOverwrite s = .next (c.sandDone (c.sandFail u 0x13 a)) := by
  rw [exec_sanderOverwrite, execSanderOverwrite, h]
  dsimp -zeta -zetaUnused only
  rw [hf]
  extract_lets w base t fail v
  have hpages : t.sandPages c.ctx base ((w 4 + w 5 * 2 ^ 32) / 4096) = (some a, u) := hp
  have hv : v = fail u 0x13 a := by
    unfold v
    rw [hpages]
  rw [hv]
  rfl

end
/-- Settles O48: the distributor, the clusters tried in turn, the dispatcher, the gating, the notes and the Sander, each by
its equations. -/
theorem launchAndDispatch : Obligations.LaunchAndDispatch := by
  unfold Obligations.LaunchAndDispatch
  refine ⟨?_, ?_, ?_, ?_, ?_, ?_, ?_⟩
  · intro sl gid s t u runs
    refine ⟨exec_admission_idle, fun h => ⟨State.sliceHead_spec h, fun hc => (exec_admission_concurrent h hc).1,
      fun hc => (exec_admission_gang h hc).1, ?_⟩⟩
    intro e admits held
    have he : exec e s = s.admission gid admits := by
      by_cases hc : (s.grid gid).cls = 1
      · simp only [e, admits, hc, if_true]
        exact (exec_admission_concurrent h hc).2
      · simp only [e, admits, hc, if_false]
        exact (exec_admission_gang h hc).2
    rw [he]
    exact ⟨State.admission_of_held admits, fun v hn hv => State.admission_without_image admits hn hv,
      fun v hn hv => ⟨State.admission_without_room admits hn hv, State.admission_with_room admits hn hv⟩⟩
  · intro place c r s t
    exact ⟨rfl, State.tryClusters_of_queued, State.tryClusters_of_room, State.tryClusters_of_no_room⟩
  · intro cl n r s b g
    refine ⟨exec_blockDispatch_empty, fun h hn => ⟨_, exec_blockDispatch_head h, s.dispatched_queue cl n r hn,
      s.dispatched_blk cl n r, fun w hw => s.dispatched_warp_other cl n r hn hw, ?_, ?_, ?_, fun w hw => ?_⟩⟩
    · rw [s.dispatched_rest cl n r hn]
      rfl
    · rw [s.dispatched_rest cl n r hn]
      rfl
    · rw [s.dispatched_rest cl n r hn]
      rfl
    · obtain ⟨q, hq, hstart⟩ := s.dispatched_warp cl n r hn hw
      rw [hstart]
      exact ⟨hq, fun l hl => Warp.start_th _ _ _ _ hl, s.presets_shared b, s.presets_param b, s.presets_no_param b,
        ⟨s.presets_no_scratch b, fun k hk hmin => s.presets_scratch b hk hmin⟩, fun j hj _ => s.presets_other b hj, rfl, rfl⟩
  · intro cl s c idle wanted becomes
    have hidle : s.clusterIdle cl = true ↔ idle := s.clusterIdle_iff cl
    have hwanted : (∃ sl, sl < 8 ∧ s.sliceF sl cl 1 = 1 ∧ s.wakeWanted sl = true) ↔ wanted := by
      simp only [State.wakeWanted_iff]
      exact Iff.rfl
    have hbecomes : ∀ (e : Instr) (f : Cluster → Cluster), exec e s = .next (s.modCluster cl f) → becomes e (f c) :=
      fun e f he => ⟨_, he, s.modCluster_becomes cl f⟩
    refine ⟨fun hi hg => hbecomes _ _ (exec_gatingRequest_idle (hidle.mpr hi) hg),
      fun h => exec_gatingRequest_void (by rwa [hidle]), fun hg hh => ?_, fun hg hh => ?_, exec_gatingCommit_void,
      fun hg hw => hbecomes _ _ (exec_clusterWake_wanted hg (hwanted.mpr hw)), fun h => exec_clusterWake_void (by rwa [hwanted])⟩
    · have := exec_gatingCommit_requested hg
      rw [hh] at this
      exact hbecomes _ _ this
    · have := exec_gatingCommit_requested hg
      rw [hh] at this
      exact hbecomes _ _ this
  · intro cl n a b s f room
    have hroom : ∀ m : Note, (s.fn m.fn).noteRoom = true ↔ room m := fun m => Fn.noteRoom_iff _
    refine ⟨fun h => exec_hostnoteWrite_full fun m hm => by rw [hroom]; exact h m hm, fun hq ha hn _ => ?_⟩
    obtain ⟨t, ht, hnotes, hfn, hwarp, hmem⟩ :=
      exec_hostnoteWrite_room hq (fun m hm => by rw [hroom]; exact ha m hm) ((hroom n).mpr hn)
    refine ⟨t, ht, hnotes, by rw [hfn], by rw [hfn], ?_, fun i hi => ?_⟩
    · rw [hwarp]
      exact tget_tput_self _ _ _ _
    · have hdigit : 256 ^ (4 * i) = 2 ^ (32 * i) := by
        rw [show (256 : Nat) = 2 ^ 8 from rfl, ← pow_mul, ← Nat.mul_assoc]
      rw [hmem, rdNat_wrNat_part _ _ _ (by omega), hdigit]
      exact Note.val_word n.words i
  · intro c r s u w base len t formed ends fails
    refine ⟨exec_sanderOverwrite_empty, fun h => ⟨fun hf => ?_, fun hf hb => ?_, fun hf hb hl => ?_, fun hf hb hl => ⟨?_, ?_⟩⟩⟩
    · exact exec_sanderOverwrite_refused h (EngineCmd.sandFault_malformed hf)
    · exact exec_sanderOverwrite_refused h (EngineCmd.sandFault_misaligned hf hb)
    · exact exec_sanderOverwrite_refused h (EngineCmd.sandFault_beyond hf hb hl)
    · exact exec_sanderOverwrite_through h (EngineCmd.sandFault_none hf hb hl)
    · exact fun a hp => exec_sanderOverwrite_stopped h (EngineCmd.sandFault_none hf hb hl) hp
  · intro c va n pa s t
    refine ⟨fun h => ?_, fun h => ?_, s.rdByte_zeroPhys pa 4096⟩
    · rw [State.sandPages, h]
    · rw [State.sandPages, h]

end Sys2Proof.Machine
end

section
/-! PROOFS. The safety test of the arbiter (O34). -/

namespace Sys2Proof.Machine

/-! ### Rows -/

theorem rowAdd_right_comm : RightCommutative rowAdd := by
  constructor
  intro a
  induction a with
  | nil => intro b c; rfl
  | cons x a ih =>
    intro b c
    cases b with
    | nil => cases c <;> rfl
    | cons y b =>
      cases c with
      | nil => rfl
      | cons z c => exact congrArg₂ List.cons (add_right_comm x y z) (ih b c)

theorem rowLe_cons (x y : Int) (a b : List Int) : rowLe (x :: a) (y :: b) = true ↔ x ≤ y ∧ rowLe a b = true := by
  simp [rowLe]

/-- What fits a row fits it after an allocation has come back. -/
theorem rowLe_rowAdd : ∀ {a b c : List Int}, rowLe a b = true → (∀ n ∈ c, 0 ≤ n) → rowLe a (rowAdd b c) = true
  | [], _, _, _, _ => rfl
  | _ :: _, [], _, _, _ => rfl
  | _ :: _, _ :: _, [], _, _ => rfl
  | x :: a, y :: b, z :: c, h, hc => by
    rw [rowLe_cons] at h
    obtain ⟨hxy, hab⟩ := h
    obtain ⟨hz, hc⟩ := List.forall_mem_cons.mp hc
    exact (rowLe_cons ..).mpr ⟨le_add_of_le_of_nonneg hxy hz, rowLe_rowAdd hab hc⟩

/-! ### Claimants that finish -/

/-- What is available once the listed claimants have given back what they hold. -/
def giveBack (work : List Int) (l : List (List Int × List Int)) : List Int := l.foldl (fun t p => rowAdd t p.2) work

/-- The claimants of the list hold no negative amount. -/
def Holding (l : List (List Int × List Int)) : Prop := ∀ p ∈ l, ∀ n ∈ p.2, 0 ≤ n

theorem giveBack_cons (work : List Int) (p : List Int × List Int) (l : List (List Int × List Int)) :
    giveBack work (p :: l) = giveBack (rowAdd work p.2) l := rfl

theorem giveBack_perm {l m : List (List Int × List Int)} (h : l.Perm m) (work : List Int) :
    giveBack work l = giveBack work m :=
  haveI : RightCommutative fun (t : List Int) (p : List Int × List Int) => rowAdd t p.2 :=
    ⟨fun a p q => rowAdd_right_comm.right_comm a p.2 q.2⟩
  h.foldl_eq work

/-- It does not matter whether an allocation comes back before those of others or after them. -/
theorem giveBack_rowAdd (work : List Int) (p : List Int × List Int) (l : List (List Int × List Int)) :
    rowAdd (giveBack work l) p.2 = giveBack (rowAdd work p.2) l := by
  have h := giveBack_perm (List.perm_append_singleton p l) work
  rw [giveBack_cons] at h
  rw [← h, giveBack, giveBack, List.foldl_append]
  rfl

theorem rowLe_giveBack {l : List (List Int × List Int)} (hl : Holding l) : ∀ {need work : List Int},
    rowLe need work = true → rowLe need (giveBack work l) = true := by
  induction l with
  | nil => exact fun h => h
  | cons p l ih =>
    obtain ⟨hp, hl⟩ := List.forall_mem_cons.mp hl
    exact fun h => ih hl (rowLe_rowAdd h hp)

theorem finishInOrder_append (l m : List (List Int × List Int)) : ∀ work : List Int,
    finishInOrder work (l ++ m) ↔ finishInOrder work l ∧ finishInOrder (giveBack work l) m := by
  induction l with
  | nil => intro work; simp [finishInOrder, giveBack]
  | cons p l ih =>
    intro work
    rw [List.cons_append, finishInOrder, finishInOrder, ih, giveBack_cons, and_assoc]

/-- Claimants whose needs all fit what is available can finish in any order. -/
theorem finishInOrder_of_all_fit {l : List (List Int × List Int)} (hl : Holding l) : ∀ {work : List Int},
    (∀ p ∈ l, rowLe p.1 work = true) → finishInOrder work l := by
  induction l with
  | nil => exact fun _ => trivial
  | cons p l ih =>
    intro work h
    obtain ⟨hp, hl⟩ := List.forall_mem_cons.mp hl
    obtain ⟨hfit, h⟩ := List.forall_mem_cons.mp h
    exact ⟨hfit, ih hl fun q hq => rowLe_rowAdd (h q hq) hp⟩

/-- Claimants that can finish in an order still can when some of them have finished before it begins. -/
theorem finishInOrder_filter (f : List Int × List Int → Bool) {l : List (List Int × List Int)} (hl : Holding l) :
    ∀ {work : List Int}, finishInOrder work l →
      finishInOrder (giveBack work (l.filter f)) (l.filter fun p => !f p) := by
  induction l with
  | nil => exact fun h => h
  | cons p l ih =>
    obtain ⟨-, hl⟩ := List.forall_mem_cons.mp hl
    rintro work ⟨hfit, h⟩
    have hrest := ih hl h
    cases hf : f p with
    | true =>
      rw [List.filter_cons_of_pos hf, List.filter_cons_of_neg (by simp [hf])]
      exact hrest
    | false =>
      rw [List.filter_cons_of_neg (by simp [hf]), List.filter_cons_of_pos (by simp [hf])]
      refine ⟨rowLe_giveBack (fun q hq => hl q (List.mem_of_mem_filter hq)) hfit, ?_⟩
      rw [giveBack_rowAdd]
      exact hrest

/-! ### The rounds (R48) -/

/-- The claimants whose need fits what is available: those that a round marks. -/
def fits (work : List Int) (p : List Int × List Int) : Bool := rowLe p.1 work

theorem safeRounds_succ (k : Nat) (work : List Int) (left : List (List Int × List Int)) :
    safeRounds (k + 1) work left = (left.isEmpty || !(left.filter (fits work)).isEmpty &&
      safeRounds k (giveBack work (left.filter (fits work))) (left.filter fun p => !fits work p)) := by
  show (if left.isEmpty then true else if (left.filter (fits work)).isEmpty then false
    else safeRounds k (giveBack work (left.filter (fits work))) (left.filter fun p => !fits work p)) = _
  cases left.isEmpty
  · cases (left.filter (fits work)).isEmpty <;> rfl
  · rfl

theorem safeRounds_nil (k : Nat) (work : List Int) : safeRounds k work [] = true := by
  cases k <;> rfl

/-- The rounds find an order: in each, those that fit finish first. -/
theorem finishInOrder_of_safeRounds : ∀ (k : Nat) {work : List Int} {left : List (List Int × List Int)}, Holding left →
    safeRounds k work left = true → ∃ order, order.Perm left ∧ finishInOrder work order := by
  intro k
  induction k with
  | zero =>
    intro work left _ h
    exact ⟨[], by rw [List.isEmpty_iff.mp h], trivial⟩
  | succ k ih =>
    intro work left hl h
    rw [safeRounds_succ, Bool.or_eq_true, Bool.and_eq_true, List.isEmpty_iff] at h
    rcases h with rfl | ⟨-, h⟩
    · exact ⟨[], .refl _, trivial⟩
    · obtain ⟨order, hperm, hfin⟩ := ih (fun p hp => hl p (List.mem_of_mem_filter hp)) h
      refine ⟨left.filter (fits work) ++ order,
        (hperm.append_left _).trans (List.filter_append_perm (fits work) left), ?_⟩
      rw [finishInOrder_append]
      exact ⟨finishInOrder_of_all_fit (fun p hp => hl p (List.mem_of_mem_filter hp)) fun p hp =>
        (List.mem_filter.mp hp).2, hfin⟩

/-- When an order exists, each round marks a claimant, the first of the order at least. -/
theorem safeRounds_of_finishInOrder : ∀ (k : Nat) {work : List Int} {left order : List (List Int × List Int)},
    left.length ≤ k → Holding left → order.Perm left → finishInOrder work order → safeRounds k work left = true := by
  intro k
  induction k with
  | zero =>
    intro work left order hk _ _ _
    rw [List.length_eq_zero_iff.mp (Nat.le_zero.mp hk), safeRounds_nil]
  | succ k ih =>
    intro work left order hk hl hperm hfin
    cases order with
    | nil => rw [← hperm.nil_eq, safeRounds_nil]
    | cons p rest =>
      have hp : p ∈ left.filter (fits work) := List.mem_filter.mpr ⟨hperm.subset List.mem_cons_self, hfin.1⟩
      have hne : (left.filter (fits work)).isEmpty = false := by
        rw [List.isEmpty_eq_false_iff]
        exact List.ne_nil_of_mem hp
      have hfewer : (left.filter fun q => !fits work q).length ≤ k := by
        have hsum := (List.filter_append_perm (fits work) left).length_eq
        have := List.length_pos_of_mem hp
        rw [List.length_append] at hsum
        omega
      have hafter := finishInOrder_filter (fits work) (fun q hq => hl q (hperm.subset hq)) hfin
      rw [giveBack_perm (hperm.filter _)] at hafter
      rw [safeRounds_succ, hne, ih hfewer (fun q hq => hl q (List.mem_of_mem_filter hq)) (hperm.filter _) hafter]
      simp

/-- Settles O34, by induction on the rounds. -/
theorem claimSafety : Obligations.ClaimSafety := by
  intro avail rows _ hrows
  have hl : Holding rows := fun p hp => (hrows p hp).2.2
  constructor
  · exact finishInOrder_of_safeRounds _ hl
  · rintro ⟨order, hperm, hfin⟩
    exact safeRounds_of_finishInOrder _ le_rfl hl hperm hfin

end Sys2Proof.Machine
end

section
/-! PROOFS. `REL`, `CLAIMRD` and the arbiter (O36). -/

namespace Sys2Proof.Machine

/-! ### Lists without repetitions -/

theorem length_eraseDups_le (l : List Nat) : l.eraseDups.length ≤ l.length := by
  match l with
  | [] => exact le_rfl
  | a :: l =>
    have hfilter := List.length_filter_le (fun b => !b == a) l
    have hrest := length_eraseDups_le (l.filter fun b => !b == a)
    rw [List.eraseDups_cons, List.length_cons, List.length_cons]
    omega
termination_by l.length
decreasing_by exact Nat.lt_succ_of_le hfilter

/-- Nothing is lost by erasing the repetitions of a list exactly when it has none. -/
theorem length_eraseDups_eq_iff (l : List Nat) : l.eraseDups.length = l.length ↔ l.Nodup := by
  induction l with
  | nil => simp
  | cons a l ih =>
    have hkeep : l.filter (fun b => !b == a) = l ↔ a ∉ l := by
      rw [List.filter_eq_self]
      exact ⟨fun h ha => by simpa using h a ha, fun h b hb => by simpa using fun e : b = a => h (e ▸ hb)⟩
    rw [List.eraseDups_cons, List.length_cons, List.length_cons, List.nodup_cons, ← ih, ← hkeep]
    constructor
    · intro h
      have hfilter := List.length_filter_le (fun b => !b == a) l
      have hrest := length_eraseDups_le (l.filter fun b => !b == a)
      have hself : l.filter (fun b => !b == a) = l :=
        List.filter_eq_self.mpr (List.length_filter_eq_length_iff.mp (by omega))
      exact ⟨hself, by rw [hself] at h; omega⟩
    · rintro ⟨hself, h⟩
      rw [hself, h]

theorem eq_map_some_of_all_isSome (l : List (Option Nat)) (h : l.all Option.isSome = true) :
    l = (l.filterMap id).map some := by
  induction l with
  | nil => rfl
  | cons o l ih =>
    rw [List.all_cons, Bool.and_eq_true] at h
    obtain ⟨a, rfl⟩ := Option.isSome_iff_exists.mp h.1
    exact congrArg (some a :: ·) (ih h.2)

/-- What registers name: the n names are all there and no two are the same. -/
theorem allDistinct_names_iff (name : Nat → Option Nat) (n : Nat) (l : List Nat) :
    (allDistinct ((List.range n).map name) = true ∧ ((List.range n).map name).filterMap id = l) ↔
      l.length = n ∧ l.Nodup ∧ ∀ i, i < n → name i = some (l.getD i 0) := by
  rw [allDistinct, Bool.and_eq_true, beq_iff_eq]
  constructor
  · rintro ⟨⟨hsome, hdups⟩, rfl⟩
    have hnames := eq_map_some_of_all_isSome _ hsome
    have hlen := congrArg List.length hnames
    rw [List.length_map, List.length_map, List.length_range] at hlen
    refine ⟨hlen.symm, (length_eraseDups_eq_iff _).mp (hdups.trans ?_), fun i hi => ?_⟩
    · rw [List.length_map, List.length_range]
      exact hlen
    · have hget := congrArg (fun m => m[i]?) hnames
      simp only [List.getElem?_map, List.getElem?_range hi, Option.map_some] at hget
      rw [List.getElem?_eq_getElem (by omega), Option.map_some] at hget
      rw [List.getD_eq_getElem _ _ (by omega)]
      exact Option.some.inj hget
  · rintro ⟨hlen, hnodup, hname⟩
    have hnames : (List.range n).map name = l.map some := by
      refine List.ext_getElem (by simp [hlen]) fun i hi _ => ?_
      have hi' : i < n := by simpa using hi
      rw [List.getElem_map, List.getElem_map, List.getElem_range, hname i hi', List.getD_eq_getElem _ _ (by omega)]
    have hl : (l.map some).filterMap id = l := by simp
    rw [hnames, hl]
    refine ⟨⟨by simp, ?_⟩, rfl⟩
    rw [(length_eraseDups_eq_iff l).mpr hnodup, List.length_map]

/-! ### What a `REL` names (R51, R53) -/

section
variable {s : State} {x : Ix} {f : FS}

/-- The unit that a register names (R53; log entry 75). -/
theorem State.unitOfReg_eq_some_iff (s : State) (w : Nat) (k : Bounded) (u : Nat) : s.unitOfReg w k = some u ↔
    k.g = true ∧ k.space = 2 ∧ s.unitAt (s.wcluster w) k.base.toNat = some u ∧ (u, false) ∈ (s.wblk w).units := by
  have hany : ∀ v, ((s.wblk w).units.any fun p => p.1 == v && !p.2) = true ↔ (v, false) ∈ (s.wblk w).units := by
    intro v
    simp [List.any_eq_true]
  have heq : s.unitOfReg w k = if k.g && k.space == 2 then
      (s.unitAt (s.wcluster w) k.base.toNat).bind fun v =>
        if (s.wblk w).units.any fun p => p.1 == v && !p.2 then some v else none
      else none := by
    unfold State.unitOfReg
    cases s.unitAt (s.wcluster w) k.base.toNat <;> rfl
  rw [heq]
  by_cases hk : k.g = true ∧ k.space = 2
  · rw [if_pos (by simp [hk]), Option.bind_eq_some_iff]
    constructor
    · rintro ⟨v, hv, h⟩
      by_cases hheld : ((s.wblk w).units.any fun p => p.1 == v && !p.2) = true
      · rw [if_pos hheld, Option.some.injEq] at h
        subst h
        exact ⟨hk.1, hk.2, hv, (hany v).mp hheld⟩
      · rw [if_neg hheld] at h
        cases h
    · rintro ⟨-, -, hv, hheld⟩
      exact ⟨u, hv, by rw [if_pos ((hany u).mpr hheld)]⟩
  · rw [if_neg (by simpa using hk)]
    simp only [reduceCtorEq, false_iff]
    rintro ⟨hg, hs, -⟩
    exact hk ⟨hg, hs⟩

theorem State.relNames_units (hc : modBits f.mod 0 3 = 0) (l : List Nat) : s.relNames x f = some l ↔
    1 ≤ f.imm.toNat ∧ f.imm.toNat ≤ 4 ∧ f.a.code + f.imm.toNat ≤ 16 ∧ l.length = f.imm.toNat ∧ l.Nodup ∧
      ∀ i, i < f.imm.toNat → s.unitOfReg x.w ((s.warp x.w).rb (f.a.code + i)) = some (l.getD i 0) := by
  unfold State.relNames
  rw [hc]
  simp only [Option.ite_none_left_eq_some, Bool.not_eq_true, Option.some.injEq, Bool.or_eq_false_iff, Bool.not_eq_false',
    and_assoc]
  rw [allDistinct_names_iff]
  simp only [beq_eq_false_iff_ne, decide_eq_false_iff_not, not_lt, Nat.one_le_iff_ne_zero, ne_eq]

theorem State.relNames_chans (hc : modBits f.mod 0 3 = 1) {r : BitVec 6} (ha : f.a = .s r) (l : List Nat) :
    s.relNames x f = some l ↔
      1 ≤ f.imm.toNat ∧ f.imm.toNat ≤ 4 ∧ r.toNat + f.imm.toNat ≤ 64 ∧ l.length = f.imm.toNat ∧ l.Nodup ∧
        ∀ i, i < f.imm.toNat → ((s.warp x.w).rs (r.toNat + i)).toNat < 16 ∧
          l.getD i 0 = 16 * s.wcluster x.w + ((s.warp x.w).rs (r.toNat + i)).toNat ∧ l.getD i 0 ∈ (s.wblk x.w).chans := by
  unfold State.relNames
  rw [hc, ha]
  simp only [Option.ite_none_left_eq_some, Bool.not_eq_true, Option.some.injEq, Bool.or_eq_false_iff, Bool.not_eq_false',
    and_assoc]
  rw [allDistinct_names_iff]
  simp only [beq_eq_false_iff_ne, decide_eq_false_iff_not, not_lt, Nat.one_le_iff_ne_zero, ne_eq]
  have hname : ∀ v m : Nat, (if v < 16 && (s.wblk x.w).chans.contains (16 * s.wcluster x.w + v) then
      some (16 * s.wcluster x.w + v) else none) = some m ↔
      v < 16 ∧ m = 16 * s.wcluster x.w + v ∧ m ∈ (s.wblk x.w).chans := by
    intro v m
    simp only [Option.ite_none_right_eq_some, Bool.and_eq_true, decide_eq_true_eq, List.contains_iff_mem,
      Option.some.injEq, and_assoc]
    constructor
    · rintro ⟨hv, hm, rfl⟩
      exact ⟨hv, rfl, hm⟩
    · rintro ⟨hv, rfl, hm⟩
      exact ⟨hv, hm, rfl⟩
  simp only [hname]

theorem State.relNames_granules (hc : modBits f.mod 0 3 = 2) (l : List Nat) : s.relNames x f = some l ↔
    1 ≤ f.imm.toNat ∧ f.imm.toNat ≤ 8 ∧ f.imm.toNat ≤ (s.warp x.w).granules ∧ l = List.replicate f.imm.toNat 0 := by
  unfold State.relNames
  rw [hc]
  simp only [Option.ite_none_left_eq_some, Bool.not_eq_true, Option.some.injEq, Bool.or_eq_false_iff, and_assoc,
    beq_eq_false_iff_ne, decide_eq_false_iff_not, not_lt, Nat.one_le_iff_ne_zero, ne_eq, eq_comm (b := l)]

theorem State.relNames_tiles (hc : modBits f.mod 0 3 = 3) (l : List Nat) : s.relNames x f = some l ↔
    l = (List.range 8).filter (fun z => ((s.warp x.w).word f.a 0 x.first).getLsbD z) ∧
      ∀ z ∈ l, ∃ p, (z, p, false) ∈ (s.wblk x.w).tiles := by
  have hlanes : ∀ m : Word, (lanesOf m).filter (· < 8) = (List.range 8).filter fun z => m.getLsbD z := by
    intro m
    rw [lanesOf, List.filter_comm]
    rfl
  unfold State.relNames
  rw [hc]
  simp only [hlanes, Option.ite_none_right_eq_some, Option.some.injEq]
  constructor
  · rintro ⟨hheld, rfl⟩
    refine ⟨rfl, fun z hz => ?_⟩
    simpa using List.all_eq_true.mp hheld z hz
  · rintro ⟨rfl, hheld⟩
    refine ⟨List.all_eq_true.mpr fun z hz => ?_, rfl⟩
    simpa using hheld z hz

theorem State.relNames_other (hc : 4 ≤ modBits f.mod 0 3) : s.relNames x f = none := by
  unfold State.relNames
  obtain ⟨k, hk⟩ := Nat.exists_eq_add_of_le' hc
  rw [hk]
  rfl

end

/-! ### A region closed (R78, R334) -/

/-- What an accepted irrevocable instruction does last: it closes the region of its warp, and the next slot starts a new restart
region of its entry. -/
def State.closeRegion (a : State) (x : Ix) : State := (a.boundary x).restart x x.ent

section
variable {i : Instr} {s a : State} {x : Ix} {g : Guard}

/-- The close of a region leaves all of a warp but its counts of regions and its threads' region starts. -/
theorem State.closeRegion_warp (a : State) (x : Ix) : (a.closeRegion x).warp x.w =
    { a.warp x.w with
      rsn := (a.warp x.w).rsn + 1, ep := (a.warp x.w).ep + 1, threads := ((a.closeRegion x).warp x.w).threads } := by
  have hwarp : (a.closeRegion x).warp x.w = (a.warp x.w).boundary.restart x.ent (nextCp x.cp) := by
    unfold State.closeRegion State.restart State.boundary
    rw [State.setWarp_warp_self, State.setWarp_warp_self]
  rw [hwarp]
  exact Warp.modThs_rest ..

theorem State.closeRegion_th (a : State) (x : Ix) (hn : x.ent.Nodup) (l : Nat) : ((a.closeRegion x).warp x.w).th l =
    if l ∈ x.ent then { (a.warp x.w).th l with rcp := nextCp x.cp } else (a.warp x.w).th l := by
  unfold State.closeRegion State.restart State.boundary
  rw [State.setWarp_warp_self, State.setWarp_warp_self]
  exact Warp.modThs_th x.ent (a.warp x.w).boundary _ l hn

variable (hx : IxOf s g x) (ha : (a.warp x.w).threads = (s.warp x.w).threads)
include hx ha

/-- A new restart region leaves the entry where it is. -/
theorem State.closeRegion_entLanes : ((a.closeRegion x).warp x.w).entLanes x.cp = x.ent := by
  have hth : ∀ l, (a.warp x.w).th l = (s.warp x.w).th l := fun l => by rw [Warp.th, ha]; rfl
  conv_rhs => rw [hx.ent]
  refine List.filter_congr fun l _ => ?_
  rw [a.closeRegion_th x hx.ent_nodup, hth]
  split <;> rfl

theorem moved_closeRegion : Moved (a.closeRegion x) (State.settle x (.adv (a.closeRegion x))) x :=
  moved_settle (State.closeRegion_entLanes hx ha) hx.ent_nodup

theorem fallsRestarted_closeRegion : FallsRestarted s (State.settle x (.adv (a.closeRegion x))) x := by
  intro l
  have hth : (a.warp x.w).th l = (s.warp x.w).th l := by rw [Warp.th, ha]; rfl
  rw [(moved_closeRegion hx ha).falls l, a.closeRegion_th x hx.ent_nodup, hth]
  by_cases hl : l ∈ x.ent
  · simp only [if_pos hl]
  · simp only [if_neg hl]

end

/-- A completed instruction that closes a region keeps the tables that its own effect left. -/
theorem State.settle_closeRegion_tables (a : State) (x : Ix) :
    (State.settle x (.adv (a.closeRegion x))).blocks = a.blocks ∧
      (State.settle x (.adv (a.closeRegion x))).chans = a.chans ∧
      (State.settle x (.adv (a.closeRegion x))).clusters = a.clusters := ⟨rfl, rfl, rfl⟩

theorem Settles.performs {i : Instr} {s a : State} {x : Ix} {g : Guard} (h : Settles i s x a) (hx : IxOf s g x)
    (ha : (a.warp x.w).entLanes x.cp = x.ent) : Performs i s x a := ⟨_, h, moved_settle ha hx.ent_nodup⟩

/-! ### What goes back (R47, R56) -/

/-- The amount of a block of a warp goes back: to the end of the input queue of its cluster's arbiter, or, in a CONCURRENT grid,
to the block's own reserve. -/
def GoesBack (s t : State) (w cls m : Nat) : Prop :=
  (∀ j, j ≠ s.wcluster w → t.cluster j = s.cluster j) ∧
    t.cluster (s.wcluster w) = { s.cluster (s.wcluster w) with
      queue := (s.cluster (s.wcluster w)).queue ++
        if (s.wgrid w).cls = 1 then [] else [.release (s.wblk w).gang (columnsOf (s.wblk w).core (amounts cls m)) false] }

theorem State.returnClaim_rest (s : State) (w cls n : Nat) :
    s.returnClaim w cls n = { s with clusters := (s.returnClaim w cls n).clusters } := by
  unfold State.returnClaim
  dsimp only
  split <;> rfl

theorem State.returnClaim_goesBack {s t : State} {w : Nat} (hclusters : t.clusters = s.clusters)
    (hcluster : t.wcluster w = s.wcluster w) (hgrid : t.wgrid w = s.wgrid w) (hgang : (t.wblk w).gang = (s.wblk w).gang)
    (hcore : (t.wblk w).core = (s.wblk w).core) (cls n : Nat) : GoesBack s (t.returnClaim w cls n) w cls n := by
  have hsame : ∀ j, t.cluster j = s.cluster j := fun j => by rw [State.cluster, hclusters]; rfl
  unfold State.returnClaim GoesBack
  by_cases hc : (s.wgrid w).cls = 1
  · simp [hgrid, hc, hsame]
  · simp only [hgrid, hc, beq_iff_eq, if_false, State.modCluster_cluster, hcluster, if_true, hgang, hcore, hsame, and_true]
    exact fun j hj => if_neg hj

theorem GoesBack.of_clusters {s t u : State} {w cls m : Nat} (h : GoesBack s t w cls m) (hu : u.clusters = t.clusters) :
    GoesBack s u w cls m := by
  have hsame : ∀ j, u.cluster j = t.cluster j := fun j => by rw [State.cluster, hu]; rfl
  unfold GoesBack
  simp only [hsame]
  exact h

/-! ### What a release leaves of its claimant -/

/-- What a release asks of its warp's claimant is as before: the arbiters, the place, grid and gang of the warp's block, and the
warp's threads. -/
structure SameClaimant (s t : State) (w : Nat) : Prop where
  clusters : t.clusters = s.clusters
  grid : t.wgrid w = s.wgrid w
  gang : (t.wblk w).gang = (s.wblk w).gang
  core : (t.wblk w).core = (s.wblk w).core
  threads : (t.warp w).threads = (s.warp w).threads

section
variable {s t u : State} {w : Nat}

theorem SameClaimant.trans (a : SameClaimant s t w) (b : SameClaimant t u w) : SameClaimant s u w where
  clusters := b.clusters.trans a.clusters
  grid := b.grid.trans a.grid
  gang := b.gang.trans a.gang
  core := b.core.trans a.core
  threads := b.threads.trans a.threads

theorem SameClaimant.of_tables (hc : t.clusters = s.clusters) (hg : t.grids = s.grids) (hb : t.blocks = s.blocks)
    (hw : t.warps = s.warps) : SameClaimant s t w := by
  have hwarp : t.warp w = s.warp w := by rw [State.warp, hw]; rfl
  have hblk : t.wblk w = s.wblk w := by rw [State.wblk, hwarp, State.blk, hb]; rfl
  have hgrid : t.wgrid w = s.wgrid w := by rw [State.wgrid, hblk, State.grid, hg]; rfl
  exact ⟨hc, hgrid, by rw [hblk], by rw [hblk], by rw [hwarp]⟩

/-- A change of a block that leaves its place, grid and gang. -/
theorem SameClaimant.modBlk (s : State) (w b : Nat) {f : Block → Block}
    (hf : ∀ y, (f y).grid = y.grid ∧ (f y).gang = y.gang ∧ (f y).core = y.core) : SameClaimant s (s.modBlk b f) w := by
  have hblk : (s.modBlk b f).wblk w = if (s.warp w).block = b then f (s.blk b) else s.wblk w := by
    show (s.modBlk b f).blk (s.warp w).block = _
    rw [State.modBlk_blk]
    rfl
  have hkept : ((s.modBlk b f).wblk w).grid = (s.wblk w).grid ∧ ((s.modBlk b f).wblk w).gang = (s.wblk w).gang ∧
      ((s.modBlk b f).wblk w).core = (s.wblk w).core := by
    rw [hblk]
    by_cases hb : (s.warp w).block = b
    · rw [if_pos hb, State.wblk, hb]
      exact hf _
    · rw [if_neg hb]
      exact ⟨rfl, rfl, rfl⟩
  obtain ⟨hgrid, hgang, hcore⟩ := hkept
  exact ⟨rfl, congrArg s.grid hgrid, hgang, hcore, rfl⟩

/-- A change of a warp that leaves its block and its threads. -/
theorem SameClaimant.modWarp (s : State) (w v : Nat) {f : Warp → Warp}
    (hf : ∀ y, (f y).block = y.block ∧ (f y).threads = y.threads) : SameClaimant s (s.modWarp v f) w := by
  have hkept : ((s.modWarp v f).warp w).block = (s.warp w).block ∧
      ((s.modWarp v f).warp w).threads = (s.warp w).threads := by
    rw [State.modWarp_warp]
    by_cases hw : w = v
    · rw [if_pos hw, hw]
      exact hf _
    · rw [if_neg hw]
      exact ⟨rfl, rfl⟩
  have hblk : (s.modWarp v f).wblk w = s.wblk w := congrArg s.blk hkept.1
  exact ⟨rfl, congrArg (fun k : Block => s.grid k.grid) hblk, by rw [hblk], by rw [hblk], hkept.2⟩

theorem SameClaimant.foldl {α : Type} (f : State → α → State) (hf : ∀ s a, SameClaimant s (f s a) w) (l : List α)
    (s : State) : SameClaimant s (l.foldl f s) w :=
  List.foldlRecOn l f (motive := fun t => SameClaimant s t w) (.of_tables rfl rfl rfl rfl) fun _ h _ _ => h.trans (hf ..)

theorem SameClaimant.returnClaim_threads (h : SameClaimant s t w) (cls m : Nat) :
    ((t.returnClaim w cls m).warp w).threads = (s.warp w).threads := by
  rw [t.returnClaim_rest]
  exact h.threads

theorem SameClaimant.wcluster (h : SameClaimant s t w) : t.wcluster w = s.wcluster w := congrArg clusterOf h.core

end

/-! ### A release that completes (R51) -/

/-- The effect `u` of a release has happened, what it released has gone back, and its entry has moved on. -/
structure Released (s u t : State) (x : Ix) (cls m : Nat) : Prop where
  falls : FallsRestarted s t x
  back : GoesBack s t x.w cls m
  blocks : t.blocks = u.blocks
  chans : t.chans = u.chans
  regs : (t.warp x.w).v = (u.warp x.w).v ∧ (t.warp x.w).s = (u.warp x.w).s ∧ (t.warp x.w).p = (u.warp x.w).p ∧
    (t.warp x.w).b = (u.warp x.w).b

section
variable {i : Instr} {s u : State} {x : Ix} {g : Guard} {cls m : Nat}
  (h : Settles i s x ((u.returnClaim x.w cls m).closeRegion x)) (hx : IxOf s g x) (hu : SameClaimant s u x.w)
include h hx hu

theorem Settles.released : ∃ t, exec i s = .next t ∧ Released s u t x cls m := by
  have hfalls := fallsRestarted_closeRegion hx (hu.returnClaim_threads cls m)
  obtain ⟨hblocks, hchans, hclusters⟩ := (u.returnClaim x.w cls m).settle_closeRegion_tables x
  have hback := State.returnClaim_goesBack hu.clusters hu.wcluster hu.grid hu.gang hu.core cls m
  have hwarp := settle_adv_rest x ((u.returnClaim x.w cls m).closeRegion x)
  rw [State.closeRegion_warp] at hwarp
  unfold Settles at h
  generalize State.settle x (.adv ((u.returnClaim x.w cls m).closeRegion x)) = t at *
  rw [u.returnClaim_rest] at hblocks hchans hwarp
  exact ⟨t, h, hfalls, hback.of_clusters hclusters, hblocks, hchans, by rw [hwarp]; exact ⟨rfl, rfl, rfl, rfl⟩⟩

theorem Settles.performs_release : Performs i s x ((u.returnClaim x.w cls m).closeRegion x) :=
  h.performs hx (State.closeRegion_entLanes hx (hu.returnClaim_threads cls m))

end

/-! ### `REL` by what it names -/

section
variable {c : Common} {f : FS} {s : State} {x : Ix} (h : Ready s (.rel c f) x)
include h

theorem exec_rel_no_lane (hl : x.lanes = []) : Settles (.rel c f) s x (s.boundary x) := by
  unfold Settles
  rw [exec_rel, execRel, State.issue_ready h, hl]
  rfl

variable (hl : x.lanes ≠ [])
include hl

theorem exec_rel_unnamed (hn : s.relNames x f = none) :
    exec (.rel c f) s = .next (s.raise x.w x.ent (precise 0x21 x.cp)) := by
  rw [exec_rel, execRel, State.issue_ready h, List.isEmpty_eq_false_iff.mpr hl, hn]
  rfl

theorem exec_rel_named {l : List Nat} (hn : s.relNames x f = some l) :
    exec (.rel c f) s = .next (State.settle x (s.releaseNames x f l)) := by
  rw [exec_rel, execRel, State.issue_ready h, List.isEmpty_eq_false_iff.mpr hl, hn]
  rfl

end

/-! ### The effects of a release (R51, R69, R240) -/

/-- n bounded registers of a warp from the k-th on name nothing any more. -/
def State.unnameRegs (s : State) (w k n : Nat) : State :=
  (List.range n).foldl (fun t i => t.modWarp w fun y => y.wb (k + i) { y.rb (k + i) with space := 0 }) s

/-- Units leave their block, with their windows and their races, once the write-backs have left the state `s1`. -/
def State.releaseUnits (s s1 : State) (x : Ix) (f : FS) (l : List Nat) : State :=
  let b := (s.warp x.w).block
  let c := s.wcluster x.w
  ((l.foldl (fun t u => t.clearRaces .plinth (s.chipOf c * 2 ^ 31 + s.unitOff c u) Config.unitBytes)
    (s1.unbind (l.flatMap (s.unitWindows b c)))).unnameRegs x.w f.a.code l.length).modBlk b fun y =>
      { y with units := y.units.filter fun u => !l.contains u.1 }

/-- Channels of the list are as new. -/
def State.renewChans (s : State) (l : List Nat) : State := l.foldl (fun t n => t.modChan n fun _ => {}) s

/-- Channels leave their block, which waits at them no more. -/
def State.releaseChans (s : State) (x : Ix) (l : List Nat) : State :=
  ((s.endWaits (s.warp x.w).block l).renewChans l).modBlk (s.warp x.w).block fun y =>
    { y with chans := y.chans.filter fun n => !l.contains n }

/-- Granules leave their warp. -/
def State.releaseGranules (s : State) (x : Ix) (n : Nat) : State :=
  (s.modWarp x.w fun y => { y with granules := y.granules - n }).modBlk (s.warp x.w).block fun y =>
    { y with dynReg := y.dynReg - n }

/-- Tiles leave their block. -/
def State.releaseTiles (s : State) (x : Ix) (l : List Nat) : State :=
  s.modBlk (s.warp x.w).block fun y => { y with tiles := y.tiles.filter fun t => !l.contains t.1 }

theorem State.renewChans_chan (l : List Nat) (s : State) (n : Nat) :
    (s.renewChans l).chan n = if n ∈ l then {} else s.chan n := by
  unfold State.renewChans
  induction l generalizing s with
  | nil => rfl
  | cons m r ih =>
    rw [List.foldl_cons, ih, State.modChan_chan]
    by_cases hr : n ∈ r <;> by_cases he : n = m <;> simp [hr, he]

theorem State.renewChans_blocks (l : List Nat) (s : State) : (s.renewChans l).blocks = s.blocks :=
  List.foldlRecOn l _ (motive := fun t : State => t.blocks = s.blocks) rfl fun _ h _ _ => h

theorem State.endWaits_tables (s : State) (b : Nat) (l : List Nat) :
    (s.endWaits b l).chans = s.chans ∧ (s.endWaits b l).blocks = s.blocks :=
  List.foldlRecOn (s.blk b).warps _ (motive := fun t : State => t.chans = s.chans ∧ t.blocks = s.blocks) ⟨rfl, rfl⟩
    fun _ h _ _ => h

/-- Bounded registers that name nothing any more: only they of their warp have changed. -/
theorem State.unnameRegs_warp (s : State) (w k n : Nat) :
    (s.unnameRegs w k n).warp w = { s.warp w with b := ((s.unnameRegs w k n).warp w).b } ∧
      ∀ i, i < n → (((s.unnameRegs w k n).warp w).rb (k + i)).space = 0 := by
  induction n with
  | zero => exact ⟨rfl, fun i hi => absurd hi (Nat.not_lt_zero i)⟩
  | succ n ih =>
    obtain ⟨hrest, hspace⟩ := ih
    have hstep : s.unnameRegs w k (n + 1) =
        (s.unnameRegs w k n).modWarp w fun y => y.wb (k + n) { y.rb (k + n) with space := 0 } := by
      rw [State.unnameRegs, List.range_succ, List.foldl_append]
      rfl
    rw [hstep, State.modWarp_warp_self]
    refine ⟨?_, fun i hi => ?_⟩
    · conv_lhs => rw [hrest]
      rfl
    · rw [Warp.rb_wb]
      by_cases hn : i = n
      · rw [if_pos (by omega)]
      · rw [if_neg (by omega)]
        exact hspace i (by omega)

theorem State.unnameRegs_blocks (s : State) (w k n : Nat) : (s.unnameRegs w k n).blocks = s.blocks :=
  List.foldlRecOn (List.range n) _ (motive := fun t : State => t.blocks = s.blocks) rfl fun _ h _ _ => h

theorem State.unnameRegs_sameClaimant (s : State) (w k n : Nat) : SameClaimant s (s.unnameRegs w k n) w := by
  refine SameClaimant.foldl _ (fun t i => ?_) _ s
  exact SameClaimant.modWarp t w w fun _ => ⟨rfl, rfl⟩

section
variable (s : State) (x : Ix)

theorem State.releaseUnits_unnamed {s1 : State} (hs : SameFronts s s1) (f : FS) (l : List Nat) : ∃ u : State,
    (u.clusters = s.clusters ∧ u.grids = s.grids ∧ u.blocks = s.blocks ∧ u.warps = s.warps) ∧
      s.releaseUnits s1 x f l = (u.unnameRegs x.w f.a.code l.length).modBlk (s.warp x.w).block fun y =>
        { y with units := y.units.filter fun u => !l.contains u.1 } := by
  refine ⟨_, ?_, rfl⟩
  have hraces := State.foldl_clearRaces_races .plinth
    (fun u => s.chipOf (s.wcluster x.w) * 2 ^ 31 + s.unitOff (s.wcluster x.w) u) Config.unitBytes l
    (s1.unbind (l.flatMap (s.unitWindows (s.warp x.w).block (s.wcluster x.w))))
  unfold SameButRaces at hraces
  unfold SameFronts at hs
  rw [hraces, hs]
  exact ⟨rfl, rfl, rfl, rfl⟩

theorem State.releaseUnits_sameClaimant {s1 : State} (hs : SameFronts s s1) (f : FS) (l : List Nat) :
    SameClaimant s (s.releaseUnits s1 x f l) x.w := by
  obtain ⟨u, ⟨hc, hg, hb, hw⟩, hu⟩ := s.releaseUnits_unnamed x hs f l
  rw [hu]
  exact ((SameClaimant.of_tables hc hg hb hw).trans (u.unnameRegs_sameClaimant ..)).trans
    (SameClaimant.modBlk _ _ _ fun _ => ⟨rfl, rfl, rfl⟩)

theorem State.releaseUnits_blk {s1 : State} (hs : SameFronts s s1) (f : FS) (l : List Nat) :
    ((s.releaseUnits s1 x f l).blk (s.warp x.w).block).units = (s.wblk x.w).units.filter fun u => !l.contains u.1 := by
  obtain ⟨u, ⟨-, -, hb, -⟩, hu⟩ := s.releaseUnits_unnamed x hs f l
  rw [hu, State.modBlk_blk, if_pos rfl, State.blk, State.unnameRegs_blocks, hb]
  rfl

theorem State.releaseUnits_warp {s1 : State} (hs : SameFronts s s1) (f : FS) (l : List Nat) :
    (s.releaseUnits s1 x f l).warp x.w = { s.warp x.w with b := ((s.releaseUnits s1 x f l).warp x.w).b } ∧
      ∀ i, i < l.length → (((s.releaseUnits s1 x f l).warp x.w).rb (f.a.code + i)).space = 0 := by
  obtain ⟨u, ⟨-, -, -, hw⟩, hu⟩ := s.releaseUnits_unnamed x hs f l
  have hwarp : u.warp x.w = s.warp x.w := by rw [State.warp, hw]; rfl
  rw [hu, ← hwarp]
  exact u.unnameRegs_warp x.w f.a.code l.length

theorem State.releaseChans_sameClaimant (l : List Nat) : SameClaimant s (s.releaseChans x l) x.w := by
  have hwaits : SameClaimant s (s.endWaits (s.warp x.w).block l) x.w := by
    refine SameClaimant.foldl _ (fun t w => ?_) _ s
    exact SameClaimant.modWarp t x.w w fun _ => ⟨rfl, rfl⟩
  have hchans : ∀ t : State, SameClaimant t (t.renewChans l) x.w := by
    refine SameClaimant.foldl _ (fun t n => ?_) l
    exact SameClaimant.of_tables rfl rfl rfl rfl
  refine (hwaits.trans (hchans _)).trans ?_
  exact SameClaimant.modBlk _ _ _ fun _ => ⟨rfl, rfl, rfl⟩

theorem State.releaseChans_blk (l : List Nat) : ((s.releaseChans x l).blk (s.warp x.w).block).chans =
    (s.wblk x.w).chans.filter fun n => !l.contains n := by
  rw [State.releaseChans, State.modBlk_blk, if_pos rfl, State.blk, State.renewChans_blocks, (s.endWaits_tables _ l).2]
  rfl

theorem State.releaseChans_chan (l : List Nat) (n : Nat) :
    (s.releaseChans x l).chan n = if n ∈ l then {} else s.chan n := by
  have hchan : ((s.endWaits (s.warp x.w).block l).renewChans l).chan n = if n ∈ l then {} else s.chan n := by
    rw [State.renewChans_chan, State.chan, (s.endWaits_tables _ l).1]
    rfl
  exact hchan

theorem State.releaseGranules_sameClaimant (n : Nat) : SameClaimant s (s.releaseGranules x n) x.w := by
  unfold State.releaseGranules
  refine .trans (t := s.modWarp x.w fun y => { y with granules := y.granules - n }) ?_ ?_
  · exact SameClaimant.modWarp s x.w x.w fun _ => ⟨rfl, rfl⟩
  · exact SameClaimant.modBlk _ _ _ fun _ => ⟨rfl, rfl, rfl⟩

theorem State.releaseTiles_sameClaimant (l : List Nat) : SameClaimant s (s.releaseTiles x l) x.w :=
  SameClaimant.modBlk _ _ _ fun _ => ⟨rfl, rfl, rfl⟩

end

/-! ### `REL` class by class -/

section
variable {c : Common} {f : FS} {s : State} {x : Ix} (h : Ready s (.rel c f) x) (hl : x.lanes ≠ []) {l : List Nat}
  (hn : s.relNames x f = some l)
include h hl hn

theorem exec_rel_units (hc : modBits f.mod 0 3 = 0)
    (hb : l.any (s.unitBusy (s.warp x.w).block (s.wcluster x.w)) = false) {s1 : State}
    (hw : s.writeBacks (fun p => { p with warp := x.w, pc := x.cp }) .exitWriteBack
      (s.dirtyOf (l.flatMap (s.unitWindows (s.warp x.w).block (s.wcluster x.w)))) = ([], s1))
    (hp : s1.exitParked x.w = false) :
    Settles (.rel c f) s x (((s.releaseUnits s1 x f l).returnClaim x.w (modBits f.mod 0 3) l.length).closeRegion x) := by
  unfold Settles
  rw [exec_rel_named h hl hn]
  congr 2
  unfold State.releaseNames
  rw [hc]
  dsimp only
  rw [hb, hw]
  dsimp only
  rw [hp]
  rfl

theorem exec_rel_chans (hc : modBits f.mod 0 3 = 1) (hq : l.any (fun n => !(s.chan n).queue.isEmpty) = false) :
    Settles (.rel c f) s x (((s.releaseChans x l).returnClaim x.w (modBits f.mod 0 3) l.length).closeRegion x) := by
  unfold Settles
  rw [exec_rel_named h hl hn]
  congr 2
  unfold State.releaseNames
  rw [hc]
  dsimp only
  rw [hq]
  rfl

theorem exec_rel_granules (hc : modBits f.mod 0 3 = 2) :
    Settles (.rel c f) s x (((s.releaseGranules x l.length).returnClaim x.w (modBits f.mod 0 3) l.length).closeRegion x) := by
  unfold Settles
  rw [exec_rel_named h hl hn]
  congr 2
  unfold State.releaseNames
  rw [hc]
  rfl

theorem exec_rel_tiles (hc : modBits f.mod 0 3 = 3) (hb : s.tilesBusy (s.warp x.w).block l = false) :
    Settles (.rel c f) s x (((s.releaseTiles x l).returnClaim x.w (modBits f.mod 0 3) l.length).closeRegion x) := by
  unfold Settles
  rw [exec_rel_named h hl hn]
  congr 2
  unfold State.releaseNames
  rw [hc]
  dsimp only
  rw [hb]
  rfl

/-- A release that waits for writes or operations stays at issue (R240). -/
theorem exec_rel_waits (hb : modBits f.mod 0 3 = 0 ∧ l.any (s.unitBusy (s.warp x.w).block (s.wcluster x.w)) = true ∨
    modBits f.mod 0 3 = 1 ∧ l.any (fun n => !(s.chan n).queue.isEmpty) = true ∨
    modBits f.mod 0 3 = 3 ∧ s.tilesBusy (s.warp x.w).block l = true) : exec (.rel c f) s = .next s := by
  have hkeep : s.releaseNames x f l = .keep s := by
    unfold State.releaseNames
    rcases hb with ⟨hc, hb⟩ | ⟨hc, hb⟩ | ⟨hc, hb⟩ <;>
    · rw [hc]
      dsimp only
      rw [hb]
      rfl
  rw [exec_rel_named h hl hn, hkeep]
  rfl

end

/-! ### `CLAIMRD` (R51, R53) -/

section
variable {c : Common} {f : FS} {s : State} {x : Ix} (h : Ready s (.claimrd c f) x)
include h

theorem exec_claimrd_no_lane (hl : x.lanes = []) : Settles (.claimrd c f) s x s := by
  unfold Settles
  rw [exec_claimrd, execClaimrd, State.issue_ready h, hl]
  rfl

theorem exec_claimrd_reads (hl : x.lanes ≠ []) (hc : modBits f.mod 0 3 < 4) (hd : f.d ≠ .s 63) :
    Settles (.claimrd c f) s x (s.writeD x true f.d 2 fun _ => (s.heldBy (s.warp x.w).block).getD (modBits f.mod 0 3) 0 +
      (s.wgrid x.w).maxClaim.getD (modBits f.mod 0 3) 0 * 2 ^ 32) := by
  have hlegal : (decide (4 ≤ modBits f.mod 0 3) || f.d == .s 63) = false := by
    rw [Bool.or_eq_false_iff, decide_eq_false_iff_not, beq_eq_false_iff_ne]
    exact ⟨Nat.not_le.mpr hc, hd⟩
  unfold Settles
  rw [exec_claimrd, execClaimrd, State.issue_ready h, List.isEmpty_eq_false_iff.mpr hl]
  dsimp only
  rw [hlegal]
  rfl

theorem exec_claimrd_refused (hl : x.lanes ≠ []) (hc : 4 ≤ modBits f.mod 0 3 ∨ f.d = .s 63) :
    exec (.claimrd c f) s = .next (s.raise x.w x.ent (precise 0x21 x.cp)) := by
  have hillegal : (decide (4 ≤ modBits f.mod 0 3) || f.d == .s 63) = true := by simpa using hc
  rw [exec_claimrd, execClaimrd, State.issue_ready h, List.isEmpty_eq_false_iff.mpr hl]
  dsimp only
  rw [hillegal]
  rfl

/-- `CLAIMRD` only computes; with no participating lane it writes nothing. -/
theorem exec_claimrd_answers (hc : modBits f.mod 0 3 < 4) (hd : f.d ≠ .s 63) :
    AnswersD (.claimrd c f) s x true f.d 2 fun _ => (s.heldBy (s.warp x.w).block).getD (modBits f.mod 0 3) 0 +
      (s.wgrid x.w).maxClaim.getD (modBits f.mod 0 3) 0 * 2 ^ 32 := by
  refine ⟨_, ?_, computes_writeD h.ix true f.d 2 _⟩
  by_cases hl : x.lanes = []
  · have hsame : ∀ val, State.settle x (.adv (s.writeD x true f.d 2 val)) = State.settle x (.adv s) := by
      intro val
      have hnone : s.writeD x true f.d 2 val = s.setWarp x.w (s.warp x.w) := by
        unfold State.writeD Ix.targets
        rw [hl]
        rfl
      show (s.writeD x true f.d 2 val).setWarp x.w
        { ((s.writeD x true f.d 2 val).warp x.w).move x.cp [] (fun _ => 0) with hold := none } = _
      rw [hnone, State.setWarp_warp_self]
      unfold State.setWarp
      rw [tset_tset]
      rfl
    rw [hsame]
    exact exec_claimrd_no_lane h hl
  · exact exec_claimrd_reads h hl hc hd

end

/-! ### The unit at an offset (R45, R361) -/

/-- The unit that an offset lies in is the one whose megabyte holds it, when each place of a pool is listed once. -/
theorem State.unitAt_eq_some_iff (s : State) (c off u : Nat) (hpool : ∀ l, (s.cluster c).pool = some l → l.Nodup) :
    s.unitAt c off = some u ↔ u < s.unitCount c ∧ s.unitOff c u ≤ off ∧ off < s.unitOff c u + 2 ^ 20 := by
  have hplace : ∀ p : Nat, (p * 2 ^ 20 ≤ off ∧ off < p * 2 ^ 20 + 2 ^ 20) ↔ off / 2 ^ 20 = p := by
    intro p
    omega
  unfold State.unitAt State.unitCount State.unitOff State.unitSlot
  rw [show Config.unitBytes = 2 ^ 20 from rfl, hplace]
  generalize off / 2 ^ 20 = q
  cases hp : (s.cluster c).pool with
  | none =>
    dsimp only
    rw [Option.ite_none_right_eq_some, Option.some.injEq]
    omega
  | some l =>
    have hl := hpool l hp
    dsimp only
    rw [Option.ite_none_right_eq_some, Option.some.injEq, List.contains_iff_mem]
    constructor
    · rintro ⟨hq, rfl⟩
      have hi := List.idxOf_lt_length_of_mem hq
      exact ⟨hi, by rw [List.getD_eq_getElem _ _ hi, List.getElem_idxOf]⟩
    · rintro ⟨hu, hq⟩
      rw [List.getD_eq_getElem _ _ hu] at hq
      subst hq
      exact ⟨List.getElem_mem hu, hl.idxOf_getElem u hu⟩

/-! ### The request at the head of the queue (R48, R49, R52) -/

/-- The state in which a request is tested: it has left the queue. -/
def State.dequeued (s : State) (cluster : Nat) (r : List ArbOp) : State := s.modCluster cluster fun q => { q with queue := r }

/-- A request passes the safety test (R48). -/
def State.passes (s : State) (w cls n : Nat) : Bool :=
  s.testRequest (s.wblk w).gang (columnsOf (s.wblk w).core (amounts cls n))

theorem State.dequeued_deferred (s : State) (cluster : Nat) (r : List ArbOp) :
    ((s.dequeued cluster r).cluster cluster).deferred = (s.cluster cluster).deferred := by
  rw [State.dequeued, State.modCluster_cluster, if_pos rfl]

/-- A tested request is granted: it is safe, and an `ACQ.TRY` finds room in the deferred list. -/
def State.grants (s : State) (cluster w cls n : Nat) (try_ : Option (BitVec 3)) (r : List ArbOp) : Bool :=
  (s.dequeued cluster r).passes w cls n &&
    !(try_.isSome && decide (128 ≤ ((s.dequeued cluster r).cluster cluster).deferred.length))

theorem State.grants_iff (s : State) (cluster w cls n : Nat) (try_ : Option (BitVec 3)) (r : List ArbOp) :
    s.grants cluster w cls n try_ r = true ↔ (s.dequeued cluster r).passes w cls n = true ∧
      ¬ (try_.isSome = true ∧ 128 ≤ (s.cluster cluster).deferred.length) := by
  rw [State.grants, Bool.and_eq_true, Bool.not_eq_true', ← Bool.not_eq_true, Bool.and_eq_true, decide_eq_true_eq,
    State.dequeued_deferred]

section
variable {cluster w n cls : Nat} {cp : Word} {lanes part : BitVec 32} {d : Opd} {r : List ArbOp} {s : State}

theorem exec_arbiterRequestTest_granted {try_ : Option (BitVec 3)}
    (hq : (s.cluster cluster).queue = .request w cp lanes part cls n d try_ :: r)
    (hg : s.grants cluster w cls n try_ r = true) : exec (.arbiterRequestTest cluster) s =
      .next (((s.dequeued cluster r).grantRequest w cls n d part try_).passRequest w cp (lanesOf lanes)) := by
  rw [exec_arbiterRequestTest, execArbiterRequestTest, hq]
  exact if_pos hg

theorem exec_arbiterRequestTest_try {pd : BitVec 3}
    (hq : (s.cluster cluster).queue = .request w cp lanes part cls n d (some pd) :: r)
    (hg : ¬ s.grants cluster w cls n (some pd) r = true) : exec (.arbiterRequestTest cluster) s =
      .next ((s.dequeued cluster r).modWarp w fun y =>
        { (y.wp pd.toNat part 0).moveOnly cp (lanesOf lanes) [] (fun _ => 0) with acqWait := false, hold := none }) := by
  rw [exec_arbiterRequestTest, execArbiterRequestTest, hq]
  exact if_neg hg

variable (hq : (s.cluster cluster).queue = .request w cp lanes part cls n d none :: r)
  (hg : ¬ s.grants cluster w cls n none r = true)
include hq hg

theorem exec_arbiterRequestTest_full (hf : 128 ≤ (s.cluster cluster).deferred.length) :
    exec (.arbiterRequestTest cluster) s = .next ((s.dequeued cluster r).modWarp w fun y =>
      { y with acqWait := false, acqRefused := cp :: y.acqRefused, hold := none }) := by
  rw [← s.dequeued_deferred cluster r] at hf
  rw [exec_arbiterRequestTest, execArbiterRequestTest, hq]
  exact (if_neg hg).trans (if_pos hf)

theorem exec_arbiterRequestTest_deferred (hf : ¬ 128 ≤ (s.cluster cluster).deferred.length) :
    exec (.arbiterRequestTest cluster) s = .next (((s.dequeued cluster r).modCluster cluster fun q =>
      { q with deferred := q.deferred ++ [.request w cp lanes part cls n d none] }).modWarp w fun y =>
        { y.blockIssue cp (lanesOf lanes) (lanesOf lanes) .acq with acqWait := false }) := by
  rw [← s.dequeued_deferred cluster r] at hf
  rw [exec_arbiterRequestTest, execArbiterRequestTest, hq]
  exact (if_neg hg).trans (if_neg hf)

end

/-! ### The deferred requests and the release (R47, R50) -/

/-- A deferred request that passes its test is granted and leaves the list. -/
def State.grantDeferred (s : State) (cluster : Nat) (op : ArbOp) (w cls n : Nat) (cp : Word) (lanes part : BitVec 32) (d : Opd)
    (try_ : Option (BitVec 3)) : State :=
  ((s.modCluster cluster fun q => { q with deferred := q.deferred.erase op }).grantRequest w cls n d part try_).modWarp w
    fun y => (y.wake (lanesOf lanes) fun _ _ => nextCp cp).restart (lanesOf lanes) (nextCp cp)

theorem State.retest_request (s : State) (cluster w cls n : Nat) (cp : Word) (lanes part : BitVec 32) (d : Opd)
    (try_ : Option (BitVec 3)) (r : List ArbOp) :
    (s.passes w cls n = false → s.retest cluster (.request w cp lanes part cls n d try_ :: r) = s.retest cluster r) ∧
      (s.passes w cls n = true → s.retest cluster (.request w cp lanes part cls n d try_ :: r) =
        (s.grantDeferred cluster (.request w cp lanes part cls n d try_) w cls n cp lanes part d try_).retest cluster r) :=
  ⟨fun hs => if_neg (by rw [← Bool.not_eq_true] at hs; exact hs), fun hs => if_pos hs⟩

/-- What a release takes from a gang's row: all of it at the end of the gang, or the amount, with the claim only in a CONCURRENT
grid (R47, R56; log entry 35). -/
def Gang.giveBack (y : Gang) (concurrent final : Bool) (cols : List Nat) : Gang :=
  if final then { y with alloc := [], claim := [] }
  else
    { y with
      alloc := y.alloc.zipWith (· - ·) cols
      claim := if concurrent then y.claim.zipWith (· - ·) cols else y.claim }

theorem exec_arbiterRelease_head {cluster g : Nat} {cols : List Nat} {final : Bool} {r : List ArbOp} {s : State}
    (hq : (s.cluster cluster).queue = .release g cols final :: r) :
    exec (.arbiterRelease cluster) s = .next (((s.dequeued cluster r).modGang g fun y =>
      y.giveBack ((s.grid y.grid).cls == 1) final cols).retest cluster (s.cluster cluster).deferred) := by
  rw [exec_arbiterRelease, execArbiterRelease, hq, ← State.dequeued_deferred s cluster r]
  rfl

/-- Settles O36: what a `REL` names is read off its class, a release that completes by its effect on the claimant, and the
arbiter by the operation at the head of its queue. -/
theorem claimReleases : Obligations.ClaimReleases := by
  unfold Obligations.ClaimReleases
  refine ⟨?_, ?_, ?_, ?_, ?_⟩
  · intro c f s x w b g k cls n done held names back
    refine ⟨fun l hc => ?_, fun l r hc ha => State.relNames_chans hc ha l, fun l hc => State.relNames_granules hc l,
      fun l hc => State.relNames_tiles hc l, State.relNames_other, fun h hl => ?_, exec_rel_unnamed, ?_, ?_, ?_, ?_, ?_, ?_, ?_,
      ?_, fun h hl => ?_⟩
    · rw [show names = s.relNames x f from rfl, State.relNames_units hc]
      simp only [State.unitOfReg_eq_some_iff]
      rfl
    · exact (exec_rel_no_lane h hl).performs h.ix (by
        rw [h.ix.ent, State.boundary, State.setWarp_warp_self]
        rfl)
    · intro l s1 h hl hc hn hb hw hp
      have hs : SameFronts s s1 := by
        have hfronts := State.writeBacks_fronts (fun p => { p with warp := x.w, pc := x.cp }) .exitWriteBack
          (s.dirtyOf (l.flatMap (s.unitWindows b (s.wcluster x.w)))) s
        rwa [hw] at hfronts
      obtain ⟨t, ht, hrel⟩ := (exec_rel_units h hl hn hc hb hw hp).released h.ix (s.releaseUnits_sameClaimant x hs f l)
      obtain ⟨hv, hsr, hpr, hbr⟩ := hrel.regs
      obtain ⟨hwarp, hspace⟩ := s.releaseUnits_warp x hs f l
      refine ⟨t, ht, hrel.falls, ?_, hrel.back, fun i hi => ?_, ?_, ?_, ?_⟩
      · rw [State.blk, hrel.blocks]
        exact s.releaseUnits_blk x hs f l
      · rw [Warp.rb, hbr]
        exact hspace i hi
      · rw [hv, hwarp]
      · rw [hsr, hwarp]
      · rw [hpr, hwarp]
    · intro l h hl hc hn hq
      obtain ⟨t, ht, hrel⟩ := (exec_rel_chans h hl hn hc hq).released h.ix (s.releaseChans_sameClaimant x l)
      have hchan : ∀ m, t.chan m = if m ∈ l then {} else s.chan m := by
        intro m
        rw [State.chan, hrel.chans]
        exact s.releaseChans_chan x l m
      refine ⟨t, ht, hrel.falls, ?_, hrel.back, fun m hm => ?_, fun m hm => ?_⟩
      · rw [State.blk, hrel.blocks]
        exact s.releaseChans_blk x l
      · rw [hchan, if_pos hm]
      · rw [hchan, if_neg hm]
    · intro h hl hc h1 h8 hn
      have hsettles := exec_rel_granules h hl ((State.relNames_granules hc _).mpr ⟨h1, h8, hn, rfl⟩) hc
      rw [List.length_replicate] at hsettles
      exact hsettles.performs_release h.ix (s.releaseGranules_sameClaimant x n)
    · exact fun t hclusters hcluster hgrid hgang hcore => State.returnClaim_goesBack hclusters hcluster hgrid hgang hcore cls n
    · exact fun l h hl hc hn hb =>
        (exec_rel_tiles h hl hn hc hb).performs_release h.ix (s.releaseTiles_sameClaimant x l)
    · exact fun l h hl hn hb => exec_rel_waits h hl hn hb
    · intro h hc hd
      have hheld : held = (s.heldBy b).getD cls 0 := by
        unfold held
        generalize cls = m at hc
        match m, hc with
        | 0, _ | 1, _ | 2, _ | 3, _ => rfl
      rw [hheld]
      exact exec_claimrd_answers h hc hd
    · exact fun h hl hc => exec_claimrd_refused h hl hc
    · exact (exec_claimrd_no_lane h hl).performs h.ix h.ix.ent.symm
  · exact fun c off u s hpool => s.unitAt_eq_some_iff c off u hpool
  · intro cluster w n cls cp lanes part d try_ r s op s1 b safe ls full hq
    have hgrants := s.grants_iff cluster w cls n try_ r
    have hsafe : (s.dequeued cluster r).passes w cls n = safe := rfl
    rw [hsafe] at hgrants
    refine ⟨fun hs hf => exec_arbiterRequestTest_granted hq (hgrants.mpr ⟨hs, hf⟩), fun pd hs ht => ?_,
      fun hs ht hf => ?_, fun hs ht hf => ?_⟩
    · subst ht
      refine exec_arbiterRequestTest_try hq fun hg => ?_
      obtain ⟨hpass, hroom⟩ := hgrants.mp hg
      exact hs.elim (fun hs => absurd (hs.symm.trans hpass) Bool.false_ne_true) fun hf => hroom ⟨rfl, hf⟩
    · subst ht
      exact exec_arbiterRequestTest_full hq (fun hg => absurd (hs.symm.trans (hgrants.mp hg).1) Bool.false_ne_true) hf
    · subst ht
      exact exec_arbiterRequestTest_deferred hq (fun hg => absurd (hs.symm.trans (hgrants.mp hg).1) Bool.false_ne_true) hf
  · exact fun cluster w n cls cp lanes part d try_ r s => ⟨rfl, s.retest_request cluster w cls n cp lanes part d try_ r⟩
  · intro cluster g cols final r s s1 hq
    have hs1 : s1 = (s.dequeued cluster r).modGang g fun y => y.giveBack ((s.grid y.grid).cls == 1) final cols := by
      unfold s1 Gang.giveBack
      simp only [beq_iff_eq]
      rfl
    rw [hs1]
    exact ⟨exec_arbiterRelease_head hq, fun hd => by rw [exec_arbiterRelease_head hq, hd]; rfl⟩

end Sys2Proof.Machine
end

section
/-! PROOFS. The grids of a context that is restored (O51). -/

namespace Sys2Proof.Machine

/-- A grid number is listed twice, with a grid of context 0 first and one of context 1 behind it that stands in another slice than
its context. -/
def listedTwice : State := { grids := [(0, {}), (0, { ctx := 1, slice := 1 })] }

/-- The number stands for the first of the two, which is not of context 1: neither moves to that context's slice. -/
theorem listedTwice_reslice : (listedTwice.reslice 1).grids = listedTwice.grids := by decide +kernel

theorem listedTwice_ctxSlice : listedTwice.ctxSlice 1 = 0 := Tests.ctxF_nil listedTwice rfl rfl 1 6 3

/-- Refutes O51: its clause of the slice to which a restore gives the grids of a context leaves out the premise that each grid
number is listed once.  The model looks a grid up by its number, so that in `listedTwice` the grid of context 1 keeps slice 1,
where the clause wants its context's slice, which is 0. -/
theorem not_preemption : ¬ Obligations.Preemption := by
  unfold Obligations.Preemption
  rintro ⟨-, -, -, -, hreslice, -⟩
  have hlisted : (0, { ctx := 1, slice := 1 }) ∈ (listedTwice.reslice 1).grids := by
    rw [listedTwice_reslice]
    exact List.mem_cons_of_mem _ List.mem_cons_self
  obtain ⟨hslice, -⟩ := hreslice 1 listedTwice _ hlisted rfl
  rw [listedTwice_ctxSlice] at hslice
  exact absurd hslice (by decide)

end Sys2Proof.Machine
end

section
/-! PROOFS. Acceptance of the operations of the matrix unit (O32). -/

namespace Sys2Proof.Machine

/-! ### A new restart region (R334) -/

/-- A new restart region leaves every entry where it is. -/
theorem Warp.restart_entLanes (w : Warp) {lanes : List Nat} (hn : lanes.Nodup) (c cp : Word) :
    (w.restart lanes c).entLanes cp = w.entLanes cp := by
  refine List.filter_congr fun l _ => ?_
  rw [Warp.restart, Warp.modThs_th _ _ _ _ hn]
  split <;> rfl

/-- An instruction settles with its effect and a new restart region of its entry; the effect leaves the threads alone. -/
theorem Settles.performs_restart {i : Instr} {s a : State} {x : Ix} {g : Guard}
    (h : Settles i s x (a.restart x x.ent)) (hx : IxOf s g x) (ha : (a.warp x.w).threads = (s.warp x.w).threads) :
    Performs i s x (a.restart x x.ent) := by
  refine h.performs hx ?_
  have hth : ∀ l, (a.warp x.w).th l = (s.warp x.w).th l := fun l => by rw [Warp.th, ha]; rfl
  rw [State.restart, State.setWarp_warp_self, Warp.restart_entLanes _ hx.ent_nodup, hx.ent]
  exact List.filter_congr fun l _ => by rw [hth]

/-! ### Acceptance under a flag (R88, R169) -/

/-- An operation is taken and its flag raised in one update of the warp. -/
theorem State.acceptOp_eq (s : State) (x : Ix) (kind : AsyncKind) (flag : Nat) :
    s.acceptOp x kind flag =
      { s.setWarp x.w { s.warp x.w with
          ep := (s.warp x.w).ep + 1, flags := tput 0 (s.warp x.w).flags flag ((s.warp x.w).flag flag + 1) } with
        opCtr := s.opCtr + 1
        ops := tset s.ops s.opCtr
          { warp := x.w, kind := kind, flags := [flag], pc := x.cp, rsn := (s.warp x.w).rsn
            vc := (s.warp x.w).vcNow x.w } } := by
  simp [State.acceptOp, State.takeOp, State.modWarp, State.setWarp, tmod, Warp.flagUp, Warp.flag]

theorem State.acceptOp_restart (s : State) (x : Ix) (kind : AsyncKind) (flag : Nat) :
    (s.acceptOp x kind flag).restart x x.ent = s.accepted x kind flag := by
  rw [State.acceptOp_eq]
  rfl

theorem State.acceptOp_threads (s : State) (x : Ix) (kind : AsyncKind) (flag : Nat) :
    ((s.acceptOp x kind flag).warp x.w).threads = (s.warp x.w).threads := by
  rw [State.acceptOp_eq]
  show ((s.setWarp x.w _).warp x.w).threads = _
  rw [State.setWarp_warp_self]

section
variable {i : Instr} {s : State} {x : Ix} {c : Common} {kind : AsyncKind} {act : Ix → State → Res}
  (h : Ready s i x) (he : exec i s = s.issue false i act) (ha : act x s = s.acceptAct x c kind)
include h he ha

theorem acceptAct_performs (hl : x.lanes ≠ []) (hf : (s.warp x.w).flag (s.fsFlag x c) < 15) :
    Performs i s x (s.accepted x kind (s.fsFlag x c)) := by
  have hroom : s.flagFull x.w (s.fsFlag x c) = false := decide_eq_false (Nat.not_le.mpr hf)
  rw [← State.acceptOp_restart]
  refine Settles.performs_restart ?_ h.ix (s.acceptOp_threads x kind _)
  rw [Settles, he, State.issue_ready h, ha, State.acceptAct, List.isEmpty_eq_false_iff.mpr hl]
  simp only [hroom, Bool.false_eq_true, if_false]

theorem acceptAct_waits (hl : x.lanes ≠ []) (hf : 15 ≤ (s.warp x.w).flag (s.fsFlag x c)) : exec i s = .next s := by
  have hfull : s.flagFull x.w (s.fsFlag x c) = true := decide_eq_true hf
  rw [he, State.issue_ready h, ha, State.acceptAct, List.isEmpty_eq_false_iff.mpr hl]
  simp only [hfull, Bool.false_eq_true, if_false, if_true, State.settle]

theorem acceptAct_no_lane (hl : x.lanes = []) : Performs i s x s := by
  refine performs_of h he ?_ rfl
  rw [ha, State.acceptAct, hl]
  rfl

end

/-- Settles O32: the four instructions are issues of one act, `acceptAct`, which waits on a full flag and otherwise accepts. -/
theorem matrixAcceptance : Obligations.MatrixAcceptance := by
  unfold Obligations.MatrixAcceptance
  intro c f s x w slot bk addr flag r accepts
  have haccepts : ∀ (i : Instr) (kind : AsyncKind) (act : Ix → State → Res), exec i s = s.issue false i act →
      act x s = s.acceptAct x c kind → accepts i kind := fun i kind act he ha =>
    ⟨fun h => acceptAct_performs h he ha, fun h => acceptAct_waits h he ha, fun h => acceptAct_no_lane h he ha⟩
  exact ⟨haccepts _ _ _ (exec_zld c f s) rfl, haccepts _ _ _ (exec_zst c f s) rfl, haccepts _ _ _ (exec_att c f s) rfl,
    haccepts _ _ _ (exec_attfin c f s) rfl⟩

end Sys2Proof.Machine
end

section
/-! PROOFS. Fences, waits and the drain of writes (O28). -/

namespace Sys2Proof.Machine

/-! ### An effect on the issuing warp alone -/

section
variable {s a t : State} {x : Ix} (h : Moved a t x)
include h

theorem Moved.onlyWarp (ha : OnlyWarp s a x.w) : OnlyWarp s t x.w := ha.trans ⟨h.rest, h.others⟩

theorem Moved.fallsThrough (ha : (a.warp x.w).threads = (s.warp x.w).threads) : FallsThrough s t x := by
  intro l
  have hth : (a.warp x.w).th l = (s.warp x.w).th l := by rw [Warp.th, ha]; rfl
  rw [h.falls l, hth]

end

/-! ### What a wait on flags takes (R88) -/

/-- An acquire from flags changes the clocks alone. -/
theorem Warp.flagAcquire_rest (w : Warp) (m : Nat) :
    w.flagAcquire m = { w with vc := (w.flagAcquire m).vc, flagVc := (w.flagAcquire m).flagVc } := by
  unfold Warp.flagAcquire
  refine List.foldlRecOn (motive := fun y : Warp => y = { w with vc := y.vc, flagVc := y.flagVc }) _ _ rfl ?_
  intro y hy n _
  rw [hy]
  rfl

/-! ### What a release waits for (R95, R331) -/

theorem State.releaseCheck_parked {s : State} {x : Ix} (h : s.storeParked x.w = true) :
    s.releaseCheck x = some (.keep s) := by
  rw [State.releaseCheck, if_pos h]

theorem State.releaseCheck_none {s : State} {x : Ix} (h : s.storeParked x.w = false) (hd : (s.warp x.w).drainFaults = []) :
    s.releaseCheck x = none := by
  rw [State.releaseCheck, if_neg (by simp [h]), hd]

theorem ordRel_iff (o : Nat) : ordRel o = true ↔ o = 2 ∨ o = 3 ∨ o = 4 := by simp [ordRel, or_assoc]

theorem ordAcq_iff (o : Nat) : ordAcq o = true ↔ o = 1 ∨ o = 3 ∨ o = 4 := by simp [ordAcq, or_assoc]

/-! ### `FENCE` -/

/-- The warp after a fence and the close of its region: an acquiring fence joins what earlier atomic reads have read, and a
releasing one leaves its clock for later atomic writes (R87). -/
def Warp.fenced (w : Warp) (s : State) (n scope ord : Nat) : Warp :=
  let vc := if ordAcq ord then vcJoin w.vc (s.pairs n scope w.readVc) else w.vc
  { w with
    rsn := w.rsn + 1, ep := w.ep + 1, vc := vc
    fenceVc := if ordRel ord then setFence (vcJoin vc [(2 * n, w.ep + 1)]) scope w.fenceVc else w.fenceVc }

theorem State.fence_boundary (s : State) (x : Ix) (scope ord : Nat) :
    (s.fence x.w scope ord).boundary x = s.setWarp x.w ((s.warp x.w).fenced s x.w scope ord) := by
  unfold State.boundary State.fence Warp.fenced
  rw [State.setWarp_warp_self, State.setWarp, State.setWarp, tset_tset]
  cases ordAcq ord <;> cases ordRel ord <;> rfl

section
variable {c : Common} {f : FS} {s : State} {x : Ix} (h : Ready s (.fence c f) x)
include h

theorem exec_fence_performs (hr : ordRel (modBits f.mod 0 3) = true → s.releaseCheck x = none) :
    Performs (.fence c f) s x (s.setWarp x.w ((s.warp x.w).fenced s x.w (modBits f.mod 3 3) (modBits f.mod 0 3))) := by
  have hnone : (if ordRel (modBits f.mod 0 3) then s.releaseCheck x else none) = none := by
    split
    · exact hr ‹_›
    · rfl
  refine performs_of h (exec_fence c f s) ?_ ?_
  · dsimp only
    rw [hnone, State.fence_boundary]
  · rw [State.setWarp_warp_self]
    rfl

theorem exec_fence_waits (hr : ordRel (modBits f.mod 0 3) = true) (hp : s.storeParked x.w = true) :
    exec (.fence c f) s = .next s := by
  rw [exec_fence, execFence, State.issue_ready h]
  simp only [if_pos hr, State.releaseCheck_parked hp, State.settle]

end

/-! ### `WAITF` -/

section
variable {c : Common} {f : FS} {s : State} {x : Ix} (h : Ready s (.waitf c f) x)
include h

theorem exec_waitf_waits (hc : (s.warp x.w).flagsClear f.imm.toNat = false) : exec (.waitf c f) s = .next s := by
  rw [exec_waitf, execWaitf, State.issue_ready h]
  simp only [hc, Bool.not_false, if_true, State.settle]

variable (hc : (s.warp x.w).flagsClear f.imm.toNat = true)
include hc

theorem exec_waitf_reports {p : PendingFault} (hf : (s.warp x.w).flagFault f.imm.toNat = some p) :
    exec (.waitf c f) s = .next ((s.setWarp x.w ((s.warp x.w).takeFault p)).raise x.w x.ent
      { p.fr with async := true, rpc := x.cp }) := by
  rw [exec_waitf, execWaitf, State.issue_ready h]
  simp only [hc, hf, Bool.not_true, Bool.false_eq_true, if_false, State.settle]

/-- With nothing to report a `WAITF` acquires from its flags, closes the region and moves on. -/
theorem exec_waitf_passes (hf : (s.warp x.w).flagFault f.imm.toNat = none) :
    ∃ t, exec (.waitf c f) s = .next t ∧ OnlyWarp s t x.w ∧ FallsThrough s t x ∧
      t.warp x.w = { s.warp x.w with
        threads := (t.warp x.w).threads, entries := (t.warp x.w).entries, yielding := (t.warp x.w).yielding
        hold := none, rsn := (s.warp x.w).rsn + 1, ep := (s.warp x.w).ep + 1
        vc := (t.warp x.w).vc, flagVc := (t.warp x.w).flagVc } := by
  have hrest := (s.warp x.w).flagAcquire_rest f.imm.toNat
  have hthreads : ((s.setWarp x.w ((s.warp x.w).flagAcquire f.imm.toNat).boundary).warp x.w).threads =
      (s.warp x.w).threads := by
    rw [State.setWarp_warp_self, hrest]
    rfl
  obtain ⟨t, ht, hmoved⟩ : Performs (.waitf c f) s x (s.setWarp x.w ((s.warp x.w).flagAcquire f.imm.toNat).boundary) := by
    refine performs_of h (exec_waitf c f s) ?_ hthreads
    simp only [hc, hf, Bool.not_true, Bool.false_eq_true, if_false]
  refine ⟨t, ht, hmoved.onlyWarp (onlyWarp_setWarp s x.w _), hmoved.fallsThrough hthreads, ?_⟩
  have hkept := hmoved.kept
  rw [KeptAll, State.setWarp_warp_self, hrest] at hkept
  rw [hkept]
  rfl

end

/-! ### `DRAIN` -/

/-- The count of writes that a `DRAIN` at a code pointer waits for: that of its first issue (R236). -/
def Warp.drainGoal (w : Warp) (c : Word) : DWord :=
  match w.drainTo with
  | some (cp, n) => if cp = c then n else w.wissue
  | none => w.wissue

section
variable {c : Common} {f : FS} {s : State} {x : Ix} (h : Ready s (.drain c f) x)
include h

theorem exec_drain_no_lane (hl : x.lanes = []) : Performs (.drain c f) s x s := by
  refine performs_of h (exec_drain c f s) ?_ rfl
  rw [hl]
  rfl

variable (hl : x.lanes ≠ [])
include hl

/-- A `DRAIN` with a participating lane, by what the writes before it have left to report and by its goal. -/
theorem exec_drain_lanes : exec (.drain c f) s = .next (State.settle x
    (match (s.warp x.w).drainFaults with
     | r :: rest => .raise (s.setWarp x.w { s.warp x.w with drainFaults := rest, drainTo := none }) { r with rpc := x.cp }
     | [] =>
       if (s.warp x.w).drainGoal x.cp ≤ (s.warp x.w).wdrain then .adv (s.setWarp x.w { s.warp x.w with drainTo := none })
       else .keep (s.setWarp x.w { s.warp x.w with drainTo := some (x.cp, (s.warp x.w).drainGoal x.cp) }))) := by
  rw [exec_drain, execDrain, State.issue_ready h, List.isEmpty_eq_false_iff.mpr hl]
  simp only [Bool.false_eq_true, if_false, beq_iff_eq]
  rfl

theorem exec_drain_reports {r : FaultRec} {rest : List FaultRec} (hd : (s.warp x.w).drainFaults = r :: rest) :
    exec (.drain c f) s = .next ((s.setWarp x.w { s.warp x.w with drainFaults := rest, drainTo := none }).raise x.w x.ent
      { r with rpc := x.cp }) := by
  rw [exec_drain_lanes h hl, hd]
  rfl

variable (hd : (s.warp x.w).drainFaults = [])
include hd

theorem exec_drain_performs (hg : (s.warp x.w).drainGoal x.cp ≤ (s.warp x.w).wdrain) :
    Performs (.drain c f) s x (s.setWarp x.w { s.warp x.w with drainTo := none }) := by
  have hs : Settles (.drain c f) s x (s.setWarp x.w { s.warp x.w with drainTo := none }) := by
    rw [Settles, exec_drain_lanes h hl, hd]
    simp only [if_pos hg]
  refine hs.performs h.ix ?_
  rw [State.setWarp_warp_self, h.ix.ent]
  rfl

theorem exec_drain_waits (hg : (s.warp x.w).wdrain < (s.warp x.w).drainGoal x.cp) :
    exec (.drain c f) s =
      .next (s.setWarp x.w { s.warp x.w with drainTo := some (x.cp, (s.warp x.w).drainGoal x.cp) }) := by
  rw [exec_drain_lanes h hl, hd]
  simp only [if_neg (BitVec.not_le.mpr hg), State.settle]

end

/-! ### WRITE_DRAINED (R90) -/

theorem exec_writeDrained_counts {k : Nat} {s : State} (h : (s.warp k).wdrain < (s.warp k).wissue)
    (hp : s.writeParked k ((s.warp k).wdrain.toNat + 1) = false) :
    exec (.writeDrained k) s = .next (s.modWarp k fun y => { y with wdrain := y.wdrain + 1 }) := by
  show execWriteDrained k s = _
  rw [execWriteDrained, if_pos (by simp [h, hp])]

theorem exec_writeDrained_idle {k : Nat} {s : State}
    (h : (s.warp k).wissue ≤ (s.warp k).wdrain ∨ s.writeParked k ((s.warp k).wdrain.toNat + 1) = true) :
    exec (.writeDrained k) s = .next s := by
  show execWriteDrained k s = _
  have hidle : ¬ ((s.warp k).wdrain < (s.warp k).wissue && !s.writeParked k ((s.warp k).wdrain.toNat + 1)) = true := by
    simp only [Bool.and_eq_true, decide_eq_true_eq, Bool.not_eq_true', not_and]
    intro hlt hp
    exact h.elim (fun hle => BitVec.not_le.mpr hlt hle) fun ht => Bool.false_ne_true (hp.symm.trans ht)
  rw [execWriteDrained, if_neg hidle]

/-- Settles O28, instruction by instruction: each branch of the three meanings is one lemma. -/
theorem fencesAndWaits : Obligations.FencesAndWaits := by
  unfold Obligations.FencesAndWaits
  refine ⟨?_, fun k s => ⟨exec_writeDrained_counts, exec_writeDrained_idle⟩⟩
  intro c f s x w ord scope acquires releases vc done m goal
  have hrel : ordRel ord = true ↔ releases := ordRel_iff ord
  have hacq : ordAcq ord = true ↔ acquires := ordAcq_iff ord
  have hdone : w.fenced s x.w scope ord = done := by
    simp only [Warp.fenced, hrel, hacq, done, vc]
  refine ⟨fun h hr => ?_, fun h hr hp => exec_fence_waits h (hrel.mpr hr) hp, exec_waitf_waits,
    fun p h hc hf => exec_waitf_reports h hc hf, exec_waitf_passes, exec_drain_no_lane, exec_drain_performs,
    exec_drain_waits, fun r rest h hl hd => exec_drain_reports h hl hd⟩
  rw [← hdone]
  exact exec_fence_performs h fun ho => (hr (hrel.mp ho)).elim State.releaseCheck_none

end Sys2Proof.Machine
end

section
/-! PROOFS. Barriers (O29). -/

namespace Sys2Proof.Machine

/-! ### The steps of a barrier (R80, R234) -/

/-- The arrival of the issuing warp at a barrier in a generation is on record. -/
def State.arrived (s : State) (x : Ix) (gang : Bool) (gen : Nat) : State :=
  s.modWarp x.w fun w =>
    if gang then { w with gbar := some gen, hold := some x.cp } else { w with bar := some gen, hold := some x.cp }

/-- Every listed warp acquires a clock. -/
def State.acquireAll (s : State) (v : Tab Nat) (l : List Nat) : State := l.foldl (fun t k => t.modWarp k fun w => w.acquire v) s

/-- The issuing warp leaves the barrier it has passed, and its region ends. -/
def State.passed (s : State) (x : Ix) (gang : Bool) : State :=
  s.modWarp x.w fun w =>
    if gang then { w with gbar := none, rsn := w.rsn + 1, ep := w.ep + 1 }
    else { w with bar := none, rsn := w.rsn + 1, ep := w.ep + 1 }

/-- The warps at a barrier that have not retired. -/
def State.atBarrier (s : State) (all : List Nat) : List Nat := all.filter fun v => !(s.warp v).retired

theorem State.passBar_boundary (s : State) (x : Ix) (gang : Bool) :
    (s.modWarp x.w fun w => w.passBar gang).boundary x = s.passed x gang := by
  rw [State.boundary, State.modWarp_warp_self, State.setWarp, State.modWarp, tmod, tset_tset]
  cases gang <;> rfl

theorem State.arrived_threads (s : State) (x : Ix) (gang : Bool) (gen : Nat) :
    ((s.arrived x gang gen).warp x.w).threads = (s.warp x.w).threads := by
  rw [State.arrived, State.modWarp_warp_self]
  cases gang <;> rfl

theorem State.passed_threads (s : State) (x : Ix) (gang : Bool) :
    ((s.passed x gang).warp x.w).threads = (s.warp x.w).threads := by
  rw [State.passed, State.modWarp_warp_self]
  cases gang <;> rfl

/-- An acquire changes warps alone, and no thread. -/
theorem State.acquireAll_rest (v : Tab Nat) (l : List Nat) (s : State) :
    s.acquireAll v l = { s with warps := (s.acquireAll v l).warps } ∧
      ∀ k, ((s.acquireAll v l).warp k).threads = (s.warp k).threads := by
  unfold State.acquireAll
  refine List.foldlRecOn (motive := fun t : State =>
    t = { s with warps := t.warps } ∧ ∀ k, (t.warp k).threads = (s.warp k).threads) _ _ ⟨rfl, fun _ => rfl⟩ ?_
  rintro t ⟨hrest, hthreads⟩ j _
  refine ⟨by rw [hrest]; rfl, fun k => ?_⟩
  rw [State.modWarp_warp, ← hthreads]
  split
  · subst k; rfl
  · rfl

theorem State.acquireAll_blk (s : State) (v : Tab Nat) (l : List Nat) (b : Nat) : (s.acquireAll v l).blk b = s.blk b := by
  rw [(State.acquireAll_rest v l s).1]
  rfl

theorem State.acquireAll_gang (s : State) (v : Tab Nat) (l : List Nat) (g : Nat) : (s.acquireAll v l).gang g = s.gang g := by
  rw [(State.acquireAll_rest v l s).1]
  rfl

/-- A warp that has still to pass this generation arrives. -/
theorem State.barrier_eq_arrive {s : State} {x : Ix} {gang : Bool} {gen : Nat} (all : List Nat) (next : State → State)
    (hr : s.releaseCheck x = none) (hat : ∀ k, (s.warp x.w).barOf gang = some k → gen ≤ k) :
    s.barrier x gang gen all next = s.arrive x gang gen all next fun t => .adv (t.passed x gang) := by
  rw [State.barrier, hr]
  simp only [State.passBar_boundary]
  cases hb : (s.warp x.w).barOf gang with
  | none => rfl
  | some k => simp only [if_neg (Nat.not_lt.mpr (hat k hb))]

/-! ### An instruction that is a barrier -/

section
variable {i : Instr} {s : State} {x : Ix} {gang : Bool} {gen : Nat} {all : List Nat} {next : State → State}
  {act : Ix → State → Res} (h : Ready s i x) (he : exec i s = s.issue false i act)
  (ha : act x s = s.barrier x gang gen all next) (hr : s.releaseCheck x = none)
include h he ha hr

/-- A warp whose barrier has released goes on. -/
theorem barrier_released {k : Nat} (hat : (s.warp x.w).barOf gang = some k) (hk : k < gen) :
    Performs i s x (s.passed x gang) := by
  refine performs_of h he ?_ (s.passed_threads x gang)
  rw [ha, State.barrier, hr]
  simp only [hat, if_pos hk, State.passBar_boundary]

/-- While a warp is missing only the arrival is recorded. -/
theorem barrier_waits (hat : ∀ k, (s.warp x.w).barOf gang = some k → gen ≤ k) {v : Nat}
    (hv : v ∈ (s.arrived x gang gen).atBarrier all)
    (hmiss : ((s.arrived x gang gen).warp v).barOf gang ≠ some gen) : exec i s = .next (s.arrived x gang gen) := by
  have hall : ((s.arrived x gang gen).atBarrier all).all
      (fun v => ((s.arrived x gang gen).warp v).barOf gang == some gen) = false :=
    List.all_eq_false.mpr ⟨v, hv, by simpa using hmiss⟩
  rw [he, State.issue_ready h, ha, State.barrier_eq_arrive all next hr hat]
  exact congrArg (fun r => Host.Outcome.next (State.settle x r)) (if_neg (ne_true_of_eq_false hall))

/-- The arrival that completes the barrier advances its generation; every warp there is ordered after all of them. -/
theorem barrier_completes (hat : ∀ k, (s.warp x.w).barOf gang = some k → gen ≤ k)
    (hnext : ∀ u, (next u).warps = u.warps)
    (hall : ∀ v ∈ (s.arrived x gang gen).atBarrier all, ((s.arrived x gang gen).warp v).barOf gang = some gen) :
    Performs i s x ((next ((s.arrived x gang gen).acquireAll
      ((s.arrived x gang gen).joinClock ((s.arrived x gang gen).atBarrier all))
      ((s.arrived x gang gen).atBarrier all))).passed x gang) := by
  have hcomplete : ((s.arrived x gang gen).atBarrier all).all
      (fun v => ((s.arrived x gang gen).warp v).barOf gang == some gen) = true :=
    List.all_eq_true.mpr fun v hv => by simpa using hall v hv
  refine performs_of h he (ha.trans ((State.barrier_eq_arrive all next hr hat).trans (if_pos hcomplete))) ?_
  rw [State.passed_threads, State.warp, hnext]
  exact ((State.acquireAll_rest _ _ _).2 x.w).trans (s.arrived_threads x gang gen)

/-- The three ways of an attempt at a barrier. -/
theorem barrier_cases (hnext : ∀ u, (next u).warps = u.warps) :
    let s1 := s.arrived x gang gen
    let here := s1.atBarrier all
    ((∀ k, (s.warp x.w).barOf gang = some k → gen ≤ k) → (∃ v ∈ here, (s1.warp v).barOf gang ≠ some gen) →
      exec i s = .next s1) ∧
    ((∀ k, (s.warp x.w).barOf gang = some k → gen ≤ k) → (∀ v ∈ here, (s1.warp v).barOf gang = some gen) →
      Performs i s x ((next (s1.acquireAll (s1.joinClock here) here)).passed x gang)) ∧
    ∀ k, (s.warp x.w).barOf gang = some k → k < gen → Performs i s x (s.passed x gang) :=
  ⟨fun hat ⟨_, hv, hmiss⟩ => barrier_waits h he ha hr hat hv hmiss,
    fun hat hall => barrier_completes h he ha hr hat hnext hall, fun _ hat hk => barrier_released h he ha hr hat hk⟩

end

/-- Settles O29: `BAR` and `GBAR` are the same barrier, over a block and over a gang. -/
theorem barriers : Obligations.Barriers := by
  unfold Obligations.Barriers
  intro c f s x gang i b g gen all at_ s1 here s2 s3 passed h hp hd
  have hr : s.releaseCheck x = none := State.releaseCheck_none hp hd
  cases gang with
  | false =>
    have hnext : s3 = s2.modBlk b fun k => { k with barGen := k.barGen + 1 } := by
      have hgen : gen = (s2.blk b).barGen := congrArg Block.barGen (s1.acquireAll_blk _ here b).symm
      show s2.modBlk b (fun k => { k with barGen := gen + 1 }) = _
      rw [hgen]
      rfl
    rw [hnext]
    exact barrier_cases h (exec_bar c f s) rfl hr fun _ => rfl
  | true =>
    have hnext : s3 = s2.modGang g fun k => { k with gbarGen := k.gbarGen + 1 } := by
      have hgen : gen = (s2.gang g).gbarGen := congrArg Gang.gbarGen (s1.acquireAll_gang _ here g).symm
      show s2.modGang g (fun k => { k with gbarGen := gen + 1 }) = _
      rw [hgen]
      rfl
    rw [hnext]
    exact barrier_cases h (exec_gbar c f s) rfl hr fun _ => rfl

end Sys2Proof.Machine
end

section
/-! PROOFS. The `WAIT` check of a line (O19). -/

namespace Sys2Proof.Machine

/-! ### What the choice of issue depends on (R25, R28) -/

/-- Two states of a warp agree in what R25 and a guard look at: threads, predicates, the entry waited at, and the ages of
entries. -/
structure SameChoice (a b : Warp) : Prop where
  threads : b.threads = a.threads
  p : b.p = a.p
  hold : b.hold = a.hold
  age : ∀ c, (b.entry c).age = (a.entry c).age
  aged : ∀ c, (b.entry c).aged = (a.entry c).aged

theorem SameChoice.refl (a : Warp) : SameChoice a a := ⟨rfl, rfl, rfl, fun _ => rfl, fun _ => rfl⟩

section
variable {a b : Warp} (h : SameChoice a b)
include h

theorem SameChoice.th (l : Nat) : b.th l = a.th l := by rw [Warp.th, h.threads]; rfl

theorem SameChoice.entLanes (c : Word) : b.entLanes c = a.entLanes c := by simp only [Warp.entLanes, h.th]

theorem SameChoice.guard (g : Guard) (l : Nat) : b.guard g l = a.guard g l := by
  cases g <;> simp only [Warp.guard, Warp.rp, h.p]

theorem SameChoice.before (c d : Word) : b.before c d = a.before c d := by
  simp [Warp.before, Entry.isAged, h.age, h.aged]

theorem SameChoice.best (ls : List Nat) : b.best ls = a.best ls := by
  induction ls with
  | nil => rfl
  | cons l r ih => simp only [Warp.best, ih, h.th, h.before]

theorem SameChoice.choice : b.choice = a.choice := by
  simp only [Warp.choice, Warp.lanesWhere, h.hold, h.th, h.entLanes, h.best]

end

theorem State.pick_of_sameChoice {s t : State} {w : Nat} (h : SameChoice (s.warp w) (t.warp w)) (g : Guard) :
    t.pick w g = s.pick w g := by
  simp only [State.pick, h.choice, h.entLanes, h.guard]

/-! ### What a passed `WAIT` check leaves (R78, R88, R168) -/

/-- The issuing warp after a passed `WAIT` check: it has acquired from the flags, its region has ended, and its entry waits no
more in this line. -/
def Warp.waitPassed (w : Warp) (c : Word) : Warp :=
  let w1 := (w.flagAcquire (lwWait (lineWord (w.entry c).line))).boundary
  { w1 with entries := tset w1.entries c.toNat { w.entry c with waited := true } }

theorem State.waitDone_eq (s : State) (x : Ix) :
    s.waitDone x =
      if ((s.warp x.w).entry x.cp).waited || lwWait (lineWord ((s.warp x.w).entry x.cp).line) == 0 then s
      else s.setWarp x.w ((s.warp x.w).waitPassed x.cp) := rfl

theorem Warp.waitPassed_entry (w : Warp) (c d : Word) :
    (w.waitPassed c).entry d = if d = c then { w.entry c with waited := true } else w.entry d := by
  unfold Warp.waitPassed
  rw [Warp.flagAcquire_rest]
  show tget {} (tset w.entries c.toNat _) d.toNat = _
  simp only [tget_tset, BitVec.toNat_inj]
  rfl

/-- A passed check changes of its warp the region, the clocks and the entries alone. -/
theorem Warp.waitPassed_rest (w : Warp) (c : Word) :
    w.waitPassed c = { w with
      rsn := w.rsn + 1, ep := w.ep + 1, vc := (w.waitPassed c).vc, flagVc := (w.waitPassed c).flagVc
      entries := (w.waitPassed c).entries } := by
  unfold Warp.waitPassed
  rw [Warp.flagAcquire_rest]
  rfl

theorem Warp.waitPassed_sameChoice (w : Warp) (c : Word) : SameChoice w (w.waitPassed c) := by
  have hrest := w.waitPassed_rest c
  refine ⟨by rw [hrest], by rw [hrest], by rw [hrest], fun d => ?_, fun d => ?_⟩ <;>
  · rw [w.waitPassed_entry]
    split
    · subst d; rfl
    · rfl

section
variable (s : State) (x : Ix)

theorem State.waitDone_sameChoice : SameChoice (s.warp x.w) ((s.waitDone x).warp x.w) := by
  rw [State.waitDone_eq]
  split
  · exact .refl _
  · rw [State.setWarp_warp_self]
    exact Warp.waitPassed_sameChoice _ _

theorem State.waitDone_waited : (((s.waitDone x).warp x.w).entry x.cp).waited =
    (((s.warp x.w).entry x.cp).waited || lwWait (lineWord ((s.warp x.w).entry x.cp).line) != 0) := by
  rw [State.waitDone_eq]
  by_cases h : (((s.warp x.w).entry x.cp).waited || lwWait (lineWord ((s.warp x.w).entry x.cp).line) == 0) = true
  · rw [if_pos h]
    rw [Bool.or_eq_true, beq_iff_eq] at h
    rcases h with h | h <;> simp [h]
  · rw [if_neg h, State.setWarp_warp_self, Warp.waitPassed_entry, if_pos rfl]
    rw [Bool.or_eq_true, beq_iff_eq, not_or] at h
    simp [h.2]

theorem State.waitDone_line :
    (((s.waitDone x).warp x.w).entry x.cp).line = ((s.warp x.w).entry x.cp).line := by
  rw [State.waitDone_eq]
  split
  · rfl
  · rw [State.setWarp_warp_self, Warp.waitPassed_entry, if_pos rfl]

/-- The check of a line is done once: after it nothing is left to check. -/
theorem State.waitDone_done :
    (s.waitDone x).waitCheck x = none ∧ (s.waitDone x).waitDone x = s.waitDone x := by
  refine State.waitCheck_done ?_
  rw [State.waitDone_waited, State.waitDone_line]
  by_cases h : lwWait (lineWord ((s.warp x.w).entry x.cp).line) = 0
  · exact .inr h
  · exact .inl (by simp [h])

theorem State.waitDone_cur : (s.waitDone x).cur = s.cur := by
  rw [State.waitDone_eq]
  split <;> rfl

theorem State.waitDone_mayIssue : (s.waitDone x).mayIssue x.w = s.mayIssue x.w := by
  rw [State.waitDone_eq]
  split
  · rfl
  · have hblk : (s.setWarp x.w ((s.warp x.w).waitPassed x.cp)).wblk x.w = s.wblk x.w := by
      rw [State.wblk, State.setWarp_warp_self, Warp.waitPassed_rest]
      rfl
    have hctx : (s.setWarp x.w ((s.warp x.w).waitPassed x.cp)).wctx x.w = s.wctx x.w := by
      rw [State.wctx, State.wgrid, hblk]
      rfl
    rw [State.mayIssue, hblk, hctx, State.setWarp_warp_self, Warp.waitPassed_rest]
    rfl

end

/-! ### An issue before and after its check -/

section
variable {s : State} {x : Ix} {i : Instr} (hv : i.view.isSome = true)
include hv

/-- An instruction that has a word, issued for the chosen entry. -/
theorem exec_issueAt (x : Ix) : ∃ act, ∀ t : State, t.pick t.cur i.common.grd = some x →
    exec i t = if t.mayIssue x.w then .next (State.settle x (t.issueAt false x i act)) else .next t := by
  obtain ⟨act, hact⟩ := exec_is_issue i hv
  refine ⟨act, fun t ht => ?_⟩
  rw [hact, State.issue, ht, (ixOf_of_pick ht).w]
  cases t.mayIssue t.cur <;> rfl

variable (hp : s.pick s.cur i.common.grd = some x)
include hp

theorem exec_line_waits (hw : ((s.warp x.w).entry x.cp).waited = false)
    (hf : (s.warp x.w).flagsClear (lwWait (lineWord ((s.warp x.w).entry x.cp).line)) = false) :
    exec i s = .next s := by
  obtain ⟨act, hact⟩ := exec_issueAt hv x
  have hm : lwWait (lineWord ((s.warp x.w).entry x.cp).line) ≠ 0 := by
    intro h0
    have hmask : maskFlags 0 = [] := by decide
    simp [h0, Warp.flagsClear, hmask] at hf
  have hcheck : s.waitCheck x = some (.keep s) := by simp [State.waitCheck, hw, hm, hf]
  rw [hact s hp, State.issueAt, hcheck]
  split <;> rfl

variable (hm : s.mayIssue s.cur = true) (hc : s.waitCheck x = none)
include hm hc

/-- Once the check has passed, the instruction is performed as in the state in which it is done. -/
theorem exec_waitDone : exec i s = exec i (s.waitDone x) := by
  obtain ⟨act, hact⟩ := exec_issueAt hv x
  have hw := (ixOf_of_pick hp).w
  obtain ⟨hcheck, hdone⟩ := s.waitDone_done x
  have hpick : (s.waitDone x).pick (s.waitDone x).cur i.common.grd = some x := by
    rw [State.waitDone_cur, ← hp, ← hw]
    exact State.pick_of_sameChoice (s.waitDone_sameChoice x) _
  rw [hact s hp, hact _ hpick, State.waitDone_mayIssue, hw, hm, if_pos rfl, if_pos rfl]
  simp only [State.issueAt, hc, hcheck, hdone]

theorem exec_awaits (ha : (s.waitDone x).awaits x i = true) : exec i s = .next (s.waitDone x) := by
  obtain ⟨act, hact⟩ := exec_issueAt hv x
  rw [hact s hp, (ixOf_of_pick hp).w, hm]
  simp only [State.issueAt, hc, ha, if_true, State.settle]

end

/-- Settles O19: every instruction with a word is an issue, and the check of its line is the first thing that an issue does. -/
theorem lineWait : Obligations.LineWait := by
  unfold Obligations.LineWait
  exact ⟨fun s x i hv hp hw hf => exec_line_waits hv hp hw hf, fun s x i hv hp hm hc =>
    ⟨exec_waitDone hv hp hm hc, s.waitDone_waited x, exec_awaits hv hp hm hc⟩⟩

end Sys2Proof.Machine
end

section
/-! PROOFS. Loads and stores that pass their checks (O23). -/

namespace Sys2Proof.Machine

/-! ### What an access to local memory may change -/

section
variable {s t u : State} {w : Nat} {sp : Space}

theorem OnlyWarp.onlyLocal (h : OnlyWarp s t w) (sp : Space) : OnlyLocal s t w sp :=
  ⟨by rw [h.rest], h.others, fun _ => by rw [h.rest], fun _ => by rw [h.rest]; exact ⟨rfl, rfl⟩⟩

theorem OnlyLocal.trans (a : OnlyLocal s t w sp) (b : OnlyLocal t u w sp) : OnlyLocal s u w sp where
  rest := by rw [b.rest, a.rest]
  others k hk := (b.others k hk).trans (a.others k hk)
  shared h := (b.shared h).trans (a.shared h)
  plinth h := ⟨(b.plinth h).1.trans (a.plinth h).1, (b.plinth h).2.trans (a.plinth h).2⟩

end

theorem settle_adv_onlyWarp (x : Ix) (t : State) : OnlyWarp t (State.settle x (.adv t)) x.w :=
  ⟨(settle_adv_frame x t).1, (settle_adv_frame x t).2⟩

/-- The records of race detection of one state stand in another. -/
def State.withRecords (s t : State) : State :=
  { s with
    raceShared := t.raceShared, racePlinth := t.racePlinth, relShared := t.relShared, relPlinth := t.relPlinth }

theorem State.recordAcc_rest (s : State) (sp : Space) (k n : Nat) (a : Acc) :
    s.recordAcc sp k n a = s.withRecords (s.recordAcc sp k n a) := by
  unfold State.recordAcc State.setRaces State.setRels
  dsimp only
  split <;> cases sp <;> rfl

/-- Recording accesses changes the records of race detection alone. -/
theorem State.recordAll_rest (sp : Space) (n : Nat) (acc : Nat → Acc) (l : List (Nat × Nat)) : ∀ s : State,
    s.recordAll sp n acc l = s.withRecords (s.recordAll sp n acc l) := by
  induction l with
  | nil => intro s; rfl
  | cons p r ih =>
    intro s
    rw [State.recordAll, ih, State.recordAcc_rest]
    rfl

theorem onlyLocal_withRecords (s t : State) (w : Nat) (sp : Space) : OnlyLocal s (s.withRecords t) w sp :=
  ⟨rfl, fun _ _ => rfl, fun _ => rfl, fun _ => ⟨rfl, rfl⟩⟩

theorem State.recordAll_onlyLocal (s : State) (w : Nat) (sp : Space) (n : Nat) (acc : Nat → Acc) (l : List (Nat × Nat)) :
    OnlyLocal s (s.recordAll sp n acc l) w sp := by
  rw [State.recordAll_rest]
  exact onlyLocal_withRecords ..

/-! ### Writing a local space (R68) -/

theorem State.dirty_rest (s : State) (l : List (Nat × Byte)) : s.dirty l = { s with windows := (s.dirty l).windows } := by
  unfold State.dirty
  refine List.foldlRecOn (motive := fun t : State => t = { s with windows := t.windows }) _ _ rfl ?_
  intro t ht p _
  dsimp only
  split
  · rw [ht]
  · exact ht

theorem State.putLocal_bytes (s : State) (sp : Space) (l : List (Nat × Byte)) :
    (s.putLocal sp l).bytes sp = wrList (s.bytes sp) l := by
  cases sp <;> rfl

theorem State.putLocal_plinth_rest (s : State) (l : List (Nat × Byte)) :
    s.putLocal .plinth l = { s with
      plinth := (s.putLocal .plinth l).plinth, windows := (s.putLocal .plinth l).windows
      poisonPlinth := (s.putLocal .plinth l).poisonPlinth } := by
  unfold State.putLocal
  dsimp only
  split
  · rfl
  · rw [State.dirty_rest]

theorem State.putLocal_warps (s : State) (sp : Space) (l : List (Nat × Byte)) : (s.putLocal sp l).warps = s.warps := by
  cases sp with
  | shared => rfl
  | plinth => rw [State.putLocal_plinth_rest]

theorem State.putLocal_onlyLocal (s : State) (w : Nat) (sp : Space) (l : List (Nat × Byte)) :
    OnlyLocal s (s.putLocal sp l) w sp := by
  cases sp with
  | shared => exact ⟨rfl, fun _ _ => rfl, fun h => absurd rfl h, fun _ => ⟨rfl, rfl⟩⟩
  | plinth =>
    rw [State.putLocal_plinth_rest]
    exact ⟨rfl, fun _ _ => rfl, fun _ => rfl, fun h => absurd rfl h⟩

/-! ### The lanes that access -/

theorem Warp.entLanes_ascending (w : Warp) (c : Word) : (w.entLanes c).Pairwise (· < ·) := List.pairwise_lt_range.filter _

/-- The lanes that access, or the one lane of a uniform form, stand in ascending order (R77). -/
theorem IxOf.targets_ascending {s : State} {g : Guard} {x : Ix} (h : IxOf s g x) (u : Bool) :
    (x.targets u).Pairwise (· < ·) := by
  have hlanes : x.lanes.Pairwise (· < ·) := by
    rw [h.lanes, h.ent]
    exact (Warp.entLanes_ascending _ _).filter _
  cases u
  · exact hlanes
  · exact hlanes.sublist (List.take_sublist _ _)

/-! ### An access whose checks find nothing (R60, R67, R82) -/

section
variable {s r : State} {x : Ix} {f : FM} {u : Bool} {need : Need} {n : Nat} {sp : Space} {wr : Nat → Bool} {atomic : Bool}
  (h : Passes s r x f u need n sp wr atomic)
include h

theorem Passes.fillNeed :
    (if sp == .plinth then s.fillNeed x.w ((s.keysAt x f u n sp).map (·.2)) n else .filled) = .filled := by
  cases sp with
  | shared => rfl
  | plinth =>
    have hkeys : (s.keysAt x f u n .plinth).map (·.2) = (x.targets u).map (s.keyAt x f n .plinth) := List.map_map
    rw [if_pos (beq_self_eq_true _), State.fillNeed, hkeys, h.filled rfl]
    split <;> rfl

/-- The access is performed at the lanes' keys, with every chunk filled. -/
theorem Passes.access (act : Space → List (Nat × Nat) → List (Nat × Nat) → State → Res) :
    s.access x f u need n act = act sp (s.keysAt x f u n sp) [] s := by
  have hkeys : (s.eas x f u n).map (fun (l, a) => (l, s.keyOf x.w sp a.toNat)) = s.keysAt x f u n sp := List.map_map
  have hfill := h.fillNeed
  rw [State.access, h.bound, h.space]
  simp only [hkeys, hfill]

theorem Passes.raceCheck : r.raceCheck x sp n (s.keysAt x f u n sp) wr atomic = .ok r := by
  rw [State.raceCheck, h.race]
  simp only [h.metaOk]

end

/-! ### `LD` (R223, R225) -/

theorem rdNat_lt (m : List Host.Cell) (a n : Nat) : rdNat m a n < 256 ^ n := by
  induction n generalizing a with
  | zero => exact Nat.one_pos
  | succ n ih =>
    have hb := (rdByte m a).isLt
    have hr := ih (a + 1)
    rw [rdNat, pow_succ]
    omega

/-- A narrow two's complement number of w bits, extended to 32. -/
theorem unsigned_signed {w v : Nat} (h32 : w ≤ 32) (h : v < 2 ^ w) :
    unsigned 32 (signed w v) = if 2 ^ (w - 1) ≤ v then v + 2 ^ 32 - 2 ^ w else v := by
  have hle : 2 ^ w ≤ 2 ^ 32 := Nat.pow_le_pow_right (by decide) h32
  have hpos : 0 < 2 ^ (w - 1) := Nat.two_pow_pos _
  rw [unsigned, signed, Nat.mod_eq_of_lt h]
  generalize 2 ^ w = k at *
  by_cases hs : v < 2 ^ (w - 1)
  · rw [if_pos hs, if_neg (Nat.not_le.mpr hs)]
    omega
  · rw [if_neg hs, if_pos (Nat.not_lt.mp hs)]
    omega

/-- What a load writes to its register: the bytes read, a narrow signed integer extended. -/
theorem loadVal_eq (t : Ty) {v : Nat} (h : v < 256 ^ t.bytes) :
    loadVal t v =
      if t = .s8 ∧ 2 ^ 7 ≤ v then v + 2 ^ 32 - 2 ^ 8
      else if t = .s16 ∧ 2 ^ 15 ≤ v then v + 2 ^ 32 - 2 ^ 16
      else v := by
  cases t with
  | s8 =>
    have h8 : v < 2 ^ 8 := h
    simpa [loadVal] using unsigned_signed (by decide) h8
  | s16 =>
    have h16 : v < 2 ^ 16 := h
    simpa [loadVal] using unsigned_signed (by decide) h16
  | _ => simp [loadVal]
theorem Opd.mem_of_holdsOf {d : Opd} {lanes : List Nat} {l : Nat} (h : d.holdsOf lanes l) : l ∈ lanes := by
  cases d with
  | v k => exact h
  | s k => exact List.mem_of_getLast? h
  | zero => cases h
  | bad => cases h

theorem Writes.congr {a b : Warp} {lanes : List Nat} {d : Opd} {n : Nat} {v v' : Nat → Nat} (h : Writes a b lanes d n v)
    (he : ∀ l ∈ lanes, v l = v' l) : Writes a b lanes d n v' :=
  ⟨fun l hl k hk => (he l (Opd.mem_of_holdsOf hl)) ▸ h.value l hl k hk, h.keepV, h.keepS, h.marks⟩

section
variable {c : Common} {f : FM} {s : State} {x : Ix} {sp : Space} (h : Ready s (.ld c f) x)
  (hp : Passes s s x f c.u .load f.ty.bytes sp (fun _ => false) false)
  (hn : s.poisonFault x sp f.ty.bytes (s.keysAt x f c.u f.ty.bytes sp) = none)
include h hp hn

theorem exec_ld_passes : exec (.ld c f) s = .next (State.settle x (.adv
    ((s.loadRecord x sp f.ty.bytes (s.keysAt x f c.u f.ty.bytes sp)).writeD x c.u f.r f.ty.regs fun l =>
      loadVal f.ty (s.getLocal sp (tget 0 (s.keysAt x f c.u f.ty.bytes sp) l) f.ty.bytes)))) := by
  rw [exec_ld, execLd, State.issue_ready h, hp.access]
  simp only [List.isEmpty_nil, if_true, loadAct, State.loadChecks, hp.raceCheck, hn]

/-- A load writes its destination and leaves its accesses on record; no byte, window or predicate changes. -/
theorem exec_ld_effect : ∃ t, exec (.ld c f) s = .next t ∧ OnlyLocal s t x.w sp ∧
    (t.shared = s.shared ∧ t.plinth = s.plinth ∧ t.windows = s.windows) ∧ FallsThrough s t x ∧
    KeptButRegs (s.warp x.w) (t.warp x.w) ∧
    Writes (s.warp x.w) (t.warp x.w) (x.targets c.u) f.r f.ty.regs (fun l =>
      loadVal f.ty (s.getLocal sp (tget 0 (s.keysAt x f c.u f.ty.bytes sp) l) f.ty.bytes)) ∧
    ∀ k l, l < 32 → (t.warp x.w).rp k l = (s.warp x.w).rp k l := by
  refine ⟨_, exec_ld_passes h hp hn, ?_⟩
  rw [State.loadRecord, State.recordAll_rest]
  generalize s.recordAll sp f.ty.bytes _ _ = u
  obtain ⟨honly, hkept, hfalls, hdest, hpred⟩ := computes_writeD (s := s.withRecords u) (g := c.grd)
    ⟨h.ix.w, h.ix.ent, h.ix.lanes⟩ c.u f.r f.ty.regs fun l =>
      loadVal f.ty (s.getLocal sp (tget 0 (s.keysAt x f c.u f.ty.bytes sp) l) f.ty.bytes)
  refine ⟨(onlyLocal_withRecords s u x.w sp).trans (honly.onlyLocal sp), ⟨rfl, rfl, rfl⟩, hfalls, hkept, hdest,
    fun k l hl => (hpred k l hl).trans (if_neg fun hk => hk.2.1 rfl)⟩

end

/-- The value of a load in a lane that accesses. -/
theorem loadVal_keysAt {s : State} {x : Ix} {f : FM} {u : Bool} {sp : Space} {l : Nat} (hl : l ∈ x.targets u) :
    loadVal f.ty (s.getLocal sp (tget 0 (s.keysAt x f u f.ty.bytes sp) l) f.ty.bytes) =
      let raw := rdNat (s.bytes sp) (s.keyAt x f f.ty.bytes sp l) f.ty.bytes
      if f.ty = .s8 ∧ 2 ^ 7 ≤ raw then raw + 2 ^ 32 - 2 ^ 8
      else if f.ty = .s16 ∧ 2 ^ 15 ≤ raw then raw + 2 ^ 32 - 2 ^ 16
      else raw := by
  rw [State.keysAt, tget_map_key, if_pos hl]
  exact loadVal_eq f.ty (rdNat_lt _ _ _)

/-! ### `ST` (R225) -/

/-- The value of each lane written at its key, lane by lane. -/
def wrLanes (n : Nat) (key v : Nat → Nat) (ls : List Nat) (m : List Host.Cell) : List Host.Cell :=
  ls.foldl (fun m l => wrNat m (key l) n (v l)) m

theorem wrList_append (a b : List (Nat × Byte)) (m : List Host.Cell) : wrList m (a ++ b) = wrList (wrList m a) b := by
  induction a generalizing m with
  | nil => rfl
  | cons p r ih => exact ih _

theorem wrList_lanes (n : Nat) (key v : Nat → Nat) (ls : List Nat) (m : List Host.Cell) :
    wrList m (ls.flatMap fun l => addrs (key l) (bytesOf n (v l))) = wrLanes n key v ls m := by
  induction ls generalizing m with
  | nil => rfl
  | cons a r ih =>
    rw [List.flatMap_cons, wrList_append, wrList_addrs_bytesOf, ih]
    rfl

section
variable {n : Nat} {key : Nat → Nat} {v : Nat → Nat} {ls : List Nat}

/-- A byte that no lane stores to is as before. -/
theorem rdByte_wrLanes_out {a : Nat} (h : ∀ l ∈ ls, ¬ (key l ≤ a ∧ a < key l + n)) (m : List Host.Cell) :
    rdByte (wrLanes n key v ls m) a = rdByte m a := by
  induction ls generalizing m with
  | nil => rfl
  | cons b r ih =>
    have hb := h b List.mem_cons_self
    exact (ih (fun l hl => h l (List.mem_cons_of_mem b hl)) _).trans (rdByte_wrNat_out n m _ _ a (by omega))

/-- A byte stored to holds the byte of the highest lane that stores to it. -/
theorem rdByte_wrLanes_highest (hs : ls.Pairwise (· < ·)) {l j : Nat} (hl : l ∈ ls) (hj : j < n)
    (h : ∀ k ∈ ls, l < k → ¬ (key k ≤ key l + j ∧ key l + j < key k + n)) (m : List Host.Cell) :
    rdByte (wrLanes n key v ls m) (key l + j) = .ofNat 8 (v l / 2 ^ (8 * j)) := by
  induction ls generalizing m with
  | nil => cases hl
  | cons b r ih =>
    obtain ⟨hb, hr⟩ := List.pairwise_cons.mp hs
    rcases List.mem_cons.mp hl with rfl | hl
    · refine (rdByte_wrLanes_out (fun k hk => h k (List.mem_cons_of_mem l hk) (hb k hk)) _).trans ?_
      rw [rdByte_wrNat_in n m _ _ j hj, pow_mul]
      rfl
    · exact ih hr hl (fun k hk => h k (List.mem_cons_of_mem b hk)) _

end

/-- A counted write changes its warp alone. -/
theorem State.countWrite_warp (s : State) (x : Ix) : (s.countWrite x).warp x.w =
    { s.warp x.w with wissue := (s.warp x.w).wissue + if x.lanes = [] then 0 else 1 } := by
  rw [State.countWrite]
  cases x.lanes with
  | nil => simp
  | cons a r => simp

theorem State.countWrite_onlyWarp (s : State) (x : Ix) : OnlyWarp s (s.countWrite x) x.w := by
  rw [State.countWrite]
  split
  · exact onlyWarp_refl s x.w
  · exact ⟨rfl, fun k hk => by rw [State.modWarp_warp, if_neg hk]⟩

/-- The state in which a store's accesses are on record and the store is counted. -/
def State.storeCounted (s : State) (x : Ix) (sp : Space) (n : Nat) (keys : List (Nat × Nat)) : State :=
  (s.recordAll sp n (fun _ => s.accOf x.w true false) keys).countWrite x

theorem State.storeCounted_onlyLocal (s : State) (x : Ix) (sp : Space) (n : Nat) (keys : List (Nat × Nat)) :
    OnlyLocal s (s.storeCounted x sp n keys) x.w sp :=
  (s.recordAll_onlyLocal x.w sp n _ keys).trans ((State.countWrite_onlyWarp _ x).onlyLocal sp)

theorem State.storeCounted_warp (s : State) (x : Ix) (sp : Space) (n : Nat) (keys : List (Nat × Nat)) :
    (s.storeCounted x sp n keys).warp x.w =
      { s.warp x.w with wissue := (s.warp x.w).wissue + if x.lanes = [] then 0 else 1 } := by
  rw [State.storeCounted, State.countWrite_warp, State.recordAll_rest]
  rfl

/-- Recording and counting touch neither the bytes, nor the windows, nor the operations accepted. -/
theorem State.storeCounted_bytes (s : State) (x : Ix) (sp : Space) (n : Nat) (keys : List (Nat × Nat)) :
    (s.storeCounted x sp n keys).bytes sp = s.bytes sp := by
  rw [State.storeCounted, (State.countWrite_onlyWarp _ x).rest, State.recordAll_rest]
  rfl

theorem State.storeCounted_flushHolds (s : State) (x : Ix) (sp : Space) (n : Nat) (keys : List (Nat × Nat))
    (b : List (Nat × Byte)) : (s.storeCounted x sp n keys).flushHolds x.w b = s.flushHolds x.w b := by
  rw [State.storeCounted, (State.countWrite_onlyWarp _ x).rest, State.recordAll_rest]
  rfl

/-- The bytes of a store, lane by lane. -/
def State.storeBytes (s : State) (x : Ix) (f : FM) (u : Bool) (sp : Space) : List (Nat × Byte) :=
  (x.targets u).flatMap fun l => addrs (s.keyAt x f f.ty.bytes sp l) (bytesOf f.ty.bytes ((s.warp x.w).opd f.r f.ty.regs l))

section
variable {c : Common} {f : FM} {s : State} {x : Ix} {sp : Space} (h : Ready s (.st c f) x)
  (hp : Passes s s x f c.u .store f.ty.bytes sp (fun _ => true) false)
  (hf : s.flushHolds x.w (s.storeBytes x f c.u sp) = false)
include h hp hf

theorem exec_st_passes : exec (.st c f) s = .next (State.settle x (.adv
    ((s.storeCounted x sp f.ty.bytes (s.keysAt x f c.u f.ty.bytes sp)).putLocal sp (s.storeBytes x f c.u sp)))) := by
  have hbytes : (s.keysAt x f c.u f.ty.bytes sp).flatMap
      (fun (k, key) => addrs key (bytesOf f.ty.bytes ((s.warp x.w).opd f.r f.ty.regs k))) = s.storeBytes x f c.u sp :=
    List.flatMap_map ..
  have hflush : ((s.recordAll sp f.ty.bytes (fun _ => s.accOf x.w true false)
      (s.keysAt x f c.u f.ty.bytes sp)).countWrite x).flushHolds x.w (s.storeBytes x f c.u sp) = false :=
    (s.storeCounted_flushHolds ..).trans hf
  rw [exec_st, execSt, State.issue_ready h, hp.access]
  simp only [storeAct, hp.raceCheck, hbytes, hflush, List.isEmpty_nil, if_true, Bool.not_true, Bool.false_and, Bool.or_self,
    Bool.false_eq_true, if_false, State.parkAll]
  rfl

/-- A store writes its bytes lane by lane and is counted; no register changes. -/
theorem exec_st_effect : ∃ t, exec (.st c f) s = .next t ∧ OnlyLocal s t x.w sp ∧ FallsThrough s t x ∧
    t.bytes sp = wrLanes f.ty.bytes (s.keyAt x f f.ty.bytes sp) ((s.warp x.w).opd f.r f.ty.regs) (x.targets c.u) (s.bytes sp) ∧
    t.warp x.w = { s.warp x.w with
      threads := (t.warp x.w).threads, entries := (t.warp x.w).entries, yielding := (t.warp x.w).yielding
      hold := none, wissue := (s.warp x.w).wissue + if x.lanes = [] then 0 else 1 } := by
  refine ⟨_, exec_st_passes h hp hf, ?_⟩
  have hcounted := s.storeCounted_warp x sp f.ty.bytes (s.keysAt x f c.u f.ty.bytes sp)
  have hlocal := s.storeCounted_onlyLocal x sp f.ty.bytes (s.keysAt x f c.u f.ty.bytes sp)
  have hstored := s.storeCounted_bytes x sp f.ty.bytes (s.keysAt x f c.u f.ty.bytes sp)
  generalize s.storeCounted x sp f.ty.bytes (s.keysAt x f c.u f.ty.bytes sp) = u at *
  have hwarp : (u.putLocal sp (s.storeBytes x f c.u sp)).warp x.w = u.warp x.w := by
    rw [State.warp, State.putLocal_warps]
    rfl
  refine ⟨hlocal.trans ((u.putLocal_onlyLocal x.w sp _).trans ((settle_adv_onlyWarp x _).onlyLocal sp)),
    falls_settle h.ix (by rw [hwarp, hcounted]), ?_, ?_⟩
  · have hbytes : (State.settle x (.adv (u.putLocal sp (s.storeBytes x f c.u sp)))).bytes sp =
        (u.putLocal sp (s.storeBytes x f c.u sp)).bytes sp := by cases sp <;> rfl
    rw [hbytes, State.putLocal_bytes, hstored, State.storeBytes, wrList_lanes]
  · have hrest := settle_adv_rest x (u.putLocal sp (s.storeBytes x f c.u sp))
    rw [hwarp, hcounted] at hrest
    exact hrest

end

/-- Settles O23: the answer of each instruction is written out, and its frame is that of its parts. -/
theorem loadAndStore : Obligations.LoadAndStore := by
  unfold Obligations.LoadAndStore
  refine ⟨?_, ?_⟩
  · intro c f s x sp n raw value h hp hn
    obtain ⟨t, hexec, hlocal, hmems, hfalls, hkept, hdest, hpred⟩ := exec_ld_effect h hp hn
    obtain ⟨hshared, hplinth, hwindows⟩ := hmems
    exact ⟨t, hexec, hlocal, hshared, hplinth, hwindows, hfalls, hkept, hdest.congr fun l hl => loadVal_keysAt hl, hpred⟩
  · intro c f s x sp n key v h hp hf
    obtain ⟨t, hexec, hlocal, hfalls, hbytes, hwarp⟩ := exec_st_effect h hp hf
    refine ⟨t, hexec, hlocal, hfalls, fun a ha => ?_, fun l hl j hj hlast => ?_, hwarp⟩
    · rw [hbytes]
      exact rdByte_wrLanes_out ha _
    · rw [hbytes]
      exact rdByte_wrLanes_highest (h.ix.targets_ascending c.u) hl hj hlast _

end Sys2Proof.Machine
end

section
/-! PROOFS. An atomic and a flush of its warp (O24). -/

namespace Sys2Proof.Machine

open Tests

/-- Window number 0 is listed twice: first over the Plinth's third page, and behind it over its first one, which is filled.  A
flush of the warp has still to read the first byte of window 0. -/
def windowListedTwice : State := { spaces with
  windows := [(0, { base := 0x2000, limit := 0x3000, va := 0x6000, filled := [0] }),
    (0, { limit := 0x1000, va := 0x4000, filled := [0] })]
  ops := [(0, { warp := 0, kind := .wflush [(0, [0])], flags := [0], pc := 0 })] }

/-- A relaxed `RED.ADD` at the Plinth's first word. -/
def redFirstWord : FM := fm (.v 6) 2 .n32 0x30 .zero .zero 0 0

theorem redFirstWord_ready : Ready windowListedTwice (.red ct redFirstWord) x0 := ready (by decide +kernel)

theorem redFirstWord_passes :
    Passes windowListedTwice (windowListedTwice.readMsgs 0 0 0 []) x0 redFirstWord false .atomic 4 .plinth (fun _ => true)
      true :=
  ⟨by decide +kernel, by decide +kernel, fun _ => by decide +kernel, by decide +kernel, by decide +kernel⟩

/-- Before the write the number stands for the window of the third page, and no flush holds the word up. -/
theorem windowListedTwice_free : windowListedTwice.flushHolds 0 (x0.lanes.map fun _ => (0, 0)) = false := by decide +kernel

/-- The instruction stalls: its first thread stays where it is. -/
theorem redFirstWord_stalls :
    (match exec (.red ct redFirstWord) windowListedTwice with
     | .next t => ((t.warp 0).th 0).cp
     | _ => nextCp 0) = 0 := by decide +kernel

/-- Refutes O24: it looks for a flush that holds the words up in the state before the atomic, and leaves out the premise that each
window number is listed once.  The model looks after its writes, and a window by its number, so that in `windowListedTwice` the
instruction stalls where the statement wants it performed. -/
theorem not_atomics : ¬ Obligations.Atomics := by
  unfold Obligations.Atomics
  intro h
  obtain ⟨-, hred, -⟩ := h ct redFirstWord windowListedTwice x0 .plinth
  obtain ⟨t, hexec, -, hfalls, -⟩ := hred redFirstWord_ready (fun ho => absurd ho (by decide)) redFirstWord_passes
    (fun _ => by decide +kernel) windowListedTwice_free
  have hstalls := redFirstWord_stalls
  rw [hexec] at hstalls
  have hmoved : ((t.warp 0).th 0).cp = nextCp 0 := by
    rw [if_neg (by decide)] at hfalls
    rw [show (t.warp 0).th 0 = _ from hfalls 0, if_pos (by decide)]
    rfl
  exact absurd (hmoved.symm.trans hstalls) (by decide)

end Sys2Proof.Machine
end

section
/-! PROOFS. Moment arithmetic, step by step (O39). -/

namespace Sys2Proof.Machine

/-! ### Values of computations that note overflow (R96, R107) -/

/-- A computation answers a value, whatever had overflowed before it. -/
def Yields {α : Type} (m : MomM α) (v : α) : Prop := ∀ s, (m s).1 = v

/-- RN(u + v) as an FP32 value. -/
def rAdd (u v : FV) : FV := rn32 (u.add false v)
/-- RN(u − v) -/
def rSub (u v : FV) : FV := rn32 (u.add false v.neg)
/-- RN(u · v) -/
def rMul (u v : FV) : FV := rn32 (u.mul v)
/-- RN(u / v) -/
def rDiv (u v : FV) : FV := fv32 (fp32.div {} u v)
/-- RN(√u) -/
def rSqrt (u : FV) : FV := fv32 (fp32.sqrt {} u)
/-- A function of R157. -/
def rFun (f : TFun) (u : FV) : FV := fv32 (f.eval {} u)

theorem yields_momOut (finite : Bool) (code : Nat) : Yields (momOut finite code) (fv32 code) := by
  intro s
  unfold momOut
  dsimp only
  split <;> rfl

section
variable {α β : Type} {f : FV → MomM β} {u v : FV} {r : β}

theorem Yields.bind {m : MomM α} {g : α → MomM β} {a : α} (h : Yields m a) (hg : Yields (g a) r) : Yields (m >>= g) r := by
  intro s
  have hs : ((m >>= g) s).1 = (g (m s).1 (m s).2).1 := rfl
  rw [hs, h, hg]

theorem Yields.pure (a : α) : Yields (pure a : MomM α) a := fun _ => rfl

/-! One rule for each kind of step that begins a computation. -/

theorem Yields.rn (h : Yields (f (rn32 u)) r) : Yields (mRn u >>= f) r := (yields_momOut _ _).bind h
theorem Yields.add (h : Yields (f (rAdd u v)) r) : Yields (mAdd u v >>= f) r := (yields_momOut _ _).bind h
theorem Yields.sub (h : Yields (f (rSub u v)) r) : Yields (mSub u v >>= f) r := (yields_momOut _ _).bind h
theorem Yields.mul (h : Yields (f (rMul u v)) r) : Yields (mMul u v >>= f) r := (yields_momOut _ _).bind h
theorem Yields.div (h : Yields (f (rDiv u v)) r) : Yields (mDiv u v >>= f) r := (yields_momOut _ _).bind h
theorem Yields.sqrt (h : Yields (f (rSqrt u)) r) : Yields (mSqrt u >>= f) r := (Yields.pure _).bind h
theorem Yields.fn {t : TFun} (h : Yields (f (rFun t u)) r) : Yields (mFun t u >>= f) r := (yields_momOut _ _).bind h

end

theorem yields_mMul (u v : FV) : Yields (mMul u v) (rMul u v) := yields_momOut _ _
theorem yields_mAdd (u v : FV) : Yields (mAdd u v) (rAdd u v) := yields_momOut _ _

/-! ### Sums and products (R98 to R101) -/

section
variable (cov : Cov) (a b k : Mom) (e c g mean var : FV)

/-- The covariance of a mode (R98). -/
def covVal : FV :=
  match cov with
  | .ind => fvZero
  | .pos => rMul (rSqrt a.var) (rSqrt b.var)
  | .neg => (rMul (rSqrt a.var) (rSqrt b.var)).neg
  | .exp => e

theorem yields_mCov : Yields (mCov cov a b e) (covVal cov a b e) := by
  cases cov with
  | ind => exact .pure _
  | pos => exact .sqrt <| .sqrt <| yields_mMul _ _
  | neg => exact .sqrt <| .sqrt <| .mul <| .pure _
  | exp => exact .pure _

/-- The variance of a sum, or of a difference when `sub` (R99). -/
def sumVar (sub : Bool) : FV :=
  let t (minus : Bool) : FV := if minus then rSub (rSqrt a.var) (rSqrt b.var) else rAdd (rSqrt a.var) (rSqrt b.var)
  match cov with
  | .ind => rAdd a.var b.var
  | .pos => rMul (t sub) (t sub)
  | .neg => rMul (t !sub) (t !sub)
  | .exp => rAdd (rAdd a.var b.var) ((e.scale 1).negIf sub)

theorem yields_mSum (sub : Bool) : Yields (mSum sub cov a b e)
    (momChk (cov == .exp) (if sub then rSub a.mean b.mean else rAdd a.mean b.mean) (sumVar cov a b e sub)) := by
  cases sub with
  | false =>
    refine .add ?_
    cases cov with
    | ind => exact .add <| .pure _
    | pos => exact .bind (.sqrt <| .sqrt <| .add <| yields_mMul _ _) <| .pure _
    | neg => exact .bind (.sqrt <| .sqrt <| .sub <| yields_mMul _ _) <| .pure _
    | exp => exact .add <| .add <| .pure _
  | true =>
    refine .sub ?_
    cases cov with
    | ind => exact .add <| .pure _
    | pos => exact .bind (.sqrt <| .sqrt <| .sub <| yields_mMul _ _) <| .pure _
    | neg => exact .bind (.sqrt <| .sqrt <| .add <| yields_mMul _ _) <| .pure _
    | exp => exact .add <| .add <| .pure _

/-- The variance of a product (R100). -/
def productVar : FV :=
  let t := rAdd (rAdd (rMul (rMul a.mean a.mean) b.var) (rMul (rMul b.mean b.mean) a.var)) (rMul a.var b.var)
  if cov = .ind then t else rAdd t (rAdd (rMul c c) ((rMul g c).scale 1))

theorem yields_mMulVar : Yields (mMulVar cov a b c g) (productVar cov a b c g) := by
  refine .mul <| .mul <| .mul <| .mul <| .mul <| .add <| .add ?_
  cases cov with
  | ind => exact .pure _
  | pos | neg | exp => exact .mul <| .mul <| .add <| yields_mAdd _ _

theorem yields_mProd : Yields (mProd cov a b e) (momProduct cov
    (if cov = .ind then rMul a.mean b.mean else rAdd (rMul a.mean b.mean) (covVal cov a b e))
    (productVar cov a b (covVal cov a b e) (rMul a.mean b.mean))) := by
  refine .mul <| .bind (yields_mCov cov a b e) <| .bind (yields_mMulVar cov a b _ _) ?_
  cases cov with
  | ind => exact .bind (.pure _) <| .pure _
  | pos | neg | exp => exact .add <| .pure _

theorem yields_mFma : Yields (mFma cov a b k e)
    (momProduct cov (rn32 (((a.mean.mul b.mean).add false (covVal cov a b e)).add false k.mean))
      (rAdd (productVar cov a b (covVal cov a b e) (rMul a.mean b.mean)) k.var)) :=
  .mul <| .bind (yields_mCov cov a b e) <| .bind (yields_mMulVar cov a b _ _) <| .rn <| .add <| .pure _

theorem yields_mScl : Yields (mScl e a) (momRes (rMul e a.mean) (rMul (rMul e e) a.var)) :=
  .mul <| .mul <| .mul <| .pure _

theorem momChk_exp : momChk (cov == .exp) mean var =
    if cov = .exp ∧ var.isNeg = true then { val := { mean := mean, var := fvZero }, neg := true } else momRes mean var := by
  simp [momChk]

theorem momProduct_eq : momProduct cov mean var =
    if cov = .exp then momChk (cov == .exp) mean var else momRes mean (momClip var) := by
  cases cov <;> simp [momProduct]

end

/-! ### A variance that never stands (R96) -/

/-- A code below 2^31 has no sign. -/
theorem fv32_isNeg_of_lt {x : Nat} (h : x < 2 ^ 31) : (fv32 x).isNeg = false := by
  have hsign : (bits x (fp32.eb + fp32.fb) 1 == 1) = false := by
    simp only [bits, fp32]
    rw [Nat.div_eq_of_lt h]
    rfl
  have hfin (m : Nat) (e : Int) : (FV.fin false m e).isNeg = false := by simp [FV.isNeg, FV.lt, scaled]
  unfold fv32 FpFmt.decode
  simp only [hsign]
  split
  · split <;> rfl
  · split
    · rfl
    · split <;> exact hfin _ _

theorem momClip_of_not_neg {v : FV} (h : v.isNeg = false) : momClip v = v := by
  simp [momClip, h]

/-- Whatever stands in the place of a negative variance is a number that is not negative. -/
theorem momClip_of_neg {v : FV} (h : v.isNeg = true) : (momClip v).isNeg = false ∧ (momClip v).isNan = false := by
  have hfree := fv32_isNeg_of_lt (Nat.mod_lt (Config.freeVar (fp32.round {} v)).toNat (Nat.two_pow_pos 31))
  rw [momClip, if_pos h]
  split
  · exact ⟨rfl, rfl⟩
  · next hnan =>
    refine ⟨hfree, ?_⟩
    rw [FV.isNan.eq_def]
    split
    · contradiction
    · rfl

theorem momClip_spec (v : FV) : (v.isNeg = false → momClip v = v) ∧ (momClip v).isNeg = false ∧
    (v.isNan = false → (momClip v).isNan = false) := by
  cases hn : v.isNeg with
  | false => exact ⟨fun _ => momClip_of_not_neg hn, by rwa [momClip_of_not_neg hn], fun h => by rwa [momClip_of_not_neg hn]⟩
  | true => exact ⟨nofun, (momClip_of_neg hn).1, fun _ => (momClip_of_neg hn).2⟩

/-! ### Functions of moments (R102 to R104) -/

section
variable (cov : Cov) (a b : Mom) (e c z : FV)

/-- The rectified moment of a positive variance (R102). -/
def reluOf : Mom :=
  let sa := rSqrt a.var
  let al := rDiv a.mean sa
  let mean := rAdd (rMul a.mean (rFun .phi al)) (rMul sa (rFun .pdf al))
  let e2 := rAdd (rMul (rAdd (rMul a.mean a.mean) a.var) (rFun .phi al)) (rMul (rMul a.mean sa) (rFun .pdf al))
  { mean := mean, var := (rSub e2 (rMul mean mean)).plus }

theorem yields_mRelu :
    Yields (mRelu a) (if a.var.isZero = true then momRes a.mean.plus fvZero else { val := reluOf a }) := by
  by_cases h : a.var.isZero = true
  · rw [if_pos h, mRelu, if_pos h]
    exact .pure _
  · rw [if_neg h, mRelu, if_neg h]
    exact .sqrt <| .div <| .fn <| .fn <| .mul <| .mul <| .add <| .mul <| .add <| .mul <| .mul <| .mul <| .add <|
      .mul <| .sub <| .pure _

theorem yields_mSigm : Yields (mSigm a)
    (let u := rSqrt (rAdd fvOne (rMul momL a.var))
     let mean := rDiv fvOne (rAdd fvOne (rFun .ex2 (rMul (rDiv a.mean u).neg momLog2e)))
     momRes mean (rMul (rMul mean (rSub fvOne mean)) (rSub fvOne (rDiv fvOne u)))) :=
  .mul <| .add <| .sqrt <| .div <| .mul <| .fn <| .add <| .div <| .sub <| .mul <| .div <| .sub <| .mul <| .pure _

theorem yields_mExp : Yields (mExp a)
    (let mean := rFun .ex2 (rMul (rAdd a.mean (rn32 (a.var.scale (-1)))) momLog2e)
     momRes mean (rMul (rSub (rFun .ex2 (rMul a.var momLog2e)) fvOne) (rMul mean mean))) :=
  .rn <| .add <| .mul <| .fn <| .mul <| .fn <| .sub <| .mul <| .mul <| .pure _

/-- The variance of the difference of two moments (R102, R103). -/
def diffVar : FV := rSub (rAdd a.var b.var) (c.scale 1)

/-- The difference does not vary, or its variance came out negative. -/
def noSpread : Prop := (diffVar a b c).isNeg = true ∨ (diffVar a b c).isZero = true

theorem yields_mTh2 : Yields (mTh2 cov a b c)
    (if (diffVar a b c).isNeg then { val := fvZero, neg := cov == .exp } else { val := diffVar a b c }) :=
  .add <| .sub <| .pure _

/-- The maximum of two moments whose difference varies, by Clark's formulas (R102). -/
def clarkMax (th : FV) : Mom :=
  let al := rDiv (rSub a.mean b.mean) th
  let mean := rAdd (rAdd (rMul a.mean (rFun .phi al)) (rMul b.mean (rFun .phi al.neg))) (rMul th (rFun .pdf al))
  let e2 := rAdd (rAdd (rMul (rAdd (rMul a.mean a.mean) a.var) (rFun .phi al))
    (rMul (rAdd (rMul b.mean b.mean) b.var) (rFun .phi al.neg))) (rMul (rMul (rAdd a.mean b.mean) th) (rFun .pdf al))
  { mean := mean, var := (rSub e2 (rMul mean mean)).plus }

variable {a b c}

theorem yields_mTh2_none (h : noSpread a b c) :
    ∃ t, Yields (mTh2 cov a b c) t ∧ t.val.isZero = true ∧ t.neg = decide ((diffVar a b c).isNeg = true ∧ cov = .exp) := by
  refine ⟨_, yields_mTh2 cov a b c, ?_⟩
  by_cases hn : (diffVar a b c).isNeg = true
  · rw [if_pos hn]
    exact ⟨rfl, by simp [hn, BEq.beq]⟩
  · rw [if_neg hn]
    exact ⟨h.resolve_left hn, by simp [hn]⟩

theorem yields_mTh2_some (h : ¬ noSpread a b c) :
    Yields (mTh2 cov a b c) { val := diffVar a b c } ∧ (diffVar a b c).isZero ≠ true := by
  obtain ⟨hn, hz⟩ := not_or.mp h
  have ht := yields_mTh2 cov a b c
  rw [if_neg hn] at ht
  exact ⟨ht, hz⟩

theorem yields_mMaxOf_none (h : noSpread a b c) : Yields (mMaxOf cov a b c)
    { val := if b.mean.lt a.mean = true ∨ a.mean.eq b.mean = true then a else b
      neg := decide ((diffVar a b c).isNeg = true ∧ cov = .exp) } := by
  obtain ⟨t, ht, hz, hn⟩ := yields_mTh2_none cov h
  refine ht.bind ?_
  rw [if_pos hz, hn]
  simp only [Bool.or_eq_true]
  exact .pure _

theorem yields_mMaxOf_some (h : ¬ noSpread a b c) :
    Yields (mMaxOf cov a b c) { val := clarkMax a b (rSqrt (diffVar a b c)) } := by
  obtain ⟨ht, hz⟩ := yields_mTh2_some cov h
  refine ht.bind ?_
  rw [if_neg hz]
  exact .sqrt <| .sub <| .div <| .fn <| .fn <| .fn <| .mul <| .mul <| .add <| .mul <| .add <| .mul <| .add <| .mul <|
    .mul <| .add <| .mul <| .add <| .mul <| .mul <| .add <| .add <| .mul <| .sub <| .pure _

theorem yields_mMax_none (h : noSpread a b (covVal cov a b e)) : Yields (mMax cov a b e)
    { val := if b.mean.lt a.mean = true ∨ a.mean.eq b.mean = true then a else b
      neg := decide ((diffVar a b (covVal cov a b e)).isNeg = true ∧ cov = .exp) } :=
  .bind (yields_mCov cov a b e) (yields_mMaxOf_none cov h)

theorem yields_mMax_some (h : ¬ noSpread a b (covVal cov a b e)) : Yields (mMax cov a b e)
    { val := clarkMax a b (rSqrt (diffVar a b (covVal cov a b e))) } :=
  .bind (yields_mCov cov a b e) (yields_mMaxOf_some cov h)

/-- The moment with its mean negated. -/
def Mom.flip (a : Mom) : Mom := { a with mean := a.mean.neg }

theorem yields_mMin_none (h : noSpread a b (covVal cov a b e)) : Yields (mMin cov a b e)
    { val := (if b.mean.neg.lt a.mean.neg = true ∨ a.mean.neg.eq b.mean.neg = true then a.flip else b.flip).flip
      neg := decide ((diffVar a b (covVal cov a b e)).isNeg = true ∧ cov = .exp) } :=
  .bind (yields_mCov cov a b e) <| .bind (yields_mMaxOf_none (a := a.flip) (b := b.flip) cov h) <| .pure _

theorem yields_mMin_some (h : ¬ noSpread a b (covVal cov a b e)) : Yields (mMin cov a b e)
    { val := (clarkMax a.flip b.flip (rSqrt (diffVar a b (covVal cov a b e)))).flip } :=
  .bind (yields_mCov cov a b e) <| .bind (yields_mMaxOf_some (a := a.flip) (b := b.flip) cov h) <| .pure _

theorem yields_mPlt_none (h : noSpread a b (covVal cov a b e)) : Yields (mPlt cov a b e)
    { val := if a.mean.lt b.mean = true then fvOne else fvZero
      neg := decide ((diffVar a b (covVal cov a b e)).isNeg = true ∧ cov = .exp) } := by
  obtain ⟨t, ht, hz, hn⟩ := yields_mTh2_none cov h
  refine (yields_mCov cov a b e).bind (ht.bind ?_)
  rw [if_pos hz, hn]
  exact .pure _

theorem yields_mPlt_some (h : ¬ noSpread a b (covVal cov a b e)) : Yields (mPlt cov a b e)
    { val := rFun .phi (rDiv (rSub b.mean a.mean) (rSqrt (diffVar a b (covVal cov a b e)))) } := by
  obtain ⟨ht, hz⟩ := yields_mTh2_some cov h
  refine (yields_mCov cov a b e).bind (ht.bind ?_)
  rw [if_neg hz]
  exact .sub <| .sqrt <| .div <| .fn <| .pure _

variable (a)

theorem yields_mCol_mean : Yields (mCol 0 a z) { val := a.mean } := .pure _
theorem yields_mCol_var : Yields (mCol 1 a z) { val := a.var } := .pure _
theorem yields_mCol_dev : Yields (mCol 2 a z) { val := rSqrt a.var } := .sqrt <| .pure _
theorem yields_mCol_quantile (n : Nat) (h : 3 ≤ n) :
    Yields (mCol n a z) { val := rn32 (a.mean.add false (z.mul (rSqrt a.var))) } := by
  obtain ⟨k, rfl⟩ := Nat.exists_eq_add_of_le' h
  exact .sqrt <| .rn <| .pure _

end

/-! ### The pairwise tree (R105) -/

/-- The sums of neighbours. -/
def pairSums : List FV → List FV
  | a :: b :: r => rAdd a b :: pairSums r
  | l => l

theorem yields_mLevel : ∀ l : List FV, Yields (mLevel l) (pairSums l)
  | [] => .pure _
  | [_] => .pure _
  | _ :: _ :: r => .add <| (yields_mLevel r).bind <| .pure _

theorem pairSums_length (n : Nat) : ∀ l : List FV, l.length = 2 * n → (pairSums l).length = n := by
  induction n with
  | zero =>
    intro l h
    rw [List.length_eq_zero_iff.mp h]
    rfl
  | succ n ih =>
    intro l h
    match l, h with
    | a :: b :: r, h => exact congrArg (· + 1) (ih r (by simpa [Nat.mul_succ] using h))

theorem pairSums_getD (n : Nat) : ∀ l : List FV, l.length = 2 * n → ∀ i, i < n →
    (pairSums l).getD i fvZero = rAdd (l.getD (2 * i) fvZero) (l.getD (2 * i + 1) fvZero) := by
  induction n with
  | zero => exact fun _ _ i hi => absurd hi (Nat.not_lt_zero i)
  | succ n ih =>
    intro l h i hi
    match l, h with
    | a :: b :: r, h =>
      cases i with
      | zero => rfl
      | succ i => exact ih r (by simpa [Nat.mul_succ] using h) i (Nat.lt_of_succ_lt_succ hi)

/-- A tree whose leaves are sums of neighbours. -/
theorem pairTree_pairs (op : FV → FV → FV) (leaf : Nat → FV) (n i : Nat) :
    pairTree op (fun j => op (leaf (2 * j)) (leaf (2 * j + 1))) n i = pairTree op leaf (n + 1) i := by
  induction n generalizing i with
  | zero => rfl
  | succ n ih =>
    rw [pairTree, ih, ih]
    rfl

theorem pairTree_congr (op : FV → FV → FV) {f g : Nat → FV} : ∀ (n i : Nat),
    (∀ j, j < 2 ^ n * (i + 1) → f j = g j) → pairTree op f n i = pairTree op g n i := by
  intro n
  induction n with
  | zero => exact fun i h => h i (by omega)
  | succ n ih =>
    intro i h
    have hpow : 2 ^ (n + 1) * (i + 1) = 2 ^ n * (2 * i + 1 + 1) := by ring
    rw [pairTree, pairTree, ih, ih]
    · exact fun j hj => h j (hpow ▸ hj)
    · exact fun j hj => h j (hpow ▸ hj.trans (Nat.mul_lt_mul_of_pos_left (by omega) (Nat.two_pow_pos n)))

/-- A level of 2^(n+1) values has the tree of the level above. -/
theorem pairTree_pairSums (n : Nat) (l : List FV) (h : l.length = 2 * 2 ^ n) :
    pairTree rAdd ((pairSums l).getD · fvZero) n 0 = pairTree rAdd (l.getD · fvZero) (n + 1) 0 := by
  rw [← pairTree_pairs]
  exact pairTree_congr rAdd n 0 fun j hj => pairSums_getD _ l h j (by simpa using hj)

theorem yields_mTree (l : List FV) (h : l.length = 32) : Yields (mTree l) (pairTree rAdd (l.getD · fvZero) 5 0) := by
  have h4 := pairSums_length 16 l h
  have h3 := pairSums_length 8 _ h4
  have h2 := pairSums_length 4 _ h3
  have h1 := pairSums_length 2 _ h2
  have hroot : (pairSums (pairSums (pairSums (pairSums (pairSums l))))).headD fvZero =
      pairTree rAdd (l.getD · fvZero) 5 0 := by
    rw [← pairTree_pairSums 4 l h, ← pairTree_pairSums 3 _ h4, ← pairTree_pairSums 2 _ h3, ← pairTree_pairSums 1 _ h2,
      ← pairTree_pairSums 0 _ h1, pairTree, List.headD_eq_getD]
  rw [← hroot]
  exact (yields_mLevel _).bind <| (yields_mLevel _).bind <| (yields_mLevel _).bind <| (yields_mLevel _).bind <|
    (yields_mLevel _).bind <| .pure _

theorem yields_mRedOf_ind (l : List Mom) (h : l.length = 32) : Yields (mRedOf .ind l)
    (momRes (pairTree rAdd ((l.map (·.mean)).getD · fvZero) 5 0) (pairTree rAdd ((l.map (·.var)).getD · fvZero) 5 0)) :=
  (yields_mTree _ (by rwa [List.length_map])).bind <| (yields_mTree _ (by rwa [List.length_map])).bind <| .pure _

theorem yields_mRedOf_pos (l : List Mom) (h : l.length = 32) : Yields (mRedOf .pos l)
    (let t := pairTree rAdd ((l.map fun v => rSqrt v.var).getD · fvZero) 5 0
     momRes (pairTree rAdd ((l.map (·.mean)).getD · fvZero) 5 0) (rMul t t)) := by
  have hroots : Yields (l.mapM fun v => mSqrt v.var) (l.map fun v => rSqrt v.var) := by
    have hpure : l.mapM (fun v => mSqrt v.var) = (pure (l.map fun v => rSqrt v.var) : MomM (List FV)) := List.mapM_pure
    rw [hpure]
    exact .pure _
  exact (yields_mTree _ (by rwa [List.length_map])).bind <| hroots.bind <|
    (yields_mTree _ (by rwa [List.length_map])).bind <| .mul <| .pure _

end Sys2Proof.Machine
end

section
/-! PROOFS. The moment instructions, lane by lane (O39). -/

namespace Sys2Proof.Machine

/-! ### Lanes' results written (R97, R107) -/

/-- What writing a moment register in the listed lanes does to the moment registers; beside them only poison marks change. -/
structure WritesM (a b : Warp) (lanes : List Nat) (r : Nat) (val : Nat → DWord) : Prop where
  rest : b = { a with m := b.m, poison := b.poison }
  value : ∀ l ∈ lanes, b.rm r l = val l
  keep : ∀ q l, l < 32 → ¬ (q = r ∧ l ∈ lanes) → b.rm q l = a.rm q l

section
variable {lane : Nat → MLane} (hlane : ∀ l, (lane l).lane = l)
include hlane

theorem Warp.wmLanes_writesM (r : Nat) (ls : List Nat) (hlt : ∀ l ∈ ls, l < 32) (w : Warp) :
    WritesM w (w.wmLanes r (ls.map lane)) ls r fun l => .ofNat 64 (lane l).code := by
  induction ls generalizing w with
  | nil => exact ⟨rfl, nofun, fun _ _ _ _ => rfl⟩
  | cons a ls ih =>
    have ha := hlt a List.mem_cons_self
    obtain ⟨hrest, hval, hkeep⟩ := ih (fun l hl => hlt l (List.mem_cons_of_mem a hl)) (w.wm r a (.ofNat 64 (lane a).code))
    rw [List.map_cons, Warp.wmLanes, hlane]
    refine ⟨hrest, fun l hl => ?_, fun q l hl hq => ?_⟩
    · by_cases hr : l ∈ ls
      · exact hval l hr
      · obtain rfl : l = a := (List.mem_cons.mp hl).resolve_right hr
        rw [hkeep r l ha (fun h => hr h.2), Warp.rm_wm _ _ _ _ _ _ ha ha, if_pos ⟨rfl, rfl⟩]
    · rw [hkeep q l hl (fun h => hq ⟨h.1, List.mem_cons_of_mem a h.2⟩), Warp.rm_wm _ _ _ _ _ _ ha hl, if_neg]
      rintro ⟨rfl, rfl⟩
      exact hq ⟨rfl, List.mem_cons_self⟩

theorem Warp.wvLanes_eq (o : Opd) (ls : List Nat) (w : Warp) :
    w.wvLanes o (ls.map lane) = w.wlanes o 1 (fun l => (lane l).code) ls := by
  induction ls generalizing w with
  | nil => rfl
  | cons a ls ih => rw [List.map_cons, Warp.wvLanes, hlane, ih, Warp.wlanes]

end

/-- The status bits of lanes: a negative variance, a NaN, an overflow (R107). -/
def statusBits (lanes : List Nat) (neg nan ov : Nat → Bool) : Word :=
  (if lanes.any neg then 1 else 0) ||| (if lanes.any nan then 2 else 0) ||| if lanes.any ov then 4 else 0

theorem mstatOf_map (lane : Nat → MLane) (ls : List Nat) :
    mstatOf (ls.map lane) = statusBits ls (fun l => (lane l).neg) (fun l => (lane l).nan) fun l => (lane l).ov := by
  simp only [mstatOf, statusBits, List.any_map, Function.comp_def]

/-! ### What the instruction leaves of its warp -/

/-- Everything of a warp but its moment, general and predicate registers, their poison marks, `%mstat` and its threads' places
is as before. -/
def KeptButMoments (a b : Warp) : Prop :=
  b = { a with
    m := b.m, v := b.v, s := b.s, p := b.p, mstat := b.mstat, poison := b.poison, threads := b.threads
    entries := b.entries, yielding := b.yielding, hold := none }

/-- A warp with other moment, general and predicate registers, poison marks and status. -/
def Warp.withMoments (w b : Warp) : Warp :=
  { w with m := b.m, v := b.v, s := b.s, p := b.p, mstat := b.mstat, poison := b.poison }

/-- The state after a meaning that only put such a warp: its registers are those put, and its entry has moved on. -/
theorem settle_setWarp_moments {s : State} {x : Ix} {g : Guard} (hx : IxOf s g x) {b : Warp}
    (hb : b = (s.warp x.w).withMoments b) :
    let t := State.settle x (.adv (s.setWarp x.w b))
    OnlyWarp s t x.w ∧ FallsThrough s t x ∧ KeptButMoments (s.warp x.w) (t.warp x.w) ∧
      t.warp x.w = { b with
        threads := (t.warp x.w).threads, entries := (t.warp x.w).entries, yielding := (t.warp x.w).yielding, hold := none } := by
  intro t
  have hwarp : t.warp x.w = { b with
      threads := (t.warp x.w).threads, entries := (t.warp x.w).entries, yielding := (t.warp x.w).yielding
      hold := none } := by
    have hrest := settle_adv_rest x (s.setWarp x.w b)
    rwa [State.setWarp_warp_self] at hrest
  refine ⟨onlyWarp_settle (onlyWarp_setWarp s x.w b), falls_settle hx ?_, ?_, hwarp⟩
  · rw [State.setWarp_warp_self, hb]
    rfl
  · rw [KeptButMoments, hwarp, hb]
    rfl

/-! ### The end of a moment instruction (R106, R107, R266) -/

/-- The lowest lane with a negative variance is the one found. -/
theorem find_neg {ls : List Nat} (hs : ls.Pairwise (· < ·)) {lane : Nat → MLane} {l : Nat} (hl : l ∈ ls)
    (hneg : (lane l).neg = true) (hlow : ∀ j ∈ ls, j < l → (lane j).neg = false) :
    (ls.map lane).find? (·.neg) = some (lane l) := by
  induction ls with
  | nil => cases hl
  | cons a ls ih =>
    obtain ⟨ha, hs'⟩ := List.pairwise_cons.mp hs
    rcases List.mem_cons.mp hl with rfl | hl'
    · rw [List.map_cons, List.find?_cons_of_pos hneg]
    · rw [List.map_cons, List.find?_cons_of_neg (by simp [hlow a List.mem_cons_self (ha l hl')]),
        ih hs' hl' fun j hj => hlow j (List.mem_cons_of_mem a hj)]

theorem find_neg_none {ls : List Nat} {lane : Nat → MLane} (h : ∀ l ∈ ls, (lane l).neg = false) :
    (ls.map lane).find? (·.neg) = none := by
  rw [List.find?_eq_none]
  intro y hy
  obtain ⟨l, hl, rfl⟩ := List.mem_map.mp hy
  simp [h l hl]

section
variable {s : State} {x : Ix} {lane : Nat → MLane} {put : Warp → List MLane → Warp}

/-- No lane stops the instruction: results and status are written. -/
theorem State.momEnd_adv (h : (s.warp x.w).mctl.getLsbD 0 = true ∨ ∀ l ∈ x.lanes, (lane l).neg = false) :
    s.momEnd x (x.lanes.map lane) put =
      .adv (s.setWarp x.w ((put (s.warp x.w) (x.lanes.map lane)).mstatSet (mstatOf (x.lanes.map lane)))) := by
  have hfind : (if (s.warp x.w).mctl.getLsbD 0 then none else (x.lanes.map lane).find? (·.neg)) = none := by
    rcases h with h | h
    · rw [if_pos h]
    · rw [find_neg_none h, ite_self]
  rw [State.momEnd, hfind]

/-- A negative variance raises NVAR for the lowest lane that shows one, unless `NVM` is set (R106). -/
theorem State.momEnd_raise (hs : x.lanes.Pairwise (· < ·)) (hnvm : (s.warp x.w).mctl.getLsbD 0 = false) {l : Nat}
    (hl : l ∈ x.lanes) (hid : (lane l).lane = l) (hneg : (lane l).neg = true)
    (hlow : ∀ j ∈ x.lanes, j < l → (lane j).neg = false) :
    s.momEnd x (x.lanes.map lane) put = .raise s (precise cNvar x.cp l) := by
  simp only [State.momEnd, hnvm, if_neg Bool.false_ne_true, find_neg hs hl hneg hlow, hid]

end

/-! ### Instructions that write a moment, or an FP32 value -/

section
variable {f : FK} {s : State} {x : Ix}

/-- Either `NVM` is set or no lane shows a negative variance. -/
def MayComplete {α : Type} (s : State) (x : Ix) (r : Nat → MRes α × Bool) : Prop :=
  (s.warp x.w).mctl.getLsbD 0 = true ∨ ∀ l ∈ x.lanes, (r l).1.neg = false

/-- The instruction raises NVAR for the lowest lane that shows a negative variance (R106). -/
def RaisesNvar {α : Type} (s : State) (x : Ix) (i : Instr) (r : Nat → MRes α × Bool) : Prop :=
  ∀ l ∈ x.lanes, (s.warp x.w).mctl.getLsbD 0 = false → (r l).1.neg = true →
    (∀ j ∈ x.lanes, j < l → (r j).1.neg = false) → exec i s = .next (s.raise x.w x.ent (precise 0x30 x.cp l))

/-- Moments written to `mD`, with their status. -/
structure MomentsPut (f : FK) (lanes : List Nat) (r : Nat → MRes Mom × Bool) (a b : Warp) : Prop where
  v : b.v = a.v
  s : b.s = a.s
  p : b.p = a.p
  value : ∀ l ∈ lanes, b.rm f.md.toNat l = (r l).1.val.code
  keep : ∀ q l, l < 32 → ¬ (q = f.md.toNat ∧ l ∈ lanes) → b.rm q l = a.rm q l
  status : b.mstat =
    a.mstat ||| statusBits lanes (fun l => (r l).1.neg) (fun l => (r l).1.val.isNan) fun l => (r l).2

/-- FP32 values written to `vD`, with their status. -/
structure ValuesPut (f : FK) (lanes : List Nat) (r : Nat → MRes FV × Bool) (a b : Warp) : Prop where
  m : b.m = a.m
  p : b.p = a.p
  dest : Writes a b lanes f.v 1 fun l => fp32.round {} (r l).1.val
  status : b.mstat =
    a.mstat ||| statusBits lanes (fun l => (r l).1.neg) (fun l => (r l).1.val.isNan) fun l => (r l).2

/-- What `momDo` answers when it may complete. -/
theorem State.momDo_adv {g : Guard} (hx : IxOf s g x) {m : Nat → MomM (MRes Mom)}
    (h : MayComplete s x fun l => runMom (m l)) : ∃ b, s.momDo x f m = .adv (s.setWarp x.w b) ∧
      b = (s.warp x.w).withMoments b ∧ MomentsPut f x.lanes (fun l => runMom (m l)) (s.warp x.w) b := by
  refine ⟨_, State.momEnd_adv (lane := fun l => momLane l (m l)) h, ?_⟩
  obtain ⟨hrest, hval, hkeep⟩ := Warp.wmLanes_writesM (lane := fun l => momLane l (m l)) (fun _ => rfl) f.md.toNat x.lanes
    (fun l hl => hx.lanes_lt hl) (s.warp x.w)
  rw [mstatOf_map]
  generalize (s.warp x.w).wmLanes f.md.toNat _ = b at *
  refine ⟨by rw [hrest]; rfl, by rw [hrest]; rfl, by rw [hrest]; rfl, by rw [hrest]; rfl, fun l hl => ?_, hkeep, by rw [hrest]; rfl⟩
  exact (hval l hl).trans (BitVec.eq_of_toNat_eq (by simp [momLane]))

/-- What `momV` answers when it may complete. -/
theorem State.momV_adv {g : Guard} (hx : IxOf s g x) {m : Nat → MomM (MRes FV)}
    (h : MayComplete s x fun l => runMom (m l)) : ∃ b, s.momV x f m = .adv (s.setWarp x.w b) ∧
      b = (s.warp x.w).withMoments b ∧ ValuesPut f x.lanes (fun l => runMom (m l)) (s.warp x.w) b := by
  refine ⟨_, State.momEnd_adv (lane := fun l => fpLane l (m l)) h, ?_⟩
  have hdest := Warp.wlanes_writes f.v 1 (fun l => fp32.round {} (runMom (m l)).1.val) x.lanes (s.warp x.w)
    (fun l hl => hx.lanes_lt hl) hx.lanes_nodup
  have hrest := Warp.wlanes_rest x.lanes (s.warp x.w) f.v 1 fun l => fp32.round {} (runMom (m l)).1.val
  rw [mstatOf_map, Warp.wvLanes_eq fun _ => rfl]
  have hval : (fun l => (fpLane l (m l)).code) = fun l => fp32.round {} (runMom (m l)).1.val := rfl
  rw [hval]
  generalize (s.warp x.w).wlanes f.v 1 _ x.lanes = b at *
  exact ⟨by rw [hrest]; rfl, by rw [hrest]; rfl, by rw [hrest]; rfl, ⟨hdest.value, hdest.keepV, hdest.keepS, hdest.marks⟩, by rw [hrest]; rfl⟩

/-- What an instruction that ends in `momDo` does. -/
structure DoesMoment (f : FK) (s : State) (x : Ix) (i : Instr) (r : Nat → MRes Mom × Bool) : Prop where
  done : Ready s i x → MayComplete s x r → ∃ t, exec i s = .next t ∧ OnlyWarp s t x.w ∧ FallsThrough s t x ∧
    KeptButMoments (s.warp x.w) (t.warp x.w) ∧ MomentsPut f x.lanes r (s.warp x.w) (t.warp x.w)
  stops : Ready s i x → RaisesNvar s x i r

/-- What an instruction that ends in `momV` does. -/
structure DoesValue (f : FK) (s : State) (x : Ix) (i : Instr) (r : Nat → MRes FV × Bool) : Prop where
  done : Ready s i x → MayComplete s x r → ∃ t, exec i s = .next t ∧ OnlyWarp s t x.w ∧ FallsThrough s t x ∧
    KeptButMoments (s.warp x.w) (t.warp x.w) ∧ ValuesPut f x.lanes r (s.warp x.w) (t.warp x.w)
  stops : Ready s i x → RaisesNvar s x i r

theorem doesMoment_of {i : Instr} {m : Nat → MomM (MRes Mom)}
    (hi : Ready s i x → exec i s = .next (State.settle x (s.momDo x f m))) :
    DoesMoment f s x i fun l => runMom (m l) where
  done h hmay := by
    obtain ⟨b, hdo, hrest, hput⟩ := State.momDo_adv h.ix hmay
    obtain ⟨honly, hfalls, hkept, hwarp⟩ := settle_setWarp_moments h.ix hrest
    refine ⟨_, (hi h).trans (by rw [hdo]), honly, hfalls, hkept, ?_⟩
    rw [hwarp]
    exact ⟨hput.v, hput.s, hput.p, hput.value, hput.keep, hput.status⟩
  stops h l hl hnvm hneg hlow := by
    rw [hi h, State.momDo, State.momEnd_raise (lane := fun l => momLane l (m l)) (h.ix.targets_ascending false) hnvm hl rfl
      hneg hlow]
    rfl

theorem doesValue_of {i : Instr} {m : Nat → MomM (MRes FV)}
    (hi : Ready s i x → exec i s = .next (State.settle x (s.momV x f m))) :
    DoesValue f s x i fun l => runMom (m l) where
  done h hmay := by
    obtain ⟨b, hdo, hrest, hput⟩ := State.momV_adv h.ix hmay
    obtain ⟨honly, hfalls, hkept, hwarp⟩ := settle_setWarp_moments h.ix hrest
    refine ⟨_, (hi h).trans (by rw [hdo]), honly, hfalls, hkept, ?_⟩
    rw [hwarp]
    exact ⟨hput.m, hput.p, ⟨hput.dest.value, hput.dest.keepV, hput.dest.keepS, hput.dest.marks⟩, hput.status⟩
  stops h l hl hnvm hneg hlow := by
    rw [hi h, State.momV, State.momEnd_raise (lane := fun l => fpLane l (m l)) (h.ix.targets_ascending false) hnvm hl rfl
      hneg hlow]
    rfl

end

/-! ### Operands with a NaN half (R96; log entry 55) -/

theorem runMom_momGuard {α : Type} (nan : α) (ops : List Mom) (m : MomM (MRes α)) :
    runMom (momGuard nan ops m) = if ops.any Mom.isNan then ({ val := nan }, false) else runMom m := by
  unfold momGuard
  split <;> rfl

/-- A pair as `MSET` and `MLD` take it: a negative variance is replaced by +0 and reported (R106). -/
def takePair (p : Mom) : MRes Mom × Bool :=
  runMom (pure (if p.var.isNeg then { val := { p with var := fvZero }, neg := true } else { val := p }))

theorem runMom_mPair (p : Mom) : runMom (mPair p) = takePair p := (rfl)

/-! ### `MSHFL` (R105, R199, R266) -/

section
variable {c : Common} {f : FK} {s : State} {x : Ix}

/-- The lane that a lane of `MSHFL` reads, and whether it is a participating one. -/
def State.mshflSource (s : State) (x : Ix) (f : FK) (l : Nat) : Bool × Nat :=
  x.shflLane (modBits f.mod 0 2) (2 ^ modBits f.mod 2 3) ((s.warp x.w).word f.v 0 l).toNat l

/-- The result of a lane of `MSHFL`. -/
def State.mshflLane (s : State) (x : Ix) (f : FK) (l : Nat) : MLane :=
  let y := (s.warp x.w).rm f.ma.toNat (s.mshflSource x f l).2
  { lane := l, code := y.toNat, nan := (momOf y).isNan, neg := false, ov := false }

theorem State.setWarp_writeP (a : Warp) (pd : BitVec 3) (val : Nat → Bool) : (s.setWarp x.w a).writeP x false pd val =
    s.setWarp x.w (a.wp pd.toNat (maskOf x.lanes) (x.predMask false val)) := by
  unfold State.writeP
  rw [State.setWarp_warp_self]
  unfold State.setWarp
  rw [tset_tset]

/-- The warp after the writes of `MSHFL`. -/
def State.mshflWarp (s : State) (x : Ix) (f : FK) : Warp :=
  let l := x.lanes.map (s.mshflLane x f)
  (((s.warp x.w).wmLanes f.md.toNat l).mstatSet (mstatOf l)).wp f.pd.toNat (maskOf x.lanes)
    (x.predMask false fun l => (s.mshflSource x f l).1)

theorem exec_mshfl_ready (h : Ready s (.mshfl c f) x) :
    exec (.mshfl c f) s = .next (State.settle x (.adv (s.setWarp x.w (s.mshflWarp x f)))) := by
  refine (exec_mshfl c f s).trans ((State.issue_ready h _).trans ?_)
  dsimp only
  rw [State.setWarp_writeP]
  rfl

/-- A predicate written in the participating lanes. -/
theorem Warp.wp_writesP (a : Warp) (pd : BitVec 3) (val : Nat → Bool) :
    WritesP a (a.wp pd.toNat (maskOf x.lanes) (x.predMask false val)) x.lanes pd val := by
  intro k l hl
  have h7 : pd.toNat ≠ 7 ↔ pd ≠ 7 := not_congr (BitVec.toNat_inj (y := 7))
  simp only [Warp.rp_wp _ _ _ _ _ _ hl, h7, maskOf_getLsbD _ _ hl, decide_eq_true_iff]
  refine if_ctx_congr Iff.rfl (fun hk => ?_) fun _ => rfl
  rw [Ix.predMask, if_neg Bool.false_ne_true, maskOf_getLsbD _ _ hl]
  simp [hk.2.2]

theorem exec_mshfl_effect (h : Ready s (.mshfl c f) x) : ∃ t, exec (.mshfl c f) s = .next t ∧ OnlyWarp s t x.w ∧
    FallsThrough s t x ∧ KeptButMoments (s.warp x.w) (t.warp x.w) ∧ (t.warp x.w).v = (s.warp x.w).v ∧
    (t.warp x.w).s = (s.warp x.w).s ∧
    (∀ l ∈ x.lanes, (t.warp x.w).rm f.md.toNat l = (s.warp x.w).rm f.ma.toNat (s.mshflSource x f l).2) ∧
    (∀ q l, l < 32 → ¬ (q = f.md.toNat ∧ l ∈ x.lanes) → (t.warp x.w).rm q l = (s.warp x.w).rm q l) ∧
    WritesP (s.warp x.w) (t.warp x.w) x.lanes f.pd (fun l => (s.mshflSource x f l).1) ∧
    (t.warp x.w).mstat = (s.warp x.w).mstat ||| statusBits x.lanes (fun _ => false)
      (fun l => (momOf ((s.warp x.w).rm f.ma.toNat (s.mshflSource x f l).2)).isNan) fun _ => false := by
  refine ⟨_, exec_mshfl_ready h, ?_⟩
  obtain ⟨hrest, hval, hkeep⟩ := Warp.wmLanes_writesM (lane := s.mshflLane x f) (fun _ => rfl) f.md.toNat x.lanes
    (fun l hl => h.ix.lanes_lt hl) (s.warp x.w)
  have hst := mstatOf_map (s.mshflLane x f) x.lanes
  rw [State.mshflWarp]
  generalize (s.warp x.w).wmLanes f.md.toNat _ = a, mstatOf _ = st at *
  have hpred := Warp.wp_writesP (x := x) (a.mstatSet st) f.pd fun l => (s.mshflSource x f l).1
  have hwp := Warp.wp_rest (a.mstatSet st) f.pd.toNat (maskOf x.lanes) (x.predMask false fun l => (s.mshflSource x f l).1)
  generalize Warp.wp _ _ _ _ = b at *
  have hrm (q l : Nat) : b.rm q l = a.rm q l := by rw [hwp]; rfl
  have hrp (k l : Nat) : a.rp k l = (s.warp x.w).rp k l := by rw [hrest]; rfl
  obtain ⟨honly, hfalls, hkept, hwarp⟩ := settle_setWarp_moments h.ix (b := b) (by rw [hwp, hrest]; rfl)
  refine ⟨honly, hfalls, hkept, ?_⟩
  rw [hwarp]
  refine ⟨by rw [hwp, hrest]; rfl, by rw [hwp, hrest]; rfl, fun l hl => ?_, fun q l hl hq => ?_, fun k l hl => ?_,
    by rw [hwp, hrest, hst]; rfl⟩
  · exact (hrm _ _).trans ((hval l hl).trans (BitVec.eq_of_toNat_eq (by simp [State.mshflLane])))
  · exact (hrm q l).trans (hkeep q l hl hq)
  · exact (hpred k l hl).trans (by rw [← hrp]; rfl)

end

/-! ### `MLD` and `MST` (R265) -/

section
variable {c : Common} {f : FK} {s : State} {x : Ix} {sp : Space}

/-- The pair that a lane of `MLD` reads. -/
def State.mldPair (s : State) (x : Ix) (f : FK) (sp : Space) (l : Nat) : Mom :=
  momOf (.ofNat 64 (rdNat (s.bytes sp) (s.keyAt x (mAddress f) 8 sp l) 8))

theorem State.momDo_congr {m m' : Nat → MomM (MRes Mom)} (h : ∀ l ∈ x.lanes, m l = m' l) :
    s.momDo x f m = s.momDo x f m' := by
  rw [State.momDo, State.momDo, List.map_congr_left fun l hl => congrArg (momLane l) (h l hl)]

/-- The lanes that take part find their keys in the list of keys. -/
theorem State.momDo_mldPair : (s.momDo x f fun l =>
      mPair (momOf (.ofNat 64 (s.getLocal sp (tget 0 (s.keysAt x (mAddress f) false 8 sp) l) 8)))) =
    s.momDo x f fun l => mPair (s.mldPair x f sp l) := by
  refine State.momDo_congr fun l hl => ?_
  rw [State.keysAt, tget_map_key, if_pos (show l ∈ x.targets false from hl)]
  rfl

section
variable (h : Ready s (.mld c f) x) (hp : Passes s s x (mAddress f) false .load 8 sp (fun _ => false) false)
  (hn : s.poisonFault x sp 8 (s.keysAt x (mAddress f) false 8 sp) = none)
include h hp hn

theorem exec_mld_passes : exec (.mld c f) s = .next (State.settle x ((s.momDo x f fun l => mPair (s.mldPair x f sp l)).after fun y =>
    y.loadRecord x sp 8 (s.keysAt x (mAddress f) false 8 sp))) := by
  rw [exec_mld, execMld, State.issue_ready h, hp.access]
  simp only [List.isEmpty_nil, Bool.not_true, Bool.false_eq_true, if_false, State.loadChecks, hp.raceCheck, hn, State.momDo_mldPair]

/-- `MLD` writes its moments and leaves its accesses on record; no byte changes. -/
theorem exec_mld_effect (hmay : MayComplete s x fun l => takePair (s.mldPair x f sp l)) :
    ∃ t, exec (.mld c f) s = .next t ∧ OnlyLocal s t x.w sp ∧ t.shared = s.shared ∧ t.plinth = s.plinth ∧
      FallsThrough s t x ∧ KeptButMoments (s.warp x.w) (t.warp x.w) ∧
      MomentsPut f x.lanes (fun l => takePair (s.mldPair x f sp l)) (s.warp x.w) (t.warp x.w) := by
  simp only [← runMom_mPair] at hmay ⊢
  obtain ⟨b, hdo, hrest, hput⟩ := State.momDo_adv h.ix hmay
  refine ⟨_, exec_mld_passes h hp hn, ?_⟩
  rw [hdo, Res.after, State.loadRecord, State.recordAll_rest]
  generalize (s.setWarp x.w b).recordAll sp 8 _ _ = u
  obtain ⟨honly, hfalls, hkept, hwarp⟩ := settle_setWarp_moments (s := s.withRecords u) (g := c.grd) (b := b)
    ⟨h.ix.w, h.ix.ent, h.ix.lanes⟩ hrest
  refine ⟨(onlyLocal_withRecords s u x.w sp).trans (honly.onlyLocal sp), rfl, rfl, hfalls, hkept, ?_⟩
  have hmoved : ((s.setWarp x.w b).withRecords u) = (s.withRecords u).setWarp x.w b := rfl
  rw [hmoved, hwarp]
  exact ⟨hput.v, hput.s, hput.p, hput.value, hput.keep, hput.status⟩

end

/-- The bytes of an `MST`, lane by lane. -/
def State.mstBytes (s : State) (x : Ix) (f : FK) (sp : Space) : List (Nat × Byte) :=
  x.lanes.flatMap fun l => addrs (s.keyAt x (mAddress f) 8 sp l) (bytesOf 8 ((s.warp x.w).rm f.ma.toNat l).toNat)

section
variable (h : Ready s (.mst c f) x) (hp : Passes s s x (mAddress f) false .store 8 sp (fun _ => true) false)
  (hf : s.flushHolds x.w (s.mstBytes x f sp) = false)
include h hp hf

theorem exec_mst_passes : exec (.mst c f) s = .next (State.settle x (.adv
    ((s.storeCounted x sp 8 (s.keysAt x (mAddress f) false 8 sp)).putLocal sp (s.mstBytes x f sp)))) := by
  have hbytes : (s.keysAt x (mAddress f) false 8 sp).flatMap
      (fun (k, key) => addrs key (bytesOf 8 ((s.warp x.w).rm f.ma.toNat k).toNat)) = s.mstBytes x f sp :=
    List.flatMap_map ..
  have hflush : ((s.recordAll sp 8 (fun _ => s.accOf x.w true false)
      (s.keysAt x (mAddress f) false 8 sp)).countWrite x).flushHolds x.w (s.mstBytes x f sp) = false :=
    (s.storeCounted_flushHolds ..).trans hf
  rw [exec_mst, execMst, State.issue_ready h, hp.access]
  simp only [storeAct, hp.raceCheck, hbytes, hflush, List.isEmpty_nil, if_true, Bool.not_true, Bool.false_and, Bool.or_self,
    Bool.false_eq_true, if_false, State.parkAll]
  rfl

/-- `MST` writes its moments lane by lane and is counted; no register changes. -/
theorem exec_mst_effect : ∃ t, exec (.mst c f) s = .next t ∧ OnlyLocal s t x.w sp ∧ FallsThrough s t x ∧
    t.bytes sp = wrLanes 8 (s.keyAt x (mAddress f) 8 sp) (fun l => ((s.warp x.w).rm f.ma.toNat l).toNat) x.lanes (s.bytes sp) ∧
    t.warp x.w = { s.warp x.w with
      threads := (t.warp x.w).threads, entries := (t.warp x.w).entries, yielding := (t.warp x.w).yielding
      hold := none, wissue := (s.warp x.w).wissue + if x.lanes = [] then 0 else 1 } := by
  refine ⟨_, exec_mst_passes h hp hf, ?_⟩
  have hcounted := s.storeCounted_warp x sp 8 (s.keysAt x (mAddress f) false 8 sp)
  have hlocal := s.storeCounted_onlyLocal x sp 8 (s.keysAt x (mAddress f) false 8 sp)
  have hstored := s.storeCounted_bytes x sp 8 (s.keysAt x (mAddress f) false 8 sp)
  generalize s.storeCounted x sp 8 (s.keysAt x (mAddress f) false 8 sp) = u at *
  have hwarp : (u.putLocal sp (s.mstBytes x f sp)).warp x.w = u.warp x.w := by
    rw [State.warp, State.putLocal_warps]
    rfl
  refine ⟨hlocal.trans ((u.putLocal_onlyLocal x.w sp _).trans ((settle_adv_onlyWarp x _).onlyLocal sp)),
    falls_settle h.ix (by rw [hwarp, hcounted]), ?_, ?_⟩
  · have hbytes : (State.settle x (.adv (u.putLocal sp (s.mstBytes x f sp)))).bytes sp =
        (u.putLocal sp (s.mstBytes x f sp)).bytes sp := by cases sp <;> rfl
    rw [hbytes, State.putLocal_bytes, hstored, State.mstBytes, wrList_lanes]
  · have hrest := settle_adv_rest x (u.putLocal sp (s.mstBytes x f sp))
    rwa [hwarp, hcounted] at hrest

end

end

/-- A number stored by a lane reads back when no higher lane stores over it. -/
theorem rdNat_wrLanes_highest {n : Nat} {key v : Nat → Nat} {ls : List Nat} (hs : ls.Pairwise (· < ·)) {l : Nat} (hl : l ∈ ls)
    (h : ∀ k ∈ ls, l < k → ¬ (key k < key l + n ∧ key l < key k + n)) (m : List Host.Cell) :
    rdNat (wrLanes n key v ls m) (key l) n = v l % 256 ^ n := by
  refine rdNat_of_rdByte n (key l) (v l) fun j hj => ?_
  have hbyte := rdByte_wrLanes_highest (key := key) (v := v) hs hl hj
    (fun k hk hlk hc => h k hk hlk ⟨by omega, by omega⟩) m
  rwa [pow_mul] at hbyte

end Sys2Proof.Machine
end

section
/-! PROOFS. The moment rules and instructions put together (O39). -/

namespace Sys2Proof.Machine

section
variable {c : Common} {f : FK} {s : State} {x : Ix}

/-- A result of operands with a NaN half is NaN, and no step is performed (R96). -/
def unlessNan {α : Type} (bad : Bool) (r : α) (m : MomM (MRes α)) : MRes α × Bool :=
  if bad then ({ val := r }, false) else runMom m

theorem runMom_guard_one {α : Type} (r : α) (a : Mom) (m : MomM (MRes α)) :
    runMom (momGuard r [a] m) = unlessNan a.isNan r m := by
  rw [runMom_momGuard]
  simp [unlessNan]

theorem runMom_guard_two {α : Type} (r : α) (a b : Mom) (m : MomM (MRes α)) :
    runMom (momGuard r [a, b] m) = unlessNan (a.isNan || b.isNan) r m := by
  rw [runMom_momGuard]
  simp [unlessNan]

theorem runMom_guard_three {α : Type} (r : α) (a b k : Mom) (m : MomM (MRes α)) :
    runMom (momGuard r [a, b, k] m) = unlessNan (a.isNan || b.isNan || k.isNan) r m := by
  rw [runMom_momGuard]
  simp [unlessNan, Bool.or_assoc]

/-- A binary form (R97). -/
theorem doesMoment_binary {i : Instr} {op : Cov → Mom → Mom → FV → MomM (MRes Mom)}
    (hi : exec i s = s.issue false i fun x t => t.momBin x f op) :
    DoesMoment f s x i fun l =>
      unlessNan (((s.warp x.w).mom f.ma l).isNan || ((s.warp x.w).mom f.mb l).isNan) momNan
        (op (covOf f.cov) ((s.warp x.w).mom f.ma l) ((s.warp x.w).mom f.mb l) ((s.warp x.w).momV f l)) := by
  simp only [← runMom_guard_two]
  exact doesMoment_of fun h => hi.trans (State.issue_ready h _)

/-- A unary form. -/
theorem doesMoment_unary {i : Instr} {op : State → Ix → Nat → Mom → MomM (MRes Mom)}
    (hi : exec i s = s.issue false i fun x t => t.momUn x f (op t x)) :
    DoesMoment f s x i fun l =>
      unlessNan ((s.warp x.w).mom f.ma l).isNan momNan (op s x l ((s.warp x.w).mom f.ma l)) := by
  simp only [← runMom_guard_one]
  exact doesMoment_of fun h => hi.trans (State.issue_ready h _)

theorem doesMoment_mset : DoesMoment f s x (.mset c f) fun l =>
    takePair (momOf (.ofNat 64 ((s.warp x.w).opd f.v 2 l))) := by
  simp only [← runMom_mPair]
  exact doesMoment_of fun h => (exec_mset c f s).trans (State.issue_ready h _)

theorem doesMoment_mfma : DoesMoment f s x (.mfma c f) fun l =>
    unlessNan (((s.warp x.w).mom f.ma l).isNan || ((s.warp x.w).mom f.mb l).isNan || ((s.warp x.w).mom f.mc l).isNan) momNan
      (mFma (covOf f.cov) ((s.warp x.w).mom f.ma l) ((s.warp x.w).mom f.mb l) ((s.warp x.w).mom f.mc l)
        ((s.warp x.w).momV f l)) := by
  simp only [← runMom_guard_three]
  exact doesMoment_of fun h => (exec_mfma c f s).trans (State.issue_ready h _)

/-- The moments that `MRED` sums: (+0, +0) for a lane that does not take part (R105). -/
def State.mredLanes (s : State) (x : Ix) (f : FK) : List Mom :=
  (List.range 32).map fun l => if l ∈ x.lanes then (s.warp x.w).mom f.ma l else { mean := fvZero, var := fvZero }

theorem doesMoment_mred : DoesMoment f s x (.mred c f) fun _ =>
    unlessNan ((s.mredLanes x f).any Mom.isNan) momNan (mRedOf (covOf f.cov) (s.mredLanes x f)) := by
  have hall : (allLanes.map fun k => if x.lanes.contains k then (s.warp x.w).mom f.ma k else { mean := fvZero, var := fvZero }) =
      s.mredLanes x f := by
    simp only [List.contains_iff_mem, State.mredLanes, allLanes]
  have hdoes : DoesMoment f s x (.mred c f) fun _ =>
      runMom (momGuard momNan (s.mredLanes x f) (mRedOf (covOf f.cov) (s.mredLanes x f))) := by
    rw [← hall]
    exact doesMoment_of fun h => (exec_mred c f s).trans (State.issue_ready h _)
  rwa [runMom_momGuard] at hdoes

theorem doesValue_mplt : DoesValue f s x (.mplt c f) fun l =>
    unlessNan (((s.warp x.w).mom f.ma l).isNan || ((s.warp x.w).mom f.mb l).isNan) .nan
      (mPlt (covOf f.cov) ((s.warp x.w).mom f.ma l) ((s.warp x.w).mom f.mb l) ((s.warp x.w).momV f l)) := by
  simp only [← runMom_guard_two]
  exact doesValue_of fun h => (exec_mplt c f s).trans (State.issue_ready h _)

theorem doesValue_mcol : DoesValue f s x (.mcol c f) fun l =>
    unlessNan ((s.warp x.w).mom f.ma l).isNan .nan
      (mCol (modBits f.mod 0 3) ((s.warp x.w).mom f.ma l) ((s.warp x.w).momV f l)) := by
  simp only [← runMom_guard_one]
  exact doesValue_of fun h => (exec_mcol c f s).trans (State.issue_ready h _)

end

/-- Settles O39: each rule yields its steps' values, and each instruction puts its lanes' results. -/
theorem moments : Obligations.Moments := by
  unfold Obligations.Moments
  refine ⟨?_, ?_⟩
  · intro a b k e z cov rn add sub mul div sqrt fn zero one log2e eighth sa sb c plain checked product sq g t pvar th2 none_
      found th clark
    have hchk (mean var : FV) : momChk (cov == .exp) mean var = checked mean var := momChk_exp cov mean var
    have hprod (mean var : FV) : momProduct cov mean var = product mean var := by
      rw [momProduct_eq, hchk]
      rfl
    refine ⟨(yields_mSum cov a b e false false).trans ?_, (yields_mSum cov a b e true false).trans ?_,
      yields_mScl a e false, momClip_spec, (yields_mProd cov a b e false).trans (hprod _ _),
      (yields_mFma cov a b k e false).trans (hprod _ _), yields_mRelu a false, yields_mSigm a false, yields_mExp a false,
      fun h => yields_mMax_none cov e h false, fun h => yields_mMax_some cov e h false,
      fun h => (yields_mMin_none cov e h false).trans ?_, fun h => yields_mMin_some cov e h false, ?_,
      yields_mCol_mean a z false, yields_mCol_var a z false, yields_mCol_dev a z false,
      fun n hn => yields_mCol_quantile a z n hn false, fun l hl => ⟨yields_mRedOf_ind l hl false, yields_mRedOf_pos l hl false⟩⟩
    · rw [hchk]
      cases cov <;> rfl
    · rw [hchk]
      cases cov <;> rfl
    · split <;> rfl
    · split
      · next h => exact yields_mPlt_none cov e h false
      · next h => exact yields_mPlt_some cov e h false
  · intro c f s x w reg a b k e cov nan both ifNan code pair nvm status rest toM toV fails may does doesV two one all src key
    have hdoes {i : Instr} {r : Nat → MRes Mom × Bool} (h : DoesMoment f s x i r) : does i r := by
      refine ⟨fun hr hm => ?_, h.stops⟩
      obtain ⟨t, hexec, honly, hfalls, hkept, hput⟩ := h.done hr hm
      exact ⟨t, hexec, honly, hfalls, hkept, hput.v, hput.s, hput.p, hput.value, hput.keep, hput.status⟩
    have hdoesV {i : Instr} {r : Nat → MRes FV × Bool} (h : DoesValue f s x i r) : doesV i r := by
      refine ⟨fun hr hm => ?_, h.stops⟩
      obtain ⟨t, hexec, honly, hfalls, hkept, hput⟩ := h.done hr hm
      exact ⟨t, hexec, honly, hfalls, hkept, hput.m, hput.p, hput.dest, hput.status⟩
    refine ⟨hdoes doesMoment_mset, hdoes (doesMoment_unary (exec_mmov c f s)), hdoes (doesMoment_binary (exec_madd c f s)),
      hdoes (doesMoment_binary (exec_msub c f s)), hdoes (doesMoment_binary (exec_mmul c f s)),
      hdoes (doesMoment_binary (exec_mmax c f s)), hdoes (doesMoment_binary (exec_mmin c f s)), hdoes doesMoment_mfma,
      hdoes (doesMoment_unary (exec_mscl c f s)), hdoes (doesMoment_unary (exec_mrelu c f s)),
      hdoes (doesMoment_unary (exec_msigm c f s)), hdoes (doesMoment_unary (exec_mexp c f s)), hdoes doesMoment_mred,
      hdoesV doesValue_mplt, hdoesV doesValue_mcol, exec_mshfl_effect, ?_, ?_⟩
    · intro sp h hp hn hmay
      obtain ⟨t, hexec, hlocal, hshared, hplinth, hfalls, hkept, hput⟩ := exec_mld_effect h hp hn hmay
      exact ⟨t, hexec, hlocal, hshared, hplinth, hfalls, hkept, hput.v, hput.s, hput.p, hput.value, hput.keep, hput.status⟩
    · intro sp h hp hf
      obtain ⟨t, hexec, hlocal, hfalls, hbytes, hwarp⟩ := exec_mst_effect h hp hf
      refine ⟨t, hexec, hlocal, hfalls, fun q hq => ?_, fun l hl hover => ?_, hwarp⟩
      · rw [hbytes]
        exact rdByte_wrLanes_out hq _
      · have hasc : x.lanes.Pairwise (· < ·) := h.ix.targets_ascending false
        refine (congrArg (rdNat · (key sp l) 8) hbytes).trans ((rdNat_wrLanes_highest hasc hl hover _).trans ?_)
        exact Nat.mod_eq_of_lt (w.rm f.ma.toNat l).isLt

end Sys2Proof.Machine
end

section
/-! PROOFS. Rounding an exact magnitude to a multiple of a power of two (R154, R156). -/

namespace Sys2Proof.Machine

/-! ### What a mantissa stands for -/

/-- m · 2^e, plus a positive amount below 2^e when `sticky`, stands for a magnitude. -/
def Stands (X : Real) (m : Nat) (e : Int) (sticky : Bool) : Prop :=
  if sticky then m * (2 : Real) ^ e < X ∧ X < (m + 1) * (2 : Real) ^ e else X = m * (2 : Real) ^ e

theorem two_zpow_pos (e : Int) : (0 : Real) < (2 : Real) ^ e := zpow_pos two_pos e

/-- A multiple of a power of two at a lower place. -/
theorem mul_two_zpow_lower (m : Nat) {e k : Int} (h : k ≤ e) :
    (m : Real) * (2 : Real) ^ e = (m * 2 ^ (e - k).toNat : Nat) * (2 : Real) ^ k := by
  have hexp : e = ((e - k).toNat : Int) + k := by omega
  conv_lhs => rw [hexp, zpow_add₀ two_ne_zero, zpow_natCast]
  push_cast
  ring

theorem dyLt_iff (m m' : Nat) (e e' : Int) :
    dyLt m e m' e' = true ↔ (m : Real) * (2 : Real) ^ e < m' * (2 : Real) ^ e' := by
  rw [mul_two_zpow_lower m (min_le_left e e'), mul_two_zpow_lower m' (min_le_right e e'),
    mul_lt_mul_iff_left₀ (two_zpow_pos _), Nat.cast_lt]
  exact decide_eq_true_iff

section
variable {X : Real} {m : Nat} {e : Int} {sticky : Bool} (h : Stands X m e sticky)
include h

theorem Stands.le : m * (2 : Real) ^ e ≤ X := by
  cases sticky with
  | true => exact (show _ ∧ _ from h).1.le
  | false => exact (show _ = _ from h).ge

theorem Stands.lt : X < (m + 1) * (2 : Real) ^ e := by
  cases sticky with
  | true => exact (show _ ∧ _ from h).2
  | false =>
    rw [show X = _ from h]
    have := two_zpow_pos e
    linarith

theorem Stands.nonneg : 0 ≤ X := (by positivity : (0 : Real) ≤ m * (2 : Real) ^ e).trans h.le

/-- The part of the last place that a mantissa leaves out. -/
theorem Stands.frac : ∃ d : Real, X = (m + d) * (2 : Real) ^ e ∧ 0 ≤ d ∧ d < 1 ∧ (0 < d ↔ sticky = true) := by
  have hpos := two_zpow_pos e
  refine ⟨X / (2 : Real) ^ e - m, by field_simp; ring, ?_, ?_, ?_⟩
  · have := h.le
    rw [sub_nonneg, le_div_iff₀ hpos]
    exact this
  · have := h.lt
    rw [sub_lt_iff_lt_add', div_lt_iff₀ hpos]
    exact this
  · rw [sub_pos, lt_div_iff₀ hpos]
    cases sticky with
    | true => exact iff_of_true (show _ ∧ _ from h).1 rfl
    | false => exact iff_of_false (show _ = _ from h).le.not_gt Bool.false_ne_true

/-- A magnitude compares with a short multiple of a power of two as its mantissa does, when the mantissa of an inexact one is
long enough to show the place of the other. -/
theorem Stands.lt_iff {m' : Nat} {e' : Int} (hlong : sticky = true → m' ≤ m) :
    dyLt m e m' e' = true ↔ X < m' * (2 : Real) ^ e' := by
  rw [dyLt_iff]
  refine ⟨fun hlt => ?_, h.le.trans_lt⟩
  cases sticky with
  | false => exact (show _ = _ from h).trans_lt hlt
  | true =>
    have hpos := two_zpow_pos e
    rcases le_or_gt e e' with hle | hgt
    · rw [mul_two_zpow_lower m' hle] at hlt ⊢
      have hnat : m < m' * 2 ^ (e' - e).toNat := by exact_mod_cast lt_of_mul_lt_mul_right hlt hpos.le
      refine h.lt.trans_le (mul_le_mul_of_nonneg_right ?_ hpos.le)
      exact_mod_cast hnat
    · have hpow : (2 : Real) ^ e' ≤ (2 : Real) ^ e := zpow_le_zpow_right₀ one_le_two hgt.le
      have hm : (m' : Real) ≤ m := by exact_mod_cast hlong rfl
      exact absurd hlt (not_lt.mpr (mul_le_mul hm hpow (two_zpow_pos e').le (Nat.cast_nonneg m)))

theorem Stands.gt_iff {m' : Nat} {e' : Int} (hlong : sticky = true → m' ≤ m) :
    (dyLt m' e' m e || sticky && !dyLt m e m' e') = true ↔ m' * (2 : Real) ^ e' < X := by
  have hlt := h.lt_iff (e' := e') hlong
  rw [Bool.or_eq_true, Bool.and_eq_true, Bool.not_eq_true', ← Bool.not_eq_true, dyLt_iff m', hlt, not_lt]
  cases sticky with
  | false => rw [show X = _ from h]; simp
  | true =>
    have hX := (show _ ∧ _ from h).1
    refine ⟨fun hc => hc.elim (fun hl => hl.trans hX) fun hl => ?_, fun hl => .inr ⟨rfl, hl.le⟩⟩
    have hge : ¬ dyLt m e m' e' = true := fun hd => hl.2.not_gt (hlt.mp hd)
    rw [dyLt_iff, not_lt] at hge
    exact hge.trans_lt hX

end

/-! ### Rounding to an integer -/

/-- A number is a magnitude rounded under a mode, the value having a sign. -/
def RoundsMag (r : Rnd) (neg : Bool) (x : Real) (n : Nat) : Prop :=
  match r with
  | .rn => |x - n| ≤ 1 / 2 ∧ (|x - n| = 1 / 2 → n % 2 = 0)
  | .rz => n ≤ x ∧ x < n + 1
  | .rd => if neg then x ≤ n ∧ (n : Real) < x + 1 else n ≤ x ∧ x < n + 1
  | .ru => if neg then n ≤ x ∧ x < n + 1 else x ≤ n ∧ (n : Real) < x + 1

theorem roundsMag_exact (r : Rnd) (neg : Bool) (n : Nat) : RoundsMag r neg n n := by
  cases r <;> cases neg <;> simp [RoundsMag]

/-- What decides between n and n + 1 for a value that is the fraction t above n. -/
theorem roundsMag_frac (r : Rnd) (neg : Bool) (n : Nat) {t : Real} (h0 : 0 ≤ t) (h1 : t < 1) {up : Bool}
    (hrn : r = .rn → if up then 1 / 2 ≤ t ∧ (t = 1 / 2 → n % 2 = 1) else t ≤ 1 / 2 ∧ (t = 1 / 2 → n % 2 = 0))
    (hdir : r ≠ .rn → (up = true ↔ 0 < t ∧ (r = .rd ∧ neg = true ∨ r = .ru ∧ neg = false))) :
    RoundsMag r neg (n + t) (if up then n + 1 else n) := by
  have hfloor : (n : Real) ≤ n + t ∧ (n : Real) + t < n + 1 := ⟨by linarith, by linarith⟩
  have hceil (hup : up = true ↔ 0 < t) :
      (n : Real) + t ≤ (if up then n + 1 else n : Nat) ∧ ((if up then n + 1 else n : Nat) : Real) < n + t + 1 := by
    by_cases ht : 0 < t
    · rw [if_pos (hup.mpr ht)]
      push_cast
      constructor <;> linarith
    · rw [if_neg (mt hup.mp ht)]
      constructor <;> linarith
  have hstay (hno : ¬ up = true) : ((n : Real) ≤ n + t ∧ (n : Real) + t < n + 1) →
      ((if up then n + 1 else n : Nat) : Real) ≤ n + t ∧ (n : Real) + t < (if up then n + 1 else n : Nat) + 1 := by
    rw [if_neg hno]
    exact id
  cases r with
  | rn =>
    have hrn := hrn rfl
    cases up with
    | true =>
      rw [if_pos rfl] at hrn ⊢
      have habs : |(n : Real) + t - (n + 1 : Nat)| = 1 - t := by
        push_cast
        rw [abs_of_neg (by linarith)]
        ring
      refine ⟨by rw [habs]; linarith [hrn.1], fun he => ?_⟩
      rw [habs] at he
      have := hrn.2 (by linarith)
      omega
    | false =>
      rw [if_neg Bool.false_ne_true] at hrn ⊢
      have habs : |(n : Real) + t - n| = t := by rw [add_sub_cancel_left, abs_of_nonneg h0]
      exact ⟨by rw [habs]; exact hrn.1, fun he => hrn.2 (habs ▸ he)⟩
  | rz => exact hstay (by simp [hdir]) hfloor
  | rd =>
    cases neg with
    | true => exact hceil (by simp [hdir])
    | false => exact hstay (by simp [hdir]) hfloor
  | ru =>
    cases neg with
    | true => exact hstay (by simp [hdir]) hfloor
    | false => exact hceil (by simp [hdir])

/-- Rounding to nearest decides by the remainder and by what the mantissa leaves out. -/
theorem tie_of_rem {rem H n : Nat} {d : Real} {sticky : Bool} (hd0 : 0 ≤ d) (hd1 : d < 1) (hsticky : 0 < d ↔ sticky = true) :
    if (decide (H < rem) || rem == H && (sticky || n % 2 == 1)) = true
    then (H : Real) ≤ rem + d ∧ ((rem : Real) + d = H → n % 2 = 1)
    else (rem : Real) + d ≤ H ∧ ((rem : Real) + d = H → n % 2 = 0) := by
  rcases lt_trichotomy H rem with hlt | rfl | hgt
  · have hr : (H : Real) < rem := by exact_mod_cast hlt
    rw [if_pos (by simp [hlt])]
    exact ⟨by linarith, fun he => by linarith⟩
  · cases sticky with
    | true =>
      have hd := hsticky.mpr rfl
      rw [if_pos (by simp)]
      exact ⟨by linarith, fun he => by linarith⟩
    | false =>
      obtain rfl : d = 0 := le_antisymm (not_lt.mp fun hd => absurd (hsticky.mp hd) Bool.false_ne_true) hd0
      split
      · next hc => exact ⟨by linarith, fun _ => by simpa using hc⟩
      · next hc => exact ⟨by linarith, fun _ => by simpa using hc⟩
  · have hr : (rem : Real) + 1 ≤ H := by exact_mod_cast hgt
    rw [if_neg (by simp [hgt.ne, hgt.le])]
    exact ⟨by linarith, fun he => by linarith⟩

/-- `roundAt` rounds the magnitude in units of 2^q. -/
theorem roundAt_rounds (r : Rnd) (neg : Bool) {X : Real} {m : Nat} {e : Int} {sticky : Bool} (h : Stands X m e sticky) {q : Int}
    (hq : sticky = true → e < q) : RoundsMag r neg (X / (2 : Real) ^ q) (roundAt r neg m e sticky q) := by
  have hpos := two_zpow_pos q
  unfold roundAt
  split
  · next hle =>
    have hs : sticky = false := by
      cases sticky with
      | false => rfl
      | true => exact absurd (hq rfl) (not_lt.mpr hle)
    subst hs
    have hx : X / (2 : Real) ^ q = (m * 2 ^ (e - q).toNat : Nat) := by
      rw [show X = _ from h, mul_two_zpow_lower m hle, mul_div_cancel_right₀ _ hpos.ne']
    rw [hx]
    exact roundsMag_exact r neg _
  · next hgt =>
    obtain ⟨d, hX, hd0, hd1, hsticky⟩ := h.frac
    obtain ⟨k, hk⟩ : ∃ k : Nat, q = e + (k + 1 : Nat) := ⟨(q - e - 1).toNat, by omega⟩
    have hsh : (q - e).toNat = k + 1 := by omega
    rw [hsh]
    dsimp only
    rw [Nat.add_sub_cancel]
    have hhalf : 2 ^ (k + 1) = 2 * 2 ^ k := pow_succ' 2 k
    have hm := Nat.div_add_mod m (2 ^ (k + 1))
    have hlt := Nat.mod_lt m (Nat.two_pow_pos (k + 1))
    have hkpos := Nat.two_pow_pos k
    generalize m / 2 ^ (k + 1) = n at *
    generalize m % 2 ^ (k + 1) = rem at *
    have hx : X / (2 : Real) ^ q = n + (rem + d) / (2 * 2 ^ k : Nat) := by
      have hmr : (m : Real) = (2 * 2 ^ k : Nat) * n + rem := by rw [← hm, hhalf]; push_cast; ring
      rw [hX, hk, zpow_add₀ two_ne_zero, zpow_natCast, hmr]
      have := two_zpow_pos e
      push_cast
      field_simp
      ring
    rw [hhalf] at hlt
    generalize 2 ^ k = H at *
    have hH : (0 : Real) < (2 * H : Nat) := by exact_mod_cast Nat.mul_pos two_pos hkpos
    have hremr : (rem : Real) + 1 ≤ (2 * H : Nat) := by exact_mod_cast hlt
    have hrem0 : (0 : Real) ≤ rem := Nat.cast_nonneg rem
    have hhalfr : (1 : Real) / 2 * (2 * H : Nat) = H := by push_cast; ring
    rw [hx]
    refine roundsMag_frac r neg n (by positivity) (by rw [div_lt_one hH]; linarith) ?_ ?_
    · rintro rfl
      rw [le_div_iff₀ hH, div_le_iff₀ hH, div_eq_iff hH.ne', hhalfr]
      exact tie_of_rem hd0 hd1 hsticky
    · intro hr
      have hinexact : 0 < ((rem : Real) + d) / (2 * H : Nat) ↔ (rem != 0 || sticky) = true := by
        rw [div_pos_iff_of_pos_right hH, Bool.or_eq_true, bne_iff_ne, ← hsticky]
        refine ⟨fun hp => ?_, fun hc => ?_⟩
        · by_contra hno
          obtain ⟨hz, hd⟩ := not_or.mp hno
          rw [not_not.mp hz] at hp
          exact hd (by simpa using hp)
        · rcases hc with hc | hc
          · have : (0 : Real) < rem := by exact_mod_cast Nat.pos_of_ne_zero hc
            linarith
          · linarith
      rw [hinexact]
      cases r with
      | rn => exact absurd rfl hr
      | rz => simp
      | rd => simp [and_comm]
      | ru => simp [and_comm]

end Sys2Proof.Machine
end

section
/-! PROOFS. The values of the formats, and the one rounding of an exact magnitude to them (R149, R154, R155). -/

namespace Sys2Proof.Machine

/-! ### The rows of formats (R149) -/

/-- What a row says of its format: the mantissa and the place of its largest value, and the codes of its limits. -/
structure FpRow.Sound (p : FpRow) (mm : Nat) (mq : Int) : Prop where
  maxFin : p.fmt.maxFin = (mm, mq)
  fb : 0 < p.fmt.fb
  eb : 0 < p.fmt.eb
  lower : 2 ^ p.fmt.fb ≤ mm
  upper : mm < 2 ^ (p.fmt.fb + 1)
  place : p.fmt.emin - p.fmt.fb ≤ mq
  big : (p.big : Real) = mm * (2 : Real) ^ mq
  gap : (p.gap : Real) = (2 : Real) ^ mq
  limit : ∀ sat neg, p.limit sat neg = p.fmt.overflow sat neg
  top : mq + p.fmt.bias + p.fmt.fb < (2 ^ p.fmt.eb : Nat)
  finite : ∀ ex fr : Nat, fr < 2 ^ p.fmt.fb → (ex : Int) - p.fmt.bias - p.fmt.fb ≤ mq →
    ((ex : Int) - p.fmt.bias - p.fmt.fb = mq → 2 ^ p.fmt.fb + fr ≤ mm) →
    (p.fmt.kind == .ieee && ex == 2 ^ p.fmt.eb - 1) = false ∧
      (p.fmt.kind == .e4m3 && ex == 2 ^ p.fmt.eb - 1 && fr == 7) = false
  bounded : ∀ ex fr : Nat, ex < 2 ^ p.fmt.eb → fr < 2 ^ p.fmt.fb →
    (p.fmt.kind == .ieee && ex == 2 ^ p.fmt.eb - 1) = false →
    (p.fmt.kind == .e4m3 && ex == 2 ^ p.fmt.eb - 1 && fr == 7) = false →
    (ex : Int) - p.fmt.bias - p.fmt.fb ≤ mq ∧ ((ex : Int) - p.fmt.bias - p.fmt.fb = mq → 2 ^ p.fmt.fb + fr ≤ mm)

theorem fpRow_limit : ∀ p ∈ fpRows, ∀ sat neg, p.limit sat neg = p.fmt.overflow sat neg := by decide

/-- A row whose format keeps its top exponent for infinities and NaN, with its largest value at the place k. -/
theorem FpRow.Sound.of_ieee {p : FpRow} (hp : p ∈ fpRows) (k : Nat) (hk : p.fmt.kind = .ieee) (hfb : 0 < p.fmt.fb)
    (heb : 2 ≤ p.fmt.eb) (hplace : 2 ^ p.fmt.eb = k + 2 + p.fmt.bias + p.fmt.fb)
    (hbig : p.big = (2 ^ (p.fmt.fb + 1) - 1) * 2 ^ k) (hgap : p.gap = 2 ^ k) : p.Sound (2 ^ (p.fmt.fb + 1) - 1) k := by
  have hone := Nat.one_le_two_pow (n := p.fmt.fb)
  have hfour : 2 ^ 2 ≤ 2 ^ p.fmt.eb := Nat.pow_le_pow_right two_pos heb
  have hdouble : 2 ^ (p.fmt.fb + 1) = 2 * 2 ^ p.fmt.fb := pow_succ' 2 _
  have hmaxFin : p.fmt.maxFin = (2 ^ (p.fmt.fb + 1) - 1, (k : Int)) := by
    rw [FpFmt.maxFin, hk]
    exact Prod.ext rfl (by rw [hplace]; push_cast; ring)
  refine ⟨hmaxFin, hfb, by omega, by omega, by omega, by unfold FpFmt.emin; omega, by rw [hbig, zpow_natCast]; push_cast; rfl,
    by rw [hgap, zpow_natCast]; push_cast; rfl, fpRow_limit p hp, by omega, fun ex fr hfr hle _ => ?_,
    fun ex fr hex hfr hfin _ => ?_⟩
  · have hne : ex ≠ 2 ^ p.fmt.eb - 1 := by omega
    simp [hk, hne]
  · have hne : ex ≠ 2 ^ p.fmt.eb - 1 := by simpa [hk] using hfin
    exact ⟨by omega, fun _ => by omega⟩

theorem fpRow_sound {p : FpRow} (hp : p ∈ fpRows) : ∃ mm mq, p.Sound mm mq := by
  have hmem := hp
  simp only [fpRows, List.mem_cons, List.not_mem_nil, or_false] at hp
  rcases hp with rfl | rfl | rfl | rfl | rfl | rfl | rfl
  · exact ⟨_, _, .of_ieee hmem 971 rfl (by decide) (by decide) rfl (by simp only [fp64, Nat.reduceAdd]) (by simp only)⟩
  · exact ⟨_, _, .of_ieee hmem 104 rfl (by decide) (by decide) rfl rfl rfl⟩
  · exact ⟨_, _, .of_ieee hmem 5 rfl (by decide) (by decide) rfl rfl rfl⟩
  · exact ⟨_, _, .of_ieee hmem 120 rfl (by decide) (by decide) rfl rfl rfl⟩
  · exact ⟨_, _, .of_ieee hmem 13 rfl (by decide) (by decide) rfl rfl rfl⟩
  · refine ⟨14, 5, rfl, by decide, by decide, by decide, by decide, by decide, by norm_num, by norm_num,
      fpRow_limit _ hmem, by decide, fun ex fr hfr hle htop => ?_, fun ex fr hex hfr _ hfin => ?_⟩
    · simp [e4m3] at *
      omega
    · simp [e4m3] at *
      omega
  · refine ⟨3, 1, rfl, by decide, by decide, by decide, by decide, by decide, by norm_num, by norm_num,
      fpRow_limit _ hmem, by decide, fun ex fr hfr hle htop => ⟨rfl, rfl⟩, fun ex fr hex hfr _ _ => ?_⟩
    simp [e2m1] at *
    omega

/-! ### Codes and their fields -/

section
variable (f : FpFmt) (neg : Bool) {ex fr : Nat}

theorem FpFmt.signBit_eq : f.signBit neg = neg.toNat * 2 ^ (f.eb + f.fb) := by
  cases neg <;> simp [FpFmt.signBit]

variable (hex : ex < 2 ^ f.eb) (hfr : fr < 2 ^ f.fb)
include hex hfr

theorem FpFmt.body_lt : ex * 2 ^ f.fb + fr < 2 ^ (f.eb + f.fb) := by
  have h1 : (ex + 1) * 2 ^ f.fb ≤ 2 ^ f.eb * 2 ^ f.fb := Nat.mul_le_mul_right _ hex
  rw [← pow_add] at h1
  linarith

theorem FpFmt.bits_sign : bits (f.signBit neg + (ex * 2 ^ f.fb + fr)) (f.eb + f.fb) 1 = neg.toNat := by
  rw [bits, FpFmt.signBit_eq, Nat.add_comm, Nat.add_mul_div_right _ _ (Nat.two_pow_pos _), Nat.div_eq_of_lt (f.body_lt hex hfr),
    Nat.zero_add, pow_one]
  cases neg <;> rfl

theorem FpFmt.bits_exponent : bits (f.signBit neg + (ex * 2 ^ f.fb + fr)) f.fb f.eb = ex := by
  have hcode : f.signBit neg + (ex * 2 ^ f.fb + fr) = fr + (ex + neg.toNat * 2 ^ f.eb) * 2 ^ f.fb := by
    rw [FpFmt.signBit_eq, pow_add]
    ring
  rw [bits, hcode, Nat.add_mul_div_right _ _ (Nat.two_pow_pos _), Nat.div_eq_of_lt hfr, Nat.zero_add, Nat.add_mul_mod_self_right,
    Nat.mod_eq_of_lt hex]

omit hex in
theorem FpFmt.bits_fraction : bits (f.signBit neg + (ex * 2 ^ f.fb + fr)) 0 f.fb = fr := by
  have hcode : f.signBit neg + (ex * 2 ^ f.fb + fr) = fr + (ex + neg.toNat * 2 ^ f.eb) * 2 ^ f.fb := by
    rw [FpFmt.signBit_eq, pow_add]
    ring
  rw [bits, hcode, pow_zero, Nat.div_one, Nat.add_mul_mod_self_right, Nat.mod_eq_of_lt hfr]

theorem FpFmt.code_lt : f.signBit neg + (ex * 2 ^ f.fb + fr) < 2 ^ fpWidth f := by
  have hbody := f.body_lt hex hfr
  have hwidth : 2 ^ fpWidth f = 2 * 2 ^ (f.eb + f.fb) := by rw [fpWidth, Nat.add_assoc, Nat.add_comm, pow_succ']
  rw [FpFmt.signBit_eq, hwidth]
  cases neg <;> simp <;> omega

theorem FpFmt.isNeg_code : f.isNeg (f.signBit neg + (ex * 2 ^ f.fb + fr)) = neg := by
  rw [FpFmt.isNeg, f.bits_sign neg hex hfr]
  cases neg <;> rfl

/-- The value of a code that is no infinity and no NaN. -/
theorem FpFmt.decode_code (hi : (f.kind == .ieee && ex == 2 ^ f.eb - 1) = false)
    (hn : (f.kind == .e4m3 && ex == 2 ^ f.eb - 1 && fr == 7) = false) :
    f.decode (f.signBit neg + (ex * 2 ^ f.fb + fr)) =
      if ex = 0 then .fin neg fr (f.emin - f.fb) else .fin neg (2 ^ f.fb + fr) ((ex : Int) - f.bias - f.fb) := by
  have hsign : (neg.toNat == 1) = neg := by cases neg <;> rfl
  simp only [FpFmt.decode, f.bits_sign neg hex hfr, f.bits_exponent neg hex hfr, f.bits_fraction neg hfr, hi, hn, hsign,
    Bool.false_eq_true, if_false, beq_iff_eq]
  rfl

end

/-! ### Values of a format -/

/-- What a magnitude's sign makes of it. -/
def signed1 (neg : Bool) (x : Real) : Real := if neg then -x else x

theorem FV.is_fin_iff {neg : Bool} {m : Nat} {e : Int} {x : Real} :
    (FV.fin neg m e).Is x ↔ x = signed1 neg (m * (2 : Real) ^ e) := by
  unfold FV.Is signed1
  constructor
  · rintro ⟨n, m', e', hv, rfl⟩
    cases hv
    cases neg <;> simp
  · rintro rfl
    exact ⟨neg, m, e, rfl, by cases neg <;> simp⟩

/-- A magnitude with a short mantissa at a place of the format, up to the largest. -/
def FpFmt.Holds (f : FpFmt) (mm : Nat) (mq : Int) (z : Real) : Prop :=
  ∃ (a : Nat) (b : Int), |z| = a * (2 : Real) ^ b ∧ a < 2 ^ (f.fb + 1) ∧ f.emin - f.fb ≤ b ∧ |z| ≤ mm * (2 : Real) ^ mq

section
variable {p : FpRow} {mm : Nat} {mq : Int} (hs : p.Sound mm mq)
include hs

/-- A mantissa that fits its place stays below the largest value. -/
theorem FpRow.Sound.le_big {a : Nat} {b : Int} (ha : a < 2 ^ (p.fmt.fb + 1)) (hb : b ≤ mq) (htop : b = mq → a ≤ mm) :
    (a : Real) * (2 : Real) ^ b ≤ mm * (2 : Real) ^ mq := by
  rcases hb.eq_or_lt with rfl | hlt
  · exact mul_le_mul_of_nonneg_right (by exact_mod_cast htop rfl) (two_zpow_pos _).le
  · have hstep : (2 : Real) ^ b ≤ (2 : Real) ^ (mq - 1) := zpow_le_zpow_right₀ one_le_two (by omega)
    have ha' : (a : Real) ≤ 2 * mm := by
      have := hs.lower
      have hnat : a ≤ 2 * mm := by rw [pow_succ] at ha; omega
      exact_mod_cast hnat
    calc (a : Real) * (2 : Real) ^ b ≤ 2 * mm * (2 : Real) ^ (mq - 1) :=
          mul_le_mul ha' hstep (two_zpow_pos b).le (by positivity)
      _ = mm * (2 : Real) ^ mq := by rw [zpow_sub_one₀ two_ne_zero]; ring

/-- Every value of the format is such a magnitude. -/
theorem FpRow.Sound.holds_of_value {j : Nat} {z : Real} (h : p.Value j z) : p.fmt.Holds mm mq z := by
  obtain ⟨hj, n, m, e, hdec, hz⟩ := h
  have habs : |z| = m * (2 : Real) ^ e := by
    have hpos : (0 : Real) ≤ m * (2 : Real) ^ e := by positivity
    rw [hz, mul_assoc, abs_mul, abs_of_nonneg hpos]
    cases n <;> simp
  have hex : bits j p.fmt.fb p.fmt.eb < 2 ^ p.fmt.eb := Nat.mod_lt _ (Nat.two_pow_pos _)
  have hfr : bits j 0 p.fmt.fb < 2 ^ p.fmt.fb := Nat.mod_lt _ (Nat.two_pow_pos _)
  have hdouble : 2 ^ (p.fmt.fb + 1) = 2 * 2 ^ p.fmt.fb := pow_succ' 2 _
  simp only [FpFmt.decode] at hdec
  generalize bits j p.fmt.fb p.fmt.eb = ex at *
  generalize bits j 0 p.fmt.fb = fr at *
  split at hdec
  · split at hdec <;> cases hdec
  · next hieee =>
    split at hdec
    · cases hdec
    · next hnan =>
      have hbound := hs.bounded ex fr hex hfr (by simpa using hieee) (by simpa using hnan)
      split at hdec
      · obtain ⟨-, rfl, rfl⟩ := FV.fin.inj hdec
        refine ⟨fr, _, habs, by omega, le_rfl, habs ▸ hs.le_big (by omega) hs.place fun _ => ?_⟩
        have := hs.lower
        omega
      · next hpos =>
        obtain ⟨-, rfl, rfl⟩ := FV.fin.inj hdec
        have hpos : ex ≠ 0 := by simpa using hpos
        exact ⟨_, _, habs, by omega, by unfold FpFmt.emin; omega, habs ▸ hs.le_big (by omega) hbound.1 hbound.2⟩

/-- A mantissa of the format at one of its places is packed to a code of its value. -/
theorem FpRow.Sound.pack_short (neg : Bool) {n : Nat} {q : Int} (hn : n < 2 ^ (p.fmt.fb + 1))
    (hq : p.fmt.emin - p.fmt.fb ≤ q) (hsub : n < 2 ^ p.fmt.fb → q = p.fmt.emin - p.fmt.fb)
    (hbig : (n : Real) * (2 : Real) ^ q ≤ mm * (2 : Real) ^ mq) :
    p.Value (p.fmt.pack neg n q) (signed1 neg (n * (2 : Real) ^ q)) ∧ p.fmt.isNeg (p.fmt.pack neg n q) = neg ∧
      p.fmt.pack neg n q % 2 = n % 2 := by
  have hne : (n == 2 ^ (p.fmt.fb + 1)) = false := by simpa using hn.ne
  have hdouble : 2 ^ (p.fmt.fb + 1) = 2 * 2 ^ p.fmt.fb := pow_succ' 2 _
  have heven : 2 ^ p.fmt.fb % 2 = 0 := Nat.mod_eq_zero_of_dvd (dvd_pow_self 2 hs.fb.ne')
  have hsign : p.fmt.signBit neg % 2 = 0 := by
    have htop : 2 ∣ 2 ^ (p.fmt.eb + p.fmt.fb) := dvd_pow_self 2 (by have := hs.fb; omega)
    rw [FpFmt.signBit_eq]
    exact Nat.mod_eq_zero_of_dvd (htop.mul_left _)
  have hlow := hs.lower
  simp only [FpFmt.pack, hne, Bool.false_eq_true, if_false]
  by_cases hsmall : n < 2 ^ p.fmt.fb
  · obtain rfl := hsub hsmall
    have hex : 0 < 2 ^ p.fmt.eb := Nat.two_pow_pos _
    obtain ⟨hi, hnan⟩ := hs.finite 0 n hsmall (by have := hs.place; unfold FpFmt.emin at this; omega)
      (fun h => by have := hs.place; unfold FpFmt.emin at this; omega)
    have hcode : p.fmt.signBit neg + n = p.fmt.signBit neg + (0 * 2 ^ p.fmt.fb + n) := by rw [Nat.zero_mul, Nat.zero_add]
    rw [if_pos hsmall, hcode]
    refine ⟨⟨p.fmt.code_lt neg hex hsmall, ?_⟩, p.fmt.isNeg_code neg hex hsmall, by omega⟩
    rw [p.fmt.decode_code neg hex hsmall hi hnan, if_pos rfl]
    exact FV.is_fin_iff.mpr rfl
  · have hplace : q ≤ mq := by
      by_contra hgt
      have hstep : (2 : Real) ^ (mq + 1) ≤ (2 : Real) ^ q := zpow_le_zpow_right₀ one_le_two (by omega)
      have hmm : (mm : Real) < 2 * n := by
        have := hs.upper
        exact_mod_cast (by omega : mm < 2 * n)
      have hpos := two_zpow_pos mq
      have hn0 : (0 : Real) ≤ n := Nat.cast_nonneg n
      rw [zpow_add_one₀ two_ne_zero] at hstep
      nlinarith
    have htop : q = mq → n ≤ mm := by
      rintro rfl
      exact_mod_cast le_of_mul_le_mul_right hbig (two_zpow_pos q)
    obtain ⟨ex, hexq⟩ : ∃ ex : Nat, (ex : Int) = q + p.fmt.fb + p.fmt.bias :=
      ⟨(q + p.fmt.fb + p.fmt.bias).toNat, by unfold FpFmt.emin at hq; omega⟩
    have hex : ex < 2 ^ p.fmt.eb := by have := hs.top; omega
    have hex0 : ex ≠ 0 := by unfold FpFmt.emin at hq; omega
    have hfr : n - 2 ^ p.fmt.fb < 2 ^ p.fmt.fb := by omega
    have hsum : 2 ^ p.fmt.fb + (n - 2 ^ p.fmt.fb) = n := by omega
    have hq' : (ex : Int) - p.fmt.bias - p.fmt.fb = q := by omega
    obtain ⟨hi, hnan⟩ := hs.finite ex (n - 2 ^ p.fmt.fb) hfr (hq' ▸ hplace) fun h => by
      rw [hsum]
      exact htop (hq'.symm.trans h)
    have htoNat : (q + p.fmt.fb + p.fmt.bias).toNat = ex := by omega
    rw [if_neg hsmall, htoNat]
    refine ⟨⟨p.fmt.code_lt neg hex hfr, ?_⟩, p.fmt.isNeg_code neg hex hfr, ?_⟩
    · rw [p.fmt.decode_code neg hex hfr hi hnan, if_neg hex0, hsum, hq']
      exact FV.is_fin_iff.mpr rfl
    · have hmul : ex * 2 ^ p.fmt.fb % 2 = 0 := by rw [Nat.mul_mod, heven, Nat.mul_zero, Nat.zero_mod]
      omega

/-- The same for a mantissa that rounding has carried to the next power of two. -/
theorem FpRow.Sound.pack_value (neg : Bool) {n : Nat} {q : Int} (hn : n ≤ 2 ^ (p.fmt.fb + 1))
    (hq : p.fmt.emin - p.fmt.fb ≤ q) (hsub : n < 2 ^ p.fmt.fb → q = p.fmt.emin - p.fmt.fb)
    (hbig : (n : Real) * (2 : Real) ^ q ≤ mm * (2 : Real) ^ mq) :
    p.Value (p.fmt.pack neg n q) (signed1 neg (n * (2 : Real) ^ q)) ∧ p.fmt.isNeg (p.fmt.pack neg n q) = neg ∧
      p.fmt.pack neg n q % 2 = n % 2 := by
  rcases hn.lt_or_eq with hlt | rfl
  · exact hs.pack_short neg hlt hq hsub hbig
  · have hlt : 2 ^ p.fmt.fb < 2 ^ (p.fmt.fb + 1) := Nat.pow_lt_pow_right one_lt_two (Nat.lt_succ_self _)
    have hcarry : p.fmt.pack neg (2 ^ (p.fmt.fb + 1)) q = p.fmt.pack neg (2 ^ p.fmt.fb) (q + 1) := by
      simp [FpFmt.pack]
    have hvalue : ((2 ^ (p.fmt.fb + 1) : Nat) : Real) * (2 : Real) ^ q = (2 ^ p.fmt.fb : Nat) * (2 : Real) ^ (q + 1) := by
      rw [zpow_add_one₀ two_ne_zero]
      push_cast
      ring
    rw [hvalue] at hbig ⊢
    obtain ⟨hval, hneg, hpar⟩ := hs.pack_short neg hlt (by omega) (fun h => absurd h (lt_irrefl _)) hbig
    rw [hcarry]
    refine ⟨hval, hneg, hpar.trans ?_⟩
    rw [Nat.mod_eq_zero_of_dvd (dvd_pow_self 2 hs.fb.ne'), Nat.mod_eq_zero_of_dvd (dvd_pow_self 2 (Nat.succ_ne_zero _))]

end

end Sys2Proof.Machine
end

section
/-! PROOFS. The one rounding of an exact magnitude to a format (R154, R155). -/

namespace Sys2Proof.Machine

/-! ### No value of a format is nearer -/

/-- A value does no better than the rounded one, of a code k, for the magnitude X of a sign. -/
def Beats (r : Rnd) (neg : Bool) (X Y : Real) (k : Nat) (z : Real) : Prop :=
  match r with
  | .rn => |X - Y| ≤ |X - z| ∧ (|X - Y| = |X - z| → Y ≠ z → k % 2 = 0)
  | .rz => Y ≤ X ∧ (z ≤ X → z ≤ Y)
  | .rd => if neg then X ≤ Y ∧ (X ≤ z → Y ≤ z) else Y ≤ X ∧ (z ≤ X → z ≤ Y)
  | .ru => if neg then Y ≤ X ∧ (z ≤ X → z ≤ Y) else X ≤ Y ∧ (X ≤ z → Y ≤ z)

section
variable {r : Rnd} {neg : Bool} {X Y z : Real} {k n : Nat}

/-- Rounding down and rounding up, said of the modes that do so. -/
theorem beats_dir (hr : r ≠ .rn) (hdown : r = .rz ∨ r = .rd ∧ neg = false ∨ r = .ru ∧ neg = true → Y ≤ X ∧ (z ≤ X → z ≤ Y))
    (hup : r = .rd ∧ neg = true ∨ r = .ru ∧ neg = false → X ≤ Y ∧ (X ≤ z → Y ≤ z)) : Beats r neg X Y k z := by
  cases r with
  | rn => exact absurd rfl hr
  | rz => exact hdown (.inl rfl)
  | rd =>
    cases neg with
    | true => exact hup (.inl ⟨rfl, rfl⟩)
    | false => exact hdown (.inr (.inl ⟨rfl, rfl⟩))
  | ru =>
    cases neg with
    | true => exact hdown (.inr (.inr ⟨rfl, rfl⟩))
    | false => exact hup (.inr ⟨rfl, rfl⟩)

theorem RoundsMag.down (h : RoundsMag r neg X n) (hr : r = .rz ∨ r = .rd ∧ neg = false ∨ r = .ru ∧ neg = true) :
    (n : Real) ≤ X ∧ X < n + 1 := by
  rcases hr with rfl | ⟨rfl, rfl⟩ | ⟨rfl, rfl⟩ <;> exact h

theorem RoundsMag.up (h : RoundsMag r neg X n) (hr : r = .rd ∧ neg = true ∨ r = .ru ∧ neg = false) :
    X ≤ n ∧ (n : Real) < X + 1 := by
  rcases hr with ⟨rfl, rfl⟩ | ⟨rfl, rfl⟩ <;> exact h

/-- When no value lies strictly between the two integers around a magnitude, the rounded one is as near as any. -/
theorem beats_of_roundsMag (h : RoundsMag r neg X n) {F : Nat} (hF : (F : Real) ≤ X) (hF1 : X < F + 1)
    (hgap : z ≤ F ∨ (F : Real) + 1 ≤ z) : Beats r neg X n n z := by
  by_cases hr : r = .rn
  · subst hr
    obtain ⟨hnear, htie⟩ := (show _ ∧ _ from h)
    have hn := abs_le.mp hnear
    have hnF : n = F ∨ n = F + 1 := by
      have h1 : F < n + 1 := by exact_mod_cast (by linarith [hn.2] : (F : Real) < n + 1)
      have h2 : n < F + 2 := by exact_mod_cast (by push_cast; linarith [hn.1] : (n : Real) < (F + 2 : Nat))
      omega
    have hz : |X - z| = X - z ∧ z ≤ F ∨ |X - z| = z - X ∧ (F : Real) + 1 ≤ z :=
      hgap.imp (fun h1 => ⟨abs_of_nonneg (by linarith), h1⟩)
        fun h1 => ⟨by rw [abs_sub_comm]; exact abs_of_nonneg (by linarith), h1⟩
    have hXn : |X - n| = X - F ∧ (n : Real) = F ∨ |X - n| = F + 1 - X ∧ (n : Real) = F + 1 := by
      rcases hnF with rfl | rfl
      · exact .inl ⟨abs_of_nonneg (by linarith), rfl⟩
      · refine .inr ⟨?_, by push_cast; rfl⟩
        rw [abs_sub_comm]
        push_cast
        exact abs_of_nonneg (by linarith)
    refine ⟨?_, fun he hne => htie ?_⟩
    · rcases hXn with ⟨h1, -⟩ | ⟨h1, -⟩ <;> rcases hz with ⟨h2, h3⟩ | ⟨h2, h3⟩ <;> linarith
    · rcases hXn with ⟨h1, h1'⟩ | ⟨h1, h1'⟩ <;> rcases hz with ⟨h2, h3⟩ | ⟨h2, h3⟩
      · exact absurd (by linarith) hne
      · linarith
      · linarith
      · exact absurd (by linarith) hne
  · refine beats_dir hr (fun hdown => ?_) fun hup => ?_
    · obtain ⟨hle, hlt⟩ := h.down hdown
      have hnF : n = F := by
        have h1 : n < F + 1 := by exact_mod_cast hle.trans_lt hF1
        have h2 : F < n + 1 := by exact_mod_cast hF.trans_lt hlt
        omega
      subst hnF
      exact ⟨hle, fun hz => hgap.resolve_right fun h1 => by linarith⟩
    · obtain ⟨hle, hlt⟩ := h.up hup
      refine ⟨hle, fun hz => ?_⟩
      rcases hgap with hz1 | hz1
      · have hXF : X = F := le_antisymm (hz.trans hz1) hF
        have hnF : n < F + 1 := by
          have : (n : Real) < F + 1 := by rw [← hXF]; exact hlt
          exact_mod_cast this
        have : (n : Real) ≤ F := by exact_mod_cast Nat.lt_succ_iff.mp hnF
        linarith
      · have hnF : n < F + 2 := by
          have : (n : Real) < (F + 2 : Nat) := by push_cast; linarith
          exact_mod_cast this
        have : (n : Real) ≤ F + 1 := by exact_mod_cast Nat.lt_succ_iff.mp hnF
        linarith

theorem Beats.scale (h : Beats r neg X Y k z) {c : Real} (hc : 0 < c) : Beats r neg (X * c) (Y * c) k (z * c) := by
  have hle {a b : Real} : a * c ≤ b * c ↔ a ≤ b := mul_le_mul_iff_left₀ hc
  have habs (a b : Real) : |a * c - b * c| = |a - b| * c := by rw [← sub_mul, abs_mul, abs_of_pos hc]
  cases r with
  | rn =>
    simp only [Beats, habs, hle, mul_left_inj' hc.ne', ne_eq] at h ⊢
    exact h
  | rz => simpa only [Beats, hle] using h
  | rd | ru => cases neg <;> simpa only [Beats, hle, if_true, if_false, Bool.false_eq_true] using h

theorem Beats.congr_code {k' : Nat} (h : Beats r neg X Y k z) (hk : k' % 2 = k % 2) :
    Beats r neg X Y k' z := by
  cases r with
  | rn => exact ⟨h.1, fun he hne => hk.trans (h.2 he hne)⟩
  | rz | rd | ru => exact h

/-- The largest value, for a magnitude beyond it that a mode rounds back to it. -/
theorem beats_big (hY : Y ≤ X) (hz : z ≤ Y) (hback : r = .rd ∧ neg = true ∨ r = .ru ∧ neg = false → X ≤ Y) :
    Beats r neg X Y k z := by
  by_cases hr : r = .rn
  · subst hr
    rw [Beats, abs_of_nonneg (by linarith), abs_of_nonneg (by linarith)]
    exact ⟨by linarith, fun he hne => absurd (by linarith) hne⟩
  · exact beats_dir hr (fun _ => ⟨hY, fun _ => hz⟩) fun hup => ⟨hback hup, fun hle => hY.trans hle⟩

theorem beats_self : Beats r neg X X k z := by
  by_cases hr : r = .rn
  · subst hr
    refine ⟨by rw [sub_self, abs_zero]; exact abs_nonneg _, fun he hne => absurd ?_ hne⟩
    rw [sub_self, abs_zero] at he
    linarith [abs_eq_zero.mp he.symm]
  · exact beats_dir hr (fun _ => ⟨le_rfl, id⟩) fun _ => ⟨le_rfl, id⟩

end

theorem signed1_signed1 (neg : Bool) (x : Real) : signed1 neg (signed1 neg x) = x := by
  cases neg <;> simp [signed1]

theorem abs_signed1 (neg : Bool) (x : Real) : |signed1 neg x| = |x| := by
  cases neg <;> simp [signed1]

theorem FpFmt.Holds.of_abs {f : FpFmt} {mm : Nat} {mq : Int} {z z' : Real} (h : f.Holds mm mq z) (he : |z'| = |z|) :
    f.Holds mm mq z' := by
  unfold FpFmt.Holds
  rwa [he]

/-- The code of a magnitude that beats every value is the nearest, with the sign. -/
theorem FpRow.Sound.nearest {p : FpRow} {mm : Nat} {mq : Int} (hs : p.Sound mm mq) {r : Rnd} {neg : Bool} {X Y : Real} {k : Nat}
    (hX : 0 ≤ X) (hY : 0 ≤ Y) (hval : p.Value k (signed1 neg Y)) (hbeats : ∀ z, p.fmt.Holds mm mq z → Beats r neg X Y k z) :
    p.Nearest r (signed1 neg X) k := by
  refine ⟨_, hval, fun j z hz => ?_⟩
  have hholds := hs.holds_of_value hz
  have hsigned := hbeats (signed1 neg z) (hholds.of_abs (abs_signed1 neg z))
  cases r with
  | rn =>
    have hdist (a b : Real) : |signed1 neg a - b| = |a - signed1 neg b| := by
      cases neg
      · rfl
      · rw [← abs_neg]
        simp only [signed1, if_true]
        congr 1
        ring
    obtain ⟨hle, htie⟩ := hsigned
    simp only [hdist, signed1_signed1]
    exact ⟨hle, fun he hne => htie he fun hYz => hne (by rw [hYz, signed1_signed1])⟩
  | rz =>
    obtain ⟨hle, hmax⟩ := hbeats |z| (hholds.of_abs (abs_abs z))
    simp only [abs_signed1, abs_of_nonneg hX, abs_of_nonneg hY]
    exact ⟨hle, hmax⟩
  | rd =>
    cases neg with
    | false => exact hsigned
    | true =>
      obtain ⟨hle, hmin⟩ := hsigned
      simp only [signed1, if_true] at hmin ⊢
      exact ⟨by linarith, fun hle' => by linarith [hmin (by linarith)]⟩
  | ru =>
    cases neg with
    | false => exact hsigned
    | true =>
      obtain ⟨hle, hmax⟩ := hsigned
      simp only [signed1, if_true] at hmax ⊢
      exact ⟨by linarith, fun hle' => by linarith [hmax (by linarith)]⟩

/-! ### Between neighbours of a binade -/

/-- The place of the last bit of a magnitude between 2^top and 2^(top + 1) (R154). -/
def FpFmt.lastPlace (f : FpFmt) (top : Int) : Int := max top f.emin - f.fb

/-- No value lies strictly between two neighbouring multiples of the last place around a magnitude. -/
theorem FpFmt.Holds.gap {f : FpFmt} {mm : Nat} {mq : Int} {z : Real} (h : f.Holds mm mq z) {X : Real} {top : Int}
    (htop : (2 : Real) ^ top ≤ X) :
    z / (2 : Real) ^ f.lastPlace top ≤ ⌊X / (2 : Real) ^ f.lastPlace top⌋₊ ∨
      (⌊X / (2 : Real) ^ f.lastPlace top⌋₊ : Real) + 1 ≤ z / (2 : Real) ^ f.lastPlace top := by
  obtain ⟨a, b, hz, ha, hb, -⟩ := h
  have hpos := two_zpow_pos (f.lastPlace top)
  rcases le_or_gt z 0 with hneg | hzpos
  · exact .inl ((div_nonpos_of_nonpos_of_nonneg hneg hpos.le).trans (Nat.cast_nonneg _))
  · rw [abs_of_pos hzpos] at hz
    rcases le_or_gt (f.lastPlace top) b with hle | hgt
    · have hint : z / (2 : Real) ^ f.lastPlace top = (a * 2 ^ (b - f.lastPlace top).toNat : Nat) := by
        rw [hz, mul_two_zpow_lower a hle, mul_div_cancel_right₀ _ hpos.ne']
      rw [hint]
      exact (Nat.lt_or_ge _ _).symm.imp (fun hge => by exact_mod_cast hge) fun hlt => by exact_mod_cast hlt
    · left
      have hplace : f.lastPlace top = top - f.fb := by unfold FpFmt.lastPlace at hgt ⊢; omega
      have hF : (2 ^ f.fb : Nat) ≤ ⌊X / (2 : Real) ^ f.lastPlace top⌋₊ := by
        refine Nat.le_floor ?_
        rw [le_div_iff₀ hpos, hplace, Nat.cast_pow, Nat.cast_ofNat, ← zpow_natCast, ← zpow_add₀ two_ne_zero]
        simpa using htop
      refine le_trans ?_ (Nat.cast_le.mpr hF)
      have hstep : (2 : Real) ^ b ≤ (2 : Real) ^ (f.lastPlace top - 1) := zpow_le_zpow_right₀ one_le_two (by omega)
      have ha' : (a : Real) ≤ (2 ^ (f.fb + 1) : Nat) := by exact_mod_cast ha.le
      rw [div_le_iff₀ hpos, hz]
      calc (a : Real) * (2 : Real) ^ b ≤ (2 ^ (f.fb + 1) : Nat) * (2 : Real) ^ (f.lastPlace top - 1) :=
            mul_le_mul ha' hstep (two_zpow_pos b).le (Nat.cast_nonneg _)
        _ = (2 ^ f.fb : Nat) * (2 : Real) ^ f.lastPlace top := by
            rw [zpow_sub_one₀ two_ne_zero]
            push_cast
            ring

/-! ### Bounds of a rounded magnitude -/

section
variable {r : Rnd} {neg : Bool} {x : Real} {n N : Nat} (h : RoundsMag r neg x n)
include h

/-- The rounded number is within a unit. -/
theorem RoundsMag.within : x < n + 1 ∧ (n : Real) < x + 1 := by
  by_cases hr : r = .rn
  · subst hr
    have := abs_le.mp (show _ ∧ _ from h).1
    constructor <;> linarith
  · by_cases hup : r = .rd ∧ neg = true ∨ r = .ru ∧ neg = false
    · obtain ⟨h1, h2⟩ := h.up hup
      exact ⟨by linarith, h2⟩
    · have hdown : r = .rz ∨ r = .rd ∧ neg = false ∨ r = .ru ∧ neg = true := by
        cases r <;> cases neg <;> simp_all
      obtain ⟨h1, h2⟩ := h.down hdown
      exact ⟨h2, by linarith⟩

theorem RoundsMag.ge_nat (hx : (N : Real) ≤ x) : N ≤ n := by
  have hlt : (N : Real) < n + 1 := hx.trans_lt h.within.1
  exact Nat.lt_succ_iff.mp (by exact_mod_cast hlt)

theorem RoundsMag.le_nat (hx : x ≤ N) : n ≤ N := by
  have hlt : (n : Real) < N + 1 := h.within.2.trans_le (by linarith)
  exact Nat.lt_succ_iff.mp (by exact_mod_cast hlt)

end

/-- The magnitudes that a mode rounds below an even number N of units. -/
def roundsBelow (r : Rnd) (neg : Bool) (x N : Real) (u : Real) : Prop :=
  match r with
  | .rn => x < N - u / 2
  | .rz => x < N
  | .rd => if neg then x ≤ N - u else x < N
  | .ru => if neg then x < N else x ≤ N - u

theorem RoundsMag.lt_iff {r : Rnd} {neg : Bool} {x : Real} {n N : Nat} (h : RoundsMag r neg x n) (hN : N % 2 = 0) :
    n < N ↔ roundsBelow r neg x N 1 := by
  have hcast : n < N ↔ (n : Real) + 1 ≤ N := by
    rw [← Nat.succ_le_iff]
    exact_mod_cast Iff.rfl
  have hdown (hd : (n : Real) ≤ x ∧ x < n + 1) : n < N ↔ x < N := by
    refine ⟨fun hlt => hd.2.trans_le (hcast.mp hlt), fun hlt => ?_⟩
    exact_mod_cast hd.1.trans_lt hlt
  have hup (hu : x ≤ n ∧ (n : Real) < x + 1) : n < N ↔ x ≤ N - 1 := by
    rw [hcast]
    refine ⟨fun hle => by linarith [hu.1], fun hle => ?_⟩
    have : n < N := by exact_mod_cast (by linarith [hu.2] : (n : Real) < N)
    exact hcast.mp this
  cases r with
  | rn =>
    obtain ⟨hnear, htie⟩ := (show _ ∧ _ from h)
    obtain ⟨hl, hr⟩ := abs_le.mp hnear
    rw [hcast, roundsBelow]
    constructor
    · intro hle
      by_contra hge
      have hx : x - n = 1 / 2 := by linarith
      have hodd := htie (by rw [hx]; norm_num)
      have hNn : N = n + 1 := by
        have h1 : (N : Real) ≤ (n + 1 : Nat) := by push_cast; linarith
        have h2 : ((n + 1 : Nat) : Real) ≤ N := by push_cast; exact hle
        exact_mod_cast le_antisymm h1 h2
      omega
    · intro hlt
      have : n < N := by exact_mod_cast (by linarith : (n : Real) < N)
      exact hcast.mp this
  | rz => exact hdown h
  | rd =>
    cases neg with
    | true => exact hup h
    | false => exact hdown h
  | ru =>
    cases neg with
    | true => exact hdown h
    | false => exact hup h

theorem roundsBelow_scale {r : Rnd} {neg : Bool} {x N u c : Real} (hc : 0 < c) :
    roundsBelow r neg (x * c) (N * c) (u * c) ↔ roundsBelow r neg x N u := by
  have hlt {a b : Real} : a * c < b * c ↔ a < b := mul_lt_mul_iff_left₀ hc
  have hle {a b : Real} : a * c ≤ b * c ↔ a ≤ b := mul_le_mul_iff_left₀ hc
  have hsub : N * c - u * c = (N - u) * c := by ring
  have hhalf : N * c - u * c / 2 = (N - u / 2) * c := by ring
  cases r with
  | rn => rw [roundsBelow, roundsBelow, hhalf, hlt]
  | rz => exact hlt
  | rd | ru => cases neg <;> simp only [roundsBelow, hsub, hlt, hle, if_true, if_false, Bool.false_eq_true]

theorem roundsBelow_of_le {r : Rnd} {neg : Bool} {x N u : Real} (hu : 0 < u) (h : x ≤ N - u) : roundsBelow r neg x N u := by
  cases r with
  | rn => exact (by linarith : x < N - u / 2)
  | rz => exact (by linarith : x < N)
  | rd | ru => cases neg <;> simp only [roundsBelow, if_true, if_false, Bool.false_eq_true] <;> linarith

theorem not_roundsBelow_of_ge {r : Rnd} {neg : Bool} {x N u : Real} (hu : 0 < u) (h : N ≤ x) : ¬ roundsBelow r neg x N u := by
  cases r with
  | rn =>
    intro hb
    have hb : x < N - u / 2 := hb
    linarith
  | rz => exact h.not_gt
  | rd | ru => cases neg <;> simp only [roundsBelow, if_true, if_false, Bool.false_eq_true] <;> linarith

/-! ### Small results (R154) -/

section
variable {r : Rnd} {neg : Bool} {X : Real} {n : Nat} {top : Int}

theorem FpRow.small_iff (p : FpRow) (hX : 0 < X) : p.Small r (signed1 neg X) ↔
    roundsBelow r neg X ((2 : Real) ^ p.fmt.emin) ((2 : Real) ^ (p.fmt.emin - 1 - p.fmt.fb)) := by
  have hu : -(p.fmt.bias : Int) - p.fmt.fb = p.fmt.emin - 1 - p.fmt.fb := by unfold FpFmt.emin; omega
  have hneg : ¬ (0 : Real) ≤ -X := by linarith
  unfold FpRow.Small
  rw [hu]
  cases r with
  | rn => simp only [roundsBelow, abs_signed1, abs_of_pos hX]; rfl
  | rz => simp only [roundsBelow, abs_signed1, abs_of_pos hX]; rfl
  | rd | ru =>
    cases neg <;> simp only [roundsBelow, signed1, if_true, if_false, Bool.false_eq_true, hX.le, hneg, neg_neg] <;> rfl

/-- A result is small when its magnitude, rounded as if the exponent range had no lower limit, is below the smallest normal. -/
theorem FpRow.free_lt_iff (p : FpRow) (hlo : (2 : Real) ^ top ≤ X) (hhi : X < (2 : Real) ^ (top + 1))
    (hn : RoundsMag r neg (X / (2 : Real) ^ (top - p.fmt.fb)) n) :
    dyLt n (top - p.fmt.fb) 1 p.fmt.emin = true ↔ p.Small r (signed1 neg X) := by
  have hpos := two_zpow_pos (top - p.fmt.fb)
  have hunit (k : Nat) : ((2 ^ (p.fmt.fb + k) : Nat) : Real) * (2 : Real) ^ (top - p.fmt.fb) = (2 : Real) ^ (top + k) := by
    rw [Nat.cast_pow, Nat.cast_ofNat, ← zpow_natCast, ← zpow_add₀ two_ne_zero]
    congr 1
    push_cast
    omega
  have hge : 2 ^ p.fmt.fb ≤ n := hn.ge_nat <| by
    rw [le_div_iff₀ hpos]
    simpa using (hunit 0).le.trans (by simpa using hlo)
  have hle : n ≤ 2 ^ (p.fmt.fb + 1) := hn.le_nat <| by
    rw [div_le_iff₀ hpos, hunit 1]
    exact hhi.le
  have hupos := two_zpow_pos (p.fmt.emin - 1 - p.fmt.fb)
  rw [dyLt_iff, Nat.cast_one, one_mul, p.small_iff ((two_zpow_pos top).trans_le hlo)]
  rcases lt_trichotomy top (p.fmt.emin - 1) with hlt | rfl | hgt
  · have hstep : (2 : Real) ^ (top + 1) ≤ (2 : Real) ^ (p.fmt.emin - 1) := zpow_le_zpow_right₀ one_le_two (by omega)
    have hmin : (2 : Real) ^ p.fmt.emin = 2 * (2 : Real) ^ (p.fmt.emin - 1) := by
      rw [zpow_sub_one₀ two_ne_zero]
      ring
    have hulp : (2 : Real) ^ (p.fmt.emin - 1 - p.fmt.fb) ≤ (2 : Real) ^ (p.fmt.emin - 1) :=
      zpow_le_zpow_right₀ one_le_two (by omega)
    have hminpos := two_zpow_pos (p.fmt.emin - 1)
    refine iff_of_true ?_ (roundsBelow_of_le hupos (by linarith))
    calc (n : Real) * (2 : Real) ^ (top - p.fmt.fb) ≤ (2 ^ (p.fmt.fb + 1) : Nat) * (2 : Real) ^ (top - p.fmt.fb) :=
          mul_le_mul_of_nonneg_right (by exact_mod_cast hle) hpos.le
      _ = (2 : Real) ^ (top + 1) := hunit 1
      _ < (2 : Real) ^ p.fmt.emin := by linarith
  · have hmin : (2 : Real) ^ p.fmt.emin = (2 ^ (p.fmt.fb + 1) : Nat) * (2 : Real) ^ (p.fmt.emin - 1 - p.fmt.fb) := by
      rw [hunit 1]
      congr 1
      push_cast
      omega
    have hround := hn.lt_iff (Nat.mod_eq_zero_of_dvd (dvd_pow_self 2 (Nat.succ_ne_zero p.fmt.fb)))
    rw [← roundsBelow_scale hpos, div_mul_cancel₀ _ hpos.ne', ← hmin, one_mul] at hround
    rw [← hround, hmin, mul_lt_mul_iff_left₀ hpos, Nat.cast_lt]
  · refine iff_of_false (not_lt.mpr ?_) (not_roundsBelow_of_ge hupos ?_)
    · calc (2 : Real) ^ p.fmt.emin ≤ (2 : Real) ^ top := zpow_le_zpow_right₀ one_le_two (by omega)
        _ = (2 ^ p.fmt.fb : Nat) * (2 : Real) ^ (top - p.fmt.fb) := by simpa using (hunit 0).symm
        _ ≤ n * (2 : Real) ^ (top - p.fmt.fb) := mul_le_mul_of_nonneg_right (by exact_mod_cast hge) hpos.le
    · exact (zpow_le_zpow_right₀ one_le_two (by omega)).trans hlo

end

/-! ### The rounding of a magnitude to a format (R154, R155) -/

theorem FpRow.signBit_eq (p : FpRow) (neg : Bool) : p.fmt.signBit neg = if neg then 2 ^ (fpWidth p.fmt - 1) else 0 := by
  have hwidth : fpWidth p.fmt - 1 = p.fmt.eb + p.fmt.fb := by unfold fpWidth; omega
  rw [hwidth]
  rfl

theorem FpFmt.flushes_iff (f : FpFmt) : f.flushes = true ↔ f = fp64 ∨ f = fp32 ∨ f = fp16 ∨ f = bf16 := by
  simp [FpFmt.flushes, or_assoc]

/-- A magnitude whose rounding goes beyond the largest value of the format (R155). -/
def tooBig (r : Rnd) (neg : Bool) (m : Nat) (e : Int) (sticky : Bool) (mm : Nat) (mq : Int) : Bool :=
  match r with
  | .rn => !dyLt m e (2 * mm + 1) (mq - 1)
  | .rz => false
  | .rd => neg && (dyLt mm mq m e || sticky && !dyLt m e mm mq)
  | .ru => !neg && (dyLt mm mq m e || sticky && !dyLt m e mm mq)

section
variable {p : FpRow} {mm : Nat} {mq : Int} (hs : p.Sound mm mq) (md : FpMod) (neg : Bool) {X : Real} {m : Nat} {e : Int}
  {sticky : Bool}
include hs

/-- The steps of `roundRaw` for a mantissa that is not 0. -/
theorem FpRow.Sound.roundRaw_eq (hm : m ≠ 0) : p.fmt.roundRaw md neg m e sticky =
    if tooBig md.rnd neg m e sticky mm mq then p.fmt.overflow md.sat neg
    else if !dyLt m e mm mq then p.fmt.pack neg mm mq
    else if md.ftz && p.fmt.flushes && dyLt (roundAt md.rnd neg m e sticky (Nat.log2 m + e - p.fmt.fb)) (Nat.log2 m + e - p.fmt.fb)
      1 p.fmt.emin then p.fmt.signBit neg
    else p.fmt.pack neg (roundAt md.rnd neg m e sticky (p.fmt.lastPlace (Nat.log2 m + e))) (p.fmt.lastPlace (Nat.log2 m + e)) := by
  have hm' : (m == 0) = false := by simpa using hm
  unfold FpFmt.roundRaw
  rw [hs.maxFin, hm']
  simp only [Bool.false_and, Bool.false_eq_true, if_false]
  rfl

variable (h : Stands X m e sticky) (hlong : sticky = true → 2 ^ (p.fmt.fb + 3) ≤ m)
include h hlong

theorem FpRow.Sound.big_iff : (!dyLt m e mm mq) = true ↔ (p.big : Real) ≤ X := by
  have hshort : sticky = true → mm ≤ m := fun hst => by
    have h1 := hs.upper
    have h2 := hlong hst
    rw [pow_succ] at h1
    rw [pow_add] at h2
    omega
  rw [hs.big, Bool.not_eq_true', ← Bool.not_eq_true, h.lt_iff hshort, not_lt]

theorem FpRow.Sound.tooBig_iff (hX : 0 ≤ X) :
    tooBig md.rnd neg m e sticky mm mq = true ↔ p.Over md.rnd (signed1 neg X) := by
  have hdouble : sticky = true → 2 * mm + 1 ≤ m := fun hst => by
    have h1 := hs.upper
    have h2 := hlong hst
    rw [pow_succ] at h1
    rw [pow_add] at h2
    omega
  have hgt := h.gt_iff (m' := mm) (e' := mq) fun hst => by have := hdouble hst; omega
  have hbig0 : (0 : Real) ≤ p.big := Nat.cast_nonneg _
  rw [← hs.big] at hgt
  unfold tooBig FpRow.Over
  cases md.rnd with
  | rn =>
    have hhalf : (p.big : Real) + p.gap / 2 = (2 * mm + 1 : Nat) * (2 : Real) ^ (mq - 1) := by
      rw [hs.big, hs.gap, zpow_sub_one₀ two_ne_zero]
      push_cast
      ring
    simp only [Bool.not_eq_true', ← Bool.not_eq_true, h.lt_iff hdouble, not_lt, hhalf, abs_signed1, abs_of_nonneg hX]
  | rz => simp
  | rd =>
    cases neg with
    | true => simpa only [Bool.true_and, signed1, if_true, neg_lt_neg_iff] using hgt
    | false => simpa [signed1] using by linarith
  | ru =>
    cases neg with
    | true => simpa [signed1] using by linarith
    | false => simpa only [Bool.not_false, Bool.true_and, signed1, Bool.false_eq_true, if_false] using hgt

omit hs hlong in
/-- The binade of a magnitude. -/
theorem Stands.binade (hm : m ≠ 0) :
    (2 : Real) ^ ((Nat.log2 m : Int) + e) ≤ X ∧ X < (2 : Real) ^ ((Nat.log2 m : Int) + e + 1) := by
  have hpos := two_zpow_pos e
  have hlo : ((2 ^ Nat.log2 m : Nat) : Real) ≤ m := by exact_mod_cast Nat.log2_self_le hm
  have hhi : (m : Real) + 1 ≤ (2 ^ (Nat.log2 m + 1) : Nat) := by exact_mod_cast Nat.lt_log2_self
  constructor
  · rw [zpow_add₀ two_ne_zero, zpow_natCast]
    push_cast at hlo
    exact (mul_le_mul_of_nonneg_right hlo hpos.le).trans h.le
  · rw [add_right_comm, zpow_add₀ two_ne_zero, ← Nat.cast_succ, zpow_natCast]
    push_cast at hhi
    exact h.lt.trans_le (mul_le_mul_of_nonneg_right hhi hpos.le)

/-- A magnitude below the largest value is packed to its nearest. -/
theorem FpRow.Sound.pack_nearest (hm : m ≠ 0) (hbelow : X < p.big) :
    let k := p.fmt.pack neg (roundAt md.rnd neg m e sticky (p.fmt.lastPlace (Nat.log2 m + e))) (p.fmt.lastPlace (Nat.log2 m + e))
    p.Nearest md.rnd (signed1 neg X) k ∧ p.fmt.isNeg k = neg := by
  obtain ⟨hlo, hhi⟩ := h.binade hm
  have hX : 0 ≤ X := h.nonneg
  have hplace : sticky = true → e < p.fmt.lastPlace (Nat.log2 m + e) := fun hst => by
    have hlog : p.fmt.fb + 3 ≤ Nat.log2 m := (Nat.le_log2 hm).mpr (hlong hst)
    unfold FpFmt.lastPlace
    omega
  have hround := roundAt_rounds md.rnd neg h hplace
  have htop : (Nat.log2 m : Int) + e < p.fmt.fb + 1 + mq := by
    have hbig : (p.big : Real) < (2 : Real) ^ ((p.fmt.fb : Int) + 1 + mq) := by
      have hupper : (mm : Real) < (2 ^ (p.fmt.fb + 1) : Nat) := by exact_mod_cast hs.upper
      rw [hs.big, zpow_add₀ two_ne_zero, ← Nat.cast_succ, zpow_natCast]
      push_cast at hupper
      exact mul_lt_mul_of_pos_right hupper (two_zpow_pos mq)
    exact (zpow_lt_zpow_iff_right₀ one_lt_two).mp (hlo.trans_lt (hbelow.trans hbig))
  have hgap (z : Real) (hz : p.fmt.Holds mm mq z) := hz.gap hlo
  have hq : p.fmt.emin - p.fmt.fb ≤ p.fmt.lastPlace (Nat.log2 m + e) := by unfold FpFmt.lastPlace; omega
  have hq' : (Nat.log2 m : Int) + e - p.fmt.fb ≤ p.fmt.lastPlace (Nat.log2 m + e) := by unfold FpFmt.lastPlace; omega
  have hqsub : p.fmt.lastPlace (Nat.log2 m + e) = p.fmt.emin - p.fmt.fb ∨
      p.fmt.lastPlace (Nat.log2 m + e) = (Nat.log2 m : Int) + e - p.fmt.fb := by unfold FpFmt.lastPlace; omega
  have hqmq : p.fmt.lastPlace (Nat.log2 m + e) ≤ mq := by
    have := hs.place
    unfold FpFmt.lastPlace
    omega
  generalize p.fmt.lastPlace (Nat.log2 m + e) = q at *
  generalize roundAt md.rnd neg m e sticky q = n at *
  have hpos := two_zpow_pos q
  have hn : n ≤ 2 ^ (p.fmt.fb + 1) := hround.le_nat <| by
    rw [div_le_iff₀ hpos, Nat.cast_pow, Nat.cast_ofNat, ← zpow_natCast, ← zpow_add₀ two_ne_zero]
    exact hhi.le.trans (zpow_le_zpow_right₀ one_le_two (by push_cast; omega))
  have hsub : n < 2 ^ p.fmt.fb → q = p.fmt.emin - p.fmt.fb := fun hlt => hqsub.resolve_right fun heq => by
    refine hlt.not_ge (hround.ge_nat ?_)
    rw [le_div_iff₀ hpos, heq, Nat.cast_pow, Nat.cast_ofNat, ← zpow_natCast, ← zpow_add₀ two_ne_zero]
    simpa using hlo
  have hbig : (n : Real) * (2 : Real) ^ q ≤ mm * (2 : Real) ^ mq := by
    rw [hs.big, mul_two_zpow_lower mm hqmq] at hbelow
    rw [mul_two_zpow_lower mm hqmq]
    refine mul_le_mul_of_nonneg_right (Nat.cast_le.mpr (hround.le_nat ?_)) hpos.le
    rw [div_le_iff₀ hpos]
    exact hbelow.le
  obtain ⟨hval, hneg, hpar⟩ := hs.pack_value neg hn hq hsub hbig
  refine ⟨hs.nearest hX (by positivity) hval fun z hz => ?_, hneg⟩
  have hx : 0 ≤ X / (2 : Real) ^ q := div_nonneg hX hpos.le
  have hbeats := (beats_of_roundsMag hround (Nat.floor_le hx) (Nat.lt_floor_add_one _) (hgap z hz)).scale hpos
  rw [div_mul_cancel₀ _ hpos.ne', div_mul_cancel₀ _ hpos.ne'] at hbeats
  exact hbeats.congr_code hpar

omit h hlong in
theorem FpRow.Sound.least_le_big : (2 : Real) ^ p.fmt.emin ≤ p.big := by
  have hlower : ((2 ^ p.fmt.fb : Nat) : Real) ≤ mm := by exact_mod_cast hs.lower
  have hplace : (2 : Real) ^ (p.fmt.emin - p.fmt.fb) ≤ (2 : Real) ^ mq := zpow_le_zpow_right₀ one_le_two hs.place
  calc (2 : Real) ^ p.fmt.emin = (2 ^ p.fmt.fb : Nat) * (2 : Real) ^ (p.fmt.emin - p.fmt.fb) := by
        rw [Nat.cast_pow, Nat.cast_ofNat, ← zpow_natCast, ← zpow_add₀ two_ne_zero]
        congr 1
        omega
    _ ≤ mm * (2 : Real) ^ mq := mul_le_mul hlower hplace (two_zpow_pos _).le (Nat.cast_nonneg _)
    _ = p.big := hs.big.symm

omit h hlong in
/-- A magnitude from the largest value on that does not overflow gives the largest value. -/
theorem FpRow.Sound.max_nearest (hX : (p.big : Real) ≤ X) (ho : ¬ p.Over md.rnd (signed1 neg X)) :
    p.Nearest md.rnd (signed1 neg X) (p.fmt.pack neg mm mq) ∧ p.fmt.isNeg (p.fmt.pack neg mm mq) = neg := by
  have hbig0 : (0 : Real) ≤ p.big := Nat.cast_nonneg _
  obtain ⟨hval, hneg, -⟩ := hs.pack_value neg hs.upper.le hs.place (fun hlt => absurd hs.lower hlt.not_ge) le_rfl
  rw [← hs.big] at hval
  refine ⟨hs.nearest (hbig0.trans hX) hbig0 hval fun z ⟨_, _, _, _, _, hz⟩ => beats_big hX ?_ ?_, hneg⟩
  · rw [hs.big]
    exact (le_abs_self z).trans hz
  · intro hup
    unfold FpRow.Over at ho
    rcases hup with ⟨hr, rfl⟩ | ⟨hr, rfl⟩
    · simpa [hr, signed1] using ho
    · simpa [hr, signed1] using ho

omit h hlong in
/-- A zero rounds to the zero of its sign. -/
theorem FpRow.Sound.signBit_rounds : p.Rounds md neg (signed1 neg 0) (p.fmt.signBit neg) := by
  have hzero : signed1 neg 0 = 0 := by cases neg <;> simp [signed1]
  have hbig : (0 : Real) ≤ p.big := Nat.cast_nonneg _
  have hgap : (0 : Real) < p.gap := hs.gap ▸ two_zpow_pos mq
  have hnot : ¬ p.Over md.rnd (signed1 neg 0) := by
    unfold FpRow.Over
    rw [hzero]
    cases md.rnd with
    | rn => exact not_le.mpr (by rw [abs_zero]; linarith)
    | rz => exact id
    | rd => exact not_lt.mpr (by linarith)
    | ru => exact not_lt.mpr hbig
  have hcode : p.fmt.signBit neg = p.fmt.pack neg 0 (p.fmt.emin - p.fmt.fb) := by
    have hne : 0 ≠ 2 ^ (p.fmt.fb + 1) := (Nat.two_pow_pos _).ne
    simp [FpFmt.pack, hne]
  obtain ⟨hval, hneg, -⟩ := hs.pack_value neg (n := 0) (Nat.zero_le _) le_rfl (fun _ => rfl) (by
    rw [Nat.cast_zero, zero_mul, ← hs.big]
    exact hbig)
  rw [Nat.cast_zero, zero_mul, ← hcode] at hval
  rw [← hcode] at hneg
  exact ⟨fun ho => absurd ho hnot, fun _ _ => p.signBit_eq neg, fun _ _ => ⟨hs.nearest le_rfl le_rfl hval fun z _ => beats_self, hneg⟩⟩

/-- `roundRaw` gives the one rounding of the exact result, in every format and mode. -/
theorem FpRow.Sound.roundRaw_rounds : p.Rounds md neg (signed1 neg X) (p.fmt.roundRaw md neg m e sticky) := by
  by_cases hm : m = 0
  · subst hm
    have hst : sticky = false := by
      cases sticky with
      | false => rfl
      | true => exact absurd (hlong rfl) (Nat.two_pow_pos _).not_ge
    subst hst
    have hX : X = 0 := by simpa [Stands] using h
    rw [hX]
    exact hs.signBit_rounds md neg
  · obtain ⟨hlo, hhi⟩ := h.binade hm
    have hX : 0 < X := (two_zpow_pos _).trans_le hlo
    have hover := hs.tooBig_iff md neg h hlong hX.le
    have hbig := hs.big_iff h hlong
    have hplace : sticky = true → e < (Nat.log2 m : Int) + e - p.fmt.fb := fun hst => by
      have hlog : p.fmt.fb + 3 ≤ Nat.log2 m := (Nat.le_log2 hm).mpr (hlong hst)
      omega
    have hsmall := p.free_lt_iff hlo hhi (roundAt_rounds md.rnd neg h hplace)
    have hflush : (md.ftz && p.fmt.flushes && dyLt (roundAt md.rnd neg m e sticky (Nat.log2 m + e - p.fmt.fb))
        (Nat.log2 m + e - p.fmt.fb) 1 p.fmt.emin) = true ↔ p.Flushed md (signed1 neg X) := by
      rw [Bool.and_eq_true, Bool.and_eq_true, FpFmt.flushes_iff, hsmall, and_assoc]
      rfl
    rw [hs.roundRaw_eq md neg hm]
    refine ⟨fun ho => ?_, fun ho hf => ?_, fun ho hf => ?_⟩
    · rw [if_pos (hover.mpr ho), hs.limit]
    · have hnot : ¬ (!dyLt m e mm mq) = true := fun hb =>
        not_roundsBelow_of_ge (two_zpow_pos _) (hs.least_le_big.trans (hbig.mp hb)) ((p.small_iff hX).mp hf.2.2)
      rw [if_neg (mt hover.mp ho), if_neg hnot, if_pos (hflush.mpr hf), p.signBit_eq]
    · rw [if_neg (mt hover.mp ho)]
      by_cases hb : (!dyLt m e mm mq) = true
      · rw [if_pos hb]
        exact hs.max_nearest md neg (hbig.mp hb) ho
      · rw [if_neg hb, if_neg (mt hflush.mp hf)]
        exact hs.pack_nearest md neg h hlong hm (not_le.mp (mt hbig.mpr hb))

end

end Sys2Proof.Machine
end

section
/-! PROOFS. Quotients rounded once to a format or to an integer (R138, R157). -/

namespace Sys2Proof.Machine

/-! ### A quotient of magnitudes -/

/-- An integer quotient stands for the exact one, with what its remainder says. -/
theorem stands_quotient (num : Nat) {d : Nat} (hd : d ≠ 0) (E : Int) :
    Stands ((num : Real) / d * (2 : Real) ^ E) (num / d) E (num % d != 0) := by
  have hdpos : (0 : Real) < d := by exact_mod_cast Nat.pos_of_ne_zero hd
  have hE := two_zpow_pos E
  have hnum : (num : Real) = d * (num / d : Nat) + (num % d : Nat) := by exact_mod_cast (Nat.div_add_mod num d).symm
  have hquot : (num : Real) / d = (num / d : Nat) + ((num % d : Nat) : Real) / d := by
    rw [hnum]
    field_simp
  have hrem : ((num % d : Nat) : Real) / d < 1 := by
    rw [div_lt_one hdpos]
    exact_mod_cast Nat.mod_lt num (Nat.pos_of_ne_zero hd)
  rw [hquot]
  by_cases hz : num % d = 0
  · simp [Stands, hz]
  · have hpos : 0 < ((num % d : Nat) : Real) / d := div_pos (by exact_mod_cast Nat.pos_of_ne_zero hz) hdpos
    simp only [Stands, bne_iff_ne, ne_eq, hz, not_false_eq_true, if_true]
    exact ⟨mul_lt_mul_of_pos_right (by linarith) hE, mul_lt_mul_of_pos_right (by linarith) hE⟩

/-- A quotient of two magnitudes with the dividend carried k places down. -/
theorem quotient_shift (m m' k : Nat) (e e' : Int) :
    (m : Real) * (2 : Real) ^ e / (m' * (2 : Real) ^ e') =
      ((m * 2 ^ k : Nat) : Real) / m' * (2 : Real) ^ (e - e' - k) := by
  have hk : (2 : Real) ^ (e - e' - k) = (2 : Real) ^ e / (2 : Real) ^ e' / 2 ^ k := by
    rw [zpow_sub₀ two_ne_zero, zpow_sub₀ two_ne_zero, zpow_natCast]
  rw [hk]
  push_cast
  field_simp

theorem signed1_div (n n' : Bool) (x y : Real) : signed1 n x / signed1 n' y = signed1 (n != n') (x / y) := by
  cases n <;> cases n' <;> simp [signed1, neg_div, div_neg]

/-- What `Is` says of a value, as a magnitude with a sign. -/
theorem FV.Is.fin {v : FV} {x : Real} (h : v.Is x) : ∃ n m e, v = .fin n m e ∧ x = signed1 n (m * (2 : Real) ^ e) := by
  obtain ⟨n, m, e, rfl, hx⟩ := id h
  exact ⟨n, m, e, rfl, FV.is_fin_iff.mp h⟩

/-- `FpFmt.div` gives the one rounding of the exact quotient (R157). -/
theorem FpRow.Sound.div_rounds {p : FpRow} {mm : Nat} {mq : Int} (hs : p.Sound mm mq) (md : FpMod) {a b : FV} {u v : Real}
    (ha : a.Is u) (hb : b.Is v) (hv : v ≠ 0) : p.Rounds md (a.sign != b.sign) (u / v) (p.fmt.div md a b) := by
  obtain ⟨n, m, e, rfl, rfl⟩ := ha.fin
  obtain ⟨n', m', e', rfl, rfl⟩ := hb.fin
  have hm' : m' ≠ 0 := by
    rintro rfl
    exact hv (by cases n' <;> simp [signed1])
  have hm'b : (m' == 0) = false := by simpa using hm'
  rw [signed1_div]
  simp only [FpFmt.div, hm'b, Bool.false_eq_true, if_false, FV.sign]
  by_cases hm : m = 0
  · subst hm
    simpa using hs.signBit_rounds md (n != n')
  · have hmb : (m == 0) = false := by simpa using hm
    simp only [hmb, Bool.false_eq_true, if_false]
    rw [quotient_shift m m' (p.fmt.fb + 4 + Nat.log2 m')]
    refine hs.roundRaw_rounds md _ (by exact_mod_cast stands_quotient _ hm' _) fun _ => ?_
    rw [Nat.le_div_iff_mul_le (Nat.pos_of_ne_zero hm')]
    have hlog : m' ≤ 2 ^ (Nat.log2 m' + 1) := Nat.lt_log2_self.le
    calc 2 ^ (p.fmt.fb + 3) * m' ≤ 2 ^ (p.fmt.fb + 3) * 2 ^ (Nat.log2 m' + 1) := Nat.mul_le_mul_left _ hlog
      _ = 1 * 2 ^ (p.fmt.fb + 4 + Nat.log2 m') := by rw [← pow_add, one_mul]; congr 1; omega
      _ ≤ m * 2 ^ (p.fmt.fb + 4 + Nat.log2 m') := Nat.mul_le_mul_right _ (Nat.pos_of_ne_zero hm)

/-! ### A quotient rounded to an integer (R156) -/

/-- A last bit that says that more follows serves as the mark of an inexact mantissa does. -/
theorem roundAt_last_bit (r : Rnd) (neg : Bool) (q : Nat) {t : Int} (more : Bool) (ht : t < 0) :
    roundAt r neg (2 * q + more.toNat) (t - 1) false 0 = roundAt r neg q t more 0 := by
  obtain ⟨k, hk⟩ : ∃ k : Nat, t = -(k + 1 : Nat) := ⟨(-t - 1).toNat, by omega⟩
  have h1 : (0 - (t - 1)).toNat = k + 2 := by omega
  have h2 : (0 - t).toNat = k + 1 := by omega
  have hmore : more.toNat < 2 := Bool.toNat_lt more
  have hdiv : (2 * q + more.toNat) / 2 ^ (k + 2) = q / 2 ^ (k + 1) := by
    rw [pow_succ' 2 (k + 1), ← Nat.div_div_eq_div_mul]
    congr 1
    omega
  have hmod : (2 * q + more.toNat) % 2 ^ (k + 2) = 2 * (q % 2 ^ (k + 1)) + more.toNat := by
    rw [pow_succ' 2 (k + 1), Nat.mod_mul]
    have h3 : (2 * q + more.toNat) % 2 = more.toNat := by omega
    have h4 : (2 * q + more.toNat) / 2 = q := by omega
    rw [h3, h4, Nat.add_comm]
  have hhalf : 2 ^ (k + 1) = 2 * 2 ^ k := pow_succ' 2 k
  unfold roundAt
  rw [if_neg (show ¬ (0 : Int) ≤ t - 1 by omega), if_neg (show ¬ (0 : Int) ≤ t by omega), h1, h2]
  dsimp only
  rw [hdiv, hmod, Nat.add_sub_cancel, show k + 2 - 1 = k + 1 from rfl, hhalf]
  generalize q % (2 * 2 ^ k) = rem
  generalize q / (2 * 2 ^ k) = n
  generalize 2 ^ k = H
  cases more with
  | false =>
    have hlt : decide (2 * H < 2 * rem) = decide (H < rem) := by simp
    have heq : (2 * rem == 2 * H) = (rem == H) := by rw [Bool.eq_iff_iff, beq_iff_eq, beq_iff_eq]; omega
    have hne : (2 * rem != 0) = (rem != 0) := by rw [Bool.eq_iff_iff, bne_iff_ne, bne_iff_ne]; omega
    simp only [Bool.toNat_false, Nat.add_zero, hlt, heq, hne]
  | true =>
    have hlt : decide (2 * H < 2 * rem + 1) = (decide (H < rem) || rem == H) := by
      rw [Bool.eq_iff_iff, Bool.or_eq_true, decide_eq_true_iff, decide_eq_true_iff, beq_iff_eq]
      omega
    have heq : (2 * rem + 1 == 2 * H) = false := by rw [beq_eq_false_iff_ne]; omega
    have hne : (2 * rem + 1 != 0) = true := by rw [bne_iff_ne]; omega
    simp only [Bool.toNat_true, hlt, heq, hne, Bool.false_and, Bool.or_false, Bool.true_or, Bool.and_true, Bool.or_true]

/-- A rounded magnitude with its sign is the rounded value. -/
theorem RoundsMag.roundsInt {r : Rnd} {neg : Bool} {X : Real} {n : Nat} (h : RoundsMag r neg X n) :
    RoundsInt r (signed1 neg X) (if neg then -(n : Int) else n) := by
  have hcast : ((if neg then -(n : Int) else n : Int) : Real) = signed1 neg n := by cases neg <;> simp [signed1]
  have hsub : signed1 neg X - signed1 neg n = signed1 neg (X - n) := by
    cases neg
    · rfl
    · simp only [signed1, if_true]
      ring
  unfold RoundsInt
  rw [hcast, hsub]
  cases r with
  | rn =>
    obtain ⟨hnear, htie⟩ := (show _ ∧ _ from h)
    rw [abs_signed1]
    refine ⟨hnear, fun he => ?_⟩
    have := htie he
    cases neg
    · rw [if_neg Bool.false_ne_true]
      exact_mod_cast this
    · rw [if_pos rfl]
      omega
  | rz =>
    obtain ⟨hle, hlt⟩ := (show _ ∧ _ from h)
    have hn : (0 : Real) ≤ n := Nat.cast_nonneg n
    have hX : 0 ≤ X := hn.trans hle
    rw [abs_signed1, abs_signed1, abs_signed1, abs_of_nonneg hn, abs_of_nonneg hX, abs_of_nonneg (sub_nonneg.mpr hle)]
    refine ⟨hle, by linarith, ?_⟩
    cases neg
    · exact mul_nonneg hX hn
    · exact mul_nonneg_of_nonpos_of_nonpos (neg_nonpos.mpr hX) (neg_nonpos.mpr hn)
  | rd | ru =>
    cases neg
    · exact h
    · obtain ⟨h1, h2⟩ := (show _ ∧ _ from h)
      simp only [signed1, if_true]
      exact ⟨by linarith, by linarith⟩

theorem int_eq_of_lt_succ {a b : Int} (h1 : (a : Real) < b + 1) (h2 : (b : Real) < a + 1) : a = b := by
  have h1 : a < b + 1 := by exact_mod_cast h1
  have h2 : b < a + 1 := by exact_mod_cast h2
  omega

/-- The rounded value is unique. -/
theorem roundsInt_unique {r : Rnd} {x : Real} {a b : Int} (ha : RoundsInt r x a) (hb : RoundsInt r x b) : a = b := by
  cases r with
  | rn =>
    obtain ⟨ha1, ha2⟩ := (show _ ∧ _ from ha)
    obtain ⟨hb1, hb2⟩ := (show _ ∧ _ from hb)
    obtain ⟨hal, har⟩ := abs_le.mp ha1
    obtain ⟨hbl, hbr⟩ := abs_le.mp hb1
    have hle : a ≤ b + 1 := by exact_mod_cast (by linarith : (a : Real) ≤ b + 1)
    have hge : b ≤ a + 1 := by exact_mod_cast (by linarith : (b : Real) ≤ a + 1)
    by_contra hne
    rcases (by omega : a = b + 1 ∨ b = a + 1) with rfl | rfl
    · push_cast at hal har ha2
      have h1 : x - (b + 1) = -(1 / 2) := by linarith
      have h2 : x - b = 1 / 2 := by linarith
      have := ha2 (by rw [h1, abs_neg]; norm_num)
      have := hb2 (by rw [h2]; norm_num)
      omega
    · push_cast at hbl hbr hb2
      have h1 : x - (a + 1) = -(1 / 2) := by linarith
      have h2 : x - a = 1 / 2 := by linarith
      have := ha2 (by rw [h2]; norm_num)
      have := hb2 (by rw [h1, abs_neg]; norm_num)
      omega
  | rz =>
    have hnonneg (hx : 0 ≤ x) {c : Int} (hc : RoundsInt .rz x c) : (c : Real) ≤ x ∧ x < c + 1 := by
      obtain ⟨hle, hlt, -⟩ := (show _ ∧ _ ∧ _ from hc)
      rw [abs_of_nonneg hx] at hle
      exact ⟨(le_abs_self _).trans hle, by linarith [(abs_lt.mp hlt).2]⟩
    have hneg (hx : x < 0) {c : Int} (hc : RoundsInt .rz x c) : x ≤ c ∧ (c : Real) < x + 1 := by
      obtain ⟨hle, hlt, -⟩ := (show _ ∧ _ ∧ _ from hc)
      rw [abs_of_neg hx] at hle
      exact ⟨by linarith [neg_abs_le (c : Real)], by linarith [(abs_lt.mp hlt).1]⟩
    rcases le_or_gt 0 x with hx | hx
    · obtain ⟨ha1, ha2⟩ := hnonneg hx ha
      obtain ⟨hb1, hb2⟩ := hnonneg hx hb
      exact int_eq_of_lt_succ (by linarith) (by linarith)
    · obtain ⟨ha1, ha2⟩ := hneg hx ha
      obtain ⟨hb1, hb2⟩ := hneg hx hb
      exact int_eq_of_lt_succ (by linarith) (by linarith)
  | rd | ru =>
    obtain ⟨ha1, ha2⟩ := (show _ ∧ _ from ha)
    obtain ⟨hb1, hb2⟩ := (show _ ∧ _ from hb)
    exact int_eq_of_lt_succ (by linarith) (by linarith)

/-- The places of a finite FP32 value. -/
theorem fv32_place {x m : Nat} {n : Bool} {e : Int} (h : fv32 x = .fin n m e) : -149 ≤ e ∧ e ≤ 105 := by
  have hex : bits x fp32.fb fp32.eb < 2 ^ 8 := Nat.mod_lt _ (Nat.two_pow_pos _)
  have hbias : fp32.bias = 127 ∧ fp32.fb = 23 := ⟨rfl, rfl⟩
  unfold fv32 FpFmt.decode at h
  dsimp only at h
  generalize bits x fp32.fb fp32.eb = ex at *
  split at h
  · split at h <;> cases h
  · split at h
    · cases h
    · split at h
      · obtain ⟨-, -, rfl⟩ := FV.fin.inj h
        omega
      · next hpos =>
        obtain ⟨-, -, rfl⟩ := FV.fin.inj h
        have hpos : ex ≠ 0 := by simpa using hpos
        omega

/-- `quotInt` rounds the exact quotient once and limits it, for a quotient whose bits below the point it carries. -/
theorem quotInt_rounds (r : Rnd) (sg : Bool) (w : Nat) {n n' : Bool} {m m' : Nat} {e e' : Int} (hm' : m' ≠ 0)
    (he : e - e' < 400) {g : Int}
    (hg : RoundsInt r (signed1 n (m * (2 : Real) ^ e) / signed1 n' (m' * (2 : Real) ^ e')) g) :
    quotInt r sg w (.fin n m e) (.fin n' m' e') = clampInt sg w g := by
  have hm'b : (m' == 0) = false := by simpa using hm'
  rw [signed1_div, quotient_shift m m' (400 + Nat.log2 m')] at hg
  have hstands := stands_quotient (m * 2 ^ (400 + Nat.log2 m')) hm' (e - e' - (400 + Nat.log2 m' : Nat))
  have hround := roundAt_rounds r (n != n') (q := 0) hstands fun _ => by push_cast; omega
  rw [zpow_zero, div_one] at hround
  have hgn := roundsInt_unique hg hround.roundsInt
  have hlast := roundAt_last_bit r (n != n') (m * 2 ^ (400 + Nat.log2 m') / m')
    (m * 2 ^ (400 + Nat.log2 m') % m' != 0) (t := e - e' - (400 + Nat.log2 m' : Nat)) (by push_cast; omega)
  have hmore : (if (m * 2 ^ (400 + Nat.log2 m') % m' == 0) = true then 0 else 1) =
      (m * 2 ^ (400 + Nat.log2 m') % m' != 0).toNat := by
    cases hz : m * 2 ^ (400 + Nat.log2 m') % m' == 0 <;> simp [bne, hz]
  simp only [quotInt, hm'b, Bool.false_eq_true, if_false, hmore, FV.toInt, roundInt]
  rw [hgn, ← hlast]

/-- An FP32 quotient rounded to an integer. -/
theorem quotCode_int {md : FpMod} {sg : Bool} {w x y : Nat} {u v : Real} {g : Int} (hu : (fv32 x).Is u) (hv : (fv32 y).Is v)
    (hv0 : v ≠ 0) (hg : RoundsInt md.rnd (u / v) g) :
    quotCode (.int sg w) md (fv32 x) (fv32 y) = unsigned w (clampInt sg w g) := by
  obtain ⟨n, m, e, hx, rfl⟩ := hu.fin
  obtain ⟨n', m', e', hy, rfl⟩ := hv.fin
  have hm' : m' ≠ 0 := by
    rintro rfl
    exact hv0 (by cases n' <;> simp [signed1])
  have hplace : e - e' < 400 := by
    have := (fv32_place hx).2
    have := (fv32_place hy).1
    omega
  rw [quotCode, hx, hy, quotInt_rounds md.rnd sg w hm' hplace hg]

end Sys2Proof.Machine
end

section
/-! PROOFS. Tiles read back (R8, R137, R375), the larger of two values (R139), and the bytes of a stored row (R138). -/

namespace Sys2Proof.Machine

/-! ### Reading a written tile -/

section
variable {α : Type} (d : α)

theorem tget_append_of_listed (t r : Tab α) {a : Nat} (h : ∃ p ∈ t, p.1 = a) : tget d (t ++ r) a = tget d t a := by
  induction t with
  | nil => simp at h
  | cons p t ih =>
    obtain ⟨j, x⟩ := p
    by_cases hj : j = a
    · simp [tget, hj]
    · have ht : ∃ p ∈ t, p.1 = a := by simpa [hj] using h
      simp [tget, hj, ih ht]

theorem tget_append_of_unlisted (t r : Tab α) {a : Nat} (h : ∀ p ∈ t, p.1 ≠ a) : tget d (t ++ r) a = tget d r a := by
  induction t with
  | nil => rfl
  | cons p t ih =>
    rw [List.forall_mem_cons] at h
    rw [List.cons_append, tget, if_neg h.1, ih h.2]

theorem tget_of_unlisted (t : Tab α) {a : Nat} (h : ∀ p ∈ t, p.1 ≠ a) : tget d t a = d := by
  rw [← List.append_nil t, tget_append_of_unlisted d t [] h, tget]

/-- An entry under a key that a filter keeps. -/
theorem tget_filter (t : Tab α) (q : Nat → Bool) {a : Nat} (h : q a = true) :
    tget d (t.filter fun p => q p.1) a = tget d t a := by
  induction t with
  | nil => rfl
  | cons p t ih =>
    obtain ⟨j, x⟩ := p
    by_cases hj : j = a
    · simp [tget, hj, h]
    · cases hq : q j <;> simp [tget, hj, hq, ih]

end

theorem tileList_keys (f : Nat → Word) (k i n : Nat) : ∀ p ∈ tileList f k i n, k + i ≤ p.1 ∧ p.1 < k + i + n := by
  induction n generalizing i with
  | zero => simp [tileList]
  | succ n ih =>
    have hrest : ∀ p ∈ tileList f k (i + 1) n, k + i ≤ p.1 ∧ p.1 < k + i + (n + 1) := fun p hp => by
      have := ih (i + 1) p hp
      omega
    rw [tileList]
    split
    · exact hrest
    · exact List.forall_mem_cons.mpr ⟨by dsimp only; omega, hrest⟩

theorem tget_tileList (f : Nat → Word) (k : Nat) {i n j : Nat} (hi : i ≤ j) (hj : j < i + n) :
    tget 0 (tileList f k i n) (k + j) = f j := by
  induction n generalizing i with
  | zero => omega
  | succ n ih =>
    rcases hi.eq_or_lt with rfl | hlt
    · rw [tileList]
      split
      · next h0 =>
        rw [h0, tget_of_unlisted]
        intro p hp
        have := tileList_keys f k (i + 1) n p hp
        omega
      · rw [tget, if_pos rfl]
    · have hrest := ih (i := i + 1) hlt (by omega)
      rw [tileList]
      split
      · exact hrest
      · rw [tget, if_neg (by omega), hrest]

section
variable (s : State) (b z : Nat)

/-- The words of a written tile. -/
theorem tget_setTile_inside (f : Nat → Nat → Word) {i : Nat} (hi : i < tileWords) :
    tget 0 (s.setTile b z f).tiles (s.tileKey b z + i) = f (i / 192) (i % 192) := by
  unfold State.setTile
  dsimp only
  have hbelow : ∀ p ∈ s.tiles.filter (fun p => decide (p.1 < s.tileKey b z)), p.1 ≠ s.tileKey b z + i := fun p hp => by
    have := of_decide_eq_true (List.mem_filter.mp hp).2
    omega
  have habove : ∀ p ∈ s.tiles.filter (fun p => decide (s.tileKey b z + tileWords ≤ p.1)), p.1 ≠ s.tileKey b z + i :=
    fun p hp => by
      have := of_decide_eq_true (List.mem_filter.mp hp).2
      omega
  rw [List.append_assoc, tget_append_of_unlisted _ _ _ hbelow]
  by_cases hl : ∃ p ∈ tileList (fun i => f (i / 192) (i % 192)) (s.tileKey b z) 0 tileWords, p.1 = s.tileKey b z + i
  · rw [tget_append_of_listed _ _ _ hl, tget_tileList _ _ (Nat.zero_le i) (by omega)]
  · have hu : ∀ p ∈ tileList (fun i => f (i / 192) (i % 192)) (s.tileKey b z) 0 tileWords, p.1 ≠ s.tileKey b z + i :=
      fun p hp he => hl ⟨p, hp, he⟩
    have hword := tget_tileList (fun i => f (i / 192) (i % 192)) (s.tileKey b z) (Nat.zero_le i) (n := tileWords) (by omega)
    rw [tget_append_of_unlisted _ _ _ hu, tget_of_unlisted _ _ habove, ← hword, tget_of_unlisted _ _ hu]

/-- The words outside a written tile. -/
theorem tget_setTile_outside (f : Nat → Nat → Word) {a : Nat} (ha : a < s.tileKey b z ∨ s.tileKey b z + tileWords ≤ a) :
    tget 0 (s.setTile b z f).tiles a = tget 0 s.tiles a := by
  unfold State.setTile
  dsimp only
  have hmid : ∀ p ∈ tileList (fun i => f (i / 192) (i % 192)) (s.tileKey b z) 0 tileWords, p.1 ≠ a := fun p hp => by
    have := tileList_keys _ _ _ _ p hp
    omega
  rcases ha with hlt | hge
  · have hkept := tget_filter 0 s.tiles (fun j => decide (j < s.tileKey b z)) (a := a) (decide_eq_true hlt)
    have habove : ∀ p ∈ s.tiles.filter (fun p => decide (s.tileKey b z + tileWords ≤ p.1)), p.1 ≠ a := fun p hp => by
      have := of_decide_eq_true (List.mem_filter.mp hp).2
      omega
    rw [List.append_assoc]
    by_cases hl : ∃ p ∈ s.tiles.filter (fun p => decide (p.1 < s.tileKey b z)), p.1 = a
    · rw [tget_append_of_listed _ _ _ hl, hkept]
    · have hu : ∀ p ∈ s.tiles.filter (fun p => decide (p.1 < s.tileKey b z)), p.1 ≠ a := fun p hp he => hl ⟨p, hp, he⟩
      rw [tget_append_of_unlisted _ _ _ hu, tget_append_of_unlisted _ _ _ hmid, tget_of_unlisted _ _ habove, ← hkept,
        tget_of_unlisted _ _ hu]
  · have hbelow : ∀ p ∈ s.tiles.filter (fun p => decide (p.1 < s.tileKey b z)), p.1 ≠ a := fun p hp => by
      have := of_decide_eq_true (List.mem_filter.mp hp).2
      omega
    rw [List.append_assoc, tget_append_of_unlisted _ _ _ hbelow, tget_append_of_unlisted _ _ _ hmid]
    exact tget_filter 0 s.tiles (fun j => decide (s.tileKey b z + tileWords ≤ j)) (decide_eq_true hge)

@[simp] theorem tileKey_setTile (b' z' : Nat) (f : Nat → Nat → Word) :
    (s.setTile b z f).tileKey b' z' = s.tileKey b' z' := (rfl)

theorem tile_setTile_same (f : Nat → Nat → Word) {i j : Nat} (hi : i < 64) (hj : j < 192) :
    (s.setTile b z f).tile b z i j = f i j := by
  have hin : 192 * i + j < tileWords := by
    unfold tileWords
    omega
  have hdiv : (192 * i + j) / 192 = i := by omega
  have hmod : (192 * i + j) % 192 = j := by omega
  unfold State.tile
  rw [tileKey_setTile, Nat.add_assoc, tget_setTile_inside s b z f hin, hdiv, hmod]

/-- Tiles begin at multiples of their size, so two that begin apart share no word. -/
theorem tile_setTile_other (f : Nat → Nat → Word) {z' i j : Nat} (hi : i < 64) (hj : j < 192)
    (hne : s.tileKey b z' ≠ s.tileKey b z) (hz' : s.tileKey b z' % tileWords = 0) (hz : s.tileKey b z % tileWords = 0) :
    (s.setTile b z f).tile b z' i j = s.tile b z' i j := by
  unfold State.tile
  rw [tileKey_setTile]
  refine tget_setTile_outside s b z f ?_
  unfold tileWords at *
  omega

/-- The first of two tiles written one after the other. -/
theorem tile_setTile_setTile_first (f g : Nat → Nat → Word) {z' i j : Nat} (hi : i < 64) (hj : j < 192)
    (hne : s.tileKey b z ≠ s.tileKey b z') (hz : s.tileKey b z % tileWords = 0) (hz' : s.tileKey b z' % tileWords = 0) :
    ((s.setTile b z f).setTile b z' g).tile b z i j = f i j := by
  rw [tile_setTile_other (s.setTile b z f) b z' g hi hj hne hz hz', tile_setTile_same s b z f hi hj]

/-- The first columns written, read back (R139). -/
theorem tile_setCols (n : Nat) (f : Nat → Nat → Word) {i j : Nat} (hi : i < 64) (hj : j < 192) :
    (s.setCols b z n f).tile b z i j = if j < n then f i j else s.tile b z i j :=
  tile_setTile_same s b z (fun i j => if j < n then f i j else s.tile b z i j) hi hj

/-- The marks of the columns written fall, the others stand (R375). -/
theorem mem_poisonTile_setCols (n : Nat) (f : Nat → Nat → Word) (a : Nat) :
    a ∈ (s.setCols b z n f).poisonTile ↔ a ∈ s.poisonTile ∧
      ¬ (s.tileKey b z ≤ a ∧ a < s.tileKey b z + tileWords ∧ (a - s.tileKey b z) % 192 < n) := by
  simp only [State.setCols, List.mem_filter, Bool.not_eq_true', ← Bool.not_eq_true, Bool.and_eq_true, decide_eq_true_eq,
    and_assoc]

end

/-! ### The larger of two values -/

/-- "Less than" goes one way only. -/
theorem FV.lt_asymm {u v : FV} (h : u.lt v = true) : v.lt u = false := by
  cases u with
  | nan => simp [FV.lt] at h
  | inf n =>
    cases v with
    | nan => simp [FV.lt] at h
    | inf n' => cases n <;> cases n' <;> simp_all [FV.lt]
    | fin n' m' e' => simpa [FV.lt] using h
  | fin n m e =>
    cases v with
    | nan => simp [FV.lt] at h
    | inf n' => simpa [FV.lt] using h
    | fin n' m' e' =>
      simp only [FV.lt, decide_eq_true_eq] at h
      simp only [FV.lt, min_comm e' e, decide_eq_false_iff_not, not_lt]
      exact h.le

/-- `fvMax` gives NaN for a NaN, the greater where one is greater, else one of the two. -/
theorem fvMax_cases (u v : FV) :
    ((u = .nan ∨ v = .nan) ∧ fvMax u v = .nan) ∨
    ((u ≠ .nan ∧ v ≠ .nan) ∧ u.lt v = true ∧ fvMax u v = v) ∨
    ((u ≠ .nan ∧ v ≠ .nan) ∧ u.lt v = false ∧ v.lt u = true ∧ fvMax u v = u) ∨
    ((u ≠ .nan ∧ v ≠ .nan) ∧ u.lt v = false ∧ v.lt u = false ∧ (fvMax u v = u ∨ fvMax u v = v)) := by
  have hnan (x : FV) : x.isNan = true ↔ x = .nan := by cases x <;> simp [FV.isNan]
  unfold fvMax
  split
  · next h => exact .inl ⟨by simpa [hnan] using h, rfl⟩
  · next h =>
    have hnum : u ≠ .nan ∧ v ≠ .nan := by simpa [hnan] using h
    split
    · next hlt => exact .inr (.inl ⟨hnum, hlt, rfl⟩)
    · next hlt =>
      have hlt : u.lt v = false := by simpa using hlt
      refine .inr (.inr ?_)
      cases hgt : v.lt u with
      | true =>
        refine .inl ⟨hnum, hlt, rfl, ?_⟩
        split
        · rw [if_neg (by simp [FV.eq, hgt])]
        · rfl
      | false =>
        refine .inr ⟨hnum, hlt, rfl, ?_⟩
        split
        · split
          · exact .inr rfl
          · exact .inl rfl
        · exact .inl rfl

theorem fvMax_spec (u v : FV) :
    (fvMax u v = u ∨ fvMax u v = v ∨ fvMax u v = .nan) ∧ (fvMax u v = .nan ↔ u = .nan ∨ v = .nan) ∧
      (u.isNan = false → v.isNan = false →
        (u.lt v = true → fvMax u v = v) ∧ (v.lt u = true → fvMax u v = u)) := by
  rcases fvMax_cases u v with ⟨hn, hmax⟩ | ⟨⟨hu, hv⟩, hlt, hmax⟩ | ⟨⟨hu, hv⟩, hlt, hgt, hmax⟩ | ⟨⟨hu, hv⟩, hlt, hgt, hmax⟩
  · refine ⟨.inr (.inr hmax), iff_of_true hmax hn, fun hu hv => ?_⟩
    rcases hn with rfl | rfl
    · exact absurd hu (by simp [FV.isNan])
    · exact absurd hv (by simp [FV.isNan])
  · refine ⟨.inr (.inl hmax), iff_of_false (by rwa [hmax]) (not_or.mpr ⟨hu, hv⟩), fun _ _ => ⟨fun _ => hmax, fun hgt => ?_⟩⟩
    rw [FV.lt_asymm hlt] at hgt
    cases hgt
  · refine ⟨.inl hmax, iff_of_false (by rwa [hmax]) (not_or.mpr ⟨hu, hv⟩), fun _ _ => ⟨fun h => ?_, fun _ => hmax⟩⟩
    rw [hlt] at h
    cases h
  · refine ⟨hmax.imp_right .inl, iff_of_false ?_ (not_or.mpr ⟨hu, hv⟩), fun _ _ => ⟨fun h => ?_, fun h => ?_⟩⟩
    · rcases hmax with hm | hm <;> rw [hm] <;> assumption
    · rw [hlt] at h
      cases h
    · rw [hgt] at h
      cases h

/-! ### The codes of a row -/

/-- Codes packed w bits apart, the first lowest. -/
def packedCodes (w : Nat) (codes : List Nat) : Nat := codes.foldr (fun c t => c % 2 ^ w + t * 2 ^ w) 0

theorem packedCodes_get (w : Nat) (codes : List Nat) {j : Nat} (h : j < codes.length) :
    packedCodes w codes / 2 ^ (w * j) % 2 ^ w = codes.getD j 0 % 2 ^ w := by
  induction codes generalizing j with
  | nil => simp at h
  | cons c r ih =>
    have hcons : packedCodes w (c :: r) = c % 2 ^ w + packedCodes w r * 2 ^ w := rfl
    rw [hcons]
    cases j with
    | zero => simp
    | succ j =>
      have hpow : 2 ^ (w * (j + 1)) = 2 ^ w * 2 ^ (w * j) := by rw [Nat.mul_succ, Nat.add_comm, Nat.pow_add]
      rw [hpow, ← Nat.div_div_eq_div_mul, Nat.add_mul_div_right _ _ (Nat.two_pow_pos w),
        Nat.div_eq_of_lt (Nat.mod_lt _ (Nat.two_pow_pos w)), Nat.zero_add, ih (Nat.lt_of_succ_lt_succ h),
        List.getD_cons_succ]

theorem rowBytes_eq (e : Elem) : rowBytes e = 24 * e.width := by
  unfold rowBytes
  omega

theorem zstBytes_spec (e : Elem) (codes scales : List Nat) (h : codes.length = 192) :
    ∃ x, zstBytes e (codes, scales) = bytesOf (24 * e.width) x ++ scales.map (.ofNat 8) ∧
      ∀ j, j < 192 → x / 2 ^ (e.width * j) % 2 ^ e.width = codes.getD j 0 % 2 ^ e.width :=
  ⟨packedCodes e.width codes, by rw [← rowBytes_eq]; rfl, fun _ hj => packedCodes_get _ _ (h ▸ hj)⟩

/-! ### Quotients -/

theorem unsigned_clampInt (sg : Bool) (w : Nat) (g : Int) :
    let lo : Int := if sg then -(2 ^ (w - 1) : Nat) else 0
    let hi : Int := if sg then (2 ^ (w - 1) : Nat) - 1 else (2 ^ w : Nat) - 1
    unsigned w (clampInt sg w g) = (max lo (min hi g) % (2 ^ w : Nat)).toNat := by
  cases sg <;> rfl

theorem quotCode_spec {p : FpRow} {md : FpMod} {sg : Bool} {w x y : Nat} {u v : Real} {g : Int} (hp : p ∈ fpRows)
    (hu : (fv32 x).Is u) (hv : (fv32 y).Is v) (hv0 : v ≠ 0) :
    let lo : Int := if sg then -(2 ^ (w - 1) : Nat) else 0
    let hi : Int := if sg then (2 ^ (w - 1) : Nat) - 1 else (2 ^ w : Nat) - 1
    p.Rounds md ((fv32 x).sign != (fv32 y).sign) (u / v) (quotCode (.fp p.fmt) md (fv32 x) (fv32 y)) ∧
      (RoundsInt md.rnd (u / v) g →
        quotCode (.int sg w) md (fv32 x) (fv32 y) = (max lo (min hi g) % (2 ^ w : Nat)).toNat) := by
  obtain ⟨mm, mq, hs⟩ := fpRow_sound hp
  exact ⟨hs.div_rounds md hu hv hv0, fun hg => (quotCode_int hu hv hv0 hg).trans (unsigned_clampInt sg w g)⟩

end Sys2Proof.Machine
end

section
/-! PROOFS. The completions of the matrix unit (R108, R128 to R131, R137 to R140, R158, R159). -/

namespace Sys2Proof.Machine

/-! ### `MMA` and `MMOM` (R128, R131, R108) -/

/-- The column stride of B (R130). -/
theorem bStride_eq (scl : Nat) : bStride scl = if scl = 1 then 36 else 32 := by
  simp only [bStride, beq_iff_eq]

/-- The exact product of an element of A and one of B under the slot's scales (R131). -/
def mmaProd (slot : Nat) (rows : ARows) (sa sb : Word) (m : List Host.Cell) (key i j k : Nat) : FV :=
  let scl := slotScl slot
  let stride := if scl = 1 then 36 else 32
  let p := (aElem (slotElem (slotA slot)) rows i k).mul (bElem (slotElem (slotB slot)) m (key + stride * j) k)
  if scl = 1 then (p.mul (aScale rows i k)).mul (e8m0Val (rdByte m (key + stride * j + 32 + k / 32)).toNat)
  else if scl = 2 then (p.mul (fv32 sa.toNat)).mul (fv32 sb.toNat)
  else p

theorem mmaElem_eq (slot : Nat) (rows : ARows) (sa sb : Word) (m : List Host.Cell) (key : Nat) (z : Word) (i j : Nat) :
    mmaElem slot rows sa sb m key z i j = .ofNat 32 (fp32.round {} ((fv32 z.toNat).add false
      (FV.sum false ((List.range (kOf (slotElem (slotA slot)).width)).map (mmaProd slot rows sa sb m key i j))))) := by
  have hprod (k : Nat) : mmaProd slot rows sa sb m key i j k =
      if slotScl slot == 1 then
        (((aElem (slotElem (slotA slot)) rows i k).mul
          (bElem (slotElem (slotB slot)) m (key + bStride (slotScl slot) * j) k)).mul (aScale rows i k)).mul
          (e8m0Val (rdByte m (key + bStride (slotScl slot) * j + 32 + k / 32)).toNat)
      else if slotScl slot == 2 then
        (((aElem (slotElem (slotA slot)) rows i k).mul
          (bElem (slotElem (slotB slot)) m (key + bStride (slotScl slot) * j) k)).mul (fv32 sa.toNat)).mul (fv32 sb.toNat)
      else (aElem (slotElem (slotA slot)) rows i k).mul
        (bElem (slotElem (slotB slot)) m (key + bStride (slotScl slot) * j) k) := by
    simp only [mmaProd, bStride_eq, beq_iff_eq]
  rw [funext hprod, mmaElem]

section
variable {op : Nat} {o : AsyncOp} {s t : State} {sp : Space} {keys : List Nat} (hop : tfind s.ops op = some o)
  (hfirst : s.opFirst op o = true)
include hop hfirst

theorem execMmaCompletion_ok {zd fs md rows sa sb bk addr} (hk : o.kind = .mma false zd fs md rows sa sb bk addr)
    (hr : s.reach op o bk false .load [addr] (192 * if slotScl fs.toNat = 1 then 36 else 32) = .ok t sp keys)
    (hp : t.tilePoison (s.warp o.warp).block zd anyCol = false) :
    execMmaCompletion op s = .next ((t.setTile (s.warp o.warp).block zd fun i j =>
      .ofNat 32 (fp32.round {} ((fv32 (t.tile (s.warp o.warp).block zd i j).toNat).add false
        (FV.sum false ((List.range (kOf (slotElem (slotA fs.toNat)).width)).map
          (mmaProd fs.toNat rows sa sb (t.bytes sp) (keys.headD 0) i j)))))).finishOp op o) := by
  have hlen : bBytes false (slotScl fs.toNat) = 192 * if slotScl fs.toNat = 1 then 36 else 32 := by
    rw [← bStride_eq]
    rfl
  simp only [execMmaCompletion, hop, hk, hfirst, hlen, hr, hp, Bool.not_true, Bool.false_eq_true, if_false, State.mmaRun,
    mmaElem_eq]

/-- The completion of an `MMOM` none of whose variances of B is negative. -/
theorem execMmomCompletion_ok {zd fs md rows sa sb bk addr} (hk : o.kind = .mma true zd fs md rows sa sb bk addr)
    (hr : s.reach op o bk false .load [addr] 12288 = .ok t sp keys)
    (hp : t.tilePoison (s.warp o.warp).block zd anyCol = false)
    (hp' : t.tilePoison (s.warp o.warp).block (zd + 1) anyCol = false)
    (hn : bNegative (t.bytes sp) (keys.headD 0) = false) :
    execMmomCompletion op s =
      .next ((t.mmomRun o.warp (s.warp o.warp).block zd rows sp (keys.headD 0)).finishOp op o) := by
  have hlen : bBytes true 0 = 12288 := rfl
  simp only [execMmomCompletion, hop, hk, hfirst, hlen, hr, hp, hp', hn, Bool.not_true, Bool.false_eq_true, if_false,
    Bool.or_self, Bool.false_and]

theorem execZldCompletion_ok {zd fs scale bk addr} (hk : o.kind = .zld zd fs scale bk addr)
    (hr : s.reach op o bk false .load (rowAddrs (slotElem (slotB fs.toNat)) (slotScl fs.toNat) addr)
      (rowLen (slotElem (slotB fs.toNat)) (slotScl fs.toNat)) = .ok t sp keys) :
    execZldCompletion op s = .next ((t.setTile (s.warp o.warp).block zd fun i j =>
      zldElem (slotElem (slotB fs.toNat)) (slotScl fs.toNat) scale (t.bytes sp) (keys.getD i 0) j).finishOp op o) := by
  simp only [execZldCompletion, hop, hk, hfirst, hr, Bool.not_true, Bool.false_eq_true, if_false]

theorem execZstCompletion_ok {z fs scale bk addr} (hk : o.kind = .zst z fs scale bk addr)
    (hp : s.tilePoison (s.warp o.warp).block z anyCol = false)
    (hr : s.reach op o bk false .store (rowAddrs (slotElem (slotB fs.toNat)) (slotScl fs.toNat) addr)
      (rowLen (slotElem (slotB fs.toNat)) (slotScl fs.toNat)) = .ok t sp keys) :
    execZstCompletion op s = .next ((t.zstRun (s.warp o.warp).block z fs.toNat scale sp keys).finishOp op o) := by
  simp only [execZstCompletion, hop, hk, hfirst, hp, hr, Bool.not_true, Bool.false_eq_true, if_false]

theorem execAttCompletion_ok {zo zs bk addr scale n cb koff voff t1 t2 sp1 sp2 q k}
    (hk : o.kind = .att zo zs bk addr scale n cb koff voff)
    (hq : s.reach op o bk true .load [addr] 16384 = .ok t1 sp1 q)
    (hkk : t1.reach op o bk true .load [(bk.ptr.toNat : Int) + koff.toNat] 32768 = .ok t2 sp2 k)
    (hv : t2.reach op o bk true .load [(bk.ptr.toNat : Int) + voff.toNat] 32768 = .ok t sp keys)
    (hp : t.tilePoison (s.warp o.warp).block zo attCols = false) :
    execAttCompletion op s = .next ((t.attRun (s.warp o.warp).block zo zs (q.headD 0) (k.headD 0) (keys.headD 0) scale n
      cb).finishOp op o) := by
  simp only [execAttCompletion, hop, hk, hfirst, hq, hkk, hv, hp, Bool.not_true, Bool.false_eq_true, if_false]

/-- `ATTFIN` divides the columns of O by l, once rounded, and gives 0 where l is 0 (R140). -/
theorem execAttfinCompletion_ok {zo} (hk : o.kind = .attfin zo)
    (hp : s.tilePoison (s.warp o.warp).block zo attCols = false) :
    execAttfinCompletion op s = .next ((s.setCols (s.warp o.warp).block zo 128 fun i j =>
      if (fv32 (s.tile (s.warp o.warp).block zo i 129).toNat).isZero then 0
      else .ofNat 32 (fp32.div {} (fv32 (s.tile (s.warp o.warp).block zo i j).toNat)
        (fv32 (s.tile (s.warp o.warp).block zo i 129).toNat))).finishOp op o) := by
  simp only [execAttfinCompletion, hop, hk, hfirst, hp, Bool.not_true, Bool.false_eq_true, if_false]

end

/-! ### The moment tiles (R108) -/

section
variable {m : List Host.Cell} {key : Nat}

theorem bVar_not_neg (hn : bNegative m key = false) {j k : Nat} (hj : j < 192) (hk : k < 16) :
    (bVar m (key + 64 * j) k).isNeg = false := by
  have hcol := List.any_eq_false.mp hn j (List.mem_range.mpr hj)
  rw [Bool.not_eq_true] at hcol
  exact Bool.eq_false_iff.mpr (List.any_eq_false.mp hcol k (List.mem_range.mpr hk))

/-- The variance sum where no variance of B is negative. -/
theorem momVar_of_no_negative (hn : bNegative m key = false) (rows : ARows) (z : Word) (i : Nat) {j : Nat} (hj : j < 192) :
    momVar rows m key z i j = (fv32 z.toNat).add false (FV.sum false ((List.range 16).map fun k =>
      ((aElem (.fp bf16) rows i k).mul (aElem (.fp bf16) rows i k)).mul (bVar m (key + 64 * j) k))) := by
  unfold momVar
  congr 2
  refine List.map_congr_left fun k hk => ?_
  dsimp only
  rw [bVar_not_neg hn hj (List.mem_range.mp hk), if_neg Bool.false_ne_true]

end

@[simp] theorem tile_modWarp (s : State) (w : Nat) (f : Warp → Warp) (b z i j : Nat) :
    (s.modWarp w f).tile b z i j = s.tile b z i j := (rfl)

@[simp] theorem tile_finishOp (s : State) (op : Nat) (o : AsyncOp) (b z i j : Nat) :
    (s.finishOp op o).tile b z i j = s.tile b z i j := (rfl)

/-- +0 for a code of −0 (R106). -/
def plusZero (v : Nat) : Nat := if v == 0x80000000 then 0 else v

theorem plusZero_eq (v : Nat) : plusZero v = if v = 0x80000000 then 0 else v := by
  simp only [plusZero, beq_iff_eq]

section
variable (t : State) (w b zd : Nat) (rows : ARows) (sp : Space) (key : Nat)

/-- The new mean tile. -/
def meanTile (i j : Nat) : Word := .ofNat 32 (fp32.round {} (momMean rows (t.bytes sp) key (t.tile b zd i j) i j))

/-- The new variance tile. -/
def varTile (i j : Nat) : Word :=
  .ofNat 32 (plusZero (fp32.round {} (momVar rows (t.bytes sp) key (t.tile b (zd + 1) i j) i j)))

/-- A moment product writes its two tiles and a status. -/
theorem mmomRun_eq : ∃ f, t.mmomRun w b zd rows sp key =
    ((t.setTile b zd (meanTile t b zd rows sp key)).setTile b (zd + 1) (varTile t b zd rows sp key)).modWarp w f :=
  ⟨_, rfl⟩

end

/-! ### `ZLD` and `ZST` (R137, R138, R158, R159) -/

theorem zldElem_eq (e : Elem) (scl : Nat) (scale : Word) (m : List Host.Cell) (row j : Nat) :
    zldElem e scl scale m row j =
      let v := e.value (bits (rdNat m (row + j * e.width / 8) 4) (j * e.width % 8) e.width)
      .ofNat 32 (fp32.round {} (if scl = 1 then v.mul (e8m0Val (rdByte m (row + 192 * e.width / 8 + j / 32)).toNat)
        else if scl = 2 then v.mul (fv32 scale.toNat) else v)) := by
  simp only [zldElem, rowBytes, beq_iff_eq]

theorem zstRow_eq (slot : Nat) (scale : Word) (z : Nat → Word) :
    zstRow slot scale z =
      let e := slotElem (slotB slot)
      let v (j : Nat) : FV := fv32 (z j).toNat
      let md : FpMod := { rnd := .ofCode (slot / 2 ^ 13 % 4), sat := slot / 2 ^ 12 % 2 == 1 }
      let scaleOf (g : Nat) : Nat := blockScale e ((List.range 32).map fun k => v (32 * g + k))
      let code (j : Nat) : Nat :=
        if slotScl slot = 1 then blockCode e md (scaleOf (j / 32)) (v j)
        else if slotScl slot = 2 then quotCode e md (v j) (fv32 scale.toNat)
        else e.write md (.inr (v j))
      ((List.range 192).map code, if slotScl slot = 1 then (List.range 6).map scaleOf else []) := by
  have hrnd : slotRnd slot = slot / 2 ^ 13 % 4 := rfl
  have hsat : slotSat slot = (slot / 2 ^ 12 % 2 == 1) := rfl
  unfold zstRow
  dsimp only
  rw [hrnd, hsat]
  split
  · next h =>
    simp only [h, if_true]
    refine congrArg (·, _) (List.map_congr_left fun j hj => ?_)
    have hlt : j / 32 < 6 := by
      have := List.mem_range.mp hj
      omega
    congr 1
    simp [List.getD_eq_getElem?_getD, hlt]
  · next h => simp only [h, if_true, if_neg (show ¬ (2 : Nat) = 1 by decide)]
  · next h1 h2 => simp only [if_neg h1, if_neg h2]

/-! ### `ATT` (R139) -/

theorem map_zipIdx_range {α β : Type} (n : Nat) (g : Nat → α) (f : α × Nat → β) :
    (((List.range n).map g).zipIdx).map f = (List.range n).map fun i => f (g i, i) := by
  refine List.ext_getElem (by simp) fun i h1 h2 => ?_
  simp

section
variable (mem : List Host.Cell) (q k v : Nat) (scale : FV) (n : Nat) (cb : Int) (i : Nat)

/-- The score of row i for key j (R139). -/
def attScore (j : Nat) : FV :=
  if n ≤ j ∨ cb + i < j then .inf true
  else rn32 (scale.mul (rn32 (FV.sum false ((List.range 128).map fun d => (attElem mem q i d).mul (attElem mem k j d)))))

theorem attScores_eq : attScores mem q k scale n cb i = (List.range 128).map (attScore mem q k scale n cb i) := by
  refine List.map_congr_left fun j _ => ?_
  simp only [attScore, Bool.or_eq_true, decide_eq_true_eq]

variable (score : Nat → FV) (m l : FV) (o : Nat → FV)

/-- The new maximum of a row (R139). -/
def attTop : FV := ((List.range 128).map score).foldl fvMax m

/-- The factor of the row's old sums. -/
def attAlpha : FV := if attTop score m == .inf true then fvOne else ex2Rn (rn32 (m.add false (attTop score m).neg))

/-- The weight of key j. -/
def attWeight (j : Nat) : FV :=
  if attTop score m == .inf true then fvZero else ex2Rn (rn32 ((score j).add false (attTop score m).neg))

theorem attRow_eq : attRow mem v ((List.range 128).map score) m l o =
    { m := attTop score m
      l := rn32 ((rn32 ((attAlpha score m).mul l)).add false (FV.sum false ((List.range 128).map (attWeight score m))))
      o := fun d => rn32 ((rn32 ((attAlpha score m).mul (o d))).add false
        (FV.sum false ((List.range 128).map fun h => (attWeight score m h).mul (attElem mem v h d)))) } := by
  have hweights : ((List.range 128).map score).map (fun x => if attTop score m == .inf true then fvZero
      else ex2Rn (rn32 (x.add false (attTop score m).neg))) = (List.range 128).map (attWeight score m) := by
    rw [List.map_map]
    exact List.map_congr_left fun j _ => by rw [Function.comp_apply, attWeight]
  unfold attRow
  dsimp only
  rw [show ((List.range 128).map score).foldl fvMax m = attTop score m from rfl, hweights]
  simp only [map_zipIdx_range, attAlpha]

end

section
variable (t : State) (b zo zs q k v : Nat) (scale n cb : Word)

/-- The new O, m and l of an attention step, by row and column (R139). -/
def attTile (i j : Nat) : Word :=
  let z (j : Nat) : FV := fv32 (t.tile b zo i j).toNat
  let score := attScore t.shared q k (fv32 scale.toNat) (min n.toNat 128) cb.toInt i
  let code (x : FV) : Word := .ofNat 32 (fp32.round {} x)
  if j < 128 then code (rn32 ((rn32 ((attAlpha score (z 128)).mul (z j))).add false
    (FV.sum false ((List.range 128).map fun h => (attWeight score (z 128) h).mul (attElem t.shared v h j)))))
  else if j = 128 then code (attTop score (z 128))
  else code (rn32 ((rn32 ((attAlpha score (z 128)).mul (z 129))).add false
    (FV.sum false ((List.range 128).map (attWeight score (z 128))))))

theorem attRun_eq : t.attRun b zo zs q k v scale n cb =
    (t.setCols b zo 130 (attTile t b zo q k v scale n cb)).freeTile b zs := by
  have htile : (fun i j => attTile t b zo q k v scale n cb i j) = attTile t b zo q k v scale n cb := rfl
  rw [← htile]
  simp only [State.attRun, attTile, attScores_eq, attRow_eq, beq_iff_eq]

end

end Sys2Proof.Machine
end

section
/-! PROOFS. The completions of the matrix unit, element by element. -/

namespace Sys2Proof.Machine

/-- Settles O33: each completion is the model's run of it, whose elements the lemmas above write out; tiles read back what was
written to them, and a quotient is rounded once because the bits below the point that its code keeps stand for the exact one. -/
theorem matrixCompletions : Obligations.MatrixCompletions := by
  unfold Obligations.MatrixCompletions
  intro op o s t sp keys b m key rnd z0 hop hfirst
  refine ⟨?mma, ?mmom, ?zld, ?zst, ?att, ?attfin, ?cols, fvMax_spec, zstBytes_spec, ?quot⟩
  case mma =>
    intro zd fs md rows sa sb bk addr hk slot scl ea stride prod hr hp
    exact execMmaCompletion_ok hop hfirst hk hr hp
  case mmom =>
    intro zd fs md rows sa sb bk addr hk hr hp hp' hn
    obtain ⟨f, hrun⟩ := mmomRun_eq t o.warp b zd rows sp key
    refine ⟨_, execMmomCompletion_ok hop hfirst hk hr hp hp' hn, ?_⟩
    rw [hrun]
    refine ⟨fun i j hi hj hne hz hz' => ⟨?_, ?_⟩, rfl, rfl, rfl, rfl⟩
    · rw [tile_finishOp, tile_modWarp, tile_setTile_setTile_first _ _ _ _ _ hi hj hne hz hz']
      rfl
    · rw [tile_finishOp, tile_modWarp, tile_setTile_same _ _ _ _ hi hj, varTile, plusZero_eq,
        momVar_of_no_negative hn _ _ _ hj]
  case zld =>
    intro zd fs scale bk addr hk e scl hr
    refine (execZldCompletion_ok hop hfirst hk hr).trans ?_
    simp only [zldElem_eq]
    rfl
  case zst =>
    intro z fs scale bk addr hk e scl hp hr v md scaleOf code row
    refine (execZstCompletion_ok hop hfirst hk hp hr).trans ?_
    simp only [State.zstRun, zstRow_eq]
    rfl
  case att =>
    intro zo zs bk addr scale n cb koff voff t1 t2 sp1 sp2 q k hk hq hkk hv hp rn ex2 z bf score top dead al p
    refine (execAttCompletion_ok hop hfirst hk hq hkk hv hp).trans ?_
    rw [attRun_eq]
    rfl
  case attfin =>
    intro zo hk hp
    exact execAttfinCompletion_ok hop hfirst hk hp
  case cols =>
    exact fun z n i j f hi hj _ => ⟨tile_setCols s _ z n f hi hj, mem_poisonTile_setCols s _ z n f⟩
  case quot =>
    intro p md sg w x y u v g hp _ hu hv hv0
    exact quotCode_spec hp hu hv hv0

end Sys2Proof.Machine
end
